-- ==== Sys2Proof/Word.lean ====
section
/-! DEFINITION. The machine's word types (00_scope.md R6: little-endian, bit 0 least significant). -/

namespace Sys2Proof

/-- A byte of memory, scratchpad or an instruction. -/
abbrev Byte := BitVec 8
/-- A vector register (R120). -/
abbrev Word := BitVec 32
/-- A scalar register, or an even-odd vector pair (R120). -/
abbrev Dword := BitVec 64

/-- A table of entries by number; an entry that is not listed has the table's default. -/
abbrev Tbl (α : Type) := List (Nat × α)

end Sys2Proof
end

