-- ==== Sys2Proof/Machine/Flags.lean ====
section
/-! DEFINITION. Floating-point formats, rounding and the flags of sr.fstat (08_number_formats.md R134, R135, R141 to R144,
R131). A value is an exact integer times a power of two; every operation is exact and rounds once at the end. -/

namespace Sys2Proof.Machine

/-! ## Flags (R131) -/

def fNV : BitVec 6 := 1
def fDZ : BitVec 6 := 2
def fOF : BitVec 6 := 4
def fUF : BitVec 6 := 8
def fNX : BitVec 6 := 16
def fSCLAMP : BitVec 6 := 32

/-! ## Formats (R134) -/

/-- A float format: exponent and fraction widths, bias; its largest finite value's code without sign, its
infinity's and canonical NaN's (R135). A format without infinity or NaN has none. -/
structure Fmt where
  eb   : Nat
  fb   : Nat
  bias : Int
  maxc : Nat
  inf  : Option Nat
  nan  : Option Nat
  deriving DecidableEq, Repr

def Fmt.f32  : Fmt := ⟨8, 23, 127, 0x7F7FFFFF, some 0x7F800000, some 0x7FC00000⟩
def Fmt.f16  : Fmt := ⟨5, 10, 15, 0x7BFF, some 0x7C00, some 0x7E00⟩
def Fmt.bf16 : Fmt := ⟨8, 7, 127, 0x7F7F, some 0x7F80, some 0x7FC0⟩
def Fmt.e4m3 : Fmt := ⟨4, 3, 7, 0x7E, none, some 0x7F⟩
def Fmt.e5m2 : Fmt := ⟨5, 2, 15, 0x7B, some 0x7C, some 0x7E⟩
def Fmt.e2m1 : Fmt := ⟨2, 1, 1, 7, none, none⟩

/-- The float format of a type code (R267). -/
def fmtOf (ty : Nat) : Option Fmt :=
  match ty with
  | 8 => some .f32 | 9 => some .f16 | 10 => some .bf16 | 11 => some .e4m3 | 12 => some .e5m2 | 13 => some .e2m1
  | _ => none

/-- The width of a format's codes. -/
def Fmt.width (f : Fmt) : Nat := 1 + f.eb + f.fb

/-- A value: NaN (signalling or quiet), infinity, or (−1)^neg × mant × 2^exp. -/
inductive Num where
  | nan (sig : Bool)
  | inf (neg : Bool)
  | fin (neg : Bool) (mant : Nat) (exp : Int)
  deriving DecidableEq, Repr

/-- The value of a code (R134, R135). Every NaN of E4M3 and E5M2 is quiet. -/
def Fmt.unpack (f : Fmt) (code : Nat) : Num :=
  let neg := code / 2 ^ (f.eb + f.fb) % 2 = 1
  let e := code / 2 ^ f.fb % 2 ^ f.eb
  let m := code % 2 ^ f.fb
  let mag := code % 2 ^ (f.eb + f.fb)
  if f.maxc < mag then
    if f.inf = some mag then .inf neg
    else .nan (f.fb ≥ 7 && m < 2 ^ (f.fb - 1))
  else if e = 0 then .fin neg m (1 - f.bias - f.fb)
  else .fin neg (2 ^ f.fb + m) (e - f.bias - f.fb)

/-- The rounding modes (R141). -/
inductive RM where
  | rne | rtz | rup | rdn
  deriving DecidableEq, Repr

/-- The captured mode's rounding (R131). -/
def rmOf (mode : BitVec 3) : RM :=
  match (mode.extractLsb' 0 2).toNat with
  | 0 => .rne | 1 => .rtz | 2 => .rup | _ => .rdn

def ftzOf (mode : BitVec 3) : Bool := mode.getLsbD 2

/-- A magnitude in 2^-k units rounded to an integer, with a sticky bit for what lies below; the integer, and whether
anything was lost. -/
def roundTo (rm : RM) (neg : Bool) (mant k : Nat) (sticky : Bool) : Nat × Bool :=
  let q := mant / 2 ^ k
  let r := mant % 2 ^ k
  let inexact := r != 0 || sticky
  let half := 2 ^ k / 2
  let up :=
    match rm with
    | .rtz => false
    | .rup => inexact && !neg
    | .rdn => inexact && neg
    | .rne => k != 0 && (r > half || (r == half && (sticky || q % 2 == 1)))
  (if up then q + 1 else q, inexact)

/-- The magnitude rounded to a quantum 2^qe. -/
def quantize (rm : RM) (neg : Bool) (mant : Nat) (exp qe : Int) (sticky : Bool) : Nat × Bool :=
  if qe ≤ exp then roundTo rm neg (mant * 2 ^ (exp - qe).toNat * 2 + (if sticky then 1 else 0)) 1 false
  else roundTo rm neg mant (qe - exp).toNat sticky

/-- An exact finite value rounded once to a format: its code and the flags (R141 to R144). `sticky` says that the true
magnitude lies strictly between mant and mant + 1 units. `sat`: an overflow saturates to the largest finite value. -/
def Fmt.round (f : Fmt) (rm : RM) (ftz sat : Bool) (neg : Bool) (mant : Nat) (exp : Int) (sticky : Bool) :
    Nat × BitVec 6 :=
  let sgn := if neg then 2 ^ (f.eb + f.fb) else 0
  if mant = 0 && !sticky then (sgn, 0)
  else
    let top := (mant.log2 : Int) + exp
    let emin := 1 - f.bias
    let q0 := top - f.fb
    let qe := if q0 < emin - f.fb then emin - f.fb else q0
    let (m, nx) := quantize rm neg mant exp qe sticky
    let carry := m = 2 ^ (f.fb + 1)
    let m1 := if carry then 2 ^ f.fb else m
    let qe1 := if carry then qe + 1 else qe
    let mag : Nat := if m1 < 2 ^ f.fb then m1 else ((qe1 + f.fb + f.bias).toNat * 2 ^ f.fb + (m1 - 2 ^ f.fb))
    if f.maxc < mag then
      let limit :=
        match f.inf with
        | none => f.maxc
        | some i =>
          if sat then f.maxc
          else match rm with
            | .rne => i
            | .rtz => f.maxc
            | .rup => if neg then f.maxc else i
            | .rdn => if neg then i else f.maxc
      (sgn + limit, fOF ||| fNX)
    else if ftz && m1 < 2 ^ f.fb && m1 != 0 then (sgn, fUF ||| fNX)
    else
      -- tiny after rounding: the value rounded with unbounded exponent lies below the smallest normal (R143)
      let (mu, _) := quantize rm neg mant exp q0 sticky
      let tiny := top < emin - 1 || (top == emin - 1 && mu < 2 ^ (f.fb + 1))
      let fl := if nx then (if tiny then fUF ||| fNX else fNX) else 0
      if ftz && m1 = 0 then (sgn, fUF ||| fNX) else (sgn + mag, fl)

/-- The code of a format's canonical NaN; E2M1 has none and gives +0 (R144). (DEDUCED, log entry 32.) -/
def Fmt.nanCode (f : Fmt) : Nat := f.nan.getD 0

/-- The code of an infinity; a format without one gives its largest finite value (R144). (DEDUCED, log entry 32.) -/
def Fmt.infCode (f : Fmt) (neg : Bool) : Nat :=
  (if neg then 2 ^ (f.eb + f.fb) else 0) + f.inf.getD f.maxc

/-- A subnormal input flushed to zero of its sign (R142). (DEDUCED, log entry 32.) -/
def Fmt.input (f : Fmt) (ftz : Bool) (code : Nat) : Num :=
  match f.unpack code with
  | .fin neg m e => if ftz && m < 2 ^ f.fb then .fin neg 0 e else .fin neg m e
  | x => x

def Num.sigNaN : Num → Bool
  | .nan s => s
  | _ => false
def Num.isNaN : Num → Bool
  | .nan _ => true
  | _ => false

/-- NV where an operand is a signalling NaN (R143). -/
def sigFlag (l : List Num) : BitVec 6 := if l.any Num.sigNaN then fNV else 0

/-- The signed integer of a finite value in units of 2^e, for an e not above its exponent. -/
def scaled (neg : Bool) (m : Nat) (x e : Int) : Int :=
  let v : Int := (m : Int) * 2 ^ (x - e).toNat
  if neg then -v else v

/-- An exact sum rounded (R143): the sign of an exact zero sum of opposite-signed operands is + or, under RDN, −. -/
def Fmt.sum (f : Fmt) (rm : RM) (ftz : Bool) (na : Bool) (ma : Nat) (ea : Int) (nb : Bool) (mb : Nat) (eb : Int) :
    Nat × BitVec 6 :=
  let e := if ea ≤ eb then ea else eb
  let v := scaled na ma ea e + scaled nb mb eb e
  if v = 0 then
    let neg := if na == nb then na else rm == .rdn
    (if neg then 2 ^ (f.eb + f.fb) else 0, 0)
  else f.round rm ftz false (v < 0) v.natAbs e false

/-- A + B (R143, R345). -/
def Fmt.add (f : Fmt) (mode : BitVec 3) (a b : Num) : Nat × BitVec 6 :=
  match a, b with
  | .nan _, _ => (f.nanCode, sigFlag [a, b])
  | _, .nan _ => (f.nanCode, sigFlag [a, b])
  | .inf x, .inf y => if x == y then (f.infCode x, 0) else (f.nanCode, fNV)
  | .inf x, _ => (f.infCode x, 0)
  | _, .inf y => (f.infCode y, 0)
  | .fin na ma ea, .fin nb mb eb => f.sum (rmOf mode) (ftzOf mode) na ma ea nb mb eb

def Num.neg : Num → Num
  | .nan s => .nan s
  | .inf n => .inf (!n)
  | .fin n m e => .fin (!n) m e

/-- A × B as an exact value; none: 0 × ∞ (R143). -/
def Num.mul (a b : Num) : Option Num :=
  match a, b with
  | .nan s, .nan t => some (.nan (s || t))
  | .nan s, _ => some (.nan s)
  | _, .nan t => some (.nan t)
  | .inf x, .inf y => some (.inf (x != y))
  | .inf x, .fin y m _ => if m = 0 then none else some (.inf (x != y))
  | .fin x m _, .inf y => if m = 0 then none else some (.inf (x != y))
  | .fin x m e, .fin y n k => some (.fin (x != y) (m * n) (e + k))

def Fmt.mul (f : Fmt) (mode : BitVec 3) (a b : Num) : Nat × BitVec 6 :=
  match a.mul b with
  | none => (f.nanCode, fNV)
  | some (.nan _) => (f.nanCode, sigFlag [a, b])
  | some (.inf n) => (f.infCode n, 0)
  | some (.fin n m e) => f.round (rmOf mode) (ftzOf mode) false n m e false

/-- A × B + C, rounded once (R143, R346). -/
def Fmt.fma (f : Fmt) (mode : BitVec 3) (a b c : Num) : Nat × BitVec 6 :=
  match a.mul b with
  | none => (f.nanCode, fNV)
  | some p =>
    match p, c with
    | .nan _, _ => (f.nanCode, sigFlag [a, b, c])
    | _, .nan _ => (f.nanCode, sigFlag [a, b, c])
    | .inf x, .inf y => if x == y then (f.infCode x, 0) else (f.nanCode, fNV)
    | .inf x, _ => (f.infCode x, 0)
    | _, .inf y => (f.infCode y, 0)
    | .fin na ma ea, .fin nb mb eb => f.sum (rmOf mode) (ftzOf mode) na ma ea nb mb eb

/-- a < b on values that are not NaN; −0 counts as equal to +0. -/
def Num.lt (a b : Num) : Bool :=
  match a, b with
  | .inf true, .inf true => false
  | .inf true, _ => true
  | .inf false, _ => false
  | _, .inf n => !n
  | .fin na ma ea, .fin nb mb eb =>
    let e := if ea ≤ eb then ea else eb
    scaled na ma ea e < scaled nb mb eb e
  | _, _ => false

/-- a = b on values that are not NaN. -/
def Num.eqv (a b : Num) : Bool :=
  match a, b with
  | .nan _, _ => false
  | _, .nan _ => false
  | _, _ => !a.lt b && !b.lt a

def Num.sign : Num → Bool
  | .nan _ => false
  | .inf n => n
  | .fin n _ _ => n

/-- The code of a value that its format represents. -/
def Fmt.exact (f : Fmt) : Num → Nat
  | .nan _ => f.nanCode
  | .inf n => f.infCode n
  | .fin n m e => (f.round .rne false false n m e false).1

/-- FMIN and FMAX (R143, R345); −0 counts as smaller than +0. -/
def Fmt.minmax (f : Fmt) (max : Bool) (a b : Num) : Nat × BitVec 6 :=
  match a, b with
  | .nan _, .nan _ => (f.nanCode, sigFlag [a, b])
  | .nan _, _ => (f.exact b, sigFlag [a])
  | _, .nan _ => (f.exact a, sigFlag [b])
  | _, _ =>
    let less := a.lt b || (a.eqv b && a.sign && !b.sign)
    (f.exact (if less != max then a else b), 0)

/-- A value converted to a float format with a rounding (R144); `sat` is CVT's saturating form. (DEDUCED, log entry 32.) -/
def Fmt.convert (f : Fmt) (rm : RM) (ftz sat : Bool) (x : Num) : Nat × BitVec 6 :=
  match x with
  | .nan s =>
    match f.nan with
    | some c => (c, if s then fNV else 0)
    | none => (0, fNV)
  | .inf n =>
    match f.inf with
    | some _ => if sat then ((if n then 2 ^ (f.eb + f.fb) else 0) + f.maxc, fOF) else (f.infCode n, 0)
    | none => (f.infCode n, fOF)
  | .fin n m e => f.round rm ftz sat n m e false

end Sys2Proof.Machine
end

