-- ==== Sys2Proof/Syntax.lean ====
section
/-! DEFINITION. The syntax: the fields of an instruction word (14_encoding_and_assembly.md R248, R249), the
data that the steps of the other agents carry, and Instr, one constructor for each row of spec/opcode_table.json. -/

namespace Sys2Proof

/-- The three lengths of an instruction (R248). -/
inductive Form where
  | w64 | w96 | w128
  deriving DecidableEq, Repr

/-- The fields of W0, and the words W1 and W2 (0 where the form lacks them). An instruction's entry says which
fields it uses; a field that it does not use is ignored (R246). The branch offset, IMM20, literals and the
fields of the extension words are read from these by the accessors of Machine/Operands.lean. -/
structure Op where
  form : Form
  fn   : BitVec 4
  d    : BitVec 8
  a    : BitVec 8
  b    : BitVec 8
  pg0  : BitVec 3
  n0   : Bool
  pg1  : BitVec 3
  n1   : Bool
  gm   : BitVec 2
  h    : BitVec 4
  fa   : Bool
  fb   : Bool
  yld  : Bool
  imm  : Bool
  m    : BitVec 3
  dx   : Bool
  dxi  : BitVec 2
  w1   : Word
  w2   : Word
  deriving DecidableEq, Repr

/-- One host-managed far-memory range (R26): far window addresses base to base + size - 1, interleaved over
`ports` (1, 2 or 4 of them) every `gran` bytes (256 or 4,096). -/
structure FarRange where
  base  : Nat
  size  : Nat
  ports : List Nat
  gran  : Nat
  deriving DecidableEq, Repr

/-- What happens outside the package's state at a reset: whether the root of trust accepts the firmware image
(R438), the digests it measures, the ranges that Benuino programs (R26) and the fabric id it sets (R435). -/
structure ResetIn where
  verified : Bool
  digests  : List (Nat × BitVec 512)
  ranges   : List FarRange
  fabid    : BitVec 12
  deriving DecidableEq, Repr

/-- What the error-correcting code finds in a line that is read (R18, R19): how many words it corrects, and the
64-byte sectors that hold an uncorrectable error (for far memory: CXL poison or a completion error, R28). -/
structure Ecc where
  corrected : Nat
  bad       : BitVec 4
  deriving DecidableEq, Repr

/-- The meter readings of one token exchange (R417, R419), in W: each cluster's and each C-die's demand, each
die's power, the hub's and the package's power over the last interval. -/
structure Meters where
  clusterDemand : List Nat
  dieDemand     : List Nat
  diePower      : List Nat
  hubPower      : Nat
  pkgPower      : Nat
  deriving DecidableEq, Repr

/-- The energy metered over the last 1 µs, in nJ (R243, R422): of each core, of each accepted job by its cluster and ticket, of the vaults
and the colander together, and of each C-die's filler operations. -/
structure Energy where
  cores  : List (Nat × Nat)
  jobs   : List (Nat × BitVec 16 × Nat)
  memory : Nat
  filler : List (Nat × Nat)
  deriving DecidableEq, Repr

/-- Readings of the world outside the package's own state, each used by the step of the same name: at a reset
(R433), the meters of a token exchange (R417), the energy metered (R243), the hottest sensors' filtered
temperature per die (R25), the idle watts (R420), the arrival times of a collective's ranks (R423), the die that a
restore names (R23) and the value written to PRECTL (R238). -/
structure Outside where
  reset    : ResetIn
  meters   : Meters
  energy   : Energy
  baseTemp : List (Nat × Int)
  idle     : Nat
  early    : List (Nat × Nat)
  late     : List Nat
  die      : Nat
  prectl   : Dword
  deriving DecidableEq, Repr

/-- What an Ulukar flit brings (R434): bytes of a rank's elements of a collective job (R105), a tail announced by a peer's WQT
(R225), bytes of records pulled from a peer's ring (R225), or bytes that no rule of the spec gives a meaning to. -/
inductive FlitBody where
  | contribution (comm rank : Nat) (bytes : List Byte)
  | tail (ctx node peer : Nat) (index : Word)
  | record (ctx node peer : Nat) (bytes : List Byte)
  | payload (bytes : List Byte)
  deriving DecidableEq, Repr

/-- A flit (R434): its 8-byte header, which numbers it on its link, what its 48 bytes of payload bring, and its 8-byte tag. (DESIGN
CHOICE, log entry 64.) -/
structure Flit where
  header : Dword
  body   : FlitBody
  tag    : Dword
  deriving DecidableEq, Repr

/-- The bytes of payload that a flit carries. -/
def FlitBody.bytes : FlitBody → List Byte
  | .contribution _ _ bs | .record _ _ _ bs | .payload bs => bs
  | .tail _ _ _ _ => []

/-- One constructor for each row of the table of operations and events. A row of an instruction carries its
fields; a row of another agent's step names the place it happens at, or the message that arrives, and what comes
with it from outside. The last rows carry nothing: their readings stand in State (Outside). -/
inductive Instr where
  /-- TEMP_SAMPLE (R20). -/
  | tempSample (vault : Nat) (temp : Int)
  /-- BAND_CHANGE (R21). -/
  | bandChange (vault : Nat)
  /-- PATROL_SCRUB (R18). -/
  | patrolScrub (vault : Nat) (corrected : Nat) (bad : List Nat)
  /-- VAULT_DATA_LEAVES (R53). -/
  | vaultDataLeaves (slice way : Nat) (ecc : Ecc)
  /-- CXL_LINK_DOWN (R28). -/
  | cxlLinkDown (port : Nat)
  /-- CXL_LINK_UP (R28). -/
  | cxlLinkUp (port : Nat)
  /-- SLAB_MODE_CHANGE (R15): MBOX. -/
  | slabModeChange (o : Op)
  /-- KEY_DRAW (R30): MBOX. -/
  | keyDraw (o : Op)
  /-- KEY_LOAD_WRAPPED (R441): MBOX. -/
  | keyLoadWrapped (o : Op)
  /-- KEY_CLEAR (R30): MBOX. -/
  | keyClear (o : Op)
  /-- TLB_MISS_TO_WALKER (R44). -/
  | tlbMissToWalker (m : Nat)
  /-- WALK_START (R44). -/
  | walkStart (die : Nat)
  /-- WALK_ENTRY_READ (R37). -/
  | walkEntryRead (die walk : Nat)
  /-- AD_COMPARE_SWAP (R40). -/
  | adCompareSwap (die walk : Nat)
  /-- WALK_RETRY (R47). -/
  | walkRetry (die : Nat) (seq : Word)
  /-- WALK_DELIVER (R47). -/
  | walkDeliver (die : Nat) (seq : Word)
  /-- FQHEAD_WRITE (R46). -/
  | fqheadWrite (die : Nat) (v : Dword)
  /-- FQCFG_WRITE (R429). -/
  | fqcfgWrite (die : Nat) (v : Dword)
  /-- SLICE_READ_ACCEPT (R51). -/
  | sliceReadAccept (m : Nat)
  /-- UMBRA_CLOSE (R51). -/
  | umbraClose (slice way : Nat)
  /-- REFLECTION_ARRIVAL (R71). -/
  | reflectionArrival (m : Nat)
  /-- TICK (R82). -/
  | tick (cluster : Nat)
  /-- COH_STORE_AT_HOME (R88). -/
  | cohStoreAtHome (m : Nat)
  /-- STORE_ACK (R82). -/
  | storeAck (m : Nat)
  /-- RENEWAL_AT_HOME (R87). -/
  | renewalAtHome (m : Nat)
  /-- RENEWAL_REPLY (R87). -/
  | renewalReply (m : Nat)
  /-- HOME_ATOMIC (R92). -/
  | homeAtomic (m : Nat)
  /-- EXCLUSIVE_REQUEST (R93). -/
  | exclusiveRequest (m : Nat)
  /-- EXCLUSIVE_RECALL (R93). -/
  | exclusiveRecall (m : Nat)
  /-- EXCLUSIVE_TIMEOUT (R93). -/
  | exclusiveTimeout (core line : Nat)
  /-- EXCLUSIVE_RETURN (R93). -/
  | exclusiveReturn (m : Nat)
  /-- WRITE_BACK_AT_HOME (R70). -/
  | writeBackAtHome (m : Nat)
  /-- HOST_CXL_READ (R431). -/
  | hostCxlRead (pa n : Nat)
  /-- HOST_CXL_WRITE (R431). -/
  | hostCxlWrite (pa : Nat) (bytes : List Byte)
  /-- WAY_FLUSH_COMPLETE (R78). -/
  | wayFlushComplete (core way : Nat)
  /-- JOB_ACCEPT (R107). -/
  | jobAccept (cluster : Nat)
  /-- JOB_START (R109). -/
  | jobStart (cluster : Nat)
  /-- ENGINE_UNIT_DELIVERY (R113). -/
  | engineUnitDelivery (cluster ticket : Nat)
  /-- JOB_COMPLETE (R110). -/
  | jobComplete (cluster ticket : Nat)
  /-- JOB_ERROR_END (R111). -/
  | jobErrorEnd (cluster ticket : Nat)
  /-- RBLK_GRANT (R124). -/
  | rblkGrant (core : Nat)
  /-- SFU_RESULT (R158). -/
  | sfuResult (core quad : Nat)
  /-- PLANE_OP_START (R173). -/
  | planeOpStart (core : Nat)
  /-- PLANE_OP_COMPLETE (R173). -/
  | planeOpComplete (core : Nat)
  /-- CLOCK_RATIO_SWITCH (R155). -/
  | clockRatioSwitch (cluster : Nat)
  /-- GROUP_END (R192). -/
  | groupEnd (core slot : Nat)
  /-- QUEUE_TAIL_WRITE (R213). -/
  | queueTailWrite (q : Nat) (v : Dword)
  /-- WAIT_EVENT_POLL (R216). -/
  | waitEventPoll (q : Nat)
  /-- LAUNCH_COMPLETE (R216). -/
  | launchComplete (launch : Nat)
  /-- BIN_TIMER_EXPIRY (R224). -/
  | binTimerExpiry (ctx node : Nat)
  /-- WQT_PULL (R225). -/
  | wqtPull (m : Nat)
  /-- DQ_SERVE (R226). -/
  | dqServe (m : Nat)
  /-- DQ_ANSWER_WRITE (R227). -/
  | dqAnswerWrite (m : Nat)
  /-- ACCESS_REPLAY (R237). -/
  | accessReplay (core id : Nat)
  /-- WATCHDOG_EXPIRY (R231). -/
  | watchdogExpiry (core slot tid : Nat)
  /-- SHED_TIMEOUT (R62). -/
  | shedTimeout (ctx cv : Nat)
  /-- SLEEP_EXPIRY (R377). -/
  | sleepExpiry (core slot tid : Nat)
  /-- FORCED_SAVE (R240). -/
  | forcedSave (core slot : Nat)
  /-- QUOTA_PERIOD_BOUNDARY (R244). -/
  | quotaPeriodBoundary (ctx : Nat)
  /-- FILLER_ISSUE (R421). -/
  | fillerIssue (die : Nat) (ctxs : List (Nat × Nat))
  /-- SUPCTX_WRITE (R428). -/
  | supctxWrite (k : Nat) (v : Dword)
  /-- REGISTER_WRITE (R427). -/
  | registerWrite (off : Nat) (v : Dword)
  /-- ULUKAR_FLIT_RECEIVE (R437). -/
  | ulukarFlitReceive (link : Nat) (tagOk : Bool) (flit : Flit)
  /-- ULUKAR_LINK_RETRAIN (R437). -/
  | ulukarLinkRetrain (link : Nat)
  /-- IADD (R338). -/
  | iadd (o : Op)
  /-- ISUB (R338). -/
  | isub (o : Op)
  /-- IMUL (R338). -/
  | imul (o : Op)
  /-- IMULH (R338). -/
  | imulh (o : Op)
  /-- IMAD (R340). -/
  | imad (o : Op)
  /-- IMIN (R338). -/
  | imin (o : Op)
  /-- IMAX (R338). -/
  | imax (o : Op)
  /-- IABS (R339). -/
  | iabs (o : Op)
  /-- INEG (R339). -/
  | ineg (o : Op)
  /-- AND (R338). -/
  | and (o : Op)
  /-- OR (R338). -/
  | or (o : Op)
  /-- XOR (R338). -/
  | xor (o : Op)
  /-- NOT (R339). -/
  | not (o : Op)
  /-- ANDN (R338). -/
  | andn (o : Op)
  /-- SHL (R338). -/
  | shl (o : Op)
  /-- SHR (R338). -/
  | shr (o : Op)
  /-- SAR (R338). -/
  | sar (o : Op)
  /-- ROTL (R338). -/
  | rotl (o : Op)
  /-- BFX (R341). -/
  | bfx (o : Op)
  /-- BFI (R341). -/
  | bfi (o : Op)
  /-- CLZ (R339). -/
  | clz (o : Op)
  /-- POPC (R339). -/
  | popc (o : Op)
  /-- BREV (R339). -/
  | brev (o : Op)
  /-- ICMP (R342). -/
  | icmp (o : Op)
  /-- LEA (R340). -/
  | lea (o : Op)
  /-- IADD3 (R340). -/
  | iadd3 (o : Op)
  /-- PAND (R343). -/
  | pand (o : Op)
  /-- POR (R343). -/
  | por (o : Op)
  /-- PXOR (R343). -/
  | pxor (o : Op)
  /-- PNOT (R343). -/
  | pnot (o : Op)
  /-- PSET (R343). -/
  | pset (o : Op)
  /-- FADD (R345). -/
  | fadd (o : Op)
  /-- FSUB (R345). -/
  | fsub (o : Op)
  /-- FMUL (R345). -/
  | fmul (o : Op)
  /-- FFMA (R346). -/
  | ffma (o : Op)
  /-- FMIN (R345). -/
  | fmin (o : Op)
  /-- FMAX (R345). -/
  | fmax (o : Op)
  /-- FCMP (R347). -/
  | fcmp (o : Op)
  /-- FCLASS (R348). -/
  | fclass (o : Op)
  /-- FRND (R349). -/
  | frnd (o : Op)
  /-- FSCALE (R350). -/
  | fscale (o : Op)
  /-- FMODE (R351). -/
  | fmode (o : Op)
  /-- HADD2 (R352). -/
  | hadd2 (o : Op)
  /-- HMUL2 (R352). -/
  | hmul2 (o : Op)
  /-- HFMA2 (R352). -/
  | hfma2 (o : Op)
  /-- RCP (R353). -/
  | rcp (o : Op)
  /-- RSQ (R353). -/
  | rsq (o : Op)
  /-- SQRT (R353). -/
  | sqrt (o : Op)
  /-- EXP2 (R353). -/
  | exp2 (o : Op)
  /-- LOG2 (R353). -/
  | log2 (o : Op)
  /-- SIN (R353). -/
  | sin (o : Op)
  /-- COS (R353). -/
  | cos (o : Op)
  /-- TANH (R353). -/
  | tanh (o : Op)
  /-- MOV (R312). -/
  | mov (o : Op)
  /-- MOVI_SCALAR (R313): MOVI. -/
  | moviScalar (o : Op)
  /-- MOVI_PAIR (R313): MOVI. -/
  | moviPair (o : Op)
  /-- SEL (R314). -/
  | sel (o : Op)
  /-- SMOV_S_S (R315): SMOV. -/
  | smovSS (o : Op)
  /-- SMOV_S_V32 (R315): SMOV.n32. -/
  | smovSV32 (o : Op)
  /-- SMOV_S_V64 (R315): SMOV.n64. -/
  | smovSV64 (o : Op)
  /-- SMOV_V32_S (R315): SMOV.n32. -/
  | smovV32S (o : Op)
  /-- SMOV_V64_S (R315): SMOV.n64. -/
  | smovV64S (o : Op)
  /-- PRMT (R316). -/
  | prmt (o : Op)
  /-- RBLK_ACQ (R318): RBLK.acq. -/
  | rblkAcq (o : Op)
  /-- RBLK_TRY (R318): RBLK.try. -/
  | rblkTry (o : Op)
  /-- RBLK_REL (R318): RBLK.rel. -/
  | rblkRel (o : Op)
  /-- RBLK_QRY (R317): RBLK.qry. -/
  | rblkQry (o : Op)
  /-- IDX (R319). -/
  | idx (o : Op)
  /-- IDXADD (R319). -/
  | idxadd (o : Op)
  /-- SRD_V32 (R320): SRD. -/
  | srdV32 (o : Op)
  /-- SRD_V64 (R320): SRD. -/
  | srdV64 (o : Op)
  /-- SRD_S (R320): SRD. -/
  | srdS (o : Op)
  /-- SWR_B (R321): SWR. -/
  | swrB (o : Op)
  /-- SWR_W (R321): SWR. -/
  | swrW (o : Op)
  /-- SWR_S (R321): SWR. -/
  | swrS (o : Op)
  /-- ELECT (R322). -/
  | elect (o : Op)
  /-- BCAST (R323). -/
  | bcast (o : Op)
  /-- VOTE_ALL (R324): VOTE.all. -/
  | voteAll (o : Op)
  /-- VOTE_ANY (R324): VOTE.any. -/
  | voteAny (o : Op)
  /-- VOTE_UNI (R324): VOTE.uni. -/
  | voteUni (o : Op)
  /-- BALLOT (R325). -/
  | ballot (o : Op)
  /-- RED (R327). -/
  | red (o : Op)
  /-- SCAN (R327). -/
  | scan (o : Op)
  /-- CVT (R329). -/
  | cvt (o : Op)
  /-- PACK (R330). -/
  | pack (o : Op)
  /-- UNPK (R331). -/
  | unpk (o : Op)
  /-- QNT (R333). -/
  | qnt (o : Op)
  /-- QEXP (R333). -/
  | qexp (o : Op)
  /-- DQNT (R334). -/
  | dqnt (o : Op)
  /-- HDM (R335). -/
  | hdm (o : Op)
  /-- HDM_NORM (R335): HDM.norm. -/
  | hdmNorm (o : Op)
  /-- JDECL (R354). -/
  | jdecl (o : Op)
  /-- JRST (R355). -/
  | jrst (o : Op)
  /-- MMA_REGISTER (R357): MMA. -/
  | mmaRegister (o : Op)
  /-- MMA_DESCRIPTOR (R357): MMA. -/
  | mmaDescriptor (o : Op)
  /-- SCL (R359). -/
  | scl (o : Op)
  /-- SCL_RAW (R359): SCL.raw. -/
  | sclRaw (o : Op)
  /-- ACCZ (R360). -/
  | accz (o : Op)
  /-- ACCRD (R361). -/
  | accrd (o : Op)
  /-- ACCWR (R361). -/
  | accwr (o : Op)
  /-- ACCST (R362). -/
  | accst (o : Op)
  /-- LD (R283). -/
  | ld (o : Op)
  /-- ST (R284). -/
  | st (o : Op)
  /-- LDS (R285). -/
  | lds (o : Op)
  /-- STS (R285). -/
  | sts (o : Op)
  /-- LDC (R286). -/
  | ldc (o : Op)
  /-- ATOM (R288). -/
  | atom (o : Op)
  /-- ATOMS (R288). -/
  | atoms (o : Op)
  /-- CAS (R289). -/
  | cas (o : Op)
  /-- CASS (R289). -/
  | cass (o : Op)
  /-- FENCE (R290). -/
  | fence (o : Op)
  /-- FENCE_E (R290): FENCE.E. -/
  | fenceE (o : Op)
  /-- LEASE (R292). -/
  | lease (o : Op)
  /-- PF (R293). -/
  | pf (o : Op)
  /-- SYNCR (R95). -/
  | syncr (o : Op)
  /-- SYNCW (R95). -/
  | syncw (o : Op)
  /-- RSTATE (R98). -/
  | rstate (o : Op)
  /-- WAYMASK (R78). -/
  | waymask (o : Op)
  /-- CPY (R297). -/
  | cpy (o : Op)
  /-- CPY_FILL (R297): CPY.fill. -/
  | cpyFill (o : Op)
  /-- GTH (R297). -/
  | gth (o : Op)
  /-- COLL (R297). -/
  | coll (o : Op)
  /-- JOB (R297). -/
  | job (o : Op)
  /-- JWAIT (R298). -/
  | jwait (o : Op)
  /-- JQRY (R299). -/
  | jqry (o : Op)
  /-- SWARM (R300). -/
  | swarm (o : Op)
  /-- SWAIT (R300). -/
  | swait (o : Op)
  /-- SWPOLL (R300). -/
  | swpoll (o : Op)
  /-- DQ (R301). -/
  | dq (o : Op)
  /-- WQE (R302). -/
  | wqe (o : Op)
  /-- WQT (R303). -/
  | wqt (o : Op)
  /-- CVJOIN (R304). -/
  | cvjoin (o : Op)
  /-- CVLEAVE (R305). -/
  | cvleave (o : Op)
  /-- CVSTEP (R306). -/
  | cvstep (o : Op)
  /-- CVSTAT (R308). -/
  | cvstat (o : Op)
  /-- CVSLIP (R307). -/
  | cvslip (o : Op)
  /-- BRA (R365). -/
  | bra (o : Op)
  /-- BRX (R367). -/
  | brx (o : Op)
  /-- LPAD (R368). -/
  | lpad (o : Op)
  /-- CALL (R366). -/
  | call (o : Op)
  /-- CALLX (R367). -/
  | callx (o : Op)
  /-- RET (R369). -/
  | ret (o : Op)
  /-- EXIT (R370). -/
  | exit (o : Op)
  /-- BAR (R371). -/
  | bar (o : Op)
  /-- BARA (R371). -/
  | bara (o : Op)
  /-- BARW (R371). -/
  | barw (o : Op)
  /-- STBEG (R372). -/
  | stbeg (o : Op)
  /-- STAGE_ADD (R373): STAGE.add. -/
  | stageAdd (o : Op)
  /-- STAGE_SET (R373): STAGE.set. -/
  | stageSet (o : Op)
  /-- WAITL (R374). -/
  | waitl (o : Op)
  /-- STEND (R375). -/
  | stend (o : Op)
  /-- STRD_CTR (R376): STRD.ctr. -/
  | strdCtr (o : Op)
  /-- STRD_BRD (R376): STRD.brd. -/
  | strdBrd (o : Op)
  /-- YIELD (R377). -/
  | yield (o : Op)
  /-- SLEEP (R377). -/
  | sleep (o : Op)
  /-- TRAP (R378). -/
  | trap (o : Op)
  /-- ERET (R379). -/
  | eret (o : Op)
  /-- NOP (R269). -/
  | nop (opc : BitVec 10) (o : Op)
  /-- CTXSV (R382). -/
  | ctxsv (o : Op)
  /-- CTXSV_ST (R382): CTXSV.st. -/
  | ctxsvSt (o : Op)
  /-- CTXLD (R383). -/
  | ctxld (o : Op)
  /-- TLBINV_PAGE (R384): TLBINV.page. -/
  | tlbinvPage (o : Op)
  /-- TLBINV_REGION (R384): TLBINV.region. -/
  | tlbinvRegion (o : Op)
  /-- TLBINV_CTX (R384): TLBINV.ctx. -/
  | tlbinvCtx (o : Op)
  /-- TLBINV_ALL (R384): TLBINV.all. -/
  | tlbinvAll (o : Op)
  /-- TLBINV_KEY (R384): TLBINV.key. -/
  | tlbinvKey (o : Op)
  /-- PWRRD (R385). -/
  | pwrrd (o : Op)
  /-- PWRWR_PCAP (R385): PWRWR. -/
  | pwrwrPcap (o : Op)
  /-- PWRWR_PFLOOR (R385): PWRWR. -/
  | pwrwrPfloor (o : Op)
  /-- CLKRAT (R386). -/
  | clkrat (o : Op)
  /-- IDLE (R387). -/
  | idle (o : Op)
  /-- HALT (R388). -/
  | halt (o : Op)
  /-- LEVYQ_VAULT (R389): LEVYQ.vault. -/
  | levyqVault (o : Op)
  /-- LEVYQ_ACCT (R389): LEVYQ.acct. -/
  | levyqAcct (o : Op)
  /-- LEVYQ_BASE (R389): LEVYQ.base. -/
  | levyqBase (o : Op)
  /-- STR_STORE_AT_HOME (R70). -/
  | strStoreAtHome (m : Nat)
  /-- EXCLUSIVE_GRANT_ARRIVAL (R93). -/
  | exclusiveGrantArrival (m : Nat)
  /-- FILLER_SETTLED (R421). -/
  | fillerSettled (die energy : Nat)
  /-- CONVOY_MIRROR_UPDATE (R63). -/
  | convoyMirrorUpdate (cluster ctx cv : Nat)
  /-- UNASSIGNED_OPCODE (R268). -/
  | unassignedOpcode (first : Word) (rest : List Word)
  /-- RESET (R433). -/
  | reset
  /-- TOKEN_EXCHANGE (R417). -/
  | tokenExchange
  /-- ENERGY_CHARGE (R243). -/
  | energyCharge
  /-- BASE_TEMP_REPORT (R25). -/
  | baseTempReport
  /-- IDLE_FLOOR_MEASURE (R420). -/
  | idleFloorMeasure
  /-- ARRIVAL_SKEW_REBALANCE (R423). -/
  | arrivalSkewRebalance
  /-- ATTESTATION_REQUEST (R439). -/
  | attestationRequest
  /-- DIE_RESTORE (R23). -/
  | dieRestore
  /-- PREEMPT_DRAIN (R239). -/
  | preemptDrain
  /-- PREEMPT_FORCE (R239). -/
  | preemptForce
  /-- LAUNCH_RECORD_READ (R213). -/
  | launchRecordRead
  /-- GROUP_PLACE (R218). -/
  | groupPlace
  /-- GANG_PLACE (R221). -/
  | gangPlace
  /-- DRAIN_LIMIT_EXPIRY (R239). -/
  | drainLimitExpiry
  /-- GROUP_RESUME_PLACE (R242). -/
  | groupResumePlace
  deriving DecidableEq, Repr

end Sys2Proof
end

