-- ==== Sys2Proof/WellFormed.lean ====
section
/-! DEFINITION. Which encodings an entry defines: steps 6 and 7 of the decode checks that need no state
(14_encoding_and_assembly.md R254, R121, R249, R261, R264), per instruction from the entries of chapters 15 to 18. -/

namespace Sys2Proof

/-- What a field of the word holds (R265). `t` is a pair when the instruction's type is 64 bits wide, else one
vector register; `b` and `bt` are b-class sources of 32 bits and of the type's width; `sb` a b-class source
whose register is scalar; `base`, `mbase` and `card` are the bases of R279 and R296 under AS. -/
inductive Cls where
  | none | v | w | t | s | p | i | x | j | k | b | bt | sb | base | mbase | card | mbox
  deriving DecidableEq, Repr

/-- What M[58] means (R248): CB, CB of a privileged instruction (R253), forbidden as a constant (R261), or something of the entry's
own. -/
inductive MUse where
  | cb | privCb | noConst | own
  deriving DecidableEq, Repr

/-- Where the operand type stands: FN, M[60:58] (R287, R326), or nowhere. -/
inductive TyAt where
  | fn | m | none
  deriving DecidableEq, Repr

/-- What an entry says of its encoding: the forms with the IMM values each admits, the FN values (none: FN is
not mentioned, so it is ignored, R246), the class of each field, and the meaning of M[58]. -/
structure Shape where
  forms : List (Form × Bool)
  fns   : Option (List Nat)
  d     : Cls := .none
  a     : Cls := .none
  b     : Cls := .none
  c     : Cls := .none
  e     : Cls := .none
  mUse  : MUse := .own
  ty    : TyAt := .none
  /-- W1 and W2 carry MODA and MODB (R249); MMA, MOVI and the branches redefine them. -/
  mods  : Bool := true
  deriving DecidableEq, Repr

namespace Shape

def anyForm : List (Form × Bool) :=
  [(.w64, false), (.w64, true), (.w96, false), (.w96, true), (.w128, false), (.w128, true)]
def short : List (Form × Bool) := [(.w64, false), (.w64, true), (.w96, false), (.w96, true)]
def f64 : List (Form × Bool) := [(.w64, false), (.w64, true)]
def f64z : List (Form × Bool) := [(.w64, false)]
def f96 : List (Form × Bool) := [(.w96, false), (.w96, true)]
/-- The forms of the one-source instructions (R339). -/
def one : List (Form × Bool) := [(.w64, false), (.w96, false)]
/-- The forms of the instructions with a third source (R340). -/
def three : List (Form × Bool) := [(.w96, false), (.w128, false), (.w128, true)]

end Shape

def Cls.isV (as : Bool) : Cls → Bool
  | .v | .w | .t | .b | .bt => true
  | .base | .mbase | .card => !as
  | _ => false

/-- The entry's shape of each instruction; none for the steps of other agents and for words that no entry
describes. (DEDUCED, log entries 15 and 16.) -/
def Instr.shape : Instr → Option (Shape × Op)
  | .iadd o | .isub o | .imul o | .imulh o | .imin o | .imax o | .and o | .or o | .xor o | .andn o =>
    some (⟨Shape.anyForm, some [0, 1, 2, 3], .t, .t, .bt, .none, .none, .cb, .fn, true⟩, o)
  | .shl o | .shr o | .sar o | .rotl o | .bfx o =>
    some (⟨Shape.anyForm, some [0, 1, 2, 3], .t, .t, .b, .none, .none, .cb, .fn, true⟩, o)
  | .iabs o => some (⟨Shape.one, some [0, 2], .t, .t, .none, .none, .none, .own, .fn, true⟩, o)
  | .ineg o | .not o | .brev o =>
    some (⟨Shape.one, some [0, 1, 2, 3], .t, .t, .none, .none, .none, .own, .fn, true⟩, o)
  | .clz o | .popc o =>
    some (⟨Shape.one, some [0, 1, 2, 3], .v, .t, .none, .none, .none, .own, .fn, true⟩, o)
  | .imad o | .iadd3 o =>
    some (⟨Shape.three, some [0, 1, 2, 3], .t, .t, .bt, .t, .none, .cb, .fn, true⟩, o)
  | .bfi o => some (⟨Shape.three, some [0, 1, 2, 3], .t, .t, .b, .t, .none, .cb, .fn, true⟩, o)
  | .lea o => some (⟨Shape.three, some [0, 1, 2, 3], .w, .w, .bt, .k, .none, .cb, .fn, true⟩, o)
  | .icmp o => some (⟨Shape.anyForm, some [0, 1, 2, 3], .k, .t, .bt, .none, .none, .cb, .fn, true⟩, o)
  | .pand o | .por o | .pxor o =>
    some (⟨Shape.f64z, some [0], .p, .p, .p, .none, .none, .own, .none, true⟩, o)
  | .pnot o => some (⟨Shape.f64z, some [0], .p, .p, .none, .none, .none, .own, .none, true⟩, o)
  | .pset o => some (⟨Shape.anyForm, some [0], .p, .none, .b, .none, .none, .cb, .none, true⟩, o)
  | .fadd o | .fsub o | .fmul o | .fmin o | .fmax o | .fscale o =>
    some (⟨Shape.anyForm, some [8], .v, .v, .b, .none, .none, .cb, .fn, true⟩, o)
  | .ffma o => some (⟨Shape.three, some [8], .v, .v, .b, .v, .none, .cb, .fn, true⟩, o)
  | .fcmp o => some (⟨Shape.anyForm, some [8], .k, .v, .b, .none, .none, .cb, .fn, true⟩, o)
  | .fclass o => some (⟨Shape.one, some [8], .v, .v, .none, .none, .none, .own, .fn, true⟩, o)
  | .frnd o => some (⟨Shape.one, some [8], .v, .v, .none, .none, .none, .own, .fn, true⟩, o)
  | .fmode o => some (⟨Shape.anyForm, some [0], .none, .none, .b, .none, .none, .cb, .none, true⟩, o)
  | .hadd2 o | .hmul2 o =>
    some (⟨Shape.anyForm, some [9, 10], .v, .v, .b, .none, .none, .cb, .fn, true⟩, o)
  | .hfma2 o => some (⟨Shape.three, some [9, 10], .v, .v, .b, .v, .none, .cb, .fn, true⟩, o)
  | .rcp o | .rsq o | .sqrt o | .exp2 o | .log2 o | .sin o | .cos o | .tanh o =>
    some (⟨Shape.one, some [8, 9], .v, .v, .none, .none, .none, .own, .fn, true⟩, o)
  | .mov o => some (⟨Shape.anyForm, some (List.range 14), .t, .none, .bt, .none, .none, .cb, .fn, true⟩, o)
  | .moviScalar o =>
    some (⟨[(.w64, true), (.w96, true), (.w128, true)], some [0], .s, .none, .none, .none, .none, .own, .none, false⟩, o)
  | .moviPair o =>
    some (⟨[(.w64, true), (.w96, true), (.w128, true)], some [1], .w, .none, .none, .none, .none, .own, .none, false⟩, o)
  | .sel o => some (⟨Shape.anyForm, some (List.range 14), .t, .t, .bt, .none, .none, .own, .fn, true⟩, o)
  | .smovSS o => some (⟨Shape.f64z, some [0], .s, .none, .s, .none, .none, .cb, .none, true⟩, o)
  | .smovSV32 o => some (⟨Shape.f64z, some [1], .s, .v, .none, .none, .none, .own, .none, true⟩, o)
  | .smovSV64 o => some (⟨Shape.f64z, some [2], .s, .w, .none, .none, .none, .own, .none, true⟩, o)
  | .smovV32S o => some (⟨Shape.f64z, some [3], .v, .none, .s, .none, .none, .cb, .none, true⟩, o)
  | .smovV64S o => some (⟨Shape.f64z, some [4], .w, .none, .s, .none, .none, .cb, .none, true⟩, o)
  | .prmt o => some (⟨Shape.three, some [0], .v, .v, .b, .v, .none, .cb, .none, true⟩, o)
  | .rblkAcq o => some (⟨Shape.anyForm, some [0], .none, .none, .b, .none, .none, .noConst, .none, true⟩, o)
  | .rblkTry o => some (⟨Shape.anyForm, some [1], .p, .none, .b, .none, .none, .noConst, .none, true⟩, o)
  | .rblkRel o => some (⟨Shape.anyForm, some [2], .none, .none, .b, .none, .none, .noConst, .none, true⟩, o)
  | .rblkQry o => some (⟨Shape.f64, some [3], .w, .none, .none, .none, .none, .own, .none, true⟩, o)
  | .idx o => some (⟨Shape.anyForm, some [0], .i, .none, .b, .none, .none, .noConst, .none, true⟩, o)
  | .idxadd o => some (⟨Shape.anyForm, some [0], .i, .i, .b, .none, .none, .noConst, .none, true⟩, o)
  | .srdV32 o => some (⟨Shape.f64, some [0], .v, .k, .none, .none, .none, .own, .none, true⟩, o)
  | .srdV64 o => some (⟨Shape.f64, some [1], .w, .k, .none, .none, .none, .own, .none, true⟩, o)
  | .srdS o => some (⟨Shape.f64, some [2], .s, .k, .none, .none, .none, .own, .none, true⟩, o)
  | .swrB o => some (⟨Shape.anyForm, some [0], .none, .k, .b, .none, .none, .cb, .none, true⟩, o)
  | .swrW o => some (⟨Shape.f64, some [1], .none, .k, .w, .none, .none, .cb, .none, true⟩, o)
  | .swrS o => some (⟨Shape.f64, some [2], .none, .k, .s, .none, .none, .cb, .none, true⟩, o)
  | .elect o => some (⟨Shape.f64, some [0], .p, .none, .none, .none, .none, .own, .none, true⟩, o)
  | .bcast o => some (⟨Shape.anyForm, some (List.range 14), .t, .t, .b, .none, .none, .cb, .fn, true⟩, o)
  | .voteAll o => some (⟨Shape.f64, some [0], .p, .p, .none, .none, .none, .own, .none, true⟩, o)
  | .voteAny o => some (⟨Shape.f64, some [1], .p, .p, .none, .none, .none, .own, .none, true⟩, o)
  | .voteUni o => some (⟨Shape.f64, some [2], .p, .p, .none, .none, .none, .own, .none, true⟩, o)
  | .ballot o => some (⟨Shape.f64, some [0], .v, .p, .none, .none, .none, .own, .none, true⟩, o)
  | .red o => some (⟨Shape.f64, some [0, 1, 2, 3, 4, 5], .t, .t, .none, .none, .none, .own, .m, true⟩, o)
  | .scan o =>
    some (⟨Shape.f64, some [0, 1, 2, 3, 4, 5, 8, 9, 10, 11, 12, 13], .t, .t, .none, .none, .none, .own, .m, true⟩, o)
  | .cvt o => some (⟨Shape.f64z, some (List.range 14), .t, .v, .k, .none, .none, .own, .fn, true⟩, o)
  | .pack o =>
    if o.fn.toNat = 6 ∨ o.fn.toNat = 7 ∨ o.fn.toNat = 11 ∨ o.fn.toNat = 12 then
      some (⟨[(.w96, false)], some [6, 7, 11, 12], .v, .v, .v, .v, .v, .noConst, .none, true⟩, o)
    else some (⟨Shape.anyForm, some [4, 5, 9, 10], .v, .v, .b, .none, .none, .cb, .none, true⟩, o)
  | .unpk o =>
    some (⟨Shape.f64, some [4, 5, 6, 7, 9, 10, 11, 12, 13], .v, .v, .k, .none, .none, .own, .none, true⟩, o)
  | .qnt o | .qexp o =>
    some (⟨Shape.f64, some [4, 5, 6, 7, 8, 9, 10, 11, 12, 13], .v, .v, .none, .none, .none, .own, .none, true⟩, o)
  | .dqnt o =>
    some (⟨Shape.f64, some [2, 3, 4, 5, 6, 7, 8, 9, 10, 11, 12, 13], .v, .v, .none, .none, .none, .own, .none, true⟩, o)
  | .hdm o => some (⟨Shape.f64, some [0], .v, .v, .none, .none, .none, .own, .none, true⟩, o)
  | .hdmNorm o => some (⟨Shape.f64, some [1], .v, .v, .none, .none, .none, .own, .none, true⟩, o)
  | .jdecl o => some (⟨[(.w64, true), (.w96, true)], some [0], .j, .s, .k, .none, .none, .own, .none, true⟩, o)
  | .jrst o => some (⟨Shape.f64, some [0], .j, .none, .none, .none, .none, .own, .none, true⟩, o)
  | .mmaRegister o => some (⟨[(.w128, false)], some [0], .x, .j, .v, .v, .v, .own, .none, false⟩, o)
  | .mmaDescriptor o => some (⟨[(.w128, false)], some [1], .x, .j, .v, .s, .s, .own, .none, false⟩, o)
  | .scl o => some (⟨Shape.three, some [0], .none, .s, .b, .v, .none, .cb, .none, true⟩, o)
  | .sclRaw o => some (⟨Shape.three, some [1], .none, .s, .b, .v, .none, .cb, .none, true⟩, o)
  | .accz o => some (⟨Shape.f64, some [0], .x, .none, .none, .none, .none, .own, .none, true⟩, o)
  | .accrd o => some (⟨Shape.anyForm, some [0], .v, .x, .b, .none, .none, .cb, .none, true⟩, o)
  | .accwr o => some (⟨Shape.anyForm, some [0], .x, .v, .b, .none, .none, .cb, .none, true⟩, o)
  | .accst o => some (⟨Shape.f64z, some [8, 9, 10], .none, .s, .x, .none, .none, .own, .none, true⟩, o)
  | .ld o | .st o =>
    some (⟨Shape.short, some (List.range 13), .t, .mbase, .none, .none, .none, .own, .fn, true⟩, o)
  | .lds o | .sts o | .ldc o =>
    some (⟨Shape.short, some (List.range 13), .t, .base, .none, .none, .none, .own, .fn, true⟩, o)
  | .atom o =>
    some (⟨[(.w96, false), (.w128, true)], some (List.range 13), .t, .w, .bt, .none, .k, .own, .m, true⟩, o)
  | .atoms o => some (⟨Shape.anyForm, some (List.range 13), .t, .v, .bt, .none, .none, .own, .m, true⟩, o)
  | .cas o => some (⟨[(.w96, false), (.w128, true)], some [0], .t, .w, .bt, .t, .k, .own, .m, true⟩, o)
  | .cass o => some (⟨[(.w96, false), (.w128, true)], some [0], .t, .v, .bt, .t, .none, .own, .m, true⟩, o)
  | .fence o => some (⟨Shape.f64, some [0], .none, .none, .none, .none, .none, .own, .none, true⟩, o)
  | .fenceE o => some (⟨Shape.f64, some [1], .none, .none, .none, .none, .none, .own, .none, true⟩, o)
  | .lease o => some (⟨Shape.short, some (List.range 16), .none, .mbase, .none, .none, .none, .own, .none, true⟩, o)
  | .pf o => some (⟨Shape.short, none, .none, .mbase, .none, .none, .none, .own, .none, true⟩, o)
  | .syncr o | .syncw o =>
    some (⟨Shape.f64, some [0, 1, 2, 3, 4, 5], .none, .none, .none, .none, .none, .own, .none, true⟩, o)
  | .rstate o => some (⟨Shape.f64, none, .none, .k, .k, .none, .none, .own, .none, true⟩, o)
  | .waymask o => some (⟨Shape.anyForm, none, .v, .none, .b, .none, .none, .cb, .none, true⟩, o)
  | .cpy o | .gth o | .coll o =>
    some (⟨Shape.short, some [0], .v, .card, .none, .none, .none, .own, .none, true⟩, o)
  | .cpyFill o => some (⟨Shape.short, some [1], .v, .card, .none, .none, .none, .own, .none, true⟩, o)
  | .job o => some (⟨Shape.short, some [0], .v, .base, .none, .none, .none, .own, .none, true⟩, o)
  | .jwait o => some (⟨Shape.f64, some [0], .none, .v, .none, .none, .none, .own, .none, true⟩, o)
  | .jqry o => some (⟨Shape.f64, some [0], .v, .v, .none, .none, .none, .own, .none, true⟩, o)
  | .swarm o => some (⟨Shape.anyForm, none, .none, .base, .b, .none, .none, .own, .none, true⟩, o)
  | .swait o => some (⟨Shape.anyForm, none, .v, .base, .b, .none, .none, .own, .none, true⟩, o)
  | .swpoll o => some (⟨Shape.short, none, .w, .base, .none, .none, .none, .own, .none, true⟩, o)
  | .dq o => some (⟨Shape.short, none, .v, .base, .none, .none, .none, .own, .none, true⟩, o)
  | .wqe o => some (⟨Shape.anyForm, none, .p, .base, .b, .none, .none, .own, .none, true⟩, o)
  | .wqt o => some (⟨Shape.f64, none, .v, .v, .v, .none, .none, .cb, .none, true⟩, o)
  | .cvjoin o => some (⟨Shape.short, some [0], .none, .s, .sb, .none, .none, .cb, .none, true⟩, o)
  | .cvleave o => some (⟨Shape.f64, some [0], .none, .none, .none, .none, .none, .own, .none, true⟩, o)
  | .cvstep o | .cvslip o =>
    some (⟨Shape.anyForm, some [0], .none, .none, .b, .none, .none, .cb, .none, true⟩, o)
  | .cvstat o => some (⟨Shape.f64, some [0], .w, .none, .none, .none, .none, .own, .none, true⟩, o)
  | .bra o => some (⟨Shape.f96, some [0], .k, .k, .k, .none, .none, .own, .none, false⟩, o)
  | .call o => some (⟨Shape.f96, some (List.range 16), .k, .k, .k, .none, .none, .own, .none, false⟩, o)
  | .brx o => some (⟨Shape.f96, some [0], .k, .w, .k, .none, .none, .own, .none, false⟩, o)
  | .callx o => some (⟨Shape.f96, some (List.range 16), .k, .w, .k, .none, .none, .own, .none, false⟩, o)
  | .lpad o => some (⟨Shape.f64, some [0], .k, .none, .k, .none, .none, .own, .none, true⟩, o)
  | .ret o => some (⟨Shape.f64, some [0], .none, .v, .none, .none, .none, .own, .none, true⟩, o)
  | .exit o | .stend o | .yield o | .eret o =>
    some (⟨Shape.f64, some [0], .none, .none, .none, .none, .none, .own, .none, true⟩, o)
  | .bar o => some (⟨Shape.f64, some [0], .none, .k, .none, .none, .none, .own, .none, true⟩, o)
  | .bara o => some (⟨Shape.f64, some [0], .v, .k, .none, .none, .none, .own, .none, true⟩, o)
  | .barw o => some (⟨Shape.anyForm, some [0], .none, .k, .b, .none, .none, .cb, .none, true⟩, o)
  | .stbeg o => some (⟨Shape.f64, some [0], .v, .s, .none, .none, .none, .own, .none, true⟩, o)
  | .stageAdd o => some (⟨Shape.anyForm, some [0], .none, .none, .b, .none, .none, .cb, .none, true⟩, o)
  | .stageSet o => some (⟨Shape.anyForm, some [1], .none, .none, .b, .none, .none, .cb, .none, true⟩, o)
  | .waitl o | .sleep o | .trap o =>
    some (⟨Shape.anyForm, some [0], .none, .none, .b, .none, .none, .cb, .none, true⟩, o)
  | .strdCtr o => some (⟨Shape.anyForm, some [0], .v, .none, .b, .none, .none, .cb, .none, true⟩, o)
  | .strdBrd o => some (⟨Shape.anyForm, some [1], .w, .none, .b, .none, .none, .cb, .none, true⟩, o)
  | .ctxsv o => some (⟨Shape.f64, some [0], .v, .s, .s, .none, .none, .privCb, .none, true⟩, o)
  | .ctxsvSt o => some (⟨Shape.f64, some [1], .w, .none, .none, .none, .none, .own, .none, true⟩, o)
  | .ctxld o | .halt o => some (⟨Shape.f64, some [0], .v, .s, .none, .none, .none, .own, .none, true⟩, o)
  | .slabModeChange o | .keyDraw o | .keyLoadWrapped o | .keyClear o =>
    some (⟨Shape.f64, some [0], .v, .mbox, .none, .none, .none, .own, .none, true⟩, o)
  | .tlbinvPage o => some (⟨Shape.f64, some [0], .none, .s, .s, .none, .none, .privCb, .none, true⟩, o)
  | .tlbinvRegion o => some (⟨Shape.f64, some [1], .none, .s, .s, .none, .none, .privCb, .none, true⟩, o)
  | .tlbinvCtx o => some (⟨Shape.f64, some [2], .none, .s, .none, .none, .none, .own, .none, true⟩, o)
  | .tlbinvAll o => some (⟨Shape.f64, some [3], .none, .none, .none, .none, .none, .own, .none, true⟩, o)
  | .tlbinvKey o => some (⟨Shape.f64, some [4], .none, .none, .s, .none, .none, .privCb, .none, true⟩, o)
  | .pwrrd o => some (⟨Shape.f64, some [0], .w, .k, .none, .none, .none, .own, .none, true⟩, o)
  | .pwrwrPcap o | .pwrwrPfloor o =>
    some (⟨Shape.anyForm, some [0], .v, .k, .b, .none, .none, .privCb, .none, true⟩, o)
  | .clkrat o | .idle o => some (⟨Shape.anyForm, some [0], .v, .none, .b, .none, .none, .privCb, .none, true⟩, o)
  | .levyqVault o => some (⟨Shape.anyForm, some [0], .w, .none, .b, .none, .none, .privCb, .none, true⟩, o)
  | .levyqAcct o => some (⟨Shape.anyForm, some [1], .w, .none, .b, .none, .none, .privCb, .none, true⟩, o)
  | .levyqBase o => some (⟨Shape.anyForm, some [2], .w, .none, .b, .none, .none, .privCb, .none, true⟩, o)
  | _ => none

/-- Bytes of one element of an access, by type code (R279); none for 0xD to 0xF (R278). -/
def accessSize (fn : Nat) : Option Nat :=
  if fn = 6 ∨ fn = 7 ∨ fn = 11 ∨ fn = 12 then some 1
  else if fn = 4 ∨ fn = 5 ∨ fn = 9 ∨ fn = 10 then some 2
  else if fn = 0 ∨ fn = 1 ∨ fn = 8 then some 4
  else if fn = 2 ∨ fn = 3 then some 8
  else none

/-- The operations of ATOM and ATOMS and the types of M[60:58] that each allows (R287). -/
def atomAllows (fn m : Nat) : Bool :=
  if fn ≤ 6 then m ≤ 3
  else if fn = 7 then m ≤ 4
  else if fn = 8 ∨ fn = 9 then m = 1 ∨ m = 3
  else if fn ≤ 12 then m = 4
  else false

/-- What an entry demands of M beyond the form and FN (step 6). -/
def Instr.mOk : Instr → Bool
  | .frnd o => o.m.toNat ≤ 4
  | .red o | .scan o => if o.m.toNat = 4 then o.fn.toNat % 8 ≤ 2 else o.m.toNat ≤ 3
  | .cvt o => o.m.toNat % 2 = 0
  | .mmaRegister o | .mmaDescriptor o => o.m.toNat ≤ 1
  | .ld o | .st o | .lds o | .sts o | .ldc o =>
    let vc := o.m.toNat / 2
    match accessSize o.fn.toNat with
    | some n => vc ≤ 2 && n * 2 ^ vc ≤ 16
    | none => false
  | .atom o | .atoms o => atomAllows o.fn.toNat o.m.toNat
  | .cas o | .cass o => o.m.toNat ≤ 3
  | _ => true

namespace Shape

/-- The form has an extension word W1 with C, MODA and E (R249). -/
def hasExt (o : Op) : Bool := o.form == .w128 || (o.form == .w96 && !o.imm)

/-- The form has MODB in W2 (R249). -/
def hasModB (o : Op) : Bool := o.form == .w128 && !o.imm

/-- B names a word of a constant bank (R261). (DEDUCED, log entry 17.) -/
def isConst (sh : Shape) (o : Op) : Bool := (sh.mUse == .cb || sh.mUse == .privCb) && !o.imm && o.m.getLsbD 0

/-- B is IMM20 or a literal, whatever class of register it would be (R259, R260). -/
def immB (sh : Shape) (o : Op) : Bool :=
  o.imm && (match sh.b with | .b | .bt | .sb | .v | .w | .s => true | _ => false)

/-- The type is 64 bits wide (.i64, .n64). -/
def wide (sh : Shape) (o : Op) : Bool :=
  match sh.ty with
  | .fn => o.fn.toNat == 2 || o.fn.toNat == 3
  | .m => o.m.toNat == 2 || o.m.toNat == 3
  | .none => false

/-- B is 64 bits wide, so that a constant takes two words (R261). -/
def constWide (sh : Shape) (o : Op) : Bool := sh.b == .w || sh.b == .s || (sh.b == .bt && sh.wide o)

/-- Class limits of one field (R121, R296, R390). -/
def within (sh : Shape) (o : Op) (c : Cls) (n : Nat) : Bool :=
  match c with
  | .s | .sb => n ≤ 63
  | .p | .x => n ≤ 7
  | .i => n ≤ 3
  | .j => n ≤ 15
  | .w => n % 2 == 0
  | .t | .bt => !sh.wide o || n % 2 == 0
  | .base => !o.m.getLsbD 0 || n ≤ 63
  | .mbase => if o.m.getLsbD 0 then n ≤ 63 else n % 2 == 0
  | .card => if o.m.getLsbD 0 then n ≤ 56 else n % 2 == 0 && n ≤ 240
  | .mbox => n ≤ 61
  | _ => true

/-- A field that holds a pair of vector registers, whose lower number is even (R121). -/
def pairField (sh : Shape) (o : Op) (c : Cls) : Bool := c.isV (o.m.getLsbD 0) && !sh.within o c 1

/-- The class of a source modifier, 001 to 100, that has an effect (R262). -/
def modded (m : Nat) : Bool := 1 ≤ m / 512 && m / 512 ≤ 4

end Shape

/-- Step 6 of R254: the form, FN and M values that the entry defines, DX only on a v-class D (R126), constants
only where R261 admits them. -/
def Shape.step6 (sh : Shape) (o : Op) : Bool :=
  sh.forms.contains (o.form, o.imm)
  && (match sh.fns with | some l => l.contains o.fn.toNat | none => true)
  && (!o.dx || sh.d.isV false)
  && (sh.mUse != .noConst || o.imm || !o.m.getLsbD 0)
  && (!(sh.isConst o && o.form != .w64 && sh.e != .none))

/-- Step 7 of R254 without the tile grant: class limits (R121) and modifiers only on v-class fields (R264). -/
def Shape.step7 (sh : Shape) (o : Op) : Bool :=
  let c := (o.w1.extractLsb' 0 8).toNat
  let e := (o.w1.extractLsb' 20 8).toNat
  let moda := (o.w1.extractLsb' 8 12).toNat
  let modb := (o.w2.extractLsb' 0 12).toNat
  let breg := !sh.immB o && !sh.isConst o
  sh.within o sh.d o.d.toNat
  && sh.within o sh.a o.a.toNat
  && (if breg then sh.within o sh.b o.b.toNat
      else !(sh.isConst o && sh.constWide o) || o.b.toNat % 2 == 0)
  && (!Shape.hasExt o || (sh.within o sh.c c && sh.within o sh.e e))
  && (!sh.mods || !Shape.hasExt o || !Shape.modded moda || sh.a.isV (o.m.getLsbD 0))
  && (!sh.mods || !Shape.hasModB o || !Shape.modded modb || !breg || sh.b.isV false)

/-- A CVT source of 64 bits is an even pair (R328, R121). -/
def Instr.srcOk : Instr → Bool
  | .cvt o =>
    let src := o.b.toNat % 16
    !(src == 2 || src == 3) || o.a.toNat % 2 == 0
  | _ => true

/-- Ranges of the places that a step of another agent names. -/
def Instr.placeOk : Instr → Bool
  | .tempSample v _ | .bandChange v | .patrolScrub v _ _ => v < 256
  | .walkStart d | .walkRetry d _ | .walkDeliver d _ | .fqheadWrite d _
  | .fqcfgWrite d _ | .walkEntryRead d _ | .adCompareSwap d _ | .fillerIssue d _ | .fillerSettled d _ => d < 4
  | .vaultDataLeaves v w _ | .umbraClose v w => v < 256 && w < 128
  | .cxlLinkDown p | .cxlLinkUp p => p < 4
  | .tick c | .jobAccept c | .jobStart c | .clockRatioSwitch c | .engineUnitDelivery c _ | .jobComplete c _
  | .jobErrorEnd c _ | .convoyMirrorUpdate c _ _ => c < 32
  | .rblkGrant c | .planeOpStart c | .planeOpComplete c | .accessReplay c _ | .exclusiveTimeout c _ => c < 512
  | .wayFlushComplete c w => c < 512 && w < 16
  | .sfuResult c q => c < 512 && q < 4
  | .groupEnd c g | .forcedSave c g => c < 512 && g < 64
  | .watchdogExpiry c g t | .sleepExpiry c g t => c < 512 && g < 64 && t < 1024
  | .queueTailWrite q _ | .waitEventPoll q => q < 64
  | .supctxWrite k _ => k < 4
  | .ulukarFlitReceive l _ x => l < 16 && x.body.bytes.length ≤ 48
  | .ulukarLinkRetrain l => l < 16
  | _ => true

/-- The opcode values that R268 assigns below the hint region, as runs from a first to a last value. -/
def opcAssigned (opc : Nat) : Bool :=
  [(0x000, 0x01E), (0x080, 0x095), (0x100, 0x10F), (0x180, 0x186), (0x1C0, 0x1C7), (0x200, 0x20F),
   (0x280, 0x28B), (0x2C0, 0x2C4), (0x300, 0x312), (0x380, 0x389)].any fun r => r.1 ≤ opc && opc ≤ r.2

/-- What an instruction or step must satisfy: for an instruction, the state-free checks of steps 6 and 7. (DEDUCED, log entry 15.) -/
def Instr.wf (i : Instr) : Bool :=
  match i with
  | .nop opc o => 0x3C0 ≤ opc.toNat && (o.form == .w128 || o.w2 == 0) && (o.form != .w64 || o.w1 == 0)
  | .unassignedOpcode first rest =>
    if first.extractLsb' 0 2 = 0#2 then rest.isEmpty
    else !opcAssigned (first.extractLsb' 2 10).toNat && (first.extractLsb' 2 10).toNat < 0x3C0
      && rest.length == (first.extractLsb' 0 2).toNat
  | _ =>
    match i.shape with
    | some (sh, o) =>
      sh.step6 o && i.mOk && sh.step7 o && i.srcOk
        && (o.form == .w128 || o.w2 == 0) && (o.form != .w64 || o.w1 == 0)
    | none => i.placeOk

end Sys2Proof
end

