-- ==== Sys2Proof/Decode.lean ====
section
/-! DEFINITION. Decoding, total on any bytes (14_encoding_and_assembly.md R248 to R251, R253, R268, R269), the
parse of a fetch block (R250), and the encoder that lays an instruction's fields out again (R248, R249). -/

namespace Sys2Proof

/-- Why words do not decode. `short`: fewer bytes than the form needs. `illegal`: an assigned opcode whose form,
FN, M or operand classes the entry does not define (steps 6 and 7 of R254); it says whether the opcode is
privileged, whose check (step 5) comes first. -/
inductive Reject where
  | short
  | illegal (privileged : Bool)
  deriving DecidableEq, Repr

/-- Word k of a little-endian byte sequence (R6); absent bytes count as 0. -/
def wordAt (bs : List Byte) (k : Nat) : Word :=
  (bs.getD (4 * k + 3) 0 ++ bs.getD (4 * k + 2) 0) ++ (bs.getD (4 * k + 1) 0 ++ bs.getD (4 * k) 0)

/-- The bytes of a word, lowest address first (R6). -/
def wordBytes (w : Word) : List Byte :=
  [w.extractLsb' 0 8, w.extractLsb' 8 8, w.extractLsb' 16 8, w.extractLsb' 24 8]

/-- The number of words that LEN names (R248); 0 for the zero word. -/
def lenWords (w : Word) : Nat :=
  match (w.extractLsb' 0 2).toNat with
  | 0 => 0
  | n => n + 1

def opcOf (w : Word) : BitVec 10 := w.extractLsb' 2 10

/-- Privileged opcodes (R253). -/
def opcPrivileged (opc : BitVec 10) : Bool := 0x380 ≤ opc.toNat && opc.toNat ≤ 0x3BF

/-- The fields of the words of a form (R248, R249). -/
def opOf (f : Form) (lo hi w1 w2 : Word) : Op :=
  { form := f, fn := lo.extractLsb' 12 4, d := lo.extractLsb' 16 8, a := lo.extractLsb' 24 8
    b := hi.extractLsb' 0 8, pg0 := hi.extractLsb' 8 3, n0 := hi.getLsbD 11, pg1 := hi.extractLsb' 12 3
    n1 := hi.getLsbD 15, gm := hi.extractLsb' 16 2, h := hi.extractLsb' 18 4, fa := hi.getLsbD 22
    fb := hi.getLsbD 23, yld := hi.getLsbD 24, imm := hi.getLsbD 25, m := hi.extractLsb' 26 3
    dx := hi.getLsbD 29, dxi := hi.extractLsb' 30 2, w1 := w1, w2 := w2 }

/-- The instruction of a mnemonic's opcode that an FN value selects. -/
def byFn (fn : Nat) (l : List Instr) : Option Instr := l[fn]?

/-- The opcode map (R268): the instruction that an assigned opcode and its FN name. None: the opcode is not
assigned, or its FN names no instruction. MBOX has one encoding for its four requests (R390), so its words
decode to the first; the request is read when it issues. -/
def ofOpc (opc : Nat) (o : Op) : Option Instr :=
  match opc with
  | 0x000 => some (.iadd o)
  | 0x001 => some (.isub o)
  | 0x002 => some (.imul o)
  | 0x003 => some (.imulh o)
  | 0x004 => some (.imad o)
  | 0x005 => some (.imin o)
  | 0x006 => some (.imax o)
  | 0x007 => some (.iabs o)
  | 0x008 => some (.ineg o)
  | 0x009 => some (.and o)
  | 0x00A => some (.or o)
  | 0x00B => some (.xor o)
  | 0x00C => some (.not o)
  | 0x00D => some (.andn o)
  | 0x00E => some (.shl o)
  | 0x00F => some (.shr o)
  | 0x010 => some (.sar o)
  | 0x011 => some (.rotl o)
  | 0x012 => some (.bfx o)
  | 0x013 => some (.bfi o)
  | 0x014 => some (.clz o)
  | 0x015 => some (.popc o)
  | 0x016 => some (.brev o)
  | 0x017 => some (.icmp o)
  | 0x018 => some (.lea o)
  | 0x019 => some (.iadd3 o)
  | 0x01A => some (.pand o)
  | 0x01B => some (.por o)
  | 0x01C => some (.pxor o)
  | 0x01D => some (.pnot o)
  | 0x01E => some (.pset o)
  | 0x080 => some (.fadd o)
  | 0x081 => some (.fsub o)
  | 0x082 => some (.fmul o)
  | 0x083 => some (.ffma o)
  | 0x084 => some (.fmin o)
  | 0x085 => some (.fmax o)
  | 0x086 => some (.fcmp o)
  | 0x087 => some (.fclass o)
  | 0x088 => some (.frnd o)
  | 0x089 => some (.fscale o)
  | 0x08A => some (.fmode o)
  | 0x08B => some (.hadd2 o)
  | 0x08C => some (.hmul2 o)
  | 0x08D => some (.hfma2 o)
  | 0x08E => some (.rcp o)
  | 0x08F => some (.rsq o)
  | 0x090 => some (.sqrt o)
  | 0x091 => some (.exp2 o)
  | 0x092 => some (.log2 o)
  | 0x093 => some (.sin o)
  | 0x094 => some (.cos o)
  | 0x095 => some (.tanh o)
  | 0x100 => some (.mov o)
  | 0x101 => byFn o.fn.toNat [.moviScalar o, .moviPair o]
  | 0x102 => some (.sel o)
  | 0x103 => byFn o.fn.toNat [.rblkAcq o, .rblkTry o, .rblkRel o, .rblkQry o]
  | 0x104 => some (.idx o)
  | 0x105 => some (.idxadd o)
  | 0x106 => byFn o.fn.toNat [.srdV32 o, .srdV64 o, .srdS o]
  | 0x107 => byFn o.fn.toNat [.swrB o, .swrW o, .swrS o]
  | 0x108 => some (.elect o)
  | 0x109 => some (.bcast o)
  | 0x10A => byFn o.fn.toNat [.voteAll o, .voteAny o, .voteUni o]
  | 0x10B => some (.ballot o)
  | 0x10C => some (.red o)
  | 0x10D => some (.scan o)
  | 0x10E => some (.prmt o)
  | 0x10F => byFn o.fn.toNat [.smovSS o, .smovSV32 o, .smovSV64 o, .smovV32S o, .smovV64S o]
  | 0x180 => some (.cvt o)
  | 0x181 => some (.qnt o)
  | 0x182 => some (.qexp o)
  | 0x183 => some (.dqnt o)
  | 0x184 => byFn o.fn.toNat [.hdm o, .hdmNorm o]
  | 0x185 => some (.pack o)
  | 0x186 => some (.unpk o)
  | 0x1C0 => some (.jdecl o)
  | 0x1C1 => some (.jrst o)
  | 0x1C2 => byFn o.fn.toNat [.mmaRegister o, .mmaDescriptor o]
  | 0x1C3 => byFn o.fn.toNat [.scl o, .sclRaw o]
  | 0x1C4 => some (.accz o)
  | 0x1C5 => some (.accrd o)
  | 0x1C6 => some (.accwr o)
  | 0x1C7 => some (.accst o)
  | 0x200 => some (.ld o)
  | 0x201 => some (.st o)
  | 0x202 => some (.lds o)
  | 0x203 => some (.sts o)
  | 0x204 => some (.ldc o)
  | 0x205 => some (.atom o)
  | 0x206 => some (.atoms o)
  | 0x207 => some (.cas o)
  | 0x208 => some (.cass o)
  | 0x209 => byFn o.fn.toNat [.fence o, .fenceE o]
  | 0x20A => some (.lease o)
  | 0x20B => some (.pf o)
  | 0x20C => some (.syncr o)
  | 0x20D => some (.syncw o)
  | 0x20E => some (.rstate o)
  | 0x20F => some (.waymask o)
  | 0x280 => byFn o.fn.toNat [.cpy o, .cpyFill o]
  | 0x281 => some (.gth o)
  | 0x282 => some (.job o)
  | 0x283 => some (.coll o)
  | 0x284 => some (.jwait o)
  | 0x285 => some (.jqry o)
  | 0x286 => some (.swarm o)
  | 0x287 => some (.swait o)
  | 0x288 => some (.swpoll o)
  | 0x289 => some (.dq o)
  | 0x28A => some (.wqe o)
  | 0x28B => some (.wqt o)
  | 0x2C0 => some (.cvjoin o)
  | 0x2C1 => some (.cvleave o)
  | 0x2C2 => some (.cvstep o)
  | 0x2C3 => some (.cvstat o)
  | 0x2C4 => some (.cvslip o)
  | 0x300 => some (.bra o)
  | 0x301 => some (.brx o)
  | 0x302 => some (.lpad o)
  | 0x303 => some (.call o)
  | 0x304 => some (.callx o)
  | 0x305 => some (.ret o)
  | 0x306 => some (.exit o)
  | 0x307 => some (.bar o)
  | 0x308 => some (.bara o)
  | 0x309 => some (.barw o)
  | 0x30A => some (.stbeg o)
  | 0x30B => byFn o.fn.toNat [.stageAdd o, .stageSet o]
  | 0x30C => some (.waitl o)
  | 0x30D => some (.stend o)
  | 0x30E => byFn o.fn.toNat [.strdCtr o, .strdBrd o]
  | 0x30F => some (.yield o)
  | 0x310 => some (.sleep o)
  | 0x311 => some (.trap o)
  | 0x312 => some (.eret o)
  | 0x380 => byFn o.fn.toNat [.ctxsv o, .ctxsvSt o]
  | 0x381 => some (.ctxld o)
  | 0x382 => byFn o.fn.toNat [.tlbinvPage o, .tlbinvRegion o, .tlbinvCtx o, .tlbinvAll o, .tlbinvKey o]
  | 0x383 => some (.pwrrd o)
  | 0x384 => some (if 8 ≤ o.a.toNat ∧ o.a.toNat ≤ 15 then .pwrwrPfloor o else .pwrwrPcap o)
  | 0x385 => some (.clkrat o)
  | 0x386 => some (.idle o)
  | 0x387 => some (.halt o)
  | 0x388 => byFn o.fn.toNat [.levyqVault o, .levyqAcct o, .levyqBase o]
  | 0x389 => some (.slabModeChange o)
  | _ => none

/-- An instruction's opcode, by the same map; 0 for the steps of other agents. -/
def Instr.opc : Instr → BitVec 10
  | .nop opc _ => opc
  | .unassignedOpcode first _ => opcOf first
  | .iadd _ => 0x000#10
  | .isub _ => 0x001#10
  | .imul _ => 0x002#10
  | .imulh _ => 0x003#10
  | .imad _ => 0x004#10
  | .imin _ => 0x005#10
  | .imax _ => 0x006#10
  | .iabs _ => 0x007#10
  | .ineg _ => 0x008#10
  | .and _ => 0x009#10
  | .or _ => 0x00A#10
  | .xor _ => 0x00B#10
  | .not _ => 0x00C#10
  | .andn _ => 0x00D#10
  | .shl _ => 0x00E#10
  | .shr _ => 0x00F#10
  | .sar _ => 0x010#10
  | .rotl _ => 0x011#10
  | .bfx _ => 0x012#10
  | .bfi _ => 0x013#10
  | .clz _ => 0x014#10
  | .popc _ => 0x015#10
  | .brev _ => 0x016#10
  | .icmp _ => 0x017#10
  | .lea _ => 0x018#10
  | .iadd3 _ => 0x019#10
  | .pand _ => 0x01A#10
  | .por _ => 0x01B#10
  | .pxor _ => 0x01C#10
  | .pnot _ => 0x01D#10
  | .pset _ => 0x01E#10
  | .fadd _ => 0x080#10
  | .fsub _ => 0x081#10
  | .fmul _ => 0x082#10
  | .ffma _ => 0x083#10
  | .fmin _ => 0x084#10
  | .fmax _ => 0x085#10
  | .fcmp _ => 0x086#10
  | .fclass _ => 0x087#10
  | .frnd _ => 0x088#10
  | .fscale _ => 0x089#10
  | .fmode _ => 0x08A#10
  | .hadd2 _ => 0x08B#10
  | .hmul2 _ => 0x08C#10
  | .hfma2 _ => 0x08D#10
  | .rcp _ => 0x08E#10
  | .rsq _ => 0x08F#10
  | .sqrt _ => 0x090#10
  | .exp2 _ => 0x091#10
  | .log2 _ => 0x092#10
  | .sin _ => 0x093#10
  | .cos _ => 0x094#10
  | .tanh _ => 0x095#10
  | .mov _ => 0x100#10
  | .moviScalar _ => 0x101#10
  | .moviPair _ => 0x101#10
  | .sel _ => 0x102#10
  | .rblkAcq _ => 0x103#10
  | .rblkTry _ => 0x103#10
  | .rblkRel _ => 0x103#10
  | .rblkQry _ => 0x103#10
  | .idx _ => 0x104#10
  | .idxadd _ => 0x105#10
  | .srdV32 _ => 0x106#10
  | .srdV64 _ => 0x106#10
  | .srdS _ => 0x106#10
  | .swrB _ => 0x107#10
  | .swrW _ => 0x107#10
  | .swrS _ => 0x107#10
  | .elect _ => 0x108#10
  | .bcast _ => 0x109#10
  | .voteAll _ => 0x10A#10
  | .voteAny _ => 0x10A#10
  | .voteUni _ => 0x10A#10
  | .ballot _ => 0x10B#10
  | .red _ => 0x10C#10
  | .scan _ => 0x10D#10
  | .prmt _ => 0x10E#10
  | .smovSS _ => 0x10F#10
  | .smovSV32 _ => 0x10F#10
  | .smovSV64 _ => 0x10F#10
  | .smovV32S _ => 0x10F#10
  | .smovV64S _ => 0x10F#10
  | .cvt _ => 0x180#10
  | .qnt _ => 0x181#10
  | .qexp _ => 0x182#10
  | .dqnt _ => 0x183#10
  | .hdm _ => 0x184#10
  | .hdmNorm _ => 0x184#10
  | .pack _ => 0x185#10
  | .unpk _ => 0x186#10
  | .jdecl _ => 0x1C0#10
  | .jrst _ => 0x1C1#10
  | .mmaRegister _ => 0x1C2#10
  | .mmaDescriptor _ => 0x1C2#10
  | .scl _ => 0x1C3#10
  | .sclRaw _ => 0x1C3#10
  | .accz _ => 0x1C4#10
  | .accrd _ => 0x1C5#10
  | .accwr _ => 0x1C6#10
  | .accst _ => 0x1C7#10
  | .ld _ => 0x200#10
  | .st _ => 0x201#10
  | .lds _ => 0x202#10
  | .sts _ => 0x203#10
  | .ldc _ => 0x204#10
  | .atom _ => 0x205#10
  | .atoms _ => 0x206#10
  | .cas _ => 0x207#10
  | .cass _ => 0x208#10
  | .fence _ => 0x209#10
  | .fenceE _ => 0x209#10
  | .lease _ => 0x20A#10
  | .pf _ => 0x20B#10
  | .syncr _ => 0x20C#10
  | .syncw _ => 0x20D#10
  | .rstate _ => 0x20E#10
  | .waymask _ => 0x20F#10
  | .cpy _ => 0x280#10
  | .cpyFill _ => 0x280#10
  | .gth _ => 0x281#10
  | .job _ => 0x282#10
  | .coll _ => 0x283#10
  | .jwait _ => 0x284#10
  | .jqry _ => 0x285#10
  | .swarm _ => 0x286#10
  | .swait _ => 0x287#10
  | .swpoll _ => 0x288#10
  | .dq _ => 0x289#10
  | .wqe _ => 0x28A#10
  | .wqt _ => 0x28B#10
  | .cvjoin _ => 0x2C0#10
  | .cvleave _ => 0x2C1#10
  | .cvstep _ => 0x2C2#10
  | .cvstat _ => 0x2C3#10
  | .cvslip _ => 0x2C4#10
  | .bra _ => 0x300#10
  | .brx _ => 0x301#10
  | .lpad _ => 0x302#10
  | .call _ => 0x303#10
  | .callx _ => 0x304#10
  | .ret _ => 0x305#10
  | .exit _ => 0x306#10
  | .bar _ => 0x307#10
  | .bara _ => 0x308#10
  | .barw _ => 0x309#10
  | .stbeg _ => 0x30A#10
  | .stageAdd _ => 0x30B#10
  | .stageSet _ => 0x30B#10
  | .waitl _ => 0x30C#10
  | .stend _ => 0x30D#10
  | .strdCtr _ => 0x30E#10
  | .strdBrd _ => 0x30E#10
  | .yield _ => 0x30F#10
  | .sleep _ => 0x310#10
  | .trap _ => 0x311#10
  | .eret _ => 0x312#10
  | .ctxsv _ => 0x380#10
  | .ctxsvSt _ => 0x380#10
  | .ctxld _ => 0x381#10
  | .tlbinvPage _ => 0x382#10
  | .tlbinvRegion _ => 0x382#10
  | .tlbinvCtx _ => 0x382#10
  | .tlbinvAll _ => 0x382#10
  | .tlbinvKey _ => 0x382#10
  | .pwrrd _ => 0x383#10
  | .pwrwrPcap _ => 0x384#10
  | .pwrwrPfloor _ => 0x384#10
  | .clkrat _ => 0x385#10
  | .idle _ => 0x386#10
  | .halt _ => 0x387#10
  | .levyqVault _ => 0x388#10
  | .levyqAcct _ => 0x388#10
  | .levyqBase _ => 0x388#10
  | .slabModeChange _ => 0x389#10
  | .keyDraw _ => 0x389#10
  | .keyLoadWrapped _ => 0x389#10
  | .keyClear _ => 0x389#10
  | _ => 0#10

/-- An instruction's fields; none for the steps of other agents and for unassigned words. -/
def Instr.op? (i : Instr) : Option Op :=
  match i with
  | .nop _ o => some o
  | _ => i.shape.map (·.2)

def formOf (n : Nat) : Form := if n = 2 then .w64 else if n = 3 then .w96 else .w128

/-- Decode the words of an instruction (R248): the first word alone for a zero word, else as many as LEN says.
The hint region decodes whatever its fields hold (R269). -/
def decodeWords (lo hi w1 w2 : Word) : Except Reject Instr :=
  let n := lenWords lo
  if n = 0 then .ok (.unassignedOpcode lo [])
  else
    let x1 := if 3 ≤ n then w1 else 0
    let x2 := if 4 ≤ n then w2 else 0
    let o := opOf (formOf n) lo hi x1 x2
    let opc := opcOf lo
    if 0x3C0 ≤ opc.toNat then .ok (.nop opc o)
    else if opcAssigned opc.toNat then
      match ofOpc opc.toNat o with
      | some i => if i.wf then .ok i else .error (.illegal (opcPrivileged opc))
      | none => .error (.illegal (opcPrivileged opc))
    else .ok (.unassignedOpcode lo ([hi, x1, x2].take (n - 1)))

/-- Decode the instruction at the head of a byte sequence, and how many words it takes (R250: 1 for a zero
word). -/
def decode (bs : List Byte) : Except Reject (Instr × Nat) :=
  if bs.length < 4 then .error .short
  else
    let n := lenWords (wordAt bs 0)
    if bs.length < 4 * n then .error .short
    else
      match decodeWords (wordAt bs 0) (wordAt bs 1) (wordAt bs 2) (wordAt bs 3) with
      | .ok i => .ok (i, max n 1)
      | .error e => .error e

/-- LEN of a form (R248). -/
def Form.len : Form → BitVec 2
  | .w64 => 1 | .w96 => 2 | .w128 => 3

def bit (b : Bool) : BitVec 1 := BitVec.ofBool b

/-- W0[31:0] of an opcode and its fields (R248). -/
def encodeLo (opc : BitVec 10) (o : Op) : Word := o.a ++ (o.d ++ (o.fn ++ (opc ++ o.form.len)))

/-- W0[63:32] of its fields (R248). -/
def encodeHi (o : Op) : Word :=
  o.dxi ++ (bit o.dx ++ (o.m ++ (bit o.imm ++ (bit o.yld ++ (bit o.fb ++ (bit o.fa ++ (o.h ++ (o.gm ++
    (bit o.n1 ++ (o.pg1 ++ (bit o.n0 ++ (o.pg0 ++ o.b))))))))))))

/-- The words of an instruction (R248, R249); none for the steps of other agents. -/
def encode (i : Instr) : List Word :=
  match i with
  | .unassignedOpcode first rest => first :: rest
  | _ =>
    match i.op? with
    | none => []
    | some o =>
      let w0 := [encodeLo i.opc o, encodeHi o]
      match o.form with
      | .w64 => w0
      | .w96 => w0 ++ [o.w1]
      | .w128 => w0 ++ [o.w1, o.w2]

/-- The bytes of an instruction, lowest address first (R6). -/
def encodeBytes (i : Instr) : List Byte := (encode i).flatMap wordBytes

/-- The bytes of the number w, `n` of them, lowest first. -/
def natBytes (n w : Nat) : List Byte := (List.range n).map fun k => BitVec.ofNat 8 (w / 256 ^ k)

/-- The instruction that the decoder reads from bits numbered as spec/opcode_table.json numbers them: bit 0 is
the least significant bit of the first word; bits above `nbits`, up to the longest instruction, are 0. -/
def decodeTableWord (nbits w : Nat) : Option Instr :=
  match decode (natBytes 16 (w % 2 ^ nbits)) with
  | .ok (i, _) => some i
  | .error _ => none

/-- The instruction starts of a 32-byte fetch block, as word numbers (R250). -/
def startsFrom (bs : List Byte) : Nat → Nat → List Nat
  | 0, _ => []
  | fuel + 1, p =>
    if 8 ≤ p then []
    else
      let n := lenWords (wordAt bs p)
      p :: (if n = 0 then [] else startsFrom bs fuel (p + n))

def blockStarts (bs : List Byte) : List Nat := startsFrom bs 8 0

/-- Word 7 is the block's skip word (R250). -/
def hasSkip (bs : List Byte) : Bool := (blockStarts bs).contains 7 && lenWords (wordAt bs 7) == 0

/-- Word p is a legal branch target: a start that is not the skip word (R250). -/
def legalTarget (bs : List Byte) (p : Nat) : Bool :=
  (blockStarts bs).contains p && !(p == 7 && hasSkip bs)

/-- The address that follows an instruction of n words at pc, whose block is bs: past the end of the block, or
past its skip word, it is word 0 of the next block (R251, R365). -/
def nextPc (bs : List Byte) (pc : Dword) (n : Nat) : Dword :=
  let p := (pc.toNat / 4) % 8
  let q := p + n
  let base := pc &&& ~~~31#64
  if 8 ≤ q ∨ (q = 7 ∧ hasSkip bs) then base + 32#64 else base + BitVec.ofNat 64 (4 * q)

end Sys2Proof
end

