-- ==== Sys2Proof/Config.lean ====
section
/-! DEFINITION. The free values of the model: constants without a body, one for each value that the
spec leaves open, and what only the firmware or a key decides. No proof can see what they are. -/

namespace Sys2Proof

/-- The k-th byte that the spec leaves undefined (R9, R15, R19, R31, R97, R104, R447). -/
opaque Config.freeByte : Nat → Byte

/-- The k-th word that the spec leaves undefined (R19: the destination of a poisoned load). -/
opaque Config.freeWord : Nat → Word

/-- Whether a 64-byte key wrapped as R441 says unwraps under the host's session key. (DESIGN CHOICE, log entry 11.) -/
opaque Config.unwraps : List Byte → Bool

/-- The ML-DSA-87 signature of an attestation report's bytes 0x000 to 0x24F (R439). (DESIGN CHOICE, log entry 11.) -/
opaque Config.signature : List Byte → List Byte

/-- The fused rollback counter (R438, R439). (DESIGN CHOICE, log entry 11.) -/
opaque Config.rollback : Dword

/-- The Quinnal certificate chain of the device identity key (R439). (DESIGN CHOICE, log entry 11.) -/
opaque Config.certChain : List Byte

end Sys2Proof
end

