-- ==== Sys2Proof/Machine/State.lean ====
section
/-! DEFINITION. The state of the package as plain data: registers, memories, queues and units, each with the
rule that names it, the state after reset, and the two reason types of a step that stops. -/

namespace Sys2Proof.Machine

/-- No step of this model stops with a fault: what the spec calls a trap or a fault is a next state. The one
constructor is raised by `step` when the schedule in State names an agent that does not exist; safe. -/
inductive Fault where
  | noSuchAgent
  deriving DecidableEq, Repr

/-- `notModelled`: an instruction whose arm in Dispatch is rejected by name; safe. -/
inductive Refusal where
  | notModelled (mnemonic : String)
  deriving DecidableEq, Repr

/-! ## Threads -/

/-- What an issued instruction waits for (R183, R230, R231). -/
inductive WaitKind where
  /-- BAR, or BARW (`bar` false), waits for its level's unit to leave a phase. -/
  | phase (bar : Bool) (level : Nat) (p : BitVec 16)
  | swait (addr : Word) (gen : BitVec 16)
  | stbeg (board : Nat)
  | waitl (k : Nat)
  /-- A blocking RBLK of k blocks per home wave, and the number of its issue. -/
  | rblk (k id : Nat)
  | sleep (wake : Nat)
  | idle
  | signature (j : Nat)
  /-- A job instruction waits at issue for its jobs to be accepted (R107). -/
  | job
  /-- An instruction that releases waits at issue for its write-backs (SYNCW, a barrier arrival, STAGE, STEND, EXIT, WQE, WQT), with
  the values that its operands gave (R95, R202). -/
  | release (args : List Nat)
  /-- RSTATE waits for the accesses issued to its region (R98). -/
  | region
  /-- WAYMASK waits for the ways that enter with its mask (R78). -/
  | waymask (m : BitVec 16)
  /-- HALT of a context, CLKRAT of a cluster, or request n to Benuino (R388, R386, R390). -/
  | halt (ctx : Nat)
  | clock (cluster : Nat)
  | mbox (n : Nat)
  deriving DecidableEq, Repr

/-- A wait, the front cycle of the cluster at which it began, and whether an event has ended it. -/
structure Wait where
  kind  : WaitKind
  since : Nat
  ended : Bool
  deriving DecidableEq, Repr

/-- A trap that is due (R230, R233): its cause, the instruction that caused it, t6 and t7, t8, its log entry, and whether
a handler's own access caused it (R235). -/
structure Due where
  cause : BitVec 16
  pc    : Dword
  va    : Dword
  info  : Word
  log   : Option Nat
  inner : Bool := false
  deriving DecidableEq, Repr

/-- A thread: PC and priority (R180), the registers held per thread (R120, R131, R122), its stage binding (R199),
convoy cursor (R59), wait, BAR mark (R189), deferred traps due (R245), and whether its first issue is to come
(R448). Registers not listed are 0 and those not in an `Empty` list are full. `newly`: registers that became full in this front
cycle, which counts at issue from the next one (R277); t registers as 256 to 271. -/
structure Thread where
  live     : Bool
  pc       : Dword
  prio     : BitVec 16
  v        : Tbl Word
  vEmpty   : List Nat
  preds    : BitVec 8
  idx      : Tbl (BitVec 16)
  t        : Tbl Word
  tEmpty   : List Nat
  handler  : Bool
  fmode    : BitVec 3
  fstat    : BitVec 6
  bind     : Option (Nat × Word)
  cursor   : Word
  wait     : Option Wait
  mark     : Option (Nat × BitVec 16)
  due      : List Due
  fresh    : Bool
  newly    : List Nat
  deriving DecidableEq, Repr

/-! ## Launch records and groups -/

/-- A level entry (R176). -/
structure Level where
  extent : Nat
  used   : Bool
  scope  : Nat
  domain : Nat
  deriving DecidableEq, Repr

/-- A launch record's fields (R215). -/
structure Rec where
  code   : Dword
  cvhint : Nat
  vinit  : Bool
  gang   : Bool
  heat   : Nat
  boards : Nat
  scale  : Nat
  tiles  : Nat
  rot    : Bool
  spad   : Nat
  regs   : Nat
  cbank  : Dword
  eprio  : BitVec 16
  dem    : Nat
  tcols  : Nat
  trows  : Nat
  levels : List Level
  waitev : Dword
  waitval : Dword
  sigev  : Dword
  sinit  : List Dword
  deriving DecidableEq, Repr

/-- What a signer's own MMA named (R163, R357): the registers of its format word, A row and B column, and the PC that
follows the MMA. -/
structure Signer where
  fmt  : Nat
  a    : Nat
  b    : Nat
  next : Dword
  deriving DecidableEq, Repr

/-- A join register (R170), with the pending operation's tile, form and M (R171) and its signers by rank. -/
structure Join where
  count   : Nat
  first   : Nat
  signed  : Dword
  sig     : Option (List Nat)
  signers : Tbl Signer
  deriving DecidableEq, Repr

/-- A barrier of one unit (R189): its phase and the threads (above the group domain, the groups) that have arrived; of one that the hub
keeps, also the time of the arrivals of this phase and of those before (R190, R191). -/
structure Barrier where
  phase   : BitVec 16
  arrived : List Nat
  time    : Dword := 0
  last    : Dword := 0
  deriving DecidableEq, Repr

/-- The convoy registers held per group (R65). -/
structure CvRegs where
  id      : BitVec 16
  slip    : BitVec 16
  timeout : Nat
  count   : Word
  cause   : BitVec 3
  shed    : Bool
  deriving DecidableEq, Repr

/-- A frontier entry's age on a quadrant (R185, R186); `raised` numbers the entries in the order they were raised. -/
structure Age where
  quad   : Nat
  prio   : BitVec 16
  pc     : Dword
  age    : Nat
  raised : Option Nat
  deriving DecidableEq, Repr

/-- A resident group: place in its launch, the registers held per group (R120), handler and watchdog registers
(R231, R232), convoy registers (R65), barriers of levels within the group (R189), ages and yield marks (R185, R187),
boards granted (R197), the largest time of its ended jobs (R116), the first unhandled trap (R235), the issue opportunities
used since the last energy charge (R243), and the tiles that became full in this front cycle, which count so at issue from the next one
(R277). -/
structure Group where
  ctx     : Nat
  launch  : Nat
  index   : Nat
  record : Rec
  threads : List Thread
  homes   : List Nat
  quad    : Nat
  s       : Tbl Dword
  sEmpty  : List Nat
  x       : Tbl (Tbl Word)
  xEmpty  : List Nat
  j       : Tbl Join
  scale   : Tbl Byte
  tvec    : Dword
  wdog    : Word
  cv      : CvRegs
  bars    : Tbl Barrier
  ages    : List Age
  raises  : Nat
  passed  : Tbl (List Nat)
  boards  : List Nat
  jobTime : Dword
  stopped : Option (BitVec 16 × Dword)
  node    : Option Nat
  saving  : Bool
  used    : Nat := 0
  xNewly  : List Nat := []
  deriving DecidableEq, Repr

/-! ## Memory accesses in flight -/

/-- What an access does (R283 to R293, R364). -/
inductive AccKind where
  | load | store | atomic (fn : Nat) (ty : Nat) (scope : Nat) | cas (ty : Nat) (scope : Nat)
  | prefetch | lease (len : Nat) | const
  deriving DecidableEq, Repr

/-- How far one lane's access has come. `logged`: translation is to be looked up again. `walk`: it waits for a walk.
`parked`: its walk has failed (R45). `ready`: translated. `fill`: its read is on its way (R71). `arrived`: the data is
here and waits for its turn (R89). `renew`: a renewal is on its way (R87). `sent`: a store or home atomic awaits
its acknowledgement. `excl`: it awaits an exclusive lease (R93). `held`: it waits for ERET (R236). -/
inductive Phase where
  | logged | walk | parked | ready | fill | arrived | renew | sent | excl | held
  deriving DecidableEq, Repr

/-- The data of a line and its times as they reach a core. -/
structure Got where
  bytes  : List Byte
  wts    : Dword
  rts    : Dword
  poison : BitVec 4
  deriving DecidableEq, Repr

/-- One lane's access (R67, R236), in a core's issue order. `inst` numbers the instruction it belongs to; `va`, the data
and the other sources are held here, so a replay reads no register. `state`: its region's state at issue, then at translation. `replay`:
its walk has failed, or its thread's handler returns to it, so it no longer stands at its place in that order (R237). -/
structure Acc where
  id     : Nat
  inst   : Nat
  slot   : Nat
  tid    : Nat
  pc     : Dword
  kind   : AccKind
  va     : Dword
  size   : Nat
  count  : Nat
  dest   : Nat
  sext   : Bool
  hint   : Nat
  data   : List Byte
  cmp    : List Byte
  priv   : Bool
  phase  : Phase
  log    : Option Nat
  pa     : Nat
  key    : Nat
  state  : Nat
  got    : Option Got
  replay : Bool := false
  deriving DecidableEq, Repr

/-- A leaf translation (R42): tag, page number, and the leaf's PFN, key and bits. `base` is the page's physical
address. -/
structure TlbEnt where
  ctx    : Nat
  region : Nat
  page   : Nat
  base   : Nat
  key    : Nat
  d      : Bool
  u      : Bool
  x      : Bool
  w      : Bool
  deriving DecidableEq, Repr

/-- A line in an L1 (R70), with its poison bits (R19), the keep hint (R257), the STR mark of R95 and
the last atomic instruction on an exclusive line (R93). -/
structure L1Line where
  pa     : Nat
  key    : Nat
  bytes  : List Byte
  wts    : Dword
  rts    : Dword
  dirty  : BitVec 4
  excl   : Bool
  poison : BitVec 4
  keep   : Bool
  str    : Bool
  way    : Nat
  idle   : Nat
  atom   : Nat := 0
  deriving DecidableEq, Repr

/-- A miss-status entry (R71): the sector missed, and whether SYNCR has disowned its fill (R95). -/
structure Miss where
  pa     : Nat
  key    : Nat
  sector : Nat
  stale  : Bool
  deriving DecidableEq, Repr

/-- A scratchpad allocation (R74), base and size in bytes. -/
structure Alloc where
  base : Nat
  size : Nat
  ctx  : Nat
  rot  : Bool
  deriving DecidableEq, Repr

/-- A special-function operation in its queue (R158): operands are read at issue. -/
structure Sfu where
  slot  : Nat
  tid   : Nat
  fn    : Nat
  half  : Bool
  src   : Word
  mode  : BitVec 3
  dest  : Nat
  deriving DecidableEq, Repr

/-- One operand side of a plane-array operation: its format code, its scale bit, base and codes as read at issue
(R168, R169), the rows that signers supplied (R163), or the descriptor (R164). -/
structure PlaneSide where
  code   : Nat
  scaled : Bool
  base   : Nat
  codes  : List Nat
  rows   : List (List Word × Nat)
  desc   : Option Dword
  deriving DecidableEq, Repr

/-- A plane-array operation (R173): its group and tile, KBLK, the output mode, its operands, and the signers that it
releases when the tile is full (R172), each with the PC that follows its MMA. -/
structure Plane where
  slot    : Nat
  tile    : Nat
  kblk    : Nat
  afresh  : Bool
  a       : PlaneSide
  b       : PlaneSide
  release : Tbl Dword
  deriving DecidableEq, Repr

/-- A scratchpad access of one lane (R285, R288, R289): its address, bytes, destination registers and what it stores or compares. -/
structure SpadWork where
  kind  : AccKind
  sa    : Word
  size  : Nat
  count : Nat
  dest  : Nat
  sext  : Bool
  data  : List Byte
  cmp   : List Byte
  deriving DecidableEq, Repr

/-- What an instruction has left to be performed: its scratchpad access; or a look at a stage counter or board, by the board's number in
the cluster, or at a ticket (R207, R299). -/
inductive LateWork where
  | spad (w : SpadWork)
  | counter (board : Nat) (iter : Word) (dest : Nat)
  | board (board : Nat) (dest : Nat)
  | ticket (t : BitVec 16) (ctx : Nat) (dest : Nat)
  deriving DecidableEq, Repr

/-- Work of a thread that has issued and is still to be performed (R99, R445, R446). -/
structure Late where
  slot : Nat
  tid  : Nat
  work : LateWork
  deriving DecidableEq, Repr

/-- One core's state. The scratchpad lists the bytes written; a byte not listed is 0 in a way of `zeroed` (R78) and
undefined in another (R9). `late` lists, in issue order, what has issued and is still to be performed (R445, R446). -/
structure Core where
  slots   : Tbl Group
  ct      : Dword
  mask    : BitVec 16
  target  : BitVec 16
  flushing : List Nat
  l1      : List L1Line
  tlb     : List TlbEnt
  misses  : Tbl Miss
  accs    : List Acc
  spad    : Tbl Byte
  zeroed  : List Nat
  allocs  : Tbl Alloc
  failed  : List Nat
  tTab    : Tbl Dword
  tFloor  : Dword
  plane   : Option Plane
  planeQ  : List Plane
  sfuQ    : Tbl (List (List Sfu))
  rr      : Tbl Nat
  chances : Tbl Nat
  rblkQ   : List (Nat × Nat)
  hot     : Bool
  late    : List Late := []
  deriving DecidableEq, Repr

/-! ## Clusters -/

/-- A footprint (R103); a scratchpad footprint is by core and offset. -/
structure Foot where
  write : Bool
  sp    : Bool
  base  : Nat
  size  : Nat
  deriving DecidableEq, Repr

/-- A job card's eight doublewords (R103). -/
structure Card where
  dws : List Dword
  deriving DecidableEq, Repr

/-- A job offered at issue (R106, R297): the thread, its card's address or its card, the destination, the number of the
instruction and the PC after it. An accepted one stays until all of its instruction are. -/
structure Offer where
  core  : Nat
  slot  : Nat
  tid   : Nat
  pc    : Dword
  addr  : Option Word
  card  : Card
  dest  : Nat
  op    : Nat
  next  : Dword
  accepted : Bool
  deriving DecidableEq, Repr

/-- A line that an engine or a walker has asked its slice for, by address and key, with its data once the reflection has come
(R52, R53). -/
structure Line where
  pa  : Nat
  key : Nat
  got : Option Got
  deriving DecidableEq, Repr

/-- A job in the dependency table (R107 to R111, R117). `lines` is its engine's own buffer (R53), `idx` the index word of the gather
element under way (R104), `ahead` how many bytes of each rank's part earlier jobs of its communicator had still to take (R105), `gaps` the
units put off, by position and size (R117). -/
structure Job where
  ticket : BitVec 16
  core   : Nat
  slot   : Nat
  ctx    : Nat
  pc     : Dword
  card   : Card
  feet   : List Foot
  edges  : List (BitVec 16)
  jt     : Dword
  engine : Option Nat
  started : Bool
  done   : Nat
  fault  : Option (BitVec 16)
  waitWalk : Option (Dword × Nat)
  comm   : List Dword
  lines  : List Line := []
  idx    : Option (Nat × Nat) := none
  ahead  : List (Nat × Nat) := []
  gaps   : List (Nat × Nat) := []
  deriving DecidableEq, Repr

/-- An ended job, as JQRY and JWAIT know it (R108, R298): its ticket, context, status and time. -/
structure Past where
  ticket : BitVec 16
  ctx    : Nat
  status : BitVec 16
  time   : Dword
  deriving DecidableEq, Repr

/-- A stage-board slot (R198). -/
structure BSlot where
  iter    : Word
  counter : Nat
  time    : Dword
  deriving DecidableEq, Repr

/-- A stage board (R198), the unit that owns it, and the threads waiting at STBEG in order (R201). `wrapped`: NEXT has passed
2^32, so iteration 0 is not the first. -/
structure Board where
  owner   : Option Nat
  next    : Word
  oldest  : Word
  w       : Nat
  tret    : Dword
  wrapped : Bool
  slots   : Tbl BSlot
  waiters : List (Nat × Nat × Nat)
  deriving DecidableEq, Repr

/-- A convoy as a cluster mirrors it (R63): L, the present members and the member count. -/
structure Mirror where
  low     : Option Word
  present : List (Nat × Nat)
  total   : Nat
  deriving DecidableEq, Repr

/-- One cluster: the front-cycle counter, the ticks that have fallen (R82), the lane-clock ratio (R155), the dependency table and
tickets (R107, R108), the jobs offered, stage boards (R197), the status behind each failed sync word (R114), convoy mirrors and the L2
TLB (R42). -/
structure Cluster where
  front   : Nat
  ticks   : Nat
  ratio   : BitVec 2
  switch  : Option (BitVec 2)
  jobs    : List Job
  ticket  : BitVec 16
  past    : List Past
  offers  : List Offer
  boards  : Tbl Board
  failures : Tbl (BitVec 16)
  mirrors : Tbl Mirror
  tlb     : List TlbEnt
  deriving DecidableEq, Repr

/-! ## Dies -/

/-- Who waits for a walk: a core's lane access; a thread at a PC for a fetch, or a constant read, of its own address; or a
job of a cluster. -/
inductive Waiter where
  | acc (core id : Nat)
  | fetch (core slot tid : Nat) (pc va : Dword) (acc : Nat)
  | job (cluster : Nat) (ticket : BitVec 16)
  deriving DecidableEq, Repr

/-- A walk (R37, R44 to R47): what it translates, where it stands, who waits, and the first access's fields for a fault record.
`level` counts down from 4 to 0; `leaf` is the entry value that the A and D update compares with (R40), at `leafPa`. `noFill`: a
TLBINV has covered the page, and `noKeys` the keys that TLBINV.key has named meanwhile (R48). `seqNo`: SEQ of its fault record
(R46). `line`: the line that holds the entry to be read (R53). -/
structure Walk where
  id      : Nat
  ctx     : Nat
  va      : Dword
  pc      : Dword
  core    : Nat
  slot    : Nat
  eng     : Bool
  acc     : BitVec 2
  wantD   : Bool
  waiters : List Waiter
  region  : Option Dword
  level   : Nat
  table   : Nat
  leaf    : Option Dword
  leafPa  : Nat
  noFill  : Bool
  failed  : Option Nat
  seqNo   : Option Word
  noKeys  : List Nat := []
  line    : Option Line := none
  deriving DecidableEq, Repr

/-- One C-die: T_b (R25), power state, walker (R44, R45), the last-level TLB, its fault-queue registers (R429), its pace and
grant (R417, R419), the watts that a skew takes and gives (R423), filler (R421), and the contexts that have left work on it in this
interval (R422). -/
structure Die where
  tb       : Int
  tbKnown  : Bool
  powered  : Bool
  tlb      : List TlbEnt
  queue    : List Walk
  active   : List Walk
  parked   : List Walk
  fqcfg    : Dword
  fqcfgNext : Option Dword
  fqtail   : Word
  fqhead   : Word
  wresume  : Dword
  pace     : Nat
  grant    : Nat
  power    : Nat
  filler   : Bool
  fillCtx  : List (Nat × Nat)
  cut      : Nat := 0
  raised   : Nat := 0
  leavers  : List Nat := []
  deriving DecidableEq, Repr

/-! ## Vaults, slices and messages -/

/-- A requester that is no core (R52): an engine, by its cluster, number and job; or a walker, by its die and walk. -/
inductive Agent where
  | engine (cluster n : Nat) (ticket : BitVec 16)
  | walker (die walk : Nat)
  deriving DecidableEq, Repr

/-- A read as a slice sees it (R52, R85): the requesting core, its miss-status entry, sectors, hint and ct; of an engine or walker,
`agent` names it, with its request tag, and `core` a core of its cluster or die. -/
structure ReadReq where
  core  : Nat
  tag   : Nat
  sect  : BitVec 4
  hint  : Nat
  ct    : Dword
  pa    : Nat
  key   : Nat
  agent : Option Agent := none
  deriving DecidableEq, Repr

/-- An umbra (R51 to R55): the way that holds it, its overflow ways, its requesters, its seal, and the lease and data
once they have left the vault (R53). `gen`: the generation of its key when its read reached the controller (R32). `waits`: the read
waits there behind an exclusive lease (R93). -/
structure Umbra where
  way    : Nat
  more   : List Nat
  pa     : Nat
  key    : Nat
  reqs   : List ReadReq
  sealed : Bool
  left   : Option Got
  gen    : Nat := 0
  waits  : Bool := false
  deriving DecidableEq, Repr

/-- A message between agents, in flight. -/
inductive Msg where
  | tlbMiss (die : Nat) (w : Walk)
  | read (r : ReadReq)
  | reflect (cluster : Nat) (pa key : Nat) (reqs : List ReadReq) (got : Got)
  /-- A renewal for an access (or LEASE) of a core, with the wts of its copy if it has one, the core's ct and the
  length (R87, R292). -/
  | renew (core id pa key : Nat) (wts : Option Dword) (ct : Dword) (len : Nat)
  | renewReply (core id pa key : Nat) (wts rts : Dword) (got : Option Got)
  | cohStore (core id pa key : Nat) (ct : Dword) (data : List (Nat × Byte))
  | strStore (core id pa key : Nat) (data : List (Nat × Byte))
  | writeBack (core pa key : Nat) (sect : BitVec 4) (bytes : List Byte)
  | homeAtomic (core id pa key : Nat) (ct : Dword) (coh : Bool) (kind : AccKind) (size : Nat) (data cmp : List Byte)
  /-- The acknowledgement of a store, write-back (id 0) or home atomic, with the timestamp where there is one, the value an
  atomic found, and the wts that a COH store found at home. -/
  | ack (core id pa key : Nat) (w : Option Dword) (data : List (Nat × Byte)) (found : List Byte) (poison : Bool)
    (prev : Option Dword)
  /-- An umbra's read, held at its controller (R93); it is no message under way. -/
  | vaultRead (vault way pa key : Nat)
  | exclReq (core id pa key : Nat) (coh : Bool)
  | exclGrant (core id pa key : Nat) (got : Option Got)
  | exclRecall (core pa key : Nat)
  | exclReturn (core pa key : Nat) (dirty : BitVec 4) (got : Got)
  /-- A request for a tile and its answer (R226, R227, R301): who asked, the destination register, the core's ct at issue
  and the slot's address; `dest` is none once its register is full. -/
  | dq (core slot tid dest launch : Nat) (ct : Dword) (addr : Word)
  | dqAnswer (core slot tid : Nat) (dest : Option Nat) (ct : Dword) (addr : Word) (answer : Dword)
  | wqt (ctx node sender target : Nat) (index : Word)
  | mirror (cluster ctx cv : Nat)
  deriving DecidableEq, Repr

/-- A line owned under an exclusive lease (R93) and the requests held behind it, each with the generation of its key when it came
(R32). -/
structure Excl where
  pa     : Nat
  key    : Nat
  core   : Nat
  held   : List (Nat × Msg)
  recalled : Bool
  deriving DecidableEq, Repr

/-- One vault with its controller and slice: the sensor and bands (R20 to R22), error count (R18), open umbras and
waiting reads (R51, R52), the exclusive table (R93), the far timestamp cache with its floor pair (R27). -/
structure Vault where
  temp    : Int
  band    : Nat
  pending : Option Nat
  errors  : Nat
  umbras  : List Umbra
  waiting : List ReadReq
  excls   : List Excl
  farTs   : Tbl (Dword × Dword)
  floorW  : Dword
  floorR  : Dword
  deriving DecidableEq, Repr

/-- The side bits of a line (R17). -/
structure Side where
  wts    : Dword
  rts    : Dword
  poison : BitVec 4
  deriving DecidableEq, Repr

/-- How a 64-byte sector was last written (R29): its key id, the generation of that key, and the sector's PA (the XTS tweak). -/
structure Seal where
  key  : Nat
  gen  : Nat
  pa   : Nat
  deriving DecidableEq, Repr

/-- Stacked and far memory. `cells` lists the bytes written, by strictly rising cell number (State.cellOf); a cell
not listed reads as an undefined byte (R447). Sectors are cells / 64, lines are cells / 256. `restored` marks the dies that
DIE_RESTORE has brought back, whose lines read as poisoned until they are written (R23). -/
structure Memory where
  cells : List (Nat × Byte)
  seals : Tbl Seal
  sides : Tbl Side
  restored : BitVec 4
  deriving DecidableEq, Repr

/-! ## Hub -/

/-- A command queue (R212). `waiting`: its head record waits for its event; `ready`: a poll has seen the event (R216). -/
structure Queue where
  cfg  : Dword
  base : Dword
  tail : Word
  head : Word
  waiting : Bool
  ready : Bool
  deriving DecidableEq, Repr

/-- A context (R214, R34, R220, R243, R387): its descriptor, region attribute file and the copy that cores hold, node table,
quota, accounts, whether it is held, the region that an RSTATE is moving with the number of the first access issued since (R98),
the hub cycle at which its quota period ends (R243), whether a launch of it has started (R36), and the bytes that it has requested since
the last energy charge (R243). -/
structure Ctx where
  desc    : Nat
  raf     : Nat
  regions : List Dword
  nodes   : Nat
  quota   : Dword
  spent   : Nat
  held    : Bool
  account : Nat
  moving  : Option (Nat × Nat)
  boundary : Nat := 0
  opened  : Bool := false
  bytes   : Nat := 0
  deriving DecidableEq, Repr

/-- A launch in progress (R215 to R217, R226): its queue, record address and record, groups placed, ended, and ended by the exit of
every thread, tile hand-outs, the STATUS that a stop gives it, the core of each group placed by index, every core that ran a
group, the records of a firing, and whether a group of it has found no place since the last group's end or temperature sample
(R218). -/
structure Launch where
  queue   : Option Nat
  node    : Option Nat
  ctx     : Nat
  addr    : Dword
  record : Rec
  groups  : Nat
  placed  : Nat
  ended   : List Nat
  exited  : List Nat
  tiles   : Nat
  stop    : Option Dword
  cores   : List Nat
  ran     : List Nat
  prio    : Nat
  records : List (List Byte)
  tried   : Bool := false
  deriving DecidableEq, Repr

/-- A work-graph node's bin and ring state (R222 to R225): records in the bin, the ring's head and tail, the hub cycle at which its
timer started, per sender the index last pulled, and of a peer across Ulukar the newest index that it has announced and the bytes of a
record that has not come whole (R225). -/
structure Bin where
  bin    : List (List Byte)
  owned  : Bool
  head   : Word
  tail   : Word
  since  : Nat
  pulled : Tbl Word
  tails  : Tbl Word := []
  parts  : Tbl (List Byte) := []
  deriving DecidableEq, Repr

/-- A convoy of the dispatcher's table (R58 to R62): members as (core, slot), the present ones, the shed timer's count per cluster. -/
structure Convoy where
  members : List (Nat × Nat)
  present : List (Nat × Nat)
  timer   : Tbl Nat
  deriving DecidableEq, Repr

/-- Pre-emption in progress (R238 to R240). -/
structure Preempt where
  ctx    : Nat
  saving : Bool
  limit  : Nat
  saved  : Nat
  next   : Nat
  deriving DecidableEq, Repr

/-- What a save record holds (R240), as CTXLD restores it; its bytes are also written to memory, those whose layout the spec does not
give as the free values from `mark` on. -/
structure Saved where
  group  : Group
  ct     : Dword
  accs   : List Acc
  spad   : Tbl Byte
  failed : List Nat
  time   : Dword
  boards : Tbl Board
  unit   : Option (Nat × Nat)
  failures : Tbl (BitVec 16) := []
  mark   : Nat := 0
  deriving DecidableEq, Repr

/-- A CTXLD record held by the dispatcher (R242). `tried`: it has found no place since the last group's end or temperature sample. -/
structure Resume where
  saved : Saved
  key   : Option (Nat × Nat × Nat)
  size  : Nat
  tried : Bool := false
  deriving DecidableEq, Repr

/-- An issue of IDLE that waits (R387): its threads with their destination registers, the mask, and the next PC. -/
structure Idler where
  core  : Nat
  slot  : Nat
  dests : List (Nat × Nat)
  mask  : BitVec 5
  next  : Dword
  deriving DecidableEq, Repr

/-- A host request to memory, held while its slab's mode is about to change (R15, R431). -/
inductive HostAccess where
  | read (pa n : Nat)
  | write (pa : Nat) (bytes : List Byte)
  deriving DecidableEq, Repr

/-- An Ulukar link (R437) and the header of the flit that it takes next (R434). -/
structure Link where
  up    : Bool
  fails : Nat
  next  : Dword := 0
  deriving DecidableEq, Repr

/-- The hub die. `blocked` is the model's own: the step under way has met a slab whose mode is about to change (R15). -/
structure Hub where
  cycles   : Nat
  queues   : Tbl Queue
  turns    : Tbl (Nat × Nat)
  contexts : Tbl Ctx
  launches : Tbl Launch
  gangHold : List Nat
  floor    : Dword
  bins     : Tbl Bin
  convoys  : Tbl Convoy
  bars     : Tbl Barrier
  prectl   : Dword
  presave  : Dword
  prestat  : Dword
  preempt  : Option Preempt
  resumes  : List Resume
  saves    : Tbl Saved
  pcap     : Nat
  pcapNext : Option Nat
  pfloor   : Tbl Nat
  pfloorNext : Tbl Nat
  idle     : Nat
  unatt    : Bool
  hpwr     : Nat
  pstat    : Nat
  pmap     : Tbl Word
  supctx   : Tbl Dword
  hkey     : BitVec 7
  commcfg  : Dword
  fabid    : BitVec 12
  slabs    : List Nat
  slabWait : List (Nat × Bool)
  keys     : Tbl Nat
  keyGen   : Nat
  events   : Tbl (BitVec 5)
  idlers   : List Idler
  msix     : List Nat
  notices  : List (Nat × Nat × Nat)
  mailbox  : List Byte
  replies  : List (List Byte)
  measures : Tbl (BitVec 512)
  recovery : Bool
  links    : Tbl Link
  shares   : List (Nat × Nat × List Byte)
  ranges   : List FarRange
  ports    : Tbl Bool
  hostHeld : List HostAccess := []
  blocked : Bool := false
  nodeErrors : List (Nat × Nat) := []
  deriving DecidableEq, Repr

/-! ## The machine -/

/-- The issue wave that exec works on: its core, slot and quadrant, the PC and priority of its entry, the PC of the
next instruction by R251, and its threads. `late`: the schedule has the work of its instruction put off (R445, R446). -/
structure Issue where
  core    : Nat
  slot    : Nat
  quad    : Nat
  pc      : Dword
  prio    : BitVec 16
  next    : Dword
  threads : List Nat
  late    : Bool := false
  deriving DecidableEq, Repr

/-- What the host may ask besides the rows of the table: a read of a device register (R427); or of Benuino the band and last sample of a
vault (R24), a piece of the certificate chain (R439), or its status (R438). -/
inductive HostAsk where
  | register (off size : Nat)
  | vault (v : Nat)
  | chain (piece : Nat)
  | status
  deriving DecidableEq, Repr

/-- One entry of the schedule: a step of an agent, an issue opportunity of a quadrant, front cycles of a cluster or
hub cycles that pass, readings that arrive, soft errors that strike a stored sector (R18, R19, R28), or a question of the host. Where no
rule orders two actions (R445, R446), it also chooses: an issue whose work is put off, an entry of a core's late work that is performed, a
unit of a job that is put off, the destination of a DQ that fills before its slot is written. -/
inductive Move where
  | event (i : Instr)
  | issue (core quad : Nat)
  | issueLate (core quad : Nat)
  | perform (core n : Nat)
  | putOff (cluster ticket : Nat)
  | answerFirst (m : Nat)
  | cycles (cluster n : Nat)
  | hub (n : Nat)
  | outside (o : Outside)
  | strike (sector words : Nat) (bad : Bool)
  | ask (q : HostAsk)
  deriving DecidableEq, Repr

/-- The state of the package. `agenda`, `net`, `cur`, `cursor`, `free` and `seq` are the model's own: the order in which agents
move, the messages under way, the wave at issue, the default order's place, the counter of free values, and the number of the
next access, message or launch. `errors` lists the stored sectors with errors not yet found (R18, R19): how many words can be
corrected, and whether one cannot. -/
structure State where
  agenda   : List Move
  outside  : Outside
  net      : List (Nat × Msg)
  cur      : Issue
  cursor   : Nat
  free     : Nat
  seq      : Nat
  cores    : Tbl Core
  clusters : Tbl Cluster
  dies     : Tbl Die
  vaults   : Tbl Vault
  memory   : Memory
  hub      : Hub
  errors   : Tbl (Nat × Bool) := []
  deriving DecidableEq, Repr

/-! ## Reset -/

/-- A core after reset: mask 0xFFF0 (R77), ct 0 (R81). The default of State.cores. (DESIGN CHOICE, log entry 3.) -/
def Core.reset : Core :=
  { slots := [], ct := 0, mask := 0xFFF0, target := 0xFFF0, flushing := [], l1 := [], tlb := [], misses := [], accs := []
    spad := [], zeroed := [], allocs := [], failed := [], tTab := [], tFloor := 0, plane := none, planeQ := []
    sfuQ := [], rr := [], chances := [], rblkQ := [], hot := false }

/-- A cluster after reset: ratio 2, code 10 (R155). (DESIGN CHOICE, log entries 3 and 4.) -/
def Cluster.reset : Cluster :=
  { front := 0, ticks := 0, ratio := 2, switch := none, jobs := [], ticket := 0, past := [], offers := [], boards := []
    failures := [], mirrors := [], tlb := [] }

def Board.reset : Board :=
  { owner := none, next := 0, oldest := 0, w := 0, tret := 0, wrapped := false, slots := [], waiters := [] }

/-- A die after reset: T_b 0 and no group placed until its first report (R25), pace 8 (R419), fault registers 0 (R433). (DESIGN CHOICE, log
entry 3.) -/
def Die.reset : Die :=
  { tb := 0, tbKnown := false, powered := true, tlb := [], queue := [], active := [], parked := [], fqcfg := 0
    fqcfgNext := none, fqtail := 0, fqhead := 0, wresume := 0, pace := 8, grant := 0, power := 0
    filler := false, fillCtx := [] }

/-- A vault after reset: band 0, TEMP 0 (R20). (DESIGN CHOICE, log entry 3.) -/
def Vault.reset : Vault :=
  { temp := 0, band := 0, pending := none, errors := 0, umbras := [], waiting := [], excls := [], farTs := []
    floorW := 0, floorR := 0 }

def Queue.reset : Queue := { cfg := 0, base := 0, tail := 0, head := 0, waiting := false, ready := false }

/-- The hub's registers at the values of R433; a key slot listed in `keys` is loaded (slot 0 only, generation 0). (DESIGN CHOICE, log
entries 3 and 20.) -/
def Hub.reset : Hub :=
  { cycles := 0, queues := [], turns := [], contexts := [], launches := [], gangHold := [], floor := 40, bins := []
    convoys := [], bars := [], prectl := 0, presave := 0, prestat := 0, preempt := none, resumes := [], saves := []
    pcap := 1200, pcapNext := none, pfloor := [], pfloorNext := [], idle := 0, unatt := false, hpwr := 0, pstat := 0
    pmap := [], supctx := [], hkey := 0, commcfg := 0, fabid := 1, slabs := [], slabWait := [], keys := [(0, 0)]
    keyGen := 1, events := [], idlers := [], msix := [], notices := [], mailbox := [], replies := [], measures := []
    recovery := false, links := [], shares := [], ranges := [], ports := [] }

def Outside.empty : Outside :=
  { reset := { verified := true, digests := [], ranges := [], fabid := 1 }
    meters := { clusterDemand := [], dieDemand := [], diePower := [], hubPower := 0, pkgPower := 0 }
    energy := { cores := [], jobs := [], memory := 0, filler := [] }, baseTemp := [],
    idle := 0, early := [], late := [], die := 0, prectl := 0 }

def Issue.empty : Issue := { core := 0, slot := 0, quad := 0, pc := 0, prio := 0, next := 0, threads := [] }

/-- The package right after reset (R433): no group resident, memory with nothing written. (DESIGN CHOICE, log entry 3.) -/
def State.reset : State :=
  { agenda := [], outside := Outside.empty, net := [], cur := Issue.empty, cursor := 0, free := 0, seq := 1
    cores := [], clusters := [], dies := [], vaults := []
    memory := { cells := [], seals := [], sides := [], restored := 0 }, hub := Hub.reset }

end Sys2Proof.Machine
end

