-- ==== Sys2Proof/Machine/Tables.lean ====
section
/-! DEFINITION. Tables by number, and the accessors of State: one home for every component, through which every
step reads and writes it. -/

namespace Sys2Proof.Machine

variable {α : Type}

/-- Entry k of a table. -/
def tfind : Tbl α → Nat → Option α
  | [], _ => none
  | (i, a) :: t, k => if i = k then some a else tfind t k

/-- Entry k of a table, or the table's default. -/
def tget (d : α) (t : Tbl α) (k : Nat) : α := (tfind t k).getD d

/-- The table with entry k set, in rising order of numbers. -/
def tset : Tbl α → Nat → α → Tbl α
  | [], k, a => [(k, a)]
  | (i, b) :: t, k, a =>
    if k < i then (k, a) :: (i, b) :: t
    else if k = i then (k, a) :: t
    else (i, b) :: tset t k a

/-- The table without entry k. -/
def tdel (t : Tbl α) (k : Nat) : Tbl α := t.filter (fun e => e.1 != k)

/-- The table with every entry whose number lies in [lo, lo + n) removed. -/
def tdrop (t : Tbl α) (lo n : Nat) : Tbl α := t.filter (fun e => e.1 < lo || lo + n ≤ e.1)

/-- The numbers of a table rise strictly: the one canonical form of its contents. -/
def rising : List (Nat × α) → Bool
  | [] => true
  | [_] => true
  | (i, _) :: (j, b) :: t => i < j && rising ((j, b) :: t)

/-- The least natural number below n that is not in the list. -/
def firstFree (used : List Nat) (n : Nat) : Option Nat := (List.range n).find? (fun k => !used.contains k)

/-- Element k of a list changed by f. -/
def modAt (f : α → α) : List α → Nat → List α
  | [], _ => []
  | a :: t, 0 => f a :: t
  | a :: t, k + 1 => a :: modAt f t k

namespace State

def core (s : State) (c : Nat) : Core := tget Core.reset s.cores c
def setCore (s : State) (c : Nat) (x : Core) : State := { s with cores := tset s.cores c x }
def modCore (s : State) (c : Nat) (f : Core → Core) : State := s.setCore c (f (s.core c))

def cluster (s : State) (k : Nat) : Cluster := tget Cluster.reset s.clusters k
def setCluster (s : State) (k : Nat) (x : Cluster) : State := { s with clusters := tset s.clusters k x }
def modCluster (s : State) (k : Nat) (f : Cluster → Cluster) : State := s.setCluster k (f (s.cluster k))

def die (s : State) (d : Nat) : Die := tget Die.reset s.dies d
def setDie (s : State) (d : Nat) (x : Die) : State := { s with dies := tset s.dies d x }
def modDie (s : State) (d : Nat) (f : Die → Die) : State := s.setDie d (f (s.die d))

def vault (s : State) (v : Nat) : Vault := tget Vault.reset s.vaults v
def setVault (s : State) (v : Nat) (x : Vault) : State := { s with vaults := tset s.vaults v x }
def modVault (s : State) (v : Nat) (f : Vault → Vault) : State := s.setVault v (f (s.vault v))

def modHub (s : State) (f : Hub → Hub) : State := { s with hub := f s.hub }

/-- The group resident in a slot of a core. -/
def group? (s : State) (c g : Nat) : Option Group := tfind (s.core c).slots g
def setGroup (s : State) (c g : Nat) (x : Group) : State :=
  s.modCore c (fun k => { k with slots := tset k.slots g x })
def modGroup (s : State) (c g : Nat) (f : Group → Group) : State :=
  match s.group? c g with
  | some x => s.setGroup c g (f x)
  | none => s

def thread? (s : State) (c g t : Nat) : Option Thread := (s.group? c g).bind (fun x => x.threads[t]?)
def modThread (s : State) (c g t : Nat) (f : Thread → Thread) : State :=
  s.modGroup c g (fun x => { x with threads := modAt f x.threads t })

/-- A message sent; it gets the next number. -/
def post (s : State) (m : Msg) : State := { s with net := s.net ++ [(s.seq, m)], seq := s.seq + 1 }
def msg? (s : State) (k : Nat) : Option Msg := tfind s.net k
def drop (s : State) (k : Nat) : State := { s with net := tdel s.net k }

/-- n fresh bytes that the spec leaves open. (DESIGN CHOICE, log entry 2.) -/
def freeBytes (s : State) (n : Nat) : List Byte × State :=
  ((List.range n).map (fun k => Config.freeByte (s.free + k)), { s with free := s.free + n })

end State

/-- Package cluster of a package core, and die of a core or cluster (R34: 128 × die + 16 × cluster + core). -/
def clusterOf (c : Nat) : Nat := c / 16
def dieOf (c : Nat) : Nat := c / 128

/-- Front cycles of a core's cluster. (DESIGN CHOICE, log entry 4.) -/
def State.now (s : State) (c : Nat) : Nat := (s.cluster (clusterOf c)).front

/-- The context a group belongs to is marked as a supervisor context (R428). -/
def State.supervisor (s : State) (ctx : Nat) : Bool :=
  (List.range 4).any (fun k =>
    let r := tget 0 s.hub.supctx k
    r.getLsbD 63 && (r.extractLsb' 0 12).toNat == ctx)

/-- Little-endian value of bytes (R6), and the n bytes of a value. -/
def leNat : List Byte → Nat
  | [] => 0
  | b :: t => b.toNat + 256 * leNat t
def leBytes : Nat → Nat → List Byte
  | 0, _ => []
  | n + 1, v => BitVec.ofNat 8 v :: leBytes n (v / 256)

end Sys2Proof.Machine
end

