-- ==== Sys2Proof/Machine/Convoys.lean ====
section
/-! DEFINITION. The convoy table, its mirrors, joining, leaving, shedding and stepping
(03_colander_and_convoys.md R58 to R66). -/

namespace Sys2Proof.Machine

/-- a − b is negative as a signed 32-bit difference (R59, R198). -/
def sless (a b : Word) : Bool := (a - b).toInt < 0

/-- The lowest of some cursors by signed difference. -/
def lowest : List Word → Option Word
  | [] => none
  | a :: t =>
    match lowest t with
    | none => some a
    | some b => some (if sless b a then b else a)

/-- A group's cursor: the lowest of its live threads' (R60). -/
def Group.cursor (g : Group) : Option Word := lowest ((g.threads.filter (·.live)).map (·.cursor))

def cvKey (ctx id : Nat) : Nat := ctx * 65536 + id

def Convoy.empty : Convoy := { members := [], present := [], timer := [] }

/-- L over some members of a convoy (R60). -/
def State.lowOf (s : State) (ms : List (Nat × Nat)) : Option Word :=
  lowest (ms.filterMap (fun m => (s.group? m.1 m.2).bind Group.cursor))

def State.convoy (s : State) (k : Nat) : Convoy := tget Convoy.empty s.hub.convoys k

/-- The clusters that hold members of a convoy. -/
def Convoy.clusters (x : Convoy) : List Nat := (x.members.map (fun m => clusterOf m.1)).eraseDups

/-- Clusters told that the table changed (R63); one message per cluster is under way at most. (DEDUCED, log entry 73.) -/
def State.cvTell (s : State) (ctx id : Nat) (ks : List Nat) : State :=
  ks.foldl (fun s k =>
    if s.net.any (fun e => e.2 == .mirror k ctx id) then s else s.post (.mirror k ctx id)) s

/-- The convoy's entry set; when L has changed from `low0` its shed timer restarts (R62); an entry without members ends (R58). -/
def State.cvPut (s : State) (ctx id : Nat) (x : Convoy) (low0 : Option Word) (tell : List Nat) : State :=
  let x1 := if s.lowOf x.present == low0 then x else { x with timer := [] }
  let s1 := s.modHub (fun h =>
    { h with convoys := if x.members.isEmpty then tdel h.convoys (cvKey ctx id) else tset h.convoys (cvKey ctx id) x1 })
  s1.cvTell ctx id (tell ++ x.clusters).eraseDups

/-- The mirror of a convoy on a cluster brought up to the table (R63). -/
def State.cvMirror (s : State) (k ctx id : Nat) : State :=
  let x := s.convoy (cvKey ctx id)
  s.modCluster k (fun c =>
    if x.clusters.contains k then
      { c with mirrors := tset c.mirrors (cvKey ctx id)
                { low := s.lowOf x.present, present := x.present, total := x.members.length } }
    else { c with mirrors := tdel c.mirrors (cvKey ctx id) })

/-- A member leaves its convoy (R58, R62): its convoy fields read 0 but SLIP and TIMEOUT (R65). -/
def State.cvLeave (s : State) (c g : Nat) : State :=
  match s.group? c g with
  | none => s
  | some x =>
    if x.cv.id = 0 then s
    else
      let id := x.cv.id.toNat
      let y := s.convoy (cvKey x.ctx id)
      let low0 := s.lowOf y.present
      let s1 := s.setGroup c g { x with
        cv := { x.cv with id := 0, count := 0, cause := 0, shed := false }
        threads := x.threads.map (fun t => { t with cursor := 0 }) }
      s1.cvPut x.ctx id { y with members := y.members.filter (· != (c, g)), present := y.present.filter (· != (c, g)) }
        low0 y.clusters

/-- One more shedding counted, saturating (R65). -/
def CvRegs.shedBy (r : CvRegs) (cause : BitVec 3) : CvRegs :=
  { r with shed := true, cause := cause, count := if r.count = 0xFFFFFFFF then r.count else r.count + 1 }

/-- A present member is shed (R62). -/
def State.cvShed (s : State) (c g : Nat) (cause : BitVec 3) : State :=
  match s.group? c g with
  | none => s
  | some x =>
    let id := x.cv.id.toNat
    let y := s.convoy (cvKey x.ctx id)
    if x.cv.id = 0 || !y.present.contains (c, g) then s
    else
      let low0 := s.lowOf y.present
      (s.setGroup c g { x with cv := x.cv.shedBy cause }).cvPut x.ctx id
        { y with present := y.present.filter (· != (c, g)) } low0 []

/-- A thread of the group is parked on a translation fault or runs a handler (R62); `parked` says which threads are parked. -/
def Group.faulted (x : Group) (parked : List Nat) : Bool :=
  x.threads.any (fun t => t.live && t.handler) || !parked.isEmpty

/-- The threads of a group with a parked access, or parked at a fetch (R45, R364). -/
def State.parkedOf (s : State) (c g : Nat) : List Nat :=
  let accs := ((s.core c).accs.filter (fun a => a.slot == g && a.phase == .parked)).map (·.tid)
  let walks := (s.die (dieOf c)).parked ++ (s.die (dieOf c)).active.filter (·.failed.isSome)
  accs ++ walks.flatMap (fun w => w.waiters.filterMap (fun q =>
    match q with
    | .fetch c1 g1 t pc _ _ =>
      if c1 == c && g1 == g && (s.thread? c g t).any (fun th => th.pc == pc) then some t else none
    | _ => none))

/-- After a step: a member that is not present becomes so when R61 allows, unless a fault keeps it shed (R62). -/
def State.cvReturn (s : State) (c g : Nat) : State :=
  match s.group? c g with
  | none => s
  | some x =>
    let id := x.cv.id.toNat
    let y := s.convoy (cvKey x.ctx id)
    if x.cv.id = 0 || y.present.contains (c, g) || x.faulted (s.parkedOf c g) then s
    else
      let near :=
        match s.lowOf y.present, x.cursor with
        | some l, some u => !sless u (l - BitVec.ofNat 32 x.cv.slip.toNat)
        | none, _ => true
        | _, none => false
      if near then
        let low0 := s.lowOf y.present
        (s.setGroup c g { x with cv := { x.cv with shed := false } }).cvPut x.ctx id
          { y with present := y.present ++ [(c, g)] } low0 []
      else s

/-- Threads of a member step: their cursors rise by the counts given (R59), and the shed timer restarts if L rises. -/
def State.cvSteps (s : State) (c g : Nat) (ns : List (Nat × Word)) : State :=
  match s.group? c g with
  | none => s
  | some x =>
    if x.cv.id = 0 || ns.isEmpty then s
    else
      let id := x.cv.id.toNat
      let y := s.convoy (cvKey x.ctx id)
      let low0 := s.lowOf y.present
      let s1 := s.setGroup c g { x with
        threads := ns.foldl (fun ts e => modAt (fun t => { t with cursor := t.cursor + e.2 }) ts e.1) x.threads }
      (if s1.lowOf y.present == low0 then s1 else s1.cvPut x.ctx id y low0 []).cvReturn c g

/-- A group joins a convoy with every cursor at 0 (R58, R59, R61). Id 0 leaves; a 4,097th convoy is not made. (DEDUCED, log entry 34.) -/
def State.cvJoin (s : State) (c g : Nat) (id slip : BitVec 16) : State :=
  let s1 := s.cvLeave c g
  match s1.group? c g with
  | none => s1
  | some x =>
    let k := cvKey x.ctx id.toNat
    let y := s1.convoy k
    if id = 0 then s1
    else
      let x1 := { x with cv := { x.cv with slip := slip }, threads := x.threads.map (fun t => { t with cursor := 0 }) }
      if y.members.isEmpty && s1.hub.convoys.length ≥ 4096 then s1.setGroup c g x1
      else
        let first := y.present.isEmpty && !x.faulted (s1.parkedOf c g)
        let cv := { x1.cv with id := id, count := 0, cause := 0, shed := false }
        let x2 := { x1 with cv := if y.present.isEmpty then { cv with shed := !first } else cv.shedBy 4 }
        (s1.setGroup c g x2).cvPut x.ctx id.toNat
          { y with members := y.members ++ [(c, g)], present := if first then y.present ++ [(c, g)] else y.present }
          (s1.lowOf y.present) []

/-- A thread of a member ends: its cursor no longer counts (R370). -/
def State.cvExit (s : State) (c g t : Nat) : State :=
  match s.group? c g with
  | none => s
  | some x =>
    let y := s.convoy (cvKey x.ctx x.cv.id.toNat)
    let low0 := s.lowOf y.present
    let s1 := s.modThread c g t (fun th => { th with live := false, wait := none, mark := none, due := [] })
    if x.cv.id = 0 || s1.lowOf y.present == low0 then s1 else s1.cvPut x.ctx x.cv.id.toNat y low0 []

/-- A thread whose next step adds n is held by the mirror of its cluster (R60). (DEDUCED, log entry 73.) -/
def State.cvHeld (s : State) (c g t : Nat) (n : Nat) : Bool :=
  match s.group? c g with
  | none => false
  | some x =>
    if x.cv.id = 0 || n = 0 then false
    else
      match tfind (s.cluster (clusterOf c)).mirrors (cvKey x.ctx x.cv.id.toNat), x.threads[t]? with
      | some m, some th =>
        match m.low with
        | some l => sless (l + BitVec.ofNat 32 x.cv.slip.toNat) (th.cursor + BitVec.ofNat 32 n) && sless l th.cursor
        | none => false
      | _, _ => false

end Sys2Proof.Machine
end

