-- ==== Sys2Proof/Machine/Mem.lean ====
section
/-! DEFINITION. Where physical addresses lie (01_stacked_vaults.md R11 to R14, R26, R27), and reads and writes of the
stored bytes under a key (R29 to R32, R447). -/

namespace Sys2Proof.Machine

/-- The bases of the ranges of R11. -/
def stackedSize : Nat := 0xC000000000
def dieBase (d : Nat) : Nat := 0x10000000000 + d * 0x4000000000
def dieSize : Nat := 0x3000000000
def farBase : Nat := 0x100000000000
def farSize : Nat := 0x100000000000
def hubBase : Nat := 0x0F0000000000
def hubSize : Nat := 0x1000000

/-- The first cell of far memory; stacked cells are vault × 2^32 + offset. -/
def farCell : Nat := 0x1000000000000

/-- The vault and offset of an interleaved-view address (R12), as a cell. -/
def interleavedCell (pa : Nat) : Nat :=
  let g := pa / 2048
  (g % 256 ^^^ g / 256 % 256) * 0x100000000 + (g / 256 * 2048 + pa % 2048)

/-- The vault and offset of an address of die d's view, from its base (R13). -/
def dieCell (d x : Nat) : Nat :=
  let h := x / 2048
  (64 * d + (h % 64 ^^^ h / 64 % 64)) * 0x100000000 + (h / 64 * 2048 + x % 2048)

/-- The die whose view an address lies in (R11, R13). -/
def dieViewOf (pa : Nat) : Option Nat :=
  (List.range 4).find? (fun d => dieBase d ≤ pa && pa < dieBase d + dieSize)

/-- The vault of a cell: of a stacked line by its cell, of a far line by R27. -/
def vaultOf (cell : Nat) : Nat :=
  if cell < farCell then cell / 0x100000000
  else let g := (cell - farCell) / 2048; g % 256 ^^^ g / 256 % 256

/-- The offset that R49 takes a line's set from. -/
def offsetOf (cell : Nat) : Nat :=
  if cell < farCell then cell % 0x100000000
  else let x := cell - farCell; x / 2048 / 256 * 2048 + x % 2048

/-- The cell that serves a physical address (R11, R14, R26); none: the address is not served. (DESIGN CHOICE, log entry 20.) -/
def State.cellOf (s : State) (pa : Nat) : Option Nat :=
  if pa < stackedSize then
    if s.hub.slabs.contains (pa / 0x40000000) then none else some (interleavedCell pa)
  else if farBase ≤ pa ∧ pa < farBase + farSize then
    if s.hub.ranges.any (fun r => farBase + r.base ≤ pa && pa < farBase + r.base + r.size) then
      some (farCell + (pa - farBase))
    else none
  else
    match dieViewOf pa with
    | some d =>
      let x := pa - dieBase d
      if s.hub.slabs.contains (x / 0x10000000) then some (dieCell d x) else none
    | none => none

/-- The CXL port that serves a far cell (R26). (DESIGN CHOICE, log entry 20.) -/
def State.portOf (s : State) (cell : Nat) : Option Nat :=
  let x := cell - farCell
  match s.hub.ranges.find? (fun r => r.base ≤ x && x < r.base + r.size) with
  | some r => r.ports[(x - r.base) / r.gran % r.ports.length]?
  | none => none

/-- A device register address (R426). -/
def isHub (pa : Nat) : Bool := hubBase ≤ pa && pa < hubBase + hubSize

/-- The key slot holds a key (R30). -/
def State.keyLoaded (s : State) (key : Nat) : Bool := (tfind s.hub.keys key).isSome
def State.keyGenOf (s : State) (key : Nat) : Nat := tget 0 s.hub.keys key

/-- The seal that a write of a sector under a key leaves now (R29, R32). (DEDUCED, log entry 10.) -/
def State.sealFor (s : State) (key pa : Nat) : Seal := { key := key, gen := s.keyGenOf key, pa := pa / 64 }

/-- The stored byte at an address as a key reads it: none where no defined byte stands (R31, R447). (DEDUCED, log entry 10.) -/
def State.byteAt (s : State) (key pa : Nat) : Option Byte :=
  match s.cellOf pa with
  | some cell =>
    if tfind s.memory.seals (cell / 64) == some (s.sealFor key pa) then tfind s.memory.cells cell else none
  | none => none

/-- The n bytes from an address, where all are defined. -/
def State.peek (s : State) (key pa n : Nat) : Option (List Byte) :=
  (List.range n).mapM (fun k => s.byteAt key (pa + k))

/-- A read of n bytes from an address under a key; an undefined byte is a free value. (DESIGN CHOICE, log entries 2 and 9.) -/
def State.readMem (s : State) (key pa : Nat) : Nat → List Byte × State
  | 0 => ([], s)
  | n + 1 =>
    let (b, s1) :=
      match s.byteAt key pa with
      | some b => (b, s)
      | none => (Config.freeByte s.free, { s with free := s.free + 1 })
    let (bs, s2) := s1.readMem key (pa + 1) n
    (b :: bs, s2)

/-- Memory with one byte written. A sector written under another seal loses its other bytes' defined values: what
they decrypt to is open (R31, R32). (DESIGN CHOICE, log entry 9; DEDUCED, log entry 10.) -/
def Memory.put (m : Memory) (cell : Nat) (sl : Seal) (b : Byte) : Memory :=
  if tfind m.seals (cell / 64) = some sl then { m with cells := tset m.cells cell b }
  else { m with cells := tset (tdrop m.cells (cell / 64 * 64) 64) cell b, seals := tset m.seals (cell / 64) sl }

/-- A write of one byte at an address under a key; an address that is not served takes nothing (R11). -/
def State.writeByte (s : State) (key pa : Nat) (b : Byte) : State :=
  match s.cellOf pa with
  | some cell => { s with memory := s.memory.put cell (s.sealFor key pa) b }
  | none => s

/-- Writes of (address, byte) pairs, in order. -/
def State.writeMem (s : State) (key : Nat) : List (Nat × Byte) → State
  | [] => s
  | (pa, b) :: t => (s.writeByte key pa b).writeMem key t

/-- Consecutive bytes with their addresses. -/
def zipFrom (pa : Nat) (bs : List Byte) : List (Nat × Byte) :=
  (List.range bs.length).zip bs |>.map (fun e => (pa + e.1, e.2))

/-- The side bits of a line that lists none (R81): 0, with every sector poisoned on a restored die (R23). -/
def Memory.sideDefault (m : Memory) (line : Nat) : Side :=
  { wts := 0, rts := 0
    poison := if line * 256 < farCell && m.restored.getLsbD (vaultOf (line * 256) / 64) then 0xF else 0 }

/-- The side bits of a line set; a line at its default is not listed. (DESIGN CHOICE, log entry 9.) -/
def Memory.putSide (m : Memory) (line : Nat) (x : Side) : Memory :=
  { m with sides := if x = m.sideDefault line then tdel m.sides line else tset m.sides line x }

/-- Memory without the bytes of n cells: what they read as is open again. -/
def Memory.forget (m : Memory) (cell n : Nat) : Memory := { m with cells := tdrop m.cells cell n }

/-- Memory without the lines whose first cell p picks. -/
def Memory.forgetLines (m : Memory) (p : Nat → Bool) : Memory :=
  { m with
    cells := m.cells.filter (fun e => !p (e.1 / 256 * 256)), seals := m.seals.filter (fun e => !p (e.1 / 4 * 256))
    sides := m.sides.filter (fun e => !p (e.1 * 256)) }

/-- A cell lies in a vault of die d. -/
def onDie (d cell : Nat) : Bool := cell < farCell && vaultOf cell / 64 == d

/-- Memory without what lies in a die's vaults, which a trip loses (R23). (DESIGN CHOICE, log entry 9.) -/
def Memory.loseDie (m : Memory) (d : Nat) : Memory := m.forgetLines (onDie d)

/-- Memory with a die's lines poisoned, as DIE_RESTORE leaves them (R23). (DESIGN CHOICE, log entry 9.) -/
def Memory.restoreDie (m : Memory) (d : Nat) : Memory :=
  { m.loseDie d with restored := m.restored ||| (1#4 <<< d) }

/-- The canonical form: cells, seals and side bits by strictly rising numbers, and no line listed at its default. A cell
that is not listed reads as an undefined byte, which no listed cell is. (DESIGN CHOICE, log entry 9.) -/
def Memory.wf (m : Memory) : Bool :=
  rising m.cells && rising m.seals && rising m.sides && m.sides.all (fun e => e.2 != m.sideDefault e.1)

/-- The side bits of a line (R17, R81). -/
def State.side (s : State) (line : Nat) : Side := tget (s.memory.sideDefault line) s.memory.sides line
def State.setSide (s : State) (line : Nat) (x : Side) : State := { s with memory := s.memory.putSide line x }

/-- The times of a line at home: its side bits, or, for a far line, its timestamp-cache entry or the floor pair (R27). -/
def State.times (s : State) (cell : Nat) : Dword × Dword :=
  if cell < farCell then let x := s.side (cell / 256); (x.wts, x.rts)
  else
    let v := s.vault (vaultOf cell)
    tget (v.floorW, v.floorR) v.farTs (cell / 256)

def maxD (a b : Dword) : Dword := if a.toNat ≤ b.toNat then b else a

/-- The line's times set. A far line takes an entry of the 4,096 of its vault's cache; a full cache first evicts its
lowest-numbered entry into the floor pair (R27; which entry goes is DESIGN CHOICE, log entry 6). -/
def State.setTimes (s : State) (cell : Nat) (w r : Dword) : State :=
  if cell < farCell then s.setSide (cell / 256) { s.side (cell / 256) with wts := w, rts := r }
  else
    s.modVault (vaultOf cell) (fun v =>
      let v1 :=
        if v.farTs.length < 4096 || (tfind v.farTs (cell / 256)).isSome then v
        else
          match v.farTs with
          | (_, (w0, r0)) :: t => { v with farTs := t, floorW := maxD v.floorW w0, floorR := maxD v.floorR r0 }
          | [] => v
      { v1 with farTs := tset v1.farTs (cell / 256) (w, r) })

/-- A far line behind a port whose link is down (R28). -/
def State.portDown (s : State) (cell : Nat) : Bool :=
  farCell ≤ cell && (match s.portOf cell with | some p => !(tget true s.hub.ports p) | none => false)

/-- A line whose vault or slice is on a die without power (R23, R27), or behind a port whose link is down (R28). -/
def State.lost (s : State) (cell : Nat) : Bool := !(s.die (vaultOf cell / 64)).powered || s.portDown cell

/-- An address lies behind a port whose link is down (R28). (DEDUCED, log entry 44.) -/
def State.linkDown (s : State) (pa : Nat) : Bool :=
  match s.cellOf pa with
  | some cell => s.portDown cell
  | none => false

/-- The poison bits that a read of a line meets (R19, R23, R28). -/
def State.poisonOf (s : State) (cell : Nat) : BitVec 4 := if s.lost cell then 0xF else (s.side (cell / 256)).poison

/-- The sectors that a set of byte offsets of a line covers wholly (R19). -/
def wholeSectors (offs : List Nat) : BitVec 4 :=
  (List.range 4).foldl (fun (acc : BitVec 4) k =>
    if (List.range 64).all (fun j => offs.contains (64 * k + j)) then acc ||| (1 <<< k) else acc) 0

/-- Bytes performed at home on one line: stored, and a poisoned sector that is overwritten whole is clean again
(R19). On a lost line they are discarded (R23, R28). -/
def State.storeHome (s : State) (key line : Nat) (data : List (Nat × Byte)) : State :=
  match s.cellOf line with
  | none => s
  | some cell =>
    if s.lost cell then s
    else
      let s1 := s.writeMem key data
      let p := (s1.side (cell / 256)).poison
      if p = 0 then s1
      else s1.setSide (cell / 256)
        { s1.side (cell / 256) with poison := p &&& ~~~ (wholeSectors (data.map (fun e => e.1 % 256))) }

/-! ## Lines -/

def lineOf (pa : Nat) : Nat := pa / 256 * 256

/-- The lines that n bytes from an address lie in. -/
def pieces (va n : Nat) : List (Nat × Nat) :=
  let first := min n (256 - va % 256)
  if first = n then [(va, n)] else [(va, first), (va + first, n - first)]

/-- The first cell of the line that holds an address (R49: one home whichever view reaches it). -/
def State.homeCell (s : State) (pa : Nat) : Option Nat := s.cellOf (lineOf pa)

/-- The owner of a line under an exclusive lease (R93): its vault and table entry. -/
def State.owner? (s : State) (pa : Nat) : Option (Nat × Excl) :=
  match s.homeCell pa with
  | some cell =>
    ((s.vault (vaultOf cell)).excls.find? (fun e => s.homeCell e.pa == some cell)).map (fun e => (vaultOf cell, e))
  | none => none

/-! ## Slabs (R14, R15) -/

/-- The line or address that a request names. -/
def Msg.pa : Msg → Nat
  | .read r => r.pa
  | .renew _ _ pa _ _ _ _ | .cohStore _ _ pa _ _ _ | .strStore _ _ pa _ _ | .writeBack _ pa _ _ _
  | .homeAtomic _ _ pa _ _ _ _ _ _ _ | .exclReq _ _ pa _ _ | .exclReturn _ pa _ _ _ | .vaultRead _ _ pa _ => pa
  | _ => 0

/-- The key id that a request names. -/
def Msg.key : Msg → Nat
  | .read r => r.key
  | .renew _ _ _ key _ _ _ | .cohStore _ _ _ key _ _ | .strStore _ _ _ key _ | .writeBack _ _ key _ _
  | .homeAtomic _ _ _ key _ _ _ _ _ _ | .exclReq _ _ _ key _ | .exclReturn _ _ key _ _ | .vaultRead _ _ _ key => key
  | _ => 0

/-- The slab that an address of either view lies in. -/
def slabOf (pa : Nat) : Option Nat :=
  if pa < stackedSize then some (pa / 0x40000000)
  else (dieViewOf pa).map (fun d => (pa - dieBase d) / 0x10000000)

/-- New requests to the slab of an address are held: its mode is about to change. -/
def State.slabHeld (s : State) (pa : Nat) : Bool := s.hub.slabWait.any (fun w => slabOf pa == some w.1)

/-- A unit that goes to memory directly is about to reach a slab: where its mode is about to change, the step is to wait (R15). (DEDUCED,
log entry 57.) -/
def State.touchSlab (s : State) (pa : Nat) : State :=
  if s.slabHeld pa then s.modHub (fun h => { h with blocked := true }) else s

/-- A step of such a unit, which waits while it would reach a slab whose mode is about to change (R15). (DEDUCED, log entry 57.) -/
def State.waitSlab (s : State) (f : State → State) : State :=
  if s.hub.slabWait.isEmpty then f s else let t := f s; if t.hub.blocked then s else t

/-- A request names a slab. -/
def Msg.onSlab (n : Nat) (m : Msg) : Bool :=
  match m with
  | .read r => slabOf r.pa == some n
  | .renew _ _ _ _ _ _ _ | .cohStore _ _ _ _ _ _ | .strStore _ _ _ _ _ | .writeBack _ _ _ _ _
  | .homeAtomic _ _ _ _ _ _ _ _ _ _ | .exclReq _ _ _ _ _ | .exclReturn _ _ _ _ _ => slabOf m.pa == some n
  | _ => false

/-- A request to a slab is accepted and not complete, on its way or held behind an exclusive lease. -/
def State.slabBusy (s : State) (n : Nat) : Bool :=
  s.cores.any (fun k => k.2.accs.any (fun a =>
      (match a.phase with | .ready | .fill | .arrived | .renew | .sent | .excl => true | _ => false) && slabOf a.pa == some n))
    || s.net.any (fun m => m.2.onSlab n)
    || s.vaults.any (fun v => v.2.umbras.any (fun u => slabOf u.pa == some n) || v.2.waiting.any (fun r => slabOf r.pa == some n)
        || v.2.excls.any (fun x => x.held.any (fun m => m.2.onSlab n)))
    || s.clusters.any (fun k => k.2.jobs.any (fun j => j.lines.any (fun l => l.got.isNone && slabOf l.pa == some n)))

/-! ## Regions and pages -/

/-- Fields of a region attribute entry (R34). -/
structure Region where
  root  : Nat
  owner : Nat
  die   : Nat
  dc    : Bool
  span  : Nat
  state : Nat
  psz   : Nat
  valid : Bool

def regionOf (e : Dword) : Region :=
  { root := (e.extractLsb' 20 44).toNat * 256, owner := (e.extractLsb' 11 9).toNat, die := (e.extractLsb' 8 2).toNat
    dc := e.getLsbD 7, span := (e.extractLsb' 5 2).toNat, state := (e.extractLsb' 3 2).toNat
    psz := (e.extractLsb' 1 2).toNat, valid := e.getLsbD 0 }

/-- log2 of a region's size and of its page size (R34). -/
def spanBits (r : Region) : Nat := match r.span with | 0 => 53 | 1 => 48 | 2 => 39 | _ => 30
def pageBits (r : Region) : Nat := match r.psz with | 0 => 12 | 1 => 16 | 2 => 21 | _ => 30

/-- The region checks of R33 and R35 on an address. -/
def regionBad (r : Region) (va : Dword) : Bool :=
  va.toNat ≥ 2 ^ 57 || !r.valid || r.state == 3 || (r.psz == 3 && r.span == 3)
    || va.toNat % 2 ^ 53 ≥ 2 ^ spanBits r

/-- What stands in the way of an access before any translation: R33 and R35's region checks, and R35's owner of a private region. -/
def regionFault (r : Region) (core : Nat) (va : Dword) : Option (BitVec 16) :=
  if regionBad r va then some 0x0C else if r.state == 2 && r.owner != core then some 0x0D else none

/-- Index bits of a level: its lowest bit and its width (R37). -/
def levelBits (r : Region) (level : Nat) : Nat × Nat :=
  match level with
  | 4 => (48, 5)
  | 3 => (39, 9)
  | 2 => (30, 9)
  | 1 => (21, 9)
  | _ => if r.psz = 1 then (16, 5) else (12, 9)

def firstLevel (r : Region) : Nat := match r.span with | 0 => 4 | 1 => 3 | 2 => 2 | _ => 1
def leafLevel (r : Region) : Nat := match r.psz with | 3 => 2 | 2 => 1 | _ => 0

/-- The address of the entry that a level reads, with the table's base aligned to its size (R34, R37, R38). -/
def entryAddr (r : Region) (level table : Nat) (va : Dword) : Nat :=
  let (lo, w) := levelBits r level
  table / (8 * 2 ^ w) * (8 * 2 ^ w) + va.toNat / 2 ^ lo % 2 ^ w * 8

/-- The copy of entry n of a context's region attribute file (R34). (DESIGN CHOICE, log entries 2 and 21.) -/
def State.regionEntry (s : State) (ctx n : Nat) : Dword :=
  match tfind s.hub.contexts ctx with
  | some c => c.regions.getD n 0
  | none => 0

def State.regionFor (s : State) (ctx : Nat) (va : Dword) : Region :=
  regionOf (s.regionEntry ctx ((va.extractLsb' 53 4).toNat))

/-- A leaf PTE's fields as a cached translation of the page that holds va (R38, R42). -/
def leafEnt (ctx : Nat) (r : Region) (va : Dword) (e : Dword) : TlbEnt :=
  let p := 2 ^ pageBits r
  { ctx := ctx, region := (va.extractLsb' 53 4).toNat, page := va.toNat % 2 ^ 53 / p
    base := (e.extractLsb' 12 40).toNat * 4096 / p * p, key := (e.extractLsb' 56 7).toNat
    d := e.getLsbD 5, u := e.getLsbD 3, x := e.getLsbD 2, w := e.getLsbD 1 }

/-- A walk of a page without effect on memory, levels left counting down: the leaf, if each entry on the path is
defined and valid (R37 to R39). -/
def State.walkLevels (s : State) (r : Region) (va : Dword) (leaf : Nat) : Nat → Nat → Option Dword
  | level, table =>
    match s.peek 0 (entryAddr r level table va) 8 with
    | none => none
    | some bs =>
      let e := BitVec.ofNat 64 (leNat bs)
      if !e.getLsbD 0 then none
      else if level ≤ leaf then some e
      else match level with
        | 0 => some e
        | l + 1 => s.walkLevels r va leaf l ((e.extractLsb' 8 44).toNat * 256)

/-- The translation of a page by a whole walk without effect; used by units of the hub and to look at code. -/
def State.walkNow (s : State) (ctx : Nat) (va : Dword) : Option TlbEnt :=
  let r := s.regionFor ctx va
  if regionBad r va then none
  else (s.walkLevels r va (leafLevel r) (firstLevel r) r.root).map (leafEnt ctx r va)

/-- A cached translation of the page that holds va (R42). -/
def tlbHit (l : List TlbEnt) (r : Region) (ctx : Nat) (va : Dword) : Option TlbEnt :=
  l.find? (fun e => e.ctx == ctx && e.region == (va.extractLsb' 53 4).toNat
    && e.page == va.toNat % 2 ^ 53 / 2 ^ pageBits r)

/-- The three levels of R42 looked up in turn. -/
def State.tlbLookup (s : State) (c ctx : Nat) (va : Dword) : Option TlbEnt :=
  let r := s.regionFor ctx va
  match tlbHit (s.core c).tlb r ctx va with
  | some e => some e
  | none =>
    match tlbHit (s.cluster (clusterOf c)).tlb r ctx va with
    | some e => some e
    | none => tlbHit (s.die (dieOf c)).tlb r ctx va

/-- The level that a lookup hits: 1 to 3, or 4 for none (R42). -/
def State.tlbLevel (s : State) (c ctx : Nat) (va : Dword) : Nat :=
  let r := s.regionFor ctx va
  if (tlbHit (s.core c).tlb r ctx va).isSome then 1
  else if (tlbHit (s.cluster (clusterOf c)).tlb r ctx va).isSome then 2
  else if (tlbHit (s.die (dieOf c)).tlb r ctx va).isSome then 3
  else 4

/-- At most n entries that p picks, the first ones. -/
def keepFirst (p : TlbEnt → Bool) : Nat → List TlbEnt → List TlbEnt
  | _, [] => []
  | 0, x :: l => if p x then keepFirst p 0 l else x :: keepFirst p 0 l
  | n + 1, x :: l => if p x then x :: keepFirst p n l else x :: keepFirst p (n + 1) l

/-- An entry put first in a TLB of some sets of n ways each (R42); the oldest of its set goes. The set of a page is its number modulo
the sets. (DESIGN CHOICE, log entry 6.) -/
def tlbPut (l : List TlbEnt) (sets n : Nat) (e : TlbEnt) : List TlbEnt :=
  e :: keepFirst (fun x => x.page % sets == e.page % sets) (n - 1)
    (l.filter (fun x => !(x.ctx == e.ctx && x.region == e.region && x.page == e.page)))

/-- The fully associative L1 TLB of 64 entries, the 8-way L2 TLB of 2,048 and the 16-way last level of 16,384 (R42). -/
def tlbPut1 (l : List TlbEnt) (e : TlbEnt) : List TlbEnt := tlbPut l 1 64 e
def tlbPut2 (l : List TlbEnt) (e : TlbEnt) : List TlbEnt := tlbPut l 256 8 e
def tlbPut3 (l : List TlbEnt) (e : TlbEnt) : List TlbEnt := tlbPut l 1024 16 e

/-- A hit at a level fills the levels below it; level 4 is a walk's leaf (R42). -/
def State.tlbFill (s : State) (c level : Nat) (e : TlbEnt) : State :=
  let s1 := if level < 2 then s else s.modCore c (fun k => { k with tlb := tlbPut1 k.tlb e })
  let s2 := if level < 3 then s1 else s1.modCluster (clusterOf c) (fun k => { k with tlb := tlbPut2 k.tlb e })
  if level < 4 then s2 else s2.modDie (dieOf c) (fun k => { k with tlb := tlbPut3 k.tlb e })

/-- A lookup that hits fills the levels below (R42). -/
def State.tlbTouch (s : State) (c ctx : Nat) (va : Dword) : State :=
  match s.tlbLookup c ctx va with
  | some e => s.tlbFill c (s.tlbLevel c ctx va) e
  | none => s

def TlbEnt.pa (e : TlbEnt) (r : Region) (va : Dword) : Nat := e.base + va.toNat % 2 ^ pageBits r

/-- The checks that follow a translation: R16, R30, R35's owner, R39, an address that R11 or R14 does not serve, and R28's link.
`acc`: 0 read, 1 write, 2 atomic, 3 fetch. A device register address passes here (R427). (DEDUCED, log entry 44.) -/
def State.checkLeaf (s : State) (r : Region) (core : Nat) (e : TlbEnt) (va : Dword) (acc : Nat) (priv : Bool) :
    Option (BitVec 16) :=
  let pa := e.pa r va
  if r.state == 2 && r.owner != core then some 0x0D
  else if (acc == 1 || acc == 2) && !e.w then some 0x0C
  else if acc == 3 && !e.x then some 0x0C
  else if !priv && !e.u then some 0x0C
  else if r.dc && dieViewOf pa != some r.die then some 0x0C
  else if isHub pa then none
  else if !s.keyLoaded e.key then some 0x0C
  else if (s.cellOf pa).isNone || s.linkDown pa then some 0x0C
  else none

end Sys2Proof.Machine
end

