-- ==== Sys2Proof/Machine/Ops.lean ====
section
/-! DEFINITION. The named operations on registers, scalar registers and tiles (07_registers.md), looking at code
(14_encoding_and_assembly.md R250, R364), taking a trap and returning from one (13_traps_faults_preemption.md R230 to R235). -/

namespace Sys2Proof.Machine

/-! ## A thread's registers -/

/-- A register of a thread that a v-class field names: v0 to v255 as 0 to 255, t0 to t15 as 256 to 271. -/
abbrev Reg := Nat

/-- The register that a v-class field's number names (R122). (DEDUCED, log entry 18.) -/
def Thread.reg (th : Thread) (n : Nat) : Reg := if th.handler && 240 ≤ n then n + 16 else n

def Thread.get (th : Thread) (r : Reg) : Word := if r < 256 then tget 0 th.v r else tget 0 th.t (r - 256)

/-- A register written and marked full (R127). -/
def Thread.put (th : Thread) (r : Reg) (w : Word) : Thread :=
  if r < 256 then { th with v := tset th.v r w, vEmpty := th.vEmpty.filter (· != r) }
  else { th with t := tset th.t (r - 256) w, tEmpty := th.tEmpty.filter (· != r - 256) }

/-- A register is empty at issue: it is marked so, or became full in this front cycle (R127, R277). -/
def Thread.isEmpty (th : Thread) (r : Reg) : Bool :=
  (if r < 256 then th.vEmpty.contains r else th.tEmpty.contains (r - 256)) || th.newly.contains r

/-- A register marked empty (R127). -/
def Thread.drain (th : Thread) (r : Reg) : Thread :=
  if r < 256 then { th with vEmpty := if th.vEmpty.contains r then th.vEmpty else r :: th.vEmpty }
  else { th with tEmpty := if th.tEmpty.contains (r - 256) then th.tEmpty else (r - 256) :: th.tEmpty }

/-- Consecutive registers from r written with words. -/
def Thread.putAll (th : Thread) (r : Reg) : List Word → Thread
  | [] => th
  | w :: ws => (th.put r w).putAll (r + 1) ws

/-- The result of a long-latency producer written: full, and counted so from the next front cycle (R127, R277). -/
def Thread.fillAll (th : Thread) (r : Reg) (ws : List Word) : Thread :=
  { (th.putAll r ws) with newly := th.newly ++ (List.range ws.length).map (fun k => r + k) }

def Thread.drainAll (th : Thread) (r n : Nat) : Thread := (List.range n).foldl (fun x k => x.drain (r + k)) th

def Thread.getAll (th : Thread) (r n : Nat) : List Word := (List.range n).map (fun k => th.get (r + k))

/-- A pair's value: the low half in the lower register (R247). -/
def pairOf (lo hi : Word) : Dword := hi ++ lo
def lowWord (d : Dword) : Word := d.extractLsb' 0 32
def highWord (d : Dword) : Word := d.extractLsb' 32 32

/-- Predicate n; p0 reads 1 (R120). -/
def Thread.pred (th : Thread) (n : Nat) : Bool := n == 0 || th.preds.getLsbD n

/-- Predicate n written; a write to p0 is discarded (R120). -/
def Thread.setPred (th : Thread) (n : Nat) (b : Bool) : Thread :=
  if n = 0 then th
  else { th with preds := if b then th.preds ||| (1#8 <<< n) else th.preds &&& ~~~(1#8 <<< n) }

/-- Index register n (R120, R126). -/
def Thread.index (th : Thread) (n : Nat) : BitVec 16 := tget 0 th.idx n

/-- The register number that base + i[n] forms (R126); negative where the sum is. -/
def Thread.indexed (th : Thread) (base n : Nat) : Int := base + (th.index n).toInt

def Thread.raiseFlags (th : Thread) (f : BitVec 6) : Thread := { th with fstat := th.fstat ||| f }

/-- A thread at group start (R120, R131, R180, R448). (DESIGN CHOICE, log entry 5.) -/
def Thread.start (pc : Dword) (prio : BitVec 16) : Thread :=
  { live := true, pc := pc, prio := prio, v := [], vEmpty := [], preds := 0, idx := [], t := [], tEmpty := []
    handler := false, fmode := 0, fstat := 0, bind := none, cursor := 0, wait := none, mark := none, due := []
    fresh := true, newly := [] }

/-! ## A group's registers -/

def Group.sget (g : Group) (n : Nat) : Dword := tget 0 g.s n

def Group.sput (g : Group) (n : Nat) (d : Dword) : Group :=
  { g with s := tset g.s n d, sEmpty := g.sEmpty.filter (· != n) }

def Group.sDrain (g : Group) (n : Nat) : Group :=
  { g with sEmpty := if g.sEmpty.contains n then g.sEmpty else n :: g.sEmpty }

/-- Tile element x[i][j], 64 × 64 words, row-major (R120). -/
def Group.acc (g : Group) (x i j : Nat) : Word := tget 0 (tget [] g.x x) (64 * i + j)

def Group.setAcc (g : Group) (x i j : Nat) (w : Word) : Group :=
  { g with x := tset g.x x (tset (tget [] g.x x) (64 * i + j) w) }

def Group.tileFull (g : Group) (x : Nat) : Group := { g with xEmpty := g.xEmpty.filter (· != x) }
/-- A tile that an operation has filled: full, and counted so from the next front cycle (R127, R277). (DESIGN CHOICE, log entry 23.) -/
def Group.tileFill (g : Group) (x : Nat) : Group := { (g.tileFull x) with xNewly := x :: g.xNewly }
/-- A tile is empty at issue (R127, R277). -/
def Group.tileEmpty (g : Group) (x : Nat) : Bool := g.xEmpty.contains x || g.xNewly.contains x
def Group.tileDrain (g : Group) (x : Nat) : Group :=
  { g with xEmpty := if g.xEmpty.contains x then g.xEmpty else x :: g.xEmpty }

/-- The wave width of QV-4400 (R4, R131). -/
def ww : Nat := 32

/-- Home wave and lane of thread t (R123). -/
def homeWave (t : Nat) : Nat := t / ww
def homeLane (t : Nat) : Nat := t % ww

/-- The registers that a thread of a home wave holds are those below 16h (R125). -/
def Group.regLimit (g : Group) (t : Nat) : Nat := 16 * g.homes.getD (homeWave t) 0

/-- A home wave has ended: its threads have exited and its registers are full (R192). -/
def Group.waveEnded (g : Group) (w : Nat) : Bool :=
  ((g.threads.drop (ww * w)).take ww).all (fun th => !th.live && th.vEmpty.isEmpty)

/-- Blocks that a group's home waves hold (R124, R192). -/
def Group.blocks (g : Group) : Nat :=
  ((List.range g.homes.length).map (fun w => if g.waveEnded w then 0 else g.homes.getD w 0)).sum

/-- The blocks of a core that no home wave holds (R124, R131). -/
def Core.freeBlocks (k : Core) : Nat := 256 - (k.slots.map (fun e => e.2.blocks)).sum

/-! ## Code -/

/-- What a look at a fetch block or a constant gives: its bytes, a translation that is not cached, nothing yet because its slab's mode
is about to change (R15), or a fault's cause. -/
inductive Look where
  | bytes (bs : List Byte)
  | miss
  | held
  | bad (cause : BitVec 16)
  deriving DecidableEq, Repr

/-- Where a read by a core leads: the page's translation, the physical address and its cell; or what stands in its way (R35, R39, R42).
`acc` as in checkLeaf. -/
def State.reach (s : State) (c ctx : Nat) (va : Dword) (acc : Nat) (priv : Bool) : Except Look (TlbEnt × Nat × Nat) :=
  let r := s.regionFor ctx va
  match regionFault r c va with
  | some cause => .error (.bad cause)
  | none =>
    match s.tlbLookup c ctx va with
    | none => .error .miss
    | some e =>
      if s.slabHeld (e.pa r va) then .error .held
      else match s.checkLeaf r c e va acc priv with
      | some cause => .error (.bad cause)
      | none =>
        match s.cellOf (e.pa r va) with
        | none => .error (.bad 0x0C)
        | some cell => .ok (e, e.pa r va, cell)

/-- What stands at an address, as a core reads n bytes of one sector at issue. Bytes that no agent has written are free values (R447).
(DESIGN CHOICE, log entry 2.) -/
def State.lookAt (s : State) (c ctx : Nat) (va : Dword) (acc : Nat) (priv : Bool) (n : Nat) : Look :=
  match s.reach c ctx va acc priv with
  | .error l => l
  | .ok (e, pa, cell) => if (s.poisonOf cell).getLsbD (cell / 64 % 4) then .bad 0x0C else .bytes (s.readMem e.key pa n).1

/-- The fetch block that holds an address, as a thread of a context on a core fetches it (R252, R364, R38, R39). (DESIGN CHOICE, log entry
2; DEDUCED, log entry 28.) -/
def State.look (s : State) (c ctx : Nat) (va : Dword) (priv : Bool) : Look := s.lookAt c ctx (va &&& ~~~31#64) 3 priv 32

/-- A fetch of the block that holds an address would first recall an owner of its line, or find errors that stand in its sector (R18,
R93): what it gives is not known before. -/
def State.lookLate (s : State) (c ctx : Nat) (va : Dword) : Bool :=
  match s.reach c ctx (va &&& ~~~31#64) 3 true with
  | .ok (_, pa, cell) => (s.owner? pa).isSome || (tfind s.errors (cell / 64)).isSome
  | .error _ => false

/-- Word p's address bits: a legal instruction address has bits [63:57] and [1:0] zero (R364, R448). -/
def addrOk (va : Dword) : Bool := va.toNat < 2 ^ 57 && va.toNat % 4 == 0

/-- A check of a transfer target (R188, R364, R448): where it may go on, the block's bytes. -/
inductive Target where
  | ok (bs : List Byte)
  | wait
  | trap (cause : BitVec 16)
  deriving DecidableEq, Repr

def State.target (s : State) (c ctx : Nat) (va : Dword) (priv : Bool) : Target :=
  if !addrOk va then .trap 0x04
  else
    match s.look c ctx va priv with
    | .miss | .held => .wait
    | .bad cause => .trap cause
    | .bytes bs => if legalTarget bs (va.toNat / 4 % 8) then .ok bs else .trap 0x04

/-! ## Traps -/

/-- The trap registers at handler entry (R233). -/
def trapRegs (d : Due) (deferred : Bool) (resume : Dword) (prio : BitVec 16) : Tbl Word :=
  let v := d.log.isSome
  [(0, (if v then 0x80000000 else 0) ||| (if deferred then 0x40000000 else 0) ||| BitVec.ofNat 32 d.cause.toNat),
   (1, lowWord resume), (2, highWord resume &&& 0x1FFFFFF), (3, BitVec.ofNat 32 prio.toNat),
   (4, lowWord d.pc), (5, highWord d.pc &&& 0x1FFFFFF), (6, lowWord d.va), (7, highWord d.va &&& 0x1FFFFFF),
   (8, d.info), (9, match d.log with | some e => 0x80000000 ||| BitVec.ofNat 32 e | none => 0)]

/-- The thread in its handler (R232). `unchecked`: the handler's block could not be looked at, so its entry is checked, and a fault of its
fetch found, at its first issue. (DESIGN CHOICE, log entry 5; DEDUCED, log entry 27.) -/
def Thread.enter (th : Thread) (handler : Dword) (d : Due) (deferred : Bool) (resume : Dword) (unchecked : Bool) :
    Thread :=
  { th with t := trapRegs d deferred resume th.prio, tEmpty := [], pc := handler, prio := 0, handler := true
            wait := none, fresh := unchecked }

/-- A group stops on its first unhandled trap (R235). -/
def Group.stop (g : Group) (d : Due) : Group :=
  { g with stopped := match g.stopped with | some x => some x | none => some (d.cause, d.pc) }

/-- The STATUS of a launch that an unhandled trap stops (R217). (DEDUCED, log entry 27.) -/
def trapStatus (d : Due) : Dword := lowWord d.pc ++ (d.cause ++ (0x8003 : BitVec 16))

/-- An unhandled trap: the group stops, and its launch keeps the first one's status (R235). (DEDUCED, log entry 53.) -/
def State.stopGroup (s : State) (c g : Nat) (d : Due) : State :=
  match s.group? c g with
  | none => s
  | some x =>
    (s.setGroup c g (x.stop d)).modHub (fun h =>
      match tfind h.launches x.launch with
      | some l => if l.stop.isSome then h else { h with launches := tset h.launches x.launch { l with stop := some (trapStatus d) } }
      | none => h)

/-- A thread is not among those that a plane-array operation of its group is to release. -/
def Plane.without (g t : Nat) (p : Plane) : Plane := if p.slot = g then { p with release := tdel p.release t } else p

/-- A thread gives up its place at a board and in the order of blocking acquires, and no operation releases it any more (R201, R132,
R174). -/
def State.leaveQueues (s : State) (c g t : Nat) : State :=
  (s.modCore c (fun k => { k with
    rblkQ := k.rblkQ.filter (· != (g, t)), plane := k.plane.map (·.without g t),
    planeQ := k.planeQ.map (·.without g t) })).modCluster (clusterOf c)
    (fun k => { k with boards := k.boards.map (fun e => (e.1, { e.2 with waiters := e.2.waiters.filter (· != (c, g, t)) })) })

/-- Taking a trap (R230, R232, R233, R235): the thread enters its handler with its trap registers written, its resume PC
`resume`; or the trap is unhandled and stops the group. A member whose thread runs a handler is shed (R62). (DEDUCED, log entry 27.) -/
def State.takeTrap (s : State) (c g t : Nat) (d : Due) (deferred : Bool) (resume : Dword) : State :=
  match s.group? c g, s.thread? c g t with
  | some x, some th =>
    let handler := x.tvec
    let s1 := s.leaveQueues c g t
    if handler = 0 || th.handler then s1.stopGroup c g d
    else
      match (if s.lookLate c x.ctx handler then .wait else s.target c x.ctx handler true) with
      | .ok _ => (s1.modThread c g t (·.enter handler d deferred resume false)).cvShed c g 2
      | .trap 0x04 => s1.stopGroup c g d
      | _ => (s1.modThread c g t (·.enter handler d deferred resume true)).cvShed c g 2
  | _, _ => s

/-- A precise trap of a thread at its own instruction (R230). -/
def State.precise (s : State) (c g t : Nat) (cause : BitVec 16) (va : Dword) (info : Word) : State :=
  match s.thread? c g t with
  | some th => s.takeTrap c g t { cause := cause, pc := th.pc, va := va, info := info, log := none } false th.pc
  | none => s

/-- The thread has offered a job that its cluster has taken (R107). -/
def State.jobTaken (s : State) (c g t : Nat) : Bool :=
  (s.cluster (clusterOf c)).offers.any (fun j => j.core == c && j.slot == g && j.tid == t && j.accepted)

/-- A wait that a deferred trap does not interrupt: it is inside an instruction that has issued, not at issue (R183, R230). A request to
Benuino, HALT and CLKRAT are not among those that R230 names. (DEDUCED, log entry 30.) -/
def State.insideWait (s : State) (c g t : Nat) (w : Wait) : Bool :=
  match w.kind with
  | .job => s.jobTaken c g t
  | .release _ | .region | .waymask _ | .halt _ | .clock _ | .mbox _ => false
  | _ => true

/-- A thread of the context waits in an RSTATE. -/
def State.rstating (s : State) (ctx : Nat) : Bool :=
  s.cores.any (fun k => k.2.slots.any (fun g => g.2.ctx == ctx && g.2.stopped.isNone
    && g.2.threads.any (fun th => th.wait.any (fun w => w.kind == .region))))

/-- An RSTATE that no thread of the context waits for any more is given up. -/
def State.endMoving (s : State) (ctx : Nat) : State :=
  match tfind s.hub.contexts ctx with
  | none => s
  | some y =>
    if y.moving.isNone || s.rstating ctx then s
    else s.modHub (fun h => { h with contexts := tset h.contexts ctx { y with moving := none } })

/-- A thread that waits at issue leaves its instruction, to issue it again after its handler: its offer of a job is withdrawn, and so
is its RSTATE (R230). A slab change that no thread waits for any more is given up with the step (State.tidySlab). -/
def State.withdraw (s : State) (c g t : Nat) : State :=
  let s1 := (s.modThread c g t (fun th => { th with wait := none })).modCluster (clusterOf c)
    (fun k => { k with offers := k.offers.filter (fun j => !(j.core == c && j.slot == g && j.tid == t)) })
  match s1.group? c g with
  | none => s1
  | some x => s1.endMoving x.ctx

/-- A thread takes the first of its deferred traps, unless it waits inside an issued instruction; in a handler, only one
that the handler's own access caused (R230, R235, R245). (DEDUCED, log entry 30.) -/
def State.settle (s : State) (c g t : Nat) : State :=
  match s.thread? c g t with
  | some th =>
    match th.due.find? (fun d => d.inner || !th.handler) with
    | none => s
    | some d =>
      if th.wait.any (s.insideWait c g t) || !th.live then s
      else
        let s1 := if th.wait.isSome then s.withdraw c g t else s
        (s1.modThread c g t (fun x => { x with due := x.due.erase d })).takeTrap c g t d true th.pc
  | none => s

/-- A deferred trap becomes due (R230, R245). -/
def State.defer (s : State) (c g t : Nat) (d : Due) : State :=
  (s.modThread c g t (fun x => { x with due := x.due ++ [d] })).settle c g t

/-- The resume PC that t1 and t2 hold (R233). -/
def Thread.resumePc (th : Thread) : Dword := pairOf (tget 0 th.t 1) (tget 0 th.t 2 &&& 0x1FFFFFF)

/-- The return from a trap without its replay (R234): leave handler mode, PC and priority from t1 to t3. -/
def Thread.leave (th : Thread) : Thread :=
  { th with handler := false, pc := th.resumePc, prio := (tget 0 th.t 3).extractLsb' 0 16 }

/-- The access of a thread that holds a log entry. -/
def Core.held (k : Core) (g t e : Nat) : Option Acc :=
  k.accs.find? (fun a => a.slot == g && a.tid == t && a.log == some e && a.phase == .held)

/-- ERET of one thread (R234, R237): with RPL = 1 its logged access takes its place at the end of the core's order and is
translated again; with RPL = 0 it leaves its log entry, its destination 0 and full. Convoy presence and deferred traps
that became due meanwhile follow. (DEDUCED, log entry 25.) -/
def State.eret (s : State) (c g t : Nat) : State :=
  match s.thread? c g t with
  | none => s
  | some th =>
    let t0 := tget 0 th.t 0
    let t9 := tget 0 th.t 9
    let e := (t9.extractLsb' 0 5).toNat
    let s1 := s.modThread c g t Thread.leave
    let s2 :=
      if !t9.getLsbD 31 then s1
      else
        match (s.core c).held g t e with
        | none => s1
        | some a =>
          let rest := s1.modCore c (fun k => { k with accs := k.accs.filter (·.id != a.id) })
          if t0.getLsbD 31 then
            rest.modCore c (fun k => { k with accs := k.accs ++ [{ a with phase := .logged, replay := true }] })
          else
            rest.modThread c g t (fun x => x.putAll a.dest (List.replicate a.count 0))
    s2.settle c g t

end Sys2Proof.Machine
end

