-- ==== Sys2Proof/Machine/Operands.lean ====
section
/-! DEFINITION. Every operand form: source fields with modifiers (14_encoding_and_assembly.md R262, R263), immediates,
literals and constants (R259 to R261), indexed registers (07_registers.md R126), and which registers an instruction uses
(R125, R128, R129). -/

namespace Sys2Proof.Machine

/-- An instruction's fields as it reads them: UNPK ignores IMM, so its guard stands (R331). -/
def fieldsOf (i : Instr) : Option Op :=
  match i with
  | .unpk o => some { o with imm := false }
  | _ => i.op?

/-- One thread of an issue wave: the state before the instruction, the place, the wave's threads and the fields. -/
structure Lane where
  s    : State
  c    : Nat
  slot : Nat
  g    : Group
  wave : List Nat
  tid  : Nat
  th   : Thread
  o    : Op

/-- A precise trap of a thread (R230): cause, t6 and t7, t8. -/
structure Trap where
  cause : BitVec 16
  va    : Dword := 0
  info  : Word := 0
  deriving DecidableEq, Repr

namespace Lane

/-- Fields of the extension words (R249). -/
def fC (L : Lane) : Nat := (L.o.w1.extractLsb' 0 8).toNat
def fE (L : Lane) : Nat := (L.o.w1.extractLsb' 20 8).toNat
def moda (L : Lane) : Nat := if Shape.hasExt L.o then (L.o.w1.extractLsb' 8 12).toNat else 0
def modb (L : Lane) : Nat := if Shape.hasModB L.o then (L.o.w2.extractLsb' 0 12).toNat else 0
def fA (L : Lane) : Nat := L.o.a.toNat
def fB (L : Lane) : Nat := L.o.b.toNat
def fD (L : Lane) : Nat := L.o.d.toNat
def fn (L : Lane) : Nat := L.o.fn.toNat
/-- Empty-read bits of C and E (R249). -/
def fc (L : Lane) : Bool := Shape.hasExt L.o && L.o.w1.getLsbD 28
def fe (L : Lane) : Bool := Shape.hasExt L.o && L.o.w1.getLsbD 29

/-- Whether n registers from a field's number lie within the thread's (R125, R122); else the first number outside. (DEDUCED, log entries 18
and 19.) -/
def within (L : Lane) (n cnt : Nat) : Except Int Unit :=
  let lim := if L.th.handler && 240 ≤ n then 256 else L.g.regLimit L.tid
  if n + cnt ≤ lim then .ok () else .error (if lim ≤ n then n else lim)

/-- The same for an indexed operand (R126): always vector registers. (DEDUCED, log entry 19.) -/
def withinIdx (L : Lane) (n : Int) (cnt : Nat) : Except Int Reg :=
  let lim := L.g.regLimit L.tid
  if n < 0 then .error n
  else if n.toNat + cnt ≤ lim then .ok n.toNat
  else .error (if lim ≤ n.toNat then n else (lim : Int))

/-- The thread of the issue wave at a home lane. -/
def atLane (L : Lane) (l : Nat) : Option Thread :=
  (L.wave.find? (fun t => homeLane t == l)).bind (fun t => L.g.threads[t]?)

/-- The lane that a cross-lane modifier names (R263); none: the modifier has no effect on the lane. (DEDUCED, log entry 12.) -/
def sourceLane (L : Lane) (m : Nat) : Option Nat :=
  let seg := min (2 ^ (m / 64 % 8)) ww
  let d0 := if m / 32 % 2 = 1 then m % 32 * ww / 32 else m % 32
  let d := d0 % seg
  let l := homeLane L.tid
  let base := l - l % seg
  match m / 512 with
  | 1 => some (base + (l - base + d) % seg)
  | 2 => some (l ^^^ d)
  | 3 => some (base + d)
  | _ => none

/-- The thread and register that supply a source field of n registers (R263). -/
def supply (L : Lane) (n cnt m : Nat) : Except Int (Thread × Reg) :=
  if m / 512 = 4 then (L.withinIdx (L.th.indexed n (m / 128 % 4)) cnt).map (fun r => (L.th, r))
  else
    match L.within n cnt with
    | .error e => .error e
    | .ok () =>
      match (L.sourceLane m).bind L.atLane with
      | some u => .ok (u, u.reg n)
      | none => .ok (L.th, L.th.reg n)

/-- The words that a source field supplies. (DEDUCED, log entry 12.) -/
def words (L : Lane) (n cnt m : Nat) : List Word :=
  match L.supply n cnt m with
  | .ok (u, r) => u.getAll r cnt
  | .error _ => List.replicate cnt 0

/-- A source of 32 or 64 bits in a 64-bit container. -/
def source (L : Lane) (wide : Bool) (n m : Nat) : Dword :=
  match L.words n (if wide then 2 else 1) m with
  | [x] => x.setWidth 64
  | [x, y] => pairOf x y
  | _ => 0

/-- The destination register that D names (R126, R122). -/
def dst (L : Lane) (cnt : Nat) : Except Int Reg :=
  if L.o.dx then L.withinIdx (L.th.indexed L.fD L.o.dxi.toNat) cnt
  else (L.within L.fD cnt).map (fun _ => L.th.reg L.fD)

def dstReg (L : Lane) (cnt : Nat) : Reg :=
  match L.dst cnt with
  | .ok r => r
  | .error _ => 0

/-! ## B: immediates, literals, constants -/

/-- IMM20: bits [51:32] of W0 (R259). -/
def imm20 (o : Op) : BitVec 20 :=
  o.h.extractLsb' 0 2 ++ (o.gm ++ (BitVec.ofBool o.n1 ++ (o.pg1 ++ (BitVec.ofBool o.n0 ++ (o.pg0 ++ o.b)))))

/-- IMM20 as the type in which B is read takes it (R259). -/
def immValue (ty : Nat) (k : BitVec 20) : Dword :=
  let f := k.toNat * 4096
  match ty with
  | 8 => BitVec.ofNat 64 f
  | 9 => BitVec.ofNat 64 ((Fmt.f16.convert .rne false false (Fmt.f32.unpack f)).1 * 65537)
  | 10 => BitVec.ofNat 64 ((Fmt.bf16.convert .rne false false (Fmt.f32.unpack f)).1 * 65537)
  | _ => k.signExtend 64

/-- The W1 or W2 literal (R260): sign-extended for .i64, else zero-extended. -/
def litValue (ty : Nat) (o : Op) : Dword :=
  let w := if o.form == .w128 then o.w2 else o.w1
  if ty = 2 then w.signExtend 64 else w.setWidth 64

/-- The address of the constant word that B names (R261). -/
def constAddr (L : Lane) : Dword :=
  let bank := if L.o.form == .w64 then 0 else L.fE % 16
  L.g.record.cbank + BitVec.ofNat 64 (1024 * bank + 4 * L.fB)

/-- A read of n constant bytes at issue: the bytes, a translation that is missing, or a fault (R261). -/
def constLook (L : Lane) (priv : Bool) (va : Dword) (n : Nat) : Look := L.s.lookAt L.c L.g.ctx va 0 (priv || L.th.handler) n

end Lane

/-- SrcB in a 64-bit container, read as type `ty` at the width given (R259 to R263). -/
def Lane.srcB (L : Lane) (sh : Shape) (ty : Nat) (wide : Bool) : Dword :=
  if sh.immB L.o then
    if L.o.form == .w64 then Lane.immValue ty (Lane.imm20 L.o) else Lane.litValue ty L.o
  else if sh.isConst L.o then
    match L.constLook (sh.mUse == .privCb) L.constAddr (if wide then 8 else 4) with
    | .bytes bs => BitVec.ofNat 64 (leNat bs)
    | _ => 0
  else if sh.b == .sb || sh.b == .s then L.g.sget L.fB
  else L.source wide L.fB L.modb

/-! ## Which registers an instruction uses -/

/-- A source field of vector registers: number, count, modifier, empty-read bit. -/
structure VUse where
  num  : Nat
  cnt  : Nat
  mod  : Nat
  trap : Bool
  deriving DecidableEq, Repr

/-- What an instruction uses: vector sources, scalar sources (number, count, empty-read bit), the count of registers
from D, the link registers of a call, tiles read (with empty-read bit) and written, and the indexed pairs, by base and index
register. -/
structure Uses where
  v    : List VUse := []
  s    : List (Nat × Nat × Bool) := []
  d    : Option Nat := none
  link : Option Nat := none
  x    : List (Nat × Bool) := []
  xd   : Option Nat := none
  pairs : List (Nat × Nat) := []

/-- Registers per access of n bytes (R280). -/
def accessRegs (o : Op) : Nat := ((accessSize o.fn.toNat).getD 4 * 2 ^ (o.m.toNat / 2) + 3) / 4

/-- Element bits of a format code (R146, R133). -/
def fmtBits (code : Nat) : Nat :=
  match code with
  | 0 | 1 => 16
  | 2 | 3 => 8
  | 4 => 4
  | 12 => 4
  | 13 => 8
  | n => n - 3

/-- The elements that ACCRD and ACCWR move (R361). -/
def accCount (o : Op) : Nat := 2 ^ (o.m.toNat / 2)

/-- The modifier by which a D that is a source is indexed (R126). -/
def dMod (o : Op) : Nat := if o.dx then 2048 + 128 * o.dxi.toNat else 0

/-- The use of one source field by its class. -/
def fieldUse (sh : Shape) (o : Op) (cls : Cls) (num mod : Nat) (trap : Bool) : Uses :=
  let as := o.m.getLsbD 0
  match cls with
  | .v => { v := [⟨num, 1, mod, trap⟩] }
  | .w => { v := [⟨num, 2, mod, trap⟩] }
  | .t => { v := [⟨num, if sh.wide o then 2 else 1, mod, trap⟩] }
  | .b => { v := [⟨num, 1, mod, trap⟩] }
  | .bt => { v := [⟨num, if sh.wide o then 2 else 1, mod, trap⟩] }
  | .s => { s := [(num, 1, trap)] }
  | .sb => { s := [(num, 1, trap)] }
  | .mbox => { s := [(num, 3, trap)] }
  | .base => if as then { s := [(num, 1, trap)] } else { v := [⟨num, 1, mod, trap⟩] }
  | .mbase => if as then { s := [(num, 1, trap)] } else { v := [⟨num, 2, mod, trap⟩] }
  | .card => if as then { s := [(num, 8, trap)] } else { v := [⟨num, 16, mod, trap⟩] }
  | .x => { x := [(num, trap)] }
  | _ => {}

def Uses.add (a b : Uses) : Uses := { a with v := a.v ++ b.v, s := a.s ++ b.s, x := a.x ++ b.x }

/-- The uses that an entry's operand classes give. (DEDUCED, log entry 16.) -/
def shapeUses (sh : Shape) (o : Op) : Uses :=
  let ext := Shape.hasExt o && sh.mods
  let moda := if ext then (o.w1.extractLsb' 8 12).toNat else 0
  let modb := if Shape.hasModB o && sh.mods then (o.w2.extractLsb' 0 12).toNat else 0
  let a := fieldUse sh o sh.a o.a.toNat moda o.fa
  let b := if sh.immB o || sh.isConst o then {} else fieldUse sh o sh.b o.b.toNat modb o.fb
  let c := if ext then fieldUse sh o sh.c (o.w1.extractLsb' 0 8).toNat 0 (o.w1.getLsbD 28) else {}
  let e := if ext then fieldUse sh o sh.e (o.w1.extractLsb' 20 8).toNat 0 (o.w1.getLsbD 29) else {}
  let indexed := fun (cls : Cls) (num m : Nat) => if sh.pairField o cls && m / 512 == 4 then [(num, m / 128 % 4)] else []
  let src := { ((a.add b).add c).add e with
    pairs := indexed sh.a o.a.toNat moda ++ (if sh.immB o || sh.isConst o then [] else indexed sh.b o.b.toNat modb)
      ++ indexed sh.d o.d.toNat (dMod o) }
  match sh.d with
  | .v => { src with d := some 1 }
  | .w => { src with d := some 2 }
  | .t => { src with d := some (if sh.wide o then 2 else 1) }
  | .x => { src with xd := some o.d.toNat }
  | _ => src

/-- The uses of each instruction: those of its operand classes, or its entry's own. -/
def usesOf (i : Instr) : Uses :=
  match i.shape with
  | none => {}
  | some (sh, o) =>
    let u := shapeUses sh o
    match i with
    | .ld _ | .lds _ | .ldc _ => { u with d := some (accessRegs o) }
    | .st _ | .sts _ => { u with d := none, v := u.v ++ [⟨o.d.toNat, accessRegs o, dMod o, false⟩] }
    | .cvt _ =>
      let src := o.b.toNat % 16
      { u with v := [⟨o.a.toNat, if src == 2 || src == 3 then 2 else 1, 0, o.fa⟩]
               d := some (if o.fn.toNat == 2 || o.fn.toNat == 3 then 2 else 1) }
    | .qnt _ =>
      { u with v := [⟨o.a.toNat, if o.m.getLsbD 0 then 16 else 32, 0, o.fa⟩], d := some (fmtBits o.fn.toNat + 1) }
    | .qexp _ => { u with v := [⟨o.a.toNat, if o.m.getLsbD 0 then 16 else 32, 0, o.fa⟩] }
    | .dqnt _ =>
      let w := fmtBits o.fn.toNat
      { u with v := [⟨o.a.toNat, if o.fn.toNat ≤ 3 then w else w + 1, 0, o.fa⟩]
               d := some (if o.m.getLsbD 0 then 16 else 32) }
    | .accrd _ => { u with d := some (accCount o) }
    | .accwr _ => { u with v := [⟨o.a.toNat, accCount o, if Shape.hasExt o then (o.w1.extractLsb' 8 12).toNat else 0, o.fa⟩] ++ u.v.drop 1 }
    | .mmaRegister _ => { v := [⟨o.b.toNat, 1, 0, o.fb⟩] }
    | .mmaDescriptor _ =>
      { v := [⟨o.b.toNat, 1, 0, o.fb⟩]
        s := [((o.w1.extractLsb' 0 8).toNat, 1, o.w1.getLsbD 28), ((o.w1.extractLsb' 20 8).toNat, 1, o.w1.getLsbD 29)] }
    | .call _ => { u with link := some (4 * o.fn.toNat) }
    | .callx _ => { u with link := some (4 * o.fn.toNat) }
    | .ret _ => { u with v := [⟨o.a.toNat, 3, 0, o.fa⟩] }
    | .wqt _ => { u with d := none, v := u.v ++ [⟨o.d.toNat, 1, dMod o, false⟩] }
    | _ => u

/-- Tiles that an instruction names, for the grant check of step 7 (R121). -/
def tilesOf (i : Instr) : List Nat :=
  match i with
  | .mmaRegister o | .mmaDescriptor o => [o.d.toNat]
  | _ => (usesOf i).x.map (·.1) ++ (usesOf i).xd.toList

namespace Lane

/-- The first register number outside the thread's registers (R125), in the order of the fields. (DEDUCED, log entries 14 and 19.) -/
def badReg (L : Lane) (u : Uses) : Option Int :=
  let bad : Except Int Unit → Option Int := fun r => match r with | .error e => some e | .ok () => none
  let srcs := u.v.map (fun x => bad ((L.supply x.num x.cnt x.mod).map (fun _ => ())))
  let d := match u.d with | some n => [bad ((L.dst n).map (fun _ => ()))] | none => []
  let l := match u.link with
    | some n => [if n + 3 ≤ L.g.regLimit L.tid then none else some (if L.g.regLimit L.tid ≤ n then (n : Int) else L.g.regLimit L.tid)]
    | none => []
  (srcs ++ d ++ l).findSome? id

/-- An indexed pair's lower number comes out odd (R121, R126). (DEDUCED, log entry 14.) -/
def oddPair (L : Lane) (u : Uses) : Bool := u.pairs.any (fun p => L.th.indexed p.1 p.2 % 2 != 0)

/-- A source field's registers are empty, in the thread that supplies them (R128, R263). -/
def vEmpty (L : Lane) (x : VUse) : Bool :=
  match L.supply x.num x.cnt x.mod with
  | .ok (u, r) => (List.range x.cnt).any (fun k => u.isEmpty (r + k))
  | .error _ => false

def sEmpty (L : Lane) (n cnt : Nat) : Bool := (List.range cnt).any (fun k => L.g.sEmpty.contains (n + k))

/-- Step 9 of R254: an empty source whose empty-read bit is 1. -/
def emptyTrap (L : Lane) (u : Uses) : Bool :=
  u.v.any (fun x => x.trap && L.vEmpty x) || u.s.any (fun x => x.2.2 && L.sEmpty x.1 x.2.1)
    || u.x.any (fun x => x.2 && L.g.tileEmpty x.1)

/-- The thread waits on an empty source or destination (R128, R129). -/
def emptyWait (L : Lane) (u : Uses) : Bool :=
  u.v.any (fun x => L.vEmpty x) || u.s.any (fun x => L.sEmpty x.1 x.2.1)
    || u.x.any (fun x => L.g.tileEmpty x.1)
    || (match u.d with
        | some n => (List.range n).any (fun k => L.th.isEmpty (L.dstReg n + k))
        | none => false)
    || (match u.link with
        | some n => (List.range 3).any (fun k => L.th.isEmpty (n + k))
        | none => false)
    || (match u.xd with | some x => L.g.tileEmpty x | none => false)

/-- The thread is active (R255); a 64-bit form with IMM = 1 has no guard (R259). -/
def active (L : Lane) : Bool :=
  if L.o.form == .w64 && L.o.imm then true
  else
    let g0 := L.th.pred L.o.pg0.toNat != L.o.n0
    let g1 := L.th.pred L.o.pg1.toNat != L.o.n1
    match L.o.gm.toNat with
    | 0 => true
    | 1 => g0
    | 2 => g0 && g1
    | _ => g0 || g1

end Lane

end Sys2Proof.Machine
end

