-- ==== Sys2Proof/Machine/Spad.lean ====
section
/-! DEFINITION. The scratchpad (04_core_store.md R73, R74, R77, R78), sync words with their hidden state
(06_engines_and_sync_words.md R112 to R116), barriers (10_execution_model.md R189, R191) and stage boards
(11_staged_loops.md R198 to R206): queries and single accesses at a slice. -/

namespace Sys2Proof.Machine

/-! ## Addresses and bytes -/

/-- The core and offset that a scratchpad address names for an accessing core (R73); none: bits [31:24] are not zero. -/
def spadAt (c : Nat) (sa : Word) : Option (Nat × Nat) :=
  if (sa.extractLsb' 24 8) != 0 then none
  else
    let off := (sa.extractLsb' 0 19).toNat
    if sa.getLsbD 23 then some (c, off) else some (c / 16 * 16 + (sa.extractLsb' 19 4).toNat, off)

/-- n bytes at an offset lie wholly within one allocation of a context (R74). -/
def Core.covers (k : Core) (ctx off n : Nat) : Bool :=
  k.allocs.any (fun a => a.2.ctx == ctx && a.2.base ≤ off && off + n ≤ a.2.base + a.2.size)

/-- The checks of R285 and R300 on an access of n bytes aligned to `al`, in their order. -/
def State.spadCheck (s : State) (c ctx : Nat) (sa : Word) (al n : Nat) : Option (BitVec 16) :=
  match spadAt c sa with
  | none => some 0x09
  | some (k, off) =>
    if sa.toNat % al != 0 then some 0x0A
    else if (s.core k).covers ctx off n then none
    else some 0x09

/-- The way that holds an offset (R73). -/
def wayOf (off : Nat) : Nat := 15 - off / 32768

/-- A scratchpad byte: written, or 0 in a way that was zeroed when it joined (R78); none: undefined (R9). -/
def Core.spadByte (k : Core) (off : Nat) : Option Byte :=
  match tfind k.spad off with
  | some b => some b
  | none => if k.zeroed.contains (wayOf off) then some 0 else none

/-- A read of n bytes of a core's scratchpad; an undefined byte is a free value. (DESIGN CHOICE, log entry 2.) -/
def State.spadRead (s : State) (k off : Nat) : Nat → List Byte × State
  | 0 => ([], s)
  | n + 1 =>
    let (b, s1) :=
      match (s.core k).spadByte off with
      | some b => (b, s)
      | none => (Config.freeByte s.free, { s with free := s.free + 1 })
    let (bs, s2) := s1.spadRead k (off + 1) n
    (b :: bs, s2)

def spadPut (t : Tbl Byte) (off : Nat) : List Byte → Tbl Byte
  | [] => t
  | b :: bs => spadPut (tset t off b) (off + 1) bs

/-- Bytes written to a core's scratchpad. -/
def State.spadWrite (s : State) (k off : Nat) (bs : List Byte) : State :=
  s.modCore k (fun x => { x with spad := spadPut x.spad off bs })

/-- The core and offset pieces of n bytes from a scratchpad address: one core's offsets end at 0x7FFFF (R73). -/
def spadPieces (sa n : Nat) : List (Nat × Nat) :=
  let first := min n (0x80000 - sa % 0x80000)
  if first = n then [(sa, n)] else [(sa, first), (sa + first, n - first)]

/-- A read and a write at an address that has passed its checks. -/
def State.spadLoad (s : State) (c : Nat) (sa : Word) (n : Nat) : List Byte × State :=
  match spadAt c sa with
  | some (k, off) => s.spadRead k off n
  | none => (List.replicate n 0, s)
def State.spadStore (s : State) (c : Nat) (sa : Word) (bs : List Byte) : State :=
  match spadAt c sa with
  | some (k, off) => s.spadWrite k off bs
  | none => s

/-! ## Sync words -/

/-- T of the word at an offset (R115): its entry's, or the floor. -/
def Core.timeOf (k : Core) (off : Nat) : Dword := tget k.tFloor k.tTab off

/-- The entry of least T. -/
def leastT : Tbl Dword → Option (Nat × Dword)
  | [] => none
  | e :: t =>
    match leastT t with
    | none => some e
    | some f => if e.2.toNat ≤ f.2.toNat then some e else some f

/-- A delivery or an arm raises the word's T to at least jt, making an entry for it (R113, R115). -/
def Core.raiseT (k : Core) (off : Nat) (jt : Dword) : Core :=
  match tfind k.tTab off with
  | some t => { k with tTab := tset k.tTab off (maxD t jt) }
  | none =>
    let k1 :=
      if k.tTab.length < 256 then k
      else match leastT k.tTab with
        | some (o, t) => { k with tTab := tdel k.tTab o, tFloor := maxD k.tFloor t }
        | none => k
    { k1 with tTab := tset k1.tTab off (maxD k1.tFloor jt) }

/-- A sync word's fields (R112). -/
def genOf (w : Dword) : BitVec 16 := w.extractLsb' 48 16
def targetOf (w : Dword) : Nat := (w.extractLsb' 24 24).toNat
def countOf (w : Dword) : Nat := (w.extractLsb' 0 24).toNat
def syncWord (gen : BitVec 16) (target count : Nat) : Dword :=
  gen ++ (BitVec.ofNat 24 target ++ BitVec.ofNat 24 count)

/-- n bytes counted into a sync word (R113). -/
def countInto (w : Dword) (n : Nat) : Dword :=
  let sum := countOf w + n
  let t := targetOf w
  if t = 0 then syncWord (genOf w) 0 (min sum 0xFFFFFF)
  else syncWord (genOf w + BitVec.ofNat 16 (sum / t)) t (sum % t)

/-- The 8 bytes of a sync word at a core's offset. -/
def State.syncRead (s : State) (k off : Nat) : Dword × State :=
  let (bs, s1) := s.spadRead k off 8
  (BitVec.ofNat 64 (leNat bs), s1)

/-- The word at a scratchpad address lies in an allocation of a context (R74, R80). -/
def State.spadOwned (s : State) (c ctx : Nat) (sa : Word) (n : Nat) : Bool :=
  match spadAt c sa with
  | some (k, off) => (s.core k).covers ctx off n
  | none => false

/-- A delivery of n bytes to the sync word at a scratchpad address, as one access (R113). -/
def State.deliver (s : State) (c : Nat) (sa : Word) (n : Nat) (jt : Dword) : State :=
  match spadAt c sa with
  | none => s
  | some (k, off) =>
    let (w, s1) := s.syncRead k off
    (s1.spadWrite k off (leBytes 8 (countInto w n).toNat)).modCore k (·.raiseT off jt)

/-- The word is marked failed (R111, R114). (DEDUCED, log entry 74.) -/
def State.markFailed (s : State) (c : Nat) (sa : Word) : State :=
  match spadAt c sa with
  | none => s
  | some (k, off) => s.modCore k (fun x => { x with failed := if x.failed.contains off then x.failed else off :: x.failed })

/-- The core's ct raised to at least w (R82). -/
def State.raiseCt (s : State) (c : Nat) (w : Dword) : State := s.modCore c (fun k => { k with ct := maxD k.ct w })

/-- The cause of the failed job that a failed word stands for (R114): the status of the latest ended job with an error
that named it. The hidden bit is one bit, so the cause is found among the cluster's recent statuses. (DEDUCED, log entry 74.) -/
def State.failCause (s : State) (k off : Nat) : Option (BitVec 16) :=
  if (s.core k).failed.contains off then some (tget 0x8000 ((s.cluster (clusterOf k)).failures) (k * 0x80000 + off)) else none

/-! ## Barriers -/

/-- Entry n of a group's level table (R176). -/
def Rec.level (r : Rec) (n : Nat) : Level := r.levels.getD n { extent := 0, used := false, scope := 0, domain := 0 }

/-- A level's size in threads (R177). -/
def Rec.sizeOf (r : Rec) : Nat → Nat
  | 0 => 1
  | n + 1 => r.sizeOf n * (r.level (n + 1)).extent

/-- The highest level of the group domain or below, and the highest level in use (R177). -/
def Rec.topGroup (r : Rec) : Nat :=
  ((List.range 8).filter (fun n => (r.level n).used && (r.level n).domain ≤ 2)).foldl max 0
def Rec.top (r : Rec) : Nat := ((List.range 8).filter (fun n => (r.level n).used)).foldl max 0

/-- Threads of a group, and groups of a launch (R177). -/
def Rec.threads (r : Rec) : Nat := r.sizeOf r.topGroup
def Rec.groups (r : Rec) : Nat := r.sizeOf r.top / r.threads

/-- A thread's unit at a level: its number in the launch over the level's size. -/
def Group.unit (g : Group) (n t : Nat) : Nat := (g.index * g.record.threads + t) / g.record.sizeOf n

/-- The level's barrier is kept by the hub: its domain lies above the group's (R191). -/
def Rec.hubLevel (r : Rec) (n : Nat) : Bool := 2 < (r.level n).domain

/-- The key of a unit's barrier in its table. -/
def Group.barKey (g : Group) (n t : Nat) : Nat :=
  if g.record.hubLevel n then (g.launch * 8 + n) * 0x100000000 + g.unit n t else n * 2048 + g.unit n t % 2048

def Barrier.empty : Barrier := { phase := 0, arrived := [] }

/-- The barrier of a thread's level-n unit (R189). -/
def State.barrier (s : State) (g : Group) (n t : Nat) : Barrier :=
  tget Barrier.empty (if g.record.hubLevel n then s.hub.bars else g.bars) (g.barKey n t)

/-- The threads of a group that have arrived in the phase of a thread's level-n unit (R189). For a level above the group's
domain the group keeps its own record, which holds for the phase it names (R191). -/
def State.arrivals (s : State) (g : Group) (n t : Nat) : List Nat :=
  let b := s.barrier g n t
  if g.record.hubLevel n then
    let own := tget Barrier.empty g.bars (n * 2048)
    if own.phase == b.phase then own.arrived else []
  else b.arrived

/-! ## Stage boards -/

/-- The board of the cluster that a logical board names for a group (R197). -/
def State.board? (s : State) (c : Nat) (g : Group) (b : Nat) : Option (Nat × Board) :=
  g.boards[b]?.map (fun p => (p, tget Board.reset (s.cluster (clusterOf c)).boards p))

def State.setBoard (s : State) (c p : Nat) (x : Board) : State :=
  s.modCluster (clusterOf c) (fun k => { k with boards := tset k.boards p x })

/-- SPAN (R198). -/
def Board.span (b : Board) : Nat := (b.next - b.oldest).toNat

/-- The iteration is retired: below OLDEST, or its slot's counter is 255 (R198, R205). -/
def Board.slot (b : Board) (n : Word) : BSlot := tget { iter := 0, counter := 255, time := 0 } b.slots (n.toNat % 64)
def Board.retired (b : Board) (n : Word) : Bool :=
  sless n b.oldest || (b.slot n).iter != n || (b.slot n).counter == 255

/-- The counter that STRD.ctr and WAITL see of an iteration; a retired or absent one counts as 255 (R204, R207). -/
def Board.counterOf (b : Board) (n : Word) : Nat := if b.retired n then 255 else (b.slot n).counter

/-- The predecessor of n has passed stage k, is retired or does not exist (R203, R204). -/
def Board.passed (b : Board) (n : Word) (k : Nat) : Bool := b.retired (n - 1) || k < b.counterOf (n - 1)

/-- The T that a WAITL of iteration n acquires (R206): the open predecessor's, or TRET; the first iteration has none. -/
def Board.predTime (b : Board) (n : Word) : Dword :=
  if n == 0 && !b.wrapped then 0 else if b.retired (n - 1) then b.tret else (b.slot (n - 1)).time

/-- OLDEST after retirements: the lowest number that is neither retired nor equal to NEXT (R205). -/
def Board.advanceFrom (b : Board) : Nat → Word → Word
  | 0, n => n
  | fuel + 1, n => if n == b.next then n else if (b.slot n).iter == n && (b.slot n).counter != 255 then n else b.advanceFrom fuel (n + 1)

/-- An iteration is retired with its T raised to ct (R205, R206). -/
def Board.retire (b : Board) (n : Word) (ct : Dword) : Board :=
  let t := maxD (b.slot n).time ct
  let b1 := { b with slots := tset b.slots (n.toNat % 64) { iter := n, counter := 255, time := t }, tret := maxD b.tret t }
  { b1 with oldest := b1.advanceFrom 65 b1.oldest }

end Sys2Proof.Machine
end

