-- ==== Sys2Proof/Machine/Issue.lean ====
section
/-! DEFINITION. When a thread may issue (10_execution_model.md R183, 13_traps_faults_preemption.md R237) and the shared
frame of every issue: the checks of 14_encoding_and_assembly.md R254 from step 7's tile grant on, in its order, the
effect on the active threads that pass, and the move to the next instruction (R180). -/

namespace Sys2Proof.Machine

/-! ## Queries on what a thread or core has under way -/

/-- An access is still to be performed or acknowledged. -/
def Acc.open (a : Acc) : Bool := a.phase != .held

/-- PF and LEASE complete at issue and order nothing (R292, R293). -/
def Acc.quiet (a : Acc) : Bool := match a.kind with | .prefetch | .lease _ => true | _ => false

/-- The thread's accesses not yet performed (R95, R290). -/
def State.accsOf (s : State) (c g t : Nat) : List Acc :=
  (s.core c).accs.filter (fun a => a.slot == g && a.tid == t && a.open && !a.quiet)

def Acc.isStore (a : Acc) : Bool := a.kind == .store

/-- A store of the thread is not acknowledged (R106, R190). -/
def State.storesOpen (s : State) (c g t : Nat) : Bool := (s.accsOf c g t).any (·.isStore)

/-- An access of the thread waits for translation (R237). -/
def State.translating (s : State) (c g t : Nat) : Bool :=
  (s.core c).accs.any (fun a => a.slot == g && a.tid == t && (a.phase == .logged || a.phase == .walk))

/-- Late work that is a scratchpad access. -/
def LateWork.isSpad : LateWork → Bool | .spad _ => true | _ => false

/-- A scratchpad access of the thread is still to be performed (R99). -/
def State.lateOpen (s : State) (c g t : Nat) : Bool := (s.core c).late.any (fun e => e.slot == g && e.tid == t && e.work.isSpad)

/-- Instructions whose effect follows the thread's earlier scratchpad accesses: scratchpad accesses themselves, and those that R100, R166,
R300, R301 and R362 name. (DESIGN CHOICE, log entry 81.) -/
def afterSpad : Instr → Bool
  | .lds _ | .sts _ | .atoms _ | .cass _ | .swarm _ | .swait _ | .swpoll _ | .dq _ | .accst _ | .mmaDescriptor _ | .fence _ | .fenceE _
  | .bara _ | .bar _ | .stageAdd _ | .stageSet _ | .stend _ | .cpy _ | .cpyFill _ | .gth _ | .coll _ | .job _ | .wqe _ => true
  | _ => false

/-- Instructions whose work the schedule may put off. -/
def mayBeLate : Instr → Bool
  | .lds _ | .sts _ | .atoms _ | .cass _ => true
  | _ => false

/-- An access that the thread waits for has parked (R45), or its fetch has (R364). -/
def State.parked (s : State) (c g t : Nat) : Bool := (s.parkedOf c g).contains t

/-- The coalescer holds an access for want of entries, so later memory instructions wait behind it (R72, R236). -/
def State.coalescerBusy (s : State) (c : Nat) : Bool :=
  (s.core c).accs.any (fun a => a.phase == .ready || (a.phase == .logged && a.log.isNone))

/-- A COH access that has been issued and is not complete (R89); one that is held, or to be replayed, keeps no other (R237). (DEDUCED, log
entry 25.) -/
def Acc.cohOpen (a : Acc) : Bool :=
  a.state == 0 && !a.quiet && a.kind != .const &&
    (match a.phase with | .parked | .held => false | .logged | .walk => !a.replay | _ => true)

def State.cohOpen (s : State) (c : Nat) : Bool := (s.core c).accs.any Acc.cohOpen

/-- A write-back of the core is on its way or unacknowledged (R95). -/
def State.writeBacksOpen (s : State) (c : Nat) : Bool :=
  s.net.any (fun e =>
    match e.2 with
    | .writeBack k _ _ _ _ => k == c
    | .ack k id _ _ _ _ _ _ _ => k == c && id == 0
    | _ => false)
  || s.vaults.any (fun v => v.2.excls.any (fun x => x.held.any (fun m =>
      match m.2 with | .writeBack k _ _ _ _ => k == c | _ => false)))

/-- A walk that a thread's own fetch or constant read waits for (R261, R364). -/
def State.fetching (s : State) (c g t : Nat) : Bool :=
  let d := s.die (dieOf c)
  let here : Dword → Bool := fun pc => (s.thread? c g t).any (fun th => th.pc == pc)
  let mine : Walk → Bool := fun w => w.waiters.any (fun q =>
    match q with
    | .fetch c1 g1 t1 pc _ _ => c1 == c && g1 == g && t1 == t && here pc
    | _ => false)
  (d.queue ++ d.active ++ d.parked).any mine
    || s.net.any (fun e => match e.2 with | .tlbMiss _ w => mine w | _ => false)

/-- A ticket is among the 256 that a cluster accepted last (R108). -/
def Cluster.recent (k : Cluster) (t : BitVec 16) : Bool := 1 ≤ (k.ticket - t).toNat && (k.ticket - t).toNat ≤ 256

/-- A ticket's status (R108). -/
def State.ticketStatus (s : State) (k : Nat) (ctx : Nat) (t : BitVec 16) : BitVec 16 :=
  if !(s.cluster k).recent t then 0xFFFF
  else match (s.cluster k).jobs.find? (fun j => j.ticket == t) with
  | some j => if j.ctx != ctx then 0xFFFF else if j.started then 2 else 1
  | none =>
    match (s.cluster k).past.find? (fun e => e.ticket == t && e.ctx == ctx) with
    | some e => e.status
    | none => 0xFFFF

/-- The time that JWAIT acquires with a ticket (R116, R298). (DEDUCED, log entry 24.) -/
def State.ticketTime (s : State) (k : Nat) (ctx : Nat) (t : BitVec 16) : Dword :=
  match (s.cluster k).past.find? (fun e => e.ticket == t && e.ctx == ctx) with
  | some e => e.time
  | none => 0

/-- The cores that run for a context: those with a group of it, and those that have run one of a launch that is not complete (R98). -/
def State.coresFor (s : State) (ctx : Nat) : List Nat :=
  let ran := s.hub.launches.flatMap (fun l => if l.2.ctx == ctx then l.2.ran else [])
  (s.cores.filter (fun k => ran.contains k.1 || k.2.slots.any (fun g => g.2.ctx == ctx))).map (·.1)

/-- A footprint reaches into a region (R33). -/
def Foot.inRegion (f : Foot) (n : Nat) : Bool := !f.sp && f.base < (n + 1) * 2 ^ 53 && n * 2 ^ 53 < f.base + f.size

/-- A job's walk has failed and parks (R45). -/
def State.jobParked (s : State) (k : Nat) (j : Job) : Bool :=
  (s.die (k / 8)).parked.any (fun w => w.waiters.any (fun q =>
    match q with | .job k1 t => k1 == k && t == j.ticket | _ => false))

/-- A job has begun a unit whose lines it has asked for, and it may touch a region (R53, R98). (DEDUCED, log entry 39.) -/
def State.unitOpen (s : State) (ctx n : Nat) : Bool :=
  s.clusters.any (fun k => k.2.jobs.any (fun j =>
    j.ctx == ctx && j.fault.isNone && !j.lines.isEmpty && j.feet.any (·.inRegion n) && !s.jobParked k.1 j))

/-- What an RSTATE of a context waits for before it changes the region (R98): accesses to the region already issued, those in a walk
among them but not those that are parked (R101), units of jobs begun, and write-backs and exclusive lines under way of the cores that run
for the context. (DEDUCED, log entry 39.) -/
def State.rstateBusy (s : State) (ctx : Nat) : Bool :=
  match tfind s.hub.contexts ctx with
  | some x =>
    match x.moving with
    | some (n, since) =>
      s.unitOpen ctx n || (s.coresFor ctx).any (fun k =>
        (s.core k).accs.any (fun a =>
          (a.va.extractLsb' 53 4).toNat == n && (tfind (s.core k).slots a.slot).any (fun g => g.ctx == ctx) && a.inst < since
            && (match a.phase with | .parked | .held => false | _ => true))
        || s.writeBacksOpen k
        || s.net.any (fun m =>
            match m.2 with
            | .exclGrant c _ _ _ _ | .exclReturn c _ _ _ _ => c == k
            | _ => false))
    | none => false
  | none => false

/-- An RSTATE of the context is under way (R98: they are serialised). -/
def State.moving (s : State) (ctx : Nat) : Bool := (tfind s.hub.contexts ctx).any (fun x => x.moving.isSome)

/-- A group issues nothing, and no job of it is accepted, while it is being saved or its context is held for its quota (R240, R244). -/
def State.frozen (s : State) (g : Group) : Bool := g.saving || (tfind s.hub.contexts g.ctx).any (·.held)

/-- A group may issue: it is not stopped or frozen, nor on a cluster that switches its clock (R235, R240, R244, R155). -/
def State.mayIssue (s : State) (c : Nat) (g : Group) : Bool :=
  g.stopped.isNone && !s.frozen g && (s.cluster (clusterOf c)).switch.isNone

/-- The group has a job not complete or not yet accepted (R192, R290). -/
def State.jobsOpen (s : State) (c g : Nat) : Bool :=
  (s.cluster (clusterOf c)).jobs.any (fun j => j.core == c && j.slot == g)
    || (s.cluster (clusterOf c)).offers.any (fun j => j.core == c && j.slot == g)

/-- The thread's offers of jobs (R297). -/
def State.offering (s : State) (c g t : Nat) : Bool :=
  (s.cluster (clusterOf c)).offers.any (fun j => j.core == c && j.slot == g && j.tid == t)

/-- A special-function operation of the thread is queued (R158, R320). -/
def State.sfuOpen (s : State) (c g t : Nat) : Bool :=
  (s.core c).sfuQ.any (fun q => q.2.any (fun w => w.any (fun x => x.slot == g && x.tid == t)))

/-! ## Addresses -/

/-- The offset of R279. -/
def Lane.offset (L : Lane) : Dword :=
  if L.o.imm then (if L.o.form == .w64 then (Lane.imm20 L.o).signExtend 64 else L.o.w1.signExtend 64) else 0

/-- A memory address (R279). -/
def Lane.va (L : Lane) : Dword :=
  (if L.o.m.getLsbD 0 then L.g.sget L.fA else L.source true L.fA L.moda) + L.offset

/-- A scratchpad or constant address (R279). -/
def Lane.sa (L : Lane) : Word :=
  lowWord ((if L.o.m.getLsbD 0 then L.g.sget L.fA else L.source false L.fA L.moda) + L.offset)

/-- A sync word's or record's address: A alone under AS (R300, R302). (DEDUCED, log entry 17.) -/
def Lane.saNoOff (L : Lane) : Word :=
  if L.o.m.getLsbD 0 then lowWord (L.g.sget L.fA) else lowWord (L.source false L.fA L.moda)

/-- The address of an atomic (R287): a pair, or a word for the scratchpad. -/
def Lane.atomVa (L : Lane) : Dword := L.source true L.fA L.moda
def Lane.atomSa (L : Lane) : Word := lowWord (L.source false L.fA L.moda)

/-- The bytes of an access (R279). -/
def accessBytes (o : Op) : Nat := (accessSize o.fn.toNat).getD 4 * 2 ^ (o.m.toNat / 2)

/-- The target of a transfer at a fixed offset (R266), and of an indirect one (R367). -/
def branchTarget (o : Op) (pc : Dword) : Dword := pc + 4 * (o.b ++ (o.a ++ o.d)).signExtend 64
def Lane.pairTarget (L : Lane) : Dword := L.source true L.fA 0

/-- What a lane's instruction uses. BCAST reads its A from the lane that B names (R323): the register that is tested and
checked is that thread's, as for a modifier that broadcasts (R128, R263, R311); its own MODA has no effect. (DEDUCED, log entry 33.) -/
def Lane.uses (L : Lane) (i : Instr) : Uses :=
  match i, i.shape with
  | .bcast o, some (sh, _) =>
    let b := (lowWord (L.srcB sh 1 false)).toNat
    let lane := (if o.m.getLsbD 1 then b * ww / 32 else b) % ww
    let u := usesOf (.bcast { o with w1 := o.w1 &&& ~~~0xFFF00#32 })
    { u with v := ⟨o.a.toNat, if sh.wide o then 2 else 1, 1856 + lane, o.fa⟩ :: u.v.drop 1 }
  | _, _ => usesOf i

/-! ## Waiting at issue -/

/-- The constant that an instruction reads at issue (R261). -/
def Lane.constUse (L : Lane) (i : Instr) : Option Dword :=
  match i.shape with
  | some (sh, o) => if sh.isConst o then some L.constAddr else none
  | none => none

/-- What the read of that constant gives (R261); a privileged instruction may use any page (R38, R253). -/
def Lane.constRead (L : Lane) (i : Instr) : Option Look :=
  match i.shape with
  | some (sh, o) => if sh.isConst o then some (L.constLook (sh.mUse == .privCb) L.constAddr 4) else none
  | none => none

/-- A fault of that read is a fault of the instruction (R261, R237), found at issue. (DEDUCED, log entry 69.) -/
def Lane.constTrap (L : Lane) (i : Instr) : Option Trap :=
  match L.constRead i with
  | some (.bad cause) => some { cause := cause, va := L.constAddr }
  | _ => none

/-- The address that a RET or an ERET moves its thread to, with every bit that must be zero (R369, R379). -/
def Lane.linkPc (L : Lane) : Dword :=
  let r := L.words L.fA 3 0
  pairOf (r.getD 0 0) (r.getD 1 0)
def Lane.eretPc (L : Lane) : Dword := pairOf (tget 0 L.th.t 1) (tget 0 L.th.t 2)

/-- The target of a transfer, which is fetched at the transfer (R364). -/
def Lane.targetUse (L : Lane) (i : Instr) : Option Dword :=
  match i with
  | .bra o | .call o => some (branchTarget o L.th.pc)
  | .brx _ | .callx _ => some L.pairTarget
  | .ret _ => some L.linkPc
  | .eret _ => if L.th.handler && !L.th.tEmpty.contains 1 && !L.th.tEmpty.contains 2 then some L.eretPc else none
  | _ => none

/-- An address whose translation is not cached and is to be walked. -/
def Lane.uncached (L : Lane) (va : Dword) : Bool :=
  (regionFault (L.s.regionFor L.g.ctx va) L.c va).isNone && (L.s.tlbLookup L.c L.g.ctx va).isNone

/-- The instructions that wait while an access of the thread waits for translation (R237). -/
def afterTranslation (opc : BitVec 10) : Bool :=
  let n := opc.toNat
  (0x200 ≤ n && n ≤ 0x20F) || (0x280 ≤ n && n ≤ 0x28B) || n == 0x2C2 || (0x307 ≤ n && n ≤ 0x30E)

/-- The thread's step count, where its instruction is a convoy step (R59). -/
def Lane.steps (L : Lane) (i : Instr) : Nat :=
  match i with
  | .ld o => if o.h.toNat = 3 && !(o.form == .w64 && o.imm) then 1 else 0
  | .cvstep _ =>
    match i.shape with
    | some (sh, _) => let n := (L.srcB sh 0 false).toNat; if n ≤ 65535 then n else 0
    | none => 0
  | _ => 0

/-- H as an instruction reads it: 0 in the 64-bit form with IMM = 1 (R259). -/
def hintOf (o : Op) : Nat := if o.form == .w64 && o.imm then 0 else if o.h.toNat ≤ 5 then o.h.toNat else 0

/-- The registers an MMA of the register form reads for one operand, by the signer's own format word (R163). -/
def operandRegs (fmt : Nat) (scaled : Bool) : Nat :=
  fmtBits fmt + (if fmt == 12 || fmt == 13 || (4 ≤ fmt && fmt ≤ 11 && !scaled) then 1 else 0)

def Lane.formatWord (L : Lane) : Word := (L.words L.fB 1 0).getD 0 0

/-- The A row's and B column's registers of a signer (R163). -/
def Lane.mmaUses (L : Lane) : List VUse :=
  let f := L.formatWord
  let a := (f.extractLsb' 0 4).toNat
  let b := (f.extractLsb' 4 4).toNat
  (if a < 14 then [⟨(L.o.w1.extractLsb' 0 8).toNat, operandRegs a (f.getLsbD 8), 0, L.o.w1.getLsbD 28⟩] else [])
  ++ (if b < 14 then [⟨(L.o.w1.extractLsb' 20 8).toNat, operandRegs b (f.getLsbD 9), 0, L.o.w1.getLsbD 29⟩] else [])

def Join.empty : Join := { count := 0, first := 0, signed := 0, sig := none, signers := [] }

/-- A thread's rank in a join set (R170). -/
def Join.rank (j : Join) (t : Nat) : Option Nat :=
  if j.first ≤ t ∧ t < j.first + j.count then some (t - j.first) else none

/-- The signature of rank r would complete SIGNED (R172). -/
def Join.completes (j : Join) (r : Nat) : Bool :=
  (List.range j.count).all (fun q => q == r || j.signed.getLsbD q)

/-- The tile, form, FN and M that a signature carries (R171). -/
def sigOf (o : Op) : List Nat := [o.d.toNat, o.fn.toNat, o.m.toNat]

/-- The 16-bit phase operand of BARW. -/
def Lane.barwPhase (L : Lane) (sh : Shape) : BitVec 16 := (L.srcB sh 0 false).extractLsb' 0 16

/-- Steps 8 and 9 of R254 for an active thread, and between them the class of the numbers that its index registers form (R121). (DEDUCED,
log entries 14 and 19.) -/
def Lane.commonTrap (L : Lane) (u : Uses) : Option Trap :=
  match L.badReg u with
  | some n => some { cause := 0x06, info := BitVec.ofInt 32 n }
  | none => if L.oddPair u || L.emptyTrap u then some { cause := 0x01 } else none

/-- The instruction traps for its whole wave before any operand is looked at: the supervisor check of step 5, or the tile grant of step
7 (R254). -/
def Lane.earlyTrap (L : Lane) (i : Instr) : Bool :=
  (opcPrivileged i.opc && !L.s.supervisor L.g.ctx) || (tilesOf i).any (fun x => L.g.record.tiles ≤ x)

/-- The slab of its constant, or of the target that it is to fetch, is about to change its mode (R15). -/
def Lane.readHeld (L : Lane) (i : Instr) : Bool :=
  L.constRead i == some .held
    || (match L.targetUse i with | some va => L.s.look L.c L.g.ctx va L.th.handler == .held | none => false)

/-- A translation that an instruction needs before it issues is not cached: a constant's, once nothing before it in the order of R254
traps, or a target's once the registers that give it are there (R261, R364). With the kind of access: 0 read, 3 fetch. (DEDUCED, log entry
69.) -/
def Lane.missing (L : Lane) (i : Instr) : Option (Dword × Nat) :=
  match L.constUse i with
  | some va => if !L.earlyTrap i && (L.commonTrap (usesOf i)).isNone && L.uncached va then some (va, 0) else none
  | none =>
    match L.targetUse i with
    | some va =>
      if !addrOk va || (L.commonTrap (L.uses i)).isSome || L.emptyWait (L.uses i) then none
      else if L.uncached va then some (va, 3) else none
    | none => none

/-- The lane of another thread of the group, in the same wave. -/
def Lane.of (L : Lane) (t : Nat) : Option Lane := L.g.threads[t]?.map (fun th => { L with tid := t, th := th })

/-- The active lanes of the wave that pass steps 8 and 9 and begin the instruction now: one whose wait in it has ended has had its
effect. -/
def Lane.takers (L : Lane) (i : Instr) : List Lane :=
  (L.wave.filterMap L.of).filter (fun x => x.active && x.th.wait.isNone && (x.commonTrap (x.uses i)).isNone)

/-- The one at the lowest home lane (R256, R281). -/
def Lane.leader (L : Lane) (i : Instr) : Lane :=
  (L.takers i).foldl (fun m x => if homeLane x.tid < homeLane m.tid then x else m) L

/-- The blocks that a home wave was placed with (R124). -/
def Group.launchBlocks (g : Group) : Nat := (g.record.regs + 15) / 16

/-- RBLK's k, from the lowest active home lane (R318). -/
def Lane.count (L : Lane) (i : Instr) : Nat :=
  match i.shape with
  | some (sh, _) => (lowWord ((L.leader i).srcB sh 0 false)).toNat
  | none => 0

/-- CLKRAT's operand, from the lowest active home lane (R386). -/
def Lane.clkWord (L : Lane) (i : Instr) : Nat := L.count i

/-- Blocks held by a thread's home wave (R124). -/
def Lane.held (L : Lane) : Nat := L.g.homes.getD (homeWave L.tid) 0

/-- A register of the blocks that a release of k takes from a home wave is empty in one of its threads (R124). -/
def Group.pendingIn (g : Group) (hw k : Nat) : Bool :=
  let h := g.homes.getD hw 0
  (List.range ww).any (fun l =>
    match g.threads[hw * ww + l]? with
    | some th => (th.vEmpty ++ th.newly).any (fun r => 16 * (h - k) ≤ r && r < 16 * h)
    | none => false)

/-- A launch that HALT or a thermal trip ends (R388, R23). (DEDUCED, log entry 55.) -/
def Launch.halted (l : Launch) : Bool :=
  match l.stop with
  | some v => v.extractLsb' 0 16 == 0x8004#16 || v.extractLsb' 0 16 == 0x8005#16
  | none => false

/-- A group of such a launch. -/
def State.haltedGroup (s : State) (c g : Nat) : Bool :=
  match s.group? c g with
  | some x => (tfind s.hub.launches x.launch).any Launch.halted
  | none => false

/-- Fields for a question that no instruction's fields bear on. -/
def blankOp : Op :=
  { form := .w64, fn := 0, d := 0, a := 0, b := 0, pg0 := 0, n0 := false, pg1 := 0, n1 := false, gm := 0, h := 0, fa := false, fb := false
    yld := false, imm := false, m := 0, dx := false, dxi := 0, w1 := 0, w2 := 0 }

/-- Whether what a begun instruction waits for has not come about (R183). (DEDUCED, log entry 30.) -/
def Lane.stillWaiting (L : Lane) (w : Wait) : Bool :=
  if w.ended then false
  else
    match w.kind with
    | .phase _ n p => (L.s.barrier L.g n L.tid).phase == p || !(L.s.accsOf L.c L.slot L.tid).isEmpty
    | .swait addr gen =>
      match spadAt L.c addr with
      | some (k, off) => (L.s.core k).covers L.g.ctx off 8 && genOf (L.s.syncRead k off).1 == gen && (L.s.failCause k off).isNone
      | none => false
    | .stbeg b =>
      match L.s.board? L.c L.g b with
      | some (_, x) => x.waiters.head? != some (L.c, L.slot, L.tid) || x.w ≤ x.span
      | none => false
    | .waitl k =>
      match L.th.bind with
      | some (b, n) =>
        !(L.s.accsOf L.c L.slot L.tid).isEmpty
          || (match L.s.board? L.c L.g b with | some (_, x) => !x.passed n k | none => false)
      | none => false
    | .job => L.s.offering L.c L.slot L.tid
    | .release _ => L.s.writeBacksOpen L.c
    | .region => L.s.rstateBusy L.g.ctx
    | .waymask _ => (L.s.core L.c).flushing.any (fun k => (L.s.core L.c).target.getLsbD k)
    | .halt ctx => L.s.cores.any (fun k => k.2.slots.any (fun g => g.2.ctx == ctx && L.s.haltedGroup k.1 g.1))
    | .clock k => (L.s.cluster k).switch.isSome
    | .mbox n => L.s.slabBusy n
    | _ => true

/-- R171's checks of a signature. -/
def Lane.joinBad (L : Lane) (o : Op) : Bool :=
  let j := tget Join.empty L.g.j o.a.toNat
  (j.rank L.tid).isNone || (j.signed != 0 && j.sig != some (sigOf o))

/-- The plane array's queue of 8 is full (R173). -/
def Core.planeFull (k : Core) : Bool := 8 ≤ k.planeQ.length

/-- A signature waits at issue: on an empty operand register, or, as the last one, on its tile and the array's queue
(R357, R173). One that will trap does not. -/
def Lane.mmaHolds (L : Lane) (o : Op) : Bool :=
  let j := tget Join.empty L.g.j o.a.toNat
  let rows : Uses := { v := if o.fn = 0 then L.mmaUses else [] }
  if L.joinBad o || (L.badReg rows).isSome || L.emptyTrap rows then false
  else
    L.emptyWait rows ||
      (match j.rank L.tid with
       | some r => j.completes r && (L.g.tileEmpty o.d.toNat || (L.s.core L.c).planeFull)
       | none => false)

/-- The ways that take fills: cache ways that are not entering the scratchpad (R77, R78). -/
def Core.cacheWays (k : Core) : List Nat :=
  (List.range 16).filter (fun w => !k.mask.getLsbD w && !k.target.getLsbD w && !k.flushing.contains w)

/-- An atomic executes at home: by its scope, or for want of a cache way (R92, R93). -/
def Lane.atomAtHome (L : Lane) (o : Op) : Bool := 3 ≤ (o.w1.extractLsb' 20 3).toNat || (L.s.core L.c).cacheWays.isEmpty

/-- A memory instruction that needs a new walk waits at issue while its die's walk queue is full (R44); one that is misaligned traps
instead. -/
def Lane.walkHeld (L : Lane) (n : Nat) (write : Bool) (va : Dword) : Bool :=
  256 ≤ (L.s.die (dieOf L.c)).queue.length && va.toNat % n == 0
    && (regionFault (L.s.regionFor L.g.ctx va) L.c va).isNone
    && (match L.s.tlbLookup L.c L.g.ctx va with | none => true | some e => write && e.w && !e.d)

/-- Whether a thread's instruction waits at issue beyond the registers it uses (R183). Called for active threads. (DESIGN CHOICE, log entry
23.) -/
def Lane.holds (L : Lane) (i : Instr) : Bool :=
  match L.th.wait with
  | some w => L.stillWaiting w
  | none =>
    (afterTranslation i.opc && L.s.translating L.c L.slot L.tid)
    || (afterSpad i && L.s.lateOpen L.c L.slot L.tid && !(mayBeLate i && L.s.cur.late))
    || (match i with
      | .pf _ | .lease _ => L.s.coalescerBusy L.c
      | .ld o => L.s.coalescerBusy L.c || L.walkHeld (accessBytes o) false L.va
      | .ldc o => L.s.coalescerBusy L.c || L.walkHeld (accessBytes o) false (L.g.record.cbank + L.sa.setWidth 64)
      | .st o => L.s.coalescerBusy L.c || L.walkHeld (accessBytes o) true L.va ||
          ((L.s.regionFor L.g.ctx L.va).state == 0 && L.s.cohOpen L.c)
      | .atom o | .cas o =>
        L.s.coalescerBusy L.c || L.walkHeld 4 true L.atomVa
          || ((L.s.regionFor L.g.ctx L.atomVa).state == 0 && L.atomAtHome o && L.s.cohOpen L.c)
      | .fence _ => !(L.s.accsOf L.c L.slot L.tid).isEmpty
      | .fenceE _ => !(L.s.accsOf L.c L.slot L.tid).isEmpty || L.s.jobsOpen L.c L.slot
      | .syncr _ => !(L.s.accsOf L.c L.slot L.tid).isEmpty
      | .syncw _ | .wqe _ | .wqt _ | .stageAdd _ | .stageSet _ | .stend _ => L.s.storesOpen L.c L.slot L.tid
      | .exit _ => L.th.bind.isSome && (L.s.storesOpen L.c L.slot L.tid || L.s.lateOpen L.c L.slot L.tid)
      | .bara o => L.s.storesOpen L.c L.slot L.tid || (L.s.arrivals L.g o.a.toNat L.tid).contains L.tid
      | .bar o =>
        L.th.mark.isNone
          && (L.s.storesOpen L.c L.slot L.tid || (L.s.arrivals L.g o.a.toNat L.tid).contains L.tid)
      | .cpy _ | .cpyFill _ | .gth _ | .coll _ | .job _ => L.s.storesOpen L.c L.slot L.tid
      | .rstate _ => !(L.s.accsOf L.c L.slot L.tid).isEmpty || L.s.moving L.g.ctx
      | .jwait o =>
        let st := L.s.ticketStatus (clusterOf L.c) L.g.ctx ((L.source false o.a.toNat 0).extractLsb' 0 16)
        st == 1 || st == 2
      | .rcp _ | .rsq _ | .sqrt _ | .exp2 _ | .log2 _ | .sin _ | .cos _ | .tanh _ =>
        16 ≤ (tget [] (L.s.core L.c).sfuQ ((L.g.quad + homeWave L.tid) % 4)).length
      | .srdV32 o | .srdV64 o | .srdS o | .swrB o | .swrW o | .swrS o =>
        o.a.toNat == 4 && L.s.sfuOpen L.c L.slot L.tid
      | .mmaRegister o | .mmaDescriptor o => L.mmaHolds o
      | .rblkRel _ =>
        let k := L.count i
        k ≤ 16 && L.g.launchBlocks + k ≤ L.held && L.g.pendingIn (homeWave L.tid) k
      | .slabModeChange _ | .keyDraw _ | .keyLoadWrapped _ | .keyClear _ => !L.s.hub.slabWait.isEmpty
      | .clkrat _ => (L.s.cluster (L.clkWord i % 32)).switch.isSome
      | .eret _ => [0, 1, 2, 3, 9].any (fun r => L.th.tEmpty.contains r)
      | _ => false)

/-! ## The frame of an issue -/

/-- The lane of a thread of the wave under way. -/
def State.lane? (s : State) (o : Op) (wave : List Nat) (t : Nat) : Option Lane :=
  match s.group? s.cur.core s.cur.slot with
  | some g =>
    match g.threads[t]? with
    | some th => some { s := s, c := s.cur.core, slot := s.cur.slot, g := g, wave := wave, tid := t, th := th, o := o }
    | none => none
  | none => none

/-- A thread is ready to issue an instruction, as far as the uses given go: no convoy holds it, and it is inactive, or a common check
traps it, or nothing holds it (R183, R255). A thread in a begun wait looks only at what it waits for. -/
def Lane.readyOn (L : Lane) (i : Instr) (u : Uses) : Bool :=
  if L.th.wait.isSome then !L.holds i
  else if L.s.cvHeld L.c L.slot L.tid (L.steps i) then false
  else if !L.active then true
  else if (L.missing i).isSome then false
  else if (L.commonTrap (L.uses i)).isSome || L.earlyTrap i then true
  else !(L.emptyWait u || L.readHeld i || L.holds i)

def Lane.ready (L : Lane) (i : Instr) : Bool := L.readyOn i (L.uses i)

/-- A thread that does not wait by itself, whatever other lanes supply: one that does, on a register of its own lane, is in no issue wave,
and lends no value (R263, R311). (DEDUCED, log entry 33.) -/
def Lane.readyAlone (L : Lane) (i : Instr) : Bool :=
  let u := L.uses i
  L.readyOn i { u with v := u.v.filter (fun x => x.mod / 512 == 0 || 4 ≤ x.mod / 512 || L.sourceLane x.mod == some (homeLane L.tid)) }

/-- The threads of the issue wave: those of its entry that are ready. -/
def State.readyWave (s : State) (i : Instr) (o : Op) : List Nat :=
  s.cur.threads.filter (fun t =>
    match s.lane? o s.cur.threads t with
    | some L => L.th.live && L.ready i
    | none => false)

/-- Threads move to an address, keeping their priority (R180). -/
def State.moveTo (s : State) (ts : List Nat) (pc : Dword) : State :=
  ts.foldl (fun s t => s.modThread s.cur.core s.cur.slot t (fun th => { th with pc := pc, wait := none })) s

/-- Precise traps taken by threads of the wave. -/
def State.trapAll (s : State) (l : List (Nat × Trap)) : State :=
  l.foldl (fun s e => s.precise s.cur.core s.cur.slot e.1 e.2.cause e.2.va e.2.info) s

/-- Due deferred traps taken by threads of the wave (R230). -/
def State.settleAll (s : State) (ts : List Nat) : State :=
  ts.foldl (fun s t => s.settle s.cur.core s.cur.slot t) s

/-- The active threads of a wave. -/
def State.actives (s : State) (o : Op) (wave : List Nat) : List Nat :=
  wave.filter (fun t => match s.lane? o wave t with | some L => L.active | none => false)

/-- The first trap of an active thread among steps 8, 9 and 10; a thread in a begun wait has passed them. (DEDUCED, log entry 14.) -/
def State.trapOf (s : State) (i : Instr) (o : Op) (wave : List Nat) (check : Lane → Option Trap) (t : Nat) :
    Option Trap :=
  match s.lane? o wave t with
  | some L =>
    if L.th.wait.isSome then none
    else
      match L.commonTrap (L.uses i) with
      | some e => some e
      | none => match L.constTrap i with | some e => some e | none => check L
  | none => none

/-- The frame of an issue. `check` is the entry's step 10 on an active thread; `body` the effect on the active threads
that pass every check, given with the issue wave; it moves the threads that do not simply go on. `stay` says that the active
threads that pass do not move to the next instruction by this frame. (DEDUCED, log entry 19.) -/
def State.frame (s : State) (i : Instr) (o : Op) (check : Lane → Option Trap)
    (body : List Nat → List Nat → State → State) (stay : Bool) : State :=
  let wave := s.readyWave i o
  match s.group? s.cur.core s.cur.slot with
  | none => s
  | some g =>
    if (tilesOf i).any (fun x => g.record.tiles ≤ x) then s.trapAll (wave.map (fun t => (t, { cause := 0x06 })))
    else
      let act := s.actives o wave
      let traps := act.filterMap (fun t => (s.trapOf i o wave check t).map (fun e => (t, e)))
      let ok := act.filter (fun t => !(traps.map (·.1)).contains t)
      let idle := wave.filter (fun t => !act.contains t)
      let s1 := if ok.isEmpty then s else body wave ok s
      let s2 := s1.moveTo (if stay then idle else idle ++ ok) s.cur.next
      (s2.trapAll traps).settleAll wave

/-- A lane operation: each active thread's registers change by f of its lane (R157). (DEDUCED, log entry 12.) -/
def State.laneOp (s : State) (i : Instr) (o : Op) (check : Lane → Option Trap) (f : Lane → Thread) : State :=
  s.frame i o check (fun wave ok s0 =>
    ok.foldl (fun s1 t =>
      match s0.lane? o wave t with
      | some L => s1.modThread s.cur.core s.cur.slot t (fun _ => f L)
      | none => s1) s0) false

/-- A group effect (R256): once for an issue with at least one active thread, given the lowest active home lane's. -/
def State.groupOp (s : State) (i : Instr) (o : Op) (check : Lane → Option Trap) (f : Lane → State → State) : State :=
  s.frame i o check (fun wave ok s0 =>
    match ok.foldl (fun (m : Option Nat) t => match m with
        | none => some t
        | some u => if homeLane t < homeLane u then some t else some u) none with
    | some t => match s0.lane? o wave t with | some L => f L s0 | none => s0
    | none => s0) false

/-- A thread put in its place among threads in ascending home lane. -/
def laneInsert (t : Nat) : List Nat → List Nat
  | [] => [t]
  | u :: us => if homeLane t ≤ homeLane u then t :: u :: us else u :: laneInsert t us

/-- Threads in ascending home lane (R69, R106). -/
def byLane : List Nat → List Nat
  | [] => []
  | t :: ts => laneInsert t (byLane ts)

def noCheck : Lane → Option Trap := fun _ => none

end Sys2Proof.Machine
end

