-- ==== Sys2Proof/Machine/Integer.lean ====
section
/-! DEFINITION. The integer, address and predicate group (17_ref_arithmetic_matrix.md R337 to R343). -/

namespace Sys2Proof.Machine

/-- What every meaning answers. -/
abbrev Out := Host.Outcome State Fault Refusal

def shapeOf (i : Instr) : Shape :=
  match i.shape with
  | some (sh, _) => sh
  | none => ⟨[], none, .none, .none, .none, .none, .none, .own, .none, true⟩

/-- The type is .i64 or .n64; the type is signed (R267). -/
def wideTy (fn : Nat) : Bool := fn == 2 || fn == 3
def signedTy (fn : Nat) : Bool := fn % 2 == 0

/-- The thread with a 32-bit or a 64-bit result in Dst(t) (R126, R247). -/
def Lane.putD (L : Lane) (wide : Bool) (v : Dword) : Thread :=
  if wide then L.th.putAll (L.dstReg 2) [lowWord v, highWord v] else L.th.put (L.dstReg 1) (lowWord v)

/-- Predicate n written at issue (R129, R120). -/
def Lane.putP (L : Lane) (n : Nat) (b : Bool) : Thread := L.th.setPred n b

/-! ## The operations on one width -/

/-- An operation on values of a width, told whether the type is signed. -/
abbrev IntOp2 := (w : Nat) → Bool → BitVec w → BitVec w → BitVec w
abbrev IntOp1 := (w : Nat) → Bool → BitVec w → BitVec w

def opAdd : IntOp2 := fun _ _ a b => a + b
def opSub : IntOp2 := fun _ _ a b => a - b
def opMul : IntOp2 := fun _ _ a b => a * b
/-- The high half of the exact product (R338). -/
def opMulH : IntOp2 := fun w sg a b =>
  if sg then BitVec.ofInt w (a.toInt * b.toInt / 2 ^ w) else BitVec.ofNat w (a.toNat * b.toNat / 2 ^ w)
def lessThan {w : Nat} (sg : Bool) (a b : BitVec w) : Bool := if sg then a.slt b else a.ult b
def opMin : IntOp2 := fun _ sg a b => if lessThan sg b a then b else a
def opMax : IntOp2 := fun _ sg a b => if lessThan sg a b then b else a
def opAnd : IntOp2 := fun _ _ a b => a &&& b
def opOr : IntOp2 := fun _ _ a b => a ||| b
def opXor : IntOp2 := fun _ _ a b => a ^^^ b
def opAndn : IntOp2 := fun _ _ a b => a &&& ~~~b
/-- The shift count: bits [7:0] of B (R338). -/
def shiftCount (b : Word) : Nat := b.toNat % 256
def opShl : IntOp2 := fun _ _ a b => a <<< (b.toNat % 256)
def opShr : IntOp2 := fun _ _ a b => a >>> (b.toNat % 256)
def opSar : IntOp2 := fun _ _ a b => a.sshiftRight (b.toNat % 256)
def opRotl : IntOp2 := fun _ _ a b => a.rotateLeft (b.toNat % 256)

def opAbs : IntOp1 := fun _ _ a => if a.msb then -a else a
def opNeg : IntOp1 := fun _ _ a => -a
def opNot : IntOp1 := fun _ _ a => ~~~a
def opBrev : IntOp1 := fun _ _ a => a.reverse

/-- Leading zero bits, and bits set, of a value of width w (R339). -/
def clzNat (w n : Nat) : Nat := if n = 0 then w else w - 1 - n.log2
def popNat (w n : Nat) : Nat := ((List.range w).filter (fun k => n.testBit k)).length

/-- BFX: len bits from pos, a position at or above the width reading 0 or the sign (R341). -/
def bitExtract {w : Nat} (sg : Bool) (a : BitVec w) (pos len0 : Nat) : BitVec w :=
  let len := min len0 w
  if len = 0 then 0
  else
    let f := if sg then a.sshiftRight pos else a >>> pos
    let k := w - len
    if sg then (f <<< k).sshiftRight k else (f <<< k) >>> k

/-- BFI: C with len bits from pos replaced by A's low bits; positions at or above the width are dropped (R341). -/
def bitInsert {w : Nat} (a c : BitVec w) (pos len0 : Nat) : BitVec w :=
  let len := min len0 w
  let mask : BitVec w := if len = 0 then 0 else (BitVec.allOnes w >>> (w - len)) <<< pos
  (c &&& ~~~mask) ||| ((a <<< pos) &&& mask)

/-- The relation of a condition code of ICMP (R342): eq, ne, lt, le, gt, ge. -/
def intCond {w : Nat} (sg : Bool) (cc : Nat) (a b : BitVec w) : Bool :=
  match cc with
  | 0 => a == b
  | 1 => a != b
  | 2 => lessThan sg a b
  | 3 => !lessThan sg b a
  | 4 => lessThan sg b a
  | _ => !lessThan sg a b

/-! ## The frames that the entries share -/

/-- An operation at the width of the type, in a 64-bit container. -/
def atWidth2 (f : IntOp2) (fn : Nat) (a b : Dword) : Dword :=
  if wideTy fn then f 64 (signedTy fn) a b else (f 32 (signedTy fn) (lowWord a) (lowWord b)).setWidth 64
def atWidth1 (f : IntOp1) (fn : Nat) (a : Dword) : Dword :=
  if wideTy fn then f 64 (signedTy fn) a else (f 32 (signedTy fn) (lowWord a)).setWidth 64

/-- SrcA(t) and SrcC(t) at the type's width. -/
def Lane.srcA (L : Lane) : Dword := L.source (wideTy L.fn) L.fA L.moda
def Lane.srcC (L : Lane) : Dword := L.source (wideTy L.fn) L.fC 0
/-- SrcB(t) at the type's width, and as a 32-bit integer. -/
def Lane.srcBt (L : Lane) (i : Instr) : Dword := L.srcB (shapeOf i) L.fn (wideTy L.fn)
def Lane.srcBw (L : Lane) (i : Instr) : Word := lowWord (L.srcB (shapeOf i) 0 false)

/-- Two-source instructions (R338). -/
def lane2 (i : Instr) (o : Op) (f : IntOp2) (s : State) : State :=
  s.laneOp i o noCheck (fun L => L.putD (wideTy L.fn) (atWidth2 f L.fn L.srcA (L.srcBt i)))

/-- Shifts and rotates: B is one 32-bit count (R338). -/
def laneShift (i : Instr) (o : Op) (f : IntOp2) (s : State) : State :=
  s.laneOp i o noCheck (fun L =>
    L.putD (wideTy L.fn) (atWidth2 f L.fn L.srcA (BitVec.ofNat 64 (shiftCount (L.srcBw i)))))

/-- One-source instructions (R339). -/
def lane1 (i : Instr) (o : Op) (f : IntOp1) (s : State) : State :=
  s.laneOp i o noCheck (fun L => L.putD (wideTy L.fn) (atWidth1 f L.fn L.srcA))

/-- CLZ and POPC: one 32-bit result for every type (R339). -/
def laneCount (i : Instr) (o : Op) (f : Nat → Nat → Nat) (s : State) : State :=
  s.laneOp i o noCheck (fun L =>
    L.putD false (BitVec.ofNat 64 (f (if wideTy L.fn then 64 else 32) L.srcA.toNat)))

/-- Predicate instructions: a and b after NA and NB (R343). -/
def lanePred (i : Instr) (o : Op) (f : Bool → Bool → Bool) (s : State) : State :=
  s.laneOp i o noCheck (fun L =>
    L.putP L.fD (f (L.th.pred L.fA != o.m.getLsbD 1) (L.th.pred L.fB != o.m.getLsbD 0)))

/-! ## The entries -/

/-- IADD (R338). -/
def execIadd (o : Op) (s : State) : Out := .next (lane2 (.iadd o) o opAdd s)

/-- ISUB (R338). -/
def execIsub (o : Op) (s : State) : Out := .next (lane2 (.isub o) o opSub s)

/-- IMUL (R338). -/
def execImul (o : Op) (s : State) : Out := .next (lane2 (.imul o) o opMul s)

/-- IMULH (R338). -/
def execImulh (o : Op) (s : State) : Out := .next (lane2 (.imulh o) o opMulH s)

/-- IMIN (R338). -/
def execImin (o : Op) (s : State) : Out := .next (lane2 (.imin o) o opMin s)

/-- IMAX (R338). -/
def execImax (o : Op) (s : State) : Out := .next (lane2 (.imax o) o opMax s)

/-- AND (R338). -/
def execAnd (o : Op) (s : State) : Out := .next (lane2 (.and o) o opAnd s)

/-- OR (R338). -/
def execOr (o : Op) (s : State) : Out := .next (lane2 (.or o) o opOr s)

/-- XOR (R338). -/
def execXor (o : Op) (s : State) : Out := .next (lane2 (.xor o) o opXor s)

/-- ANDN (R338). -/
def execAndn (o : Op) (s : State) : Out := .next (lane2 (.andn o) o opAndn s)

/-- SHL (R338). -/
def execShl (o : Op) (s : State) : Out := .next (laneShift (.shl o) o opShl s)

/-- SHR (R338). -/
def execShr (o : Op) (s : State) : Out := .next (laneShift (.shr o) o opShr s)

/-- SAR (R338). -/
def execSar (o : Op) (s : State) : Out := .next (laneShift (.sar o) o opSar s)

/-- ROTL (R338). -/
def execRotl (o : Op) (s : State) : Out := .next (laneShift (.rotl o) o opRotl s)

/-- IABS (R339). -/
def execIabs (o : Op) (s : State) : Out := .next (lane1 (.iabs o) o opAbs s)

/-- INEG (R339). -/
def execIneg (o : Op) (s : State) : Out := .next (lane1 (.ineg o) o opNeg s)

/-- NOT (R339). -/
def execNot (o : Op) (s : State) : Out := .next (lane1 (.not o) o opNot s)

/-- BREV (R339). -/
def execBrev (o : Op) (s : State) : Out := .next (lane1 (.brev o) o opBrev s)

/-- CLZ (R339). -/
def execClz (o : Op) (s : State) : Out := .next (laneCount (.clz o) o clzNat s)

/-- POPC (R339). -/
def execPopc (o : Op) (s : State) : Out := .next (laneCount (.popc o) o popNat s)

/-- IMAD: the low width bits of A × B + C (R340). -/
def execImad (o : Op) (s : State) : Out := .next (s.laneOp (.imad o) o noCheck (fun L =>
  L.putD (wideTy L.fn) (atWidth2 opAdd L.fn (atWidth2 opMul L.fn L.srcA (L.srcBt (.imad o))) L.srcC)))

/-- IADD3 (R340). -/
def execIadd3 (o : Op) (s : State) : Out := .next (s.laneOp (.iadd3 o) o noCheck (fun L =>
  L.putD (wideTy L.fn) (atWidth2 opAdd L.fn (atWidth2 opAdd L.fn L.srcA (L.srcBt (.iadd3 o))) L.srcC)))

/-- LEA's extension of B by its type (R340). -/
def leaExt (fn : Nat) (b : Dword) : Dword :=
  match fn with
  | 0 => (lowWord b).signExtend 64
  | 1 => (lowWord b).setWidth 64
  | _ => b

/-- LEA: a 64-bit address from a pair and a shifted B; a k above 63 traps (R340). -/
def execLea (o : Op) (s : State) : Out := .next (s.laneOp (.lea o) o
  (fun L => if 63 < L.fC then some { cause := 0x01 } else none)
  (fun L => L.putD true (L.source true L.fA L.moda + (leaExt L.fn (L.srcBt (.lea o)) <<< L.fC))))

/-- BFX's and BFI's position and length in B (R341). -/
def fieldPos (b : Word) : Nat := b.toNat % 256
def fieldLen (b : Word) : Nat := b.toNat / 256 % 256

/-- BFX (R341). -/
def execBfx (o : Op) (s : State) : Out := .next (s.laneOp (.bfx o) o noCheck (fun L =>
  let b := L.srcBw (.bfx o)
  L.putD (wideTy L.fn) (atWidth1 (fun _ sg a => bitExtract sg a (fieldPos b) (fieldLen b)) L.fn L.srcA)))

/-- BFI (R341). -/
def execBfi (o : Op) (s : State) : Out := .next (s.laneOp (.bfi o) o noCheck (fun L =>
  let b := L.srcBw (.bfi o)
  L.putD (wideTy L.fn) (atWidth2 (fun _ _ a c => bitInsert a c (fieldPos b) (fieldLen b)) L.fn L.srcA L.srcC)))

/-- The condition and predicate in the redefined D of ICMP and FCMP (R342). -/
def condOf (o : Op) : Nat := (o.d.extractLsb' 4 3).toNat
def condPred (o : Op) : Nat := (o.d.extractLsb' 0 3).toNat

/-- ICMP: signed for .i, unsigned for .n; conditions 110 and 111 trap (R342). -/
def execIcmp (o : Op) (s : State) : Out := .next (s.laneOp (.icmp o) o
  (fun _ => if 6 ≤ condOf o then some { cause := 0x01 } else none)
  (fun L => L.putP (condPred o)
    (if wideTy L.fn then intCond (signedTy L.fn) (condOf o) L.srcA (L.srcBt (.icmp o))
     else intCond (signedTy L.fn) (condOf o) (lowWord L.srcA) (lowWord (L.srcBt (.icmp o))))))

/-- PAND (R343). -/
def execPand (o : Op) (s : State) : Out := .next (lanePred (.pand o) o (fun a b => a && b) s)

/-- POR (R343). -/
def execPor (o : Op) (s : State) : Out := .next (lanePred (.por o) o (fun a b => a || b) s)

/-- PXOR (R343). -/
def execPxor (o : Op) (s : State) : Out := .next (lanePred (.pxor o) o (fun a b => a != b) s)

/-- PNOT: NOT a; NA ignored (R343). -/
def execPnot (o : Op) (s : State) : Out := .next (s.laneOp (.pnot o) o noCheck (fun L => L.putP L.fD (!L.th.pred L.fA)))

/-- PSET: 1 if SrcB(t) is not 0 (R343). -/
def execPset (o : Op) (s : State) : Out := .next (s.laneOp (.pset o) o noCheck (fun L =>
  L.putP L.fD (L.srcBw (.pset o) != 0)))

end Sys2Proof.Machine
end

