-- ==== Sys2Proof/Machine/Special.lean ====
section
/-! DEFINITION. The special functions (09_arithmetic_units.md R158, R159, 17_ref_arithmetic_matrix.md R353): each returns its
exact mathematical result rounded once. Reciprocals and roots come from exact integer division and integer square
roots. The transcendental functions are computed to 400 fractional bits from their series; a value that is not one of
the exact cases is irrational, so it carries a sticky bit (log entry 7). -/

namespace Sys2Proof.Machine

namespace Special

/-- Fractional bits of the fixed-point values. -/
def N : Nat := 400

/-- floor(π × 2^640) and floor(ln 2 × 2^400). -/
def pi640 : Nat := 0x3243f6a8885a308d313198a2e03707344a4093822299f31d0082efa98ec4e6c89452821e638d01377be5466cf34e90c6cc0ac29b7c97c50dd3f84d5b5b54709179216d5d98979fb1bd1310ba698dfb5ac
def ln2 : Nat := 0xb17217f7d1cf79abc9e3b39803f2f6af40f343267298b62d8a0d175b8baafa2be7b876206debac98559552fb4afa1b10ed2e

def one : Int := 2 ^ N
def mulN (a b : Int) : Int := a * b / 2 ^ N

/-- The largest r with r × r ≤ n, bit by bit from bit k − 1 down. -/
def isqrtFrom (n : Nat) : Nat → Nat → Nat
  | 0, r => r
  | k + 1, r => isqrtFrom n k (if (r + 2 ^ k) * (r + 2 ^ k) ≤ n then r + 2 ^ k else r)

def isqrt (n : Nat) : Nat := isqrtFrom n (n.log2 / 2 + 1) 0

/-- Sum of t^k ÷ k! from term k on; `term` is the k-th term. -/
def expFrom (t : Int) : Nat → Nat → Int → Int
  | 0, _, _ => 0
  | fuel + 1, k, term => term + expFrom t fuel (k + 1) (mulN term t / (k + 1 : Nat))

/-- e^t for 0 ≤ t < 1. -/
def exp (t : Int) : Int := expFrom t 100 0 one

/-- Alternating series: the k-th term, then times −t² ÷ ((k+1)(k+2)). -/
def trigFrom (t2 : Int) : Nat → Nat → Int → Int
  | 0, _, _ => 0
  | fuel + 1, k, term => term + trigFrom t2 fuel (k + 2) (-(mulN term t2) / ((k + 1) * (k + 2) : Nat))

/-- sin and cos of 0 ≤ t < 2. -/
def sin (t : Int) : Int := trigFrom (mulN t t) 60 1 t
def cos (t : Int) : Int := trigFrom (mulN t t) 60 0 one

/-- z + z³/3 + z⁵/5 + … from the term of z^k. -/
def atanhFrom (z2 : Int) : Nat → Nat → Int → Int
  | 0, _, _ => 0
  | fuel + 1, k, p => p / (k : Nat) + atanhFrom z2 fuel (k + 2) (mulN p z2)

/-- ln of 1 ≤ m ≤ 2, as 2 artanh((m − 1) ÷ (m + 1)). -/
def ln (m : Int) : Int :=
  let z := (m - one) * one / (m + one)
  2 * atanhFrom (mulN z z) 140 1 z

/-- A value m × 2^e in units of 2^-N, rounded down; exact where e ≥ −N. -/
def fixed (m : Nat) (e : Int) : Int :=
  if -(N : Int) ≤ e then (m : Int) * 2 ^ (e + N).toNat else (m : Int) / 2 ^ (-(e + N)).toNat

/-- A magnitude just below (`less`) or just above m × 2^e. -/
def near (less : Bool) (m : Nat) (e : Int) : Nat × Int :=
  (if less then m * 2 ^ 200 - 1 else m * 2 ^ 200, e - 200)

/-- A function's result: NaN with NV, an infinity with flags, or a magnitude with sticky bit to be rounded. -/
inductive Res where
  | nan
  | inf (neg : Bool) (fl : BitVec 6)
  | val (neg : Bool) (m : Nat) (e : Int) (sticky : Bool)

def rcp (n : Bool) (m : Nat) (e : Int) : Res :=
  if m = 0 then .inf n fDZ
  else .val n (2 ^ N / m) (-e - N) (2 ^ N % m != 0)

def sqrt (n : Bool) (m : Nat) (e : Int) : Res :=
  if m = 0 then .val n 0 0 false
  else if n then .nan
  else
    let odd : Nat := (e % 2).toNat
    let v := m * 2 ^ odd * 2 ^ N
    let r := isqrt v
    .val false r ((e - odd - N) / 2) (r * r != v)

def rsq (n : Bool) (m : Nat) (e : Int) : Res :=
  if m = 0 then .inf n fDZ
  else if n then .nan
  else
    let odd : Nat := (e % 2).toNat
    let d := m * 2 ^ odd
    let v := 2 ^ (2 * N) / d
    let r := isqrt v
    .val false r (-((e - odd) / 2) - N) (r * r * d != 2 ^ (2 * N))

/-- 2^x: an integer x gives a power of two; beyond ±2,000 the result overflows or vanishes whatever x is. -/
def exp2 (n : Bool) (m : Nat) (e : Int) : Res :=
  if m = 0 then .val false 1 0 false
  else
    let top := (m.log2 : Int) + e
    if 11 ≤ top then .val false 1 (if n then -2000 else 2000) true
    else if top < -64 then let (a, b) := near n 1 0; .val false a b true
    else
      let x := if n then -(fixed m e) else fixed m e
      let k := x / one
      let r := x - k * one
      if r = 0 then .val false 1 k false
      else .val false (exp (mulN r ln2)).toNat (k - N) true

def log2 (n : Bool) (m : Nat) (e : Int) : Res :=
  if m = 0 then .inf true fDZ
  else if n then .nan
  else
    let k : Int := (m.log2 : Int) + e
    if m = 2 ^ m.log2 then .val (k < 0) k.natAbs 0 false
    else
      let f := (m : Int) * 2 ^ (N - m.log2)
      let v := k * one + ln f * one / ln2
      .val (v < 0) v.natAbs (-(N : Int)) true

/-- The argument of a positive angle reduced: its quadrant and the rest, 0 to π/2, in 2^-N units. -/
def reduce (m : Nat) (e : Int) : Nat × Int :=
  let x : Nat := if -(640 : Int) ≤ e then m * 2 ^ (e + 640).toNat else 0
  let k := 2 * x / pi640
  (k % 4, ((x : Int) - (k : Int) * pi640 / 2) / 2 ^ (640 - N))

def sinR (n : Bool) (m : Nat) (e : Int) : Res :=
  if m = 0 then .val n 0 0 false
  else if (m.log2 : Int) + e < -64 then let (a, b) := near true m e; .val n a b true
  else
    let (q, r) := reduce m e
    let v := if q % 2 = 0 then sin r else cos r
    .val (n != (2 ≤ q)) v.natAbs (-(N : Int)) true

def cosR (m : Nat) (e : Int) : Res :=
  if m = 0 then .val false 1 0 false
  else if (m.log2 : Int) + e < -64 then let (a, b) := near true 1 0; .val false a b true
  else
    let (q, r) := reduce m e
    let v := if q % 2 = 0 then cos r else sin r
    .val (q = 1 || q = 2) v.natAbs (-(N : Int)) true

/-- tanh x = (e^2x − 1) ÷ (e^2x + 1). -/
def tanhR (n : Bool) (m : Nat) (e : Int) : Res :=
  let top := (m.log2 : Int) + e
  if m = 0 then .val n 0 0 false
  else if top < -64 then let (a, b) := near true m e; .val n a b true
  else if 6 ≤ top then let (a, b) := near true 1 0; .val n a b true
  else
    let x := 2 * fixed m e
    let k := x / ln2
    let ex := exp (x - k * ln2) * 2 ^ k.toNat
    .val n ((ex - one) * one / (ex + one)).toNat (-(N : Int)) true

end Special

/-- The special function of OPC 0x08E + fn on a value (R159). (DEDUCED, log entry 7.) -/
def specialRes (fn : Nat) (x : Num) : Special.Res :=
  match x with
  | .nan s => if s then .nan else .inf false 0
  | .inf n =>
    match fn with
    | 0 => .val n 0 0 false
    | 1 => if n then .nan else .val false 0 0 false
    | 2 => if n then .nan else .inf false 0
    | 3 => if n then .val false 0 0 false else .inf false 0
    | 4 => if n then .nan else .inf false 0
    | 7 => .val n 1 0 false
    | _ => .nan
  | .fin n m e =>
    match fn with
    | 0 => Special.rcp n m e
    | 1 => Special.rsq n m e
    | 2 => Special.sqrt n m e
    | 3 => Special.exp2 n m e
    | 4 => Special.log2 n m e
    | 5 => Special.sinR n m e
    | 6 => Special.cosR m e
    | _ => Special.tanhR n m e

/-- A special function's code and flags in a format and mode (R159, R141 to R143). -/
def special (f : Fmt) (mode : BitVec 3) (fn : Nat) (code : Nat) : Nat × BitVec 6 :=
  let x := f.input (ftzOf mode) code
  if x.isNaN then (f.nanCode, sigFlag [x])
  else
    match specialRes fn x with
    | .nan => (f.nanCode, fNV)
    | .inf n fl => (f.infCode n, fl)
    | .val n m e st => f.round (rmOf mode) (ftzOf mode) false n m e st

end Sys2Proof.Machine
end

