-- ==== Sys2Proof/Machine/Float.lean ====
section
/-! DEFINITION. The float and special-function group (17_ref_arithmetic_matrix.md R344 to R353). -/

namespace Sys2Proof.Machine

/-- The thread with a float result and its flags in Dst(t) and sr.fstat (R143). -/
def Lane.putF (L : Lane) (r : Nat × BitVec 6) : Thread :=
  (L.putD false (BitVec.ofNat 64 r.1)).raiseFlags r.2

/-- SrcA(t), SrcB(t) and SrcC(t) as codes of 32 bits; B is read at the instruction's type (R259). -/
def Lane.codeA (L : Lane) : Nat := (lowWord (L.source false L.fA L.moda)).toNat
def Lane.codeB (L : Lane) (i : Instr) : Nat := (lowWord (L.srcB (shapeOf i) L.fn false)).toNat
def Lane.codeC (L : Lane) : Nat := (lowWord (L.source false L.fC 0)).toNat

/-- An FP32 input under the thread's mode (R142). -/
def Lane.f32In (L : Lane) (code : Nat) : Num := Fmt.f32.input (ftzOf L.th.fmode) code

/-- Two-source FP32 operations (R345). -/
def lane2F (i : Instr) (o : Op) (f : BitVec 3 → Num → Num → Nat × BitVec 6) (s : State) : State :=
  s.laneOp i o noCheck (fun L => L.putF (f L.th.fmode (L.f32In L.codeA) (L.f32In (L.codeB i))))

/-- An operation on both 16-bit halves of words, the flags ORed (R352). -/
def halves (a b c : Nat) (f : Nat → Nat → Nat → Nat × BitVec 6) : Nat × BitVec 6 :=
  let lo := f (a % 65536) (b % 65536) (c % 65536)
  let hi := f (a / 65536) (b / 65536) (c / 65536)
  (lo.1 + 65536 * hi.1, lo.2 ||| hi.2)

/-- The 16-bit format of HADD2, HMUL2 and HFMA2. -/
def halfFmt (fn : Nat) : Fmt := if fn = 9 then .f16 else .bf16

def laneH (i : Instr) (o : Op) (f : Fmt → BitVec 3 → Num → Num → Num → Nat × BitVec 6) (third : Bool) (s : State) :
    State :=
  s.laneOp i o noCheck (fun L =>
    let h := halfFmt L.fn
    let m := L.th.fmode
    L.putF (halves L.codeA (L.codeB i) (if third then L.codeC else 0)
      (fun a b c => f h m (h.input (ftzOf m) a) (h.input (ftzOf m) b) (h.input (ftzOf m) c))))

/-- The relation of FCMP (R347), and its flag. -/
def floatCond (cc : Nat) (a b : Num) : Bool :=
  if a.isNaN || b.isNaN then cc == 1 || cc == 6
  else
    match cc with
    | 0 => a.eqv b
    | 1 => !a.eqv b
    | 2 => a.lt b
    | 3 => !b.lt a
    | 4 => b.lt a
    | 5 => !a.lt b
    | 6 => false
    | _ => true

def floatCondFlag (cc : Nat) (a b : Num) : BitVec 6 :=
  if a.sigNaN || b.sigNaN || (2 ≤ cc && cc ≤ 5 && (a.isNaN || b.isNaN)) then fNV else 0

/-- The class bit of a value (R348). -/
def classOf (code : Nat) : Nat :=
  match Fmt.f32.unpack code with
  | .nan s => if s then 8 else 9
  | .inf n => if n then 0 else 7
  | .fin n m _ =>
    if m = 0 then (if n then 3 else 4)
    else if m < 2 ^ 23 then (if n then 2 else 5)
    else if n then 1 else 6

/-- The rounding that a RND code names (R328, R349). -/
def rndOf (code : Nat) (mode : BitVec 3) : RM :=
  match code with
  | 0 => rmOf mode
  | 1 => .rne
  | 2 => .rtz
  | 3 => .rup
  | _ => .rdn

/-- An FP32 value rounded to an integral one, keeping its sign (R349). -/
def roundIntegral (rm : RM) (x : Num) : Nat × BitVec 6 :=
  match x with
  | .nan s => (Fmt.f32.nanCode, if s then fNV else 0)
  | .inf n => (Fmt.f32.infCode n, 0)
  | .fin n m e => (Fmt.f32.exact (if 0 ≤ e then .fin n m e else .fin n (quantize rm n m e 0 false).1 0), 0)

/-- x × 2^k, rounded (R350). -/
def scaleF (mode : BitVec 3) (x : Num) (k : Int) : Nat × BitVec 6 :=
  match x with
  | .nan s => (Fmt.f32.nanCode, if s then fNV else 0)
  | .inf n => (Fmt.f32.infCode n, 0)
  | .fin n m e => Fmt.f32.round (rmOf mode) (ftzOf mode) false n m (e + k) false

/-- A special function at issue: each thread's destination is marked empty and the wave takes an entry of its quadrant's
queue, its operand and mode captured (R158, R353). -/
def sfuIssue (i : Instr) (o : Op) (fn : Nat) (s : State) : State :=
  s.frame i o noCheck (fun wave ok s0 =>
    let lanes := ok.filterMap (s0.lane? o wave)
    let entry : List Sfu := lanes.map (fun L =>
      { slot := L.slot, tid := L.tid, fn := fn, half := L.fn == 9, src := BitVec.ofNat 32 L.codeA, mode := L.th.fmode
        dest := L.dstReg 1 })
    let s1 := lanes.foldl (fun s1 L =>
      s1.modThread s.cur.core s.cur.slot L.tid (fun th => th.drain (L.dstReg 1))) s0
    s1.modCore s.cur.core (fun k =>
      { k with sfuQ := tset k.sfuQ s.cur.quad (tget [] k.sfuQ s.cur.quad ++ [entry]) })) false

/-! ## The entries -/

/-- FADD (R345). -/
def execFadd (o : Op) (s : State) : Out := .next (lane2F (.fadd o) o Fmt.f32.add s)

/-- FSUB (R345). -/
def execFsub (o : Op) (s : State) : Out := .next (lane2F (.fsub o) o (fun m a b => Fmt.f32.add m a b.neg) s)

/-- FMUL (R345). -/
def execFmul (o : Op) (s : State) : Out := .next (lane2F (.fmul o) o Fmt.f32.mul s)

/-- FMIN (R345). -/
def execFmin (o : Op) (s : State) : Out := .next (lane2F (.fmin o) o (fun _ => Fmt.f32.minmax false) s)

/-- FMAX (R345). -/
def execFmax (o : Op) (s : State) : Out := .next (lane2F (.fmax o) o (fun _ => Fmt.f32.minmax true) s)

/-- FFMA (R346). -/
def execFfma (o : Op) (s : State) : Out := .next (s.laneOp (.ffma o) o noCheck (fun L =>
  L.putF (Fmt.f32.fma L.th.fmode (L.f32In L.codeA) (L.f32In (L.codeB (.ffma o))) (L.f32In L.codeC))))

/-- FCMP: the values as stored, without FTZ (R347). -/
def execFcmp (o : Op) (s : State) : Out := .next (s.laneOp (.fcmp o) o noCheck (fun L =>
  let a := Fmt.f32.unpack L.codeA
  let b := Fmt.f32.unpack (L.codeB (.fcmp o))
  (L.putP (condPred o) (floatCond (condOf o) a b)).raiseFlags (floatCondFlag (condOf o) a b)))

/-- FCLASS (R348). -/
def execFclass (o : Op) (s : State) : Out := .next (s.laneOp (.fclass o) o noCheck (fun L =>
  L.putD false (BitVec.ofNat 64 (2 ^ classOf L.codeA))))

/-- FRND (R349). -/
def execFrnd (o : Op) (s : State) : Out := .next (s.laneOp (.frnd o) o noCheck (fun L =>
  L.putF (roundIntegral (rndOf o.m.toNat L.th.fmode) (L.f32In L.codeA))))

/-- FSCALE: B is an integer despite the type (R350). -/
def execFscale (o : Op) (s : State) : Out := .next (s.laneOp (.fscale o) o noCheck (fun L =>
  L.putF (scaleF L.th.fmode (L.f32In L.codeA) (L.srcBw (.fscale o)).toInt)))

/-- FMODE (R351). -/
def execFmode (o : Op) (s : State) : Out := .next (s.laneOp (.fmode o) o noCheck (fun L =>
  { L.th with fmode := (L.srcBw (.fmode o)).extractLsb' 0 3 }))

/-- HADD2 (R352). -/
def execHadd2 (o : Op) (s : State) : Out := .next (laneH (.hadd2 o) o (fun f m a b _ => f.add m a b) false s)

/-- HMUL2 (R352). -/
def execHmul2 (o : Op) (s : State) : Out := .next (laneH (.hmul2 o) o (fun f m a b _ => f.mul m a b) false s)

/-- HFMA2 (R352). -/
def execHfma2 (o : Op) (s : State) : Out := .next (laneH (.hfma2 o) o (fun f m a b c => f.fma m a b c) true s)

/-- RCP (R353). -/
def execRcp (o : Op) (s : State) : Out := .next (sfuIssue (.rcp o) o 0 s)

/-- RSQ (R353). -/
def execRsq (o : Op) (s : State) : Out := .next (sfuIssue (.rsq o) o 1 s)

/-- SQRT (R353). -/
def execSqrt (o : Op) (s : State) : Out := .next (sfuIssue (.sqrt o) o 2 s)

/-- EXP2 (R353). -/
def execExp2 (o : Op) (s : State) : Out := .next (sfuIssue (.exp2 o) o 3 s)

/-- LOG2 (R353). -/
def execLog2 (o : Op) (s : State) : Out := .next (sfuIssue (.log2 o) o 4 s)

/-- SIN (R353). -/
def execSin (o : Op) (s : State) : Out := .next (sfuIssue (.sin o) o 5 s)

/-- COS (R353). -/
def execCos (o : Op) (s : State) : Out := .next (sfuIssue (.cos o) o 6 s)

/-- TANH (R353). -/
def execTanh (o : Op) (s : State) : Out := .next (sfuIssue (.tanh o) o 7 s)

/-- The result of a queued special function (R353). (DEDUCED, log entry 7.) -/
def Sfu.result (x : Sfu) : Word × BitVec 6 :=
  if x.half then
    let r := special .f16 x.mode x.fn (x.src.toNat % 65536)
    (BitVec.ofNat 32 r.1, r.2)
  else
    let r := special .f32 x.mode x.fn x.src.toNat
    (BitVec.ofNat 32 r.1, r.2)

/-- SFU_RESULT: the oldest wave of a quadrant's queue writes its results, marked full, whatever mode the threads are in
(R158 to R160, R132). An empty queue has no result due. -/
def execSfuResult (c q : Nat) (s : State) : Out :=
  match tget [] (s.core c).sfuQ q with
  | [] => .next s
  | w :: rest =>
    let s1 := s.modCore c (fun k => { k with sfuQ := if rest.isEmpty then tdel k.sfuQ q else tset k.sfuQ q rest })
    .next (w.foldl (fun s2 x =>
      s2.modThread c x.slot x.tid (fun th => (th.fillAll x.dest [x.result.1]).raiseFlags x.result.2)) s1)

end Sys2Proof.Machine
end

