-- ==== Sys2Proof/Machine/RegisterLane.lean ====
section
/-! DEFINITION. The register and lane instructions (16_ref_registers_lanes_conversion.md R310 to R327, R335) with the special
registers (07_registers.md R130, R131) and register blocks (R124). -/

namespace Sys2Proof.Machine

/-! ## Frames -/

/-- Bits of a type (R267). -/
def typeBits (ty : Nat) : Nat :=
  match ty with
  | 2 | 3 => 64
  | 4 | 5 | 9 | 10 => 16
  | 6 | 7 | 11 | 12 => 8
  | 13 => 4
  | _ => 32

/-- A result of a type placed in its register (R310): sign-extended for .i8 and .i16, zero-extended for every other narrow type. -/
def placed (ty code : Nat) : Dword :=
  if ty = 4 then (BitVec.ofNat 16 code).signExtend 64
  else if ty = 6 then (BitVec.ofNat 8 code).signExtend 64
  else BitVec.ofNat 64 (code % 2 ^ typeBits ty)

/-- An instruction whose effect on a participant depends on all of them: f gets the participants in ascending home
lane, and the lane (R311). -/
def State.crossOp (s : State) (i : Instr) (o : Op) (f : List Lane → Lane → Thread) : State :=
  s.frame i o noCheck (fun wave ok s0 =>
    let ls := (byLane ok).filterMap (s0.lane? o wave)
    ls.foldl (fun s1 L => s1.modThread s.cur.core s.cur.slot L.tid (fun _ => f ls L)) s0) false

/-- An effect on the group's own registers, once per issue, with the lowest active home lane (R256, R310). -/
def State.groupPut (s : State) (i : Instr) (o : Op) (f : Lane → Group → Group) : State :=
  s.groupOp i o noCheck (fun L s1 => s1.modGroup L.c L.slot (f L))

/-! ## Moves -/

/-- MOV (R312). -/
def execMov (o : Op) (s : State) : Out := .next (s.laneOp (.mov o) o noCheck (fun L =>
  L.putD (wideTy L.fn) (placed L.fn (L.srcBt (.mov o)).toNat)))

/-- MOVI's constant (R313). -/
def moviValue (o : Op) : Dword :=
  match o.form with
  | .w64 => (Lane.imm20 o).signExtend 64
  | .w96 => o.w1.signExtend 64
  | .w128 => pairOf o.w1 o.w2

/-- MOVI sD (R313). -/
def execMoviScalar (o : Op) (s : State) : Out :=
  .next (s.groupPut (.moviScalar o) o (fun L g => g.sput L.fD (moviValue o)))

/-- MOVI wD (R313). -/
def execMoviPair (o : Op) (s : State) : Out :=
  .next (s.laneOp (.moviPair o) o noCheck (fun L => L.putD true (moviValue o)))

/-- SEL (R314). -/
def execSel (o : Op) (s : State) : Out := .next (s.laneOp (.sel o) o noCheck (fun L =>
  L.putD (wideTy L.fn) (placed L.fn (if L.th.pred o.m.toNat then L.srcA else L.srcBt (.sel o)).toNat)))

/-- B where it is an s register or a pair, a constant of two words, or IMM20 (R259, R261). -/
def Lane.srcBd (L : Lane) (i : Instr) : Dword := L.srcB (shapeOf i) 0 true

/-- SMOV sD, sB (R315). -/
def execSmovSS (o : Op) (s : State) : Out :=
  .next (s.groupPut (.smovSS o) o (fun L g => g.sput L.fD (L.srcBd (.smovSS o))))

/-- SMOV.n32 sD, vA (R315). -/
def execSmovSV32 (o : Op) (s : State) : Out :=
  .next (s.groupPut (.smovSV32 o) o (fun L g => g.sput L.fD (L.source false L.fA 0)))

/-- SMOV.n64 sD, wA (R315). -/
def execSmovSV64 (o : Op) (s : State) : Out :=
  .next (s.groupPut (.smovSV64 o) o (fun L g => g.sput L.fD (L.source true L.fA 0)))

/-- SMOV.n32 vD, sB (R315). -/
def execSmovV32S (o : Op) (s : State) : Out :=
  .next (s.laneOp (.smovV32S o) o noCheck (fun L => L.putD false (L.srcBd (.smovV32S o))))

/-- SMOV.n64 wD, sB (R315). -/
def execSmovV64S (o : Op) (s : State) : Out :=
  .next (s.laneOp (.smovV64S o) o noCheck (fun L => L.putD true (L.srcBd (.smovV64S o))))

/-- Byte k of PRMT's result (R316). -/
def prmtByte (a c sel k : Nat) : Nat :=
  let f := sel / 16 ^ k % 16
  let x := (if f % 8 < 4 then a / 256 ^ (f % 8) else c / 256 ^ (f % 8 - 4)) % 256
  if 8 ≤ f then (if 128 ≤ x then 255 else 0) else x

/-- PRMT (R316). -/
def prmt (a c sel : Nat) : Nat :=
  prmtByte a c sel 0 + 256 * (prmtByte a c sel 1 + 256 * (prmtByte a c sel 2 + 256 * prmtByte a c sel 3))

/-- PRMT (R316). -/
def execPrmt (o : Op) (s : State) : Out := .next (s.laneOp (.prmt o) o noCheck (fun L =>
  L.putD false (BitVec.ofNat 64 (prmt L.codeA L.codeC (L.srcBw (.prmt o)).toNat))))

/-! ## Register blocks -/

/-- A home wave gets k more blocks, whose registers read zero and full (R124). -/
def Group.acquire (g : Group) (hw k : Nat) : Group :=
  let h := g.homes.getD hw 0
  let fresh : Thread → Thread := fun th =>
    { th with
      v := tdrop th.v (16 * h) (16 * k), vEmpty := th.vEmpty.filter (fun r => r < 16 * h || 16 * (h + k) ≤ r)
      newly := th.newly.filter (fun r => r < 16 * h || 16 * (h + k) ≤ r) }
  { g with
    homes := modAt (· + k) g.homes hw
    threads := (List.range ww).foldl (fun ts l => modAt fresh ts (hw * ww + l)) g.threads }

/-- A home wave gives up its k highest blocks (R124). -/
def Group.release (g : Group) (hw k : Nat) : Group := { g with homes := modAt (· - k) g.homes hw }

/-- The home waves that take part, ascending: those with an active thread that begins the instruction now (R124, R125, R318). -/
def Lane.homeWaves (L : Lane) (i : Instr) : List Nat :=
  (List.range 32).filter (fun w => (L.takers i).any (fun x => homeWave x.tid == w))

/-- The checks of R318 on a count and every home wave that takes part: acquire, and release. -/
def acqCheck (i : Instr) (L : Lane) : Option Trap :=
  let k := L.count i
  if 16 < k || (L.homeWaves i).any (fun w => 16 < L.g.homes.getD w 0 + k) then some { cause := 0x01 } else none

def relCheck (i : Instr) (L : Lane) : Option Trap :=
  let k := L.count i
  if 16 < k then some { cause := 0x01 }
  else if (L.homeWaves i).any (fun w => L.g.homes.getD w 0 < L.g.launchBlocks + k) then some { cause := 0x10 }
  else none

/-- Home waves request k blocks in ascending order: granted at once when no earlier request waits and k blocks are
free, else each thread waits in the core's arrival order (R124, R318). -/
def acqRequests (k : Nat) (ts : List Nat) (id : Nat) : List Nat → State → State
  | [], s => s
  | w :: ws, s =>
    let c := s.cur.core
    let g := s.cur.slot
    let mine := ts.filter (fun t => homeWave t == w)
    let s1 :=
      if (s.core c).rblkQ.isEmpty && k ≤ (s.core c).freeBlocks then
        (s.modGroup c g (·.acquire w k)).moveTo mine s.cur.next
      else
        mine.foldl (fun s1 t =>
          (s1.modThread c g t (fun th => { th with wait := some ⟨.rblk k id, s1.now c, false⟩ })).modCore c
            (fun x => { x with rblkQ := x.rblkQ ++ [(g, t)] })) s
    acqRequests k ts id ws s1

/-- RBLK.acq (R317, R318): a thread whose wait has ended goes on. -/
def execRblkAcq (o : Op) (s : State) : Out := .next (s.frame (.rblkAcq o) o (acqCheck (.rblkAcq o)) (fun wave ok s0 =>
  let ls := (byLane ok).filterMap (s0.lane? o wave)
  let done := (ls.filter (·.th.wait.isSome)).map (·.tid)
  let new := ls.filter (·.th.wait.isNone)
  let s1 := s0.moveTo done s.cur.next
  match new with
  | [] => s1
  | L :: _ =>
    acqRequests (L.count (.rblkAcq o)) (new.map (·.tid)) s.seq (L.homeWaves (.rblkAcq o))
      { s1 with seq := s.seq + 1 }) true)

/-- RBLK.try: each home wave acquires if k blocks are free, and tells its active threads (R317, R318). (DEDUCED, log entry 31.) -/
def execRblkTry (o : Op) (s : State) : Out := .next (s.frame (.rblkTry o) o noCheck (fun wave ok s0 =>
  let ls := (byLane ok).filterMap (s0.lane? o wave)
  match ls with
  | [] => s0
  | L :: _ =>
    let k := L.count (.rblkTry o)
    (L.homeWaves (.rblkTry o)).foldl (fun s1 w =>
      let mine := ok.filter (fun t => homeWave t == w)
      let h := match s1.group? L.c L.slot with | some g => g.homes.getD w 0 | none => 16
      let can := k ≤ 16 && h + k ≤ 16 && k ≤ (s1.core L.c).freeBlocks
      let s2 := if can then s1.modGroup L.c L.slot (·.acquire w k) else s1
      mine.foldl (fun s3 t => s3.modThread L.c L.slot t (·.setPred o.d.toNat can)) s2) s0) false)

/-- RBLK.rel (R317, R318). -/
def execRblkRel (o : Op) (s : State) : Out := .next (s.frame (.rblkRel o) o (relCheck (.rblkRel o)) (fun wave ok s0 =>
  match (byLane ok).filterMap (s0.lane? o wave) with
  | [] => s0
  | L :: ls =>
    let k := L.count (.rblkRel o)
    (((L :: ls).map (fun x => homeWave x.tid)).eraseDups).foldl
      (fun s1 w => s1.modGroup L.c L.slot (·.release w k)) s0) false)

/-- sr.blocks of a thread's home wave (R131). -/
def Lane.blocksWord (L : Lane) : Dword :=
  pairOf (BitVec.ofNat 32 L.held) (BitVec.ofNat 32 (L.s.core L.c).freeBlocks)

/-- RBLK.qry: the pair is empty until the next front cycle (R127, R317). (DESIGN CHOICE, log entry 23.) -/
def execRblkQry (o : Op) (s : State) : Out := .next (s.laneOp (.rblkQry o) o noCheck (fun L =>
  L.th.fillAll (L.dstReg 2) [lowWord L.blocksWord, highWord L.blocksWord]))

/-- RBLK_GRANT: the oldest blocking acquire of a core is granted once its blocks are free (R124). Its threads go on; where its
home wave has reached 16 blocks meanwhile they trap as at the check of R318. A group that is stopped or being saved gives up its
place (R132, R235). (DEDUCED, log entry 31.) -/
def execRblkGrant (c : Nat) (s : State) : Out :=
  match (s.core c).rblkQ with
  | [] => .next s
  | (g, t) :: rest =>
    match s.group? c g, (s.thread? c g t).bind (·.wait) with
    | some x, some ⟨.rblk k id, _, _⟩ =>
      if x.stopped.isSome || x.saving then .next (s.modCore c (fun y => { y with rblkQ := rest }))
      else
      let w := homeWave t
      let same : Nat → Bool := fun u => homeWave u == w &&
        (match x.threads[u]? with
         | some th => (match th.wait with | some ⟨.rblk _ i, _, _⟩ => i == id | _ => false)
         | none => false)
      let ts := (List.range x.threads.length).filter same
      if 16 < x.homes.getD w 0 + k then
        .next (ts.foldl (fun s1 u => s1.precise c g u 0x01 0 0) s)
      else if (s.core c).freeBlocks < k then .next s
      else
        let s1 := s.modGroup c g (·.acquire w k)
        let s2 := ts.foldl (fun s2 u => s2.modThread c g u
          (fun th => { th with wait := th.wait.map (fun a => { a with ended := true }) })) s1
        .next (s2.modCore c (fun y => { y with rblkQ := y.rblkQ.filter (fun e => !(e.1 == g && ts.contains e.2)) }))
    | _, _ => .next (s.modCore c (fun y => { y with rblkQ := rest }))

/-! ## Index registers -/

/-- IDX (R319). -/
def execIdx (o : Op) (s : State) : Out := .next (s.laneOp (.idx o) o noCheck (fun L =>
  { L.th with idx := tset L.th.idx L.fD ((L.srcBw (.idx o)).extractLsb' 0 16) }))

/-- IDXADD (R319). -/
def execIdxadd (o : Op) (s : State) : Out := .next (s.laneOp (.idxadd o) o noCheck (fun L =>
  { L.th with idx := tset L.th.idx L.fD (L.th.index L.fA + (L.srcBw (.idxadd o)).extractLsb' 0 16) }))

/-! ## Special registers -/

/-- The mirror of the group's convoy on its cluster (R63). -/
def Lane.mirror (L : Lane) : Option Mirror :=
  if L.g.cv.id = 0 then none else tfind (L.s.cluster (clusterOf L.c)).mirrors (cvKey L.g.ctx L.g.cv.id.toNat)

/-- sr.lvl n (R179). -/
def Lane.levelWord (L : Lane) (n : Nat) : Dword :=
  let r := L.g.record
  let e := r.level n
  if !e.used then 0
  else
    let u := L.g.unit n L.tid
    let index := if n < r.top then u % (r.level (n + 1)).extent else u
    BitVec.ofNat 64 (index % 65536 + (if n = 0 then 1 else e.extent) * 2 ^ 32 + e.domain * 2 ^ 48 + e.scope * 2 ^ 52)

/-- The value of special register n for a thread (R130, R131, R65, R79, R83, R155, R179, R231, R232); none: no such register. -/
def Lane.special (L : Lane) (n : Nat) : Option Dword :=
  let k := L.s.core L.c
  if 0x28 ≤ n ∧ n ≤ 0x2F then some (L.levelWord (n - 0x28))
  else
    match n with
    | 0x00 => some (BitVec.ofNat 64 ww)
    | 0x01 => some (BitVec.ofNat 64 (L.tid + homeLane L.tid * 2 ^ 16 + homeWave L.tid * 2 ^ 32))
    | 0x02 => some L.blocksWord
    | 0x03 => some (L.th.fmode.setWidth 64)
    | 0x04 => some (L.th.fstat.setWidth 64)
    | 0x08 => some k.ct
    | 0x09 => some (BitVec.ofNat 64 ((if k.target != k.mask then 2 ^ 32 else 0) + k.target.toNat * 2 ^ 16 + k.mask.toNat))
    | 0x10 => some (L.g.cv.id.setWidth 64)
    | 0x11 => some (L.g.cv.slip.setWidth 64)
    | 0x12 => some (match L.mirror with
        | some m => BitVec.ofNat 64 (m.total * 2 ^ 32 + m.present.length)
        | none => 0)
    | 0x13 => some (if L.g.cv.id = 0 then 0
        else pairOf L.th.cursor (match L.mirror with | some m => m.low.getD 0 | none => 0))
    | 0x14 => some (if L.g.cv.id = 0 then 0
        else pairOf (L.g.cv.cause.setWidth 32 <<< 1 ||| (if L.g.cv.shed then 1 else 0)) L.g.cv.count)
    | 0x15 => some (BitVec.ofNat 64 L.g.cv.timeout)
    | 0x20 => some ((L.s.cluster (clusterOf L.c)).ratio.setWidth 64)
    | 0x30 => some L.g.tvec
    | 0x31 => some (L.g.wdog.setWidth 64)
    | _ => none

def srdCheck (L : Lane) : Option Trap := if (L.special L.fA).isNone then some { cause := 0x01 } else none

/-- SRD vD (R320). -/
def execSrdV32 (o : Op) (s : State) : Out :=
  .next (s.laneOp (.srdV32 o) o srdCheck (fun L => L.putD false ((L.special L.fA).getD 0)))

/-- SRD wD (R320). -/
def execSrdV64 (o : Op) (s : State) : Out :=
  .next (s.laneOp (.srdV64 o) o srdCheck (fun L => L.putD true ((L.special L.fA).getD 0)))

/-- SRD sD (R320). -/
def execSrdS (o : Op) (s : State) : Out :=
  .next (s.groupOp (.srdS o) o srdCheck (fun L s1 =>
    s1.modGroup L.c L.slot (fun g => g.sput L.fD ((L.special L.fA).getD 0))))

/-- A value held within a range. -/
def clampNat (lo hi n : Nat) : Nat := if n < lo then lo else if hi < n then hi else n

/-- Step 10 of SWR: a register that takes no write, or a slip limit out of range (R321, R65, R307). The value of a group's
register is the lowest active home lane's. -/
def swrCheck (i : Instr) (val : Lane → Dword) (L : Lane) : Option Trap :=
  match L.fA with
  | 0x03 | 0x04 | 0x15 | 0x30 | 0x31 => none
  | 0x11 => if 65535 < (val (L.leader i)).toNat then some { cause := 0x01 } else none
  | _ => some { cause := 0x01 }

/-- A write of a special register held per group (R321, R65, R231, R232). -/
def Group.swr (g : Group) (n : Nat) (v : Dword) : Group :=
  match n with
  | 0x11 => { g with cv := { g.cv with slip := v.extractLsb' 0 16 } }
  | 0x15 => { g with cv := { g.cv with timeout := clampNat 256 1048576 v.toNat } }
  | 0x30 => { g with tvec := v.extractLsb' 0 57 |>.setWidth 64 }
  | 0x31 => { g with wdog := lowWord v }
  | _ => g

/-- SWR: each active thread's own sr.fmode or sr.fstat, or the group's register once (R321). -/
def State.swr (s : State) (i : Instr) (o : Op) (val : Lane → Dword) : State :=
  if o.a = 0x03 then s.laneOp i o (swrCheck i val) (fun L => { L.th with fmode := (val L).extractLsb' 0 3 })
  else if o.a = 0x04 then s.laneOp i o (swrCheck i val) (fun L => { L.th with fstat := (val L).extractLsb' 0 6 })
  else s.groupOp i o (swrCheck i val) (fun L s1 => s1.modGroup L.c L.slot (fun g => g.swr L.fA (val L)))

/-- SWR sr, b (R321). -/
def execSwrB (o : Op) (s : State) : Out :=
  .next (s.swr (.swrB o) o (fun L => (L.srcBw (.swrB o)).setWidth 64))

/-- SWR sr, wB (R321). -/
def execSwrW (o : Op) (s : State) : Out := .next (s.swr (.swrW o) o (fun L => L.srcBd (.swrW o)))

/-- SWR sr, sB (R321). -/
def execSwrS (o : Op) (s : State) : Out := .next (s.swr (.swrS o) o (fun L => L.srcBd (.swrS o)))

/-! ## Exchanging values across the issue wave -/

/-- ELECT (R322). -/
def execElect (o : Op) (s : State) : Out := .next (s.crossOp (.elect o) o (fun ls L =>
  L.putP L.fD ((ls.head?.map (·.tid)) == some L.tid)))

/-- BCAST (R323): A is read from the lane that B names, as Lane.uses says. (DEDUCED, log entry 33.) -/
def execBcast (o : Op) (s : State) : Out := .next (s.laneOp (.bcast o) o noCheck (fun L =>
  match (L.uses (.bcast o)).v with
  | u :: _ => L.putD (wideTy L.fn) (placed L.fn (L.source (wideTy L.fn) u.num u.mod).toNat)
  | [] => L.th))

/-- The predicate of each participant that A names (R324). -/
def predsOf (ls : List Lane) : List Bool := ls.map (fun x => x.th.pred x.fA)

/-- VOTE.all (R324). -/
def execVoteAll (o : Op) (s : State) : Out :=
  .next (s.crossOp (.voteAll o) o (fun ls L => L.putP L.fD ((predsOf ls).all id)))

/-- VOTE.any (R324). -/
def execVoteAny (o : Op) (s : State) : Out :=
  .next (s.crossOp (.voteAny o) o (fun ls L => L.putP L.fD ((predsOf ls).any id)))

/-- VOTE.uni (R324). -/
def execVoteUni (o : Op) (s : State) : Out :=
  .next (s.crossOp (.voteUni o) o (fun ls L => L.putP L.fD ((predsOf ls).all id || !(predsOf ls).any id)))

/-- BALLOT (R325). -/
def execBallot (o : Op) (s : State) : Out := .next (s.crossOp (.ballot o) o (fun ls L =>
  L.putD false (BitVec.ofNat 64 ((ls.map (fun x => if x.th.pred x.fA then 2 ^ homeLane x.tid else 0)).sum))))

/-- RED's and SCAN's operand type: 64 bits wide, signed (R326). -/
def redWide (m : Nat) : Bool := m == 2 || m == 3

/-- Combine (R326, R327): integers at the type's width; .f32 to nearest even, subnormals kept, no flags. -/
def combine (fn m : Nat) (a b : Dword) : Dword :=
  if m = 4 then
    let x := Fmt.f32.unpack (lowWord a).toNat
    let y := Fmt.f32.unpack (lowWord b).toNat
    BitVec.ofNat 64 (match fn with
      | 0 => Fmt.f32.add 0 x y
      | 1 => Fmt.f32.minmax false x y
      | _ => Fmt.f32.minmax true x y).1
  else
    let f : IntOp2 := match fn with
      | 0 => opAdd | 1 => opMin | 2 => opMax | 3 => opAnd | 4 => opOr | _ => opXor
    atWidth2 f m a b

/-- The identity of an exclusive SCAN (R326). -/
def scanIdentity (fn m : Nat) : Dword :=
  match fn, m with
  | 1, 0 => 0x7FFFFFFF
  | 1, 1 => 0xFFFFFFFF
  | 1, 2 => 0x7FFFFFFFFFFFFFFF
  | 1, 3 => 0xFFFFFFFFFFFFFFFF
  | 1, _ => 0x7F800000
  | 2, 0 => 0x80000000
  | 2, 2 => 0x8000000000000000
  | 2, 4 => 0xFF800000
  | 3, _ => 0xFFFFFFFFFFFFFFFF
  | _, _ => 0

/-- A fold over participants' values, in ascending home lane (R327). -/
def foldFrom (f : Dword → Dword → Dword) : List Dword → Dword
  | [] => 0
  | x :: xs => xs.foldl f x

/-- A NaN of .f32 as the canonical one (R135). -/
def canonNan (m : Nat) (v : Dword) : Dword :=
  if m = 4 && (Fmt.f32.unpack (lowWord v).toNat).isNaN then BitVec.ofNat 64 Fmt.f32.nanCode else v

/-- RED (R326, R327). -/
def execRed (o : Op) (s : State) : Out := .next (s.crossOp (.red o) o (fun ls L =>
  let m := o.m.toNat
  L.putD (redWide m) (canonNan m (foldFrom (combine L.fn m) (ls.map (fun x => x.source (redWide m) x.fA 0))))))

/-- The participants that SCAN folds for a lane: those before it, and itself unless exclusive (R327). -/
def scanOver (ls : List Lane) (excl : Bool) (L : Lane) : List Lane :=
  ls.filter (fun x => homeLane x.tid < homeLane L.tid || (!excl && x.tid == L.tid))

/-- SCAN (R326, R327). -/
def execScan (o : Op) (s : State) : Out := .next (s.crossOp (.scan o) o (fun ls L =>
  let m := o.m.toNat
  let excl := 8 ≤ L.fn
  match scanOver ls excl L with
  | [] => L.putD (redWide m) (scanIdentity (L.fn % 8) m)
  | us => L.putD (redWide m) (canonNan m (foldFrom (combine (L.fn % 8) m) (us.map (fun x => x.source (redWide m) x.fA 0))))))

/-! ## HDM -/

/-- FP32 addition and multiplication to nearest even, subnormals kept, without flags (R335). -/
def addRne (a b : Nat) : Nat := (Fmt.f32.add 0 (Fmt.f32.unpack a) (Fmt.f32.unpack b)).1
def subRne (a b : Nat) : Nat := (Fmt.f32.add 0 (Fmt.f32.unpack a) (Fmt.f32.unpack b).neg).1
def mulRne (a b : Nat) : Nat := (Fmt.f32.mul 0 (Fmt.f32.unpack a) (Fmt.f32.unpack b)).1

/-- One step of the butterfly over 32 values (R335). -/
def hdmStep (y : List Nat) (st : Nat) : List Nat :=
  (List.range 32).map (fun l =>
    let d := 2 ^ st
    if l / d % 2 = 0 then addRne (y.getD l 0) (y.getD (l + d) 0) else subRne (y.getD (l - d) 0) (y.getD l 0))

/-- The five steps, and the normalising product (R335). -/
def hdm (norm : Bool) (y : List Nat) : List Nat :=
  let z := (List.range 5).foldl hdmStep y
  if norm then z.map (fun v => mulRne v 0x3E3504F3) else z

/-- HDM's inputs: every lane's A, or +0 where the issue wave has no thread (R335, R311). -/
def Lane.hdmIn (L : Lane) : List Nat :=
  (List.range 32).map (fun l => match L.atLane l with | some u => (u.get (u.reg L.fA)).toNat | none => 0)

/-- HDM (R335). -/
def execHdm (o : Op) (s : State) : Out := .next (s.laneOp (.hdm o) o noCheck (fun L =>
  L.putD false (BitVec.ofNat 64 ((hdm false L.hdmIn).getD (homeLane L.tid) 0))))

/-- HDM.norm (R335). -/
def execHdmNorm (o : Op) (s : State) : Out := .next (s.laneOp (.hdmNorm o) o noCheck (fun L =>
  L.putD false (BitVec.ofNat 64 ((hdm true L.hdmIn).getD (homeLane L.tid) 0))))

end Sys2Proof.Machine
end

