-- ==== Sys2Proof/Machine/Home.lean ====
section
/-! DEFINITION. The home vault controllers and colander slices (01_stacked_vaults.md R17 to R19, R27, R28;
03_colander_and_convoys.md R49 to R57; 05_logical_time.md R85 to R93): what arrives at a line's home, and the notices
that reading it may raise. -/

namespace Sys2Proof.Machine

/-! ## Notices and supervisor events -/

/-- The tags of the supervisor contexts (R428). -/
def Hub.supervisors (h : Hub) : List Nat :=
  ((List.range 4).filterMap (fun k =>
    let r := tget 0 h.supctx k
    if r.getLsbD 63 then some (r.extractLsb' 0 12).toNat else none)).eraseDups

/-- A waiting IDLE is served when a bit of its mask is set in its context's event word: its threads get the bits, which are
cleared, and go on (R387). -/
def State.serveIdler (s : State) (w : Idler) : State :=
  match s.group? w.core w.slot with
  | none => s
  | some g =>
    let v := tget 0 s.hub.events g.ctx &&& w.mask
    if v = 0 then s
    else
      let s1 := s.modHub (fun h =>
        { h with events := tset h.events g.ctx (tget 0 h.events g.ctx &&& ~~~v), idlers := h.idlers.filter (· != w) })
      w.dests.foldl (fun s2 d =>
        s2.modThread w.core w.slot d.1 (fun th => { th.put d.2 (v.setWidth 32) with pc := w.next, wait := none })) s1

/-- An event is latched in every supervisor context's event word, and waiting threads are served in order (R387).
Bits: 0 FAULT, 1 LAUNCH, 2 PRE, 3 THERM, 4 NOTICE. -/
def State.raiseEvent (s : State) (bit : Nat) : State :=
  let s1 := s.modHub (fun h =>
    { h with events := h.supervisors.foldl (fun t c => tset t c (tget 0 t c ||| (1#5 <<< bit))) h.events })
  s1.hub.idlers.foldl State.serveIdler s1

/-- An MSI-X vector is raised (R430). -/
def State.raiseMsix (s : State) (v : Nat) : State := s.modHub (fun h => { h with msix := h.msix ++ [v] })

/-- A poisoned sector is reported to Benuino, with vault, the offset of its line, and sector (R19); the notice of R430 follows.
`cell` is the line's first. (DESIGN CHOICE, log entry 76.) -/
def State.reportPoison (s : State) (cell sector : Nat) : State :=
  ((s.modHub (fun h => { h with notices := h.notices ++ [(vaultOf cell, offsetOf cell, sector)] })).raiseMsix 6).raiseEvent 4

/-! ## Atomic operations -/

/-- Integer operations of R287. -/
def atomInt (fn : Nat) (sg : Bool) {w : Nat} (old b : BitVec w) : BitVec w :=
  match fn with
  | 0 => old + b
  | 1 => old - b
  | 2 => if lessThan sg b old then b else old
  | 3 => if lessThan sg old b then b else old
  | 4 => old &&& b
  | 5 => old ||| b
  | 6 => old ^^^ b
  | 7 => b
  | 8 => if lessThan false old b then old + 1 else 0
  | _ => if old = 0 || lessThan false b old then b else old - 1

/-- FP32 operations of R287, without mode or flags. -/
def atomF32 (fn old b : Nat) : Nat :=
  match fn with
  | 7 => b
  | 10 => addRne old b
  | 11 => (Fmt.f32.minmax false (Fmt.f32.unpack old) (Fmt.f32.unpack b)).1
  | _ => (Fmt.f32.minmax true (Fmt.f32.unpack old) (Fmt.f32.unpack b)).1

/-- The bytes that an atomic access writes over the bytes it found (R287 to R289). -/
def AccKind.apply (k : AccKind) (size : Nat) (old data cmp : List Byte) : List Byte :=
  let a := leNat old
  let b := leNat data
  match k with
  | .atomic fn ty _ =>
    if ty = 4 then leBytes size (atomF32 fn a b)
    else if size = 8 then leBytes 8 (atomInt fn (ty % 2 == 0) (BitVec.ofNat 64 a) (BitVec.ofNat 64 b)).toNat
    else leBytes size (atomInt fn (ty % 2 == 0) (BitVec.ofNat 32 a) (BitVec.ofNat 32 b)).toNat
  | .cas _ _ => if old == cmp then data else old
  | _ => old

/-! ## Lines at home -/

/-- The line of an address as a key reads it at home, with its times and poison bits. -/
def State.homeLine (s : State) (key pa cell : Nat) : Got × State :=
  let (bs, s1) := s.readMem key (lineOf pa) 256
  let t := s.times cell
  ({ bytes := bs, wts := t.1, rts := t.2, poison := s.poisonOf cell }, s1)

/-- An uncorrectable error marks its sectors, and each is reported; corrected words are counted (R18, R19, R28). (DESIGN CHOICE, log entry
76.) -/
def State.noteEcc (s : State) (cell : Nat) (e : Ecc) : State :=
  let s1 := s.modVault (vaultOf cell) (fun v => { v with errors := v.errors + e.corrected })
  if e.bad = 0 then s1
  else
    let s2 := s1.setSide (cell / 256) { s1.side (cell / 256) with poison := (s1.side (cell / 256)).poison ||| e.bad }
    (List.range 4).foldl (fun s3 k => if e.bad.getLsbD k then s3.reportPoison cell k else s3) s2

/-- The errors that stand in some sectors of a line are found by a read of them (R18, R19, R28). -/
def State.findErrors (s : State) (cell : Nat) (sects : BitVec 4) : State :=
  (List.range 4).foldl (fun s1 k =>
    match (if sects.getLsbD k then tfind s1.errors (cell / 64 + k) else none) with
    | some (n, bad) =>
      { s1 with errors := tdel s1.errors (cell / 64 + k) }.noteEcc cell { corrected := n, bad := if bad then 1 <<< k else 0 }
    | none => s1) s

/-- Sectors written whole have no errors left. -/
def State.clearErrors (s : State) (cell : Nat) (sects : BitVec 4) : State :=
  { s with errors := s.errors.filter (fun e => !(e.1 / 4 == cell / 256 && sects.getLsbD (e.1 % 4))) }

/-- An effect under the generation of a key that a request came with: a key that has changed since does not reach it (R32). -/
def State.underGen (s : State) (key gen : Nat) (f : State → State) : State :=
  if tfind s.hub.keys key = some gen then f s
  else (f (s.modHub (fun h => { h with keys := tset h.keys key gen }))).modHub (fun h => { h with keys := s.hub.keys })

/-- A request that reaches home and traps with 0x0C there: its port's link is down (R28), or its key slot is empty by then (R30, R32).
(DEDUCED, log entry 44.) -/
def State.refuses (s : State) (key pa : Nat) : Bool := s.linkDown pa || !s.keyLoaded key

/-- Lease length by hint (R84). -/
def leaseLen (h : Nat) : Dword := if h = 4 then 256 else if h = 5 then 0 else 16

/-- The lease end that a line takes for the requesters listed (R53, R85). -/
def leaseEnd (reqs : List ReadReq) (w r : Dword) : Dword :=
  let asked := reqs.filter (fun q => q.hint != 5)
  if asked.isEmpty then r
  else
    let len := asked.foldl (fun m q => maxD m (leaseLen q.hint)) 0
    let cmax := reqs.foldl (fun m q => maxD m q.ct) 0
    maxD r (maxD (w + len) (cmax + len))

/-- The data of a pending read leaves its controller, which fixes the lease (R53, R85); it is decrypted under the key that the slot held
when the read came (R32, R57). A line that is no longer served reads as poisoned. (DEDUCED, log entry 10.) -/
def State.leaveVault (s : State) (u : Umbra) (e : Ecc) : Got × State :=
  match s.homeCell u.pa with
  | none =>
    let (bs, s1) := s.freeBytes 256
    ({ bytes := bs, wts := 0, rts := 0, poison := 0xF }, s1)
  | some cell =>
    let s1 := (s.findErrors cell 0xF).noteEcc cell e
    let (w, r) := s1.times cell
    let s2 := if s1.lost cell then s1 else s1.setTimes cell w (leaseEnd u.reqs w r)
    if tfind s2.hub.keys u.key = some u.gen then s2.homeLine u.key u.pa cell
    else
      let (g, s3) := (s2.modHub (fun h => { h with keys := tset h.keys u.key u.gen })).homeLine u.key u.pa cell
      (g, s3.modHub (fun h => { h with keys := s.hub.keys }))

/-- An umbra of a vault replaced, by its way. -/
def State.setUmbra (s : State) (v : Nat) (u : Umbra) : State :=
  s.modVault v (fun x => { x with umbras := x.umbras.map (fun y => if y.way == u.way then u else y) })

/-- The read of an umbra is performed if it has not been and does not wait behind an exclusive lease (R55, R87, R93). -/
def State.leaveNow (s : State) (v : Nat) (u : Umbra) : State :=
  if u.left.isSome || u.waits then s
  else
    let (g, s1) := s.leaveVault u { corrected := 0, bad := 0 }
    s1.setUmbra v { u with left := some g }

/-- The open umbras of a line. -/
def State.umbrasOf (s : State) (cell : Nat) : List Umbra :=
  (s.vault (vaultOf cell)).umbras.filter (fun u => s.homeCell u.pa == some cell)

/-- An umbra accepts no more joiners (R55). -/
def State.sealUmbra (s : State) (v way : Nat) : State :=
  s.modVault v (fun x => { x with umbras := x.umbras.map (fun y => if y.way == way then { y with sealed := true } else y) })

/-- The line's umbras are sealed, their reads performed first (R55). One whose read waits behind the request that is performed now
opened after it, and stays. -/
def State.sealLine (s : State) (cell : Nat) : State :=
  ((s.umbrasOf cell).filter (fun u => !u.waits)).foldl (fun s1 u => (s1.leaveNow (vaultOf cell) u).sealUmbra (vaultOf cell) u.way) s

/-! ## Lines under an exclusive lease (R93) -/

/-- A request is held behind an exclusive lease and the owner is recalled (R93); `gen` is the generation of its key when it came. (DEDUCED,
log entry 10.) -/
def State.holdAtHome (s : State) (v : Nat) (e : Excl) (gen : Nat) (m : Msg) : State :=
  let s1 := s.modVault v (fun x =>
    { x with excls := x.excls.map (fun y => if y.pa == e.pa then { y with held := y.held ++ [(gen, m)], recalled := true } else y) })
  if e.recalled then s1 else s1.post (.exclRecall e.core e.pa e.key)

/-- A write or exclusive request that is held seals the line's umbras as it comes (R55). -/
def State.sealWaiting (s : State) (m : Msg) : State :=
  match m, s.homeCell m.pa with
  | .read _, _ | .renew _ _ _ _ _ _ _, _ | .vaultRead _ _ _ _, _ | _, none => s
  | _, some cell => (s.umbrasOf cell).foldl (fun s1 u => s1.sealUmbra (vaultOf cell) u.way) s

/-! ## Slices -/

def Vault.usedWays (v : Vault) : List Nat := v.umbras.flatMap (fun u => u.way :: u.more)

/-- The requesters of a reflection, one copy per destination cluster (R53). -/
def State.reflect (s : State) (pa key : Nat) (reqs : List ReadReq) (g : Got) : State :=
  ((reqs.map (fun q => clusterOf q.core)).eraseDups).foldl (fun s1 k =>
    s1.post (.reflect k (lineOf pa) key (reqs.filter (fun q => clusterOf q.core == k)) g)) s

/-- A read waits at its slice (R52). -/
def State.waitAtSlice (s : State) (v : Nat) (r : ReadReq) : State := s.modVault v (fun x => { x with waiting := x.waiting ++ [r] })

/-- A slice takes a read: it joins the open unsealed umbra of its tag, in an overflow way where the chain is full; or it
opens one in its set, and its vault read waits behind an exclusive lease; or it waits (R50 to R52, R93). Under a key slot that is empty
it comes back as poisoned data does (R30). A way is the lowest-numbered free one. (DEDUCED, log entry 44; DESIGN CHOICE, log entry 76.) -/
def State.acceptRead (s : State) (r : ReadReq) : State :=
  match (if s.keyLoaded r.key then s.homeCell r.pa else none) with
  | none =>
    let (bs, s1) := s.freeBytes 256
    s1.reflect r.pa r.key [r] { bytes := bs, wts := 0, rts := 0, poison := 0xF }
  | some cell =>
    let v := vaultOf cell
    let x := s.vault v
    let same : Nat → Nat → Bool := fun pa key => key == r.key && s.homeCell pa == some cell
    if x.waiting.any (fun q => same q.pa q.key) then s.waitAtSlice v r
    else
      match x.umbras.find? (fun u => !u.sealed && same u.pa u.key) with
      | some u =>
        if u.reqs.length < 63 * (1 + u.more.length) then s.setUmbra v { u with reqs := u.reqs ++ [r] }
        else
          match firstFree x.usedWays 128 with
          | some w => s.setUmbra v { u with reqs := u.reqs ++ [r], more := u.more ++ [w] }
          | none => s.waitAtSlice v r
      | none =>
        let set := offsetOf cell / 256 % 16
        match (List.range 8).find? (fun k => !x.usedWays.contains (8 * set + k)) with
        | some k =>
          let u : Umbra := { way := 8 * set + k, more := [], pa := lineOf r.pa, key := r.key, reqs := [r], sealed := false, left := none
                             gen := s.keyGenOf r.key, waits := (s.owner? r.pa).isSome }
          let s1 := s.modVault v (fun y => { y with umbras := y.umbras ++ [u] })
          match s.owner? r.pa with
          | some (w, e) => s1.holdAtHome w e u.gen (.vaultRead v u.way u.pa u.key)
          | none => s1
        | none => s.waitAtSlice v r

/-- Waiting reads are taken in arrival order (R52). -/
def State.retryWaiting (s : State) (v : Nat) : State :=
  let ws := (s.vault v).waiting
  ws.foldl State.acceptRead (s.modVault v (fun x => { x with waiting := [] }))

/-! ## Requests at the controller -/

/-- A store performed at home now (R88, R94): the timestamp it takes, where the memory is COH. Under a key slot that is empty nothing is
stored (R30). (DEDUCED, log entry 44.) -/
def State.storeAtHome (s : State) (coh : Bool) (key pa : Nat) (ct : Dword) (data : List (Nat × Byte)) : Dword × State :=
  match s.homeCell pa with
  | none => (ct, s)
  | some cell =>
    if s.lost cell || !s.keyLoaded key then (ct, s)
    else
      let s1 := s.sealLine cell
      let w := maxD ct ((s1.times cell).2 + 1)
      let s2 := if coh then s1.setTimes cell w w else s1
      (w, (s2.storeHome key (lineOf pa) data).clearErrors cell (wholeSectors (data.map (fun e => e.1 % 256))))

/-- An atomic performed at home now (R92, R288): its time, the bytes found, and whether it traps with 0x0C: its sector is
poisoned, or the link to it is down (R28). On a die without power it is acknowledged and discarded (R23). (DEDUCED, log entry 44.) -/
def State.atomicAtHome (s : State) (coh : Bool) (key pa : Nat) (ct : Dword) (kind : AccKind) (size : Nat)
    (data cmp : List Byte) : Dword × List Byte × Bool × State :=
  match s.homeCell pa with
  | none => let (bs, s1) := s.freeBytes size; (ct, bs, false, s1)
  | some cell =>
    if s.lost cell || !s.keyLoaded key then let (bs, s1) := s.freeBytes size; (ct, bs, s.refuses key pa, s1)
    else
      let s1 := (s.sealLine cell).findErrors cell (1 <<< (pa / 64 % 4))
      if (s1.side (cell / 256)).poison.getLsbD (pa / 64 % 4) then
        let (bs, s2) := s1.freeBytes size
        (ct, bs, true, s2)
      else
        let (old, s2) := s1.readMem key pa size
        let w := maxD ct ((s2.times cell).2 + 1)
        let s3 := if coh then s2.setTimes cell w w else s2
        (w, old, false, s3.storeHome key (lineOf pa) (zipFrom pa (kind.apply size old data cmp)))

/-- The bytes of the sectors of a set, with their addresses. -/
def sectorBytes (line : Nat) (sect : BitVec 4) (bs : List Byte) : List (Nat × Byte) :=
  (zipFrom line bs).filter (fun e => sect.getLsbD (e.1 / 64 % 4))

/-- A renewal performed at home (R87), after the reads of the line's open umbras (R101). -/
def State.renewAtHome (s : State) (core id pa key : Nat) (wts : Option Dword) (ct len : Dword) : State :=
  match (if s.keyLoaded key then s.homeCell pa else none) with
  | none =>
    let (bs, s1) := s.freeBytes 256
    s1.post (.renewReply core id pa key 0 ct (some { bytes := bs, wts := 0, rts := ct, poison := 0xF }))
  | some cell =>
    let s0 := (s.umbrasOf cell).foldl (fun s2 u => s2.leaveNow (vaultOf cell) u) s
    let (w, r) := s0.times cell
    let s1 := if wts == some w then s0 else s0.findErrors cell 0xF
    if wts == some w && !s1.lost cell then
      let r1 := maxD r (ct + len)
      (s1.setTimes cell w r1).post (.renewReply core id pa key w r1 none)
    else
      let r1 := maxD r (maxD (w + len) (ct + len))
      let s2 := if s1.lost cell then s1 else s1.setTimes cell w r1
      let (g, s3) := s2.homeLine key pa cell
      s3.post (.renewReply core id pa key w r1 (some { g with rts := r1 }))

/-- An exclusive lease granted, or refused where the table of 32 is full or the line is lost (R93); the umbra is sealed all the same
(R55). -/
def State.grantExcl (s : State) (core id pa key : Nat) : State :=
  match (if s.keyLoaded key then s.homeCell pa else none) with
  | none => s.post (.exclGrant core id pa key none)
  | some cell =>
    let v := vaultOf cell
    if s.lost cell then s.post (.exclGrant core id pa key none)
    else
      let s0 := s.sealLine cell
      if 32 ≤ (s.vault v).excls.length then s0.post (.exclGrant core id pa key none)
      else
      let s1 := s0.findErrors cell 0xF
      let (g, s2) := s1.homeLine key pa cell
      (s2.modVault v (fun x => { x with
        excls := x.excls ++ [{ pa := lineOf pa, key := key, core := core, held := [], recalled := false }] })).post
        (.exclGrant core id pa key (some g))

/-- A request performed at home. -/
def State.performAtHome (s : State) (m : Msg) : State :=
  match m with
  | .read r => s.acceptRead r
  | .renew core id pa key wts ct len => s.renewAtHome core id pa key wts ct (BitVec.ofNat 64 len)
  | .cohStore core id pa key ct data =>
    let (w, s1) := s.storeAtHome true key pa ct data
    s1.post (.ack core id pa key (some w) data [] (s.refuses key pa) ((s.homeCell pa).map (fun cell => (s.times cell).1)))
  | .strStore core id pa key data =>
    let (_, s1) := s.storeAtHome false key pa 0 data
    s1.post (.ack core id pa key none data [] (s.refuses key pa) none)
  | .writeBack core pa key sect bytes =>
    let (_, s1) := s.storeAtHome false key pa 0 (sectorBytes (lineOf pa) sect bytes)
    s1.post (.ack core 0 pa key none [] [] false none)
  | .homeAtomic core id pa key ct coh kind size data cmp =>
    let (w, old, bad, s1) := s.atomicAtHome coh key pa ct kind size data cmp
    s1.post (.ack core id pa key (if coh then some w else none) [] old bad none)
  | .exclReq core id pa key _ => s.grantExcl core id pa key
  | .vaultRead v way _ _ =>
    s.modVault v (fun x => { x with umbras := x.umbras.map (fun u => if u.way == way then { u with waits := false } else u) })
  | _ => s

/-- A request arrives at a line's home: held while another owns the line, else performed (R93). -/
def State.arriveAtHome (s : State) (m : Msg) : State :=
  match s.owner? m.pa with
  | some (v, e) =>
    if s.keyLoaded m.key then (s.sealWaiting m).holdAtHome v e (s.keyGenOf m.key) m else s.performAtHome m
  | none => s.performAtHome m

/-- A request that was held is performed under the key it came under, or held again (R32, R93). -/
def State.release (s : State) (x : Nat × Msg) : State :=
  match s.owner? x.2.pa with
  | some (v, e) => s.holdAtHome v e x.1 x.2
  | none => s.underGen x.2.key x.1 (·.performAtHome x.2)

/-- An exclusive line returns: the controller takes its values, frees the entry and performs the held requests in
arrival order (R93). -/
def State.returnExcl (s : State) (pa key : Nat) (dirty : BitVec 4) (g : Got) : State :=
  match s.owner? pa, s.homeCell pa with
  | some (v, e), some cell =>
    let s1 := s.modVault v (fun x => { x with excls := x.excls.filter (·.pa != e.pa) })
    let s2 :=
      if s1.lost cell then s1
      else (s1.setTimes cell g.wts g.rts).storeHome key (lineOf pa) (sectorBytes (lineOf pa) dirty g.bytes)
    e.held.foldl State.release s2
  | _, _ => s

/-- A unit that goes to home directly finds the line there: an owner is recalled and its return taken in one step; where the
grant has not reached it, the grant is withdrawn and its atomic executes at home (R93). (DESIGN CHOICE, log entry 22.) -/
def State.pull (s : State) (pa : Nat) : State :=
  match s.owner? pa with
  | none => s
  | some (v, e) =>
    match (s.core e.core).l1.find? (fun x => x.excl && x.pa == e.pa && x.key == e.key) with
    | some x =>
      (s.modCore e.core (fun k => { k with l1 := k.l1.filter (· != x) })).returnExcl e.pa e.key (x.dirty &&& ~~~x.poison)
        { bytes := x.bytes, wts := x.wts, rts := x.rts, poison := x.poison }
    | none =>
      match s.net.find? (fun m => match m.2 with | .exclReturn c p _ _ _ => c == e.core && p == e.pa | _ => false) with
      | some (n, .exclReturn _ _ key dirty g) => (s.drop n).returnExcl e.pa key dirty g
      | _ =>
        let deny : Nat × Msg → Nat × Msg := fun m =>
          match m with
          | (n, .exclGrant c id p key (some g)) => (n, .exclGrant c id p key (if c == e.core && lineOf p == e.pa then none else some g))
          | _ => m
        let s1 := { s with net := s.net.map deny }
        let s2 := s1.modVault v (fun x => { x with excls := x.excls.filter (·.pa != e.pa) })
        e.held.foldl State.release s2

/-- A context has requested n bytes of the vaults and the colander (R243). (DESIGN CHOICE, log entry 63.) -/
def State.asks (s : State) (ctx n : Nat) : State :=
  s.modHub (fun h => { h with contexts := h.contexts.map (fun x => if x.1 = ctx then (x.1, { x.2 with bytes := x.2.bytes + n }) else x) })

/-- A group's context has requested n bytes (R243). (DESIGN CHOICE, log entry 63.) -/
def State.groupAsks (s : State) (c slot n : Nat) : State :=
  match s.group? c slot with
  | some g => s.asks g.ctx n
  | none => s

/-- The sectors of a line that n bytes from an offset lie in. -/
def sectorSet (off n : Nat) : BitVec 4 :=
  (List.range 4).foldl (fun (m : BitVec 4) k => if off < 64 * k + 64 && 64 * k < off + n then m ||| (1 <<< k) else m) 0

/-- n bytes of one line read at home with hint 5 (R41, R117, R431), with the line's wts; or the state in which the line is not served or a
sector that is read is poisoned, the errors there found. (DESIGN CHOICE, log entry 22.) -/
def State.loadDirect (s : State) (key pa n : Nat) : Except State (List Byte × Dword × State) :=
  let s0 := s.pull pa
  match s0.homeCell pa with
  | none => .error s0
  | some cell =>
    let s1 := s0.findErrors cell (sectorSet (pa % 256) n)
    if (List.range n).any (fun k => (s1.poisonOf cell).getLsbD ((pa + k) / 64 % 4)) then .error s1
    else
      let (bs, s2) := s1.readMem key pa n
      .ok (bs, (s1.times cell).1, s2)

/-- A store of one line's bytes performed at home by such a unit. (DESIGN CHOICE, log entry 22.) -/
def State.storeDirect (s : State) (coh : Bool) (key pa : Nat) (ct : Dword) (data : List (Nat × Byte)) : Dword × State :=
  (s.pull pa).storeAtHome coh key pa ct data

/-- A read by a unit of the hub, of at most two lines; it waits for a slab's mode (R15). (DESIGN CHOICE, log entry 22.) -/
def State.hubLoad (s : State) (key pa n : Nat) : Except State (List Byte × State) :=
  (pieces pa n).foldl (fun acc p =>
    match acc with
    | .error s1 => .error s1
    | .ok (bs, s1) =>
      match (s1.touchSlab p.1).loadDirect key p.1 p.2 with
      | .error s2 => .error s2
      | .ok (x, _, s2) => .ok (bs ++ x, s2)) (.ok ([], s))

/-- A store of one line's bytes by such a unit, with ct 0; it waits for a slab's mode (R15). (DESIGN CHOICE, log entry 22.) -/
def State.hubStore (s : State) (coh : Bool) (key pa : Nat) (data : List (Nat × Byte)) : State :=
  ((s.touchSlab pa).storeDirect coh key pa 0 data).2

/-- A core's read of code or of a constant: an owner of its line is recalled, and errors in what is read are found (R18, R19, R93). (DESIGN
CHOICE, log entry 22.) -/
def State.readAt (s : State) (c ctx : Nat) (va : Dword) (acc : Nat) (priv : Bool) (n : Nat) : State :=
  match s.reach c ctx va acc priv with
  | .ok (_, pa, cell) => (s.pull pa).findErrors (cell / 256 * 256) (sectorSet (pa % 256) n)
  | .error _ => s

/-! ## Events of the slices and controllers -/

/-- SLICE_READ_ACCEPT (R51). -/
def execSliceReadAccept (m : Nat) (s : State) : Out :=
  match s.msg? m with
  | some (.read r) => .next ((s.drop m).acceptRead r)
  | _ => .next s

/-- VAULT_DATA_LEAVES (R53). -/
def execVaultDataLeaves (v way : Nat) (e : Ecc) (s : State) : Out :=
  match (s.vault v).umbras.find? (fun u => u.way == way && u.left.isNone && !u.waits) with
  | some u =>
    let (g, s1) := s.leaveVault u e
    .next (s1.setUmbra v { u with left := some g })
  | none => .next s

/-- UMBRA_CLOSE (R51, R52). -/
def execUmbraClose (v way : Nat) (s : State) : Out :=
  match (s.vault v).umbras.find? (fun u => u.way == way && u.left.isSome) with
  | some u =>
    match u.left with
    | some g =>
      let s1 := s.modVault v (fun x => { x with umbras := x.umbras.filter (·.way != way) })
      .next ((s1.reflect u.pa u.key u.reqs g).retryWaiting v)
    | none => .next s
  | none => .next s

/-- COH_STORE_AT_HOME (R88). -/
def execCohStoreAtHome (m : Nat) (s : State) : Out :=
  match s.msg? m with
  | some (.cohStore c i pa key ct data) => .next ((s.drop m).arriveAtHome (.cohStore c i pa key ct data))
  | _ => .next s

/-- STR_STORE_AT_HOME (R70, R94). -/
def execStrStoreAtHome (m : Nat) (s : State) : Out :=
  match s.msg? m with
  | some (.strStore c i pa key data) => .next ((s.drop m).arriveAtHome (.strStore c i pa key data))
  | _ => .next s

/-- WRITE_BACK_AT_HOME (R70, R97). -/
def execWriteBackAtHome (m : Nat) (s : State) : Out :=
  match s.msg? m with
  | some (.writeBack c pa key sect bytes) => .next ((s.drop m).arriveAtHome (.writeBack c pa key sect bytes))
  | _ => .next s

/-- RENEWAL_AT_HOME (R87). -/
def execRenewalAtHome (m : Nat) (s : State) : Out :=
  match s.msg? m with
  | some (.renew c i pa key w ct len) => .next ((s.drop m).arriveAtHome (.renew c i pa key w ct len))
  | _ => .next s

/-- HOME_ATOMIC (R92). -/
def execHomeAtomic (m : Nat) (s : State) : Out :=
  match s.msg? m with
  | some (.homeAtomic c i pa key ct coh kind size data cmp) =>
    .next ((s.drop m).arriveAtHome (.homeAtomic c i pa key ct coh kind size data cmp))
  | _ => .next s

/-- EXCLUSIVE_REQUEST (R93). -/
def execExclusiveRequest (m : Nat) (s : State) : Out :=
  match s.msg? m with
  | some (.exclReq c i pa key coh) => .next ((s.drop m).arriveAtHome (.exclReq c i pa key coh))
  | _ => .next s

/-- EXCLUSIVE_RETURN (R93). -/
def execExclusiveReturn (m : Nat) (s : State) : Out :=
  match s.msg? m with
  | some (.exclReturn _ pa key dirty g) => .next ((s.drop m).returnExcl pa key dirty g)
  | _ => .next s

/-- The bytes of a transfer that fall in one line, line by line. -/
def byLines (data : List (Nat × Byte)) : List (List (Nat × Byte)) :=
  ((data.map (fun e => lineOf e.1)).eraseDups).map (fun l => data.filter (fun e => lineOf e.1 == l))

/-- An answer to the host. -/
def State.reply (s : State) (bs : List Byte) : State := s.modHub (fun h => { h with replies := h.replies ++ [bs] })

/-- A host read performed with hint 5 under HKEY (R431): the answer is the bytes, or none for a read that completes with poison, as one
under an empty key slot does (R30). (DEDUCED, log entry 44.) -/
def State.hostRead (s : State) (pa n : Nat) : State :=
  let lines := byLines (zipFrom pa (List.replicate n 0))
  let r := lines.foldl (fun (acc : Option (List Byte) × State) l =>
    match acc.1, l with
    | some bs, e :: _ =>
      if stackedSize ≤ e.1 || !acc.2.keyLoaded acc.2.hub.hkey.toNat then (none, acc.2)
      else
        match acc.2.loadDirect acc.2.hub.hkey.toNat e.1 l.length with
        | .ok (x, _, s1) => (some (bs ++ x), s1)
        | .error s1 => (none, s1)
    | _, _ => acc) (some [], s)
  r.2.reply (r.1.getD [])

/-- A host write, as a COH store with ct 0 under HKEY, in the interleaved view (R431). -/
def State.hostStore (s : State) (pa : Nat) (bytes : List Byte) : State :=
  (byLines ((zipFrom pa bytes).filter (fun e => e.1 < stackedSize))).foldl (fun s1 l =>
    match l with
    | [] => s1
    | e :: _ => (s1.storeDirect true s1.hub.hkey.toNat e.1 0 l).2) s

/-- A host access that waits while the mode of one of its slabs is about to change, and those behind it (R15). -/
def State.hostWaits (s : State) (pa n : Nat) : Bool := !s.hub.hostHeld.isEmpty || s.slabHeld pa || s.slabHeld (pa + n - 1)

/-- HOST_CXL_READ (R431, R15). -/
def execHostCxlRead (pa n : Nat) (s : State) : Out :=
  .next (if s.hostWaits pa n then s.modHub (fun h => { h with hostHeld := h.hostHeld ++ [.read pa n] }) else s.hostRead pa n)

/-- HOST_CXL_WRITE (R431, R15). -/
def execHostCxlWrite (pa : Nat) (bytes : List Byte) (s : State) : Out :=
  .next (if s.hostWaits pa bytes.length then s.modHub (fun h => { h with hostHeld := h.hostHeld ++ [.write pa bytes] })
    else s.hostStore pa bytes)

/-- The held host accesses are performed in their order. -/
def State.releaseHost (s : State) : State :=
  s.hub.hostHeld.foldl (fun s1 x => match x with | .read pa n => s1.hostRead pa n | .write pa bs => s1.hostStore pa bs)
    (s.modHub (fun h => { h with hostHeld := [] }))

end Sys2Proof.Machine
end

