-- ==== Sys2Proof/Machine/Walker.lean ====
section
/-! DEFINITION. The walkers of the C-dies (02_translation.md R37 to R48), their fault queues
(26_host_fabric_security.md R429) and what a walk's end does to those that wait for it. -/

namespace Sys2Proof.Machine

/-! ## Those that wait -/

def modAccs (id : Nat) (f : Acc → Acc) (l : List Acc) : List Acc := l.map (fun a => if a.id == id then f a else a)

/-- An access changed, wherever it stands: at its core, or in a saved or resumed group's log (R48). -/
def State.modAcc (s : State) (c id : Nat) (f : Acc → Acc) : State :=
  (s.modCore c (fun k => { k with accs := modAccs id f k.accs })).modHub (fun h =>
    { h with
      saves := h.saves.map (fun e => (e.1, { e.2 with accs := modAccs id f e.2.accs }))
      resumes := h.resumes.map (fun r => { r with saved := { r.saved with accs := modAccs id f r.saved.accs } }) })

def State.acc? (s : State) (c id : Nat) : Option Acc := (s.core c).accs.find? (·.id == id)

/-- ACC of an access (R46): 0 read, 1 write, 2 atomic. -/
def Acc.code (a : Acc) : Nat :=
  match a.kind with
  | .store => 1
  | .atomic _ _ _ | .cas _ _ => 2
  | _ => 0

/-- The deferred trap of an access (R230, R233). -/
def Acc.dueFor (a : Acc) (cause : BitVec 16) : Due :=
  { cause := cause, pc := a.pc, va := a.va
    info := if cause = 0x0A then 0 else BitVec.ofNat 32 a.code, log := a.log, inner := a.priv }

/-- An access is held for its thread's handler, and its trap becomes due (R236). -/
def State.holdAcc (s : State) (c : Nat) (a : Acc) (cause : BitVec 16) : State :=
  (s.modAcc c a.id (fun x => { x with phase := .held, replay := true })).defer c a.slot a.tid (a.dueFor cause)

/-- A fault delivered to the walk of a saved access: its trap is due at resumption (R245). -/
def Saved.answer (x : Saved) (id : Nat) (cause : BitVec 16) : Saved :=
  match x.accs.find? (fun a => a.id == id && a.phase != .held) with
  | none => x
  | some a =>
    { x with
      accs := modAccs id (fun b => { b with phase := .held, replay := true }) x.accs
      group := { x.group with threads := modAt (fun t => { t with due := t.due ++ [a.dueFor cause] }) x.group.threads a.tid } }

def State.answerSaved (s : State) (id : Nat) (cause : BitVec 16) : State :=
  s.modHub (fun h => { h with
    saves := h.saves.map (fun e => (e.1, e.2.answer id cause))
    resumes := h.resumes.map (fun r => { r with saved := r.saved.answer id cause }) })

def State.modJob (s : State) (k : Nat) (t : BitVec 16) (f : Job → Job) : State :=
  s.modCluster k (fun x => { x with jobs := x.jobs.map (fun j => if j.ticket == t then f j else j) })

/-- A walk's end for one that waits: with a fault's cause, an access is held with its trap, a thread at a fetch traps there, with 0x0C
as a deferred trap (R39) and with 0x0B as R364 says, which gives it no DEF (DESIGN CHOICE, log entry 77), and a job is to end with it
(R111); without one, all go on and look the page up again. -/
def State.endWait (s : State) (fault : Option (BitVec 16)) (q : Waiter) : State :=
  match q, fault with
  | .acc c id, none => s.modAcc c id (fun a => { a with phase := .logged })
  | .acc c id, some cause =>
    match s.acc? c id with
    | some a => s.holdAcc c a cause
    | none => s.answerSaved id cause
  | .fetch _ _ _ _ _ _, none => s
  | .fetch c g t pc va acc, some cause =>
    match s.thread? c g t with
    | some th =>
      if th.pc == pc then
        s.takeTrap c g t { cause := cause, pc := pc, va := va, info := BitVec.ofNat 32 acc, log := none } (cause == 0x0C) pc
      else s
    | none => s
  | .job k t, none => s.modJob k t (fun j => { j with waitWalk := none })
  | .job k t, some cause =>
    -- an unserved or poisoned walk ends the job with 0x800C, DELIVER with 0x800B (R39, R47)
    s.modJob k t (fun j => { j with waitWalk := none, fault := some cause })

/-! ## Fault records -/

/-- The 32 bytes of a fault record (R46). -/
def Walk.record (w : Walk) (seq : Word) : List Byte :=
  leBytes 32 (w.va.toNat * 2 ^ 192 + w.pc.toNat * 2 ^ 128 + seq.toNat * 2 ^ 96 + w.ctx * 2 ^ 84 + w.core * 2 ^ 75
    + w.slot * 2 ^ 69 + (if w.eng then 2 ^ 68 else 0) + (w.va.extractLsb' 53 4).toNat * 2 ^ 64
    + w.failed.getD 0 * 2 ^ 8 + w.acc.toNat)

def fqRecords (cfg : Dword) : Nat := 2 ^ (min (cfg.extractLsb' 60 4).toNat 12 + 4)
def fqBase (cfg : Dword) : Nat := (cfg.extractLsb' 5 47).toNat * 32

/-- A record written for one parked walk, if the queue is enabled and not full (R46, R429) and no slab change holds it (R15). -/
def State.writeRecord (s : State) (d : Nat) (w : Walk) : State :=
  let x := s.die d
  if w.seqNo.isSome || !x.fqcfg.getLsbD 59 || (x.fqtail - x.fqhead).toNat ≥ fqRecords x.fqcfg then s
  else
    let pa := fqBase x.fqcfg + 32 * (x.fqtail.toNat % fqRecords x.fqcfg)
    let first := x.fqtail == x.fqhead
    if s.slabHeld pa then s
    else
    let s1 := s.hubStore true 0 pa (zipFrom pa (w.record x.fqtail))
    let s2 := s1.modDie d (fun y => { y with
      fqtail := y.fqtail + 1
      parked := y.parked.map (fun p => if p.id == w.id then { p with seqNo := some x.fqtail } else p) })
    (if first then s2.raiseMsix d else s2).raiseEvent 0

/-- The parked walks without a record write theirs in failure order (R46); a waiting FQCFG takes effect once the queue
is empty (R429). -/
def State.settleQueue (s : State) (d : Nat) : State :=
  let s1 := s.modDie d (fun x =>
    match x.fqcfgNext with
    | some v => if x.fqtail == x.fqhead then { x with fqcfg := v, fqcfgNext := none } else x
    | none => x)
  (s1.die d).parked.foldl (fun s2 w => s2.writeRecord d w) s1

/-- Requests to change a slab's mode that wait are over: what they held goes on, host accesses and fault records among it (R15). (DEDUCED,
log entry 57.) -/
def State.freeSlab (s : State) : State :=
  let s1 := (s.modHub (fun h => { h with slabWait := [] })).releaseHost
  s1.dies.foldl (fun s2 d => s2.settleQueue d.1) s1

/-! ## Walks -/

/-- Slots in use: walks under way, and failed walks beyond the 256 parking places (R44, R45). (DESIGN CHOICE, log entry 37.) -/
def Die.slots (x : Die) : Nat := x.active.length + (x.parked.length - 256)

def samePage (r : Region) (w : Walk) (ctx : Nat) (va : Dword) : Bool :=
  w.ctx == ctx && w.va.extractLsb' 53 4 == va.extractLsb' 53 4 && w.va.toNat % 2 ^ 53 / 2 ^ pageBits r == va.toNat % 2 ^ 53 / 2 ^ pageBits r

/-- A failed walk parks with all that wait for it (R45); members whose threads park are shed (R62). -/
def State.parkWaiters (s : State) (ws : List Waiter) : State :=
  ws.foldl (fun s1 q =>
    match q with
    | .acc c id =>
      let s2 := s1.modAcc c id (fun a => { a with phase := .parked, replay := true })
      match s2.acc? c id with
      | some a => s2.cvShed c a.slot 2
      | none => s2
    | .fetch c g _ _ _ _ => s1.cvShed c g 2
    | .job k t => s1.modJob k t (fun j => { j with lines := [] })) s

/-- One that waits for a walk of a halted context that fails: it gets no answer. -/
def State.isHalted (s : State) (q : Waiter) : Bool :=
  match q with
  | .acc c id => match s.acc? c id with | some a => s.haltedGroup c a.slot | none => false
  | .fetch c g _ _ _ _ => s.haltedGroup c g
  | .job k t => (s.cluster k).jobs.any (fun j => j.ticket == t && s.haltedGroup j.core j.slot)

/-- An access that is to get no answer is gone, and a job ends with the fault of its walk. (DEDUCED, log entry 55.) -/
def State.abandon (s : State) (q : Waiter) : State :=
  match q with
  | .acc c id => s.modCore c (fun k => { k with accs := k.accs.filter (fun a => a.id != id) })
  | .fetch _ _ _ _ _ _ => s
  | .job k t => s.endWait (some 0x0B) (.job k t)

/-- A failed walk parks with those that wait for it and can be answered; one that nobody waits for is gone. (DESIGN CHOICE, log entry 37;
DEDUCED, log entry 55.) -/
def State.failWalk (s : State) (d : Nat) (w : Walk) (level : Nat) : State :=
  let gone := w.waiters.filter s.isHalted
  let left := w.waiters.filter (fun q => !s.isHalted q)
  let s1 := s.modDie d (fun x => { x with
    active := x.active.filter (·.id != w.id)
    parked := if left.isEmpty && !gone.isEmpty then x.parked else x.parked ++ [{ w with failed := some level, waiters := left }] })
  ((gone.foldl State.abandon s1).parkWaiters left).settleQueue d

/-- A walk leaves its slot, and those that wait are released. -/
def State.endWalk (s : State) (d : Nat) (w : Walk) (fault : Option (BitVec 16)) : State :=
  w.waiters.foldl (fun s1 q => s1.endWait fault q) (s.modDie d (fun x => { x with active := x.active.filter (·.id != w.id) }))

/-- A leaf fills the levels of those that wait below a level (R42), and a walk's leaf, level 4, the last-level TLB; not where TLBINV has
covered the page or its key meanwhile (R48). -/
def State.fillFrom (s : State) (d level : Nat) (w : Walk) (e : TlbEnt) : State :=
  if w.noFill || w.noKeys.contains e.key then s
  else
    let s1 := if level < 4 then s else s.modDie d (fun x => { x with tlb := tlbPut3 x.tlb e })
    w.waiters.foldl (fun s2 q =>
      match q with
      | .acc c _ => s2.tlbFill c 3 e
      | .fetch c _ _ _ _ _ => s2.tlbFill c 3 e
      | .job k _ => s2.modCluster k (fun x => { x with tlb := tlbPut2 x.tlb e })) s1

def State.completeWalk (s : State) (d : Nat) (w : Walk) (e : Dword) : State :=
  (s.fillFrom d 4 w (leafEnt w.ctx (s.regionFor w.ctx w.va) w.va e)).endWalk d w none

def State.setWalk (s : State) (d : Nat) (w : Walk) : State :=
  s.modDie d (fun x => { x with active := x.active.map (fun y => if y.id == w.id then w else y) })

/-- A walk begins, again or for the first time, at its region entry (R37, R40). (DESIGN CHOICE, log entry 37.) -/
def State.beginWalk (s : State) (w : Walk) : Walk :=
  let e := s.regionEntry w.ctx (w.va.extractLsb' 53 4).toNat
  let r := regionOf e
  { w with region := some e, level := firstLevel r, table := r.root, leaf := none, failed := none, seqNo := none, line := none }

/-- The address of the entry that a walk reads next (R37). -/
def Walk.entryPa (w : Walk) : Nat := entryAddr (regionOf (w.region.getD 0)) w.level w.table w.va

/-- A walk asks the slice for the line of its next entry, with hint 5 (R41, R50, R52), unless the slab's mode is about to change
(R15). -/
def State.askEntry (s : State) (d : Nat) (w : Walk) : State :=
  if s.slabHeld w.entryPa then s.setWalk d { w with line := none }
  else
    (s.setWalk d { w with line := some { pa := lineOf w.entryPa, key := 0, got := none } }).post
      (.read { core := 128 * d, tag := w.id % 64, sect := 1 <<< (w.entryPa / 64 % 4), hint := 5, ct := 0, pa := lineOf w.entryPa, key := 0
               agent := some (.walker d w.id) })

/-- The leaf's A and D still to be set for this walk (R38, R40). -/
def Walk.wantsUpdate (w : Walk) (e : Dword) : Bool := !e.getLsbD 4 || (w.wantD && e.getLsbD 1 && !e.getLsbD 5)

/-- A new walk's record. -/
def Walk.new (id ctx : Nat) (va pc : Dword) (core slot : Nat) (eng : Bool) (acc : BitVec 2) (wantD : Bool) (q : Waiter) : Walk :=
  { id := id, ctx := ctx, va := va, pc := pc, core := core, slot := slot, eng := eng, acc := acc, wantD := wantD, waiters := [q]
    region := none, level := 0, table := 0, leaf := none, leafPa := 0, noFill := false, failed := none, seqNo := none }

/-! ## Events -/

/-- TLB_MISS_TO_WALKER: the miss is served by the last-level TLB if the page has come, joins a walk of its page, or queues; a
full queue takes none (R42, R44). A walk that is to set D is made whatever the TLB holds (R40). (DESIGN CHOICE, log entry 37.) -/
def execTlbMissToWalker (m : Nat) (s : State) : Out :=
  match s.msg? m with
  | some (.tlbMiss d w) =>
    let x := s.die d
    let r := s.regionFor w.ctx w.va
    let same : Walk → Bool := fun y => samePage r y w.ctx w.va && !y.noFill
    let s0 := s.drop m
    match (if w.wantD then none else tlbHit x.tlb r w.ctx w.va) with
    | some e => .next (w.waiters.foldl (fun s1 q => s1.endWait none q) (s0.fillFrom d 3 w e))
    | none =>
      if x.active.any same || x.queue.any same then
        .next (s0.modDie d (fun y =>
          let f : Walk → Walk := fun z =>
            if same z then { z with waiters := z.waiters ++ w.waiters, wantD := z.wantD || w.wantD } else z
          { y with active := y.active.map f, queue := y.queue.map f }))
      else if (x.parked.drop 256).any same then
        .next ((s0.modDie d (fun y =>
          { y with parked := y.parked.take 256 ++ (y.parked.drop 256).map (fun z =>
            if same z then { z with waiters := z.waiters ++ w.waiters } else z) })).parkWaiters w.waiters)
      else if 256 ≤ x.queue.length then .next s
      else .next (s0.modDie d (fun y => { y with queue := y.queue ++ [w] }))
  | _ => .next s

/-- WALK_START: the oldest queued walk takes a slot (R44). An unusable region ends it (R35, R39). -/
def execWalkStart (d : Nat) (s : State) : Out :=
  let x := s.die d
  match x.queue with
  | [] => .next s
  | w :: rest =>
    if 64 ≤ x.slots then .next s
    else
      let w1 := s.beginWalk w
      let s1 := s.modDie d (fun y => { y with queue := rest, active := y.active ++ [w1] })
      if regionBad (s.regionFor w.ctx w.va) w.va then .next (s1.endWalk d w1 (some 0x0C)) else .next (s1.askEntry d w1)

/-- The entry that a walk has read is used: the walk goes on to the next level, is to set A and D, completes, fails, or ends on poisoned
or unserved data (R37 to R40). -/
def State.useEntry (s : State) (d : Nat) (w : Walk) (g : Got) : State :=
  let r := regionOf (w.region.getD 0)
  let pa := w.entryPa
  let e := BitVec.ofNat 64 (leNat ((g.bytes.drop (pa % 256)).take 8))
  if g.poison.getLsbD (pa / 64 % 4) || s.linkDown pa then s.endWalk d w (some 0x0C)
  else if !e.getLsbD 0 then s.failWalk d { w with line := none } w.level
  else if w.level ≤ leafLevel r then
    if w.wantsUpdate e then s.setWalk d { w with leaf := some e, leafPa := pa, line := none }
    else s.completeWalk d w e
  else
    let w1 := { w with level := w.level - 1, table := (e.extractLsb' 8 44).toNat * 256, line := none }
    (s.setWalk d w1).askEntry d w1

/-- WALK_ENTRY_READ: a walk's entry read returns (R37 to R39, R41); a walk that could not ask yet asks. -/
def execWalkEntryRead (d n : Nat) (s : State) : Out :=
  match (s.die d).active.find? (fun w => w.id == n && w.leaf.isNone) with
  | none => .next s
  | some w =>
    match w.line with
    | none => .next (s.askEntry d w)
    | some l =>
      match l.got with
      | none => .next s
      | some g => .next (s.useEntry d w g)

/-- AD_COMPARE_SWAP: A, and D where it is wanted and W = 1, are set if the entry still holds what the walk read; else the walk
is repeated from the region entry (R40). -/
def execAdCompareSwap (d n : Nat) (s : State) : Out :=
  match (s.die d).active.find? (fun w => w.id == n && w.leaf.isSome) with
  | none => .next s
  | some w =>
    let e := w.leaf.getD 0
    .next (s.waitSlab (fun s =>
      match s.hubLoad 0 w.leafPa 8 with
      | .error s1 => s1.endWalk d w (some 0x0C)
      | .ok (bs, s1) =>
        let new := e ||| 0x10 ||| (if w.wantD && e.getLsbD 1 then 0x20 else 0)
        if BitVec.ofNat 64 (leNat bs) = e then
          (s1.hubStore true 0 w.leafPa (zipFrom w.leafPa (leBytes 8 new.toNat))).completeWalk d w new
        else s1.askEntry d (s1.beginWalk w)))

/-- WALK_RETRY: the parked walk that SEQ names starts again from the region entry (R47): it queues last, whatever the queue's length.
(DESIGN CHOICE, log entry 37.) -/
def State.retryWalk (s : State) (d : Nat) (seq : Word) : State :=
  match (s.die d).parked.find? (fun w => w.seqNo == some seq) with
  | none => s
  | some w =>
    let s1 := s.modDie d (fun x => { x with
      parked := x.parked.filter (·.id != w.id), queue := x.queue ++ [{ w with failed := none, seqNo := none }] })
    w.waiters.foldl (fun s2 q =>
      match q with
      | .acc c id => s2.modAcc c id (fun a => { a with phase := .walk })
      | _ => s2) s1

/-- WALK_DELIVER: every access that waits traps with 0x0B, a job ends with 0x800B (R47). -/
def State.deliverWalk (s : State) (d : Nat) (seq : Word) : State :=
  match (s.die d).parked.find? (fun w => w.seqNo == some seq) with
  | none => s
  | some w =>
    w.waiters.foldl (fun s2 q => s2.endWait (some 0x0B) q)
      (s.modDie d (fun x => { x with parked := x.parked.filter (·.id != w.id) }))

/-- A write to FQHEAD (R46, R429). -/
def State.writeFqHead (s : State) (d : Nat) (v : Dword) : State :=
  (s.modDie d (fun x => { x with fqhead := lowWord v })).settleQueue d

/-- A write to FQCFG: at once where the queue is empty, else once it is (R429). -/
def State.writeFqCfg (s : State) (d : Nat) (v : Dword) : State :=
  (s.modDie d (fun x => { x with fqcfgNext := some v })).settleQueue d

/-- A write to WRESUME: RESP 00 and 01 answer the record, a write with another is ignored (R429). -/
def State.writeWresume (s : State) (d : Nat) (v : Dword) : State :=
  let s1 := s.modDie d (fun x => { x with wresume := v })
  match (v.extractLsb' 62 2).toNat with
  | 0 => s1.retryWalk d (lowWord v)
  | 1 => s1.deliverWalk d (lowWord v)
  | _ => s

/-- WALK_RETRY (R47). -/
def execWalkRetry (d : Nat) (seq : Word) (s : State) : Out := .next (s.writeWresume d (BitVec.ofNat 64 seq.toNat))

/-- WALK_DELIVER (R47). -/
def execWalkDeliver (d : Nat) (seq : Word) (s : State) : Out :=
  .next (s.writeWresume d (0x4000000000000000 ||| BitVec.ofNat 64 seq.toNat))

/-- FQHEAD_WRITE (R46). -/
def execFqheadWrite (d : Nat) (v : Dword) (s : State) : Out := .next (s.writeFqHead d v)

/-- FQCFG_WRITE (R429). -/
def execFqcfgWrite (d : Nat) (v : Dword) (s : State) : Out := .next (s.writeFqCfg d v)

end Sys2Proof.Machine
end

