-- ==== Sys2Proof/Machine/HubRegs.lean ====
section
/-! DEFINITION. The hub register space (26_host_fabric_security.md R426 to R429) and the start and end of a pre-emption
(13_traps_faults_preemption.md R238, R239). -/

namespace Sys2Proof.Machine

/-! ## Pre-emption -/

/-- The resident groups of a context, as (core, slot). -/
def State.groupsOf (s : State) (ctx : Nat) : List (Nat × Nat) :=
  s.cores.flatMap (fun c => (c.2.slots.filter (fun g => g.2.ctx == ctx)).map (fun g => (c.1, g.1)))

/-- PRESTAT's value (R238). -/
def prestatOf (saved state : Nat) : Dword := BitVec.ofNat 64 (saved * 2 ^ 32 + state)

/-- The forced save of every resident group of the context begins: none issues again, and members are shed (R239, R240,
R62). -/
def State.beginSaves (s : State) (ctx : Nat) : State :=
  (s.groupsOf ctx).foldl (fun s1 e => (s1.modGroup e.1 e.2 (fun g => { g with saving := true })).cvShed e.1 e.2 3) s

/-- The pre-emption is done once no group of the context is resident (R239): GO and PRESTAT show it, and PRE is latched. -/
def State.preemptCheck (s : State) : State :=
  match s.hub.preempt with
  | none => s
  | some p =>
    if (s.groupsOf p.ctx).isEmpty then
      (s.modHub (fun h => { h with
        preempt := none, prectl := h.prectl &&& 0x7FFFFFFFFFFFFFFF, prestat := prestatOf p.saved 3 })).raiseEvent 2
    else s

/-- The drain limit in hub cycles at 1.0 GHz (R238, R222). -/
def drainLimit (v : Dword) : Nat :=
  let n := (v.extractLsb' 32 17).toNat
  100000 * (if n = 0 || 1000 < n then 20 else n)

/-- A write to PRECTL: with GO it starts a pre-emption, unless one is under way (R238, R239). -/
def State.writePrectl (s : State) (v : Dword) : State :=
  if s.hub.preempt.isSome then s
  else
    let keep := v &&& 0x4001FFFF00000FFF
    if !v.getLsbD 63 then s.modHub (fun h => { h with prectl := keep })
    else
      let ctx := (v.extractLsb' 0 12).toNat
      let force := v.getLsbD 62
      let s1 := s.modHub (fun h => { h with
        prectl := keep ||| 0x8000000000000000
        prestat := prestatOf 0 (if force then 2 else 1)
        preempt := some { ctx := ctx, saving := force, limit := h.cycles + drainLimit v, saved := 0, next := 0 } })
      (if force then s1.beginSaves ctx else s1).preemptCheck

/-- PREEMPT_DRAIN (R239): PRECTL written with GO = 1 and FORCE = 0. -/
def execPreemptDrain (s : State) : Out :=
  .next (s.writePrectl ((s.outside.prectl ||| 0x8000000000000000) &&& 0xBFFFFFFFFFFFFFFF))

/-- PREEMPT_FORCE (R239): PRECTL written with GO = 1 and FORCE = 1. -/
def execPreemptForce (s : State) : Out := .next (s.writePrectl (s.outside.prectl ||| 0xC000000000000000))

/-- DRAIN_LIMIT_EXPIRY: the drain becomes a forced save (R239). -/
def execDrainLimitExpiry (s : State) : Out :=
  match s.hub.preempt with
  | some p =>
    if !p.saving && p.limit ≤ s.hub.cycles then
      .next ((s.modHub (fun h => { h with
        preempt := some { p with saving := true }, prestat := prestatOf p.saved 2 })).beginSaves p.ctx).preemptCheck
    else .next s
  | none => .next s

/-! ## Queue registers -/

def State.queue (s : State) (q : Nat) : Queue := tget Queue.reset s.hub.queues q
def State.modQueue (s : State) (q : Nat) (f : Queue → Queue) : State :=
  s.modHub (fun h => { h with queues := tset h.queues q (f (tget Queue.reset h.queues q)) })

/-- LOG of QCFG, and the value that a write leaves: a LOG outside 4 to 16 clears EN (R212). -/
def qLog (cfg : Dword) : Nat := (cfg.extractLsb' 56 5).toNat
/-- DEDUCED, log entry 72. -/
def qcfgWritten (v : Dword) : Dword :=
  if 4 ≤ qLog v && qLog v ≤ 16 then v &&& 0x9FFFFFFFFFFFFFFF else v &&& 0x1FFFFFFFFFFFFFFF

/-- QUEUE_TAIL_WRITE (R213). -/
def State.writeQtail (s : State) (q : Nat) (v : Dword) : State := s.modQueue q (fun x => { x with tail := lowWord v })

def execQueueTailWrite (q : Nat) (v : Dword) (s : State) : Out := .next (s.writeQtail q v)

/-! ## The register space -/

/-- A read of the register at an offset (R426, R427). (DEDUCED, log entry 72.) -/
def State.hubRead (s : State) (off : Nat) : Dword :=
  let h := s.hub
  if off < 0x800 then
    let q := s.queue (off / 0x20)
    match off % 0x20 with
    | 0 => q.cfg
    | 8 => q.base
    | 16 => q.tail.setWidth 64
    | 24 => q.head.setWidth 64
    | _ => 0
  else if off = 0x1000 then h.prectl
  else if off = 0x1008 then h.presave
  else if off = 0x1010 then h.prestat
  else if off = 0x1100 then h.floor
  else if 0x1200 ≤ off && off < 0x1240 && off % 8 = 0 then (tget 0 h.pmap ((off - 0x1200) / 8)).setWidth 64
  else if 0x1300 ≤ off && off < 0x1320 && off % 8 = 0 then tget 0 h.supctx ((off - 0x1300) / 8)
  else if off = 0x1340 then h.hkey.setWidth 64
  else if off = 0x1400 then h.commcfg
  else if off = 0x1408 then h.fabid.setWidth 64
  else if 0x2000 ≤ off && off < 0x2100 then
    let d := s.die ((off - 0x2000) / 0x40)
    match off % 0x40 with
    | 0 => d.fqcfg
    | 8 => d.fqtail.setWidth 64
    | 16 => d.fqhead.setWidth 64
    | 24 => d.wresume
    | _ => 0
  else if 0x4000 ≤ off && off < 0x6000 && off % 8 = 0 then
    BitVec.ofNat 64 (leNat ((List.range 8).map (fun k => h.mailbox.getD (off - 0x4000 + k) 0)))
  else 0

/-- Bytes of the mailbox written. -/
def mailboxPut (l : List Byte) (off : Nat) (bs : List Byte) : List Byte :=
  let full := l ++ List.replicate (off + bs.length - l.length) 0
  full.take off ++ bs ++ full.drop (off + bs.length)

/-- Benuino answers in the host mailbox: a request stands in its first 2 KiB, the answer in the rest (R430, R439). (DESIGN CHOICE, log entry
79.) -/
def State.mailAnswer (s : State) (bs : List Byte) : State :=
  (s.modHub (fun h => { h with mailbox := mailboxPut h.mailbox 0x800 bs })).raiseMsix 7

/-- SUPCTX_WRITE (R428): V and CTXT; other bits read 0. (DEDUCED, log entry 72.) -/
def State.writeSupctx (s : State) (k : Nat) (v : Dword) : State :=
  s.modHub (fun h => { h with supctx := tset h.supctx k (v &&& 0x8000000000000FFF) })

/-- A write of the register at an offset; `host` says that it comes over the link (R427, R428, R431). (DEDUCED, log entry 72.) -/
def State.hubWrite (s : State) (host : Bool) (off : Nat) (v : Dword) : State :=
  if off < 0x800 then
    let q := off / 0x20
    match off % 0x20 with
    | 0 => s.modQueue q (fun x => { x with cfg := qcfgWritten v })
    | 8 => s.modQueue q (fun x => { x with base := v &&& 0xFFFFFFFFFF000 })
    | 16 => s.writeQtail q v
    | _ => s
  else if off = 0x1000 then s.writePrectl v
  else if off = 0x1008 then s.modHub (fun h => { h with presave := v &&& 0xFFFFFFFE00000 })
  else if off = 0x1100 then s.modHub (fun h => { h with floor := v &&& 0x7F })
  else if 0x1200 ≤ off && off < 0x1240 && off % 8 = 0 then
    s.modHub (fun h => { h with pmap := tset h.pmap ((off - 0x1200) / 8) (lowWord v) })
  else if 0x1300 ≤ off && off < 0x1320 && off % 8 = 0 then
    if host then s.writeSupctx ((off - 0x1300) / 8) v else s
  else if off = 0x1340 then if host then s.modHub (fun h => { h with hkey := v.extractLsb' 0 7 }) else s
  else if off = 0x1400 then s.modHub (fun h => { h with commcfg := v &&& 0x800FFFFFFFFFF000 })
  else if 0x2000 ≤ off && off < 0x2100 then
    let d := (off - 0x2000) / 0x40
    match off % 0x40 with
    | 0 => s.writeFqCfg d v
    | 16 => s.writeFqHead d v
    | 24 => s.writeWresume d v
    | _ => s
  else if 0x4000 ≤ off && off < 0x6000 && off % 8 = 0 then
    s.modHub (fun h => { h with mailbox := mailboxPut h.mailbox (off - 0x4000) (leBytes 8 v.toNat) })
  else s

/-- SUPCTX_WRITE (R428). -/
def execSupctxWrite (k : Nat) (v : Dword) (s : State) : Out := .next (s.writeSupctx k v)

/-- REGISTER_WRITE: an 8-byte write by the host (R427). -/
def execRegisterWrite (off : Nat) (v : Dword) (s : State) : Out :=
  .next (if off % 8 = 0 then s.hubWrite true off v else s)

end Sys2Proof.Machine
end

