-- ==== Sys2Proof/Machine/Access.lean ====
section
/-! DEFINITION. How a core performs its memory accesses: the coalescer with the operand log (02_translation.md R42, R43;
13_traps_faults_preemption.md R236, R237), the L1 and the miss-status entries (04_core_store.md R67 to R72), and the order
and times of COH accesses (05_logical_time.md R86 to R93). -/

namespace Sys2Proof.Machine

/-! ## The L1 -/

def setOf (pa : Nat) : Nat := pa / 256 % 128

def L1Line.is (x : L1Line) (pa key : Nat) : Bool := x.pa == lineOf pa && x.key == key

def Core.line? (k : Core) (pa key : Nat) : Option L1Line := k.l1.find? (·.is pa key)

def Core.dropLine (k : Core) (x : L1Line) : Core := { k with l1 := k.l1.filter (fun y => !y.is x.pa x.key) }

/-- A line put first: it is the most recently used (R70). -/
def Core.putLine (k : Core) (x : L1Line) : Core := { k with l1 := x :: (k.dropLine x).l1 }

def L1Line.got (x : L1Line) : Got := { bytes := x.bytes, wts := x.wts, rts := x.rts, poison := x.poison }

/-- A line leaves the L1: one held exclusively returns to home (R93), dirty sectors are written back (R70). A sector that
is poisoned stays so at home (R19). -/
def State.evict (s : State) (c : Nat) (x : L1Line) : State :=
  let s1 := s.modCore c (·.dropLine x)
  if x.excl then s1.post (.exclReturn c x.pa x.key (x.dirty &&& ~~~x.poison) x.got)
  else
    let d := x.dirty &&& ~~~x.poison
    if d = 0 then s1 else s1.post (.writeBack c x.pa x.key d x.bytes)

/-- The least recently used of some lines, oldest first, one without the keep hint before one with it (R257). -/
def oldest (ls : List L1Line) : Option L1Line :=
  match ls.find? (fun x => !x.keep) with
  | some x => some x
  | none => ls.head?

/-- The victim of a full set: a line whose lease has expired, else the least recently used; among lines of equal standing one without
the keep hint (R70, R257). Of several expired ones it is the least recently used, and an exclusive line has no lease to expire. (DESIGN
CHOICE, log entry 76.) -/
def Core.victim (k : Core) (ls : List L1Line) : Option L1Line :=
  match oldest (ls.reverse.filter (fun x => !x.excl && x.rts.toNat < k.ct.toNat)) with
  | some x => some x
  | none => oldest ls.reverse

/-- A line installed (R53, R70, R71), in the lowest-numbered invalid way of its set if there is one (DESIGN CHOICE, log entry 76); false
where no way takes it. A copy that is newer, dirty or exclusive stays, and one in a way that enters the scratchpad takes no fill (R78). -/
def State.install (s : State) (c : Nat) (x : L1Line) : Bool × State :=
  let k := s.core c
  let ways := k.cacheWays
  match k.line? x.pa x.key with
  | some y =>
    if !ways.contains y.way then (false, s)
    else if y.excl || y.dirty != 0 || x.wts.toNat < y.wts.toNat then (true, s)
    else
      let rts := if x.wts = y.wts then maxD x.rts y.rts else x.rts
      (true, s.setCore c (k.putLine { x with way := y.way, rts := rts, keep := x.keep || y.keep, str := x.str || y.str }))
  | none =>
    let ls := k.l1.filter (fun y => setOf y.pa == setOf x.pa && ways.contains y.way)
    match ways.find? (fun w => !ls.any (fun y => y.way == w)) with
    | some w => (true, s.setCore c (k.putLine { x with way := w }))
    | none =>
      match k.victim ls with
      | some y => (true, (s.evict c y).modCore c (fun k1 => k1.putLine { x with way := y.way }))
      | none => (false, s)

/-- A line as fetched data makes it. -/
def Got.line (g : Got) (pa key : Nat) (keep str : Bool) : L1Line :=
  { pa := lineOf pa, key := key, bytes := g.bytes, wts := g.wts, rts := g.rts, dirty := 0, excl := false
    poison := g.poison, keep := keep, str := str, way := 0, idle := 0 }

/-- Every dirty sector of the lines that p picks is written back (R70, R95). -/
def State.writeBackAll (s : State) (c : Nat) (p : L1Line → Bool) : State :=
  let ls := (s.core c).l1.filter (fun x => p x && !x.excl && (x.dirty &&& ~~~x.poison) != 0)
  let s1 := ls.foldl (fun s1 x => s1.post (.writeBack c x.pa x.key (x.dirty &&& ~~~x.poison) x.bytes)) s
  s1.modCore c (fun k => { k with l1 := k.l1.map (fun x => if p x && !x.excl then { x with dirty := 0 } else x) })

/-- Bytes stored into a line's copy; sectors that they cover whole are clean of poison (R19, R70). -/
def L1Line.write (x : L1Line) (data : List (Nat × Byte)) : L1Line :=
  let offs := data.map (fun e => e.1 % 256)
  { x with
    bytes := data.foldl (fun bs e => bs.set (e.1 % 256) e.2) x.bytes
    poison := x.poison &&& ~~~(wholeSectors offs) }

def sectorsOf (offs : List Nat) : BitVec 4 := offs.foldl (fun (m : BitVec 4) o => m ||| (1 <<< (o / 64))) 0

/-! ## Completing an access -/

/-- The words that n loaded bytes fill (R280). -/
def loadWords (n : Nat) (sext : Bool) (bs : List Byte) : List Word :=
  if n < 4 then
    let v := leNat bs
    [BitVec.ofNat 32 (if sext && 2 ^ (8 * n - 1) ≤ v then v + (2 ^ 32 - 2 ^ (8 * n)) else v)]
  else (List.range (n / 4)).map (fun k => BitVec.ofNat 32 (leNat ((bs.drop (4 * k)).take 4)))

def State.removeAcc (s : State) (c id : Nat) : State := s.modCore c (fun k => { k with accs := k.accs.filter (·.id != id) })

/-- An access completes with the bytes it read: its destination is written and full (R127). -/
def State.finish (s : State) (c : Nat) (a : Acc) (bs : List Byte) : State :=
  let s1 := s.removeAcc c a.id
  if a.count = 0 then s1 else s1.modThread c a.slot a.tid (fun th => th.fillAll a.dest (loadWords a.size a.sext bs))

/-- n words that the spec leaves open. (DESIGN CHOICE, log entry 2.) -/
def State.freeWords (s : State) (n : Nat) : List Word × State :=
  ((List.range n).map (fun k => Config.freeWord (s.free + k)), { s with free := s.free + n })

/-- An access that meets poisoned data ends with a deferred 0x0C without a log entry; its destination is full and holds
undefined values (R19). (DESIGN CHOICE, log entry 2.) -/
def State.poisonAcc (s : State) (c : Nat) (a : Acc) : State :=
  let (ws, s1) := (s.removeAcc c a.id).freeWords a.count
  (s1.modThread c a.slot a.tid (fun th => th.fillAll a.dest ws)).defer c a.slot a.tid { a.dueFor 0x0C with log := none }

def Acc.sector (a : Acc) : Nat := a.pa / 64 % 4
def Acc.onLine (a : Acc) (pa key : Nat) : Bool := lineOf a.pa == lineOf pa && a.key == key

/-- The bytes of a line that an access reads. -/
def Acc.slice (a : Acc) (line : List Byte) : List Byte := (line.drop (a.pa % 256)).take a.size

/-- A COH access issued before this one, other than its mates of one store, is not complete (R89). (DEDUCED, log entry 25.) -/
def Core.cohBefore (k : Core) (a : Acc) (mates : List Nat) : Bool :=
  (k.accs.takeWhile (·.id != a.id)).any (fun b => b.cohOpen && !mates.contains b.id)

/-- Program order of one core on one line outside COH: an earlier store or atomic of the core is not acknowledged, or a
write-back of the line has not been performed. (DEDUCED, log entry 26.) -/
def State.lineBusy (s : State) (c : Nat) (a : Acc) : Bool :=
  ((s.core c).accs.takeWhile (·.id != a.id)).any (fun b =>
    b.onLine a.pa a.key && b.inst != a.inst && (b.phase == .sent || (b.phase == .ready && (b.code == 1 || b.code == 2))))
  || (s.core c).accs.any (fun b => b.onLine a.pa a.key && b.phase == .sent && b.inst != a.inst)
  || s.net.any (fun m => match m.2 with | .writeBack k pa _ _ _ => k == c && pa == lineOf a.pa | _ => false)
  || s.vaults.any (fun v => v.2.excls.any (fun x => x.held.any (fun m =>
      match m.2 with | .writeBack k pa _ _ _ => k == c && pa == lineOf a.pa | _ => false)))

/-! ## Translation -/

/-- The operand-log entry an access takes: its instruction's, or the lowest free of 32 (R236; which entry is DESIGN
CHOICE, log entry 8). -/
def Core.logFor (k : Core) (a : Acc) : Option Nat :=
  match a.log with
  | some e => some e
  | none =>
    match k.accs.find? (fun b => b.inst == a.inst && b.log.isSome) with
    | some b => b.log
    | none => firstFree (k.accs.filterMap (·.log)) 32

/-- A region that an RSTATE is moving: accesses to it issued since are held (R98). (DEDUCED, log entry 39.) -/
def State.regionHeld (s : State) (ctx : Nat) (a : Acc) : Bool :=
  match (tfind s.hub.contexts ctx).bind (·.moving) with
  | some (n, since) => (a.va.extractLsb' 53 4).toNat == n && since ≤ a.inst
  | none => false

/-- The lanes of an access's instruction that look its page up with it: each distinct page is looked up once (R43). -/
def Core.pageMates (k : Core) (r : Region) (a : Acc) : List Nat :=
  (k.accs.filter (fun b => b.id == a.id || (b.inst == a.inst && b.slot == a.slot && b.phase == .logged
    && b.va.extractLsb' 53 4 == a.va.extractLsb' 53 4
    && b.va.toNat % 2 ^ 53 / 2 ^ pageBits r == a.va.toNat % 2 ^ 53 / 2 ^ pageBits r))).map (·.id)

/-- The checks that follow a translation (R39), with those of the device register space (R427). -/
def State.accCheck (s : State) (c ctx : Nat) (r : Region) (e : TlbEnt) (a : Acc) : Option (BitVec 16) :=
  match s.checkLeaf r c e a.va a.code a.priv with
  | some cause => some cause
  | none =>
    if isHub (e.pa r a.va) then
      if !s.supervisor ctx || e.key != 0 then some 0x0C
      else if a.size != 8 || a.code == 2 then some 0x0A
      else none
    else none

/-- A logged access is looked up, and a hit fills the levels below (R42, R43, R236, R237): it goes on translated, at the end of the core's
order where it is replayed; or its walk is asked for, once for the lanes of its page; or it is held with its trap; or it waits for a log
entry. A store or atomic that misses every TLB walks first without setting D. (DEDUCED, log entries 25 and 38; DESIGN CHOICE, log entry 77.)
-/
def State.translateAcc (s : State) (c id : Nat) : State :=
  match s.acc? c id with
  | none => s
  | some a =>
    if a.phase != .logged then s
    else
      match s.group? c a.slot with
      | none => s
      | some g =>
        let r := s.regionFor g.ctx a.va
        let entry := (s.core c).logFor a
        let hold := fun (s1 : State) (cause : BitVec 16) =>
          match entry with
          | some e => (s1.modAcc c id (fun x => { x with log := some e })).holdAcc c { a with log := some e } cause
          | none => s1
        if s.regionHeld g.ctx a then s
        else if a.quiet then
          -- PF and LEASE are discarded where they cannot go on (R292, R293, R427)
          match (if (regionFault r c a.va).isSome then none else s.tlbLookup c g.ctx a.va) with
          | some e =>
            let pa := e.pa r a.va
            let s1 := s.tlbFill c (s.tlbLevel c g.ctx a.va) e
            if s1.slabHeld pa then s1
            else if (s1.checkLeaf r c e a.va 0 a.priv).isSome || isHub pa || (s1.core c).cacheWays.isEmpty
                || (a.kind != .prefetch && r.state != 0) then s1.removeAcc c id
            else
              s1.modCore c (fun k => { k with
                accs := modAccs id (fun x => { x with phase := .ready, pa := pa, key := e.key, state := r.state }) k.accs })
          | none => s.removeAcc c id
        else match regionFault r c a.va with
        | some cause => hold s cause
        | none =>
          let walk := fun (s1 : State) (wantD : Bool) =>
            match entry with
            | some e =>
              let ids := (s1.core c).pageMates r a
              let w := Walk.new s1.seq g.ctx a.va a.pc c a.slot false (BitVec.ofNat 2 a.code) wantD (.acc c id)
              (ids.foldl (fun (s2 : State) n => s2.modAcc c n (fun x => { x with log := some e, phase := .walk }))
                { s1 with seq := s1.seq + 1 }).post (.tlbMiss (dieOf c) { w with waiters := ids.map (.acc c) })
            | none => s1
          match s.tlbLookup c g.ctx a.va with
          | none => walk s false
          | some e =>
            if (tlbHit (s.core c).tlb r g.ctx a.va).isNone && entry.isNone then s
            else
              let s1 := s.tlbFill c (s.tlbLevel c g.ctx a.va) e
              if s1.slabHeld (e.pa r a.va) then s1
              else match s1.accCheck c g.ctx r e a with
              | some cause => hold s1 cause
              | none =>
                if a.code != 0 && !e.d then walk s1 true
                else
                  let b := { a with phase := .ready, log := none, replay := false, pa := e.pa r a.va, key := e.key, state := r.state }
                  if a.replay then s1.modCore c (fun k => { k with accs := k.accs.filter (·.id != id) ++ [b] })
                  else s1.modCore c (fun k => { k with accs := modAccs id (fun _ => b) k.accs })

/-! ## Reads -/

/-- The hint a read acts under: with 0 cache ways every load acts as hint 1 (R70). -/
def Core.hintFor (k : Core) (a : Acc) : Nat := if k.mask = 0xFFFF then 1 else a.hint

/-- The instructions that wait on a sector's miss-status entry (R71). -/
def Core.waitersOn (k : Core) (pa key q : Nat) : List Nat :=
  ((k.accs.filter (fun b => b.phase == .fill && b.onLine pa key && (b.sector == q || b.quiet))).map (·.inst)).eraseDups

/-- The instructions that have joined a LEASE's entry on a line (R292). -/
def Core.joined (k : Core) (pa key : Nat) : List Nat :=
  ((k.accs.filter (fun b => b.phase == .fill && b.onLine pa key)).map (·.inst)).eraseDups

/-- New miss-status entries take the lowest free numbers. -/
def takeMisses (pa key : Nat) : List Nat → Tbl Miss → Tbl Miss
  | [], t => t
  | q :: qs, t =>
    match firstFree (t.map (·.1)) 64 with
    | some n => takeMisses pa key qs (tset t n { pa := lineOf pa, key := key, sector := q, stale := false })
    | none => t

/-- A missing line of a load or prefetch takes its entries, one per sector, and the request is sent unless the line has been
requested (R68, R71, R72), or joins a LEASE's entry (R292); it waits where entries are short. The hint that the request carries is the
access's from then on (R70, R71). (DEDUCED, log entry 35.) -/
def State.request (s : State) (c : Nat) (a : Acc) : State :=
  let k := s.core c
  let mates := k.accs.filter (fun b => b.inst == a.inst && b.phase == .ready && b.onLine a.pa a.key && b.kind == a.kind)
  let sects := if a.kind == .prefetch then [0, 1, 2, 3] else (mates.map Acc.sector).eraseDups
  let all := k.misses.filter (fun e => e.2.pa == lineOf a.pa && e.2.key == a.key)
  let onLine := all.filter (fun e => e.2.sector != 4)
  let fill := fun (b : Acc) => { b with phase := .fill, hint := k.hintFor b }
  let old := sects.filter (fun q => onLine.any (fun e => e.2.sector == q))
  let new := sects.filter (fun q => !old.contains q)
  if !all.isEmpty && onLine.isEmpty then
    -- the line's one entry is a LEASE's: the miss joins it and sends nothing
    if 4 ≤ (k.joined a.pa a.key).length then s
    else s.setCore c { k with accs := k.accs.map (fun b => if (mates.map (·.id)).contains b.id then fill b else b) }
  else if onLine.any (fun e => e.2.stale) || old.any (fun q => 4 ≤ (k.waitersOn a.pa a.key q).length)
      || 64 < k.misses.length + new.length then s
  else
    let ids := mates.map (·.id)
    let misses := takeMisses a.pa a.key new k.misses
    let tag := (misses.find? (fun e => e.2.pa == lineOf a.pa && e.2.key == a.key)).map (·.1) |>.getD 0
    let s1 := s.setCore c { k with
      misses := misses, accs := k.accs.map (fun b => if ids.contains b.id then fill b else b) }
    if onLine.isEmpty then
      (s1.groupAsks c a.slot (64 * sects.length)).post (.read
        { core := c, tag := tag, sect := sects.foldl (fun (m : BitVec 4) q => m ||| (1 <<< q)) 0
          hint := k.hintFor a, ct := k.ct, pa := lineOf a.pa, key := a.key })
    else s1

/-- The copy that a COH load reads: the newer of the L1's and what was fetched for it. -/
def State.copyFor (s : State) (c : Nat) (a : Acc) : Option Got :=
  match (s.core c).line? a.pa a.key, a.got with
  | some x, some g => some (if x.wts.toNat < g.wts.toNat then g else x.got)
  | some x, none => some x.got
  | none, g => g

def State.touch (s : State) (c pa key : Nat) : State :=
  match (s.core c).line? pa key with
  | some x => s.modCore c (·.putLine x)
  | none => s

/-- A load completes with a copy of its line, or traps where the sector is poisoned or its link is down (R19, R28). -/
def State.finishLoad (s : State) (c : Nat) (a : Acc) (g : Got) : State :=
  if g.poison.getLsbD a.sector || s.linkDown a.pa then s.poisonAcc c a
  else (s.touch c a.pa a.key).finish c a (a.slice g.bytes)

/-- A COH load in its turn (R86, R89): performed at max(ct, wts) if the copy's lease reaches so far, else renewed. -/
def State.cohLoad (s : State) (c : Nat) (a : Acc) : State :=
  let k := s.core c
  if k.cohBefore a [] then s
  else
    match s.copyFor c a with
    | none => s.modAcc c a.id (fun x => { x with phase := .ready })
    | some g =>
      let t := maxD k.ct g.wts
      if t.toNat ≤ g.rts.toNat then (s.raiseCt c t).finishLoad c a g
      else
        (s.modAcc c a.id (fun x => { x with phase := .renew, hint := k.hintFor a })).post
          (.renew c a.id a.pa a.key (some g.wts) k.ct (leaseLen (k.hintFor a)).toNat)

/-- A translated load: a device register at the hub (R427), an L1 hit, or a miss (R68, R86, R94). (DEDUCED, log entry 26.) -/
def State.load (s : State) (c : Nat) (a : Acc) : State :=
  if isHub a.pa then s.finish c a (leBytes 8 (s.hubRead (a.pa - hubBase)).toNat)
  else if a.state = 0 then
    if ((s.core c).line? a.pa a.key).isSome then
      let s1 := s.modAcc c a.id (fun x => { x with phase := .arrived })
      s1.cohLoad c { a with phase := .arrived }
    else s.request c a
  else if s.lineBusy c a then s
  else
    match (s.core c).line? a.pa a.key with
    | some x => s.finishLoad c a x.got
    | none => s.request c a

/-- A constant read comes from home through the constant cache (R286, R261). (DESIGN CHOICE, log entry 22.) -/
def State.constLoad (s : State) (c : Nat) (a : Acc) : State :=
  match s.loadDirect a.key a.pa a.size with
  | .ok (bs, _, s1) => s1.finish c a bs
  | .error s1 => s1.poisonAcc c a

/-! ## Stores -/

/-- The lanes of one store on one line, in ascending lane number (R69). (DEDUCED, log entry 35.) -/
def Core.storeMates (k : Core) (a : Acc) (p : Phase) : List Acc :=
  let l := k.accs.filter (fun b => b.inst == a.inst && b.phase == p && b.kind == .store && b.onLine a.pa a.key)
  (byLane (l.map (·.tid))).filterMap (fun t => l.find? (fun b => b.tid == t))

/-- The mates of a store, sent to home, or performed and gone. -/
def State.markSent (s : State) (c : Nat) (ids : List Nat) : State :=
  s.modCore c (fun k => { k with accs := k.accs.map (fun b => if ids.contains b.id then { b with phase := .sent } else b) })
def State.removeAccs (s : State) (c : Nat) (ids : List Nat) : State :=
  s.modCore c (fun k => { k with accs := k.accs.filter (fun b => !ids.contains b.id) })

/-- A translated store (R69, R70, R88, R93): to the hub; in COH to home, or into a line held exclusively; in STR and PRV into
the L1 where it hits, else to home. (DEDUCED, log entry 26.) -/
def State.store (s : State) (c : Nat) (a : Acc) : State :=
  if isHub a.pa then (s.removeAcc c a.id).hubWrite false (a.pa - hubBase) (BitVec.ofNat 64 (leNat a.data))
  else
    let k := s.core c
    let mates := k.storeMates a .ready
    let ids := mates.map (·.id)
    let data := mates.flatMap (fun b => zipFrom b.pa b.data)
    let home := fun (m : Msg) => ((s.markSent c ids).groupAsks c a.slot data.length).post m
    let offs := data.map (fun e => e.1 % 256)
    let hit := k.line? a.pa a.key
    if a.state = 0 then
      if k.cohBefore a ids then s
      else
        match hit with
        | some x =>
          if x.excl then
            let w := maxD k.ct (x.rts + 1)
            let y := { x.write data with wts := w, rts := w, dirty := x.dirty ||| sectorsOf offs }
            ((s.removeAccs c ids).modCore c (·.putLine y)).raiseCt c w
          else home (.cohStore c a.id a.pa a.key k.ct data)
        | none => home (.cohStore c a.id a.pa a.key k.ct data)
    else if s.lineBusy c a || k.misses.any (fun e => e.2.pa == lineOf a.pa && e.2.key == a.key) then s
    else
      match hit with
      | some x =>
        let y := { x.write data with dirty := x.dirty ||| sectorsOf offs, str := x.str || a.state == 1 }
        (s.removeAccs c ids).modCore c (·.putLine y)
      | none => home (.strStore c a.id a.pa a.key data)

/-! ## Atomics -/

/-- An atomic performed in a line held exclusively (R92, R93). -/
def State.atomicInL1 (s : State) (c : Nat) (a : Acc) (x : L1Line) : State :=
  if x.poison.getLsbD a.sector then s.poisonAcc c a
  else
    let old := a.slice x.bytes
    let w := maxD (s.core c).ct (x.rts + 1)
    let y := { x.write (zipFrom a.pa (a.kind.apply a.size old a.data a.cmp)) with
               wts := w, rts := w, dirty := x.dirty ||| (1 <<< a.sector), idle := s.now c, atom := a.inst }
    ((s.modCore c (·.putLine y)).raiseCt c w).finish c a old

def AccKind.scope : AccKind → Nat
  | .atomic _ _ k | .cas _ k => k
  | _ => 0

/-- An atomic goes to home (R92). -/
def State.sendAtomic (s : State) (c : Nat) (a : Acc) (coh : Bool) : State :=
  ((s.modAcc c a.id (fun x => { x with phase := .sent })).groupAsks c a.slot a.size).post
    (.homeAtomic c a.id a.pa a.key (s.core c).ct coh a.kind a.size a.data a.cmp)

/-- A translated atomic (R92, R93, R288): COH of scope .thread to .cluster under an exclusive lease, others at home, in the
core's order. -/
def State.atomic (s : State) (c : Nat) (a : Acc) : State :=
  let k := s.core c
  if a.state = 0 then
    if k.cohBefore a [] then s
    else if a.kind.scope ≤ 2 && !k.cacheWays.isEmpty then
      match k.line? a.pa a.key with
      | some x =>
        if x.excl then s.atomicInL1 c a x
        else
          (((s.evict c x).modAcc c a.id (fun y => { y with phase := .excl })).groupAsks c a.slot 256).post (.exclReq c a.id a.pa a.key true)
      | none => ((s.modAcc c a.id (fun y => { y with phase := .excl })).groupAsks c a.slot 256).post (.exclReq c a.id a.pa a.key true)
    else s.sendAtomic c a true
  else
    let earlier := (k.accs.takeWhile (·.id != a.id)).any (fun b => b.inst == a.inst && b.onLine a.pa a.key && b.open)
    if s.lineBusy c a || earlier then s else s.sendAtomic c a false

/-! ## Progress of a core -/

/-- LEASE sends a renewal; its line takes one miss-status entry until the reply (R292). Sector 4 marks the entry. (DEDUCED, log entry 38.)
-/
def State.sendLease (s : State) (c : Nat) (a : Acc) (len : Nat) : State :=
  let k := s.core c
  if 64 ≤ k.misses.length then s
  else
    let s1 := s.setCore c { k with
      misses := takeMisses a.pa a.key [4] k.misses, accs := modAccs a.id (fun b => { b with phase := .renew }) k.accs }
    s1.post (.renew c a.id a.pa a.key ((k.line? a.pa a.key).map (·.wts)) k.ct len)

/-- A translated access does what it can now. (DEDUCED, log entry 38.) -/
def State.advance (s : State) (c id : Nat) : State :=
  match s.acc? c id with
  | none => s
  | some a =>
    if s.linkDown a.pa && (match a.phase with | .ready | .arrived | .excl => true | _ => false) then
      -- its port's link is down (R28)
      if a.quiet then s.removeAcc c id else s.poisonAcc c a
    else
    match a.phase with
    | .ready =>
      match a.kind with
      | .load => s.load c a
      | .store => s.store c a
      | .atomic _ _ _ | .cas _ _ => s.atomic c a
      | .prefetch => if s.lineBusy c a then s else s.request c a
      | .lease len => s.sendLease c a len
      | .const => s.constLoad c a
    | .arrived => s.cohLoad c a
    | .excl =>
      match (s.core c).line? a.pa a.key with
      | some x => if x.excl then s.atomicInL1 c a x else s
      | none => s
    | _ => s

/-- A read's line waits in the coalescer: too few miss-status entries are free for it, a sector's entry has its four
instructions, or a fill that SYNCR disowned is on its way (R71, R72, R95). (DEDUCED, log entry 35.) -/
def State.stalled (s : State) (c id : Nat) : Bool :=
  match s.acc? c id with
  | some a =>
    a.phase == .ready && ((a.kind == .load && ((s.core c).line? a.pa a.key).isNone) || a.kind == .prefetch)
      && (a.state == 0 || !s.lineBusy c a)
  | none => false

/-- The accesses of a core do what they can in the coalescer's order: behind a line that waits there no later instruction
is served, while what is already under way completes (R72). (DEDUCED, log entry 35.) -/
def State.advanceAll (c : Nat) : List Nat → Bool → State → State
  | [], _, s => s
  | id :: ids, behind, s =>
    if behind && (s.acc? c id).any (fun a => a.phase == .ready) then State.advanceAll c ids true s
    else
      let s1 := s.advance c id
      State.advanceAll c ids (behind || s1.stalled c id) s1

/-- Every access of a core does what it can, in the core's order (R72, R89). -/
def State.progress (s : State) (c : Nat) : State :=
  let ids := (s.core c).accs.map (·.id)
  let s1 := ids.foldl (fun s1 id => s1.translateAcc c id) s
  State.advanceAll c ((s1.core c).accs.map (·.id)) false s1

/-! ## What arrives at a core -/

/-- Data for a line reaches a core (R71): every entry of its read completes, the line is installed unless every waiting
request carried hint 1, or the fill is one that SYNCR disowned (R95), and the entries are freed. -/
def State.fillCore (s : State) (c pa key : Nat) (g : Got) : State :=
  let k := s.core c
  let ws := k.accs.filter (fun a => a.phase == .fill && a.onLine pa key)
  let stale := k.misses.any (fun e => e.2.pa == lineOf pa && e.2.key == key && e.2.stale)
  let s1 := s.setCore c { k with misses := k.misses.filter (fun e => !(e.2.pa == lineOf pa && e.2.key == key && e.2.sector != 4)) }
  let s2 :=
    if !stale && ws.any (fun a => a.hint != 1) then
      (s1.install c (g.line pa key (ws.any (fun a => a.hint == 2)) (ws.any (fun a => a.state == 1)))).2
    else s1
  ws.foldl (fun s3 a =>
    if a.quiet then s3.removeAcc c a.id
    else if a.state = 0 then s3.modAcc c a.id (fun b => { b with phase := .arrived, got := some g })
    else s3.finishLoad c a g) s2

/-- An engine or walker takes a line into its own buffer (R53). -/
def State.fillAgent (s : State) (x : Agent) (pa key : Nat) (g : Got) : State :=
  let put : Line → Line := fun l => if l.pa == lineOf pa && l.key == key && l.got.isNone then { l with got := some g } else l
  match x with
  | .engine k _ t => s.modJob k t (fun j => { j with lines := j.lines.map put })
  | .walker d n =>
    s.modDie d (fun y => { y with active := y.active.map (fun w => if w.id == n then { w with line := w.line.map put } else w) })

/-- REFLECTION_ARRIVAL: the copy for one cluster reaches its requesters (R53, R71). -/
def execReflectionArrival (m : Nat) (s : State) : Out :=
  match s.msg? m with
  | some (.reflect _ pa key reqs g) =>
    let cs := ((reqs.filter (·.agent.isNone)).map (·.core)).eraseDups
    let s1 := (reqs.filterMap (·.agent)).foldl (fun s1 x => s1.fillAgent x pa key g) (s.drop m)
    .next (cs.foldl (fun s2 c => (s2.fillCore c pa key g).progress c) s1)
  | _ => .next s

/-- STORE_ACK: a store, write-back or home atomic is acknowledged (R82, R88, R92), or traps (R19, R28). R88 gives the storing core's copy
the bytes and the acknowledged times; a copy older than the line that the store met at home would then lend its other bytes a time at which
R90 has later stores to them precede, so such a copy is dropped. (DEDUCED, log entries 44 and 78.) -/
def execStoreAck (m : Nat) (s : State) : Out :=
  match s.msg? m with
  | some (.ack c id pa key w data found poison prev) =>
    let s0 := s.drop m
    let bad := poison || (id != 0 && s.linkDown pa)
    match s0.acc? c id with
    | none => .next s0
    | some a =>
      let s1 := match w with | some t => s0.raiseCt c t | none => s0
      if a.kind == .store then
        let mates := (s1.core c).storeMates a .sent
        let s2 := if bad then mates.foldl (fun s2 b => s2.poisonAcc c b) s1 else s1.removeAccs c (mates.map (·.id))
        let s3 :=
          match (if bad then none else (s2.core c).line? pa key) with
          | some x =>
            let y := match w with | some t => { x.write data with wts := t, rts := t } | none => x.write data
            if prev.any (· != x.wts) then s2.modCore c (·.dropLine x)
            else s2.modCore c (fun k => { k with l1 := k.l1.map (fun (z : L1Line) => if z.is pa key then y else z) })
          | none => s2
        .next (s3.progress c)
      else if bad then .next ((s1.poisonAcc c a).progress c)
      else .next ((s1.finish c a found).progress c)
  | _ => .next s

/-- A read of a line by a core is on its way: an entry of it that is no LEASE's (R54, R71). -/
def Core.reading (k : Core) (pa key : Nat) : Bool :=
  k.misses.any (fun e => e.2.pa == lineOf pa && e.2.key == key && e.2.sector != 4)

/-- A LEASE's entry on a line is freed (R292). -/
def Core.freeLease (k : Core) (pa key : Nat) : Core :=
  match k.misses.find? (fun e => e.2.pa == lineOf pa && e.2.key == key && e.2.sector == 4) with
  | some e => { k with misses := tdel k.misses e.1 }
  | none => k

/-- The reply to a LEASE with no data: the copy's lease is longer, and misses that joined its entry are requested (R292). -/
def State.leaseDone (s : State) (c : Nat) (a : Acc) (w r : Dword) : State :=
  let ids := if (s.core c).reading a.pa a.key then []
    else ((s.core c).accs.filter (fun b => b.phase == .fill && b.onLine a.pa a.key)).map (·.id)
  (s.removeAcc c a.id).modCore c (fun k => { (k.freeLease a.pa a.key) with
    l1 := k.l1.map (fun x => if x.is a.pa a.key && x.wts == w then { x with rts := maxD x.rts r } else x)
    accs := k.accs.map (fun b => if ids.contains b.id then { b with phase := .ready } else b) })

/-- The reply to a load's renewal completes it (R87). Its time is that of the ct it was sent with, so it lies within the
lease whatever ticks have passed since. (DEDUCED, log entry 25.) -/
def State.renewDone (s : State) (c : Nat) (a : Acc) (w r : Dword) (got : Option Got) : State :=
  match got with
  | some g =>
    let s1 := if a.hint = 1 then s else (s.install c (g.line a.pa a.key (a.hint == 2) false)).2
    (s1.raiseCt c g.wts).finishLoad c a g
  | none =>
    let s1 := s.modCore c (fun k => { k with
      l1 := k.l1.map (fun x => if x.is a.pa a.key && x.wts == w then { x with rts := maxD x.rts r } else x) })
    match s1.copyFor c a with
    | some g => (s1.raiseCt c g.wts).finishLoad c a g
    | none => s1.modAcc c a.id (fun b => { b with phase := .ready })

/-- RENEWAL_REPLY (R87). -/
def execRenewalReply (m : Nat) (s : State) : Out :=
  match s.msg? m with
  | some (.renewReply c id pa key w r got) =>
    let s0 := s.drop m
    match s0.acc? c id with
    | none => .next s0
    | some a =>
      match a.kind, got with
      | .lease _, some g =>
        -- its line is installed, and the misses that joined its entry complete with it; a read of the line keeps its own entries
        let s1 := (((s0.removeAcc c id).modCore c (·.freeLease pa key)).install c (g.line pa key false false)).2
        .next ((if (s1.core c).reading pa key then s1 else s1.fillCore c pa key g).progress c)
      | .lease _, none => .next ((s0.leaseDone c a w r).progress c)
      | _, _ => .next ((s0.renewDone c a w r got).progress c)
  | _ => .next s

/-- EXCLUSIVE_GRANT_ARRIVAL: the line is installed and its atomic performed; without a lease the atomic executes at home
(R92, R93). -/
def execExclusiveGrantArrival (m : Nat) (s : State) : Out :=
  match s.msg? m with
  | some (.exclGrant c id pa key got) =>
    let s0 := s.drop m
    let home := fun (s1 : State) => match s1.acc? c id with | some a => s1.sendAtomic c a true | none => s1
    match got with
    | none => .next ((home s0).progress c)
    | some g =>
      let (ok, s1) := s0.install c { g.line pa key false false with excl := true, idle := s0.now c }
      if ok then .next (s1.progress c)
      else .next ((home (s1.post (.exclReturn c (lineOf pa) key 0 g))).progress c)
  | _ => .next s

/-- An exclusive line of a core returns home. -/
def State.giveBack (s : State) (c pa key : Nat) : State :=
  match (s.core c).l1.find? (fun x => x.excl && x.is pa key) with
  | some x => s.evict c x
  | none => s

/-- An atomic instruction of a core that has acted on a line it holds exclusively is not finished (R93, R101); lanes that are parked or
held for a handler do not keep it. -/
def Core.atomBusy (k : Core) (pa key : Nat) : Bool :=
  (k.l1.filter (fun x => x.excl && x.is pa key)).any (fun x => k.accs.any (fun b =>
    b.inst == x.atom && (match b.kind with | .atomic _ _ _ | .cas _ _ => true | _ => false)
      && (match b.phase with | .parked | .held => false | _ => true)))

/-- EXCLUSIVE_RECALL: the owner returns the line once its atomic instruction has finished; a recall of a line that is on its way
waits, and one of a line that has gone does nothing (R93). -/
def execExclusiveRecall (m : Nat) (s : State) : Out :=
  match s.msg? m with
  | some (.exclRecall c pa key) =>
    if s.net.any (fun e => match e.2 with | .exclGrant k _ p _ _ => k == c && lineOf p == lineOf pa | _ => false)
        || (s.core c).atomBusy pa key then .next s
    else .next ((s.drop m).giveBack c pa key)
  | _ => .next s

/-- EXCLUSIVE_TIMEOUT: 1,024 front cycles without an atomic on the line (R93). -/
def execExclusiveTimeout (c pa : Nat) (s : State) : Out :=
  match (s.core c).l1.find? (fun x => x.excl && x.pa == lineOf pa && x.idle + 1024 ≤ s.now c) with
  | some x => .next (s.evict c x)
  | none => .next s

/-- ACCESS_REPLAY: a logged access of a core is translated and performed if it can be (R237). -/
def execAccessReplay (c id : Nat) (s : State) : Out :=
  .next (if ((s.acc? c id).any (fun a => a.phase == .logged)) then s.progress c else s)

end Sys2Proof.Machine
end

