-- ==== Sys2Proof/Machine/Memory.lean ====
section
/-! DEFINITION. The memory, scratchpad, fence and visibility instructions (15_ref_memory_engines_convoys.md R278 to R295). -/

namespace Sys2Proof.Machine

/-! ## Issuing accesses -/

/-- The access of a lane, before its translation. (DEDUCED, log entries 35 and 40.) -/
def Lane.access (L : Lane) (kind : AccKind) (va : Dword) (size count dest : Nat) (sext : Bool) (hint : Nat)
    (data cmp : List Byte) : Acc :=
  { id := 0, inst := 0, slot := L.slot, tid := L.tid, pc := L.th.pc, kind := kind, va := va, size := size, count := count
    dest := dest, sext := sext, hint := hint, data := data, cmp := cmp, priv := L.th.handler, phase := .logged, log := none
    pa := 0, key := 0, state := (L.s.regionFor L.g.ctx va).state, got := none }

/-- The accesses of one instruction join their core's order. (DEDUCED, log entry 35.) -/
def State.pushAccs (s : State) (c : Nat) (l : List Acc) : State :=
  let inst := s.seq
  let l1 := (List.range l.length).zip l |>.map (fun e => { e.2 with id := inst + 1 + e.1, inst := inst })
  { s with seq := inst + 1 + l.length }.modCore c (fun k => { k with accs := k.accs ++ l1 })

/-- A memory access instruction: the lanes move on, take their convoy steps, empty their destinations and issue their
accesses, which do at once what they can. -/
def State.memOp (s : State) (i : Instr) (o : Op) (check : Lane → Option Trap) (mk : Lane → List Acc) : State :=
  s.frame i o check (fun wave ok s0 =>
    let ls := (byLane ok).filterMap (s0.lane? o wave)
    let accs := ls.flatMap mk
    let c := s.cur.core
    let s1 := s0.moveTo ok s.cur.next
    let s2 := s1.cvSteps c s.cur.slot ((ls.filter (fun L => L.steps i != 0)).map (fun L => (L.tid, BitVec.ofNat 32 (L.steps i))))
    let s3 := accs.foldl (fun s4 a => s4.modThread c a.slot a.tid (fun th => th.drainAll a.dest a.count)) s2
    (s3.pushAccs c accs).progress c) true

/-- The precise checks of a memory address (R279): alignment, then bits [63:57]. -/
def vaCheck (n acc : Nat) (va : Dword) : Option Trap :=
  if va.toNat % n != 0 then some { cause := 0x0A, va := va }
  else if 2 ^ 57 ≤ va.toNat then some { cause := 0x0C, va := va, info := BitVec.ofNat 32 acc }
  else none

/-- The bytes of words, the first n of them (R280). -/
def storeBytes (n : Nat) (ws : List Word) : List Byte := (ws.flatMap (fun w => leBytes 4 w.toNat)).take n

/-- The data that a store's lane reads from D (R280). -/
def Lane.storeData (L : Lane) : List Byte := storeBytes (accessBytes L.o) (L.words L.fD (accessRegs L.o) (dMod L.o))

/-- .i8 and .i16 are sign-extended (R280). -/
def signedLoad (fn : Nat) : Bool := fn == 4 || fn == 6

/-- LD (R283). -/
def execLd (o : Op) (s : State) : Out := .next (s.memOp (.ld o) o (fun L => vaCheck (accessBytes o) 0 L.va) (fun L =>
  [L.access .load L.va (accessBytes o) (accessRegs o) (L.dstReg (accessRegs o)) (signedLoad L.fn) (hintOf o) [] []]))

/-- ST (R284). -/
def execSt (o : Op) (s : State) : Out := .next (s.memOp (.st o) o (fun L => vaCheck (accessBytes o) 1 L.va) (fun L =>
  [L.access .store L.va (accessBytes o) 0 0 false 0 L.storeData []]))

/-- The constant address of LDC and its checks (R286). -/
def Lane.ldcVa (L : Lane) : Dword := L.g.record.cbank + L.sa.setWidth 64
def ldcCheck (o : Op) (L : Lane) : Option Trap :=
  if L.sa.toNat % accessBytes o != 0 then some { cause := 0x0A, va := L.ldcVa }
  else if 16384 < L.sa.toNat + accessBytes o then some { cause := 0x0C, va := L.ldcVa }
  else none

/-- LDC (R286). -/
def execLdc (o : Op) (s : State) : Out := .next (s.memOp (.ldc o) o (ldcCheck o) (fun L =>
  [L.access .const L.ldcVa (accessBytes o) (accessRegs o) (L.dstReg (accessRegs o)) (signedLoad L.fn) 0 [] []]))

/-- The type of an atomic, as a type code for its immediates (R287), and its size. -/
def atomTy (o : Op) : Nat := if o.m.toNat = 4 then 8 else o.m.toNat
def atomSize (o : Op) : Nat := if o.m.toNat = 2 ∨ o.m.toNat = 3 then 8 else 4
def Lane.atomB (L : Lane) (i : Instr) : List Byte :=
  leBytes (atomSize L.o) (L.srcB (shapeOf i) (atomTy L.o) (atomSize L.o == 8)).toNat
def Lane.atomC (L : Lane) : List Byte := leBytes (atomSize L.o) (L.source (atomSize L.o == 8) L.fC 0).toNat

/-- The scope that E names (R282). -/
def atomScope (o : Op) : Nat := (o.w1.extractLsb' 20 3).toNat

/-- A scope of 6 or 7 traps (R282). (DEDUCED, log entry 15.) -/
def atomCheck (o : Op) (L : Lane) : Option Trap :=
  if 6 ≤ atomScope o then some { cause := 0x01 } else vaCheck (atomSize o) 2 L.atomVa

/-- ATOM (R287, R288). -/
def execAtom (o : Op) (s : State) : Out := .next (s.memOp (.atom o) o (atomCheck o) (fun L =>
  [L.access (.atomic L.fn o.m.toNat (atomScope o)) L.atomVa (atomSize o) (atomSize o / 4) (L.dstReg (atomSize o / 4)) false 0
    (L.atomB (.atom o)) []]))

/-- CAS (R289). -/
def execCas (o : Op) (s : State) : Out := .next (s.memOp (.cas o) o (atomCheck o) (fun L =>
  [L.access (.cas o.m.toNat (atomScope o)) L.atomVa (atomSize o) (atomSize o / 4) (L.dstReg (atomSize o / 4)) false 0 L.atomC
    (L.atomB (.cas o))]))

/-- The lines that a prefetch or lease names, each by the lowest lane that names it. -/
def firstOfLine (ls : List Acc) : List Acc :=
  ls.foldl (fun out a => if out.any (fun b => b.va == a.va) then out else out ++ [a]) []

/-- PF and LEASE: one request for each distinct line; they end at issue (R292, R293). -/
def State.lineOp (s : State) (i : Instr) (o : Op) (mk : Lane → Dword → Acc) : State :=
  s.frame i o noCheck (fun wave ok s0 =>
    let ls := ((byLane ok).filterMap (s0.lane? o wave)).filter (fun L => L.va.toNat < 2 ^ 57)
    let accs := firstOfLine (ls.map (fun L => mk L (L.va &&& ~~~255#64)))
    ((s0.moveTo ok s.cur.next).pushAccs s.cur.core accs).progress s.cur.core) true

/-- PF: H = 1 and H = 3 act as 0 (R293). -/
def execPf (o : Op) (s : State) : Out :=
  let h := if hintOf o = 1 ∨ hintOf o = 3 then 0 else hintOf o
  .next (s.lineOp (.pf o) o (fun L va => L.access .prefetch va 1 0 0 false h [] []))

/-- LEASE: length 0, or 2^(FN + 3) (R292). -/
def execLease (o : Op) (s : State) : Out :=
  let len := if o.fn.toNat = 0 then 0 else 2 ^ (o.fn.toNat + 3)
  .next (s.lineOp (.lease o) o (fun L va => L.access (.lease len) va 1 0 0 false 0 [] []))

/-! ## The scratchpad -/

/-- The checks of R285. -/
def spadTrap (L : Lane) (sa : Word) (al n : Nat) : Option Trap :=
  (L.s.spadCheck L.c L.g.ctx sa al n).map (fun cause => { cause := cause, va := sa.setWidth 64 })

/-- An effect that goes lane by lane in ascending home lane, each one access at its slice (R99, R300). (DESIGN CHOICE, log entry 23.) -/
def State.sliceOp (s : State) (i : Instr) (o : Op) (check : Lane → Option Trap) (f : Lane → State → State) : State :=
  s.frame i o check (fun wave ok s0 => ((byLane ok).filterMap (s0.lane? o wave)).foldl (fun s1 L => f L s1) s0) false

/-- A scratchpad access performed at its slice (R285, R288, R289): loads and atomics fill their destination. -/
def State.spadDo (s : State) (c slot t : Nat) (w : SpadWork) : State :=
  match w.kind with
  | .store => s.spadStore c w.sa w.data
  | kind =>
    let (old, s1) := s.spadLoad c w.sa w.size
    let s2 := if kind = .load then s1 else s1.spadStore c w.sa (kind.apply w.size old w.data w.cmp)
    s2.modThread c slot t (fun th => th.fillAll w.dest (loadWords w.size w.sext old))

/-- The access that an LDS, STS, ATOMS or CASS of a lane makes (R285, R287 to R289). -/
def Lane.spadWork (L : Lane) (i : Instr) : SpadWork :=
  let n := accessBytes L.o
  let z := atomSize L.o
  let atomic : AccKind → List Byte → List Byte → SpadWork := fun kind data cmp =>
    { kind := kind, sa := L.atomSa, size := z, count := z / 4, dest := L.dstReg (z / 4), sext := false, data := data, cmp := cmp }
  match i with
  | .sts _ => { kind := .store, sa := L.sa, size := n, count := 0, dest := 0, sext := false, data := L.storeData, cmp := [] }
  | .atoms _ => atomic (.atomic L.fn L.o.m.toNat 0) (L.atomB i) []
  | .cass _ => atomic (.cas L.o.m.toNat 0) L.atomC (L.atomB i)
  | _ =>
    { kind := .load, sa := L.sa, size := n, count := accessRegs L.o, dest := L.dstReg (accessRegs L.o), sext := signedLoad L.fn
      data := [], cmp := [] }

/-- The checks of a scratchpad access (R285, R288). -/
def Lane.spadAccessTrap (i : Instr) (L : Lane) : Option Trap :=
  let w := L.spadWork i
  spadTrap L w.sa w.size w.size

/-- A scratchpad access of each lane, performed as it issues. (DESIGN CHOICE, log entry 23.) -/
def State.spadOp (s : State) (i : Instr) (o : Op) : State :=
  s.sliceOp i o (Lane.spadAccessTrap i) (fun L s1 => s1.spadDo L.c L.slot L.tid (L.spadWork i))

/-- LDS (R285). (DESIGN CHOICE, log entry 23.) -/
def execLds (o : Op) (s : State) : Out := .next (s.spadOp (.lds o) o)

/-- STS (R285). -/
def execSts (o : Op) (s : State) : Out := .next (s.spadOp (.sts o) o)

/-- ATOMS (R287, R288). -/
def execAtoms (o : Op) (s : State) : Out := .next (s.spadOp (.atoms o) o)

/-- CASS (R289). -/
def execCass (o : Op) (s : State) : Out := .next (s.spadOp (.cass o) o)

/-! ### Work that is put off (R445, R446) -/

/-- The registers that late work fills. -/
def LateWork.dests : LateWork → Nat × Nat
  | .spad w => (w.dest, w.count)
  | .counter _ _ d | .ticket _ _ d => (d, 1)
  | .board _ d => (d, 2)

/-- The board status word (R207). -/
def Board.word (b : Board) : Dword := BitVec.ofNat 64 (b.next.toNat * 2 ^ 32 + b.w * 2 ^ 8 + b.span)

/-- Work of a thread is put off: its destination is empty until it is performed (R127). (DESIGN CHOICE, log entry 81.) -/
def State.putOff (s : State) (c slot t : Nat) (w : LateWork) : State :=
  (s.modThread c slot t (fun th => th.drainAll w.dests.1 w.dests.2)).modCore c (fun k => { k with
    late := k.late ++ [{ slot := slot, tid := t, work := w }] })

/-- Late work performed. (DESIGN CHOICE, log entry 81.) -/
def State.lateDo (s : State) (c : Nat) (e : Late) : State :=
  let fill := fun (ws : List Word) => s.modThread c e.slot e.tid (fun th => th.fillAll e.work.dests.1 ws)
  let x := s.cluster (clusterOf c)
  match e.work with
  | .spad w => s.spadDo c e.slot e.tid w
  | .counter b n _ => fill [BitVec.ofNat 32 ((tget Board.reset x.boards b).counterOf n)]
  | .board b _ => fill [lowWord (tget Board.reset x.boards b).word, highWord (tget Board.reset x.boards b).word]
  | .ticket t ctx _ => fill [(s.ticketStatus (clusterOf c) ctx t).setWidth 32]

/-- Entry n of a core's late work is performed, unless it is a scratchpad access with an earlier one of its thread before it (R99). (DESIGN
CHOICE, log entry 81.) -/
def State.perform (s : State) (c n : Nat) : State :=
  let l := (s.core c).late
  match l[n]? with
  | none => s
  | some e =>
    if e.work.isSpad && (l.take n).any (fun x => x.slot == e.slot && x.tid == e.tid && x.work.isSpad) then s
    else (s.modCore c (fun k => { k with late := l.eraseIdx n })).lateDo c e

/-- All late work of a cluster is performed: one of its allocations is about to be cleared. (DESIGN CHOICE, log entry 81.) -/
def State.performAll (s : State) (k : Nat) : State :=
  (List.range 16).foldl (fun s1 n =>
    ((s1.core (16 * k + n)).late).foldl (fun s2 _ => s2.perform (16 * k + n) 0) s1) s

/-- An instruction of each lane issues, and its work is put off. (DESIGN CHOICE, log entry 81.) -/
def State.lateOp (s : State) (i : Instr) (o : Op) (check : Lane → Option Trap) (work : Lane → Option LateWork) : State :=
  s.sliceOp i o check (fun L s1 => match work L with | some w => s1.putOff L.c L.slot L.tid w | none => s1)

/-! ## Fences and visibility -/

/-- FENCE: the thread waits at issue until its accesses are performed; that is all (R290). -/
def execFence (o : Op) (s : State) : Out := .next (s.laneOp (.fence o) o noCheck (fun L => L.th))

/-- FENCE.E: it waits for the group's jobs too, and acquires them (R290, R116). (DEDUCED, log entry 24.) -/
def execFenceE (o : Op) (s : State) : Out :=
  .next (s.groupOp (.fenceE o) o noCheck (fun L s1 => s1.raiseCt L.c L.g.jobTime))

/-- A thread begins a wait. -/
def State.wait (s : State) (c g t : Nat) (k : WaitKind) : State :=
  s.modThread c g t (fun th => { th with wait := some ⟨k, s.now c, false⟩ })

/-- What a lane's operands gave when its instruction issued: as its wait keeps them, or `given` now. -/
def Lane.args (L : Lane) (given : Lane → List Nat) : List Nat :=
  match L.th.wait with
  | some ⟨.release l, _, _⟩ => l
  | _ => given L

/-- An instruction that releases: where `flush` says so, the core's dirty STR and PRV sectors are first written back and
acknowledged (R95, R190, R206), while the thread keeps the values that its operands gave; then `fin` acts on the lanes in ascending
home lane, and moves them. -/
def State.releaseOp (s : State) (i : Instr) (o : Op) (check : Lane → Option Trap) (flush : Lane → Bool)
    (fin : List Lane → State → State) (given : Lane → List Nat := fun _ => []) : State :=
  s.frame i o check (fun wave ok s0 =>
    let c := s.cur.core
    let ls := (byLane ok).filterMap (s0.lane? o wave)
    let news := ls.filter (fun L => L.th.wait.isNone && flush L)
    let s1 := if news.isEmpty then s0 else s0.writeBackAll c (fun _ => true)
    let stay := if s1.writeBacksOpen c then news else []
    let go := ls.filter (fun L => !stay.any (fun x => x.tid == L.tid))
    fin go (stay.foldl (fun s2 L => s2.wait L.c L.slot L.tid (.release (given L))) s1)) true

/-- SYNCW (R95, R291). -/
def execSyncw (o : Op) (s : State) : Out :=
  .next (s.releaseOp (.syncw o) o noCheck (fun _ => o.fn != 0) (fun ls s1 => s1.moveTo (ls.map (·.tid)) s.cur.next))

/-- The clean STR lines of a core are discarded, and its STR fills under way are not to be installed (R95). -/
def Core.dropStr (k : Core) : Core :=
  { k with
    l1 := k.l1.filter (fun x => !(x.str && x.dirty == 0 && !x.excl))
    misses := k.misses.map (fun e =>
      if k.accs.any (fun a => a.phase == .fill && a.state == 1 && a.onLine e.2.pa e.2.key) then (e.1, { e.2 with stale := true })
      else e) }

/-- An STR line with a dirty sector is first written back and leaves the L1, since its clean sectors may be stale too (R95, R96). (DEDUCED,
log entry 78.) -/
def State.discardStr (s : State) (c : Nat) : State :=
  (((s.core c).l1.filter (fun x => x.str && x.dirty != 0 && !x.excl)).foldl (fun s1 x => s1.evict c x) s).modCore c Core.dropStr

/-- SYNCR (R95, R291). -/
def execSyncr (o : Op) (s : State) : Out :=
  .next (s.groupOp (.syncr o) o noCheck (fun L s1 => if o.fn = 0 then s1 else s1.discardStr L.c))

/-! ## RSTATE -/

/-- Every line of a core goes: exclusive ones return, dirty sectors are written, all are invalidated (R98). (DEDUCED, log entry 39.) -/
def State.flushCore (s : State) (c : Nat) : State :=
  let ls := (s.core c).l1
  ls.foldl (fun s1 x =>
    if x.excl then (s1.touchSlab x.pa).returnExcl x.pa x.key (x.dirty &&& ~~~x.poison) x.got
    else
      let d := x.dirty &&& ~~~x.poison
      if d = 0 then s1 else s1.hubStore false x.key x.pa (sectorBytes x.pa d x.bytes))
    (s.modCore c (fun k => { k with l1 := [] }))

def rstateRegion (o : Op) : Nat := o.a.toNat % 16
/-- RSTATE's B: the field, or IMM20 with IMM = 1 (R259, R260). -/
def rstateArg (o : Op) : Nat := if o.form == .w64 && o.imm then (Lane.imm20 o).toNat else o.b.toNat
def rstateState (o : Op) : Nat := rstateArg o % 4

/-- Steps 3 to 5 of R98, and R35's OWNER: the cores that run for the context are flushed, the entry is written in memory and in
every copy. (DESIGN CHOICE, log entry 21; DEDUCED, log entry 39.) -/
def State.changeRegion (s : State) (c ctx n st : Nat) : State :=
  let s1 := (s.coresFor ctx).foldl (fun s1 k => s1.flushCore k) s
  match tfind s1.hub.contexts ctx with
  | none => s1
  | some x =>
    let pa := x.raf + 8 * n
    let (old, s2) :=
      match s1.hubLoad 0 pa 8 with
      | .ok (bs, s2) => (BitVec.ofNat 64 (leNat bs), s2)
      | .error s2 => (s2.regionEntry ctx n, s2)
    let st1 := (old &&& ~~~0x18#64) ||| BitVec.ofNat 64 (st * 8)
    let new := if st = 2 then (st1 &&& ~~~0xFF800#64) ||| BitVec.ofNat 64 (c * 2048) else st1
    let s3 := s2.hubStore true 0 pa (zipFrom pa (leBytes 8 new.toNat))
    let y := { x with moving := none, regions := x.regions.set n new }
    s3.modHub (fun h => { h with contexts := tset h.contexts ctx y })

/-- RSTATE: a number out of range traps with 0x01, a region with V = 0 with 0x0C (R294). (DEDUCED, log entry 15.) -/
def rstateCheck (o : Op) (L : Lane) : Option Trap :=
  if 15 < o.a.toNat || 3 < rstateArg o then some { cause := 0x01 }
  else if !(regionOf (L.s.regionEntry L.g.ctx o.a.toNat)).valid then
    some { cause := 0x0C, va := BitVec.ofNat 64 (o.a.toNat * 2 ^ 53) }
  else none

/-- RSTATE (R98, R294): the region is held while the accesses issued to it end; then the change is made and the threads go on. (DEDUCED, log
entry 39.) -/
def execRstate (o : Op) (s : State) : Out := .next (s.frame (.rstate o) o (rstateCheck o) (fun wave ok s0 =>
  let ls := (byLane ok).filterMap (s0.lane? o wave)
  match ls with
  | [] => s0
  | L :: _ =>
    let begun := s0.modHub (fun h =>
      match tfind h.contexts L.g.ctx with
      | some x => { h with contexts := tset h.contexts L.g.ctx { x with moving := some (x.moving.getD (rstateRegion o, s0.seq)) } }
      | none => h)
    if begun.rstateBusy L.g.ctx then
      (ls.filter (·.th.wait.isNone)).foldl (fun s1 x => s1.wait x.c x.slot x.tid .region) begun
    else begun.waitSlab (fun s1 => (s1.changeRegion L.c L.g.ctx (rstateRegion o) (rstateState o)).moveTo ok s.cur.next)) true)

/-! ## WAYMASK -/

/-- The 17 legal masks (R77). -/
def legalMask (m : BitVec 16) : Bool := (List.range 17).any (fun n => m == BitVec.ofNat 16 (65536 - 2 ^ (16 - n)))

/-- Bytes of a way, as offsets (R73). -/
def wayBase (w : Nat) : Nat := (15 - w) * 32768

/-- A way may leave the scratchpad: no allocation and no footprint of an accepted job covers it (R78). -/
def State.wayFree (s : State) (c w : Nat) : Bool :=
  !((s.core c).allocs.any (fun a => a.2.base < wayBase w + 32768 && wayBase w < a.2.base + a.2.size))
  && !((s.cluster (clusterOf c)).jobs.any (fun j => j.feet.any (fun f =>
    let at0 := c % 16 * 0x80000 + wayBase w
    f.sp && f.base < at0 + 32768 && at0 < f.base + f.size)))

/-- The target becomes the mask in one step when every way is ready (R78): entering ways read zero, with their failed bits
clear (R115). (DEDUCED, log entry 75.) -/
def State.applyTarget (s : State) (c : Nat) : State :=
  let k := s.core c
  let enter := (List.range 16).filter (fun w => k.target.getLsbD w && !k.mask.getLsbD w)
  let leave := (List.range 16).filter (fun w => !k.target.getLsbD w && k.mask.getLsbD w)
  if k.target = k.mask || enter.any k.flushing.contains || leave.any (fun w => !s.wayFree c w) then s
  else
    let moved := enter ++ leave
    let out : Nat → Bool := fun off => moved.contains (wayOf off)
    s.setCore c { k with
      mask := k.target, spad := k.spad.filter (fun e => !out e.1), failed := k.failed.filter (fun off => !out off)
      zeroed := k.zeroed.filter (fun w => !moved.contains w) ++ enter }

/-- A new target (R78): ways that enter the scratchpad begin their flush. (DEDUCED, log entry 75.) -/
def State.setTarget (s : State) (c : Nat) (m : BitVec 16) : State :=
  let k := s.core c
  let enter := (List.range 16).filter (fun w => m.getLsbD w && !k.mask.getLsbD w && !k.flushing.contains w
    && !(k.target.getLsbD w && !k.mask.getLsbD w))
  let s1 := s.setCore c { k with target := m, flushing := k.flushing ++ enter }
  (s1.writeBackAll c (fun x => enter.contains x.way)).applyTarget c

/-- WAY_FLUSH_COMPLETE: what is still dirty or exclusive in the way goes first; then its lines are invalidated (R78). (DEDUCED, log entry
75.) -/
def execWayFlushComplete (c w : Nat) (s : State) : Out :=
  let k := s.core c
  if !k.flushing.contains w then .next s
  else
    let ls := k.l1.filter (fun x => x.way == w && (x.excl || (x.dirty &&& ~~~x.poison) != 0))
    if !ls.isEmpty then .next (ls.foldl (fun s1 x => s1.evict c x) s)
    else if s.writeBacksOpen c then .next s
    else
      .next ((s.setCore c { k with l1 := k.l1.filter (fun x => x.way != w), flushing := k.flushing.filter (· != w) }).applyTarget c)

/-- WAYMASK's supervisor check, the first of step 10 (R77, R295). -/
def waymaskCheck (L : Lane) : Option Trap := if L.s.supervisor L.g.ctx then none else some { cause := 0x08 }

/-- The mask that WAYMASK names. -/
def Lane.waymaskOf (L : Lane) (o : Op) : BitVec 16 := (L.srcB (shapeOf (.waymask o)) 0 false).extractLsb' 0 16

/-- A WAYMASK of some lanes begins (R78): `answer` gives them a status and lets them go on. -/
def State.beginWaymask (s : State) (c : Nat) (m : BitVec 16) (ls : List Lane) (answer : State → Word → State) : State :=
  if !legalMask m then answer s 2
  else if (s.core c).mask = m then answer (s.modCore c (fun k => { k with target := m })) 0
  else
    let s1 := s.setTarget c m
    let k := s1.core c
    if k.mask = m then answer s1 0
    else if k.flushing.any (fun w => k.target.getLsbD w) then ls.foldl (fun s2 x => s2.wait x.c x.slot x.tid (.waymask m)) s1
    else answer s1 1

/-- WAYMASK (R78, R295): it waits while its entering ways are being flushed. (DEDUCED, log entry 75.) -/
def execWaymask (o : Op) (s : State) : Out := .next (s.frame (.waymask o) o waymaskCheck (fun wave ok s0 =>
  let ls := (byLane ok).filterMap (s0.lane? o wave)
  match ls with
  | [] => s0
  | L :: _ =>
    let answer := fun (ls : List Lane) (s1 : State) (st : Word) =>
      (ls.foldl (fun s2 x => s2.modThread x.c x.slot x.tid (fun th => th.put (x.dstReg 1) st)) s1).moveTo (ls.map (·.tid)) s.cur.next
    -- those whose wait has ended have their status by the mask they named; the others begin
    let s1 := ls.foldl (fun s1 x =>
      match x.th.wait with
      | some ⟨.waymask m, _, _⟩ => answer [x] s1 (if (s1.core x.c).mask = m then 0 else 1)
      | _ => s1) s0
    let news := ls.filter (fun x => x.th.wait.isNone)
    if news.isEmpty then s1 else s1.beginWaymask L.c ((news.headD L).waymaskOf o) news (answer news)) true)

end Sys2Proof.Machine
end

