-- ==== Sys2Proof/Machine/Control.lean ====
section
/-! DEFINITION. Transfers of control, waiting and yielding, TRAP and ERET (18_ref_control_system.md R364 to R369, R377 to R379),
the hint region (14_encoding_and_assembly.md R269), words without an instruction (R254), and the events that end a sleep or a
watched wait (R377, R231). -/

namespace Sys2Proof.Machine

/-! ## Transfers -/

/-- The checks of R364 on a target. -/
def Lane.jumpTrap (L : Lane) (va : Dword) : Option Trap :=
  match L.s.target L.c L.g.ctx va L.th.handler with
  | .trap cause => some (if cause = 0x04 then { cause := 0x04 } else { cause := cause, va := va, info := 3 })
  | _ => none

/-- The priorities of a branch (R266). -/
def takenPrio (o : Op) : BitVec 16 := o.w1.extractLsb' 0 16
def fallPrio (o : Op) : BitVec 16 := o.w1.extractLsb' 16 16

/-- The inactive threads of a branch or call take its fall-through priority (R180, R364). -/
def State.fall (s : State) (i : Instr) (o : Op) : State :=
  let wave := s.readyWave i o
  let act := s.actives o wave
  (wave.filter (fun t => !act.contains t)).foldl (fun s1 t =>
    s1.modThread s.cur.core s.cur.slot t (fun th => { th with prio := fallPrio o })) s

/-- A transfer: each active thread that passes becomes what f gives. -/
def State.jump (s : State) (i : Instr) (o : Op) (check : Lane → Option Trap) (f : Lane → Thread) : State :=
  s.frame i o check (fun wave ok s0 =>
    ok.foldl (fun s1 t =>
      match s0.lane? o wave t with
      | some L => s1.modThread s.cur.core s.cur.slot t (fun _ => f L)
      | none => s1) s0) true

/-- BRA (R365). -/
def execBra (o : Op) (s : State) : Out :=
  .next ((s.fall (.bra o) o).jump (.bra o) o (fun L => L.jumpTrap (branchTarget o L.th.pc)) (fun L =>
    { L.th with pc := branchTarget o L.th.pc, prio := takenPrio o }))

/-- The return link (R366). -/
def Lane.link (L : Lane) : Thread :=
  let next := L.s.cur.next
  L.th.putAll (4 * L.fn) [lowWord next, highWord next &&& 0x1FFFFFF, (fallPrio L.o).setWidth 32]

/-- CALL (R366). -/
def execCall (o : Op) (s : State) : Out :=
  .next ((s.fall (.call o) o).jump (.call o) o (fun L => L.jumpTrap (branchTarget o L.th.pc)) (fun L =>
    { L.link with pc := branchTarget o L.th.pc, prio := takenPrio o }))

/-- A landing pad's tag, where a word pair is an LPAD (R368). -/
def padTag (bs : List Byte) (w : Nat) : Option (BitVec 16) :=
  let lo := wordAt bs w
  let hi := wordAt bs (w + 1)
  if w = 7 || opcOf lo != 0x302 then none else some (hi.extractLsb' 0 8 ++ lo.extractLsb' 16 8)

/-- The checks of an indirect transfer (R367, R188). -/
def Lane.padTrap (L : Lane) : Option Trap :=
  let va := L.pairTarget
  match L.jumpTrap va with
  | some t => some t
  | none =>
    match L.s.target L.c L.g.ctx va L.th.handler with
    | .ok bs =>
      let want : BitVec 16 := L.o.b ++ L.o.d
      match padTag bs (va.toNat / 4 % 8) with
      | some tag => if tag = want then none else some { cause := 0x05, info := want ++ tag }
      | none => some { cause := 0x05, info := want ++ 0#16 }
    | _ => none

/-- BRX (R367). -/
def execBrx (o : Op) (s : State) : Out :=
  .next ((s.fall (.brx o) o).jump (.brx o) o Lane.padTrap (fun L => { L.th with pc := L.pairTarget, prio := takenPrio o }))

/-- CALLX (R367). -/
def execCallx (o : Op) (s : State) : Out :=
  .next ((s.fall (.callx o) o).jump (.callx o) o Lane.padTrap (fun L => { L.link with pc := L.pairTarget, prio := takenPrio o }))

/-- LPAD (R368). -/
def execLpad (o : Op) (s : State) : Out := .next (s.laneOp (.lpad o) o noCheck (fun L => L.th))

/-- RET (R369). -/
def execRet (o : Op) (s : State) : Out :=
  .next (s.jump (.ret o) o (fun L => L.jumpTrap L.linkPc) (fun L =>
    { L.th with pc := L.linkPc, prio := ((L.words L.fA 3 0).getD 2 0).extractLsb' 0 16 }))

/-! ## Yielding and waiting -/

/-- The threads of an issue wave are passed over at the group's next opportunity on the quadrant (R187). -/
def State.yieldWave (s : State) (wave : List Nat) : State :=
  s.modGroup s.cur.core s.cur.slot (fun g => { g with passed := tset g.passed s.cur.quad wave })

/-- YIELD (R377). -/
def execYield (o : Op) (s : State) : Out :=
  .next (s.frame (.yield o) o noCheck (fun wave _ s0 => s0.yieldWave wave) false)

/-- The count of SLEEP: an unsigned 32-bit number (R377). -/
def Lane.sleepCount (L : Lane) : Nat := (lowWord (L.srcB (shapeOf (.sleep L.o)) 1 false)).toNat

/-- SLEEP (R377): the thread stands at the next instruction and is ineligible until it wakes; a count of 0 yields. -/
def execSleep (o : Op) (s : State) : Out :=
  .next (s.frame (.sleep o) o noCheck (fun wave ok s0 =>
    let ls := (byLane ok).filterMap (s0.lane? o wave)
    let s1 := s0.moveTo ok s.cur.next
    let s2 := if ls.any (fun L => L.sleepCount = 0) then s1.yieldWave wave else s1
    ls.foldl (fun s3 L =>
      if L.sleepCount = 0 then s3 else s3.wait L.c L.slot L.tid (.sleep (s0.now L.c + L.sleepCount))) s2) true)

/-- SLEEP_EXPIRY (R377): the deferred traps that became due follow (R230). -/
def execSleepExpiry (c g t : Nat) (s : State) : Out :=
  match (s.thread? c g t).bind (·.wait) with
  | some ⟨.sleep wake, _, _⟩ =>
    if wake ≤ s.now c then .next ((s.modThread c g t (fun th => { th with wait := none })).settle c g t) else .next s
  | _ => .next s

/-- The waits that count toward the watchdog (R231). -/
def WaitKind.watched : WaitKind → Bool
  | .phase _ _ _ | .swait _ _ | .stbeg _ | .waitl _ | .rblk _ _ | .signature _ => true
  | .sleep _ | .idle | .job | .release _ | .region | .waymask _ | .halt _ | .clock _ | .mbox _ => false

/-- A waiting signer's own signature, if it is pending, is taken back (R174, R231: its MMA waits again from the start). (DEDUCED, log entry
45.) -/
def State.unsign (s : State) (c g t : Nat) : State :=
  match (s.thread? c g t).bind (·.wait) with
  | some ⟨.signature j, _, _⟩ =>
    s.modGroup c g (fun x =>
      let y := tget Join.empty x.j j
      match y.rank t with
      | none => x
      | some r =>
        let left := y.signed &&& ~~~(1#64 <<< r)
        { x with j := tset x.j j { y with signed := left, sig := if left = 0 then none else y.sig, signers := tdel y.signers r } })
  | _ => s

/-- What a thread's wait is for has not come about. (DEDUCED, log entry 30.) -/
def State.inWait (s : State) (c g t : Nat) (w : Wait) : Bool :=
  match s.group? c g, s.thread? c g t with
  | some x, some th =>
    ({ s := s, c := c, slot := g, g := x, wave := [t], tid := t, th := th, o := blankOp } : Lane).stillWaiting w
  | _, _ => false

/-- WATCHDOG_EXPIRY (R231). (DEDUCED, log entries 30 and 45.) -/
def execWatchdogExpiry (c g t : Nat) (s : State) : Out :=
  match s.group? c g, (s.thread? c g t).bind (·.wait) with
  | some x, some w =>
    if x.wdog != 0 && x.stopped.isNone && w.kind.watched && s.inWait c g t w && w.since + x.wdog.toNat ≤ s.now c then
      .next ((s.unsign c g t).precise c g t 0x12 0 0)
    else .next s
  | _, _ => .next s

/-! ## Traps on purpose and returns -/

/-- TRAP (R378): t8 holds SrcB, and the thread resumes after the TRAP. -/
def execTrap (o : Op) (s : State) : Out :=
  .next (s.frame (.trap o) o noCheck (fun wave ok s0 =>
    ((byLane ok).filterMap (s0.lane? o wave)).foldl (fun s1 L =>
      s1.takeTrap L.c L.slot L.tid
        { cause := 0x11, pc := L.th.pc, va := 0, info := lowWord (L.srcB (shapeOf (.trap o)) 0 false), log := none } false
        s.cur.next) s0) true)

/-- ERET's checks (R379). -/
def eretCheck (L : Lane) : Option Trap := if !L.th.handler then some { cause := 0x01 } else L.jumpTrap L.eretPc

/-- ERET (R234, R379); a replay is performed as a step of its own (R237). -/
def execEret (o : Op) (s : State) : Out :=
  .next (s.frame (.eret o) o eretCheck (fun _ ok s0 =>
    (byLane ok).foldl (fun s1 t => s1.eret s.cur.core s.cur.slot t) s0) true)

/-! ## Hints, and words that are no instruction -/

/-- NOP and every other encoding of the hint region (R269): each thread of the wave moves on. -/
def execNop (opc : BitVec 10) (o : Op) (s : State) : Out := .next (s.laneOp (.nop opc o) o noCheck (fun L => L.th))

/-- The threads of the wave that do not wait inside an instruction. (DEDUCED, log entry 70.) -/
def State.wholeWave (s : State) : List Nat :=
  s.cur.threads.filter (fun t => (s.thread? s.cur.core s.cur.slot t).any (fun th => th.live && th.wait.isNone))

/-- A check of steps 1 to 7 of R254 traps every thread of the wave, whatever its guard. (DEDUCED, log entry 70.) -/
def State.trapWave (s : State) (cause : BitVec 16) : State := s.trapAll (s.wholeWave.map (fun t => (t, { cause := cause })))

/-- UNASSIGNED_OPCODE (R254 steps 1 and 3, R268): 0x03 for a zero word, else 0x02. (DEDUCED, log entry 70.) -/
def execUnassignedOpcode (first : Word) (_rest : List Word) (s : State) : Out :=
  .next (s.trapWave (if first.extractLsb' 0 2 = 0 then 0x03 else 0x02))

end Sys2Proof.Machine
end

