-- ==== Sys2Proof/Machine/Engine.lean ====
section
/-! DEFINITION. Engines, job cards and the dependency table (06_engines_and_sync_words.md R102 to R119), the job and sync-word
instructions (15_ref_memory_engines_convoys.md R296 to R301), and the tile distributor (12_scheduling_and_placement.md R226, R227). -/

namespace Sys2Proof.Machine

/-! ## Job cards (R103, R104) -/

def Card.dw (c : Card) (k : Nat) : Dword := c.dws.getD k 0
def Card.op (c : Card) : Nat := ((c.dw 0).extractLsb' 60 4).toNat
def Card.nfp (c : Card) : Nat := ((c.dw 0).extractLsb' 32 3).toNat
def Card.sync (c : Card) : Word := lowWord (c.dw 0)
def Card.src (c : Card) : Nat := ((c.dw 1).extractLsb' 0 57).toNat
def Card.dst (c : Card) : Nat := ((c.dw 2).extractLsb' 0 57).toNat

/-- A scratchpad range in the cluster's linear numbering core × 2^19 + OFF, LOC resolved against a core (R73, R109). -/
def spadRange (c base size : Nat) : Nat × Nat :=
  if 2 ^ 24 ≤ base then (0, 0)
  else if 2 ^ 24 ≤ size then (0, 2 ^ 23)
  else if 2 ^ 23 ≤ base then
    if size ≤ 2 ^ 19 then (c % 16 * 2 ^ 19 + base % 2 ^ 19, size) else (c % 16 * 2 ^ 19, 2 ^ 19)
  else if 2 ^ 23 < base + size then (0, 2 ^ 23)
  else (base, size)

/-- Footprint k of a card issued by a core (R103). -/
def Card.foot (c : Card) (core k : Nat) : Foot :=
  let d := c.dw (4 + k)
  let sp := d.getLsbD 62
  let wide := (c.dw 0).getLsbD (36 + k) && !sp
  let size := 2 ^ ((d.extractLsb' 57 5).toNat + (if wide then 26 else 6))
  let raw := (d.extractLsb' 0 57).toNat
  if sp then
    let r := spadRange core (raw % 2 ^ 32 / size * size) size
    { write := d.getLsbD 63, sp := true, base := r.1, size := r.2 }
  else { write := d.getLsbD 63, sp := false, base := raw / size * size, size := size }

def Card.feet (c : Card) (core : Nat) : List Foot := (List.range c.nfp).map (c.foot core)

/-- DIR and SP of footprint k as the card gives them. -/
def Card.dir (c : Card) (k : Nat) : Bool := (c.dw (4 + k)).getLsbD 63
def Card.sp (c : Card) (k : Nat) : Bool := (c.dw (4 + k)).getLsbD 62

def Card.rowLen (c : Card) : Nat := ((c.dw 3).extractLsb' 44 20).toNat
def Card.rows (c : Card) : Nat := ((c.dw 3).extractLsb' 32 12).toNat
def Card.sstr (c : Card) : Nat := ((c.dw 3).extractLsb' 16 16).toNat
def Card.dstr (c : Card) : Nat := ((c.dw 3).extractLsb' 0 16).toNat
def Card.idx (c : Card) : Nat := ((c.dw 2).extractLsb' 32 32).toNat
def Card.psh (c : Card) : Nat := ((c.dw 3).extractLsb' 58 6).toNat
def Card.elen (c : Card) : Nat := ((c.dw 3).extractLsb' 36 22).toNat
def Card.gcount (c : Card) : Nat := ((c.dw 3).extractLsb' 20 16).toNat
def Card.cop (c : Card) : Nat := ((c.dw 3).extractLsb' 60 4).toNat
def Card.ccount (c : Card) : Nat := ((c.dw 3).extractLsb' 32 28).toNat
def Card.comm (c : Card) : Nat := ((c.dw 3).extractLsb' 16 16).toNat
def Card.root (c : Card) : Nat := ((c.dw 3).extractLsb' 0 16).toNat
def Card.len (c : Card) : Nat := ((c.dw 3).extractLsb' 0 40).toNat

/-- Step 4 of R106. -/
def Card.fieldsOk (c : Card) : Bool :=
  1 ≤ c.nfp && c.nfp ≤ 4 &&
  (match c.op with
   | 0 => 1 ≤ c.rowLen && 1 ≤ c.rows && 2 ≤ c.nfp && !c.dir 0 && c.dir 1
   | 1 => 1 ≤ c.elen && 1 ≤ c.gcount && 3 ≤ c.nfp && !c.dir 0 && c.sp 0 && !c.dir 1 && !c.sp 1 && c.dir 2 && c.sp 2
   | 2 => c.cop ≤ 4 && 1 ≤ c.ccount && 2 ≤ c.nfp && !c.dir 0 && c.dir 1
   | 3 => 1 ≤ c.len && c.dir 0
   | _ => false)

/-- A spadCheck trap of R106 with its address. -/
def State.addrTrap (s : State) (c ctx : Nat) (sa : Word) (al n : Nat) : Option Trap :=
  (s.spadCheck c ctx sa al n).map (fun cause => { cause := cause, va := sa.setWidth 64 })

/-- Steps 2 to 4 of R106 on a card. -/
def State.cardTrap (s : State) (c ctx : Nat) (card : Card) : Option Trap :=
  match (if card.sync = 0xFFFFFFFF then none else s.addrTrap c ctx card.sync 8 8) with
  | some t => some t
  | none =>
    if card.op = 1 && card.idx % 4 != 0 then some { cause := 0x0A, va := BitVec.ofNat 64 card.idx }
    else if card.fieldsOk then none
    else some { cause := 0x01 }

/-! ## Offering jobs (R296, R297) -/

def Offer.of (L : Lane) (op : Nat) (addr : Option Word) (card : Card) : Offer :=
  { core := L.c, slot := L.slot, tid := L.tid, pc := L.th.pc, addr := addr, card := card, dest := L.dstReg 1, op := op
    next := L.s.cur.next, accepted := false }

/-- A job instruction: its active threads' jobs are offered in ascending lane order and the threads wait (R297). -/
def State.jobOp (s : State) (i : Instr) (o : Op) (mk : Lane → Option Word × Card) : State :=
  s.frame i o noCheck (fun wave ok s0 =>
    let ls := (byLane ok).filterMap (s0.lane? o wave)
    let offers := ls.map (fun L => Offer.of L s0.seq (mk L).1 (mk L).2)
    let s1 := { s0 with seq := s0.seq + 1 }.modCluster (clusterOf s.cur.core) (fun k => { k with offers := k.offers ++ offers })
    ls.foldl (fun s2 L => s2.wait L.c L.slot L.tid (.job)) s1) true

/-- The card of a register form, its OP replaced (R296). -/
def Lane.card (L : Lane) (op : Nat) : Option Word × Card :=
  let ds := (List.range 8).map (fun k =>
    if L.o.m.getLsbD 0 then L.g.sget (L.fA + k)
    else
      let ws := L.words L.fA 16 L.moda
      pairOf (ws.getD (2 * k) 0) (ws.getD (2 * k + 1) 0))
  let d0 := (ds.getD 0 0 &&& 0x0FFFFFFFFFFFFFFF) ||| BitVec.ofNat 64 (op * 2 ^ 60)
  (none, { dws := d0 :: ds.drop 1 })

/-- CPY (R296, R297). -/
def execCpy (o : Op) (s : State) : Out := .next (s.jobOp (.cpy o) o (fun L => L.card 0))

/-- CPY.fill (R296, R297). -/
def execCpyFill (o : Op) (s : State) : Out := .next (s.jobOp (.cpyFill o) o (fun L => L.card 3))

/-- GTH (R296, R297). -/
def execGth (o : Op) (s : State) : Out := .next (s.jobOp (.gth o) o (fun L => L.card 1))

/-- COLL (R296, R297). -/
def execColl (o : Op) (s : State) : Out := .next (s.jobOp (.coll o) o (fun L => L.card 2))

/-- JOB (R296, R297). -/
def execJob (o : Op) (s : State) : Out := .next (s.jobOp (.job o) o (fun L => (some L.sa, { dws := [] })))

/-! ## Acceptance (R106 to R109) -/

def Foot.meets (a b : Foot) : Bool :=
  a.sp == b.sp && (a.write || b.write) && a.base < b.base + b.size && b.base < a.base + a.size

/-- The edges of a new job (R109). -/
def Cluster.edges (k : Cluster) (ctx : Nat) (feet : List Foot) : List (BitVec 16) :=
  (k.jobs.filter (fun j => j.ctx == ctx && j.feet.any (fun a => feet.any a.meets))).map (·.ticket)

/-- The accepted offers of an instruction whose threads may go on: they move to the next instruction (R297). -/
def State.endOffers (s : State) (k op : Nat) : State :=
  let l := (s.cluster k).offers
  let mine := l.filter (fun f => f.op == op)
  let s1 := s.modCluster k (fun x => { x with offers := l.filter (fun f => f.op != op) })
  mine.foldl (fun s2 f =>
    let s3 := s2.modThread f.core f.slot f.tid (fun th =>
      if f.accepted then { th with pc := f.next, wait := none } else { th with wait := none })
    s3.settle f.core f.slot f.tid) s1

/-- The first offer that may be accepted: the oldest of its instruction not accepted yet, of a group that issues and has fewer than 16
entries (R107, R240, R244). -/
def State.nextOffer (s : State) (k : Nat) : Option Offer :=
  let x := s.cluster k
  if 32 ≤ x.jobs.length then none
  else
    x.offers.find? (fun f =>
      !f.accepted
        && (x.offers.find? (fun g => g.op == f.op && !g.accepted)) == some f
        && (s.group? f.core f.slot).all (s.mayIssue f.core)
        && (x.jobs.filter (fun j => j.core == f.core && j.slot == f.slot)).length < 16)

/-- An instruction whose offers that stand have all been accepted; the others have been withdrawn. -/
def Cluster.doneOp (x : Cluster) : Option Nat :=
  (x.offers.find? (fun f => x.offers.all (fun g => g.op != f.op || g.accepted))).map (·.op)

/-- JOB_ACCEPT: the card is read and checked, and the job takes its table entry, ticket and edges; a trap of its thread, which comes before
any deferred one, ends the instruction's later offers (R106, R107, R245, R297). -/
def execJobAccept (k : Nat) (s : State) : Out :=
  match s.nextOffer k with
  | none => .next (match (s.cluster k).doneOp with | some op => s.endOffers k op | none => s)
  | some f =>
    match s.group? f.core f.slot with
    | none => .next (s.endOffers k f.op)
    | some g =>
      let at1 := match f.addr with | some a => s.addrTrap f.core g.ctx a 64 64 | none => none
      let (card, s1) :=
        match f.addr, at1 with
        | some a, none =>
          let (bs, s1) := s.spadLoad f.core a 64
          (Card.mk ((List.range 8).map (fun n => BitVec.ofNat 64 (leNat ((bs.drop (8 * n)).take 8)))), s1)
        | _, _ => (f.card, s)
      match (match at1 with | some t => some t | none => s1.cardTrap f.core g.ctx card) with
      | some t => .next ((s1.precise f.core f.slot f.tid t.cause t.va t.info).endOffers k f.op)
      | none =>
        let x := s1.cluster k
        let feet := card.feet f.core
        let job : Job :=
          { ticket := x.ticket, core := f.core, slot := f.slot, ctx := g.ctx, pc := f.pc, card := card, feet := feet
            edges := x.edges g.ctx feet, jt := (s1.core f.core).ct, engine := none, started := false, done := 0
            fault := none, waitWalk := none, comm := [] }
        let s2 := s1.setCluster k { x with
          jobs := x.jobs ++ [job], ticket := x.ticket + 1, past := x.past.filter (fun e => (x.ticket - e.ticket).toNat < 256)
          offers := x.offers.map (fun h => if h == f then { h with accepted := true } else h) }
        let s3 := s2.modThread f.core f.slot f.tid (fun th => th.put f.dest (x.ticket.setWidth 32))
        .next (if (s3.cluster k).offers.any (fun h => h.op == f.op && !h.accepted) then s3 else s3.endOffers k f.op)

/-! ## Communicators (R105, R436) -/

/-- The entry that COMM names for a context, read as its two doublewords; none where there is none or it cannot be read. -/
def State.commEntry (s : State) (ctx comm : Nat) : Option (List Dword) × State :=
  let cfg := s.hub.commcfg
  if 255 < comm || !cfg.getLsbD 63 then (none, s)
  else
    match s.hubLoad 0 ((cfg.extractLsb' 12 40).toNat * 4096 + 16 * comm) 16 with
    | .error s1 => (none, s1)
    | .ok (bs, s1) =>
      let lo := BitVec.ofNat 64 (leNat (bs.take 8))
      let hi := BitVec.ofNat 64 (leNat (bs.drop 8))
      (if lo.getLsbD 63 && (lo.extractLsb' 48 12).toNat == ctx then some [lo, hi] else none, s1)

def Job.nrank (j : Job) : Nat := ((j.comm.getD 0 0).extractLsb' 32 16).toNat
def Job.myrank (j : Job) : Nat := ((j.comm.getD 0 0).extractLsb' 16 16).toNat

/-- Bytes of an element (R105). -/
def Card.elem (c : Card) : Nat := if c.cop = 2 then 2 else 4

/-- Bytes that a job counts (R104). -/
def Job.total (j : Job) : Nat :=
  match j.card.op with
  | 0 => j.card.rowLen * j.card.rows
  | 1 => j.card.elen * j.card.gcount
  | 2 => j.card.elem * j.card.ccount * (if j.card.cop = 4 then j.nrank else 1)
  | _ => j.card.len

/-! ## Starting (R102, R109) -/

/-- Engines of a kind of job (R102). -/
def enginesFor (op : Nat) : List Nat := match op with | 1 => [4, 5, 6, 7] | 2 => [8, 9] | _ => [0, 1, 2, 3]

/-- A footprint of the job touches the region that an RSTATE is moving (R98). (DEDUCED, log entry 39.) -/
def State.jobHeld (s : State) (j : Job) : Bool :=
  match (tfind s.hub.contexts j.ctx).bind (·.moving) with
  | some (n, _) => j.feet.any (·.inRegion n)
  | none => false

/-- The bytes that a rank contributes to a collective (R105). -/
def Job.part (j : Job) (rank : Nat) : Nat :=
  if j.card.op != 2 || (j.card.cop = 0 && rank != j.card.root) then 0 else j.card.elem * j.card.ccount

/-- The jobs of a communicator that have started with its entry; one whose COMM named none takes nothing (R111). (DESIGN CHOICE, log entry
42.) -/
def State.commJobs (s : State) (comm : Nat) : List Job :=
  s.clusters.flatMap (fun e => e.2.jobs.filter (fun j => j.card.op == 2 && j.card.comm == comm && j.started && !j.comm.isEmpty))

/-- Per rank, the bytes that the jobs of a communicator under way have still to take before a new one (R105). (DESIGN CHOICE, log entry 42.)
-/
def State.aheadOf (s : State) (comm nrank : Nat) : List (Nat × Nat) :=
  (List.range nrank).map (fun r => (r, ((s.commJobs comm).map (·.part r)).sum))

/-- JOB_START: the earliest accepted ready job whose kind has a free engine starts (R109); a collective reads its communicator
(R105, R442). (DEDUCED, log entry 41.) -/
def execJobStart (k : Nat) (s : State) : Out :=
  let x := s.cluster k
  let busy := x.jobs.filterMap (·.engine)
  let free := fun (j : Job) => (enginesFor j.card.op).find? (fun e => !busy.contains e)
  let first := x.jobs.find? (fun j => !j.started && j.edges.isEmpty && (free j).isSome && !s.jobHeld j)
  match first with
  | none => .next s
  | some j =>
    let ready := { j with started := true, engine := free j }
    .next (s.waitSlab (fun s =>
      if j.card.op = 2 then
        match s.commEntry j.ctx j.card.comm with
        | (some e, s1) =>
          let y := { ready with comm := e }
          s1.modJob k j.ticket (fun _ => { y with ahead := s.aheadOf j.card.comm y.nrank })
        | (none, s1) => s1.modJob k j.ticket (fun _ => { ready with fault := some 0x0C })
      else s.modJob k j.ticket (fun _ => ready)))

/-! ## One unit of a job -/

/-- A place that an engine reads or writes: scratchpad or memory. -/
structure Loc where
  sp   : Bool
  addr : Nat
  deriving DecidableEq, Repr

def Loc.plus (l : Loc) (n : Nat) : Loc := { l with addr := l.addr + n }

/-- What stands in the way of an access of one byte: none, or the cause that ends the job (R111, R74). -/
def State.engBad (s : State) (j : Job) (l : Loc) (write : Bool) : Option (BitVec 16) :=
  if l.sp then
    match spadAt j.core (BitVec.ofNat 32 l.addr) with
    | none => some 0x09
    | some (c, off) =>
      let x := c % 16 * 0x80000 + off
      if j.feet.any (fun f => f.sp && (!write || f.write) && f.base ≤ x && x < f.base + f.size) && (s.core c).covers j.ctx off 1
      then none else some 0x09
  else if j.feet.any (fun f => !f.sp && (!write || f.write) && f.base ≤ l.addr && l.addr < f.base + f.size) then none
  else some 0x0C

/-- The bytes from a place that an engine may reach, up to n, and the cause that stops it short. (DEDUCED, log entry 41.) -/
def State.engReach (s : State) (j : Job) (l : Loc) (write : Bool) (n : Nat) : Nat × Option (BitVec 16) :=
  match (List.range n).find? (fun k => (s.engBad j (l.plus k) write).isSome) with
  | some k => (k, s.engBad j (l.plus k) write)
  | none => (n, none)

/-- An engine's translation through its cluster's L2 TLB (R102, R42, R40). -/
inductive EngPage where
  | ok (pa key state : Nat)
  | miss (wantD : Bool)
  | bad (cause : BitVec 16)
  deriving DecidableEq, Repr

/-- DEDUCED, log entry 40. -/
def State.engXlate (s : State) (k : Nat) (j : Job) (va : Nat) (write : Bool) : EngPage :=
  let v := BitVec.ofNat 64 va
  let r := s.regionFor j.ctx v
  match regionFault r j.core v with
  | some cause => .bad cause
  | none =>
    let hit := match tlbHit (s.cluster k).tlb r j.ctx v with | some e => some e | none => tlbHit (s.die (k / 8)).tlb r j.ctx v
    match hit with
    | none => .miss write
    | some e =>
      match s.checkLeaf r j.core e v (if write then 1 else 0) false with
      | some cause => .bad cause
      | none =>
        let pa := e.pa r v
        if isHub pa then .bad 0x0A
        else if write && !e.d then .miss true
        else
          match s.cellOf pa with
          | none => .bad 0x0C
          | some cell => if s.lost cell then .bad 0x0C else .ok pa e.key r.state

/-- Whether every line of an access is translated: else the page that is missing, or the cause. -/
def State.engReady (s : State) (k : Nat) (j : Job) (l : Loc) (write : Bool) (n : Nat) : Option (Nat × EngPage) :=
  if l.sp then none
  else (pieces l.addr n).findSome? (fun p =>
    match s.engXlate k j p.1 write with
    | .ok _ _ _ => none
    | e => some (p.1, e))

/-- An engine's hit in the last-level TLB fills its cluster's L2 TLB (R42); an address that its region turns away is not looked up. -/
def State.engFill (s : State) (k : Nat) (j : Job) (l : Loc) (n : Nat) : State :=
  if l.sp then s
  else (pieces l.addr n).foldl (fun s1 p =>
    let v := BitVec.ofNat 64 p.1
    let r := s1.regionFor j.ctx v
    match tlbHit (s1.cluster k).tlb r j.ctx v,
        (if (regionFault r j.core v).isSome then none else tlbHit (s1.die (k / 8)).tlb r j.ctx v) with
    | none, some e => s1.modCluster k (fun x => { x with tlb := tlbPut2 x.tlb e })
    | _, _ => s1) s

/-- The lines of memory that an engine read needs: address, key and the state of the region. -/
def State.engLines (s : State) (k : Nat) (j : Job) (l : Loc) (n : Nat) : List (Nat × Nat) :=
  if l.sp then []
  else (pieces l.addr n).filterMap (fun p => match s.engXlate k j p.1 false with | .ok pa key _ => some (lineOf pa, key) | _ => none)

def Job.line? (j : Job) (pa key : Nat) : Option Line := j.lines.find? (fun x => x.pa == lineOf pa && x.key == key)

/-- An engine asks the slices for lines, with hint 5 and its job's time (R50, R52, R117), unless a slab's mode is about to change (R15). -/
def State.engAsk (s : State) (k : Nat) (j : Job) (ls : List (Nat × Nat)) : State :=
  if ls.any (fun e => s.slabHeld e.1) then s
  else
    let s1 := s.modJob k j.ticket (fun x => { x with lines := x.lines ++ ls.map (fun e => { pa := e.1, key := e.2, got := none }) })
    ls.foldl (fun s2 e => s2.post (.read
      { core := j.core, tag := j.lines.length, sect := 0xF, hint := 5, ct := j.jt, pa := e.1, key := e.2
        agent := some (.engine k (j.engine.getD 0) j.ticket) })) (s1.asks j.ctx (256 * ls.length))

/-- What an engine's read comes to: its lines are still to come; poison or a link that is down (R28); or its bytes with their time
(R117). -/
inductive EngRead where
  | wait
  | bad
  | ok (bs : List Byte) (w : Dword)

/-- Bytes of one line in the engine's buffer. -/
def State.engPiece (s : State) (k : Nat) (j : Job) (p : Nat × Nat) : EngRead :=
  match s.engXlate k j p.1 false with
  | .ok pa key st =>
    match (j.line? pa key).bind (·.got) with
    | none => .wait
    | some g =>
      if s.linkDown pa || (g.poison &&& sectorSet (pa % 256) p.2) != 0 then .bad
      else .ok ((g.bytes.drop (pa % 256)).take p.2) (if st = 0 then g.wts else 0)
  | _ => .bad

/-- An engine read of n bytes of memory, from its buffer (R53, R117). -/
def State.engMem (s : State) (k : Nat) (j : Job) (l : Loc) (n : Nat) : EngRead :=
  (pieces l.addr n).foldl (fun acc p =>
    match acc, s.engPiece k j p with
    | .ok bs w, .ok x t => .ok (bs ++ x) (maxD w t)
    | .ok _ _, e => e
    | .wait, .bad => .bad
    | e, _ => e) (.ok [] 0)

/-- An engine read of n bytes (R117): of the scratchpad at once, of memory through its slices. It gives the bytes, or the state in which
the job goes on waiting or is to end with 0x0C. -/
def State.engRead (s : State) (k : Nat) (j : Job) (l : Loc) (n : Nat) : Except State (List Byte × Dword × State) :=
  if l.sp then
    .ok ((spadPieces l.addr n).foldl (fun acc p =>
      let (x, s1) := acc.2.2.spadLoad j.core (BitVec.ofNat 32 p.1) p.2
      (acc.1 ++ x, 0, s1)) ([], 0, s))
  else
    let new := (s.engLines k j l n).filter (fun e => (j.line? e.1 e.2).isNone)
    if !new.isEmpty then .error (s.engAsk k j new)
    else
      match s.engMem k j l n with
      | .wait => .error s
      | .bad => .error (s.modJob k j.ticket (fun x => { x with fault := some 0x0C }))
      | .ok bs w => .ok (bs, w, s)

/-- An engine write: the time that it leaves the job at (R117). -/
def State.engWrite (s : State) (k : Nat) (j : Job) (l : Loc) (bs : List Byte) (jt : Dword) : Dword × State :=
  if l.sp then
    (jt, (spadPieces l.addr bs.length).foldl (fun s1 p =>
      s1.spadStore j.core (BitVec.ofNat 32 p.1) ((bs.drop (p.1 - l.addr)).take p.2)) s)
  else
    (pieces l.addr bs.length).foldl (fun acc p =>
      match acc.2.engXlate k j p.1 true with
      | .ok pa key st =>
        let part := (bs.drop (p.1 - l.addr)).take p.2
        let (w, s1) := (acc.2.asks j.ctx p.2).storeDirect (st == 0) key pa acc.1 (zipFrom pa part)
        (if st = 0 then maxD acc.1 w else acc.1, s1)
      | _ => acc) (jt, s)

/-- Where the next unit of a job reads and writes, and its size: at most 256 bytes of one row or element (R104, R113). -/
structure EngUnit where
  src : Option Loc
  dst : Loc
  n   : Nat

/-- The index word of gather element i, read once for the element (R104). -/
def State.gatherIdx (s : State) (k : Nat) (j : Job) (i : Nat) : Option Nat × State :=
  match j.idx.filter (·.1 == i) with
  | some e => (some e.2, s)
  | none =>
    let l : Loc := { sp := true, addr := j.card.idx + 4 * i }
    if (s.engReach j l false 4).2.isSome then (none, s)
    else
      let (bs, s1) := s.spadLoad j.core (BitVec.ofNat 32 l.addr) 4
      (some (leNat bs), s1.modJob k j.ticket (fun x => { x with idx := some (i, leNat bs) }))

/-- The job as its next unit sees it, at its place, and the bytes that the unit may take: the next one in order, or one that was put off.
(DESIGN CHOICE, log entry 81.) -/
def Job.atUnit (j : Job) : Job × Nat :=
  if j.done < j.total then (j, j.total - j.done)
  else match j.gaps with
  | (p, n) :: _ => ({ j with done := p }, n)
  | [] => (j, 0)

/-- A job has bytes still to deliver. -/
def Job.unfinished (j : Job) : Bool := j.done < j.total || !j.gaps.isEmpty

/-- n bytes at a place are delivered: the job is so much further, or one that was put off has them. (DESIGN CHOICE, log entry 81.) -/
def Job.took (j : Job) (p n : Nat) : Job :=
  if p = j.done then { j with done := j.done + n }
  else { j with gaps := (j.gaps.map (fun g => if g.1 = p then (p + n, g.2 - n) else g)).filter (fun g => g.2 != 0) }

/-- The scratchpad or memory address of a card field. (DEDUCED, log entry 41.) -/
def Loc.at (sp : Bool) (a : Nat) : Loc := { sp := sp, addr := if sp then a % 2 ^ 32 else a }

/-- The next unit of a copy, gather or fill; none: a gather's index lies out of reach. (DEDUCED, log entry 41.) -/
def State.nextUnit (s : State) (k : Nat) (j : Job) : Option EngUnit × State :=
  let c := j.card
  match c.op with
  | 0 =>
    let r := j.done / c.rowLen
    let x := j.done % c.rowLen
    (some { src := some (Loc.at (c.sp 0) (c.src + r * 16 * c.sstr + x)), dst := Loc.at (c.sp 1) (c.dst + r * 16 * c.dstr + x)
            n := min 256 (c.rowLen - x) }, s)
  | 1 =>
    let i := j.done / c.elen
    let x := j.done % c.elen
    let (q, s1) := s.gatherIdx k j i
    (q.map (fun idx =>
      { src := some (Loc.at false (((c.src + idx * 2 ^ c.psh) % 2 ^ 57 + x) % 2 ^ 57))
        dst := Loc.at true (c.dst % 2 ^ 32 + i * c.elen + x), n := min 256 (c.elen - x) }), s1)
  | _ => (some { src := none, dst := Loc.at (c.sp 0) (c.src + j.done), n := min 256 (c.len - j.done) }, s)

/-! ### A copy's overlap (R104) -/

/-- The place of one byte as R104 compares them: core and OFF, or the cell that holds it. -/
def State.placeOf (s : State) (k : Nat) (j : Job) (l : Loc) : Option (Bool × Nat) :=
  if l.sp then (spadAt j.core (BitVec.ofNat 32 l.addr)).map (fun e => (true, e.1 * 0x80000 + e.2))
  else
    let v := BitVec.ofNat 64 l.addr
    let r := s.regionFor j.ctx v
    let e := match tlbHit (s.cluster k).tlb r j.ctx v with | some e => some e | none => s.walkNow j.ctx v
    (e.bind (fun e => s.cellOf (e.pa r v))).map (fun cell => (false, cell))

/-- A place is among the bytes of a copy's rows from a base with a stride; rows are looked at granule by granule, in
which places are consecutive. -/
def State.inRows (s : State) (k : Nat) (j : Job) (sp : Bool) (base stride : Nat) (p : Bool × Nat) : Bool :=
  p.1 == sp && (List.range j.card.rows).any (fun r =>
    let a := base + r * 16 * stride
    let z := a + j.card.rowLen
    (List.range ((z - 1) / 2048 - a / 2048 + 1)).any (fun g =>
      let lo := max a ((a / 2048 + g) * 2048)
      let hi := min z ((a / 2048 + g + 1) * 2048)
      match s.placeOf k j (Loc.at sp lo) with
      | some q => q.2 ≤ p.2 && p.2 < q.2 + (hi - lo)
      | none => false))

/-- A destination byte of a copy is undefined: it is also a source byte, or its source byte is also a destination byte. -/
def State.copyOpen (s : State) (k : Nat) (j : Job) (src dst : Loc) : Bool :=
  let c := j.card
  c.op == 0 && c.sp 0 == c.sp 1 &&
    ((match s.placeOf k j dst with | some p => s.inRows k j (c.sp 0) c.src c.sstr p | none => false)
    || (match s.placeOf k j src with | some p => s.inRows k j (c.sp 1) c.dst c.dstr p | none => false))

/-! ### Collectives (R105) -/

/-- Bytes that a rank has contributed to a communicator, for the jobs of it in order. -/
def State.shareOf (s : State) (comm rank : Nat) : List Byte :=
  ((s.hub.shares.filter (fun x => x.1 == comm && x.2.1 == rank)).map (·.2.2)).flatten

/-- The bytes of a job's own part that a rank has contributed so far: they follow those of the jobs ahead of it. (DESIGN CHOICE, log entry
42.) -/
def State.shareFor (s : State) (j : Job) (rank : Nat) : List Byte :=
  ((s.shareOf j.card.comm rank).drop (tget 0 j.ahead rank)).take (j.part rank)

/-- The element of one rank's contribution. -/
def rankElem (z i : Nat) (bs : List Byte) : Nat := leNat ((bs.drop (z * i)).take z)

/-- The largest of FP32 values; any NaN gives the canonical one (R105). -/
def maxF32 (l : List Nat) : Nat :=
  if l.any (fun v => (Fmt.f32.unpack v).isNaN) then 0x7FC00000
  else
    match l with
    | [] => 0
    | x :: xs => xs.foldl (fun m v => (Fmt.f32.minmax true (Fmt.f32.unpack m) (Fmt.f32.unpack v)).1) x

/-- The sum of FP32 values in their order, to nearest even; a NaN is the canonical one (R105, R135). -/
def sumF32 (l : List Nat) : Nat :=
  match l with
  | [] => 0
  | x :: t =>
    let v := t.foldl addRne x
    if (Fmt.f32.unpack v).isNaN then Fmt.f32.nanCode else v

/-- One element combined over the ranks in ascending order (R105). -/
def combineRanks (cop : Nat) (l : List Nat) : Nat :=
  match cop with
  | 1 => sumF32 l
  | 2 => (Fmt.bf16.convert .rne false false (Fmt.f32.unpack (sumF32 (l.map (fun v => v * 65536))))).1
  | _ => maxF32 l

/-- The rank whose elements a collective's next unit is; none: it combines every rank's (R105). -/
def Job.collFrom (j : Job) : Option Nat :=
  match j.card.cop with
  | 0 => some j.card.root
  | 4 => some (j.done / (j.card.elem * j.card.ccount))
  | _ => none

/-- The parts of all ranks combined, element by element (R105). -/
def combineParts (cop z n : Nat) (parts : List (List Byte)) : List Byte :=
  (List.range (n / z)).flatMap (fun q => leBytes z (combineRanks cop (parts.map (rankElem z q))))

/-- No link is up, so a collective's flits cannot be delivered (R437). (DESIGN CHOICE, log entry 42.) -/
def State.noLink (s : State) : Bool := (List.range 16).all (fun l => !(tget { up := true, fails := 0 } s.hub.links l).up)

/-- A collective between packages is under way. -/
def Job.between (j : Job) : Bool := j.started && j.card.op == 2 && 2 ≤ j.nrank && j.fault.isNone && j.unfinished

/-- The collectives under way are to end with 0x800C: a link has gone down (R437, R442). (DESIGN CHOICE, log entry 42.) -/
def State.endCollectives (s : State) : State :=
  { s with clusters := s.clusters.map (fun e => (e.1, { e.2 with
      jobs := e.2.jobs.map (fun j => if j.between then { j with fault := some 0x0C } else j) })) }

/-! ### The step -/

/-- A job stops at a page that is not translated: it asks for the walk, or it is to end with the cause (R102, R111). -/
def State.engStop (s : State) (k : Nat) (j : Job) (va : Nat) (write : Bool) (e : EngPage) : State :=
  match e with
  | .miss wantD =>
    let v := BitVec.ofNat 64 va
    let acc : BitVec 2 := if write then 1 else 0
    ({ s with seq := s.seq + 1 }.modJob k j.ticket (fun x => { x with waitWalk := some (v, acc.toNat) })).post
      (.tlbMiss (k / 8) (Walk.new s.seq j.ctx v j.pc j.core j.slot true acc wantD (.job k j.ticket)))
  | .bad cause => s.modJob k j.ticket (fun x => { x with fault := some cause })
  | .ok _ _ _ => s

/-- A unit's bytes are written and then counted into the sync word (R113), if that still lies in an allocation of the context (R74, R80);
the engine's buffer is done with. -/
def State.engDeliver (s : State) (k : Nat) (j : Job) (dst : Loc) (bs : List Byte) (jt : Dword) : State :=
  let (w, s1) := s.engWrite k j dst bs jt
  let s2 := s1.modJob k j.ticket (fun x => { (x.took j.done bs.length) with jt := w, lines := [] })
  if j.card.sync = 0xFFFFFFFF then s2
  else if s2.spadOwned j.core j.ctx j.card.sync 8 then s2.deliver j.core j.card.sync bs.length w
  else s2.modJob k j.ticket (fun x => { x with fault := some 0x09 })

/-- A write of n bytes waits: the mode of a slab that it goes to is about to change (R15). -/
def State.engHeld (s : State) (k : Nat) (j : Job) (l : Loc) (n : Nat) : Bool :=
  !l.sp && (pieces l.addr n).any (fun p => match s.engXlate k j p.1 true with | .ok pa _ _ => s.slabHeld pa | _ => false)

/-- Bytes of a copy's unit, with undefined ones free (R104). (DESIGN CHOICE, log entry 2.) -/
def State.copyBytes (s : State) (k : Nat) (j : Job) (src dst : Loc) (bs : List Byte) : List Byte :=
  (List.range bs.length).zip bs |>.map (fun e =>
    if s.copyOpen k j (src.plus e.1) (dst.plus e.1) then Config.freeByte (s.free + e.1) else e.2)

/-- The page that a unit's source or destination lacks, or the cause that ends the job, with the address and the direction. (DEDUCED, log
entry 41.) -/
def State.unitStop (s : State) (k : Nat) (j : Job) (src : Option Loc) (dst : Loc) (n : Nat) : Option (Nat × Bool × EngPage) :=
  match src.bind (fun l => s.engReady k j l false n), s.engReady k j dst true n with
  | some (va, e), _ => some (va, false, e)
  | none, some (va, e) => some (va, true, e)
  | none, none => none

/-- One unit read, checked and delivered. (DEDUCED, log entry 41.) -/
def State.engStep (s : State) (k : Nat) (j : Job) (u : EngUnit) : State :=
  let r1 := match u.src with | some l => s.engReach j l false u.n | none => (u.n, none)
  let r2 := s.engReach j u.dst true u.n
  let n := min r1.1 r2.1
  if n = 0 then
    s.modJob k j.ticket (fun x => { x with fault := some (match (if r1.1 = 0 then r1.2 else r2.2) with | some c => c | none => 0x0C) })
  else
    let s0 := match u.src with | some l => (s.engFill k j u.dst n).engFill k j l n | none => s.engFill k j u.dst n
    match s0.unitStop k j u.src u.dst n with
    | some (va, write, e) => s0.engStop k j va write e
    | none =>
      if s0.engHeld k j u.dst n then s0
      else match u.src with
      | none =>
        let pat := leBytes 4 (lowWord (j.card.dw 2)).toNat
        s0.engDeliver k j u.dst ((List.range n).map (fun q => pat.getD ((u.dst.addr + q) % 4) 0)) j.jt
      | some l =>
        match s0.engRead k j l n with
        | .error s1 => s1
        | .ok (bs, w, s1) =>
          let out := s1.copyBytes k j l u.dst bs
          ({ s1 with free := s1.free + n }).engDeliver k j u.dst out (maxD j.jt w)

/-- One unit of a collective, of at most `most` bytes: it waits for the parts of the ranks that it combines, and reads its own only where
its bytes are among them. (DESIGN CHOICE, log entry 42.) -/
def State.collStep (s : State) (k : Nat) (j : Job) (most : Nat) : State :=
  let c := j.card
  let fault := fun (cause : BitVec 16) => s.modJob k j.ticket (fun x => { x with fault := some cause })
  let z := c.elem
  let i := j.done / z % c.ccount
  let n := min most (z * min (256 / z) (c.ccount - i))
  let dst := Loc.at (c.sp 1) (c.dst + j.done)
  let ranks := match j.collFrom with | some r => [r] | none => List.range j.nrank
  let src := if ranks.contains j.myrank then some (Loc.at (c.sp 0) (c.src + z * i)) else none
  let part := fun (r : Nat) => ((s.shareFor j r).drop (z * i)).take n
  let r1 := match src with | some l => (s.engReach j l false n).2 | none => none
  let r2 := (s.engReach j dst true n).2
  if (c.cop = 0 && j.nrank ≤ c.root) || (2 ≤ j.nrank && s.noLink) then fault 0x0C
  else if r1.isSome then fault (r1.getD 0x0C)
  else if r2.isSome then fault (r2.getD 0x0C)
  else
    let s0 := match src with | some l => (s.engFill k j dst n).engFill k j l n | none => s.engFill k j dst n
    match s0.unitStop k j src dst n with
    | some (va, write, e) => s0.engStop k j va write e
    | none =>
      if s0.engHeld k j dst n then s0
      else if ranks.any (fun r => r != j.myrank && (part r).length != n) then s0
      else
        match (match src with | some l => s0.engRead k j l n | none => .ok ([], 0, s0)) with
        | .error s1 => s1
        | .ok (mine, w, s1) =>
          let parts := ranks.map (fun r => if r = j.myrank then mine else part r)
          s1.engDeliver k j dst (if j.collFrom.isSome then parts.headD [] else combineParts c.cop z n parts) (maxD j.jt w)

/-- ENGINE_UNIT_DELIVERY (R111, R113, R117). A unit whose lines have been asked for is not held by an RSTATE, which waits for it (R98).
(DESIGN CHOICE, log entry 81.) -/
def execEngineUnitDelivery (k t : Nat) (s : State) : Out :=
  match (s.cluster k).jobs.find? (fun j => j.ticket.toNat == t) with
  | none => .next s
  | some j0 =>
    let (j, most) := j0.atUnit
    if !j.started || j.fault.isSome || j.waitWalk.isSome || !j0.unfinished || (s.jobHeld j && j.lines.isEmpty) then .next s
    else if j.card.op = 2 then .next (s.collStep k j most)
    else
      match s.nextUnit k j with
      | (none, s1) => .next (s1.modJob k j.ticket (fun x => { x with fault := some 0x09 }))
      | (some u, s1) => .next (s1.engStep k j { u with n := min u.n most })

/-- The next unit of a job is put off, for the writes of one job are unordered among themselves (R117, R446). (DESIGN CHOICE, log entry 81.)
-/
def State.putOffUnit (s : State) (k t : Nat) : State :=
  match (s.cluster k).jobs.find? (fun j => j.ticket.toNat == t) with
  | none => s
  | some j =>
    if !j.started || j.fault.isSome || !j.lines.isEmpty || j.waitWalk.isSome then s
    else if j.total ≤ j.done then s.modJob k j.ticket (fun x => { x with gaps := x.gaps.drop 1 ++ x.gaps.take 1 })
    else
      let z := j.card.elem
      let n := if j.card.op = 2 then z * min (256 / z) (j.card.ccount - j.done / z % j.card.ccount)
        else match (s.nextUnit k j).1 with | some u => u.n | none => 0
      if n = 0 then s else s.modJob k j.ticket (fun x => { x with done := x.done + n, gaps := x.gaps ++ [(x.done, n)] })

/-! ## Ends (R107, R110, R111) -/

/-- n bytes after the first m of a rank's contributions to a communicator are gone: a collective that has ended took them. -/
def cutShares (comm rank : Nat) : Nat → Nat → List (Nat × Nat × List Byte) → List (Nat × Nat × List Byte)
  | _, _, [] => []
  | m, n, (c, r, bs) :: t =>
    if c = comm ∧ r = rank then (c, r, bs.take m ++ bs.drop (m + n)) :: cutShares comm rank (m - bs.length) (n - (bs.length - m)) t
    else (c, r, bs) :: cutShares comm rank m n t

/-- A collective that has ended leaves the others of its communicator what it did not take (R105). (DESIGN CHOICE, log entry 42.) -/
def State.endShares (s : State) (j : Job) : State :=
  let s1 := s.modHub (fun h => { h with shares := ((List.range j.nrank).foldl (fun l r =>
    if r = j.myrank then l else cutShares j.card.comm r (tget 0 j.ahead r) (j.part r) l) h.shares).filter (fun x => !x.2.2.isEmpty) })
  let less : Nat × Nat → Nat × Nat := fun e => if tget 0 j.ahead e.1 < e.2 then (e.1, e.2 - j.part e.1) else e
  { s1 with clusters := s1.clusters.map (fun e => (e.1, { e.2 with
      jobs := e.2.jobs.map (fun x => if x.card.op == 2 && x.card.comm == j.card.comm then { x with ahead := x.ahead.map less } else x) })) }

/-- A job without its edge to one that has ended, which precedes it (R109, R444). (DEDUCED, log entry 80.) -/
def Job.after (x : Job) (j : Job) : Job :=
  if x.edges.contains j.ticket then { x with edges := x.edges.filter (· != j.ticket), jt := maxD x.jt j.jt } else x

/-- A job leaves the table with a status (R107, R108, R110): later jobs lose their edge and follow its time, and its group keeps its time.
(DEDUCED, log entries 24 and 80; DESIGN CHOICE, log entry 42.) -/
def State.endJob (s : State) (k : Nat) (j : Job) (st : BitVec 16) : State :=
  let s1 := s.modCluster k (fun x => { x with
    jobs := (x.jobs.filter (fun y => y.ticket != j.ticket)).map (·.after j)
    past := ({ ticket := j.ticket, ctx := j.ctx, status := st, time := j.jt } :: x.past).filter (fun e =>
      (x.ticket - e.ticket).toNat ≤ 256) })
  let s2 := s1.modGroup j.core j.slot (fun g => { g with jobTime := maxD g.jobTime j.jt })
  let s3 := if j.card.op = 2 then s2.endShares j else s2
  (List.range 16).foldl (fun s4 c => s4.applyTarget (16 * k + c)) s3

/-- JOB_COMPLETE (R110). -/
def execJobComplete (k t : Nat) (s : State) : Out :=
  match (s.cluster k).jobs.find? (fun j => j.ticket.toNat == t) with
  | some j => if j.started && j.fault.isNone && !j.unfinished then .next (s.endJob k j 0) else .next s
  | none => .next s

/-- JOB_ERROR_END (R111, R114). (DEDUCED, log entry 74.) -/
def execJobErrorEnd (k t : Nat) (s : State) : Out :=
  match (s.cluster k).jobs.find? (fun j => j.ticket.toNat == t) with
  | some j =>
    match j.fault with
    | some cause =>
      let st := 0x8000 + cause
      let s1 := s.endJob k j st
      if j.card.sync = 0xFFFFFFFF then .next s1
      else
        match spadAt j.core j.card.sync with
        | some (c, off) =>
          if !s1.spadOwned j.core j.ctx j.card.sync 8 then .next s1
          else .next ((s1.markFailed j.core j.card.sync).modCluster k (fun x =>
            { x with failures := tset x.failures (c * 0x80000 + off) st }))
        | none => .next s1
    | none => .next s
  | none => .next s

/-! ## Waiting for jobs and words (R298 to R300) -/

/-- JWAIT (R298, R116). (DEDUCED, log entry 24.) -/
def execJwait (o : Op) (s : State) : Out := .next (s.sliceOp (.jwait o) o noCheck (fun L s1 =>
  s1.raiseCt L.c (L.s.ticketTime (clusterOf L.c) L.g.ctx ((L.source false L.fA 0).extractLsb' 0 16))))

/-- JQRY (R299, R108). -/
def execJqry (o : Op) (s : State) : Out := .next (s.laneOp (.jqry o) o noCheck (fun L =>
  L.putD false ((L.s.ticketStatus (clusterOf L.c) L.g.ctx ((L.source false L.fA 0).extractLsb' 0 16)).setWidth 64)))

/-- SWARM's checks (R300). -/
def swarmCheck (i : Instr) (L : Lane) : Option Trap :=
  match spadTrap L L.saNoOff 8 8 with
  | some t => some t
  | none => if 0xFFFFFF < (L.srcBw i).toNat then some { cause := 0x01 } else none

/-- SWARM (R113, R115, R300). (DEDUCED, log entry 74.) -/
def execSwarm (o : Op) (s : State) : Out := .next (s.sliceOp (.swarm o) o (swarmCheck (.swarm o)) (fun L s1 =>
  match spadAt L.c L.saNoOff with
  | none => s1
  | some (k, off) =>
    let (w, s2) := s1.syncRead k off
    let s3 := (s2.spadWrite k off (leBytes 8 (syncWord (genOf w) (L.srcBw (.swarm o)).toNat 0).toNat)).modCore k (fun x =>
      { x with failed := x.failed.filter (· != off) })
    (s3.modCore k (·.raiseT off 0)).modCluster (clusterOf k) (fun x => { x with failures := tdel x.failures (k * 0x80000 + off) })))

/-- The word that SWAIT or SWPOLL examines: its failed job's status, or its value and time (R114, R116). -/
def State.examine (s : State) (c : Nat) (sa : Word) : Except (BitVec 16) (Dword × Dword) × State :=
  match spadAt c sa with
  | none => (.ok (0, 0), s)
  | some (k, off) =>
    match s.failCause k off with
    | some st => (.error st, s)
    | none =>
      let (w, s1) := s.syncRead k off
      (.ok (w, (s1.core k).timeOf off), s1)

/-- The word and the GEN that an SWAIT named when it issued. (DEDUCED, log entry 75.) -/
def Lane.swaitArgs (L : Lane) : Word × BitVec 16 :=
  match L.th.wait with
  | some ⟨.swait a b, _, _⟩ => (a, b)
  | _ => (L.saNoOff, (L.srcBw (.swait L.o)).extractLsb' 0 16)

/-- SWAIT: each thread in ascending home lane finds its word failed, or its GEN moved on, or waits (R300); a word whose allocation has
been cleared meanwhile traps as an access to it does (R74, R80). (DEDUCED, log entry 75.) -/
def execSwait (o : Op) (s : State) : Out :=
  .next (s.frame (.swait o) o (fun L => spadTrap L L.saNoOff 8 8) (fun wave ok s0 =>
    ((byLane ok).filterMap (s0.lane? o wave)).foldl (fun s1 L =>
      let (sa, b) := L.swaitArgs
      let trap := fun (s2 : State) (cause : BitVec 16) (va : Dword) (info : Word) =>
        (s2.modThread L.c L.slot L.tid (fun th => { th with wait := none })).precise L.c L.slot L.tid cause va info
      if !s1.spadOwned L.c L.g.ctx sa 8 then trap s1 0x09 (sa.setWidth 64) 0
      else match s1.examine L.c sa with
      | (.error st, s2) => trap s2 st 0 (st.setWidth 32)
      | (.ok (w, t), s2) =>
        if genOf w = b then
          if L.th.wait.isSome then s2 else s2.wait L.c L.slot L.tid (.swait sa b)
        else
          (((s2.raiseCt L.c t).modThread L.c L.slot L.tid (fun th => th.put (L.dstReg 1) ((genOf w).setWidth 32))).moveTo [L.tid]
            s.cur.next)) s0) true)

/-- SWPOLL's checks, the failed flag last (R300, R114). -/
def swpollCheck (L : Lane) : Option Trap :=
  match spadTrap L L.sa 8 8 with
  | some t => some t
  | none =>
    match (L.s.examine L.c L.sa).1 with
    | .error st => some { cause := st, info := st.setWidth 32 }
    | .ok _ => none

/-- SWPOLL (R300, R116): the pair is empty until the next front cycle (R127). (DESIGN CHOICE, log entry 23.) -/
def execSwpoll (o : Op) (s : State) : Out := .next (s.sliceOp (.swpoll o) o swpollCheck (fun L s1 =>
  match s1.examine L.c L.sa with
  | (.ok (w, t), s2) =>
    (s2.raiseCt L.c t).modThread L.c L.slot L.tid (fun th => th.fillAll (L.dstReg 2) [lowWord w, highWord w])
  | (.error _, s2) => s2))

/-! ## The tile distributor (R226, R227, R301) -/

/-- DQ: one request for each active thread in ascending home lane; its destination is empty until the answer arrives. -/
def execDq (o : Op) (s : State) : Out := .next (s.sliceOp (.dq o) o (fun L => spadTrap L L.sa 8 16) (fun L s1 =>
  (s1.modThread L.c L.slot L.tid (fun th => th.drain (L.dstReg 1))).post
    (.dq L.c L.slot L.tid (L.dstReg 1) L.g.launch (s1.core L.c).ct L.sa)))

/-- The answer to the n-th request of a tile space (R226). -/
def tileAnswer (rows cols n : Nat) : Dword :=
  if n < rows * cols then BitVec.ofNat 64 (n % 2 ^ 24 * 2 ^ 32 + n % cols * 2 ^ 16 + n / cols)
  else 0x01FFFFFFFFFFFFFF

/-- DQ_SERVE: requests in arrival order, those of one thread in the order it issued them (R226, R403). -/
def execDqServe (m : Nat) (s : State) : Out :=
  match s.msg? m with
  | some (.dq c g t dest launch ct addr) =>
    let earlier := s.net.any (fun e => e.1 < m && (match e.2 with | .dq c1 g1 t1 _ _ _ _ => c1 == c && g1 == g && t1 == t | _ => false))
    if earlier then .next s
    else
      let x := tfind s.hub.launches launch
      let n := match x with | some y => y.tiles | none => 0
      let a := match x with | some y => tileAnswer y.record.trows y.record.tcols n | none => 0x01FFFFFFFFFFFFFF
      .next (((s.drop m).modHub (fun h =>
        match tfind h.launches launch with
        | some y => { h with launches := tset h.launches launch { y with tiles := n + 1 } }
        | none => h)).post (.dqAnswer c g t (some dest) ct addr a))
  | _ => .next s

/-- DQ_ANSWER_WRITE: the slot is written and then counted, and the destination is full (R227, R301); a slot that no longer lies in an
allocation of the context takes nothing (R74, R80). (DEDUCED, log entry 75.) -/
def execDqAnswerWrite (m : Nat) (s : State) : Out :=
  match s.msg? m with
  | some (.dqAnswer c g t dest ct addr a) =>
    let s0 := s.drop m
    let s1 :=
      if (s.group? c g).any (fun x => s.spadOwned c x.ctx addr 16) then
        (s0.spadStore c addr (leBytes 8 a.toNat)).deliver c (addr + 8) 8 ct
      else s0
    .next (match dest with | some r => s1.modThread c g t (fun th => th.fillAll r [lowWord a]) | none => s1)
  | _ => .next s

/-- The destination register of a DQ is full before its slot is written, for the two are unordered (R301, R446). (DESIGN CHOICE, log entry
81.) -/
def State.answerFirst (s : State) (m : Nat) : State :=
  match s.msg? m with
  | some (.dqAnswer c g t (some r) ct addr a) =>
    let first : Nat × Msg → Nat × Msg := fun e => if e.1 = m then (m, .dqAnswer c g t none ct addr a) else e
    { s with net := s.net.map first }.modThread c g t (fun th => th.fillAll r [lowWord a])
  | _ => s

end Sys2Proof.Machine
end

