-- ==== Sys2Proof/Machine/Launches.lean ====
section
/-! DEFINITION. The dispatcher: command queues, context descriptors and launch records (12_scheduling_and_placement.md R212 to
R217), placement and the refresh levy (R218 to R220) and gangs (R221). -/

namespace Sys2Proof.Machine

/-! ## Memory as the hub reaches it (R432) -/

/-- A walk by the hub: the leaf's address and value, where every entry on the path is valid; else the state that its reads leave (R37 to
R39). -/
def State.walkDirect (s : State) (r : Region) (va : Dword) (leaf : Nat) : Nat → Nat → Except State (Nat × Dword × State)
  | level, table =>
    match s.hubLoad 0 (entryAddr r level table va) 8 with
    | .error s1 => .error s1
    | .ok (bs, s1) =>
      let e := BitVec.ofNat 64 (leNat bs)
      if !e.getLsbD 0 then .error s1
      else if level ≤ leaf then .ok (entryAddr r level table va, e, s1)
      else match level with
        | 0 => .ok (entryAddr r level table va, e, s1)
        | l + 1 => s1.walkDirect r va leaf l ((e.extractLsb' 8 44).toNat * 256)

/-- A virtual address as the hub reaches it in a context: its physical address, key and region state, with A, and D for a write
or atomic, set in the leaf (R40); else a fault. `acc`: 0 read, 1 write, 2 atomic. (DEDUCED, log entry 40.) -/
def State.hubXlate (s : State) (ctx : Nat) (va : Dword) (acc : Nat) : Except State (Nat × Nat × Nat × State) :=
  let r := s.regionFor ctx va
  if regionBad r va then .error s
  else
    match s.walkDirect r va (leafLevel r) (firstLevel r) r.root with
    | .error s1 => .error s1
    | .ok (pte, e, s1) =>
      let t := leafEnt ctx r va e
      let pa := t.pa r va
      if (s1.checkLeaf r 512 t va acc true).isSome || isHub pa then .error s1
      else
        let new := e ||| 0x10 ||| (if acc = 0 then 0 else 0x20)
        .ok (pa, t.key, r.state, if new = e then s1 else s1.hubStore true 0 pte (zipFrom pte (leBytes 8 new.toNat)))

/-- n bytes from a virtual address, at most two lines. -/
def State.virtLoad (s : State) (ctx va n : Nat) : Except State (List Byte × State) :=
  (pieces va n).foldl (fun acc p =>
    match acc with
    | .error s1 => .error s1
    | .ok (bs, s1) =>
      match s1.hubXlate ctx (BitVec.ofNat 64 p.1) 0 with
      | .error s2 => .error s2
      | .ok (pa, key, _, s2) =>
        match s2.hubLoad key pa p.2 with
        | .ok (x, s3) => .ok (bs ++ x, s3)
        | .error s3 => .error s3) (.ok ([], s))

/-- Bytes written at a virtual address, at most two lines; all or none. -/
def State.virtStore (s : State) (ctx va : Nat) (bs : List Byte) : Except State State :=
  match (pieces va bs.length).foldl (fun (acc : Except State (List (Nat × Nat × Nat × List Byte) × State)) p =>
    match acc with
    | .error s1 => .error s1
    | .ok (l, s1) =>
      match s1.hubXlate ctx (BitVec.ofNat 64 p.1) 1 with
      | .error s2 => .error s2
      | .ok (pa, key, st, s2) => .ok (l ++ [(pa, key, st, (bs.drop (p.1 - va)).take p.2)], s2)) (.ok ([], s)) with
  | .error s1 => .error s1
  | .ok (l, s1) => .ok (l.foldl (fun s2 e => s2.hubStore (e.2.2.1 == 0) e.2.1 e.1 (zipFrom e.1 e.2.2.2)) s1)

/-- An atomic add of 1 to a 64-bit word at .system scope (R216), or a fault. -/
def State.virtAdd (s : State) (ctx : Nat) (va : Dword) : Except State State :=
  if va.toNat % 8 != 0 then .error s
  else
    match s.hubXlate ctx va 2 with
    | .error s1 => .error s1
    | .ok (pa, key, st, s1) =>
      let (_, _, bad, s2) := ((s1.touchSlab pa).pull pa).atomicAtHome (st == 0) key pa 0 (.atomic 0 3 5) 8 (leBytes 8 1) []
      if bad then .error s2 else .ok s2

/-! ## Launch records (R215, R177) -/

def dwAt (bs : List Byte) (k : Nat) : Dword := BitVec.ofNat 64 (leNat ((bs.drop (8 * k)).take 8))

/-- Level entry n of a record (R176). -/
def levelOf (e : Word) : Level :=
  { extent := (e.extractLsb' 16 16).toNat, used := e.getLsbD 7, scope := (e.extractLsb' 4 3).toNat
    domain := (e.extractLsb' 0 3).toNat }

/-- A launch record from its 128 bytes (R215). -/
def recOf (bs : List Byte) : Rec :=
  let d := dwAt bs
  let va : Nat → Dword := fun k => (d k).extractLsb' 0 57 |>.setWidth 64
  { code := va 0, cvhint := ((d 1).extractLsb' 48 16).toNat, vinit := (d 1).getLsbD 37, gang := (d 1).getLsbD 36
    heat := ((d 1).extractLsb' 34 2).toNat, boards := ((d 1).extractLsb' 29 5).toNat
    scale := ((d 1).extractLsb' 24 5).toNat, tiles := ((d 1).extractLsb' 20 4).toNat, rot := (d 1).getLsbD 19
    spad := ((d 1).extractLsb' 9 10).toNat, regs := ((d 1).extractLsb' 0 9).toNat, cbank := va 2
    eprio := (d 3).extractLsb' 48 16, dem := ((d 3).extractLsb' 32 16).toNat
    tcols := ((d 3).extractLsb' 16 16).toNat, trows := ((d 3).extractLsb' 0 16).toNat
    levels := (List.range 8).map (fun n => levelOf ((d (4 + n / 2)).extractLsb' (32 * (n % 2)) 32))
    waitev := va 8, waitval := d 9, sigev := va 10, sinit := [d 12, d 13, d 14, d 15] }

/-- The least scope of a domain (R177). -/
def leastScope (domain : Nat) : Nat := if domain ≤ 1 then domain else domain - 1

/-- The level table keeps R177. (DEDUCED, log entry 49.) -/
def Rec.levelsOk (r : Rec) : Bool :=
  let m := ((List.range 8).takeWhile (fun n => (r.level n).used)).length
  let used := List.range m
  1 ≤ m && (List.range 8).all (fun n => n < m || !(r.level n).used)
    && (r.level 0).domain == 0
    && used.all (fun n => (r.level n).domain ≤ 6 && (r.level n).scope ≤ 5 && leastScope (r.level n).domain ≤ (r.level n).scope)
    && used.all (fun n => n = 0 || ((r.level (n - 1)).domain ≤ (r.level n).domain && 1 ≤ (r.level n).extent))
    && used.any (fun n => (r.level n).domain == 2)
    && 1 ≤ r.threads && r.threads ≤ 1024
    && used.all (fun n => (r.level n).domain != 1 || ww % r.sizeOf n == 0)

/-- The fields of a record lie in their ranges (R215). -/
def Rec.fieldsOk (r : Rec) : Bool :=
  r.boards ≤ 16 && r.scale ≤ 16 && r.tiles ≤ 8 && r.spad ≤ 512 && 1 ≤ r.regs && r.regs ≤ 256 && r.dem ≤ 512

/-- Home waves and blocks of a group of a launch (R123, R124). -/
def Rec.homeWaves (r : Rec) : Nat := (r.threads + ww - 1) / ww
def Rec.waveBlocks (r : Rec) : Nat := (r.regs + 15) / 16

/-- Groups in one unit of the highest level of a domain, if the launch has one (R178). -/
def Rec.unitGroups (r : Rec) (domain : Nat) : Option (Nat × Nat) :=
  match ((List.range 8).filter (fun n => (r.level n).used && (r.level n).domain == domain)).getLast? with
  | some n => some (n, r.sizeOf n / r.threads)
  | none => none

/-- Groups of a launch that one empty core with a scratchpad of kib KiB could hold (R218, R2). (DEDUCED, log entry 52.) -/
def Rec.perCore (r : Rec) (kib : Nat) : Nat :=
  let by' := fun (have' need : Nat) => if need = 0 then 64 else have' / need
  ([64, by' 2048 r.threads, by' 64 r.homeWaves, by' 256 (r.waveBlocks * r.homeWaves), by' 8 r.tiles, by' kib r.spad
    , by' 16 r.scale]).foldl min 64

/-- LEVYFLOOR as it acts (R219). -/
def Hub.levyFloor (h : Hub) : Nat := min (h.floor.extractLsb' 0 7).toNat 100

/-- Groups of a launch that a level's unit of whole units can hold. -/
def wholeUnits (room : Nat) (unit : Option (Nat × Nat)) : Nat :=
  match unit with | some (_, g) => if g = 0 then room else room / g * g | none => room

/-- Groups of a launch that a cluster can hold, in whole units: n by its cores, and as many as a number of free boards lets in (R197). -/
def Rec.clusterRoom (r : Rec) (n boards : Nat) : Nat :=
  let cl := wholeUnits n (r.unitGroups 3)
  if r.boards = 0 then cl
  else min cl (boards / r.boards * (match r.unitGroups 3 with | some (_, g) => g | none => 1))

/-- Groups of a launch that an empty cluster could hold: cores, and vault demand in band 0 (R178, R218). (DEDUCED, log entry 52.) -/
def Rec.inCluster (r : Rec) (floor kib : Nat) : Nat :=
  8 * (if r.dem = 0 then 2 * r.perCore kib else min (2 * r.perCore kib) (512 * (965 - 10 * floor) / (1000 * r.dem)))

/-- Groups of a launch that an empty C-die, and an empty package, could hold in whole units of the domains below (R178, R221). -/
def Rec.inDie (r : Rec) (floor kib : Nat) : Nat := 8 * r.clusterRoom (r.inCluster floor kib) 16
def Rec.inPackage (r : Rec) (floor kib : Nat) : Nat := 4 * wholeUnits (r.inDie floor kib) (r.unitGroups 4)

/-- KiB of scratchpad in the ways that a mask places there (R73, R77). -/
def maskKib (m : BitVec 16) : Nat := 32 * ((List.range 16).filter (fun k => m.getLsbD k)).length

/-- The most scratchpad that an empty core would have, by its mask or its pending target; a core not listed has the reset mask. (DEDUCED,
log entry 13.) -/
def State.mostKib (s : State) : Nat :=
  (s.cores.map (fun c => max (maskKib c.2.mask) (maskKib c.2.target))).foldl max
    (if s.cores.length < 512 then maskKib Core.reset.mask else 0)

/-- The launch can never be placed: a group that fits no core, a unit that fits no instance of its domain, or a gang that fits no
package (R178, R218, R221). (DEDUCED, log entries 13 and 52.) -/
def Rec.hopeless (r : Rec) (floor kib : Nat) : Bool :=
  let past := fun (domain room : Nat) => match r.unitGroups domain with | some (_, g) => room < g | none => false
  r.perCore kib = 0 || 512 * 965 < 1000 * r.dem + 5120 * floor
    || past 3 (r.inCluster floor kib) || past 4 (r.inDie floor kib) || past 5 (r.inPackage floor kib)
    || (r.gang && wholeUnits (r.inPackage floor kib) (r.unitGroups 5) < r.groups)

/-! ## Contexts (R214, R34) -/

/-- A launch of the context is not complete. (DEDUCED, log entry 56.) -/
def State.liveCtx (s : State) (ctx : Nat) : Bool := s.hub.launches.any (fun l => l.2.ctx == ctx)

/-- The 16 entries of a region attribute file. (DEDUCED, log entry 50.) -/
def State.readFile (s : State) (raf : Nat) : Except State (List Dword × State) :=
  match s.hubLoad 0 raf 128 with
  | .ok (bs, s1) => .ok ((List.range 16).map (dwAt bs), s1)
  | .error s1 => .error s1

/-- PERIOD of a quota in µs, and ENERGY in nJ (R243). -/
def Ctx.period (x : Ctx) : Nat := (x.quota.extractLsb' 40 24).toNat
def Ctx.energy (x : Ctx) : Nat := 1000000 * (x.quota.extractLsb' 0 40).toNat

/-- A context's quota brought up to its descriptor: a new one starts its first period (R243). (DESIGN CHOICE, log entry 63.) -/
def Ctx.setQuota (x : Ctx) (now : Nat) (quota : Dword) : Ctx :=
  if x.quota = quota then x
  else
    let y := { x with quota := quota }
    { y with held := y.period != 0 && y.energy ≤ y.spent, boundary := now + 1000 * y.period }

/-- The context of a descriptor, its entry brought up to the descriptor; the copies of its region attribute file are as memory holds it
until its first launch has started (R36). Else the descriptor is unusable (R214). (DESIGN CHOICE, log entry 21; DEDUCED, log entry 50.) -/
def State.openCtx (s : State) (pa : Nat) : Except State (Nat × State) :=
  match s.hubLoad 0 pa 64 with
  | .error s1 => .error s1
  | .ok (bs, s1) =>
    let raf := ((dwAt bs 0).extractLsb' 7 45).toNat * 128
    let tag := ((dwAt bs 1).extractLsb' 0 12).toNat
    match s1.readFile raf with
    | .error s2 => .error s2
    | .ok (file, s2) =>
      let old := tfind s2.hub.contexts tag
      if s2.liveCtx tag && old.any (fun x => x.desc != pa) then .error s2
      else
        let x : Ctx :=
          match old with
          | some x => if x.desc = pa && x.opened then x else { x with regions := file, moving := none, opened := false }
          | none =>
            { desc := pa, raf := raf, regions := file, nodes := 0, quota := 0, spent := 0, held := false, account := 0, moving := none }
        let y := { x with desc := pa, raf := raf, nodes := ((dwAt bs 3).extractLsb' 12 40).toNat * 4096 }.setQuota s2.hub.cycles (dwAt bs 2)
        .ok (tag, s2.modHub (fun h => { h with contexts := tset h.contexts tag y }))

/-! ## Status and signal (R216, R217) -/

/-- The queue's error interrupt (R430). -/
def State.queueError (s : State) : State := s.raiseMsix 4

/-- STATUS of a record at a physical address; a code of the form 0x8xxx raises the error interrupt and the LAUNCH event. -/
def State.writeStatus (s : State) (addr : Nat) (v : Dword) : State :=
  let s1 := s.hubStore true 0 (addr + 88) (zipFrom (addr + 88) (leBytes 8 v.toNat))
  if v.getLsbD 15 then s1.queueError.raiseEvent 1 else s1

/-- SIGEV is signalled; an add that faults is not performed and raises the error interrupt. -/
def State.signal (s : State) (ctx : Option Nat) (sigev : Dword) : State :=
  if sigev = 0 then s
  else
    match ctx.elim (.error s) (fun c => s.virtAdd c sigev) with
    | .ok s1 => s1
    | .error s1 => s1.queueError

/-- A record is rejected (R217). -/
def State.reject (s : State) (addr : Nat) (ctx : Option Nat) (sigev code : Dword) : State :=
  (s.writeStatus addr code).signal ctx sigev

/-! ## Taking records (R213, R216) -/

def Queue.prio (x : Queue) : Nat := (x.cfg.extractLsb' 54 2).toNat
def Queue.weight (x : Queue) : Nat := max 1 (x.cfg.extractLsb' 46 8).toNat
def Queue.headAddr (x : Queue) : Nat := x.base.toNat + 128 * (x.head.toNat % 2 ^ qLog x.cfg)

/-- The queue holds work whose head record does not wait. -/
def Queue.works (x : Queue) : Bool := x.cfg.getLsbD 63 && x.tail != x.head && !x.waiting

/-- The queue to read, with the turn that follows (R213): levels strictly, turns in ascending queue number. -/
def Hub.pickQueue (h : Hub) : Option (Nat × Nat × (Nat × Nat)) :=
  let at' := fun (q : Nat) => tget Queue.reset h.queues q
  (List.range 4).findSome? (fun level =>
    let cs := (List.range 64).filter (fun q => (at' q).works && (at' q).prio == level)
    let turn := tget (0, 0) h.turns level
    if cs.contains turn.1 && turn.2 < (at' turn.1).weight then some (turn.1, level, (turn.1, turn.2 + 1))
    else
      match cs.find? (fun q => turn.1 < q) with
      | some q => some (q, level, (q, 1))
      | none => cs.head?.map (fun q => (q, level, (q, 1))))

def State.advanceHead (s : State) (q : Nat) : State :=
  s.modQueue q (fun x => { x with head := x.head + 1, waiting := false, ready := false })

/-- A record's wait event: it has reached its value, or not yet; or a fault (R216). (DEDUCED, log entry 49.) -/
def State.eventReached (s : State) (ctx : Nat) (r : Rec) : Except State (Bool × State) :=
  if r.waitev.toNat % 8 != 0 then .error s
  else
    match s.virtLoad ctx r.waitev.toNat 8 with
    | .ok (bs, s1) => .ok (r.waitval.toNat ≤ leNat bs, s1)
    | .error s1 => .error s1

/-- A launch starts: its groups wait for places (R217: STATUS 0x0001), and its context's regions are now as RSTATE leaves them (R36).
(DEDUCED, log entry 50.) -/
def State.startLaunch (s : State) (q ctx addr : Nat) (r : Rec) : State :=
  let l : Launch :=
    { queue := some q, node := none, ctx := ctx, addr := BitVec.ofNat 64 addr, record := r, groups := r.groups, placed := 0
      ended := [], exited := [], tiles := 0, stop := none, cores := [], ran := [], prio := (s.queue q).prio, records := [] }
  ({ s with seq := s.seq + 1 }.modHub (fun h => { h with
    launches := tset h.launches s.seq l
    contexts := match tfind h.contexts ctx with
      | some x => tset h.contexts ctx { x with opened := true }
      | none => h.contexts })).writeStatus addr 1

/-- The record at a queue's head is read and checked: it is rejected, waits, or starts. (DEDUCED, log entry 49.) -/
def State.readHead (s : State) (q : Nat) : State :=
  let x := s.queue q
  let addr := x.headAddr
  match s.hubLoad 0 addr 128 with
  | .error s1 => (s1.advanceHead q).reject addr none 0 0x800C
  | .ok (bs, s1) =>
    let r := recOf bs
    match s1.openCtx ((x.cfg.extractLsb' 0 46).toNat * 64) with
    | .error s2 => (s2.advanceHead q).reject addr none r.sigev 0x800C
    | .ok (ctx, s2) =>
      match (if r.waitev = 0 || x.ready then .ok (true, s2) else s2.eventReached ctx r) with
      | .error s3 => (s3.advanceHead q).reject addr (some ctx) r.sigev 0x800C
      | .ok (false, s3) => s3.modQueue q (fun y => { y with waiting := true })
      | .ok (true, s3) =>
        let s4 := s3.advanceHead q
        if !r.levelsOk || !r.fieldsOk then s4.reject addr (some ctx) r.sigev 0x8001
        else if r.hopeless s4.hub.levyFloor s4.mostKib then s4.reject addr (some ctx) r.sigev 0x8002
        else s4.startLaunch q ctx addr r

/-- LAUNCH_RECORD_READ (R213 to R217); a turn ends early when its queue empties or its head record waits. In recovery no context is
placed (R438). -/
def execLaunchRecordRead (s : State) : Out :=
  match s.hub.pickQueue with
  | none => .next s
  | some (q, level, turn) =>
    if s.hub.recovery then .next s
    else
      .next (s.waitSlab (fun s =>
        let s1 := (s.modHub (fun h => { h with turns := tset h.turns level turn })).readHead q
        if (s1.queue q).works then s1 else s1.modHub (fun h => { h with turns := tset h.turns level (q, 255) })))

/-- WAIT_EVENT_POLL: the load of a waiting record's event is tried again; a fault rejects the record (R216). (DEDUCED, log entry 49.) -/
def execWaitEventPoll (q : Nat) (s : State) : Out :=
  let x := s.queue q
  if !x.waiting || !x.cfg.getLsbD 63 then .next s
  else .next (s.waitSlab (fun s =>
    match s.hubLoad 0 x.headAddr 128 with
    | .error s1 => s1.readHead q
    | .ok (bs, s1) =>
      match s1.openCtx ((x.cfg.extractLsb' 0 46).toNat * 64) with
      | .error s2 => s2.readHead q
      | .ok (ctx, s2) =>
        match s2.eventReached ctx (recOf bs) with
        | .error s3 => s3.readHead q
        | .ok (true, s3) => s3.modQueue q (fun y => { y with waiting := false, ready := true })
        | .ok (false, s3) => s3))

/-! ## Heat and levy (R25, R219) -/

/-- Twice a core's watts: its highest heat class, or 0.5 W (R219); `extra`: one group more. -/
def State.heatOf (s : State) (c : Nat) (extra : List Nat) : Nat :=
  let hs := (s.core c).slots.map (fun g => g.2.record.heat) ++ extra
  if hs.isEmpty then 1 else 4 * (hs.foldl max 0 + 1)

/-- The predicted temperature of vault w above a cluster, in eighths of a degree (R25). (DEDUCED, log entry 59.) -/
def predict8 (tb : Int) (w : Nat) (p : Nat → Nat) : Int :=
  2 * tb + ((6 * (p (2 * w) + p (2 * w + 1)) + (((List.range 16).filter (fun i => i / 2 != w)).map p).sum : Nat) : Int)

/-- The refresh share of a predicted temperature's band, in thousandths (R20, R219). -/
def bandShare (t8 : Int) : Nat := if t8 > 840 then 280 else if t8 > 760 then 140 else if t8 > 680 then 70 else 35

/-- Vault demand of the groups on the two cores beneath vault w of a cluster. -/
def State.demandOf (s : State) (k w : Nat) : Nat :=
  (((s.core (16 * k + 2 * w)).slots ++ (s.core (16 * k + 2 * w + 1)).slots).map (fun g => g.2.record.dem)).sum

/-- The levy of a group of a heat class and demand on a core, in thousandths of 512 GB/s; none: the core is refused (R219). (DEDUCED, log
entry 59.) -/
def State.levyAt (s : State) (c heat dem : Nat) : Option Nat :=
  let k := clusterOf c
  let tb := (s.die (dieOf c)).tb
  let p0 := fun (i : Nat) => s.heatOf (16 * k + i) []
  let p1 := fun (i : Nat) => if 16 * k + i = c then s.heatOf c [heat] else p0 i
  (List.range 8).foldl (fun acc w =>
    match acc with
    | none => none
    | some n =>
      let t1 := predict8 tb w p1
      let d := s.demandOf k w + (if c % 16 / 2 = w then dem else 0)
      if t1 > 920 || 512 * (1000 - bandShare t1) < 1000 * d + 5120 * s.hub.levyFloor then none
      else some (n + (bandShare t1 - bandShare (predict8 tb w p0)))) (some 0)

/-! ## Places (R218) -/

/-- The lowest free scratchpad range of a number of bytes (R74, R78), by its base. (DESIGN CHOICE, log entry 51.) -/
def Core.freeSpad (k : Core) (size : Nat) : Option Nat :=
  let m := k.mask &&& k.target
  let limit := 32768 * ((List.range 16).filter (fun i => m.getLsbD i)).length
  let bases := 0 :: k.allocs.map (fun a => a.2.base + a.2.size)
  (bases.filter (fun b => b + size ≤ limit
    && k.allocs.all (fun a => b + size ≤ a.2.base || a.2.base + a.2.size ≤ b))).foldl (fun m b =>
      match m with | none => some b | some x => some (min x b)) none

/-- The core has what one group of the record takes, boards apart (R218, R2). (DESIGN CHOICE, log entry 51; DEDUCED, log entry 67.) -/
def State.coreFits (s : State) (c : Nat) (r : Rec) : Bool :=
  let k := s.core c
  let total := fun (f : Group → Nat) => (k.slots.map (fun g => f g.2)).sum
  (s.die (dieOf c)).powered && (s.die (dieOf c)).tbKnown && k.slots.length < 64
    && total (·.threads.length) + r.threads ≤ 2048 && total (·.homes.length) + r.homeWaves ≤ 64
    && r.waveBlocks * r.homeWaves ≤ k.freeBlocks && total (·.record.tiles) + r.tiles ≤ 8
    && (r.spad = 0 || (k.freeSpad (1024 * r.spad)).isSome) && total (·.record.scale) + r.scale ≤ 16

/-- The unit that shares boards with a group: a cluster-domain unit, or the group alone (R197). -/
def boardKey (launch : Nat) (r : Rec) (index : Nat) : Nat :=
  launch * 2 ^ 32 + (match r.unitGroups 3 with | some (_, g) => index / g | none => index)

def Cluster.boardsOf (k : Cluster) (key : Nat) : List Nat :=
  (List.range 16).filter (fun b => (tget Board.reset k.boards b).owner == some key)
def Cluster.freeBoards (k : Cluster) : List Nat :=
  (List.range 16).filter (fun b => (tget Board.reset k.boards b).owner.isNone)

/-- Cores of the groups of a group's own unit at a domain that have been placed; 512 stands for a group that had ended when its unit
resumed elsewhere (R242). -/
def Launch.peers (l : Launch) (domain index : Nat) : List Nat :=
  match l.record.unitGroups domain with
  | some (_, g) => ((l.cores.drop (index / g * g)).take (index - index / g * g)).filter (· < 512)
  | none => []

/-- The cores of a launch once group `index` is resident on core c: its own, and none for an ended group whose unit is now on another
cluster or die (R178, R242). -/
def Launch.moved (l : Launch) (index c : Nat) : List Nat :=
  let left := fun (domain i p : Nat) (of : Nat → Nat) =>
    match l.record.unitGroups domain with | some (_, g) => i / g == index / g && of p != of c | none => false
  (List.range l.cores.length).map (fun i =>
    let p := l.cores.getD i 512
    if i = index then c else if l.ended.contains i && (left 3 i p clusterOf || left 4 i p dieOf) then 512 else p)

/-- A group's unit at the highest level of the cluster, die or package domain: its index and its groups (R242). -/
def Rec.unitAt (r : Rec) (index : Nat) : Option (Nat × Nat) :=
  match [5, 4, 3].findSome? r.unitGroups with
  | some (_, g) => if g = 0 then none else some (index / g, g)
  | none => none

/-- A launch's groups that are resident, as (index, core). -/
def State.residents (s : State) (id : Nat) : List (Nat × Nat) :=
  s.cores.flatMap (fun c => (c.2.slots.filter (fun g => g.2.launch == id)).map (fun g => (g.2.index, c.1)))

/-- A group of the same unit has been saved and is not back (R240, R242): the unit's boards stand in its record (R208), and the
group to place waits for it. (DEDUCED, log entry 66.) -/
def State.mateSaved (s : State) (id : Nat) (l : Launch) (index : Nat) : Bool :=
  match l.record.unitAt index with
  | none => false
  | some (u, g) =>
    (List.range l.placed).any (fun i => i / g == u && !l.ended.contains i && !(s.residents id).any (fun e => e.1 == i))

/-- A core is a candidate for group `index` of a launch (R178, R197, R218). -/
def State.candidate (s : State) (id : Nat) (l : Launch) (index c : Nat) : Bool :=
  let key := boardKey id l.record index
  let k := s.cluster (clusterOf c)
  s.coreFits c l.record
    && (l.peers 3 index).all (fun p => clusterOf p == clusterOf c) && (l.peers 4 index).all (fun p => dieOf p == dieOf c)
    && (l.record.boards = 0 || !(k.boardsOf key).isEmpty || l.record.boards ≤ k.freeBoards.length)

/-- A cluster holds a present member of the convoy that a record names (R219). -/
def State.hinted (s : State) (ctx hint k : Nat) : Bool :=
  hint != 0 && (s.convoy (cvKey ctx hint)).present.any (fun m => clusterOf m.1 == k)

/-- A candidate put in its place: the least levy, then the hint, then the lowest number (R219). -/
def insertPlace (x : Nat × Nat × Nat) : List (Nat × Nat × Nat) → List (Nat × Nat × Nat)
  | [] => [x]
  | y :: t =>
    if x.1 < y.1 || (x.1 == y.1 && (x.2.1 < y.2.1 || (x.2.1 == y.2.1 && x.2.2 < y.2.2))) then x :: y :: t
    else y :: insertPlace x t

/-- The cores that R219 lets a group of a record take, the one to take first in front. -/
def State.rankPlaces (s : State) (ctx : Nat) (r : Rec) (ok : Nat → Bool) : List Nat :=
  ((List.range 512).foldr (fun c l =>
    if !ok c then l
    else
      match s.levyAt c r.heat r.dem with
      | none => l
      | some v => insertPlace (v, if s.hinted ctx r.cvhint (clusterOf c) then 0 else 1, c) l) []).map (·.2.2)

/-- The core to take for a group (R219). -/
def State.choose (s : State) (id : Nat) (l : Launch) (index : Nat) : Option Nat :=
  if s.mateSaved id l index then none else (s.rankPlaces l.ctx l.record (s.candidate id l index)).head?

/-! ## Room for many groups -/

/-- Groups of a record that a core has room for, temperature and demand apart: no more can fit it (R218, R2). -/
def State.coreRoom (s : State) (c : Nat) (r : Rec) : Nat :=
  let k := s.core c
  let total := fun (f : Group → Nat) => (k.slots.map (fun g => f g.2)).sum
  let by' := fun (have' need : Nat) => if need = 0 then 64 else have' / need
  if !(s.die (dieOf c)).powered || !(s.die (dieOf c)).tbKnown then 0
  else
    ([64 - k.slots.length, by' (2048 - total (·.threads.length)) r.threads, by' (64 - total (·.homes.length)) r.homeWaves
      , by' k.freeBlocks (r.waveBlocks * r.homeWaves), by' (8 - total (·.record.tiles)) r.tiles
      , by' (1024 * maskKib (k.mask &&& k.target) - (k.allocs.map (fun a => a.2.size)).sum) (1024 * r.spad)
      , by' (16 - total (·.record.scale)) r.scale]).foldl min 64

/-- The same for a cluster, a die and the package, in whole units (R178). -/
def State.clusterRoom (s : State) (r : Rec) (k : Nat) : Nat :=
  r.clusterRoom ((List.range 16).map (fun i => s.coreRoom (16 * k + i) r)).sum (s.cluster k).freeBoards.length
def State.dieRoom (s : State) (r : Rec) (d : Nat) : Nat :=
  wholeUnits ((List.range 8).map (fun i => s.clusterRoom r (8 * d + i))).sum (r.unitGroups 4)
def State.packageRoom (s : State) (r : Rec) : Nat :=
  wholeUnits ((List.range 4).map (s.dieRoom r)).sum (r.unitGroups 5)

/-- A core whose cluster has room for the n groups of a cluster-domain unit that are to come, and its die for the m of a die-domain unit,
as far as the cores' resources tell (R178, R221). -/
def State.leavesRoom (s : State) (r : Rec) (n m c : Nat) : Bool :=
  let room := fun (first count : Nat) => ((List.range count).map (fun i => s.coreRoom (first + i) r)).sum
  (n = 0 || n ≤ room (16 * clusterOf c) 16) && (m = 0 || m ≤ room (128 * dieOf c) 128)

/-- Groups of a group's unit at a domain from it on. -/
def Rec.unitRest (r : Rec) (domain index : Nat) : Nat := match r.unitGroups domain with | some (_, g) => g - index % g | none => 0

/-! ## Placing a group -/

/-- The boards of a group's unit, granted with its first group and then cleared (R197). (DESIGN CHOICE, log entry 51.) -/
def State.grantBoards (s : State) (c key n : Nat) : List Nat × State :=
  let k := s.cluster (clusterOf c)
  let have' := k.boardsOf key
  if n = 0 || !have'.isEmpty then (have', s)
  else
    let bs := k.freeBoards.take n
    (bs, s.modCluster (clusterOf c) (fun x =>
      { x with boards := bs.foldl (fun t b => tset t b { Board.reset with owner := some key }) x.boards }))

/-- A group's allocation (R74): its words' failed bits are clear (R115). (DESIGN CHOICE, log entry 51.) -/
def Core.allocate (k : Core) (slot ctx size : Nat) (rot : Bool) : Core :=
  match k.freeSpad size with
  | none => k
  | some base =>
    { k with
      allocs := tset k.allocs slot { base := base, size := size, ctx := ctx, rot := rot }
      failed := k.failed.filter (fun off => off < base || base + size ≤ off) }

/-- A group as it is placed (R120, R131, R167, R180, R231, R232, R65). Its home wave 0 lies on quadrant
slot mod 4. (DESIGN CHOICE, log entry 51.) -/
def Group.start (id : Nat) (l : Launch) (index slot : Nat) (boards : List Nat) : Group :=
  let r := l.record
  let th := Thread.start r.code r.eprio
  { ctx := l.ctx, launch := id, index := index, record := r
    threads := (List.range r.threads).map (fun t => if r.vinit then th.put 0 (BitVec.ofNat 32 t) else th)
    homes := List.replicate r.homeWaves r.waveBlocks, quad := slot % 4
    s := (List.range 4).foldl (fun t n => tset t n (r.sinit.getD n 0)) [], sEmpty := [], x := [], xEmpty := [], j := []
    scale := [], tvec := 0, wdog := 0
    cv := { id := 0, slip := 0, timeout := 8192, count := 0, cause := 0, shed := false }
    bars := [], ages := [], raises := 0, passed := [], boards := boards, jobTime := 0, stopped := none, node := l.node
    saving := false }

/-- Group `index` of a launch is placed on a core: its resources are granted, its core acts as SYNCR.system, and a firing's
records are copied and its s1 and s2 set (R218, R216, R224). (DESIGN CHOICE, log entry 51.) -/
def State.putGroup (s : State) (id index c : Nat) : State :=
  match tfind s.hub.launches id, firstFree ((s.core c).slots.map (·.1)) 64 with
  | some l, some slot =>
    let r := l.record
    let (boards, s1) := s.grantBoards c (boardKey id r index) r.boards
    let s2 := if r.spad = 0 then s1 else s1.modCore c (·.allocate slot l.ctx (1024 * r.spad) r.rot)
    let base := match tfind (s2.core c).allocs slot with | some a => a.base | none => 0
    let g := Group.start id l index slot boards
    let g1 :=
      if l.node.isNone then g
      else (g.sput 1 (BitVec.ofNat 64 l.records.length)).sput 2 (BitVec.ofNat 64 (0x800000 + base))
    let s3 := (s2.discardStr c).setGroup c slot g1
    let s4 := if l.records.isEmpty then s3 else s3.spadWrite c base l.records.flatten
    s4.modHub (fun h => { h with launches := tset h.launches id { l with
      placed := l.placed + 1, cores := l.cores.take index ++ [c] ++ l.cores.drop (index + 1)
      ran := if l.ran.contains c then l.ran else l.ran ++ [c] } })
  | _, _ => s

/-- No group of the context is placed: it is held for quota (R244) or is being pre-empted (R239), or the package is in recovery. -/
def State.noPlaces (s : State) (ctx : Nat) : Bool :=
  s.hub.recovery || (tfind s.hub.contexts ctx).any (·.held) || s.hub.preempt.any (fun p => p.ctx == ctx)

/-- A waiting gang keeps places from a non-gang launch of equal or lower PRIO (R221). -/
def State.gangHolds (s : State) (l : Launch) : Bool :=
  s.hub.gangHold.any (fun g => (tfind s.hub.launches g).any (fun x => x.prio ≤ l.prio))

/-- Launches with a group to place that are to be tried, the more urgent first. -/
def State.waitingLaunches (s : State) (gang : Bool) : List (Nat × Launch) :=
  (List.range 4).flatMap (fun p => s.hub.launches.filter (fun l =>
    l.2.prio == p && l.2.record.gang == gang && l.2.placed < l.2.groups && !l.2.tried && !s.noPlaces l.2.ctx))

/-- Launches whose group has found no place wait for a group's end or a temperature sample (R218). -/
def State.setTried (s : State) (ids : List Nat) : State :=
  s.modHub (fun h => { h with launches := h.launches.map (fun l => if ids.contains l.1 then (l.1, { l.2 with tried := true }) else l) })

/-- A group has ended, or a temperature sample has come: whatever waits for a place is tried again (R218, R242). -/
def State.retryPlaces (s : State) : State :=
  s.modHub (fun h => { h with
    launches := h.launches.map (fun l => (l.1, { l.2 with tried := false }))
    resumes := h.resumes.map (fun r => { r with tried := false }) })

/-- The group that GROUP_PLACE places, with its core. -/
def State.nextPlace (s : State) : Option (Nat × Nat × Nat) :=
  (s.waitingLaunches false).findSome? (fun e =>
    if s.gangHolds e.2 then none else (s.choose e.1 e.2 e.2.placed).map (fun c => (e.1, e.2.placed, c)))

/-- GROUP_PLACE (R218, R219): the launches before the one that finds a place, or all of them, have been tried. -/
def execGroupPlace (s : State) : Out :=
  let open' := (s.waitingLaunches false).filter (fun e => !s.gangHolds e.2)
  match s.nextPlace with
  | some (id, index, c) => .next ((s.setTried ((open'.map (·.1)).takeWhile (· != id))).putGroup id index c)
  | none => .next (s.setTried (open'.map (·.1)))

/-- All groups of a gang placed, n of them still to place; none: there are no places for all. Each takes the first core by R219 with
which the rest find theirs (R221). (DESIGN CHOICE, log entry 51.) -/
def State.placeAll (s : State) (id : Nat) : Nat → Option State
  | 0 => some s
  | n + 1 =>
    match tfind s.hub.launches id with
    | none => none
    | some l =>
      (s.rankPlaces l.ctx l.record (fun c => s.candidate id l l.placed c
        && s.leavesRoom l.record (l.record.unitRest 3 l.placed) (l.record.unitRest 4 l.placed) c)).findSome?
        (fun c => (s.putGroup id l.placed c).placeAll id n)

/-- A gang placed whole, if the package has room for it (R221). -/
def State.placeGang (s : State) (id : Nat) (l : Launch) : Option State :=
  if s.packageRoom l.record < l.groups then none else s.placeAll id (l.groups - l.placed)

/-- GANG_PLACE: the first waiting gang with places for every group takes them in one step; the others hold their dies (R221). -/
def execGangPlace (s : State) : Out :=
  let gangs := s.waitingLaunches true
  match gangs.findSome? (fun e => (s.placeGang e.1 e.2).map (fun t => (e.1, t))) with
  | some (id, t) =>
    let tried := (gangs.map (·.1)).takeWhile (· != id)
    .next ((t.modHub (fun h => { h with gangHold := ((h.gangHold ++ tried).eraseDups).filter (· != id) })).setTried tried)
  | none => .next ((s.modHub (fun h => { h with gangHold := (h.gangHold ++ gangs.map (·.1)).eraseDups })).setTried (gangs.map (·.1)))

end Sys2Proof.Machine
end

