-- ==== Sys2Proof/Machine/Bins.lean ====
section
/-! DEFINITION. Work graphs (12_scheduling_and_placement.md R222 to R225): bins and their rings, firing, and the instructions WQE
and WQT (15_ref_memory_engines_convoys.md R302, R303). -/

namespace Sys2Proof.Machine

/-! ## Nodes -/

/-- A node descriptor (R222). -/
structure Node where
  templ : Nat
  timer : Nat
  rsize : Nat
  coal  : Nat
  ring  : Nat
  rlog  : Nat
  fstat : Nat

def nodeOf (bs : List Byte) : Node :=
  let d := dwAt bs
  let n := ((d 1).extractLsb' 8 4).toNat
  let c := ((d 1).extractLsb' 0 7).toNat
  { templ := ((d 0).extractLsb' 0 57).toNat, timer := ((d 1).extractLsb' 16 32).toNat, rsize := 16 * (if n = 0 then 16 else n)
    coal := if 1 ≤ c && c ≤ 64 then c else 64, ring := ((d 2).extractLsb' 8 49).toNat * 256
    rlog := ((d 3).extractLsb' 0 5).toNat, fstat := ((d 4).extractLsb' 0 57).toNat }

/-- A context's node table is at this address; 0: it has none (R214). -/
def State.nodesOf (s : State) (ctx : Nat) : Nat := match tfind s.hub.contexts ctx with | some x => x.nodes | none => 0

/-- Node n's descriptor as it stands in memory; a context without a node table has none (R214). -/
def State.node? (s : State) (ctx n : Nat) : Except State (Node × State) :=
  if s.nodesOf ctx = 0 then .error s
  else match s.hubLoad 0 (s.nodesOf ctx + 64 * n) 64 with
  | .ok (bs, s1) => .ok (nodeOf bs, s1)
  | .error s1 => .error s1

/-! ## Bins and rings (R223) -/

def Bin.empty : Bin := { bin := [], owned := false, head := 0, tail := 0, since := 0, pulled := [] }
def binKey (ctx n : Nat) : Nat := ctx * 256 + n
def State.bin (s : State) (k : Nat) : Bin := tget Bin.empty s.hub.bins k
def State.setBin (s : State) (k : Nat) (b : Bin) : State := s.modHub (fun h => { h with bins := tset h.bins k b })

/-- Records in the ring, and all that wait. -/
def Bin.ringed (b : Bin) : Nat := (b.tail - b.head).toNat
/-- DEDUCED, log entry 54. -/
def Bin.waiting (b : Bin) : Nat := b.bin.length + b.ringed

/-- Records that 4 KiB hold. -/
def Node.room (d : Node) : Nat := 4096 / d.rsize

def Node.slot (d : Node) (i : Word) : Nat := d.ring + d.rsize * (i.toNat % 2 ^ d.rlog)

/-- The node holds a bin, or takes one of the 256. -/
def State.ownsBin (s : State) (b : Bin) : Bool := b.owned || ((s.hub.bins.filter (fun e => e.2.owned)).length < 256)

/-- Records move from the ring into the bin, oldest first, as space allows; at most n. -/
def State.refill (s : State) (ctx node : Nat) (d : Node) : Nat → State
  | 0 => s
  | n + 1 =>
    let b := s.bin (binKey ctx node)
    if !b.owned || b.ringed = 0 || d.room ≤ b.bin.length then s
    else
      match s.virtLoad ctx (d.slot b.head) d.rsize with
      | .error s1 => s1
      | .ok (r, s1) => (s1.setBin (binKey ctx node) { b with bin := b.bin ++ [r], head := b.head + 1 }).refill ctx node d n

/-- The k oldest waiting records: those of the bin, then those of the ring. -/
def State.oldestRecords (s : State) (ctx : Nat) (d : Node) (b : Bin) (k : Nat) :
    Except State (List (List Byte) × State) :=
  (List.range (k - b.bin.length)).foldl (fun acc i =>
    match acc with
    | .error s1 => .error s1
    | .ok (rs, s1) =>
      match s1.virtLoad ctx (d.slot (b.head + BitVec.ofNat 32 i)) d.rsize with
      | .ok (r, s2) => .ok (rs ++ [r], s2)
      | .error s2 => .error s2) (.ok (b.bin.take k, s))

/-- A template can be launched (R224). (DEDUCED, log entry 54.) -/
def Rec.firable (r : Rec) (d : Node) (floor kib : Nat) : Bool :=
  r.levelsOk && r.fieldsOk && !r.hopeless floor kib && r.groups == 1 && d.coal * d.rsize ≤ 1024 * r.spad

/-- A failed firing: the records stay, the queue error interrupt reports the node, and its timer starts again. (DEDUCED, log entries 43 and
54.) -/
def State.failFire (s : State) (k : Nat) : State :=
  ((s.setBin k { s.bin k with since := s.hub.cycles }).modHub (fun h => { h with nodeErrors :=
      h.nodeErrors ++ [(k / 256, k % 256)] })).queueError

/-- One group is launched from the template with up to COAL records (R224). `waits`: the records taken. (DEDUCED, log entry 54.) -/
def State.fire (s : State) (ctx node : Nat) (d : Node) : State :=
  let key := binKey ctx node
  match s.virtLoad ctx d.templ 128 with
  | .error s1 => s1.failFire key
  | .ok (bs, s1) =>
    let r := recOf bs
    let b := s1.bin key
    let k := min d.coal b.waiting
    if !r.firable d s1.hub.levyFloor s1.mostKib then s1.failFire key
    else
      match s1.oldestRecords ctx d b k with
      | .error s2 => s2.failFire key
      | .ok (rs, s2) =>
        let l : Launch :=
          { queue := none, node := some node, ctx := ctx, addr := BitVec.ofNat 64 d.templ, record := r, groups := 1, placed := 0
            ended := [], exited := [], tiles := 0, stop := none, cores := [], ran := [], prio := 3, records := rs }
        let left := b.waiting - k
        let b1 := { b with
          bin := b.bin.drop k, head := b.head + BitVec.ofNat 32 (k - b.bin.length), owned := b.owned && left != 0
          since := s2.hub.cycles }
        (({ s2 with seq := s2.seq + 1 }.modHub (fun h => { h with launches := tset h.launches s2.seq l })).setBin key b1).refill
          ctx node d d.room

/-- The context's bins do not fire while it is being pre-empted (R239). -/
def State.firesOff (s : State) (ctx : Nat) : Bool := s.hub.preempt.any (fun p => p.ctx == ctx)

/-- The node has its count of records, or its timer has run out. -/
def State.binDue (s : State) (ctx node : Nat) (d : Node) : Bool :=
  let b := s.bin (binKey ctx node)
  b.waiting != 0 && (d.coal ≤ b.waiting || b.since + d.timer ≤ s.hub.cycles)

/-- A bin fires if it is due. -/
def State.fireDue (s : State) (ctx node : Nat) : State :=
  match s.node? ctx node with
  | .error s1 => s1
  | .ok (d, s1) => if !s1.firesOff ctx && s1.binDue ctx node d then s1.fire ctx node d else s1

/-- One record is enqueued: placed, or refused (R223). The bin fires if it has its count (R224). (DEDUCED, log entries 43 and 54.) -/
def State.enqueue (s : State) (ctx node : Nat) (bytes : List Byte) : Bool × State :=
  match s.node? ctx node with
  | .error s1 => (false, s1)
  | .ok (d, s1) =>
    let key := binKey ctx node
    let b := s1.bin key
    let b1 := { b with owned := s1.ownsBin b, since := if b.waiting = 0 then s1.hub.cycles else b.since }
    if b1.owned && b.ringed = 0 && b.bin.length < d.room then
      (true, (s1.setBin key { b1 with bin := b.bin ++ [bytes] }).fireDue ctx node)
    else if 2 ^ d.rlog ≤ b.ringed then (false, s1)
    else
      match s1.virtStore ctx (d.slot b.tail) bytes with
      | .error s2 => (false, s2)
      | .ok s2 => (true, ((s2.setBin key { b1 with tail := b.tail + 1 }).refill ctx node d d.room).fireDue ctx node)

/-- BIN_TIMER_EXPIRY (R224). -/
def execBinTimerExpiry (ctx node : Nat) (s : State) : Out := .next (s.waitSlab (fun s => s.fireDue ctx node))

/-- The bins of a context that have their count fire, once its pre-emption is over (R239). -/
def State.fireBins (s : State) (ctx : Nat) : State :=
  (s.hub.bins.filter (fun e => e.1 / 256 == ctx)).foldl (fun s1 e => s1.fireDue ctx (e.1 % 256)) s

/-! ## WQE (R302) -/

/-- The node number and the record's length; a node that cannot be read counts as one unit. (DEDUCED, log entry 43.) -/
def Lane.wqeNode (L : Lane) : Nat := (lowWord (L.srcB (shapeOf (.wqe L.o)) 0 false)).toNat
def Lane.wqeBytes (L : Lane) : Nat := match L.s.node? L.g.ctx L.wqeNode with | .ok (d, _) => d.rsize | .error _ => 16

def wqeCheck (L : Lane) : Option Trap :=
  if 255 < L.wqeNode || L.s.nodesOf L.g.ctx = 0 then some { cause := 0x01 } else spadTrap L L.saNoOff 16 L.wqeBytes

/-- WQE's operands: the record's address and length, and the node. -/
def Lane.wqeArgs (L : Lane) : List Nat := [L.saNoOff.toNat, L.wqeBytes, L.wqeNode]

/-- WQE (R302). -/
def execWqe (o : Op) (s : State) : Out :=
  .next (s.waitSlab (fun s => s.releaseOp (.wqe o) o wqeCheck (fun _ => true) (fun ls s1 =>
    (ls.foldl (fun s2 L =>
      let l := L.args Lane.wqeArgs
      let (bytes, s3) := s2.spadLoad L.c (BitVec.ofNat 32 (l.getD 0 0)) (l.getD 1 0)
      let (placed, s4) := s3.enqueue L.g.ctx (l.getD 2 0) bytes
      s4.modThread L.c L.slot L.tid (fun th => th.setPred L.fD placed)) s1).moveTo (ls.map (·.tid)) s.cur.next) Lane.wqeArgs))

/-! ## WQT (R303, R225) -/

/-- Whether a number is among the 16-bit peer numbers of a context's communicators (R436), with the state that reading their tables
leaves. -/
def State.findPeer (s : State) (ctx peer : Nat) : Bool × State :=
  (List.range 256).foldl (fun acc c =>
    match acc.2.commEntry ctx c with
    | (none, s1) => (acc.1, s1)
    | (some e, s1) =>
      let n := ((e.getD 0 0).extractLsb' 32 16).toNat
      let ranks := ((e.getD 1 0).extractLsb' 0 52).toNat
      (List.range n).foldl (fun acc r =>
        match acc.2.hubLoad 0 (ranks + 2 * r) 2 with
        | .ok (bs, s2) => (acc.1 || leNat bs == peer, s2)
        | .error s2 => (acc.1, s2)) (acc.1, s1)) (false, s)

def State.isPeer (s : State) (ctx peer : Nat) : Bool := (s.findPeer ctx peer).1

/-- The receiver's PEER and DIE. (DEDUCED, log entry 43.) -/
def Lane.wqtPeer (L : Lane) : Nat := (((L.words L.fD 1 0).getD 0 0).extractLsb' 16 16).toNat
def Lane.wqtDie (L : Lane) : Nat := (((L.words L.fD 1 0).getD 0 0).extractLsb' 0 2).toNat

def wqtCheck (L : Lane) : Option Trap :=
  if 255 < (L.source false L.fA 0).toNat then some { cause := 0x01 }
  else if L.wqtPeer != 0 && !L.s.isPeer L.g.ctx L.wqtPeer then some { cause := 0x01 }
  else none

/-- WQT's operands: PEER, DIE, node and index. -/
def Lane.wqtArgs (L : Lane) : List Nat :=
  [L.wqtPeer, L.wqtDie, (L.source false L.fA 0).toNat, (lowWord (L.srcB (shapeOf (.wqt L.o)) 0 false)).toNat]

/-- WQT (R303): an index for another package leaves this one. (DEDUCED, log entry 43.) -/
def execWqt (o : Op) (s : State) : Out :=
  .next (s.waitSlab (fun s => s.releaseOp (.wqt o) o wqtCheck (fun _ => true) (fun ls s1 =>
    (ls.foldl (fun s2 L =>
      let l := L.args Lane.wqtArgs
      let s3 := if l.getD 0 0 = 0 then s2 else (s2.findPeer L.g.ctx (l.getD 0 0)).2
      if l.getD 0 0 != 0 && l.getD 0 0 != s2.hub.fabid.toNat then s3
      else s3.post (.wqt L.g.ctx (l.getD 2 0) 0 (l.getD 1 0) (BitVec.ofNat 32 (l.getD 3 0)))) s1).moveTo
      (ls.map (·.tid)) s.cur.next) Lane.wqtArgs))

/-- Records of the ring from the index last pulled on are enqueued, at most n; one that cannot be read ends the pull. (DEDUCED, log entry
54.) -/
def State.pullRing (s : State) (ctx node key : Nat) (index : Word) : Nat → State
  | 0 => s
  | n + 1 =>
    let b := s.bin (binKey ctx node)
    let i := tget 0 b.pulled key
    if i = index then s
    else
      match s.node? ctx node with
      | .error s1 => s1
      | .ok (d, s1) =>
        match s1.virtLoad ctx (d.slot i) d.rsize with
        | .error s2 => s2
        | .ok (bytes, s2) =>
          let b2 := s2.bin (binKey ctx node)
          ((s2.setBin (binKey ctx node) { b2 with pulled := tset b2.pulled key (i + 1) }).enqueue ctx node bytes).2.pullRing ctx
            node key index n

/-- WQT_PULL (R225): an index that is not newer has no effect. The receiving die and the sender number the index last pulled. (DEDUCED, log
entry 43.) -/
def execWqtPull (m : Nat) (s : State) : Out :=
  match s.msg? m with
  | some (.wqt ctx node sender target index) =>
    .next (s.waitSlab (fun s =>
      let s1 := s.drop m
      let key := target * 65536 + sender
      let last := tget 0 (s1.bin (binKey ctx node)).pulled key
      if sless last index then s1.pullRing ctx node key index (index - last).toNat else s1))
  | _ => .next s

/-- A peer across Ulukar announces the index that its ring may be pulled to; one that is not newer than the last pulled has no effect
(R225). (DEDUCED, log entry 43.) -/
def State.peerTail (s : State) (ctx node peer : Nat) (index : Word) : State :=
  let b := s.bin (binKey ctx node)
  let last := tget 0 b.pulled peer
  if sless (tget last b.tails peer) index then s.setBin (binKey ctx node) { b with tails := tset b.tails peer index } else s

/-- Records of a peer's ring arrive in ring order and are enqueued, from the index last pulled and up to the one announced (R225). (DEDUCED,
log entry 43.) -/
def State.peerRecords (s : State) (ctx node peer : Nat) : List (List Byte) → State
  | [] => s
  | r :: rs =>
    let b := s.bin (binKey ctx node)
    let i := tget 0 b.pulled peer
    if !sless i (tget i b.tails peer) then s
    else ((s.setBin (binKey ctx node) { b with pulled := tset b.pulled peer (i + 1) }).enqueue ctx node r).2.peerRecords ctx node peer rs

/-- Bytes of a peer's ring arrive: the records that are whole by then are enqueued (R225). (DEDUCED, log entry 43.) -/
def State.peerBytes (s : State) (ctx node peer : Nat) (bytes : List Byte) : State :=
  match s.node? ctx node with
  | .error s1 => s1
  | .ok (d, s1) =>
    let b := s1.bin (binKey ctx node)
    let got := tget [] b.parts peer ++ bytes
    let n := got.length / d.rsize
    (s1.setBin (binKey ctx node) { b with parts := tset b.parts peer (got.drop (n * d.rsize)) }).peerRecords ctx node peer
      ((List.range n).map (fun i => (got.drop (i * d.rsize)).take d.rsize))

end Sys2Proof.Machine
end

