-- ==== Sys2Proof/Machine/Ends.lean ====
section
/-! DEFINITION. The end of a group and of a launch (10_execution_model.md R192; 12_scheduling_and_placement.md R216, R217, R224). -/

namespace Sys2Proof.Machine


/-- What an ended or stopped group still waits for (R192, R235, R404). (DEDUCED, log entry 53.) -/
def State.groupBusy (s : State) (c slot : Nat) : Bool :=
  match s.group? c slot with
  | none => true
  | some g =>
    let k := s.core c
    let quiet : Acc → Bool := fun a =>
      a.phase == .held || (g.stopped.isNone && !(match a.kind with | .store | .atomic _ _ _ | .cas _ _ => true | _ => false)
        && (a.phase == .walk || a.phase == .parked))
    k.accs.any (fun a => a.slot == slot && !quiet a)
      || (s.cluster (clusterOf c)).jobs.any (fun j => j.core == c && j.slot == slot)
      || (g.stopped.isNone && (s.cluster (clusterOf c)).offers.any (fun j => j.core == c && j.slot == slot))
      || k.sfuQ.any (fun q => q.2.any (fun w => w.any (fun x => x.slot == slot)))
      || k.plane.any (fun p => p.slot == slot) || k.planeQ.any (fun p => p.slot == slot) || k.late.any (fun e => e.slot == slot)
      || s.net.any (fun m => match m.2 with
          | .dq c1 g1 _ _ _ _ _ | .dqAnswer c1 g1 _ _ _ _ _ => c1 == c && g1 == slot
          | _ => false)

/-- The group is to end: it is stopped, or every thread has exited. -/
def Group.finished (g : Group) : Bool := g.stopped.isSome || g.threads.all (fun th => !th.live)

/-- An allocation is cleared: its words' times go into the floor (R74, R115). -/
def Core.clearAlloc (k : Core) (slot : Nat) : Core :=
  match tfind k.allocs slot with
  | none => k
  | some a =>
    let out : Nat → Bool := fun off => a.base ≤ off && off < a.base + a.size
    { k with
      allocs := tdel k.allocs slot, tTab := k.tTab.filter (fun e => !out e.1)
      tFloor := (k.tTab.filter (fun e => out e.1)).foldl (fun m e => maxD m e.2) k.tFloor }

/-- A group leaves its slot: what names it elsewhere goes too; a prefetch or LEASE that has been sent ends when its answer comes (R53, R54).
Its boards are freed when no group of its unit is left. Late accesses of its cluster are performed before its allocation is cleared.
(DEDUCED, log entries 46 and 53; DESIGN CHOICE, log entry 81.) -/
def State.removeGroup (s : State) (c slot : Nat) (freeBoards : Bool) : State :=
  match s.group? c slot with
  | none => s
  | some g =>
    let s1 := (s.performAll (clusterOf c)).modCore c (fun k => { (k.clearAlloc slot) with
      slots := tdel k.slots slot
      accs := k.accs.filter (fun a => a.slot != slot || (a.quiet && (a.phase == .fill || a.phase == .renew)))
      rblkQ := k.rblkQ.filter (fun e => e.1 != slot) })
    let s2 := s1.modCluster (clusterOf c) (fun k => { k with
      offers := k.offers.filter (fun f => !(f.core == c && f.slot == slot))
      boards := k.boards.map (fun e => (e.1,
        if freeBoards && g.boards.contains e.1 then Board.reset
        else { e.2 with waiters := e.2.waiters.filter (fun w => !(w.1 == c && w.2.1 == slot)) })) })
    let s3 := s2.modDie (dieOf c) (fun d =>
      let f : Walk → Walk := fun w => { w with waiters := w.waiters.filter (fun q =>
        match q with | .fetch c1 g1 _ _ _ _ => !(c1 == c && g1 == slot) | _ => true) }
      { d with queue := d.queue.map f, active := d.active.map f, parked := d.parked.map f })
    let s4 := s3.modHub (fun h => { h with idlers := h.idlers.filter (fun w => !(w.core == c && w.slot == slot)) })
    let waits := fun (p : WaitKind → Bool) => g.threads.any (fun th => th.wait.any (fun w => p w.kind))
    (if waits (· == .region) then s4.endMoving g.ctx else s4).applyTarget c

/-- No other group of a group's cluster-domain unit is resident, and none is still to come that would find the unit's boards there, so
the boards are free (R197). No group of a launch that HALT or a trip has ended is to come; where a mate has been saved, the boards stand
in its record (R208). -/
def State.unitDone (s : State) (id : Nat) (l : Launch) (index : Nat) : Bool :=
  match l.record.unitGroups 3 with
  | some (_, g) =>
    let mates := ((List.range g).map (fun k => index / g * g + k)).filter (· != index)
    !mates.any (fun i => (s.residents id).any (fun e => e.1 == i))
      && (mates.any (fun i => i < l.placed && !l.ended.contains i) || mates.all (fun i => i < l.placed || l.halted || l.groups ≤ i))
  | none => true

/-- The check for the end of a pre-emption; its context's bins may fire again then (R239). -/
def State.preemptEnd (s : State) : State :=
  let s1 := s.preemptCheck
  match s.hub.preempt with
  | some p => if s1.hub.preempt.isNone then s1.fireBins p.ctx else s1
  | none => s1

/-- GROUP_END (R192): the group leaves its convoy and its slot. (DEDUCED, log entry 53.) -/
def execGroupEnd (c slot : Nat) (s : State) : Out :=
  match s.group? c slot with
  | none => .next s
  | some g =>
    if !g.finished || s.groupBusy c slot then .next s
    else .next (s.waitSlab (fun s =>
      let s1 := s.cvLeave c slot
      let s2 := s1.modHub (fun h =>
        match tfind h.launches g.launch with
        | some l => { h with launches := tset h.launches g.launch { l with
            ended := g.index :: l.ended, exited := if g.stopped.isNone then g.index :: l.exited else l.exited } }
        | none => h)
      let free := match tfind s2.hub.launches g.launch with | some l => s2.unitDone g.launch l g.index | none => true
      ((s2.removeGroup c slot free).modDie (dieOf c) (fun d => { d with leavers :=
            (g.ctx :: d.leavers).eraseDups })).retryPlaces.preemptEnd))

/-- Every group of the launch has ended. -/
def State.launchDone (s : State) (id : Nat) (l : Launch) : Bool :=
  l.groups ≤ l.ended.length
    || (l.halted && s.cores.all (fun c => c.2.slots.all (fun g => g.2.launch != id)))

/-- The status that a completed launch gets, for its group's index order: complete, or what stopped it. -/
def Launch.status (l : Launch) : Dword := l.stop.getD 2

/-- The failure word of a fired group's node (R224). -/
def State.writeFstat (s : State) (l : Launch) : State :=
  match l.node.elim (.error s) (fun n => s.node? l.ctx n) with
  | .ok (d, s1) =>
    (if d.fstat = 0 then s1
      else match s1.virtStore l.ctx d.fstat (leBytes 8 l.status.toNat) with | .ok s2 => s2 | .error s2 => s2).queueError
  | .error s1 => s1.queueError

/-- LAUNCH_COMPLETE (R216, R217, R224): the launch's cores act as SYNCW.system; then STATUS is written and SIGEV signalled. -/
def execLaunchComplete (id : Nat) (s : State) : Out :=
  match tfind s.hub.launches id with
  | none => .next s
  | some l =>
    if !s.launchDone id l then .next s
    else
      let dirty := l.ran.filter (fun c => (s.core c).l1.any (fun x => !x.excl && (x.dirty &&& ~~~x.poison) != 0))
      if !dirty.isEmpty then .next (dirty.foldl (fun s1 c => s1.writeBackAll c (fun _ => true)) s)
      else if l.ran.any (fun c => s.writeBacksOpen c) then .next s
      else .next (s.waitSlab (fun s =>
        let s1 := s.modHub (fun h => { h with
          launches := tdel h.launches id, gangHold := h.gangHold.filter (· != id)
          bars := tdrop h.bars (id * 8 * 0x100000000) (8 * 0x100000000) })
        let s2 :=
          if l.node.isNone then s1.writeStatus l.addr.toNat l.status
          else if l.stop.any (fun v => v.extractLsb' 0 16 == 0x8003#16) then s1.writeFstat l else s1
        s2.signal (some l.ctx) l.record.sigev))

end Sys2Proof.Machine
end

