-- ==== Sys2Proof/Machine/Privileged.lean ====
section
/-! DEFINITION. The privileged instructions but pre-emption's (18_ref_control_system.md R381, R384 to R391) and the discarding of
a context's work (R388, 01_stacked_vaults.md R23). -/

namespace Sys2Proof.Machine

/-! ## The frame of a privileged instruction (R381) -/

/-- The lane whose scalars and vectors an issue takes its values from: the lowest active home lane. -/
def State.lead (s : State) (o : Op) (wave ok : List Nat) : Option Lane := ((byLane ok).filterMap (s.lane? o wave)).head?

/-- The destination registers of active threads written (R381). -/
def State.answer (s : State) (o : Op) (wave ok : List Nat) (ws : List Word) : State :=
  ok.foldl (fun s1 t =>
    match s.lane? o wave t with
    | some L => s1.modThread L.c L.slot L.tid (fun th => th.putAll (L.dstReg ws.length) ws)
    | none => s1) s

/-- A privileged instruction: outside a supervisor context every thread of the wave traps with 0x08 (step 5 of R254); one that has begun
runs to its end (R428). `body` gives the effect of an issue, with the lead lane, and moves the threads. (DEDUCED, log entry 70.) -/
def State.privFrame (s : State) (i : Instr) (o : Op) (check : Lane → Option Trap)
    (body : Lane → List Nat → List Nat → State → State) : State :=
  let begun := s.cur.threads.filter (fun t => (s.thread? s.cur.core s.cur.slot t).any (fun th => th.wait.isSome))
  let run := fun (s1 : State) => s1.frame i o check (fun wave ok s0 =>
    match s0.lead o wave ok with | some L => body L wave ok s0 | none => s0) true
  let allowed := match s.group? s.cur.core s.cur.slot with | some g => s.supervisor g.ctx | none => true
  if allowed then run s
  else
    let s1 := s.trapWave 0x08
    if begun.isEmpty then s1 else run { s1 with cur := { s1.cur with threads := begun } }

/-- One that completes in its step: f gives the destination's words and the effect. -/
def State.privOp (s : State) (i : Instr) (o : Op) (check : Lane → Option Trap) (f : Lane → State → List Word × State) : State :=
  s.privFrame i o check (fun L wave ok s0 =>
    let (ws, s1) := f L s0
    (s1.answer o wave ok ws).moveTo ok s.cur.next)

/-- One whose request may take time: threads whose request is complete are answered with 0, after `fin`; the others of the issue make
one request, by `start`. -/
def State.privWait (s : State) (i : Instr) (o : Op) (fin : Lane → State → State) (start : Lane → List Nat → List Nat → State → State) :
    State :=
  s.privFrame i o noCheck (fun _ wave ok s0 =>
    let begun := ok.filter (fun t => (s0.thread? s.cur.core s.cur.slot t).any (fun th => th.wait.isSome))
    let new := ok.filter (fun t => !begun.contains t)
    let s1 := match s0.lead o wave begun with
      | some L => ((fin L s0).answer o wave begun [0]).moveTo begun s.cur.next
      | none => s0
    match s1.lead o wave new with
    | some L => start L wave new s1
    | none => s1)

/-- SrcB as 32 bits, of the lead lane. -/
def Lane.word (L : Lane) (i : Instr) : Word := lowWord (L.srcB (shapeOf i) 0 false)

/-- The context tag in S[A]. -/
def Lane.tagA (L : Lane) : Nat := ((L.g.sget L.fA).extractLsb' 0 12).toNat

/-! ## TLBINV (R384, R48, R32) -/

/-- Translations that p names leave every TLB, and f marks the walks in flight. -/
def State.dropTlb (s : State) (p : TlbEnt → Bool) (f : Walk → Walk) : State :=
  { s with
    cores := s.cores.map (fun e => (e.1, { e.2 with tlb := e.2.tlb.filter (!p ·) }))
    clusters := s.clusters.map (fun e => (e.1, { e.2 with tlb := e.2.tlb.filter (!p ·) }))
    dies := s.dies.map (fun e => (e.1, { e.2 with tlb := e.2.tlb.filter (!p ·), active := e.2.active.map f })) }

/-- A walk that p names fills no TLB (R48). -/
def noFillIf (p : Walk → Bool) (w : Walk) : Walk := if p w then { w with noFill := true } else w

/-- Entries of a context's region attribute file are read into every copy (R36); a file that cannot be read leaves the copies as they
are. (DESIGN CHOICE, log entries 2 and 21.) -/
def State.reloadRegions (s : State) (ctx : Nat) (ns : List Nat) : State :=
  match tfind s.hub.contexts ctx with
  | none => s
  | some x =>
    match s.readFile x.raf with
    | .error s1 => s1
    | .ok (file, s1) =>
      let new := ns.foldl (fun l n => l.set n (file.getD n 0)) x.regions
      s1.modHub (fun h => { h with contexts := tset h.contexts ctx { x with regions := new } })

/-- TLBINV.page. -/
def execTlbinvPage (o : Op) (s : State) : Out := .next (s.privOp (.tlbinvPage o) o noCheck (fun L s1 =>
  let va := L.srcBd (.tlbinvPage o)
  let r := s1.regionFor L.tagA va
  ([], s1.dropTlb (fun e => e.ctx == L.tagA && e.region == (va.extractLsb' 53 4).toNat && e.page == va.toNat % 2 ^ 53 / 2 ^ pageBits r)
    (noFillIf (fun w => samePage r w L.tagA va)))))

/-- TLBINV.region. -/
def execTlbinvRegion (o : Op) (s : State) : Out := .next (s.waitSlab (fun s => s.privOp (.tlbinvRegion o) o noCheck (fun L s1 =>
  let n := (L.srcBd (.tlbinvRegion o)).toNat % 16
  ([], (s1.dropTlb (fun e => e.ctx == L.tagA && e.region == n)
    (noFillIf (fun w => w.ctx == L.tagA && (w.va.extractLsb' 53 4).toNat == n))).reloadRegions L.tagA [n]))))

/-- TLBINV.ctx. -/
def execTlbinvCtx (o : Op) (s : State) : Out := .next (s.waitSlab (fun s => s.privOp (.tlbinvCtx o) o noCheck (fun L s1 =>
  ([], (s1.dropTlb (fun e => e.ctx == L.tagA) (noFillIf (fun w => w.ctx == L.tagA))).reloadRegions L.tagA (List.range 16)))))

/-- TLBINV.all. -/
def execTlbinvAll (o : Op) (s : State) : Out := .next (s.waitSlab (fun s => s.privOp (.tlbinvAll o) o noCheck (fun _ s1 =>
  ([], s1.hub.contexts.foldl (fun s2 x => s2.reloadRegions x.1 (List.range 16)) (s1.dropTlb (fun _ => true) (noFillIf (fun _ => true)))))))

/-- Every L1 line of a core under a key goes: dirty sectors are written, an exclusive line returns; what is being filled is not
to stay. -/
def State.flushKey (s : State) (c key : Nat) : State :=
  let ls := (s.core c).l1.filter (fun x => x.key == key)
  ls.foldl (fun s1 x =>
    if x.excl then (s1.touchSlab x.pa).returnExcl x.pa x.key (x.dirty &&& ~~~x.poison) x.got
    else
      let d := x.dirty &&& ~~~x.poison
      if d = 0 then s1 else s1.hubStore false x.key x.pa (sectorBytes x.pa d x.bytes))
    (s.modCore c (fun k => { k with
      l1 := k.l1.filter (fun x => x.key != key)
      misses := k.misses.map (fun e => if e.2.key == key then (e.1, { e.2 with stale := true }) else e) }))

/-- TLBINV.key: what a walk in flight finds under the key fills no TLB either (R48). -/
def execTlbinvKey (o : Op) (s : State) : Out := .next (s.waitSlab (fun s => s.privOp (.tlbinvKey o) o noCheck (fun L s1 =>
  let key := (L.srcBd (.tlbinvKey o)).toNat % 128
  ([], s1.cores.foldl (fun s2 k => s2.flushKey k.1 key)
    (s1.dropTlb (fun e => e.key == key) (fun w => { w with noKeys := key :: w.noKeys }))))))

/-! ## Power registers (R385) -/

/-- PCAP and PFLOOR as last written. (DEDUCED, log entry 58.) -/
def Hub.pcapReg (h : Hub) : Nat := h.pcapNext.getD h.pcap
def Hub.pfloorReg (h : Hub) (k : Nat) : Nat := tget (tget 0 h.pfloor k) h.pfloorNext k
def Hub.floorSum (h : Hub) : Nat := ((List.range 8).map h.pfloorReg).sum

/-- The value of a power register; none: no register has the number. -/
def State.powerReg (s : State) (k : Nat) : Option Nat :=
  let h := s.hub
  if k = 0 then some h.pcapReg
  else if k = 1 then some ((if h.unatt then 65536 else 0) + h.pstat % 4096)
  else if k < 6 then some ((s.die (k - 2)).grant % 4096 * 65536 + (s.die (k - 2)).power % 4096)
  else if k = 6 then some (h.hpwr % 4096)
  else if 8 ≤ k ∧ k ≤ 15 then some (h.pfloorReg (k - 8))
  else none

def powerCheck (o : Op) (L : Lane) : Option Trap := if (L.s.powerReg o.a.toNat).isNone then some { cause := 0x01 } else none

/-- PWRRD. -/
def execPwrrd (o : Op) (s : State) : Out := .next (s.privOp (.pwrrd o) o (powerCheck o) (fun _ s1 =>
  ([BitVec.ofNat 32 ((s1.powerReg o.a.toNat).getD 0), 0], s1)))

/-- PWRWR of PCAP, or of a register that is only read. (DEDUCED, log entry 58.) -/
def execPwrwrPcap (o : Op) (s : State) : Out := .next (s.privOp (.pwrwrPcap o) o (powerCheck o) (fun L s1 =>
  let v := (L.word (.pwrwrPcap o)).toNat
  if o.a != 0 || v < 1200 || 3600 < v || v < s1.hub.floorSum then ([2], s1)
  else
    let low := v < s1.hub.idle
    ([if low then 1 else 0], s1.modHub (fun h => { h with pcapNext := some v, unatt := low }))))

/-- PWRWR of a PFLOOR. (DEDUCED, log entry 58.) -/
def execPwrwrPfloor (o : Op) (s : State) : Out := .next (s.privOp (.pwrwrPfloor o) o (powerCheck o) (fun L s1 =>
  let k := o.a.toNat - 8
  let v := (L.word (.pwrwrPfloor o)).toNat
  if s1.hub.pcapReg < s1.hub.floorSum - s1.hub.pfloorReg k + v then ([2], s1)
  else ([0], s1.modHub (fun h => { h with pfloorNext := tset h.pfloorNext k v }))))

/-! ## CLKRAT (R386, R155) -/

/-- The words already issued of a cluster's lanes, special-function units and plane arrays have all been written. -/
def State.quiet (s : State) (k : Nat) : Bool :=
  (List.range 16).all (fun n =>
    let x := s.core (16 * k + n)
    x.sfuQ.all (fun q => q.2.isEmpty) && x.plane.isNone && x.planeQ.isEmpty)

/-- CLKRAT: the cluster stops issuing; the instruction ends when it resumes. -/
def execClkrat (o : Op) (s : State) : Out := .next (s.privWait (.clkrat o) o (fun _ s1 => s1) (fun L wave ok s0 =>
  let b := (L.word (.clkrat o)).toNat
  if b / 256 % 4 = 3 then (s0.answer o wave ok [2]).moveTo ok s.cur.next
  else
    ok.foldl (fun s1 t => s1.wait L.c L.slot t (.clock (b % 32)))
      (s0.modCluster (b % 32) (fun k => { k with switch := some (BitVec.ofNat 2 (b / 256)) }))))

/-- CLOCK_RATIO_SWITCH: steps 3 and 4 of R155. -/
def execClockRatioSwitch (k : Nat) (s : State) : Out :=
  match (s.cluster k).switch with
  | some r => if s.quiet k then .next (s.modCluster k (fun x => { x with ratio := r, switch := none })) else .next s
  | none => .next s

/-! ## IDLE (R387) -/

/-- IDLE: the event bits at once where one is set or the mask is 0, else a place in the order of waiting. -/
def execIdle (o : Op) (s : State) : Out := .next (s.privFrame (.idle o) o noCheck (fun L wave ok s0 =>
  let mask := (L.word (.idle o)).extractLsb' 0 5
  let ev := tget 0 s0.hub.events L.g.ctx &&& mask
  if mask = 0 || ev != 0 then
    let s1 := s0.modHub (fun h => { h with events := tset h.events L.g.ctx (tget 0 h.events L.g.ctx &&& ~~~ev) })
    (s1.answer o wave ok [ev.setWidth 32]).moveTo ok s.cur.next
  else
    let ls := (byLane ok).filterMap (s0.lane? o wave)
    let w : Idler := { core := L.c, slot := L.slot, dests := ls.map (fun x => (x.tid, x.dstReg 1)), mask := mask, next := s.cur.next }
    ok.foldl (fun s1 t => s1.wait L.c L.slot t .idle) (s0.modHub (fun h => { h with idlers := h.idlers ++ [w] }))))

/-! ## HALT (R388) -/

/-- The queues of a context. -/
def State.queuesOf (s : State) (ctx : Nat) : List Nat :=
  match tfind s.hub.contexts ctx with
  | some x => (s.hub.queues.filter (fun q => (q.2.cfg.extractLsb' 0 46).toNat * 64 == x.desc)).map (·.1)
  | none => []

/-- A context's parked walks go without an answer, and so do the accesses that wait for them; a job that waits for one ends with its
fault. What else has been issued goes on (R235). (DEDUCED, log entry 55.) -/
def State.dropWalks (s : State) (ctx : Nat) : State :=
  s.dies.foldl (fun s1 d =>
    ((s1.die d.1).parked.filter (fun w => w.ctx == ctx)).foldl (fun s2 w =>
      w.waiters.foldl State.abandon (s2.modDie d.1 (fun x => { x with parked := x.parked.filter (·.id != w.id) }))) s1) s

/-- Everything of a context is brought to its end: its groups stop, its queues are disabled, its waiting groups and records are
discarded, and each of its launches will get a status. (DEDUCED, log entry 55.) -/
def State.haltCtx (s : State) (ctx : Nat) (status : Dword) : State :=
  let s1 := (s.groupsOf ctx).foldl (fun s1 e => s1.modGroup e.1 e.2 (fun g => { g with
    stopped := match g.stopped with | some x => some x | none => some (0, 0)
    saving := false })) s
  let s2 := (s.queuesOf ctx).foldl (fun s2 q => s2.modQueue q (fun x => { x with
    cfg := x.cfg &&& 0x7FFFFFFFFFFFFFFF, waiting := false, ready := false })) s1
  let pre := s.hub.preempt.any (fun p => p.ctx == ctx)
  (s2.dropWalks ctx).modHub (fun h => { h with
    launches := h.launches.map (fun l =>
      if l.2.ctx == ctx then (l.1, { l.2 with groups := l.2.placed, stop := some status }) else l)
    gangHold := h.gangHold.filter (fun g => !(tfind h.launches g).any (fun l => l.ctx == ctx))
    resumes := h.resumes.filter (fun r => r.saved.group.ctx != ctx)
    preempt := if pre then none else h.preempt
    prectl := if pre then h.prectl &&& 0x7FFFFFFFFFFFFFFF else h.prectl
    prestat := if pre then prestatOf (h.preempt.map (·.saved) |>.getD 0) 0 else h.prestat })

/-- HALT: it ends when no group of the context is resident. (DEDUCED, log entry 55.) -/
def execHalt (o : Op) (s : State) : Out := .next (s.privWait (.halt o) o (fun _ s1 => s1) (fun L wave ok s0 =>
  let done := fun (s1 : State) (w : Word) => (s1.answer o wave ok [w]).moveTo ok s.cur.next
  if L.tagA = L.g.ctx || (tfind s0.hub.contexts L.tagA).isNone then done s0 2
  else
    let s1 := s0.haltCtx L.tagA 0x8004
    if (s1.groupsOf L.tagA).isEmpty then done s1 0
    else ok.foldl (fun s2 t => s2.wait L.c L.slot t (.halt L.tagA)) s1))

/-! ## LEVYQ (R389) -/

def pairWords (n : Nat) : List Word := [BitVec.ofNat 32 n, BitVec.ofNat 32 (n / 2 ^ 32)]

/-- The word of a vault: of a die without power THR is 1 and TEMP 0x7FFF (R23). -/
def State.vaultWord (s : State) (v : Nat) : Nat :=
  let on := (s.die (v / 64)).powered
  let temp := if on then (BitVec.ofInt 16 (s.vault v).temp).toNat else 0x7FFF
  temp * 65536 + (s.vault v).band * 256 + (if !on || (s.core (2 * v)).hot then 1 else 0)

/-- LEVYQ.vault. -/
def execLevyqVault (o : Op) (s : State) : Out := .next (s.privOp (.levyqVault o) o noCheck (fun L s1 =>
  (pairWords (s1.vaultWord ((L.word (.levyqVault o)).toNat % 256)), s1)))

/-- LEVYQ.acct. -/
def execLevyqAcct (o : Op) (s : State) : Out := .next (s.privOp (.levyqAcct o) o noCheck (fun L s1 =>
  (pairWords (match tfind s1.hub.contexts ((L.word (.levyqAcct o)).toNat % 4096) with | some x => x.account | none => 0), s1)))

/-- LEVYQ.base. -/
def execLevyqBase (o : Op) (s : State) : Out := .next (s.privOp (.levyqBase o) o noCheck (fun L s1 =>
  let tb := (s1.die ((L.word (.levyqBase o)).toNat % 4)).tb
  (pairWords ((BitVec.ofInt 16 tb).toNat * 65536 + s1.hub.floor.toNat % 128), s1)))

/-! ## MBOX (R390, R15, R30, R32, R441) -/

/-- The request in S[A] to S[A + 2]. -/
def Lane.cmd (L : Lane) : Nat := (L.g.sget L.fA).toNat % 256
def Lane.arg1 (L : Lane) : Dword := L.g.sget (L.fA + 1)
def Lane.arg2 (L : Lane) : Dword := L.g.sget (L.fA + 2)
def Lane.keySlot (L : Lane) : Nat := L.arg1.toNat % 128

/-- A request carried out in its step; another command than its own is unknown to it, and in recovery Benuino does not answer. (DEDUCED, log
entry 57.) -/
def State.mboxOp (s : State) (i : Instr) (o : Op) (cmd : Nat) (f : Lane → State → Word × State) : State :=
  s.privOp i o noCheck (fun L s1 =>
    if s1.hub.recovery then ([4], s1)
    else if L.cmd != cmd then ([1], s1)
    else let (w, s2) := f L s1; ([w], s2))

/-- A new key in a slot: what was written under the old one is undefined from now on (R32). (DEDUCED, log entry 10.) -/
def State.newKey (s : State) (slot : Nat) : State :=
  s.modHub (fun h => { h with keys := tset h.keys slot h.keyGen, keyGen := h.keyGen + 1 })

/-- A slab's mode changes: its cells keep their contents (R15). (DEDUCED, log entry 10.) -/
def State.setSlab (s : State) (n : Nat) (die : Bool) : State :=
  s.modHub (fun h => { h with
    slabs := if die then (if h.slabs.contains n then h.slabs else n :: h.slabs) else h.slabs.filter (· != n) })

/-- A slab change that has waited is carried out as it was sent (R390). -/
def State.doneSlab (s : State) : State := (s.hub.slabWait.foldl (fun s1 w => s1.setSlab w.1 w.2) s).freeSlab

/-- SLAB_MODE_CHANGE: MBOX command 0x01. New requests to the slab are held until those accepted are complete. (DEDUCED, log entry 57.) -/
def execSlabModeChange (o : Op) (s : State) : Out := .next (s.privWait (.slabModeChange o) o (fun _ s1 => s1.doneSlab) (fun L wave ok s0 =>
  let n := L.arg1.toNat % 1024
  let mode := L.arg1.getLsbD 16
  let done := fun (s1 : State) (w : Word) => (s1.answer o wave ok [w]).moveTo ok s.cur.next
  if s0.hub.recovery then done s0 4
  else if L.cmd != 1 then done s0 1
  else if 767 < n then done s0 2
  else if s0.slabBusy n then
    ok.foldl (fun s1 t => s1.wait L.c L.slot t (.mbox n)) (s0.modHub (fun h => { h with slabWait := [(n, mode)] }))
  else done (s0.setSlab n mode) 0))

/-- KEY_DRAW: MBOX command 0x02. -/
def execKeyDraw (o : Op) (s : State) : Out := .next (s.mboxOp (.keyDraw o) o 2 (fun L s1 =>
  if L.keySlot = 0 then (2, s1) else (0, s1.newKey L.keySlot)))

/-- KEY_LOAD_WRAPPED: MBOX command 0x03. (DEDUCED, log entry 57.) -/
def execKeyLoadWrapped (o : Op) (s : State) : Out := .next (s.waitSlab (fun s => s.mboxOp (.keyLoadWrapped o) o 3 (fun L s1 =>
  if L.keySlot = 0 || L.arg2.toNat % 16 != 0 then (2, s1)
  else
    match s1.hubLoad 0 L.arg2.toNat 80 with
    | .error s2 => (3, s2)
    | .ok (bs, s2) =>
      if (bs.getD 0 0).toNat % 128 = L.keySlot && bs.getD 1 0 == 1 && Config.unwraps bs then (0, s2.newKey L.keySlot) else (3, s2))))

/-- KEY_CLEAR: MBOX command 0x04. -/
def execKeyClear (o : Op) (s : State) : Out := .next (s.mboxOp (.keyClear o) o 4 (fun L s1 =>
  if L.keySlot = 0 then (2, s1) else (0, s1.modHub (fun h => { h with keys := tdel h.keys L.keySlot }))))

end Sys2Proof.Machine
end

