-- ==== Sys2Proof/Machine/Preempt.lean ====
section
/-! DEFINITION. The forced save and the resumption of a group (13_traps_faults_preemption.md R238 to R242) and their instructions
CTXSV and CTXLD (18_ref_control_system.md R382, R383). -/

namespace Sys2Proof.Machine

/-! ## What a save record holds (R240) -/

/-- A thread as it is saved: an instruction that it has begun and that R241 does not name issues again; a sleep is over (R377), and so
is a job instruction whose job has been accepted, `next` being the PC after it. (DEDUCED, log entry 65.) -/
def Thread.saved (next : Option Dword) (th : Thread) : Thread :=
  match next with
  | some pc => { th with pc := pc, wait := none }
  | none =>
    { th with wait := match th.wait with
        | some ⟨.sleep _, _, _⟩ => none
        | some ⟨k, _, ended⟩ =>
          if ended then some ⟨k, 0, ended⟩
          else (match k with
           | .phase _ _ _ | .swait _ _ | .waitl _ | .signature _ | .halt _ => some ⟨k, 0, ended⟩
           | _ => none)
        | none => none }

/-- A thread as it resumes. (DEDUCED, log entry 65.) -/
def Thread.resumed (now : Nat) (th : Thread) : Thread := { th with wait := th.wait.map (fun w => { w with since := now }) }

/-- The save record of a group. (DESIGN CHOICE, log entry 29.) -/
def State.savedOf (s : State) (c slot : Nat) (g : Group) : Saved :=
  let k := s.core c
  let x := s.cluster (clusterOf c)
  let (base, size) := match tfind k.allocs slot with | some a => (a.base, a.size) | none => (0, 0)
  let mine : Nat → Bool := fun off => base ≤ off && off < base + size
  let next : Nat → Option Dword := fun t =>
    (x.offers.find? (fun f => f.core == c && f.slot == slot && f.tid == t && f.accepted)).map (·.next)
  { group := { g with
      threads := ((List.range g.threads.length).zip g.threads).map (fun t => t.2.saved (next t.1))
      saving := false, ages := [], raises := 0, passed := [], used := 0 }
    ct := k.ct, accs := k.accs.filter (fun a => a.slot == slot && !a.quiet)
    spad := (k.spad.filter (fun e => mine e.1)).map (fun e => (e.1 - base, e.2))
      ++ ((List.range size).filter (fun x => k.zeroed.contains (wayOf (base + x)) &&
          (tfind k.spad (base + x)).isNone)).map (fun x => (x, 0))
    failed := (k.failed.filter mine).map (· - base)
    time := (k.tTab.filter (fun e => mine e.1)).foldl (fun m e => maxD m e.2) k.tFloor
    boards := (List.range g.boards.length).map (fun b => (b, tget Board.reset x.boards (g.boards.getD b 0)))
    unit := g.record.unitAt g.index
    failures := (k.failed.filter mine).filterMap (fun off => (tfind x.failures (c * 0x80000 + off)).map (fun st => (off - base, st)))
    mark := s.free }

/-- The sections of a record, as (offset, bytes): header, threads and operand log, whose layout the spec does not give; vector
registers, their full bits, scratchpad, tiles, scale window, failed bits and T. (DESIGN CHOICE, log entry 29.) -/
def Saved.sections (x : Saved) : List (Nat × Byte) :=
  let g := x.group
  let words := fun (off : Nat) (w : Word) => zipFrom off (leBytes 4 w.toNat)
  let open' := fun (off n : Nat) => (List.range n).map (fun e => (off + e, Config.freeByte (x.mark + off + e)))
  let logs := ((x.accs.filterMap (·.log)).eraseDups).length
  let full := (List.range ((g.threads.length + 31) / 32)).flatMap (fun w => (List.range (g.regLimit (32 * w))).flatMap (fun r =>
    (List.range 4).map (fun e =>
      let off := 0x151000 + 1024 * w + 4 * r + e
      (off, (List.range 8).foldl (fun (b : Byte) q =>
        match g.threads[32 * w + 8 * e + q]? with
        | some th => if th.vEmpty.contains r then b &&& ~~~((1 : Byte) <<< q) else b ||| ((1 : Byte) <<< q)
        | none => b) (Config.freeByte (x.mark + off))))))
  let regs := (List.range g.threads.length).flatMap (fun t =>
    match g.threads[t]? with
    | some th => (List.range (g.regLimit t)).flatMap (fun r =>
        words (0x51000 + 32768 * homeWave t + 128 * r + 4 * homeLane t) (tget 0 th.v r))
    | none => [])
  let tiles := (List.range g.record.tiles).flatMap (fun n =>
    (List.range 4096).flatMap (fun e => words (0x1D9000 + 16384 * n + 4 * e) (tget 0 (tget [] g.x n) e)))
  let scale := (List.range (256 * g.record.scale)).map (fun e => (0x1F9000 + e, tget 0 g.scale e))
  let bits := (List.range (16 * g.record.spad)).map (fun n =>
    (0x1FA000 + n, (List.range 8).foldl (fun (b : Byte) q => if x.failed.contains (8 * (8 * n + q)) then b ||| (1 <<< q) else b) 0))
  open' 0 4096 ++ open' 0x1000 (256 * g.threads.length) ++ open' 0x41000 (2048 * logs) ++ regs ++ full
    ++ x.spad.map (fun e => (0x159000 + e.1, e.2)) ++ tiles ++ scale ++ bits ++ zipFrom 0x1FC000 (leBytes 8 x.time.toNat)
    ++ zipFrom 0x1FC008 (List.replicate 16376 0)

/-- The bytes of a 2 MiB slot become undefined. -/
def State.forget (s : State) (pa : Nat) : State :=
  (List.range 1024).foldl (fun s1 n =>
    match s1.cellOf (pa + 2048 * n) with
    | some cell => { s1 with memory := s1.memory.forget cell 2048 }
    | none => s1) s

/-- A save record is written under key id 0 (R240, R432). (DESIGN CHOICE, log entry 29.) -/
def State.writeSave (s : State) (pa : Nat) (x : Saved) : State :=
  let data := x.sections.map (fun e => (pa + e.1, e.2))
  let s1 := (List.range 8192).foldl (fun s1 n => s1.pull (pa + 256 * n)) s
  ((byLines data).foldl (fun s2 d =>
    match d with
    | [] => s2
    | e :: _ => s2.hubStore true 0 e.1 d) (s1.forget pa)).modHub (fun h => { h with saves := tset h.saves pa x })

/-- A 2 MiB slot holds what a save wrote: its sections read back; the rest of the slot is open. (DESIGN CHOICE, log entry 29.) -/
def State.unaltered (s : State) (pa : Nat) (x : Saved) : Bool := x.sections.all (fun e => s.byteAt 0 (pa + e.1) == some e.2)

/-- A 2 MiB slot holds a part of what a save wrote. (DESIGN CHOICE, log entry 29.) -/
def State.partOf (s : State) (pa : Nat) (x : Saved) : Bool := x.sections.any (fun e => s.byteAt 0 (pa + e.1) == some e.2)

/-! ## FORCED_SAVE -/

/-- What a save waits for (R240): accesses that are neither parked nor held, special-function results, plane-array operations, late work,
accepted jobs and tile requests. A job instruction whose jobs are not accepted yet waits at issue (R107): its offers go with the group, and
it issues again. -/
def State.saveBusy (s : State) (c slot : Nat) : Bool :=
  let k := s.core c
  k.accs.any (fun a => a.slot == slot && !a.quiet && (match a.phase with | .parked | .held => false | _ => true))
    || (s.cluster (clusterOf c)).jobs.any (fun j => j.core == c && j.slot == slot)
    || k.sfuQ.any (fun q => q.2.any (fun w => w.any (fun x => x.slot == slot)))
    || k.plane.any (fun p => p.slot == slot) || k.planeQ.any (fun p => p.slot == slot) || k.late.any (fun e => e.slot == slot)
    || s.net.any (fun m => match m.2 with
        | .dq c1 g1 _ _ _ _ _ | .dqAnswer c1 g1 _ _ _ _ _ => c1 == c && g1 == slot
        | _ => false)

/-- PRESAVE's BASE, and save k's address. -/
def Hub.saveAddr (h : Hub) (k : Nat) : Nat := (h.presave.extractLsb' 21 31).toNat * 0x200000 + 0x200000 * k

/-- The groups of a unit that a resumption brings together: those resident or saved in this pre-emption. (DEDUCED, log entry 66.) -/
def State.unitCount (s : State) (launch unit groups : Nat) : Nat :=
  let here := s.cores.flatMap (fun c => (c.2.slots.filter (fun g => g.2.launch == launch && !g.2.finished)).map (fun g => g.2.index))
  let saved := match s.hub.preempt with
    | some p => (List.range p.next).filterMap (fun k => (tfind s.hub.saves (s.hub.saveAddr k)).bind (fun x =>
        if x.group.launch = launch then some x.group.index else none))
    | none => []
  (((here ++ saved).eraseDups).filter (fun i => i / groups == unit)).length

/-- FORCED_SAVE (R240). A group whose threads have all exited ends instead. -/
def execForcedSave (c slot : Nat) (s : State) : Out :=
  match s.group? c slot, s.hub.preempt with
  | some g, some p =>
    if !g.saving || g.ctx != p.ctx || g.finished || s.saveBusy c slot then .next s
    else .next (s.waitSlab (fun s =>
      let x0 := s.savedOf c slot g
      let x := { x0 with unit := x0.unit.map (fun u => (u.1, s.unitCount g.launch u.1 u.2)) }
      let s1 := (({ s with free := s.free + 0x200000 }.writeSave (s.hub.saveAddr p.next) x).modHub (fun h => { h with
        preempt := some { p with saved := p.saved + 1, next := p.next + 1 }, prestat := prestatOf (p.saved + 1) 2 })).cvLeave c slot
      let key := boardKey g.launch g.record g.index
      let others := s1.cores.any (fun k => clusterOf k.1 == clusterOf c && k.2.slots.any (fun e =>
        !(k.1 == c && e.1 == slot) && boardKey e.2.launch e.2.record e.2.index == key))
      (s1.removeGroup c slot (!others)).preemptEnd))
  | _, _ => .next s

/-! ## Resumption (R241, R242) -/

/-- An altered record: its registers, scratchpad, tiles and PCs are undefined, confined to its context. (DESIGN CHOICE, log entry 29.) -/
def Saved.scramble (x : Saved) (n : Nat) : Saved :=
  let word := fun (a b : Nat) => Config.freeWord (n + 4096 * a + b)
  let g := x.group
  { x with
    spad := [], accs := []
    group := { g with
      x := []
      s := (List.range 64).foldl (fun t r => tset t r (pairOf (word 4000 r) (word 4001 r))) []
      threads := (List.range g.threads.length).map (fun t =>
        match g.threads[t]? with
        | some th => { th with
            v := (List.range 256).foldl (fun v r => tset v r (word t r)) [], pc := pairOf (word t 256) (word t 257), fresh := true }
        | none => Thread.start 0 0) } }

/-- The record at an address, and whether it is as its save left it: a save that stands there unaltered, wherever it was written; else the
one that was written there, or one of which a part stands there. (DESIGN CHOICE, log entry 29.) -/
def State.recordFor (s : State) (pa : Nat) : Option (Saved × Bool) :=
  match s.hub.saves.find? (fun e => s.unaltered pa e.2) with
  | some e => some (e.2, true)
  | none =>
    match tfind s.hub.saves pa with
    | some x => some (x, false)
    | none => (s.hub.saves.find? (fun e => s.partOf pa e.2)).map (fun e => (e.2, false))

/-- CTXLD's record (R383): accepted into the dispatcher, or refused. (DESIGN CHOICE, log entry 29.) -/
def State.acceptRecord (s : State) (pa : Nat) : Word × State :=
  match s.recordFor pa with
  | none => (2, s)
  | some (x, ok) =>
    let g := x.group
    match tfind s.hub.launches g.launch with
    | none => (2, s)
    | some l =>
      let key := x.unit.map (fun u => (g.ctx, l.addr.toNat, u.1))
      if g.threads.isEmpty || 1024 < g.threads.length || l.halted
          || (key.isSome && s.hub.resumes.any (fun r => r.key == key && r.saved.group.index == g.index)) then (2, s)
      else
        let y := if ok then x else x.scramble s.free
        let r : Resume := { saved := y, key := key, size := match x.unit with | some u => u.2 | none => 1 }
        (0, { s with free := if ok then s.free else s.free + 4096 * 4096 }.modHub (fun h => { h with resumes := h.resumes ++ [r] }))

/-- A core has what a saved group takes (R218, R124), and the numbers of its log entries are free. (DEDUCED, log entries 65 and 66.) -/
def State.resumeFits (s : State) (c : Nat) (x : Saved) : Bool :=
  let k := s.core c
  let r := x.group.record
  s.coreFits c { r with regs := 0 } && x.group.blocks ≤ k.freeBlocks
    && x.accs.all (fun a => a.log.all (fun e => !(k.accs.any (fun b => b.log == some e))))

/-- A core is a candidate for a saved group, given where the groups of its unit have been put in this step. -/
def State.resumeCandidate (s : State) (x : Saved) (mates : List (Nat × Nat)) (c : Nat) : Bool :=
  let g := x.group
  let same := fun (d : Nat) => match g.record.unitGroups d with
    | some (_, n) => mates.filter (fun (m : Nat × Nat) => m.1 / n == g.index / n) | none => []
  let key := boardKey g.launch g.record g.index
  let k := s.cluster (clusterOf c)
  s.resumeFits c x && (same 3).all (fun m => clusterOf m.2 == clusterOf c) && (same 4).all (fun m => dieOf m.2 == dieOf c)
    && (x.boards.isEmpty || !(k.boardsOf key).isEmpty || x.boards.length ≤ k.freeBoards.length)

/-- The boards of a unit restored into free boards of a cluster, or those that its first group has brought (R208, R242). -/
def State.restoreBoards (s : State) (c : Nat) (x : Saved) : List Nat × State :=
  let key := boardKey x.group.launch x.group.record x.group.index
  let k := s.cluster (clusterOf c)
  let have' := k.boardsOf key
  if x.boards.isEmpty || !have'.isEmpty then (have', s)
  else
    let bs := k.freeBoards.take x.boards.length
    (bs, s.modCluster (clusterOf c) (fun y => { y with
      boards := (bs.zip x.boards).foldl (fun t e => tset t e.1 { e.2.2 with owner := some key, waiters := [] }) y.boards }))

/-- A resumed group rejoins its convoy, or makes it again if there is room; it is present at once only where no member is (R66, R61).
(DEDUCED, log entry 65.) -/
def State.cvRejoin (s : State) (c g : Nat) : State :=
  match s.group? c g with
  | none => s
  | some x =>
    let id := x.cv.id.toNat
    let y := s.convoy (cvKey x.ctx id)
    if x.cv.id = 0 then s
    else if y.members.isEmpty && 4096 ≤ s.hub.convoys.length then
      s.setGroup c g { x with cv := { x.cv with id := 0, count := 0, cause := 0, shed := false } }
    else
      let s1 := s.cvPut x.ctx id { y with members := y.members ++ [(c, g)] } (s.lowOf y.present) []
      if y.present.isEmpty then s1.cvReturn c g else s1

/-- Walks answer a saved access at the core where its group now is. -/
def State.renameWaiters (s : State) (ids : List Nat) (c : Nat) : State :=
  let f : Walk → Walk := fun w => { w with waiters := w.waiters.map (fun q =>
    match q with | .acc c0 id => if ids.contains id then .acc c id else .acc c0 id | _ => q) }
  { s with dies := s.dies.map (fun d => (d.1, { d.2 with
      queue := d.2.queue.map f, active := d.2.active.map f, parked := d.2.parked.map f })) }

/-- A saved group is placed on a core with all that its record holds (R241, R82, R115); undefined bytes of its scratchpad are free
values again. (DESIGN CHOICE, log entry 29; DEDUCED, log entry 65.) -/
def State.putSaved (s : State) (c : Nat) (x : Saved) : State :=
  match firstFree ((s.core c).slots.map (·.1)) 64 with
  | none => s
  | some slot =>
    let (boards, s1) := s.restoreBoards c x
    let size := 1024 * x.group.record.spad
    let s2 := if size = 0 then s1 else s1.modCore c (·.allocate slot x.group.ctx size x.group.record.rot)
    let base := match tfind (s2.core c).allocs slot with | some a => a.base | none => 0
    let way := fun (off : Nat) => base ≤ off && off < base + size
    let s3 := s2.modCore c (fun k => { k with
      spad := (List.range size).foldl (fun t off => tset t (base + off) ((tfind x.spad off).getD (Config.freeByte (s.free + off))))
        (k.spad.filter (fun e => !way e.1))
      failed := k.failed ++ x.failed.map (· + base)
      tFloor := maxD k.tFloor x.time
      ct := maxD k.ct x.ct
      accs := k.accs ++ x.accs.map (fun a => { a with slot := slot }) })
    let g := { x.group with
      boards := boards, quad := slot % 4, threads := x.group.threads.map (Thread.resumed (s.now c)) }
    let s3a := s3.modCluster (clusterOf c) (fun k => { k with
      failures := x.failures.foldl (fun t e => tset t (c * 0x80000 + base + e.1) e.2) k.failures })
    let s4 := (({ s3a with free := s3.free + size }.setGroup c slot g).renameWaiters (x.accs.map Acc.id) c).cvRejoin c slot
    let s5 := s4.modHub (fun h =>
      match tfind h.launches g.launch with
      | some l => { h with launches := tset h.launches g.launch { l with
          cores := l.moved g.index c, ran := if l.ran.contains c then l.ran else l.ran ++ [c] } }
      | none => h)
    (List.range g.threads.length).foldl (fun s6 t => s6.settle c slot t) s5

/-- Groups of a list that belong to the unit of the first at a domain. -/
def sameUnit (domain : Nat) (x : Saved) (xs : List Saved) : Nat :=
  match x.group.record.unitGroups domain with
  | some (_, n) => ((x :: xs).filter (fun y => y.group.index / n == x.group.index / n)).length
  | none => 0

/-- All of some saved groups placed, or none: there are no places for all. Each takes the first core by R219 with which the rest find
theirs (R242). (DESIGN CHOICE, log entry 51.) -/
def State.putAllSaved (s : State) (mates : List (Nat × Nat)) : List Saved → Option State
  | [] => some s
  | x :: xs =>
    let r := x.group.record
    (s.rankPlaces x.group.ctx r (fun c => s.resumeCandidate x mates c
      && s.leavesRoom { r with regs := 0 } (sameUnit 3 x xs) (sameUnit 4 x xs) c)).findSome?
        (fun c => (s.putSaved c x).putAllSaved ((x.group.index, c) :: mates) xs)

/-- Resumes by rising group index. -/
def insertIndex (r : Resume) : List Resume → List Resume
  | [] => [r]
  | q :: t => if r.saved.group.index ≤ q.saved.group.index then r :: q :: t else q :: insertIndex r t

/-- A held record with the others of its unit, by rising group index. -/
def State.unitWith (s : State) (r : Resume) : List Resume :=
  if r.key.isNone then [r] else (s.hub.resumes.filter (fun q => q.key == r.key)).foldl (fun l q => insertIndex q l) []

/-- A record is to be tried: its unit is whole and has not been tried since the last group's end or temperature sample, its context may
have places, and no waiting gang keeps them (R221, R242, R244). (DEDUCED, log entry 66.) -/
def State.mayResume (s : State) (r : Resume) : Bool :=
  let unit := s.unitWith r
  r.size ≤ unit.length && unit.any (fun q => !q.tried) && !s.noPlaces r.saved.group.ctx
    && !((tfind s.hub.launches r.saved.group.launch).any (fun l => !l.record.gang && s.gangHolds l))

/-- The first held record, with its whole unit, that can be placed now. (DEDUCED, log entry 66.) -/
def State.nextResume (s : State) : Option State :=
  (s.hub.resumes.filter s.mayResume).findSome? (fun r =>
    let unit := s.unitWith r
    (s.modHub (fun h => { h with resumes := h.resumes.filter (fun q => !unit.contains q) })).putAllSaved
      (s.residents r.saved.group.launch) (unit.map (·.saved)))

/-- GROUP_RESUME_PLACE (R241, R242). -/
def execGroupResumePlace (s : State) : Out :=
  match s.nextResume with
  | some t => .next t
  | none => .next (s.modHub (fun h => { h with resumes := h.resumes.map (fun r => if s.mayResume r then { r with tried := true } else r) }))

/-! ## CTXSV and CTXLD -/

/-- CTXSV (R382). (DEDUCED, log entry 56.) -/
def execCtxsv (o : Op) (s : State) : Out := .next (s.privOp (.ctxsv o) o noCheck (fun L s1 =>
  let a := L.g.sget L.fA
  let ctx := (a.extractLsb' 0 12).toNat
  let st := s1.hub.prestat.toNat % 4
  if st = 1 || st = 2 || !s1.liveCtx ctx || ctx = L.g.ctx then ([2], s1)
  else ([0], (s1.hubWrite false 0x1008 (L.srcBd (.ctxsv o))).writePrectl (a ||| 0x8000000000000000))))

/-- CTXSV.st (R382). -/
def execCtxsvSt (o : Op) (s : State) : Out := .next (s.privOp (.ctxsvSt o) o noCheck (fun _ s1 =>
  (pairWords s1.hub.prestat.toNat, s1)))

/-- CTXLD (R383). -/
def execCtxld (o : Op) (s : State) : Out := .next (s.waitSlab (fun s => s.privOp (.ctxld o) o noCheck (fun L s1 =>
  let pa := ((L.g.sget L.fA).extractLsb' 21 31).toNat * 0x200000
  let (w, s2) := (s1.touchSlab pa).acceptRecord pa
  ([w], s2))))

end Sys2Proof.Machine
end

