-- ==== Sys2Proof/Machine/Thermal.lean ====
section
/-! DEFINITION. Sensors, refresh bands, throttles and thermal trips (01_stacked_vaults.md R18, R20 to R25), the bandwidth accounts
(12_scheduling_and_placement.md R220) and the restoration of a die (R23). Temperatures are in quarters of a degree. -/

namespace Sys2Proof.Machine

/-! ## Bands (R20, R21) -/

/-- The highest band whose threshold a reading exceeds. -/
def bandAbove (t : Int) : Nat := if 420 < t then 3 else if 380 < t then 2 else if 340 < t then 1 else 0

/-- A band's entry threshold. -/
def bandEntry (b : Nat) : Int := if b = 3 then 420 else if b = 2 then 380 else 340

/-- The band after a sample. -/
def bandAfter (b : Nat) (t : Int) : Nat :=
  if b < bandAbove t then bandAbove t else if 0 < b && t ≤ bandEntry b - 8 then b - 1 else b

/-- THERM, for a change of band or a throttle (R387). -/
def State.therm (s : State) : State := s.raiseEvent 3

/-- The two cores beneath a vault begin or end their throttle (R22). -/
def State.throttle (s : State) (v : Nat) (t : Int) : State :=
  let now := (s.core (2 * v)).hot
  let new := if 460 < t then true else if t ≤ 440 then false else now
  if new = now then s
  else ((s.modCore (2 * v) (fun k => { k with hot := new })).modCore (2 * v + 1) (fun k => { k with hot := new })).therm

/-! ## A thermal trip (R23) -/

/-- The contexts with state on a die. (DEDUCED, log entry 71.) -/
def State.ctxsOn (s : State) (d : Nat) : List Nat :=
  let cores := s.cores.filter (fun c => dieOf c.1 == d)
  let clusters := s.clusters.filter (fun k => k.1 / 8 == d)
  (cores.flatMap (fun c => c.2.slots.map (fun g => g.2.ctx) ++ c.2.allocs.map (fun a => a.2.ctx))
    ++ (s.die d).parked.map (·.ctx) ++ clusters.flatMap (fun k => k.2.jobs.map (·.ctx))).eraseDups

/-- A message that is on its way to a core or unit of a die. -/
def Msg.goesTo (d : Nat) : Msg → Bool
  | .tlbMiss x _ => x == d
  | .reflect k _ _ _ _ => k / 8 == d
  | .renewReply c _ _ _ _ _ _ | .ack c _ _ _ _ _ _ _ _ | .exclGrant c _ _ _ _ | .exclRecall c _ _ | .dqAnswer c _ _ _ _ _ _ => dieOf c == d
  | .mirror k _ _ => k / 8 == d
  | _ => false

/-- The poisoned data that a lost die's reads complete with. -/
def poisonGot : Got := { bytes := List.replicate 256 0, wts := 0, rts := 0, poison := 0xF }

/-- What waits at a lost vault completes: reads as poisoned, held requests as R23 says. (DEDUCED, log entry 71.) -/
def State.loseVault (s : State) (v : Nat) : State :=
  let x := s.vault v
  let s1 := s.setVault v Vault.reset
  let s2 := x.umbras.foldl (fun s2 u => s2.reflect u.pa u.key u.reqs poisonGot) s1
  let s3 := x.waiting.foldl (fun s3 r => s3.reflect r.pa r.key [r] poisonGot) s2
  x.excls.foldl (fun s4 e => e.held.foldl State.release s4) s3

/-- A line that a lost core owned comes back without its data. (DEDUCED, log entry 71.) -/
def State.loseOwner (s : State) (e : Excl) : State :=
  match s.homeCell e.pa with
  | some cell =>
    let (w, r) := s.times cell
    s.returnExcl e.pa e.key 0 { bytes := [], wts := w, rts := r, poison := 0 }
  | none => s

/-- A thermal trip of a die, steps 1 to 3 of R23. (DEDUCED, log entry 71.) -/
def State.trip (s : State) (d : Nat) : State :=
  let s1 := (s.raiseMsix 5).therm
  let s2 := (s1.ctxsOn d).foldl (fun s2 ctx => s2.haltCtx ctx (BitVec.ofNat 64 (d * 65536 + 0x8005))) s1
  let gone := s2.cores.flatMap (fun c => if dieOf c.1 == d then c.2.slots.map (fun g => (c.1, g.1)) else [])
  let s3 := gone.foldl (fun s3 e => (s3.cvLeave e.1 e.2).removeGroup e.1 e.2 true) s2
  let s4 : State := { s3 with
    cores := s3.cores.filter (fun c => dieOf c.1 != d), clusters := s3.clusters.filter (fun k => k.1 / 8 != d)
    memory := s3.memory.loseDie d, errors := s3.errors.filter (fun e => !onDie d (64 * e.1)) }
  let s5 := s4.modDie d (fun x => { Die.reset with
    powered := false, tb := x.tb, tbKnown := x.tbKnown, fqcfg := x.fqcfg, fqcfgNext := x.fqcfgNext, fqtail := x.fqtail
    fqhead := x.fqhead, wresume := x.wresume })
  let s6 := (List.range 64).foldl (fun s6 n => s6.loseVault (64 * d + n)) s5
  let s7 := { s6 with net := s6.net.filter (fun m => !(m.2.goesTo d)) }
  (s7.vaults.flatMap (fun v => v.2.excls.filter (fun e => dieOf e.core == d))).foldl State.loseOwner s7

/-- TEMP_SAMPLE (R20 to R23). (DESIGN CHOICE, log entry 63.) -/
def execTempSample (v : Nat) (t : Int) (s : State) : Out :=
  if 256 ≤ v || !(s.die (v / 64)).powered then .next s
  else
    let x := s.vault v
    let b := bandAfter (x.pending.getD x.band) t
    let s1 := s.setVault v { x with temp := t, pending := if b = x.band then none else some b }
    let s2 := s1.throttle v t
    .next (if 500 < t then s2.trip (v / 64) else s2)

/-- BAND_CHANGE: the band takes effect at the next refresh boundary (R21). -/
def execBandChange (v : Nat) (s : State) : Out :=
  let x := s.vault v
  match x.pending with
  | some b => .next (s.setVault v { x with band := b, pending := none }).therm
  | none => .next s

/-! ## PATROL_SCRUB (R18, R19) -/

/-- An uncorrectable error in a sector of a vault, by number. (DESIGN CHOICE, log entry 76.) -/
def State.poisonSector (s : State) (v n : Nat) : State :=
  let cell := v * 0x100000000 + 64 * n
  let x := s.side (cell / 256)
  if 0xC0000000 ≤ 64 * n || x.poison.getLsbD (n % 4) then s
  else (s.setSide (cell / 256) { x with poison := x.poison ||| (1 <<< (n % 4)) }).reportPoison (cell / 256 * 256) (n % 4)

/-- The errors that stand in a vault's stacked lines are found. -/
def State.scrub (s : State) (v : Nat) : State :=
  (s.errors.filter (fun e => 64 * e.1 < farCell && vaultOf (64 * e.1) == v)).foldl (fun s1 e =>
    s1.findErrors (64 * e.1 / 256 * 256) (1 <<< (e.1 % 4))) s

/-- PATROL_SCRUB: every line of the vault is read. Besides the errors that State holds, `corrected` words are corrected, and the sectors
`bad` hold uncorrectable errors. -/
def execPatrolScrub (v corrected : Nat) (bad : List Nat) (s : State) : Out :=
  if 256 ≤ v || !(s.die (v / 64)).powered then .next s
  else .next (bad.foldl (fun s1 n => s1.poisonSector v n) ((s.scrub v).modVault v (fun x => { x with errors := x.errors + corrected })))

/-! ## BASE_TEMP_REPORT (R25, R220) -/

/-- The levy of a resident group, in thousandths of 512 GB/s: its core with the group counted against the core without it. (DEDUCED, log
entry 59.) -/
def State.groupLevy (s : State) (c slot : Nat) : Nat :=
  let k := clusterOf c
  let tb := (s.die (dieOf c)).tb
  let rest := ((s.core c).slots.filter (fun g => g.1 != slot)).map (fun g => g.2.record.heat)
  let alone := if rest.isEmpty then 1 else 4 * (rest.foldl max 0 + 1)
  let p1 := fun (i : Nat) => s.heatOf (16 * k + i) []
  let p0 := fun (i : Nat) => if 16 * k + i = c then alone else p1 i
  ((List.range 8).map (fun w => bandShare (predict8 tb w p1) - bandShare (predict8 tb w p0))).sum

/-- The accounts of a sample: GB/s × 32 µs in kilobytes. (DEDUCED, log entry 59.) -/
def State.chargeLevies (s : State) : State :=
  s.modHub (fun h => { h with contexts := h.contexts.map (fun x =>
    let n := ((s.groupsOf x.1).map (fun e => s.groupLevy e.1 e.2)).sum
    (x.1, { x.2 with account := min (x.2.account + n * 16384 / 1000) (2 ^ 64 - 1) })) })

/-- BASE_TEMP_REPORT. (DEDUCED, log entry 67.) -/
def execBaseTempReport (s : State) : Out :=
  .next (s.outside.baseTemp.foldl (fun s1 e =>
    if 4 ≤ e.1 then s1 else s1.modDie e.1 (fun x => { x with tb := e.2, tbKnown := true })) s).chargeLevies.retryPlaces

/-! ## DIE_RESTORE (R23) -/

/-- DIE_RESTORE: the die that the host names, once its edge reads below 85 °C; Benuino restores none in recovery (R438). (DEDUCED, log entry
71.) -/
def execDieRestore (s : State) : Out :=
  let d := s.outside.die
  if 4 ≤ d || s.hub.recovery || (s.die d).powered || 340 ≤ (s.die d).tb then .next s
  else
    let ct := s.cores.foldl (fun m c => if dieOf c.1 = d then m else maxD m c.2.ct) 0
    let s1 := s.modDie d (fun x => { x with powered := true, tlb := [] })
    let s2 := (List.range 128).foldl (fun s2 n => s2.setCore (128 * d + n) { Core.reset with ct := ct }) s1
    let s3 := (List.range 8).foldl (fun s3 n => s3.setCluster (8 * d + n) Cluster.reset) s2
    let s4 := (List.range 64).foldl (fun s4 n => s4.setVault (64 * d + n) Vault.reset) s3
    .next ({ s4 with memory := s4.memory.restoreDie d }.mailAnswer (leBytes 8 0))

end Sys2Proof.Machine
end

