-- ==== Sys2Proof/Machine/Power.lean ====
section
/-! DEFINITION. Power budgets and pace (25_power_and_clocks.md R417 to R423), energy quotas (13_traps_faults_preemption.md R243,
R244) and the tick (05_logical_time.md R82). -/

namespace Sys2Proof.Machine

/-! ## TOKEN_EXCHANGE (R417 to R419) -/

/-- The partition of a cluster: the lowest whose mask names it. -/
def Hub.partitionOf (h : Hub) (k : Nat) : Option Nat := (List.range 8).find? (fun p => (tget 0 h.pmap p).getLsbD k)

/-- The clusters of a partition, on one die or on all. -/
def Hub.clustersOf (h : Hub) (p : Nat) : List Nat := (List.range 32).filter (fun k => h.partitionOf k == some p)

/-- Watts split over dies in proportion to their weights, rounded down. (DEDUCED, log entry 61.) -/
def splitWatts (total : Nat) (weights : List Nat) : List Nat :=
  let sum := weights.sum
  weights.map (fun w => if sum = 0 then 0 else total * w / sum)

/-- Leftover watts given to entry n. -/
def giveTo (l : List Nat) (n w : Nat) : List Nat := modAt (· + w) l n

/-- A partition's floor as the dies get it. (DEDUCED, log entry 61.) -/
def floorShare (h : Hub) (demand : List Nat) (p : Nat) : List Nat :=
  let ks := h.clustersOf p
  let of := fun (d : Nat) => ((ks.filter (fun k => k / 8 == d)).map (fun k => demand.getD k 0)).sum
  let weights := (List.range 4).map of
  let g := min (tget 0 h.pfloor p) weights.sum
  let parts := splitWatts g weights
  match (List.range 4).find? (fun d => ks.any (fun k => k / 8 == d)) with
  | some d => giveTo parts d (g - parts.sum)
  | none => parts

def addLists (a b : List Nat) : List Nat := (List.range 4).map (fun d => a.getD d 0 + b.getD d 0)

/-- What dies get beyond their floors where the rest, which may be below 0, does not cover the unmet demand: split in proportion to it, or
to the floors where there is none, rounded down; leftover watts to die 0, 1 and so on. (DEDUCED, log entry 61.) -/
def splitRest (rem : Int) (unmet floors : List Nat) : List Int :=
  let weights := if unmet.sum = 0 then floors else unmet
  let parts := weights.map (fun (w : Nat) => Int.fdiv (rem * (w : Int)) (weights.sum : Int))
  let left := (rem - parts.sum).toNat
  (List.range 4).map (fun d => parts.getD d 0 + (if d < left then 1 else 0))

/-- The grants of an exchange. (DEDUCED, log entry 61.) -/
def grantsOf (h : Hub) (m : Meters) : List Nat :=
  let floors := (List.range 8).foldl (fun a p => addLists a (floorShare h m.clusterDemand p)) [0, 0, 0, 0]
  let rem : Int := (max h.pcap h.idle : Int) - m.hubPower - floors.sum
  let unmet := (List.range 4).map (fun d => m.dieDemand.getD d 0 - floors.getD d 0)
  if (unmet.sum : Int) ≤ rem then (List.range 4).map (fun d => m.dieDemand.getD d 0)
  else (List.range 4).map (fun d => ((floors.getD d 0 : Int) + (splitRest rem unmet floors).getD d 0).toNat)

/-- The pace after a die has metered P at pace p against a grant G. (DEDUCED, log entry 61.) -/
def paceAfter (p power grant : Nat) : Nat := if grant < power then max 1 (p * grant / power) else min 8 (p + 1)

/-- A grant less what a skew takes, a tenth at most, and with what it gives (R423). (DESIGN CHOICE, log entry 60.) -/
def Die.budget (x : Die) (grant : Nat) : Nat := grant - min x.cut (grant / 10) + x.raised

/-- TOKEN_EXCHANGE: a write to PCAP or PFLOOR takes effect, grants are made, each die sets its pace, and a new interval begins. (DESIGN
CHOICE, log entry 63.) -/
def execTokenExchange (s : State) : Out :=
  let m := s.outside.meters
  let s1 := s.modHub (fun h => { h with
    pcap := h.pcapReg, pcapNext := none, pfloor := (List.range 8).foldl (fun t k => tset t k (h.pfloorReg k)) h.pfloor
    pfloorNext := [], hpwr := m.hubPower, pstat := m.pkgPower })
  let gs := grantsOf s1.hub m
  .next ((List.range 4).foldl (fun s2 d => s2.modDie d (fun x => { x with
    power := m.diePower.getD d 0, grant := x.budget (gs.getD d 0), leavers := []
    pace := paceAfter x.pace (m.diePower.getD d 0) (x.budget (gs.getD d 0)) })) s1)

/-- IDLE_FLOOR_MEASURE (R420): a cap that now lies below the floor is clamped. -/
def execIdleFloorMeasure (s : State) : Out :=
  .next (s.modHub (fun h => { h with idle := s.outside.idle, unatt := h.unatt || h.pcapReg < s.outside.idle }))

/-- Whether a communicator has 16 or more packages (R423), with the state that reading the table leaves. (DESIGN CHOICE, log entry 60.) -/
def State.largeComm (s : State) : Bool × State :=
  (List.range 256).foldl (fun acc c =>
    if !acc.2.hub.commcfg.getLsbD 63 then acc
    else match acc.2.hubLoad 0 ((acc.2.hub.commcfg.extractLsb' 12 40).toNat * 4096 + 16 * c) 8 with
    | .ok (bs, s1) => let e := dwAt bs 0; (acc.1 || (e.getLsbD 63 && 16 ≤ (e.extractLsb' 32 16).toNat), s1)
    | .error s1 => (acc.1, s1)) (false, s)

/-- ARRIVAL_SKEW_REBALANCE (R423): from the next exchange on, and until Benuino decides anew, the grants of this package's dies are lowered,
where it arrives early, by a tenth at most, and raised, where it is late, by watts that others gave up. (DESIGN CHOICE, log entry 60.) -/
def execArrivalSkewRebalance (s : State) : Out :=
  .next (s.waitSlab (fun s =>
    let (large, s0) := s.largeComm
    if !large then s0
    else (List.range 4).foldl (fun s1 d => s1.modDie d (fun x => { x with
      cut := ((s.outside.early.filter (fun e => e.1 == d)).map (·.2)).sum, raised := s.outside.late.getD d 0 })) s0))

/-! ## Quotas (R243, R244) -/

/-- Energy charged to an account, in nJ; the context is held once SPENT reaches ENERGY. -/
def Ctx.charge (x : Ctx) (nj : Nat) : Ctx :=
  { x with spent := x.spent + nj, held := x.held || (x.period != 0 && x.energy ≤ x.spent + nj) }

/-- A context charged; one that is held from now on leaves its work on the dies of its groups (R422). -/
def State.charge (s : State) (ctx nj : Nat) : State :=
  match tfind s.hub.contexts ctx with
  | none => s
  | some x =>
    let s1 := s.modHub (fun h => { h with contexts := tset h.contexts ctx (x.charge nj) })
    if x.held || !(x.charge nj).held then s1
    else (((s.groupsOf ctx).map (fun e => dieOf e.1)).eraseDups).foldl (fun s2 d =>
      s2.modDie d (fun y => { y with leavers := (ctx :: y.leavers).eraseDups })) s1

/-- Energy divided in proportion to weights, rounded down, the rest to the first that has a weight; what has none takes no part. (DESIGN
CHOICE, log entry 63.) -/
def divide (nj : Nat) (weights : List (Nat × Nat)) : List (Nat × Nat) :=
  let ws := weights.filter (·.2 != 0)
  let parts := ws.map (fun w => (w.1, nj * w.2 / (ws.map (·.2)).sum))
  match (if nj = 0 then [] else parts) with
  | (c, n) :: t => (c, n + (nj - (parts.map (·.2)).sum)) :: t
  | [] => []

/-- The charges of an interval, as (context, nJ): each core's energy by the issue opportunities its groups used, each job's, the vaults'
and the colander's by bytes requested (R243), and each die's filler operations (R422). (DESIGN CHOICE, log entry 63.) -/
def State.charges (s : State) : List (Nat × Nat) :=
  let e := s.outside.energy
  e.cores.flatMap (fun c => divide c.2 ((s.core c.1).slots.map (fun g => (g.2.ctx, g.2.used))))
    ++ e.jobs.flatMap (fun j =>
      ((s.cluster j.1).jobs.filter (fun x => x.ticket == j.2.1)).map (fun x => (x.ctx, j.2.2))
        ++ ((s.cluster j.1).past.filter (fun x => x.ticket == j.2.1)).map (fun x => (x.ctx, j.2.2)))
    ++ divide e.memory (s.hub.contexts.map (fun x => (x.1, x.2.bytes)))
    ++ e.filler.flatMap (fun f => if (s.die f.1).filler then divide f.2 (s.die f.1).fillCtx else [])

/-- ENERGY_CHARGE: every 1 µs each context is charged with what it has used (R243). (DESIGN CHOICE, log entry 63.) -/
def execEnergyCharge (s : State) : Out :=
  .next (s.charges.foldl (fun s1 e => s1.charge e.1 e.2)
    { s with
      cores := s.cores.map (fun k => (k.1, { k.2 with slots := k.2.slots.map (fun g => (g.1, { g.2 with used := 0 })) }))
      hub := { s.hub with contexts := s.hub.contexts.map (fun x => (x.1, { x.2 with bytes := 0 })) } })

/-- QUOTA_PERIOD_BOUNDARY (R244): every PERIOD µs. (DESIGN CHOICE, log entry 63.) -/
def execQuotaPeriodBoundary (ctx : Nat) (s : State) : Out :=
  .next (s.modHub (fun h =>
    match tfind h.contexts ctx with
    | some x =>
      if x.period = 0 || h.cycles < x.boundary then h
      else
        let left := x.spent - x.energy
        { h with contexts := tset h.contexts ctx { x with
            spent := left, held := x.held && x.energy ≤ left, boundary := x.boundary + 1000 * x.period } }
    | none => h))

/-! ## Filler operations (R421, R422) -/

/-- A context is held and has groups on a die (R422, R425). (DEDUCED, log entry 61.) -/
def State.heldOn (s : State) (d ctx : Nat) : Bool :=
  (tfind s.hub.contexts ctx).any (·.held) && (s.groupsOf ctx).any (fun e => dieOf e.1 == d)

/-- FILLER_ISSUE: a die's demand drops too fast; `falls` gives contexts' falls in metered power. Those whose groups ended on the die in this
interval, or were or are held there, pay for it; a drop while filler runs adds its own. Filler operations change nothing that a program
sees. (DEDUCED, log entry 61.) -/
def execFillerIssue (d : Nat) (falls : List (Nat × Nat)) (s : State) : Out :=
  if 4 ≤ d || !(s.die d).powered then .next s
  else .next (s.modDie d (fun x => { x with
    filler := true, fillCtx := x.fillCtx ++ falls.filter (fun e => x.leavers.contains e.1 || s.heldOn d e.1), leavers := [] }))

/-- FILLER_SETTLED: the current has settled, and the energy since the last charge, in nJ, is charged in proportion to the falls. (DEDUCED,
log entry 61.) -/
def execFillerSettled (d energy : Nat) (s : State) : Out :=
  let x := s.die d
  if !x.filler then .next s
  else .next ((divide energy x.fillCtx).foldl (fun s1 e => s1.charge e.1 e.2) (s.setDie d { x with filler := false, fillCtx := [] }))

/-! ## TICK (R82) -/

/-- TICK: once for each 64 front cycles of a cluster, ct + 1 at each of its cores. -/
def State.tick (s : State) (k : Nat) : State :=
  let x := s.cluster k
  if x.front / 64 ≤ x.ticks then s
  else
    (List.range 16).foldl (fun s1 n => s1.modCore (16 * k + n) (fun y => { y with ct := y.ct + 1 }))
      (s.setCluster k { x with ticks := x.ticks + 1 })

def execTick (k : Nat) (s : State) : Out := .next (s.tick k)

end Sys2Proof.Machine
end

