-- ==== Sys2Proof/Machine/Sha3.lean ====
section
/-! DEFINITION. SHA3-512, by which the measurement registers are extended (26_host_fabric_security.md R438). The spec names the
function; its definition is FIPS 202's. (PRESUMED, log entry 82.) -/

namespace Sys2Proof.Machine

/-- A state of Keccak-f[1600]: 25 lanes, lane (x, y) at x + 5y. -/
def keccakAt (a : List Dword) (x y : Nat) : Dword := a.getD (x % 5 + 5 * (y % 5)) 0

/-- The rotation of each lane. -/
def keccakTurns : List Nat := [0, 1, 62, 28, 27, 36, 44, 6, 55, 20, 3, 10, 43, 25, 39, 41, 45, 15, 21, 8, 18, 2, 61, 56, 14]

/-- The constant of each round. -/
def keccakConsts : List Dword :=
  [0x1, 0x8082, 0x800000000000808A, 0x8000000080008000, 0x808B, 0x80000001, 0x8000000080008081, 0x8000000000008009, 0x8A, 0x88,
   0x80008009, 0x8000000A] ++
  [0x8000808B, 0x800000000000008B, 0x8000000000008089, 0x8000000000008003, 0x8000000000008002, 0x8000000000000080, 0x800A,
   0x800000008000000A, 0x8000000080008081, 0x8000000000008080, 0x80000001, 0x8000000080008008]

/-- The columns' parity is spread over the lanes. -/
def keccakTheta (a : List Dword) : List Dword :=
  let col := (List.range 5).map (fun x => (List.range 5).foldl (fun v y => v ^^^ keccakAt a x y) 0)
  (List.range 25).map (fun i => a.getD i 0 ^^^ col.getD ((i + 4) % 5) 0 ^^^ (col.getD ((i + 1) % 5) 0).rotateLeft 1)

/-- Each lane is rotated and moved. -/
def keccakRhoPi (a : List Dword) : List Dword :=
  (List.range 25).map (fun i =>
    let j := (i % 5 + 3 * (i / 5)) % 5 + 5 * (i % 5)
    (a.getD j 0).rotateLeft (keccakTurns.getD j 0))

/-- The rows are combined, and the round's constant enters lane 0. -/
def keccakChiIota (a : List Dword) (rc : Dword) : List Dword :=
  (List.range 25).map (fun i =>
    a.getD i 0 ^^^ (~~~(keccakAt a (i + 1) (i / 5)) &&& keccakAt a (i + 2) (i / 5)) ^^^ (if i = 0 then rc else 0))

def keccakF (a : List Dword) : List Dword := keccakConsts.foldl (fun b rc => keccakChiIota (keccakRhoPi (keccakTheta b)) rc) a

/-- The message with SHA-3's padding, a multiple of 72 bytes. -/
def sha3Pad (m : List Byte) : List Byte :=
  let gap := 72 - m.length % 72
  m ++ (if gap = 1 then [0x86] else [0x06] ++ List.replicate (gap - 2) 0 ++ [0x80])

/-- The 64-byte SHA3-512 digest of a message. (PRESUMED, log entry 82.) -/
def sha3 (m : List Byte) : List Byte :=
  let p := sha3Pad m
  let a := (List.range (p.length / 72)).foldl (fun a k =>
    keccakF ((List.range 25).map (fun i =>
      a.getD i 0 ^^^ (if i < 9 then BitVec.ofNat 64 (leNat ((p.drop (72 * k + 8 * i)).take 8)) else 0)))) (List.replicate 25 (0 : Dword))
  (a.take 8).flatMap (fun w => leBytes 8 w.toNat)

/-- M := SHA3-512(M ‖ digest) (R438). (PRESUMED, log entry 82.) -/
def extendDigest (m d : BitVec 512) : BitVec 512 := BitVec.ofNat 512 (leNat (sha3 (leBytes 64 m.toNat ++ leBytes 64 d.toNat)))

end Sys2Proof.Machine
end

