-- ==== Sys2Proof/Machine/Fabric.lean ====
section
/-! DEFINITION. CXL links (01_stacked_vaults.md R28, R447), Ulukar links (26_host_fabric_security.md R434, R437), attestation (R438,
R439) and reset (R433). -/

namespace Sys2Proof.Machine

/-- Benuino's notice of a link change (R430, R387). -/
def State.linkNotice (s : State) : State := (s.raiseMsix 6).raiseEvent 4

/-- An access has been translated and is not complete. -/
def Acc.outstanding (a : Acc) : Bool := match a.phase with | .logged | .walk | .parked | .held => false | _ => true

/-- A request of a core under way to home. -/
def Msg.request : Msg → Bool
  | .cohStore _ _ _ _ _ _ | .strStore _ _ _ _ _ | .writeBack _ _ _ _ _ | .homeAtomic _ _ _ _ _ _ _ _ _ _ | .renew _ _ _ _ _ _ _
  | .exclReq _ _ _ _ _ => true
  | _ => false

/-- A core's outstanding accesses to lost lines trap (R28), PF and LEASE among them are dropped, and no later access joins their fills.
(DEDUCED, log entry 44.) -/
def State.cutCore (s : State) (lost : Nat → Bool) (c : Nat) : State :=
  let gone := (s.core c).accs.filter (fun a => lost a.pa && a.outstanding)
  (gone.foldl (fun s1 a =>
    if !a.quiet then s1.poisonAcc c a
    else
      let s2 := s1.removeAcc c a.id
      if a.phase == .renew then s2.modCore c (·.freeLease a.pa a.key) else s2) s).modCore c (fun k => { k with
    misses := k.misses.map (fun e => if lost e.2.pa && e.2.sector != 4 then (e.1, { e.2 with stale := true }) else e) })

/-- Everything outstanding on lost lines ends (R28): accesses trap, reads of engines, of walkers and of the slices find poison, and
requests under way to home or held there are dropped. (DEDUCED, log entry 44.) -/
def State.cutOff (s : State) (lost : Nat → Bool) : State :=
  let line : Line → Line := fun l => if lost l.pa && l.got.isNone then { l with got := some poisonGot } else l
  let s1 := (s.cores.map (·.1)).foldl (fun s1 c => s1.cutCore lost c) s
  { s1 with
    net := (s1.net.filter (fun m => !(m.2.request && lost m.2.pa))).map (fun m =>
      match m with
      | (n, .reflect k pa key reqs g) => (n, .reflect k pa key reqs (if lost pa then poisonGot else g))
      | _ => m)
    clusters := s1.clusters.map (fun e => (e.1, { e.2 with jobs := e.2.jobs.map (fun j => { j with lines := j.lines.map line }) }))
    dies := s1.dies.map (fun e => (e.1, { e.2 with active := e.2.active.map (fun w => { w with line := w.line.map line }) }))
    vaults := s1.vaults.map (fun e => (e.1, { e.2 with
      umbras := e.2.umbras.map (fun u => if lost u.pa then { u with sealed := true, waits := false, left := some poisonGot } else u)
      excls := e.2.excls.map (fun x => if lost x.pa then { x with held := [] } else x) })) }

/-- CXL_LINK_DOWN (R28). (DEDUCED, log entry 44.) -/
def execCxlLinkDown (p : Nat) (s : State) : Out :=
  if 4 ≤ p || !(tget true s.hub.ports p) then .next s
  else
    let lost : Nat → Bool := fun pa => (s.homeCell pa).any (fun cell => farCell ≤ cell && s.portOf cell == some p)
    .next ((s.modHub (fun h => { h with ports := tset h.ports p false })).cutOff lost).linkNotice

/-- CXL_LINK_UP: Benuino has retrained the link; the memory behind it is initialised (R28, R447), the times of its lines that the
timestamp caches hold among it (R81, R27). (DEDUCED, log entry 62.) -/
def execCxlLinkUp (p : Nat) (s : State) : Out :=
  if 4 ≤ p || tget true s.hub.ports p then .next s
  else
    let behind : Nat → Bool := fun cell => farCell ≤ cell && s.portOf cell == some p
    let zero : Nat × (Dword × Dword) → Nat × (Dword × Dword) := fun e => if behind (e.1 * 256) then (e.1, (0, 0)) else e
    let s1 : State := { s with
      memory := s.memory.forgetLines behind, errors := s.errors.filter (fun e => !behind (e.1 * 64))
      vaults := s.vaults.map (fun (v : Nat × Vault) => (v.1, { v.2 with farTs := v.2.farTs.map zero })) }
    .next (s1.modHub (fun h => { h with ports := tset h.ports p true })).linkNotice

/-! ## Ulukar -/

def State.link (s : State) (n : Nat) : Link := tget { up := true, fails := 0 } s.hub.links n
def State.setLink (s : State) (n : Nat) (l : Link) : State := s.modHub (fun h => { h with links := tset h.links n l })

/-- What an authenticated flit does (R105, R225). (DESIGN CHOICE, log entry 42; DEDUCED, log entry 64.) -/
def State.takeFlit (s : State) : FlitBody → State
  | .contribution comm rank bytes => s.modHub (fun h => { h with shares := h.shares ++ [(comm, rank, bytes)] })
  | .tail ctx node peer index => s.peerTail ctx node peer index
  | .record ctx node peer bytes => s.peerBytes ctx node peer bytes
  | .payload _ => s

/-- An Ulukar link goes down: a notice is raised, and the collectives under way end with 0x800C (R437, R442). (DESIGN CHOICE, log entry 42;
DEDUCED, log entry 64.) -/
def State.dropLink (s : State) (n : Nat) (l : Link) : State := ((s.setLink n { l with up := false }).endCollectives).linkNotice

/-- ULUKAR_FLIT_RECEIVE: a flit whose tag fails is dropped, and the 16th failure in a row takes the link down (R437); one that is not next
on its link waits for the retry of those before it (R434). (DEDUCED, log entry 64.) -/
def execUlukarFlitReceive (n : Nat) (tagOk : Bool) (flit : Flit) (s : State) : Out :=
  let l := s.link n
  if 16 ≤ n || !l.up then .next s
  else if !tagOk then
    .next (if 16 ≤ l.fails + 1 then s.dropLink n { l with fails := l.fails + 1 } else s.setLink n { l with fails := l.fails + 1 })
  else if flit.header != l.next then .next (s.setLink n { l with fails := 0 })
  else .next (s.waitSlab (fun s => (s.setLink n { l with fails := 0, next := l.next + 1 }).takeFlit flit.body))

/-- ULUKAR_LINK_RETRAIN: the link is up, and its flits are numbered anew (R437). (DEDUCED, log entry 64.) -/
def execUlukarLinkRetrain (n : Nat) (s : State) : Out :=
  if 16 ≤ n then .next s else .next (s.setLink n { up := true, fails := 0 })

/-! ## Attestation (R439) -/

def padTo (n : Nat) (bs : List Byte) : List Byte := bs.take n ++ List.replicate (n - bs.length) 0

/-- The report's bytes 0x000 to 0x24F. -/
def State.reportBody (s : State) (nonce : List Byte) : List Byte :=
  padTo 64 nonce ++ (List.range 8).flatMap (fun k => leBytes 64 (tget 0 s.hub.measures k).toNat)
    ++ leBytes 8 Config.rollback.toNat ++ leBytes 8 s.hub.fabid.toNat

/-- ATTESTATION_REQUEST: the nonce stands at the start of the host mailbox, and the report is answered there. In recovery the mailbox
answers only status queries (R438). (DESIGN CHOICE, log entries 63 and 79.) -/
def execAttestationRequest (s : State) : Out :=
  if s.hub.recovery then .next s
  else
    let body := s.reportBody (s.hub.mailbox.take 64)
    .next (s.mailAnswer (body ++ padTo 4627 (Config.signature body)))

/-! ## RESET (R433, R438) -/

/-- RESET: every register and table at its reset value, measurements extended by what was digested, ranges and fabric id as
Benuino sets them; slot 0 holds a new key. The model's own schedule goes on. (DESIGN CHOICE, log entries 20 and 63.) -/
def execReset (s : State) : Out :=
  let r := s.outside.reset
  .next { State.reset with
    agenda := s.agenda, outside := s.outside, free := s.free, seq := s.seq
    hub := { Hub.reset with
      keys := [(0, s.hub.keyGen)], keyGen := s.hub.keyGen + 1, recovery := !r.verified, ranges := r.ranges.take 16
      fabid := if r.fabid = 0 then 1 else r.fabid
      measures := r.digests.foldl (fun t e => tset t (e.1 % 8) (extendDigest (tget 0 t (e.1 % 8)) e.2)) [] } }

end Sys2Proof.Machine
end

