-- ==== Sys2Proof/Machine/Fetch.lean ====
section
/-! DEFINITION. How a quadrant chooses what to issue: the frontier (10_execution_model.md R181 to R187), round-robin among groups
(12_scheduling_and_placement.md R228), fetching and the decode checks of steps 1 to 7 (14_encoding_and_assembly.md R250 to R254, R448),
and the opportunities that pace and throttle leave (25_power_and_clocks.md R419, 01_stacked_vaults.md R22). -/

namespace Sys2Proof.Machine

/-! ## What stands at a PC -/

/-- What a thread finds at its PC: a block whose translation is to be walked, or whose slab's mode is about to change (R15), a trap of its
own, a trap of steps 1 to 7, or an instruction with the PC that follows it. -/
inductive Found where
  | miss
  | held
  | trap (cause : BitVec 16)
  | bad (cause : BitVec 16)
  | instr (i : Instr) (next : Dword)
  deriving DecidableEq, Repr

/-- The instruction that starts at an address of a fetch block (steps 1 to 7 of R254 but the tile grant). -/
def decodeAt (bs : List Byte) (pc : Dword) (sup : Bool) : Found :=
  let p := pc.toNat / 4 % 8
  let n := lenWords (wordAt bs p)
  if n != 0 && 8 < p + n then .bad 0x01
  else
    match decode (bs.drop (4 * p)) with
    | .ok (i, _) => .instr i (nextPc bs pc n)
    | .error (.illegal priv) => .bad (if priv && !sup then 0x08 else 0x01)
    | .error .short => .bad 0x01

/-- A thread's fetch; its first issue checks its entry (R448). (DEDUCED, log entries 27 and 28.) -/
def State.fetchAt (s : State) (c : Nat) (g : Group) (th : Thread) : Found :=
  if th.fresh && !addrOk th.pc then .trap 0x04
  else
    match s.look c g.ctx th.pc th.handler with
    | .miss => .miss
    | .held => .held
    | .bad cause => .trap cause
    | .bytes bs =>
      if th.fresh && !legalTarget bs (th.pc.toNat / 4 % 8) then .trap 0x04 else decodeAt bs th.pc (s.supervisor g.ctx)

/-- A thread of a list waits for its slab change (R390). -/
def Group.inMbox (g : Group) (ts : List Nat) : Bool :=
  ts.any (fun t => (g.threads[t]?).any (fun th => th.wait.any (fun w => match w.kind with | .mbox _ => true | _ => false)))

/-- MBOX is one word with four rows in the table: its command says which (R390); a slab change that waits is what it was. (DEDUCED, log
entry 57.) -/
def refine (g : Group) (ts : List Nat) (i : Instr) : Instr :=
  match i with
  | .slabModeChange o =>
    if g.inMbox ts then i
    else match (g.sget o.a.toNat).toNat % 256 with
    | 2 => .keyDraw o
    | 3 => .keyLoadWrapped o
    | 4 => .keyClear o
    | _ => i
  | _ => i

/-! ## The frontier -/

/-- The threads of an entry that lie on a quadrant. -/
def Group.entry (g : Group) (quad : Nat) (prio : BitVec 16) (pc : Dword) : List Nat :=
  (List.range g.threads.length).filter (fun t =>
    (g.quad + homeWave t) % 4 == quad && (g.threads[t]?).any (fun th => th.live && th.prio == prio && th.pc == pc))

/-- The age record of an entry on a quadrant. -/
def Group.ageOf (g : Group) (quad : Nat) (prio : BitVec 16) (pc : Dword) : Age :=
  match g.ages.find? (fun a => a.quad == quad && a.prio == prio && a.pc == pc) with
  | some a => a
  | none => { quad := quad, prio := prio, pc := pc, age := 0, raised := none }

/-- One entry comes before another (R181, R186). -/
def Group.before (g : Group) (quad : Nat) (a b : BitVec 16 × Dword) : Bool :=
  match (g.ageOf quad a.1 a.2).raised, (g.ageOf quad b.1 b.2).raised with
  | some x, some y => x < y
  | some _, none => true
  | none, some _ => false
  | none, none => a.1.toNat < b.1.toNat || (a.1 == b.1 && a.2.toNat < b.2.toNat)

def Group.insertEntry (g : Group) (quad : Nat) (a : BitVec 16 × Dword) : List (BitVec 16 × Dword) → List (BitVec 16 × Dword)
  | [] => [a]
  | b :: t => if a = b then b :: t else if g.before quad a b then a :: b :: t else b :: g.insertEntry quad a t

/-- The entries with a thread on a quadrant, in their order. -/
def Group.entries (g : Group) (quad : Nat) : List (BitVec 16 × Dword) :=
  ((List.range g.threads.length).filterMap (fun t =>
    match g.threads[t]? with
    | some th => if th.live && (g.quad + homeWave t) % 4 == quad then some (th.prio, th.pc) else none
    | none => none)).foldl (fun l a => g.insertEntry quad a l) []

/-- For each home lane, the thread of the lowest home wave (R182). -/
def perLane (ts : List Nat) : List Nat :=
  ts.filter (fun t => !(ts.any (fun u => homeLane u == homeLane t && homeWave u < homeWave t)))

/-! ## Eligibility (R183) -/

/-- A thread that is parked, waits for a walk of its own, or waits inside an instruction that it has begun. (DEDUCED, log entry 69.) -/
def State.away (s : State) (c slot : Nat) (g : Group) (ts : List Nat) (t : Nat) : Bool :=
  match g.threads[t]? with
  | none => true
  | some th =>
    s.parked c slot t || s.fetching c slot t
      || th.wait.any (fun w =>
        ({ s := s, c := c, slot := slot, g := g, wave := ts, tid := t, th := th, o := blankOp } : Lane).stillWaiting w)

/-- What an opportunity does with an entry: walks asked for (thread, address, kind of access) and traps of single threads at their
fetch; a trap of steps 1 to 7; or an instruction issued. -/
inductive Chance where
  | fetch (walks : List (Nat × Dword × Nat)) (traps : List (Nat × BitVec 16))
  | bad (cause : BitVec 16) (wave : List Nat)
  | run (i : Instr) (next : Dword) (wave : List Nat)
  deriving DecidableEq, Repr

/-- The lane of a thread of a wave, for an instruction. -/
def laneOf (s : State) (c slot : Nat) (g : Group) (o : Op) (wave : List Nat) (t : Nat) : Option Lane :=
  g.threads[t]?.map (fun th => { s := s, c := c, slot := slot, g := g, wave := wave, tid := t, th := th, o := o })

/-- A translation that a thread's instruction lacks before it can issue. -/
def Lane.walkFor (L : Lane) (i : Instr) : Option (Dword × Nat) :=
  if L.th.wait.isSome || !L.active || L.s.cvHeld L.c L.slot L.tid (L.steps i) then none else L.missing i

/-- The threads of a list that are ready to issue an instruction together: those that do not wait by themselves are its wave, and each
of them finds what the others lend it (R183, R263, R311). -/
def readyOf (s : State) (c slot : Nat) (g : Group) (i : Instr) (o : Op) (ts : List Nat) : List Nat :=
  let us := ts.filter (fun t => match laneOf s c slot g o ts t with | some L => L.readyAlone i | none => false)
  us.filter (fun t => match laneOf s c slot g o us t with | some L => L.ready i | none => false)

/-- What an entry would do at an opportunity of its quadrant; none: it has no eligible thread. (DEDUCED, log entry 69.) -/
def State.chance (s : State) (c slot : Nat) (g : Group) (quad : Nat) (e : BitVec 16 × Dword) : Option Chance :=
  let all := g.entry quad e.1 e.2
  let ts := all.filter (fun t => !s.away c slot g all t)
  let found := (ts.filterMap (fun t => (g.threads[t]?).map (fun th => (t, s.fetchAt c g th)))).filter (·.2 != .held)
  let walks := found.filterMap (fun f => match f.2 with | .miss => some (f.1, e.2, 3) | _ => none)
  let traps := found.filterMap (fun f => match f.2 with | .trap cause => some (f.1, cause) | _ => none)
  if !walks.isEmpty || !traps.isEmpty then some (.fetch walks traps)
  else
    match found with
    | [] => none
    | (_, .bad cause) :: _ => some (.bad cause (perLane ts))
    | (_, .instr i0 next) :: _ =>
      let i := refine g ts i0
      match fieldsOf i with
      | none => some (.run i next (perLane ts))
      | some o =>
        let more := ts.filterMap (fun t => (laneOf s c slot g o ts t).bind (fun L => (L.walkFor i).map (fun w => (t, w))))
        if !more.isEmpty then some (.fetch more [])
        else
          let wave := readyOf s c slot g i o (perLane (readyOf s c slot g i o ts))
          if wave.isEmpty then none else some (.run i next wave)
    | _ => none

/-- The entry that a group issues from on a quadrant (R182, R186, R187). -/
def State.choice (s : State) (c slot : Nat) (g : Group) (quad : Nat) : Option ((BitVec 16 × Dword) × Chance) :=
  let es := (g.entries quad).filterMap (fun e => (s.chance c slot g quad e).map (fun x => (e, x)))
  let passed := tget [] g.passed quad
  match es.find? (fun e => (g.entry quad e.1.1 e.1.2).all (fun t => !passed.contains t)) with
  | some e => some e
  | none => es.head?

/-- The slots of a core after its round-robin pointer, in turn (R228). -/
def Core.turn (k : Core) (quad : Nat) : List (Nat × Group) :=
  match tfind k.rr quad with
  | some p => k.slots.filter (fun e => p < e.1) ++ k.slots.filter (fun e => e.1 ≤ p)
  | none => k.slots

/-- What a quadrant does at an opportunity: the slot, the entry and its chance. -/
def State.plan (s : State) (c quad : Nat) : Option (Nat × (BitVec 16 × Dword) × Chance) :=
  ((s.core c).turn quad).findSome? (fun e =>
    if s.mayIssue c e.2 then (s.choice c e.1 e.2 quad).map (fun x => (e.1, x)) else none)

/-! ## Opportunities (R419, R22) -/

/-- The opportunity that comes is used: p of every 8, and one in 4 while the core is throttled. (DEDUCED, log entry 68.) -/
def State.opportunity (s : State) (c quad : Nat) : Bool :=
  let n := tget 0 (s.core c).chances quad
  n % 8 < (s.die (dieOf c)).pace && (!(s.core c).hot || n % 4 == 0) && (s.die (dieOf c)).powered

/-- Opportunities counted, over the least common period. (DEDUCED, log entry 68.) -/
def State.countChance (s : State) (c quad : Nat) : State :=
  s.modCore c (fun k => { k with chances := tset k.chances quad ((tget 0 k.chances quad + 1) % 8) })

/-- The ages of entries that no thread of the group is at any more are gone (R182, R185). -/
def Group.tidyAges (g : Group) : Group :=
  { g with ages := g.ages.filter (fun a => g.threads.any (fun th => th.live && th.prio == a.prio && th.pc == a.pc)) }

def State.tidyAges (s : State) : State :=
  { s with cores := s.cores.map (fun e => (e.1, { e.2 with slots := e.2.slots.map (fun g => (g.1, g.2.tidyAges)) })) }

/-- A slab change that no thread waits for any more is given up, and what it held goes on (R15, R230). (DEDUCED, log entry 30.) -/
def State.tidySlab (s : State) : State :=
  if s.hub.slabWait.isEmpty
      || s.cores.any (fun k => k.2.slots.any (fun g => g.2.inMbox (List.range g.2.threads.length))) then s
  else s.freeSlab

/-- What does not outlive a step. (DESIGN CHOICE, log entry 1.) -/
def State.tidy (s : State) : State := s.tidySlab.tidyAges

/-- The ages on a quadrant after an issue from entry e (R185, R186): its own starts again, and every other entry with an eligible
thread grows older. -/
def State.agesAfter (s : State) (c slot : Nat) (g : Group) (quad : Nat) (e : BitVec 16 × Dword) : Group :=
  ((g.entries quad).filter (fun a => a != e && (s.chance c slot g quad a).isSome)).foldl (fun x a =>
    let y := x.ageOf quad a.1 a.2
    let old := x.ages.filter (fun b => !(b.quad == quad && b.prio == a.1 && b.pc == a.2))
    if y.age + 1 = 256 && y.raised.isNone then
      { x with ages := { y with age := 256, raised := some x.raises } :: old, raises := x.raises + 1 }
    else { x with ages := { y with age := min (y.age + 1) 256 } :: old })
    { g with ages := g.ages.filter (fun b => !(b.quad == quad && b.prio == e.1 && b.pc == e.2)) }

/-- An instruction with YLD = 1 passes its wave over at the group's next opportunity on the quadrant (R187). -/
def yields (i : Instr) : Bool := match i.op? with | some o => o.yld | none => false

/-- What an active thread's instruction reads at issue besides its block: address, kind of access, whether any page serves, bytes: its
constant (R261), and the block of its target (R364). -/
def Lane.reads (L : Lane) (i : Instr) : List (Dword × Nat × Bool × Nat) :=
  if !L.active then []
  else
    (match i.shape with
      | some (sh, o) =>
        if sh.isConst o then [(L.constAddr, 0, sh.mUse == .privCb || L.th.handler, if sh.constWide o then 8 else 4)] else []
      | none => [])
    ++ (match L.targetUse i with | some va => [(va &&& ~~~31#64, 3, L.th.handler, 32)] | none => [])

/-- The constants and targets that a wave's instruction reads are read, their pages in the core's own TLB from now on (R42). -/
def State.touchReads (s : State) (c slot : Nat) (i : Instr) (wave : List Nat) : State :=
  match s.group? c slot, fieldsOf i with
  | some g, some o => wave.foldl (fun s1 t =>
      match laneOf s c slot g o wave t with
      | some L => (L.reads i).foldl (fun s2 e => (s2.tlbTouch c g.ctx e.1).readAt c g.ctx e.1 e.2.1 e.2.2.1 e.2.2.2) s1
      | none => s1) s
  | _, _ => s

/-- The fetches of a quadrant: the block of each entry that has a thread to issue is read (R182, R252). Where no line is owned and no
error stands, that changes nothing. -/
def State.fetchReads (s : State) (c quad : Nat) : State :=
  if s.errors.isEmpty && s.vaults.all (fun v => v.2.excls.isEmpty) then s
  else
    ((s.core c).slots.filter (fun e => s.mayIssue c e.2)).foldl (fun s1 e =>
      (e.2.entries quad).foldl (fun s2 x =>
        let ts := e.2.entry quad x.1 x.2
        (ts.filter (fun t => !s.away c e.1 e.2 ts t)).foldl (fun s3 t =>
          s3.readAt c e.2.ctx (x.2 &&& ~~~31#64) 3 ((e.2.threads[t]?).any (·.handler)) 32) s2) s1) s

/-- An issue begins: the pointer, ages, yield marks, first-issue marks and the opportunities that the group has used (R243) move on, the
block's translation is in the core's TLB (R42), and the wave stands at issue. -/
def State.begin (s : State) (c quad slot : Nat) (e : BitVec 16 × Dword) (yld : Bool) (next : Dword) (wave : List Nat) : State :=
  match s.group? c slot with
  | none => s
  | some g =>
    let g1 := s.agesAfter c slot g quad e
    let g2 := { g1 with
      passed := tset g1.passed quad (if yld then wave else [])
      used := g1.used + 1
      threads := wave.foldl (fun ts t => modAt (fun th => { th with fresh := false }) ts t) g1.threads }
    let s1 := ((s.setGroup c slot g2).modCore c (fun k => { k with rr := tset k.rr quad slot })).tlbTouch c g.ctx (e.2 &&& ~~~31#64)
    { s1 with cur :=
        { core := c, slot := slot, quad := quad, pc := e.2, prio := e.1, next := next, threads := wave, late := s.cur.late } }

/-- A trap found at a thread's fetch (R364, R448). At a thread's first issue a bad entry address leaves its trap registers naming it; the
first issue of a handler whose block could not be looked at before finds whether HANDLER is an instruction start, and if it is not,
the trap that was taken is unhandled (R235). -/
def State.fetchTrap (s : State) (c slot t : Nat) (cause : BitVec 16) (pc : Dword) : State :=
  match s.thread? c slot t with
  | none => s
  | some th =>
    if cause = 0x04 then
      if th.handler then
        s.stopGroup c slot {
          cause := (tget 0 th.t 0).extractLsb' 0 16, pc := pairOf (tget 0 th.t 4) (tget 0 th.t 5), va := 0, info := 0, log := none }
      else
        let entry := [(1, lowWord pc), (2, highWord pc), (4, lowWord pc), (5, highWord pc)]
        (s.modThread c slot t (fun x => { x with t := entry.foldl (fun l e => tset l e.1 e.2) x.t })).precise c slot t cause 0 0
    else s.precise c slot t cause pc 3

/-- The walks and traps of a fetch (R364), whose hit fills the levels below (R42): one walk for the threads that ask for one address.
(DEDUCED, log entry 69.) -/
def State.startFetch (s : State) (c slot : Nat) (pc : Dword) (walks : List (Nat × Dword × Nat)) (traps : List (Nat × BitVec 16)) :
    State :=
  match s.group? c slot with
  | none => s
  | some g =>
    let s1 := ((walks.map (·.2)).eraseDups).foldl (fun s1 e =>
      let ts := (walks.filter (·.2 == e)).map (·.1)
      let w := Walk.new s1.seq g.ctx e.1 pc c slot false (BitVec.ofNat 2 e.2) false (.fetch c slot 0 pc e.1 e.2)
      { s1 with seq := s1.seq + 1 }.post (.tlbMiss (dieOf c) { w with waiters := ts.map (fun t => .fetch c slot t pc e.1 e.2) }))
        (s.tlbTouch c g.ctx (pc &&& ~~~31#64))
    traps.foldl (fun s2 t => s2.fetchTrap c slot t.1 t.2 pc) s1

end Sys2Proof.Machine
end

