-- ==== Sys2Proof/Machine/Place.lean ====
section
/-! DEFINITION. A program put where core 0 fetches next: what a launch of one group of one thread leaves (12_scheduling_and_placement.md
R216, R218), with a given block of code. -/

namespace Sys2Proof.Machine

/-- The address of the code that `withBlock` places. -/
def codePc : Dword := 0x1000

/-- A launch record for one thread, with every block, tile and scale unit of a core. -/
def soleRec : Rec :=
  { code := codePc, cvhint := 0, vinit := false, gang := false, heat := 0, boards := 0, scale := 16, tiles := 8, rot := false
    spad := 512, regs := 256, cbank := 0, eprio := 0x8000, dem := 0, tcols := 0, trows := 0
    levels := [{ extent := 1, used := true, scope := 0, domain := 0 }, { extent := 1, used := true, scope := 1, domain := 2 }]
    waitev := 0, waitval := 0, sigev := 0, sinit := [0, 0, 0, 0] }

/-- Its launch and its group. -/
def soleLaunch : Launch :=
  { queue := none, node := none, ctx := 0, addr := 0, record := soleRec, groups := 1, placed := 1, ended := [], exited := [], tiles := 0
    stop := none, cores := [0], ran := [0], prio := 0, records := [] }
def soleGroup : Group := Group.start 0 soleLaunch 0 0 []

/-- Context 0 with region 0 open: COH, 4 KiB pages (R34). -/
def soleCtx : Ctx :=
  { desc := 0, raf := 0, regions := [1], nodes := 0, quota := 0, spent := 0, held := false, account := 0, moving := none }

/-- The code page: readable, writable and executable by unprivileged threads, under key id 0. -/
def codePage : TlbEnt :=
  { ctx := 0, region := 0, page := 1, base := 0x1000, key := 0, d := true, u := true, x := true, w := true }

/-- The 32 bytes of a fetch block stand at codePc, and core 0's quadrant 0 issues from there next. (DESIGN CHOICE, log entry 1.) -/
def State.withBlock (s : State) (bs : List Byte) : State :=
  let s1 : State := { s with
    agenda := .issue 0 0 :: s.agenda, net := [], dies := tset s.dies 0 Die.reset
    cores := tset s.cores 0 { Core.reset with
      slots := [(0, soleGroup)], tlb := [codePage], allocs := [(0, { base := 0, size := 393216, ctx := 0, rot := false })] }
    clusters := tset s.clusters 0 Cluster.reset
    hub := { s.hub with
      keys := tset s.hub.keys 0 (tget 0 s.hub.keys 0), slabs := s.hub.slabs.filter (· != 0)
      contexts := tset s.hub.contexts 0 soleCtx, launches := tset s.hub.launches 0 soleLaunch } }
  (s1.writeMem 0 (zipFrom 0x1000 bs)).setSide (interleavedCell 0x1000 / 256) { wts := 0, rts := 0, poison := 0 }

end Sys2Proof.Machine
end

