-- ==== Sys2Proof/Machine/Barriers.lean ====
section
/-! DEFINITION. Barriers and the end of a thread (10_execution_model.md R189 to R192; 18_ref_control_system.md R370, R371) and
staged loops (11_staged_loops.md R197 to R207; R372 to R376). -/

namespace Sys2Proof.Machine

/-! ## Arriving (R189, R191) -/

/-- The live threads of a group in thread t's level-n unit. -/
def Group.mates (g : Group) (n t : Nat) : List Nat :=
  (List.range g.threads.length).filter (fun u =>
    (g.record.hubLevel n || g.unit n u == g.unit n t) && (g.threads[u]?).any (·.live))

/-- A resident group of a launch by its index. -/
def State.resident (s : State) (launch index : Nat) : Option (Nat × Nat × Group) :=
  s.cores.findSome? (fun c => (c.2.slots.find? (fun g => g.2.launch == launch && g.2.index == index)).map (fun g => (c.1, g.1, g.2)))

/-- The groups of a hub barrier's unit have all arrived, or have no thread left (R189, R191). (DEDUCED, log entry 46; DESIGN CHOICE, log
entry 47.) -/
def State.unitComplete (s : State) (g : Group) (n t : Nat) (arrived : List Nat) : Bool :=
  let per := g.record.sizeOf n / g.record.threads
  let first := g.unit n t * per
  let exited := match tfind s.hub.launches g.launch with | some l => l.exited | none => []
  (List.range per).all (fun k =>
    arrived.contains (first + k) || exited.contains (first + k)
      || (match s.resident g.launch (first + k) with | some (_, _, x) => x.threads.all (fun th => !th.live) | none => false))

/-- The arrivals of a unit after a change: when no live thread of the unit is missing, the phase advances and the record
clears. A group brings a barrier of the hub its core's time (R190, R443). (DEDUCED, log entries 46 and 80.) -/
def State.advanceBarrier (s : State) (c slot n t : Nat) : State :=
  match s.group? c slot with
  | none => s
  | some g =>
    let b := s.barrier g n t
    let here := s.arrivals g n t
    let all := (g.mates n t).all here.contains
    if g.record.hubLevel n then
      let arrived := if all && (!here.isEmpty) && !b.arrived.contains g.index then g.index :: b.arrived else b.arrived
      let time := if all then maxD b.time (s.core c).ct else b.time
      let b1 : Barrier :=
        if !arrived.isEmpty && s.unitComplete g n t arrived then { phase := b.phase + 1, arrived := [], last := maxD b.last time }
        else { b with arrived := arrived, time := time }
      s.modHub (fun h => { h with bars := tset h.bars (g.barKey n t) b1 })
    else if all && !here.isEmpty then
      s.setGroup c slot { g with bars := tset g.bars (g.barKey n t) { phase := b.phase + 1, arrived := [] } }
    else s

/-- Thread t arrives at its level-n unit's barrier. (DEDUCED, log entries 48 and 80.) -/
def State.arrive (s : State) (c slot n t : Nat) : State :=
  match s.group? c slot with
  | none => s
  | some g =>
    let b := s.barrier g n t
    let here := t :: s.arrivals g n t
    let g1 :=
      if g.record.hubLevel n then { g with bars := tset g.bars (n * 2048) { phase := b.phase, arrived := here } }
      else { g with bars := tset g.bars (g.barKey n t) { b with arrived := here } }
    (s.setGroup c slot g1).advanceBarrier c slot n t

/-- The phase of a thread's barrier. (DESIGN CHOICE, log entry 47.) -/
def State.phaseOf (s : State) (c slot n t : Nat) : BitVec 16 :=
  match s.group? c slot with
  | some g => (s.barrier g n t).phase
  | none => 0

/-- The level that an instruction names is in use (R371). -/
def levelCheck (L : Lane) : Option Trap :=
  if 7 < L.fA || !(L.g.record.level L.fA).used then some { cause := 0x01 } else none

/-- The level's scope is wider than a thread, so that a release and an acquire act on the core's L1 (R95). -/
def Lane.wideLevel (L : Lane) : Bool := (L.g.record.level L.fA).scope != 0

/-- A thread acquires as SYNCR does (R95). -/
def State.acquire (s : State) (c : Nat) (wide : Bool) : State := if wide then s.discardStr c else s

/-- The time of the arrivals at a barrier of the hub whose phase has been left; within a group the core's own time serves (R190). (DEDUCED,
log entry 80.) -/
def State.phaseTime (s : State) (c slot n t : Nat) : Dword :=
  match s.group? c slot with
  | some g => if g.record.hubLevel n then (s.barrier g n t).last else 0
  | none => 0

/-- A thread's wait for a phase ends, or goes on while the phase stands or its earlier accesses are not performed (R189, R190). What the
members did before they arrived precedes what the thread does then (R443, R444). (DEDUCED, log entries 48 and 80.) -/
def State.passPhase (s : State) (L : Lane) (bar : Bool) (n : Nat) (p : BitVec 16) (next : Dword) : State :=
  if s.phaseOf L.c L.slot n L.tid = p || !(s.accsOf L.c L.slot L.tid).isEmpty then
    if L.th.wait.any (fun w => w.kind == .phase bar n p) then s else s.wait L.c L.slot L.tid (.phase bar n p)
  else
    (((s.acquire L.c L.wideLevel).raiseCt L.c (s.phaseTime L.c L.slot n L.tid)).modThread L.c L.slot L.tid (fun th =>
      if bar then { th with mark := none } else th)).moveTo [L.tid] next

/-- BARA (R371): the phase at arrival. -/
def execBara (o : Op) (s : State) : Out :=
  .next (s.releaseOp (.bara o) o levelCheck Lane.wideLevel (fun ls s1 => ls.foldl (fun s2 L =>
    let p := s2.phaseOf L.c L.slot L.fA L.tid
    (((s2.modThread L.c L.slot L.tid (fun th => th.put (L.dstReg 1) (p.setWidth 32))).arrive L.c L.slot L.fA L.tid)).moveTo
      [L.tid] s.cur.next) s1))

/-- BAR (R371, R189): it arrives unless its mark is set, then waits for the phase of its arrival to be left. (DEDUCED, log entries 45 and
48.) -/
def execBar (o : Op) (s : State) : Out :=
  .next (s.releaseOp (.bar o) o levelCheck (fun L => L.th.mark.isNone && L.wideLevel) (fun ls s1 => ls.foldl (fun s2 L =>
    match L.th.mark with
    | some (n, p) => s2.passPhase L true n p s.cur.next
    | none =>
      let n := L.fA
      let p := s2.phaseOf L.c L.slot n L.tid
      ((s2.modThread L.c L.slot L.tid (fun th => { th with mark := some (n, p) })).arrive L.c L.slot n L.tid).passPhase L true
        n p s.cur.next) s1))

/-- BARW (R371): its phase is read when it issues. -/
def execBarw (o : Op) (s : State) : Out :=
  .next (s.frame (.barw o) o levelCheck (fun wave ok s0 =>
    ((byLane ok).filterMap (s0.lane? o wave)).foldl (fun s1 L =>
      let p := match L.th.wait with
        | some ⟨.phase _ _ p, _, _⟩ => p
        | _ => L.barwPhase (shapeOf (.barw o))
      s1.passPhase L false L.fA p s.cur.next) s0) true)

/-! ## Stage boards -/

/-- The board and iteration that a thread is bound to, with the board's number in its cluster (R199). -/
def State.bound (s : State) (c slot t : Nat) : Option (Nat × Board × Word) :=
  match s.group? c slot, (s.thread? c slot t).bind (·.bind) with
  | some g, some (b, n) => (s.board? c g b).map (fun e => (e.1, e.2, n))
  | _, _ => none

/-- A thread's iteration is retired and its binding is empty (R205, R206). -/
def State.retire (s : State) (c slot t : Nat) : State :=
  match s.bound c slot t with
  | some (p, b, n) =>
    (s.setBoard c p (b.retire n (s.core c).ct)).modThread c slot t (fun th => { th with bind := none })
  | none => s

/-- The checks of R200 on a descriptor, in order. -/
def stbegCheck (L : Lane) : Option Trap :=
  let d := L.g.sget L.fA
  let w := (d.extractLsb' 8 7).toNat
  if L.g.boards.length ≤ (d.extractLsb' 0 4).toNat then some { cause := 0x0F }
  else if w = 0 || 64 < w then some { cause := 0x01 }
  else if L.th.bind.isSome then some { cause := 0x0F }
  else none

/-- The next iteration of a board: its number, and the board with the iteration open (R198, R200). -/
def Board.take (b : Board) (ct : Dword) : Word × Board :=
  let n := b.next
  let x : BSlot := { iter := n, counter := 0, time := ct }
  (n, { b with next := n + 1, wrapped := b.wrapped || n == 0xFFFFFFFF, slots := tset b.slots (n.toNat % 64) x })

/-- STBEG (R200, R201, R372): in ascending home lane, each thread takes a place at the board and, when it stands first and the
window allows, its iteration; one that waits stays at the board that its descriptor named at issue. -/
def execStbeg (o : Op) (s : State) : Out :=
  .next (s.frame (.stbeg o) o stbegCheck (fun wave ok s0 =>
    ((byLane ok).filterMap (s0.lane? o wave)).foldl (fun s1 L =>
      let d := L.g.sget L.fA
      let log := match L.th.wait with | some ⟨.stbeg b, _, _⟩ => b | _ => (d.extractLsb' 0 4).toNat
      let me := (L.c, L.slot, L.tid)
      match s1.board? L.c L.g log with
      | none => s1
      | some (p, b) =>
        let b1 := { b with
          w := if b.w = 0 then (d.extractLsb' 8 7).toNat else b.w
          waiters := if b.waiters.contains me then b.waiters else b.waiters ++ [me] }
        if b1.waiters.head? == some me && b1.span < b1.w then
          let (n, b2) := b1.take (s1.core L.c).ct
          ((s1.setBoard L.c p { b2 with waiters := b1.waiters.drop 1 }).modThread L.c L.slot L.tid (fun th =>
            { th.put (L.dstReg 1) n with bind := some (log, n) })).moveTo [L.tid] s.cur.next
        else
          let s2 := s1.setBoard L.c p b1
          if L.th.wait.isSome then s2 else s2.wait L.c L.slot L.tid (.stbeg log)) s0) true)

/-- The amount or value of STAGE or the k of WAITL. -/
def Lane.stageArg (L : Lane) (i : Instr) : Nat := (L.srcB (shapeOf i) 0 false).toNat

/-- The thread's own counter (R199). -/
def Lane.counter (L : Lane) : Nat :=
  match L.s.bound L.c L.slot L.tid with
  | some (_, b, n) => (b.slot n).counter
  | none => 0

def bindCheck (L : Lane) : Option Trap := if L.th.bind.isNone then some { cause := 0x0F } else none

/-- STAGE's checks in order (R373). -/
def stageCheck (i : Instr) (set : Bool) (L : Lane) : Option Trap :=
  let v := L.stageArg i
  if 255 < v then some { cause := 0x01 }
  else if L.th.bind.isNone then some { cause := 0x0F }
  else if set && (v < L.counter || v = 255) then some { cause := 0x0F }
  else none

/-- A bound iteration's counter is written with the slot's T raised, once the thread has released (R202, R206). -/
def State.stage (s : State) (L : Lane) (f : Nat → Nat) : State :=
  match s.bound L.c L.slot L.tid with
  | some (p, b, n) =>
    let x := b.slot n
    let y : BSlot := { iter := n, counter := f x.counter, time := maxD x.time (s.core L.c).ct }
    s.setBoard L.c p { b with slots := tset b.slots (n.toNat % 64) y }
  | none => s

/-- STAGE (R202, R373): the amount or value is that of its issue, and f gives the new counter from it and the old. -/
def State.stageOp (s : State) (i : Instr) (o : Op) (set : Bool) (f : Nat → Nat → Nat) : State :=
  let given : Lane → List Nat := fun L => [L.stageArg i]
  s.releaseOp i o (stageCheck i set) (fun _ => true) (fun ls s1 => ls.foldl (fun s2 L =>
    (s2.stage L (f ((L.args given).headD 0))).moveTo [L.tid] s.cur.next) s1) given

/-- STAGE.add (R202, R373). -/
def execStageAdd (o : Op) (s : State) : Out := .next (s.stageOp (.stageAdd o) o false (fun a c => min (c + a) 254))

/-- STAGE.set (R202, R373). -/
def execStageSet (o : Op) (s : State) : Out := .next (s.stageOp (.stageSet o) o true (fun v _ => v))

/-- WAITL's checks in order (R374). -/
def waitlCheck (o : Op) (L : Lane) : Option Trap :=
  let k := L.stageArg (.waitl o)
  if 255 < k then some { cause := 0x01 }
  else if L.th.bind.isNone then some { cause := 0x0F }
  else if L.counter < k then some { cause := 0x0F }
  else none

/-- WAITL (R204, R206, R374): k is read when it issues. -/
def execWaitl (o : Op) (s : State) : Out :=
  .next (s.frame (.waitl o) o (waitlCheck o) (fun wave ok s0 =>
    ((byLane ok).filterMap (s0.lane? o wave)).foldl (fun s1 L =>
      let k := match L.th.wait with | some ⟨.waitl k, _, _⟩ => k | _ => L.stageArg (.waitl o)
      match s1.bound L.c L.slot L.tid with
      | none => s1
      | some (_, b, n) =>
        if b.passed n k && (s1.accsOf L.c L.slot L.tid).isEmpty then
          ((s1.acquire L.c true).raiseCt L.c (b.predTime n)).moveTo [L.tid] s.cur.next
        else if L.th.wait.isSome then s1
        else s1.wait L.c L.slot L.tid (.waitl k)) s0) true)

/-- STEND (R205, R206, R375). -/
def execStend (o : Op) (s : State) : Out :=
  .next (s.releaseOp (.stend o) o bindCheck (fun _ => true) (fun ls s1 => ls.foldl (fun s2 L =>
    (s2.retire L.c L.slot L.tid).moveTo [L.tid] s.cur.next) s1))

/-- STRD.ctr's checks in order (R376). -/
def strdCtrCheck (o : Op) (L : Lane) : Option Trap :=
  if 63 < L.stageArg (.strdCtr o) then some { cause := 0x01 } else bindCheck L

/-- STRD.ctr (R207, R376). -/
def execStrdCtr (o : Op) (s : State) : Out := .next (s.laneOp (.strdCtr o) o (strdCtrCheck o) (fun L =>
  match L.s.bound L.c L.slot L.tid with
  | some (_, b, n) => L.putD false (BitVec.ofNat 64 (b.counterOf (n - BitVec.ofNat 32 (L.stageArg (.strdCtr o)))))
  | none => L.th))

def strdBrdCheck (o : Op) (L : Lane) : Option Trap :=
  if L.g.boards.length ≤ L.stageArg (.strdBrd o) then some { cause := 0x0F } else none

/-- STRD.brd (R207, R376). -/
def execStrdBrd (o : Op) (s : State) : Out := .next (s.laneOp (.strdBrd o) o (strdBrdCheck o) (fun L =>
  match L.s.board? L.c L.g (L.stageArg (.strdBrd o)) with
  | some (_, b) => L.putD true b.word
  | none => L.th))

/-! ## EXIT (R192, R205, R370) -/

/-- A thread ends: its binding is retired, it leaves its log entries, its cursor no longer counts, and it counts as arrived. (DEDUCED, log
entry 46.) -/
def State.endThread (s : State) (c slot t : Nat) : State :=
  let s1 := s.retire c slot t
  let s2 := s1.modCore c (fun k => { k with accs := k.accs.filter (fun a => !(a.slot == slot && a.tid == t && a.phase == .held)) })
  let s3 := s2.cvExit c slot t
  match s3.group? c slot with
  | some g => ((List.range 8).filter (fun n => (g.record.level n).used)).foldl (fun s4 n => s4.advanceBarrier c slot n t) s3
  | none => s3

/-- EXIT: a thread with an open iteration first releases, as at STEND. (DEDUCED, log entry 46.) -/
def execExit (o : Op) (s : State) : Out :=
  .next (s.releaseOp (.exit o) o noCheck (fun L => L.th.bind.isSome) (fun ls s1 => ls.foldl (fun s2 L =>
    s2.endThread L.c L.slot L.tid) s1))

end Sys2Proof.Machine
end

