-- ==== Sys2Proof/Machine/Blocks.lean ====
section
/-! DEFINITION. Elements and blocks (08_number_formats.md R133 to R140, R145 to R149): element strings, block exponents,
quantising, alignment, and the sum of one block. -/

namespace Sys2Proof.Machine

/-- The bit string of consecutive registers (R133). -/
def stringOf : List Word → Nat
  | [] => 0
  | w :: ws => w.toNat + 2 ^ 32 * stringOf ws

/-- Element k of width w (R133). -/
def elemAt (w k bits : Nat) : Nat := bits / 2 ^ (w * k) % 2 ^ w

/-- Elements laid out as a bit string, element 0 lowest. -/
def elemString (w : Nat) : List Nat → Nat
  | [] => 0
  | x :: xs => x % 2 ^ w + 2 ^ w * elemString w xs

/-- The words of a bit string. -/
def wordsOf : Nat → Nat → List Word
  | 0, _ => []
  | n + 1, bits => BitVec.ofNat 32 bits :: wordsOf n (bits / 2 ^ 32)

/-- The two's-complement integer of a w-bit field. -/
def signedField (w v : Nat) : Int := if 2 ^ (w - 1) ≤ v % 2 ^ w then (v % 2 ^ w : Int) - 2 ^ w else (v % 2 ^ w : Int)

/-- The float format of a block format code (R146); none: BFPn and OIn. -/
def blockFloat (code : Nat) : Option Fmt :=
  match code with
  | 0 => some .bf16 | 1 => some .f16 | 2 => some .e4m3 | 3 => some .e5m2 | 4 => some .e2m1 | _ => none

/-- An integer as a value. -/
def numOfInt (v : Int) (e : Int) : Num := .fin (v < 0) v.natAbs e

/-- The integer of a BFPn, OI4 or OI8 element: m, or d = u − z (R137, R138). -/
def blockInt (code side u : Nat) : Int :=
  if code = 12 then (u % 16 : Int) - (side % 16 : Nat)
  else if code = 13 then (u % 256 : Int) - (side % 256 : Nat)
  else signedField (fmtBits code) u

/-- An element's value without its block exponent: its integer times 2^−(n − 1) for BFPn (R134, R137, R138). -/
def elemValue (code side u : Nat) : Num :=
  match blockFloat code with
  | some f => f.unpack u
  | none => numOfInt (blockInt code side u) (if code ≤ 11 then 1 - (fmtBits code : Int) else 0)

/-- ⌊log2⌋ of a finite non-zero magnitude. -/
def numLog (x : Num) : Option Int :=
  match x with
  | .fin _ m e => if m = 0 then none else some ((m.log2 : Int) + e)
  | _ => none

/-- L of R145: over the finite, non-zero elements. -/
def blockLog (xs : List Num) : Option Int :=
  xs.foldl (fun acc x => match acc, numLog x with
    | some a, some b => some (if a < b then b else a)
    | none, b => b
    | a, none => a) none

def clampInt (lo hi v : Int) : Int := if v < lo then lo else if hi < v then hi else v

/-- The block exponent that QNT and QEXP choose (R145, R333). -/
def quantExp (code : Nat) (xs : List Num) : Nat :=
  match blockLog xs with
  | none => 0
  | some l =>
    if code = 4 then (clampInt 0 254 (l - 2 + 127)).toNat
    else if code ≤ 11 then (clampInt 0 255 (l + 128)).toNat
    else (clampInt 0 255 (l - ((fmtBits code : Int) - 2) + 127)).toNat

/-- RoundNE of a finite value times 2^−q as an integer. -/
def roundInt (neg : Bool) (m : Nat) (e q : Int) : Int :=
  let r := (quantize .rne neg m e q false).1
  if neg then -(r : Int) else r

/-- The code that QNT writes for one element (R145, R333). `zero`: the block has no non-zero finite element. (DEDUCED, log entry 32.) -/
def quantElem (code x : Nat) (zero : Bool) (v : Num) : Nat :=
  let n := fmtBits code
  match v with
  | .nan _ => if 12 ≤ code then 2 ^ (n - 1) else 0
  | .inf neg =>
    if code = 4 then (if neg then 15 else 7)
    else if code ≤ 11 then (if neg then 2 ^ (n - 1) else 2 ^ (n - 1) - 1)
    else if neg then 0 else 2 ^ n - 1
  | .fin neg m e =>
    if code = 4 then (if zero then 0 else (Fmt.e2m1.round .rne false true neg m (e + 127 - x) false).1)
    else if code ≤ 11 then
      let r := clampInt (-(2 ^ (n - 1))) (2 ^ (n - 1) - 1) (roundInt neg m e ((x : Int) - 127 - ((n : Int) - 1)))
      (r % 2 ^ n).toNat
    else (clampInt 0 (2 ^ n - 1) (roundInt neg m e ((x : Int) - 127) + 2 ^ (n - 1))).toNat

/-- The side register that QNT writes (R333). -/
def quantSide (code x : Nat) : Nat := if 12 ≤ code then 2 ^ (fmtBits code - 1) + 256 * x else x

/-- DQNT's exact value of an element, then one rounding (R334). -/
def dequant (code side : Nat) (dst : Fmt) (u : Nat) : Nat :=
  let x := if code ≤ 3 then 127 else if 12 ≤ code then side / 256 % 256 else side % 256
  if code = 4 && x == 255 then dst.nanCode
  else
    match elemValue code side u with
    | .fin neg m e => (dst.round .rne false false neg m (e + x - 127) false).1
    | .inf n => dst.infCode n
    | .nan _ => dst.nanCode

/-! ## The plane array's blocks -/

/-- W_A of a format (R146); B is fetched as 16 magnitude bits. -/
def planesOf (code : Nat) : Nat :=
  if code ≤ 1 then 16 else if code ≤ 3 then 8 else if code = 12 then 5 else if code = 13 then 9 else fmtBits code

/-- A block as it is fetched: its element codes, its side byte, and its block exponent; `zero`: the code −8 (R139,
R140); `nan`: an E8M0 byte of 0xFF. -/
structure Block where
  code : Nat
  els  : List Nat
  side : Nat
  x    : Int
  zero : Bool
  nan  : Bool
  deriving DecidableEq, Repr

/-- The block's exponent from its own data (R139). -/
def ownExp (code side : Nat) : Int := if 4 ≤ code && code ≤ 11 then ((side % 256 : Nat) : Int) else 127

/-- The block's values, each without its block exponent. -/
def Block.values (b : Block) : List Num := b.els.map (elemValue b.code b.side)

/-- The block holds a NaN or an infinity, or its exponent is one (R149). -/
def Block.bad (b : Block) : Bool :=
  b.nan || b.values.any (fun v => match v with | .fin _ _ _ => false | _ => true)

/-- Align (R147): signed magnitudes, and e0. -/
def Block.align (b : Block) (w : Nat) : List Int × Int :=
  if b.code ≤ 3 then
    match blockLog b.values with
    | none => (b.els.map (fun _ => 0), 0)
    | some l =>
      let e0 := l - ((w : Int) - 1)
      (b.values.map (fun v => match v with
        | .fin neg m e => roundInt neg m e e0
        | _ => 0), e0)
  else if b.code = 4 then
    (b.values.map (fun v => match v with
      | .fin neg m e => roundInt neg m e (-1)
      | _ => 0), -1)
  else
    (b.els.map (blockInt b.code b.side), if b.code ≤ 11 then 1 - (fmtBits b.code : Int) else 0)

/-- The exact integer product of two aligned blocks (R148). -/
def dotInt : List Int → List Int → Int
  | a :: as, b :: bs => a * b + dotInt as bs
  | _, _ => 0

/-- One block's p, rounded to FP32; none: a zero block (R148, R149). -/
def blockProduct (a b : Block) : Option Nat :=
  if a.zero || b.zero then none
  else if a.bad || b.bad then some Fmt.f32.nanCode
  else
    let (ma, ea) := a.align (planesOf a.code)
    let (mb, eb) := b.align 16
    let p := dotInt ma mb
    if p = 0 then some 0
    else some (Fmt.f32.round .rne false false (p < 0) p.natAbs (ea + eb + (a.x - 127) + (b.x - 127)) false).1

/-- A tile element after the blocks of its row and column, in ascending kb (R148). -/
def accumulate (acc : Nat) : List (Option Nat) → Nat
  | [] => acc
  | none :: ps => accumulate acc ps
  | some p :: ps => accumulate (addRne acc p) ps

end Sys2Proof.Machine
end

