-- ==== Sys2Proof/Machine/Conversion.lean ====
section
/-! DEFINITION. The conversion and block-quantisation instructions (16_ref_registers_lanes_conversion.md R328 to R334). -/

namespace Sys2Proof.Machine

/-- The range of an integer type. -/
def intMin (ty : Nat) : Int := if signedTy ty then -(2 ^ (typeBits ty - 1)) else 0
def intMax (ty : Nat) : Int := if signedTy ty then 2 ^ (typeBits ty - 1) - 1 else 2 ^ typeBits ty - 1

/-- The integer that a code of an integer type holds. -/
def intOf (ty code : Nat) : Int :=
  if signedTy ty then signedField (typeBits ty) code else (code % 2 ^ typeBits ty : Nat)

/-- The code of an integer in a type. -/
def codeOfInt (ty : Nat) (v : Int) : Nat := (v % 2 ^ typeBits ty).toNat

/-- Every value of `src` is one of `dst`: a conversion to a wider or equal format (R329). -/
def Fmt.covers (dst src : Fmt) : Bool := src.eb ≤ dst.eb && src.fb ≤ dst.fb

/-- A float rounded to an integer of a type (R329). (DEDUCED, log entry 32.) -/
def floatToInt (rm : RM) (ty : Nat) (x : Num) : Nat × BitVec 6 :=
  match x with
  | .nan _ => (0, fNV)
  | .inf n => (codeOfInt ty (if n then intMin ty else intMax ty), fNV)
  | .fin n m e =>
    let (q, nx) := quantize rm n m e 0 false
    let v : Int := if n then -(q : Int) else q
    if v < intMin ty then (codeOfInt ty (intMin ty), fNV)
    else if intMax ty < v then (codeOfInt ty (intMax ty), fNV)
    else (codeOfInt ty v, if nx then fNX else 0)

/-- CVT of one code (R329). (DEDUCED, log entry 32.) -/
def convertCode (rm : RM) (ftz sat : Bool) (src dst code : Nat) : Nat × BitVec 6 :=
  match fmtOf src, fmtOf dst with
  | some f, some g => g.convert rm ftz (sat && !g.covers f) (f.input ftz (code % 2 ^ typeBits src))
  | some f, none => floatToInt rm dst (f.input ftz (code % 2 ^ typeBits src))
  | none, some g => g.convert rm ftz sat (numOfInt (intOf src code) 0)
  | none, none =>
    let v := intOf src code
    (codeOfInt dst (if sat then clampInt (intMin dst) (intMax dst) v else v), 0)

/-- CVT's control byte (R328). (DEDUCED, log entry 15.) -/
def cvtRnd (o : Op) : Nat := o.b.toNat / 32
def cvtSat (o : Op) : Bool := o.b.getLsbD 4
def cvtSrc (o : Op) : Nat := o.b.toNat % 16

/-- CVT (R328, R329). -/
def execCvt (o : Op) (s : State) : Out := .next (s.laneOp (.cvt o) o
  (fun _ => if 5 ≤ cvtRnd o || 14 ≤ cvtSrc o then some { cause := 0x01 } else none)
  (fun L =>
    let src := cvtSrc o
    let r := convertCode (rndOf (cvtRnd o) L.th.fmode) (ftzOf L.th.fmode) (cvtSat o) src L.fn
      (L.source (wideTy src) L.fA 0).toNat
    (L.putD (wideTy L.fn) (placed L.fn r.1)).raiseFlags r.2))

/-- One operand of PACK in its element type (R330). -/
def packOne (mode : BitVec 3) (ty : Nat) (sat : Bool) (code : Nat) : Nat × BitVec 6 :=
  match fmtOf ty with
  | some _ => convertCode (rmOf mode) (ftzOf mode) sat 8 ty code
  | none => (codeOfInt ty (clampInt (intMin ty) (intMax ty) (intOf (if signedTy ty then 0 else 1) code)), 0)

/-- PACK's sources in order: A, B, and C and E for the 8-bit types (R330). An immediate B is read as the sources are. -/
def Lane.packSources (L : Lane) : List Nat :=
  let ty := L.fn
  let b := (lowWord (L.srcB (shapeOf (.pack L.o)) (if (fmtOf ty).isSome then 8 else 0) false)).toNat
  if typeBits ty = 8 then
    [L.codeA, (lowWord (L.source false L.fB 0)).toNat, L.codeC, (lowWord (L.source false L.fE 0)).toNat]
  else [L.codeA, b]

/-- PACK (R330). -/
def execPack (o : Op) (s : State) : Out := .next (s.laneOp (.pack o) o noCheck (fun L =>
  let rs := L.packSources.map (packOne L.th.fmode L.fn (o.m.getLsbD 1))
  (L.putD false (BitVec.ofNat 64 (elemString (typeBits L.fn) (rs.map (·.1))))).raiseFlags
    (rs.foldl (fun f r => f ||| r.2) 0)))

/-- UNPK (R331). -/
def execUnpk (o : Op) (s : State) : Out := .next (s.laneOp (.unpk o) { o with imm := false }
  (fun L => if 32 / typeBits L.fn ≤ L.fB then some { cause := 0x01 } else none)
  (fun L =>
    let u := elemAt (typeBits L.fn) L.fB L.codeA
    match fmtOf L.fn with
    | some f =>
      let r := Fmt.f32.convert .rne false false (f.unpack u)
      L.putF r
    | none => L.putD false (BitVec.ofInt 64 (intOf L.fn u))))

/-- The 32 values of QNT's and QEXP's block (R332). -/
def Lane.quantIn (L : Lane) : List Num :=
  if L.o.m.getLsbD 0 then
    let bits := stringOf (L.words L.fA 16 0)
    (List.range 32).map (fun k => Fmt.bf16.unpack (elemAt 16 k bits))
  else (L.words L.fA 32 0).map (fun w => Fmt.f32.unpack w.toNat)

/-- A block's element words and side register (R145, R332, R333). -/
def quantise (code : Nat) (xs : List Num) : List Word :=
  let x := quantExp code xs
  let w := fmtBits code
  wordsOf w (elemString w (xs.map (quantElem code x (blockLog xs).isNone))) ++ [BitVec.ofNat 32 (quantSide code x)]

/-- NV for an infinite or NaN element (R333). -/
def quantFlags (xs : List Num) : BitVec 6 :=
  if xs.any (fun v => match v with | .fin _ _ _ => false | _ => true) then fNV else 0

/-- QNT (R333). -/
def execQnt (o : Op) (s : State) : Out := .next (s.laneOp (.qnt o) o noCheck (fun L =>
  (L.th.putAll (L.dstReg (fmtBits L.fn + 1)) (quantise L.fn L.quantIn)).raiseFlags (quantFlags L.quantIn)))

/-- QEXP (R333). -/
def execQexp (o : Op) (s : State) : Out := .next (s.laneOp (.qexp o) o noCheck (fun L =>
  L.putD false (BitVec.ofNat 64 (quantExp L.fn L.quantIn))))

/-- DQNT's 32 results (R334). -/
def Lane.dequantOut (L : Lane) (dst : Fmt) : List Nat :=
  let w := fmtBits L.fn
  let ws := L.words L.fA (if L.fn ≤ 3 then w else w + 1) 0
  let bits := stringOf (ws.take w)
  let side := (ws.getD w 0).toNat
  (List.range 32).map (fun k => dequant L.fn side dst (elemAt w k bits))

/-- DQNT (R334). -/
def execDqnt (o : Op) (s : State) : Out := .next (s.laneOp (.dqnt o) o noCheck (fun L =>
  if o.m.getLsbD 0 then L.th.putAll (L.dstReg 16) (wordsOf 16 (elemString 16 (L.dequantOut .bf16)))
  else L.th.putAll (L.dstReg 32) ((L.dequantOut .f32).map (BitVec.ofNat 32))))

end Sys2Proof.Machine
end

