-- ==== Sys2Proof/Machine/ConvoyOps.lean ====
section
/-! DEFINITION. The convoy instructions (15_ref_memory_engines_convoys.md R304 to R308), the mirrors' updates and the shed
timer (03_colander_and_convoys.md R62, R63). -/

namespace Sys2Proof.Machine

/-- A slip limit out of range (R304, R307); of a vector register, the lowest active home lane's (R281). -/
def slipCheck (i : Instr) (L : Lane) : Option Trap :=
  if 65535 < ((L.leader i).srcB (shapeOf i) 0 false).toNat then some { cause := 0x01 } else none

/-- CVJOIN (R304). (DEDUCED, log entry 34.) -/
def execCvjoin (o : Op) (s : State) : Out :=
  .next (s.groupOp (.cvjoin o) o (slipCheck (.cvjoin o)) (fun L s1 =>
    s1.cvJoin L.c L.slot ((L.g.sget L.fA).extractLsb' 0 16) ((L.srcB (shapeOf (.cvjoin o)) 0 false).extractLsb' 0 16)))

/-- CVLEAVE (R305). -/
def execCvleave (o : Op) (s : State) : Out :=
  .next (s.groupOp (.cvleave o) o noCheck (fun L s1 => s1.cvLeave L.c L.slot))

/-- A count out of range, or negative as an immediate (R306). -/
def cvstepCheck (i : Instr) (L : Lane) : Option Trap :=
  if 65535 < (L.srcB (shapeOf i) 0 false).toNat then some { cause := 0x01 } else none

/-- CVSTEP: each active thread steps by its own count (R306, R59). -/
def execCvstep (o : Op) (s : State) : Out :=
  .next (s.frame (.cvstep o) o (cvstepCheck (.cvstep o)) (fun wave ok s0 =>
    s0.cvSteps s.cur.core s.cur.slot (((byLane ok).filterMap (s0.lane? o wave)).filterMap (fun L =>
      if L.steps (.cvstep o) = 0 then none else some (L.tid, BitVec.ofNat 32 (L.steps (.cvstep o)))))) false)

/-- CVSLIP (R307). -/
def execCvslip (o : Op) (s : State) : Out :=
  .next (s.groupOp (.cvslip o) o (slipCheck (.cvslip o)) (fun L s1 =>
    s1.modGroup L.c L.slot (fun g => { g with
      cv := { g.cv with slip := (L.srcB (shapeOf (.cvslip o)) 0 false).extractLsb' 0 16 } })))

/-- The CVSTAT word of a thread (R308). -/
def Lane.cvWord (L : Lane) : Dword :=
  if L.g.cv.id = 0 then 0
  else
    let m := L.mirror
    let present := match m with | some x => min x.present.length 0x7FFF | none => 0
    let low := match m with | some x => x.low.getD 0 | none => 0
    BitVec.ofNat 64 (L.g.cv.id.toNat * 2 ^ 48 + (if L.g.cv.shed then 2 ^ 47 else 0) + present * 2 ^ 32
      + (L.th.cursor - low).toNat)

/-- CVSTAT (R308). -/
def execCvstat (o : Op) (s : State) : Out := .next (s.laneOp (.cvstat o) o noCheck (fun L => L.putD true L.cvWord))

/-- CONVOY_MIRROR_UPDATE: a cluster's mirror is brought up to the table (R63). -/
def execConvoyMirrorUpdate (k ctx cv : Nat) (s : State) : Out :=
  .next ({ s with net := s.net.filter (fun e => e.2 != Msg.mirror k ctx cv) }.cvMirror k ctx cv)

/-- The present member at L, if any, whose shed timer has reached its own timeout (R62). -/
def State.overdue (s : State) (ctx cv : Nat) : Option (Nat × Nat) :=
  let x := s.convoy (cvKey ctx cv)
  let low := s.lowOf x.present
  x.present.find? (fun m =>
    match s.group? m.1 m.2 with
    | some g => g.cursor == low && g.cv.timeout ≤ tget 0 x.timer (clusterOf m.1)
    | none => false)

/-- SHED_TIMEOUT (R62). -/
def execShedTimeout (ctx cv : Nat) (s : State) : Out :=
  match s.overdue ctx cv with
  | some m => .next (s.cvShed m.1 m.2 1)
  | none => .next s

end Sys2Proof.Machine
end

