-- ==== Sys2Proof/Machine/Matrix.lean ====
section
/-! DEFINITION. Join sets, MMA and the plane array, scale memory and the accumulator instructions
(09_arithmetic_units.md R161 to R175, 17_ref_arithmetic_matrix.md R354 to R362). -/

namespace Sys2Proof.Machine

def Group.join (g : Group) (j : Nat) : Join := tget Join.empty g.j j
def Group.setJoin (g : Group) (j : Nat) (x : Join) : Group := { g with j := tset g.j j x }

/-! ## Join registers -/

/-- COUNT as JDECL gives it (R354): IMM20, or the W1 literal. -/
def jdeclCount (o : Op) : Int := if o.form == .w64 then (Lane.imm20 o).toInt else o.w1.toInt

/-- The checks of JDECL, in order (R354). -/
def jdeclCheck (o : Op) (L : Lane) : Option Trap :=
  let k := jdeclCount o
  let first := ((L.g.sget L.fA).extractLsb' 0 10).toNat
  if k < 1 || 64 < k then some { cause := 0x01 }
  else if L.g.threads.length < first + k.toNat then some { cause := 0x01 }
  else if (L.g.join L.fD).signed != 0 then some { cause := 0x0E }
  else none

/-- JDECL (R354). -/
def execJdecl (o : Op) (s : State) : Out := .next (s.groupOp (.jdecl o) o (jdeclCheck o) (fun L s1 =>
  s1.modGroup L.c L.slot (fun g => g.setJoin L.fD
    { count := (jdeclCount o).toNat, first := ((L.g.sget L.fA).extractLsb' 0 10).toNat, signed := 0, sig := none
      signers := [] })))

/-- The threads whose signature on a join register is pending and that wait there (R171). -/
def Group.pendingSigners (g : Group) (jn : Nat) : List Nat :=
  let j := g.join jn
  (List.range j.count).filterMap (fun q =>
    match g.threads[j.first + q]? with
    | some th =>
      if j.signed.getLsbD q && (match th.wait with | some w => w.kind == .signature jn | none => false) then some (j.first + q)
      else none
    | none => none)

/-- Threads take one precise trap each. -/
def State.preciseAll (s : State) (c g : Nat) (ts : List Nat) (cause : BitVec 16) (va : Dword) : State :=
  ts.foldl (fun s1 t => s1.precise c g t cause va 0) s

/-- JRST: each waiting signer traps at its MMA with 0x0E (R355, R171). -/
def execJrst (o : Op) (s : State) : Out := .next (s.groupOp (.jrst o) o noCheck (fun L s1 =>
  (s1.modGroup L.c L.slot (fun g => g.setJoin L.fD { Join.empty with first := (g.join L.fD).first })).preciseAll L.c L.slot
      (L.g.pendingSigners L.fD) 0x0E 0))

/-! ## Scale memory -/

/-- Codes of a group's window (R167). -/
def Group.scaleCodes (g : Group) : Nat := 512 * g.record.scale
def Group.scaleCode (g : Group) (n : Nat) : Nat := (tget 0 g.scale (n / 2)).toNat / 16 ^ (n % 2) % 16
def Group.setScale (g : Group) (n c : Nat) : Group :=
  let old := (tget 0 g.scale (n / 2)).toNat
  let new : Byte := BitVec.ofNat 8 (if n % 2 = 0 then old / 16 * 16 + c % 16 else c % 16 * 16 + old % 16)
  { g with scale := tset g.scale (n / 2) new }

/-- A scale register's base and index (R168). -/
def scaleBase (d : Dword) : Nat := (d.extractLsb' 0 8).toNat
def scaleIdx (d : Dword) : Nat := (d.extractLsb' 8 13).toNat

/-- A block exponent's code on a base, and whether it clamps (R140). -/
def scaleConvert (e b : Nat) : Nat × Bool :=
  let c : Int := (e : Int) - b
  ((clampInt (-7) 7 c % 16).toNat, c < -7 || 7 < c)

/-- The index that SCL writes (R359). -/
def Lane.sclIndex (L : Lane) : Nat := scaleIdx (L.g.sget L.fA) + L.codeC

def sclCheck (L : Lane) : Option Trap := if L.g.scaleCodes ≤ L.sclIndex then some { cause := 0x09 } else none

/-- SCL of each active thread in ascending home lane, with the code and flags that f gives (R359). -/
def State.sclOp (s : State) (i : Instr) (o : Op) (f : Lane → Nat × BitVec 6) : State :=
  s.frame i o sclCheck (fun wave ok s0 =>
    ((byLane ok).filterMap (s0.lane? o wave)).foldl (fun s1 L =>
      (s1.modGroup L.c L.slot (·.setScale L.sclIndex (f L).1)).modThread L.c L.slot L.tid (·.raiseFlags (f L).2)) s0) false

/-- SCL (R359, R140). -/
def execScl (o : Op) (s : State) : Out := .next (s.sclOp (.scl o) o (fun L =>
  let r := scaleConvert ((L.srcBw (.scl o)).toNat % 256) (scaleBase (L.g.sget L.fA))
  (r.1, if r.2 then fSCLAMP else 0)))

/-- SCL.raw (R359). -/
def execSclRaw (o : Op) (s : State) : Out :=
  .next (s.sclOp (.sclRaw o) o (fun L => ((L.srcBw (.sclRaw o)).toNat % 16, 0)))

/-! ## MMA -/

/-- Fields of the format word (R150). -/
def fmtA (w : Word) : Nat := (w.extractLsb' 0 4).toNat
def fmtB (w : Word) : Nat := (w.extractLsb' 4 4).toNat
def fmtOut (w : Word) : Nat := (w.extractLsb' 10 2).toNat

/-- A side byte is read: always for OI4 and OI8; for E2M1 and BFPn when the scale bit is 0 (R163, R164). -/
def sideUsed (code : Nat) (scaled : Bool) : Bool := 4 ≤ code && (12 ≤ code || !scaled)

/-- A plane-array descriptor's fields (R164), and the bytes of one record. -/
def descKblk (d : Dword) : Nat := (d.extractLsb' 48 12).toNat
def descStride (d : Dword) : Nat := (d.extractLsb' 32 16).toNat
def descAddr (d : Dword) : Word := lowWord d
def recordBytes (code : Nat) (scaled : Bool) (kblk : Nat) : Nat :=
  kblk * (4 * fmtBits code) + (if sideUsed code scaled then kblk else 0)

/-- The address of record i. -/
def recordAt (d : Dword) (i : Nat) : Word := descAddr d + BitVec.ofNat 32 (descStride d * i)

/-- n bytes at a scratchpad address lie within one allocation of a context (R74). -/
def State.inSpad (s : State) (c ctx : Nat) (sa : Word) (n : Nat) : Bool :=
  match spadAt c sa with
  | some (k, off) => (s.core k).covers ctx off n
  | none => false

/-- R165's checks of both descriptors, in order. (DEDUCED, log entry 19.) -/
def State.descTrap (s : State) (c ctx : Nat) (fw : Word) (da db : Dword) : Option Trap :=
  let bad : Dword → Bool := fun d => (descAddr d).toNat % 4 != 0 || descStride d % 4 != 0
  let out : Dword → Nat → Bool → Option Word := fun d code scaled =>
    ((List.range 64).map (recordAt d)).find? (fun sa => !s.inSpad c ctx sa (recordBytes code scaled (descKblk d)))
  if descKblk da = 0 || descKblk db = 0 || descKblk da != descKblk db then some { cause := 0x01 }
  else if bad da then some { cause := 0x0A, va := (descAddr da).setWidth 64 }
  else if bad db then some { cause := 0x0A, va := (descAddr db).setWidth 64 }
  else
    match out da (fmtA fw) (fw.getLsbD 8), out db (fmtB fw) (fw.getLsbD 9) with
    | some sa, _ => some { cause := 0x09, va := sa.setWidth 64 }
    | _, some sb => some { cause := 0x09, va := sb.setWidth 64 }
    | _, _ => none

/-- The scale registers that an MMA names (R356). -/
def mmaScaleA (o : Op) (g : Group) : Dword := g.sget (o.w1.extractLsb' 14 6).toNat
def mmaScaleB (o : Op) (g : Group) : Dword := g.sget (o.w1.extractLsb' 8 6).toNat

/-- A side's codes lie within the group's window (R168). -/
def Group.scaleOk (g : Group) (d : Dword) (scaled : Bool) (n : Nat) : Bool := !scaled || scaleIdx d + n ≤ g.scaleCodes

/-- The checks at the last signature, in the order of R357: R151, R165, R168. (DEDUCED, log entry 19.) -/
def State.mmaTrap (s : State) (c : Nat) (g : Group) (o : Op) (count : Nat) (fws : List Word) : Option Trap :=
  let fw := fws.headD 0
  let da := g.sget (o.w1.extractLsb' 0 8).toNat
  let db := g.sget (o.w1.extractLsb' 20 8).toNat
  if fws.any (fun w => w.extractLsb' 0 12 != fw.extractLsb' 0 12) then some { cause := 0x07 }
  else if 14 ≤ fmtA fw || 14 ≤ fmtB fw || 2 ≤ fmtOut fw then some { cause := 0x01 }
  else
    match (if o.fn = 0 then none else s.descTrap c g.ctx fw da db) with
    | some e => some e
    | none =>
      let n := if o.fn = 0 then count else 64 * descKblk da
      if g.scaleOk (mmaScaleA o g) (fw.getLsbD 8) n && g.scaleOk (mmaScaleB o g) (fw.getLsbD 9) n then none
      else some { cause := 0x09 }

/-- One operand side as the last signature reads it (R163, R164, R169). (DEDUCED, log entry 36.) -/
def Group.planeSide (g : Group) (o : Op) (fw : Word) (isB : Bool) (regs : List (Thread × Nat)) : PlaneSide :=
  let code := if isB then fmtB fw else fmtA fw
  let scaled := fw.getLsbD (if isB then 9 else 8)
  let sc := if isB then mmaScaleB o g else mmaScaleA o g
  let d := g.sget (if isB then o.w1.extractLsb' 20 8 else o.w1.extractLsb' 0 8).toNat
  let n := if o.fn = 0 then regs.length else 64 * descKblk d
  let w := fmtBits code
  { code := code, scaled := scaled, base := scaleBase sc
    codes := if scaled then (List.range n).map (fun k => g.scaleCode (scaleIdx sc + k)) else []
    rows := if o.fn = 0 then
        regs.map (fun e => (e.1.getAll e.2 w, if sideUsed code scaled then (e.1.get (e.2 + w)).toNat % 256 else 0))
      else []
    desc := if o.fn = 0 then none else some d }

/-- Signers go on past their MMAs (R172). -/
def State.releaseSigners (s : State) (c g : Nat) (l : Tbl Dword) : State :=
  l.foldl (fun s1 e =>
    match s1.thread? c g e.1 with
    | some th =>
      (match th.wait with
       | some w => (match w.kind with
          | .signature _ => (s1.modThread c g e.1 (fun x => { x with wait := none, pc := e.2 })).settle c g e.1
          | _ => s1)
       | none => s1)
    | none => s1) s

/-- The signature that completes SIGNED (R172, R357): the checks, then the operands are read, the tile is marked
empty, and the operation takes its place in the array's queue. -/
def State.mmaIssue (s : State) (c gs : Nat) (o : Op) : State :=
  match s.group? c gs with
  | none => s
  | some g =>
    let jn := o.a.toNat
    let j := g.join jn
    let sg : List (Nat × Thread × Signer) := (List.range j.count).filterMap (fun q =>
      match g.threads[j.first + q]?, tfind j.signers q with
      | some th, some x => some (j.first + q, th, x)
      | _, _ => none)
    let fws := sg.map (fun e => e.2.1.get e.2.2.fmt)
    let done := s.modGroup c gs (fun g1 => g1.setJoin jn { j with signed := 0, sig := none, signers := [] })
    match s.mmaTrap c g o j.count fws with
    | some e => done.preciseAll c gs (g.pendingSigners jn) e.cause e.va
    | none =>
      let fw := fws.headD 0
      let rel : Tbl Dword := sg.map (fun e => (e.1, e.2.2.next))
      let a := g.planeSide o fw false (sg.map (fun e => (e.2.1, e.2.2.a)))
      let b := g.planeSide o fw true (sg.map (fun e => (e.2.1, e.2.2.b)))
      let kblk := match a.desc with | some d => descKblk d | none => 1
      let wait := o.m.getLsbD 0
      let p : Plane := { slot := gs, tile := o.d.toNat, kblk := kblk, afresh := fmtOut fw == 1, a := a, b := b
                         release := if wait then rel else [] }
      let s1 := (done.modGroup c gs (·.tileDrain o.d.toNat)).modCore c (fun k => { k with planeQ := k.planeQ ++ [p] })
      if wait then s1 else s1.releaseSigners c gs rel

/-- One thread's signature (R357). As the last it stays at issue while its tile is empty or the queue is full. -/
def State.sign (s : State) (o : Op) (wave : List Nat) (t : Nat) : State :=
  match s.lane? o wave t with
  | none => s
  | some L =>
    let jn := o.a.toNat
    let j := L.g.join jn
    match j.rank t with
    | none => s
    | some r =>
      let last := j.completes r
      if last && (L.g.tileEmpty o.d.toNat || (s.core L.c).planeFull) then s
      else
        let me : Signer := { fmt := L.th.reg L.fB, a := L.th.reg L.fC, b := L.th.reg L.fE, next := s.cur.next }
        let j1 := { j with signed := j.signed ||| (1 <<< r), sig := some (sigOf o), signers := tset j.signers r me }
        let s1 := (s.modGroup L.c L.slot (fun g => g.setJoin jn j1)).modThread L.c L.slot t (fun th =>
          { th with wait := some ⟨.signature jn, s.now L.c, false⟩ })
        if last then s1.mmaIssue L.c L.slot o else s1

/-- The checks of a signature (R357): R171; then, in the register form, the rows' registers. -/
def mmaCheck (o : Op) (L : Lane) : Option Trap :=
  if L.joinBad o then some { cause := 0x0E }
  else L.commonTrap { v := if o.fn = 0 then L.mmaUses else [] }

def State.mmaOp (s : State) (i : Instr) (o : Op) : State :=
  s.frame i o (mmaCheck o) (fun wave ok s0 => (byLane ok).foldl (fun s1 t => s1.sign o wave t) s0) true

/-- MMA, register form (R356, R357). -/
def execMmaRegister (o : Op) (s : State) : Out := .next (s.mmaOp (.mmaRegister o) o)

/-- MMA, descriptor form (R356, R357). -/
def execMmaDescriptor (o : Op) (s : State) : Out := .next (s.mmaOp (.mmaDescriptor o) o)

/-! ## The plane array -/

/-- A fetched block (R139, R140). -/
def PlaneSide.block (p : PlaneSide) (kblk i kb : Nat) (ws : List Word) (side : Nat) : Block :=
  let c := p.codes.getD (i * kblk + kb) 0
  let bits := stringOf ws
  { code := p.code, els := (List.range 32).map (fun k => elemAt (fmtBits p.code) k bits), side := side
    x := if p.scaled then (p.base : Int) + signedField 4 c else ownExp p.code side
    zero := p.scaled && c == 8
    nan := !p.scaled && p.code == 4 && side == 255 }

/-- The words of little-endian bytes. -/
def bytesToWords : Nat → List Byte → List Word
  | 0, _ => []
  | n + 1, bs => BitVec.ofNat 32 (leNat (bs.take 4)) :: bytesToWords n (bs.drop 4)

/-- A record's blocks (R164): KBLK blocks of element words, then the side bytes. -/
def PlaneSide.recordBlocks (p : PlaneSide) (kblk i : Nat) (bs : List Byte) : List Block :=
  let w := fmtBits p.code
  (List.range kblk).map (fun kb =>
    p.block kblk i kb (bytesToWords w (bs.drop (kb * 4 * w)))
      (if sideUsed p.code p.scaled then (bs.getD (kblk * 4 * w + kb) 0).toNat else 0))

/-- The 64 rows of a side, none where no signer has the rank (R163); scratchpad records are read here, while the operation
runs (R166). (DEDUCED, log entry 36.) -/
def State.planeRows (s : State) (c : Nat) (p : PlaneSide) (kblk : Nat) : List (Option (List Block)) × State :=
  match p.desc with
  | none =>
    ((List.range 64).map (fun i => p.rows[i]?.map (fun r => [p.block 1 i 0 r.1 r.2])), s)
  | some d =>
    (List.range 64).foldl (fun acc i =>
      let (bs, s1) := acc.2.spadLoad c (recordAt d i) (recordBytes p.code p.scaled kblk)
      (acc.1 ++ [some (p.recordBlocks kblk i bs)], s1)) ([], s)

/-- The p of each block of a row and column (R148); a missing row or column gives +0 (R163, R357). -/
def products (kblk : Nat) (a b : Option (List Block)) : List (Option Nat) :=
  match a, b with
  | some x, some y => (x.zip y).map (fun e => blockProduct e.1 e.2)
  | _, _ => List.replicate kblk (some 0)

/-- The tile after the operation (R148, R162), +0 elements not listed. -/
def planeTile (p : Plane) (old : Nat → Nat → Word) (rows cols : List (Option (List Block))) : Tbl Word :=
  (List.range 4096).filterMap (fun n =>
    let i := n / 64
    let j := n % 64
    let acc := if p.afresh then 0 else (old i j).toNat
    let v := accumulate acc (products p.kblk (rows.getD i none) (cols.getD j none))
    if v = 0 then none else some (n, BitVec.ofNat 32 v))

/-- PLANE_OP_START: the array takes the oldest queued operation, unless it is busy or R22 throttles the core (R173). -/
def execPlaneOpStart (c : Nat) (s : State) : Out :=
  let k := s.core c
  match k.planeQ with
  | [] => .next s
  | p :: rest =>
    if k.plane.isSome || k.hot then .next s
    else .next (s.setCore c { k with plane := some p, planeQ := rest })

/-- PLANE_OP_COMPLETE: the tile is written and becomes full, and with WAIT = 1 the signers go on (R172, R357). (DEDUCED, log entry 36.) -/
def execPlaneOpComplete (c : Nat) (s : State) : Out :=
  match (s.core c).plane with
  | none => .next s
  | some p =>
    match s.group? c p.slot with
    | none => .next (s.modCore c (fun k => { k with plane := none }))
    | some g =>
      let (rows, s1) := s.planeRows c p.a p.kblk
      let (cols, s2) := s1.planeRows c p.b p.kblk
      let tile := planeTile p (fun i j => g.acc p.tile i j) rows cols
      let s3 := s2.modGroup c p.slot (fun x => { x with x := tset x.x p.tile tile }.tileFill p.tile)
      .next ((s3.modCore c (fun k => { k with plane := none })).releaseSigners c p.slot p.release)

/-! ## The accumulator instructions -/

/-- ACCZ (R360). -/
def execAccz (o : Op) (s : State) : Out :=
  .next (s.groupPut (.accz o) o (fun L g => { g with x := tdel g.x L.fD }))

/-- ROW and COL of a position word (R361). -/
def posRow (w : Word) : Nat := (w.extractLsb' 8 6).toNat
def posCol (w : Word) : Nat := (w.extractLsb' 0 6).toNat

/-- A COL + N above 64 traps (R361). -/
def accCheck (i : Instr) (o : Op) (L : Lane) : Option Trap :=
  if 64 < posCol (L.srcBw i) + accCount o then some { cause := 0x01 } else none

/-- ACCRD: the destinations are empty until the next front cycle (R127, R361). (DESIGN CHOICE, log entry 23.) -/
def execAccrd (o : Op) (s : State) : Out := .next (s.laneOp (.accrd o) o (accCheck (.accrd o) o) (fun L =>
  let w := L.srcBw (.accrd o)
  L.th.fillAll (L.dstReg (accCount o)) ((List.range (accCount o)).map (fun k => L.g.acc L.fA (posRow w) (posCol w + k)))))

/-- Consecutive elements of a row written. -/
def Group.putRow (g : Group) (x i j : Nat) : List Word → Group
  | [] => g
  | w :: ws => (g.setAcc x i j w).putRow x i (j + 1) ws

/-- ACCWR: threads in ascending home lane (R361). -/
def execAccwr (o : Op) (s : State) : Out := .next (s.frame (.accwr o) o (accCheck (.accwr o) o) (fun wave ok s0 =>
  ((byLane ok).filterMap (s0.lane? o wave)).foldl (fun s1 L =>
    let w := L.srcBw (.accwr o)
    s1.modGroup L.c L.slot (·.putRow L.fD (posRow w) (posCol w) (L.words L.fA (accCount o) L.moda))) s0) false)

/-- The element size of ACCST's type, and an element's bytes (R362). -/
def accstSize (fn : Nat) : Nat := if fn = 8 then 4 else 2
def accstCode (fn : Nat) (w : Word) : Nat :=
  if fn = 8 then w.toNat else ((halfFmt fn).convert .rne false false (Fmt.f32.unpack w.toNat)).1

/-- ACCST's checks, in order (R362): bits [31:24] of ADDR, alignment, bounds of every row. -/
def accstCheck (o : Op) (L : Lane) : Option Trap :=
  let d := L.g.sget L.fA
  let z := accstSize o.fn.toNat
  let va := (descAddr d).setWidth 64
  if (descAddr d).extractLsb' 24 8 != 0 then some { cause := 0x09, va := va }
  else if (descAddr d).toNat % z != 0 || descStride d % z != 0 then some { cause := 0x0A, va := va }
  else
    match ((List.range 64).map (recordAt d)).find? (fun sa => !L.s.inSpad L.c L.g.ctx sa (64 * z)) with
    | some sa => some { cause := 0x09, va := sa.setWidth 64 }
    | none => none

/-- ACCST: rows in ascending order, elements in ascending order (R362). -/
def execAccst (o : Op) (s : State) : Out := .next (s.groupOp (.accst o) o (accstCheck o) (fun L s1 =>
  let d := L.g.sget L.fA
  let z := accstSize L.fn
  (List.range 64).foldl (fun s2 i =>
    s2.spadStore L.c (recordAt d i) ((List.range 64).flatMap (fun j => leBytes z (accstCode L.fn (L.g.acc L.fB i j))))) s1))

end Sys2Proof.Machine
end

