-- ==== Sys2Proof/Machine/Dispatch.lean ====
section
/-! DEFINITION. The one dispatch: each instruction of the table to its meaning. -/

namespace Sys2Proof.Machine

def exec (i : Instr) (s : State) : Host.Outcome State Fault Refusal :=
  match i with
  | .tempSample vault temp => Sys2Proof.Machine.execTempSample vault temp s
  | .bandChange vault => Sys2Proof.Machine.execBandChange vault s
  | .patrolScrub vault corrected bad => Sys2Proof.Machine.execPatrolScrub vault corrected bad s
  | .vaultDataLeaves slice way ecc => Sys2Proof.Machine.execVaultDataLeaves slice way ecc s
  | .cxlLinkDown port => Sys2Proof.Machine.execCxlLinkDown port s
  | .cxlLinkUp port => Sys2Proof.Machine.execCxlLinkUp port s
  | .slabModeChange o => Sys2Proof.Machine.execSlabModeChange o s
  | .keyDraw o => Sys2Proof.Machine.execKeyDraw o s
  | .keyLoadWrapped o => Sys2Proof.Machine.execKeyLoadWrapped o s
  | .keyClear o => Sys2Proof.Machine.execKeyClear o s
  | .tlbMissToWalker m => Sys2Proof.Machine.execTlbMissToWalker m s
  | .walkStart die => Sys2Proof.Machine.execWalkStart die s
  | .walkEntryRead die walk => Sys2Proof.Machine.execWalkEntryRead die walk s
  | .adCompareSwap die walk => Sys2Proof.Machine.execAdCompareSwap die walk s
  | .walkRetry die seq => Sys2Proof.Machine.execWalkRetry die seq s
  | .walkDeliver die seq => Sys2Proof.Machine.execWalkDeliver die seq s
  | .fqheadWrite die v => Sys2Proof.Machine.execFqheadWrite die v s
  | .fqcfgWrite die v => Sys2Proof.Machine.execFqcfgWrite die v s
  | .sliceReadAccept m => Sys2Proof.Machine.execSliceReadAccept m s
  | .umbraClose slice way => Sys2Proof.Machine.execUmbraClose slice way s
  | .reflectionArrival m => Sys2Proof.Machine.execReflectionArrival m s
  | .tick cluster => Sys2Proof.Machine.execTick cluster s
  | .cohStoreAtHome m => Sys2Proof.Machine.execCohStoreAtHome m s
  | .storeAck m => Sys2Proof.Machine.execStoreAck m s
  | .renewalAtHome m => Sys2Proof.Machine.execRenewalAtHome m s
  | .renewalReply m => Sys2Proof.Machine.execRenewalReply m s
  | .homeAtomic m => Sys2Proof.Machine.execHomeAtomic m s
  | .exclusiveRequest m => Sys2Proof.Machine.execExclusiveRequest m s
  | .exclusiveRecall m => Sys2Proof.Machine.execExclusiveRecall m s
  | .exclusiveTimeout core line => Sys2Proof.Machine.execExclusiveTimeout core line s
  | .exclusiveReturn m => Sys2Proof.Machine.execExclusiveReturn m s
  | .writeBackAtHome m => Sys2Proof.Machine.execWriteBackAtHome m s
  | .hostCxlRead pa n => Sys2Proof.Machine.execHostCxlRead pa n s
  | .hostCxlWrite pa bytes => Sys2Proof.Machine.execHostCxlWrite pa bytes s
  | .wayFlushComplete core way => Sys2Proof.Machine.execWayFlushComplete core way s
  | .jobAccept cluster => Sys2Proof.Machine.execJobAccept cluster s
  | .jobStart cluster => Sys2Proof.Machine.execJobStart cluster s
  | .engineUnitDelivery cluster ticket => Sys2Proof.Machine.execEngineUnitDelivery cluster ticket s
  | .jobComplete cluster ticket => Sys2Proof.Machine.execJobComplete cluster ticket s
  | .jobErrorEnd cluster ticket => Sys2Proof.Machine.execJobErrorEnd cluster ticket s
  | .rblkGrant core => Sys2Proof.Machine.execRblkGrant core s
  | .sfuResult core quad => Sys2Proof.Machine.execSfuResult core quad s
  | .planeOpStart core => Sys2Proof.Machine.execPlaneOpStart core s
  | .planeOpComplete core => Sys2Proof.Machine.execPlaneOpComplete core s
  | .clockRatioSwitch cluster => Sys2Proof.Machine.execClockRatioSwitch cluster s
  | .groupEnd core slot => Sys2Proof.Machine.execGroupEnd core slot s
  | .queueTailWrite q v => Sys2Proof.Machine.execQueueTailWrite q v s
  | .waitEventPoll q => Sys2Proof.Machine.execWaitEventPoll q s
  | .launchComplete launch => Sys2Proof.Machine.execLaunchComplete launch s
  | .binTimerExpiry ctx node => Sys2Proof.Machine.execBinTimerExpiry ctx node s
  | .wqtPull m => Sys2Proof.Machine.execWqtPull m s
  | .dqServe m => Sys2Proof.Machine.execDqServe m s
  | .dqAnswerWrite m => Sys2Proof.Machine.execDqAnswerWrite m s
  | .accessReplay core id => Sys2Proof.Machine.execAccessReplay core id s
  | .watchdogExpiry core slot tid => Sys2Proof.Machine.execWatchdogExpiry core slot tid s
  | .shedTimeout ctx cv => Sys2Proof.Machine.execShedTimeout ctx cv s
  | .sleepExpiry core slot tid => Sys2Proof.Machine.execSleepExpiry core slot tid s
  | .forcedSave core slot => Sys2Proof.Machine.execForcedSave core slot s
  | .quotaPeriodBoundary ctx => Sys2Proof.Machine.execQuotaPeriodBoundary ctx s
  | .fillerIssue die ctxs => Sys2Proof.Machine.execFillerIssue die ctxs s
  | .supctxWrite k v => Sys2Proof.Machine.execSupctxWrite k v s
  | .registerWrite off v => Sys2Proof.Machine.execRegisterWrite off v s
  | .ulukarFlitReceive link tagOk flit => Sys2Proof.Machine.execUlukarFlitReceive link tagOk flit s
  | .ulukarLinkRetrain link => Sys2Proof.Machine.execUlukarLinkRetrain link s
  | .iadd o => Sys2Proof.Machine.execIadd o s
  | .isub o => Sys2Proof.Machine.execIsub o s
  | .imul o => Sys2Proof.Machine.execImul o s
  | .imulh o => Sys2Proof.Machine.execImulh o s
  | .imad o => Sys2Proof.Machine.execImad o s
  | .imin o => Sys2Proof.Machine.execImin o s
  | .imax o => Sys2Proof.Machine.execImax o s
  | .iabs o => Sys2Proof.Machine.execIabs o s
  | .ineg o => Sys2Proof.Machine.execIneg o s
  | .and o => Sys2Proof.Machine.execAnd o s
  | .or o => Sys2Proof.Machine.execOr o s
  | .xor o => Sys2Proof.Machine.execXor o s
  | .not o => Sys2Proof.Machine.execNot o s
  | .andn o => Sys2Proof.Machine.execAndn o s
  | .shl o => Sys2Proof.Machine.execShl o s
  | .shr o => Sys2Proof.Machine.execShr o s
  | .sar o => Sys2Proof.Machine.execSar o s
  | .rotl o => Sys2Proof.Machine.execRotl o s
  | .bfx o => Sys2Proof.Machine.execBfx o s
  | .bfi o => Sys2Proof.Machine.execBfi o s
  | .clz o => Sys2Proof.Machine.execClz o s
  | .popc o => Sys2Proof.Machine.execPopc o s
  | .brev o => Sys2Proof.Machine.execBrev o s
  | .icmp o => Sys2Proof.Machine.execIcmp o s
  | .lea o => Sys2Proof.Machine.execLea o s
  | .iadd3 o => Sys2Proof.Machine.execIadd3 o s
  | .pand o => Sys2Proof.Machine.execPand o s
  | .por o => Sys2Proof.Machine.execPor o s
  | .pxor o => Sys2Proof.Machine.execPxor o s
  | .pnot o => Sys2Proof.Machine.execPnot o s
  | .pset o => Sys2Proof.Machine.execPset o s
  | .fadd o => Sys2Proof.Machine.execFadd o s
  | .fsub o => Sys2Proof.Machine.execFsub o s
  | .fmul o => Sys2Proof.Machine.execFmul o s
  | .ffma o => Sys2Proof.Machine.execFfma o s
  | .fmin o => Sys2Proof.Machine.execFmin o s
  | .fmax o => Sys2Proof.Machine.execFmax o s
  | .fcmp o => Sys2Proof.Machine.execFcmp o s
  | .fclass o => Sys2Proof.Machine.execFclass o s
  | .frnd o => Sys2Proof.Machine.execFrnd o s
  | .fscale o => Sys2Proof.Machine.execFscale o s
  | .fmode o => Sys2Proof.Machine.execFmode o s
  | .hadd2 o => Sys2Proof.Machine.execHadd2 o s
  | .hmul2 o => Sys2Proof.Machine.execHmul2 o s
  | .hfma2 o => Sys2Proof.Machine.execHfma2 o s
  | .rcp o => Sys2Proof.Machine.execRcp o s
  | .rsq o => Sys2Proof.Machine.execRsq o s
  | .sqrt o => Sys2Proof.Machine.execSqrt o s
  | .exp2 o => Sys2Proof.Machine.execExp2 o s
  | .log2 o => Sys2Proof.Machine.execLog2 o s
  | .sin o => Sys2Proof.Machine.execSin o s
  | .cos o => Sys2Proof.Machine.execCos o s
  | .tanh o => Sys2Proof.Machine.execTanh o s
  | .mov o => Sys2Proof.Machine.execMov o s
  | .moviScalar o => Sys2Proof.Machine.execMoviScalar o s
  | .moviPair o => Sys2Proof.Machine.execMoviPair o s
  | .sel o => Sys2Proof.Machine.execSel o s
  | .smovSS o => Sys2Proof.Machine.execSmovSS o s
  | .smovSV32 o => Sys2Proof.Machine.execSmovSV32 o s
  | .smovSV64 o => Sys2Proof.Machine.execSmovSV64 o s
  | .smovV32S o => Sys2Proof.Machine.execSmovV32S o s
  | .smovV64S o => Sys2Proof.Machine.execSmovV64S o s
  | .prmt o => Sys2Proof.Machine.execPrmt o s
  | .rblkAcq o => Sys2Proof.Machine.execRblkAcq o s
  | .rblkTry o => Sys2Proof.Machine.execRblkTry o s
  | .rblkRel o => Sys2Proof.Machine.execRblkRel o s
  | .rblkQry o => Sys2Proof.Machine.execRblkQry o s
  | .idx o => Sys2Proof.Machine.execIdx o s
  | .idxadd o => Sys2Proof.Machine.execIdxadd o s
  | .srdV32 o => Sys2Proof.Machine.execSrdV32 o s
  | .srdV64 o => Sys2Proof.Machine.execSrdV64 o s
  | .srdS o => Sys2Proof.Machine.execSrdS o s
  | .swrB o => Sys2Proof.Machine.execSwrB o s
  | .swrW o => Sys2Proof.Machine.execSwrW o s
  | .swrS o => Sys2Proof.Machine.execSwrS o s
  | .elect o => Sys2Proof.Machine.execElect o s
  | .bcast o => Sys2Proof.Machine.execBcast o s
  | .voteAll o => Sys2Proof.Machine.execVoteAll o s
  | .voteAny o => Sys2Proof.Machine.execVoteAny o s
  | .voteUni o => Sys2Proof.Machine.execVoteUni o s
  | .ballot o => Sys2Proof.Machine.execBallot o s
  | .red o => Sys2Proof.Machine.execRed o s
  | .scan o => Sys2Proof.Machine.execScan o s
  | .cvt o => Sys2Proof.Machine.execCvt o s
  | .pack o => Sys2Proof.Machine.execPack o s
  | .unpk o => Sys2Proof.Machine.execUnpk o s
  | .qnt o => Sys2Proof.Machine.execQnt o s
  | .qexp o => Sys2Proof.Machine.execQexp o s
  | .dqnt o => Sys2Proof.Machine.execDqnt o s
  | .hdm o => Sys2Proof.Machine.execHdm o s
  | .hdmNorm o => Sys2Proof.Machine.execHdmNorm o s
  | .jdecl o => Sys2Proof.Machine.execJdecl o s
  | .jrst o => Sys2Proof.Machine.execJrst o s
  | .mmaRegister o => Sys2Proof.Machine.execMmaRegister o s
  | .mmaDescriptor o => Sys2Proof.Machine.execMmaDescriptor o s
  | .scl o => Sys2Proof.Machine.execScl o s
  | .sclRaw o => Sys2Proof.Machine.execSclRaw o s
  | .accz o => Sys2Proof.Machine.execAccz o s
  | .accrd o => Sys2Proof.Machine.execAccrd o s
  | .accwr o => Sys2Proof.Machine.execAccwr o s
  | .accst o => Sys2Proof.Machine.execAccst o s
  | .ld o => Sys2Proof.Machine.execLd o s
  | .st o => Sys2Proof.Machine.execSt o s
  | .lds o => Sys2Proof.Machine.execLds o s
  | .sts o => Sys2Proof.Machine.execSts o s
  | .ldc o => Sys2Proof.Machine.execLdc o s
  | .atom o => Sys2Proof.Machine.execAtom o s
  | .atoms o => Sys2Proof.Machine.execAtoms o s
  | .cas o => Sys2Proof.Machine.execCas o s
  | .cass o => Sys2Proof.Machine.execCass o s
  | .fence o => Sys2Proof.Machine.execFence o s
  | .fenceE o => Sys2Proof.Machine.execFenceE o s
  | .lease o => Sys2Proof.Machine.execLease o s
  | .pf o => Sys2Proof.Machine.execPf o s
  | .syncr o => Sys2Proof.Machine.execSyncr o s
  | .syncw o => Sys2Proof.Machine.execSyncw o s
  | .rstate o => Sys2Proof.Machine.execRstate o s
  | .waymask o => Sys2Proof.Machine.execWaymask o s
  | .cpy o => Sys2Proof.Machine.execCpy o s
  | .cpyFill o => Sys2Proof.Machine.execCpyFill o s
  | .gth o => Sys2Proof.Machine.execGth o s
  | .coll o => Sys2Proof.Machine.execColl o s
  | .job o => Sys2Proof.Machine.execJob o s
  | .jwait o => Sys2Proof.Machine.execJwait o s
  | .jqry o => Sys2Proof.Machine.execJqry o s
  | .swarm o => Sys2Proof.Machine.execSwarm o s
  | .swait o => Sys2Proof.Machine.execSwait o s
  | .swpoll o => Sys2Proof.Machine.execSwpoll o s
  | .dq o => Sys2Proof.Machine.execDq o s
  | .wqe o => Sys2Proof.Machine.execWqe o s
  | .wqt o => Sys2Proof.Machine.execWqt o s
  | .cvjoin o => Sys2Proof.Machine.execCvjoin o s
  | .cvleave o => Sys2Proof.Machine.execCvleave o s
  | .cvstep o => Sys2Proof.Machine.execCvstep o s
  | .cvstat o => Sys2Proof.Machine.execCvstat o s
  | .cvslip o => Sys2Proof.Machine.execCvslip o s
  | .bra o => Sys2Proof.Machine.execBra o s
  | .brx o => Sys2Proof.Machine.execBrx o s
  | .lpad o => Sys2Proof.Machine.execLpad o s
  | .call o => Sys2Proof.Machine.execCall o s
  | .callx o => Sys2Proof.Machine.execCallx o s
  | .ret o => Sys2Proof.Machine.execRet o s
  | .exit o => Sys2Proof.Machine.execExit o s
  | .bar o => Sys2Proof.Machine.execBar o s
  | .bara o => Sys2Proof.Machine.execBara o s
  | .barw o => Sys2Proof.Machine.execBarw o s
  | .stbeg o => Sys2Proof.Machine.execStbeg o s
  | .stageAdd o => Sys2Proof.Machine.execStageAdd o s
  | .stageSet o => Sys2Proof.Machine.execStageSet o s
  | .waitl o => Sys2Proof.Machine.execWaitl o s
  | .stend o => Sys2Proof.Machine.execStend o s
  | .strdCtr o => Sys2Proof.Machine.execStrdCtr o s
  | .strdBrd o => Sys2Proof.Machine.execStrdBrd o s
  | .yield o => Sys2Proof.Machine.execYield o s
  | .sleep o => Sys2Proof.Machine.execSleep o s
  | .trap o => Sys2Proof.Machine.execTrap o s
  | .eret o => Sys2Proof.Machine.execEret o s
  | .nop opc o => Sys2Proof.Machine.execNop opc o s
  | .ctxsv o => Sys2Proof.Machine.execCtxsv o s
  | .ctxsvSt o => Sys2Proof.Machine.execCtxsvSt o s
  | .ctxld o => Sys2Proof.Machine.execCtxld o s
  | .tlbinvPage o => Sys2Proof.Machine.execTlbinvPage o s
  | .tlbinvRegion o => Sys2Proof.Machine.execTlbinvRegion o s
  | .tlbinvCtx o => Sys2Proof.Machine.execTlbinvCtx o s
  | .tlbinvAll o => Sys2Proof.Machine.execTlbinvAll o s
  | .tlbinvKey o => Sys2Proof.Machine.execTlbinvKey o s
  | .pwrrd o => Sys2Proof.Machine.execPwrrd o s
  | .pwrwrPcap o => Sys2Proof.Machine.execPwrwrPcap o s
  | .pwrwrPfloor o => Sys2Proof.Machine.execPwrwrPfloor o s
  | .clkrat o => Sys2Proof.Machine.execClkrat o s
  | .idle o => Sys2Proof.Machine.execIdle o s
  | .halt o => Sys2Proof.Machine.execHalt o s
  | .levyqVault o => Sys2Proof.Machine.execLevyqVault o s
  | .levyqAcct o => Sys2Proof.Machine.execLevyqAcct o s
  | .levyqBase o => Sys2Proof.Machine.execLevyqBase o s
  | .strStoreAtHome m => Sys2Proof.Machine.execStrStoreAtHome m s
  | .exclusiveGrantArrival m => Sys2Proof.Machine.execExclusiveGrantArrival m s
  | .fillerSettled die energy => Sys2Proof.Machine.execFillerSettled die energy s
  | .convoyMirrorUpdate cluster ctx cv => Sys2Proof.Machine.execConvoyMirrorUpdate cluster ctx cv s
  | .unassignedOpcode first rest => Sys2Proof.Machine.execUnassignedOpcode first rest s
  | .reset => Sys2Proof.Machine.execReset s
  | .tokenExchange => Sys2Proof.Machine.execTokenExchange s
  | .energyCharge => Sys2Proof.Machine.execEnergyCharge s
  | .baseTempReport => Sys2Proof.Machine.execBaseTempReport s
  | .idleFloorMeasure => Sys2Proof.Machine.execIdleFloorMeasure s
  | .arrivalSkewRebalance => Sys2Proof.Machine.execArrivalSkewRebalance s
  | .attestationRequest => Sys2Proof.Machine.execAttestationRequest s
  | .dieRestore => Sys2Proof.Machine.execDieRestore s
  | .preemptDrain => Sys2Proof.Machine.execPreemptDrain s
  | .preemptForce => Sys2Proof.Machine.execPreemptForce s
  | .launchRecordRead => Sys2Proof.Machine.execLaunchRecordRead s
  | .groupPlace => Sys2Proof.Machine.execGroupPlace s
  | .gangPlace => Sys2Proof.Machine.execGangPlace s
  | .drainLimitExpiry => Sys2Proof.Machine.execDrainLimitExpiry s
  | .groupResumePlace => Sys2Proof.Machine.execGroupResumePlace s

end Sys2Proof.Machine
end

