-- ==== Sys2Proof/Machine/Schedule.lean ====
section
/-! DEFINITION. One move of the schedule: an issue opportunity, a step of another agent, time that passes; and the order in which
agents move where the schedule in State names none (00_scope.md: the order of agents is not architectural). -/

namespace Sys2Proof.Machine

/-! ## An issue opportunity (R182, R228) -/

/-- One issue opportunity of a quadrant: its instruction is executed by `exec`. -/
def State.issue (s : State) (c quad : Nat) : Out :=
  let s1 := s.countChance c quad
  if !s.opportunity c quad then .next s1
  else
    let s0 := s1.fetchReads c quad
    match s0.plan c quad with
    | none => .next s0
    | some (slot, e, .fetch walks traps) => .next (s0.startFetch c slot e.2 walks traps)
    | some (slot, e, .bad cause wave) => .next ((s0.begin c quad slot e false e.2 wave).trapWave cause)
    | some (slot, e, .run i next wave) => exec i ((s0.touchReads c slot i wave).begin c quad slot e (yields i) next wave)

/-- An instruction of a wave whose work is put off where the schedule may do so; any other is executed by `exec`. (DESIGN CHOICE, log entry
81.) -/
def State.execLate (s : State) (i : Instr) : Out :=
  match i with
  | .lds o | .sts o | .atoms o | .cass o => .next (s.lateOp i o (Lane.spadAccessTrap i) (fun L => some (.spad (L.spadWork i))))
  | .strdCtr o => .next (s.lateOp i o (strdCtrCheck o) (fun L =>
      (L.s.bound L.c L.slot L.tid).map (fun e => .counter e.1 (e.2.2 - BitVec.ofNat 32 (L.stageArg i)) (L.dstReg 1))))
  | .strdBrd o => .next (s.lateOp i o (strdBrdCheck o) (fun L =>
      (L.s.board? L.c L.g (L.stageArg i)).map (fun e => .board e.1 (L.dstReg 2))))
  | .jqry o => .next (s.lateOp i o noCheck (fun L =>
      some (.ticket ((L.source false L.fA 0).extractLsb' 0 16) L.g.ctx (L.dstReg 1))))
  | _ => exec i s

/-- An issue opportunity whose instruction's work is put off (R445, R446). (DESIGN CHOICE, log entry 81.) -/
def State.issueLate (s : State) (c quad : Nat) : Out :=
  let s0 := ({ s with cur := { s.cur with late := true } }.countChance c quad).fetchReads c quad
  match s0.plan c quad with
  | some (slot, e, .run i next wave) =>
    if !s.opportunity c quad then s.issue c quad
    else
      match ((s0.touchReads c slot i wave).begin c quad slot e (yields i) next wave).execLate i with
      | .next t => .next { t with cur := { t.cur with late := false } }
      | r => r
  | _ => s.issue c quad

/-! ## Time -/

/-- At least one thread of a convoy's members is held, each by its own cluster's mirror (R60, R62). (DEDUCED, log entry 73.) -/
def State.anyHeld (s : State) (key : Nat) : Bool :=
  (s.convoy key).members.any (fun m =>
    match s.group? m.1 m.2 with
    | none => false
    | some g => (List.range g.threads.length).any (fun t =>
      match g.threads[t]? with
      | none => false
      | some th => th.live && th.wait.isNone &&
        (match s.fetchAt m.1 g th with
         | .instr i _ =>
           (match fieldsOf i with
            | some o => (match laneOf s m.1 m.2 g o [t] t with
              | some L => s.cvHeld m.1 m.2 t (L.steps i)
              | none => false)
            | none => false)
         | _ => false)))

/-- A present member of a convoy whose group cursor equals L lies on a cluster (R62). (DEDUCED, log entry 73.) -/
def State.lowOn (s : State) (x : Convoy) (k : Nat) : Bool :=
  x.present.any (fun m => clusterOf m.1 == k && (s.group? m.1 m.2).any (fun g => g.cursor == s.lowOf x.present))

/-- The shed timers of the convoys count the front cycles of a cluster that holds a member at L while a thread of theirs is held (R62).
(DEDUCED, log entry 73.) -/
def State.convoyTime (s : State) (k n : Nat) : State :=
  s.modHub (fun h => { h with convoys := h.convoys.map (fun e =>
    if s.lowOn e.2 k && s.anyHeld e.1 then (e.1, { e.2 with timer := tset e.2.timer k (tget 0 e.2.timer k + n) }) else e) })

/-- Front cycles pass for a thread: what became full before them counts as full (R277), and its wait grows no older while its group is
held for quota or being saved (R231). -/
def Thread.pass (n : Nat) (frozen : Bool) (th : Thread) : Thread :=
  { th with
    newly := if n = 0 then th.newly else []
    wait := if frozen then th.wait.map (fun w => { w with since := w.since + n }) else th.wait }

def State.passThreads (s : State) (k n : Nat) : State :=
  { s with cores := s.cores.map (fun e =>
      if clusterOf e.1 != k then e
      else (e.1, { e.2 with slots := e.2.slots.map (fun g =>
        (g.1, { g.2 with
          threads := g.2.threads.map (Thread.pass n (s.frozen g.2)), xNewly := if n = 0 then g.2.xNewly else [] })) })) }

/-- n front cycles of a cluster pass, with the ticks that fall in them. (DESIGN CHOICE, log entry 4.) -/
def State.passCycles (s : State) (k n : Nat) : State :=
  if !(s.die (k / 8)).powered then s
  else
    let s1 := ((s.convoyTime k n).passThreads k n).modCluster k (fun x => { x with front := x.front + n })
    let x := s1.cluster k
    let s2 := (List.range (x.front / 64 - x.ticks)).foldl (fun s2 _ => s2.tick k) s1
    (s2.cores.filter (fun e => clusterOf e.1 == k && !e.2.accs.isEmpty)).foldl (fun s3 e => s3.progress e.1) s2

/-! ## What is due -/

/-- The step at which a message arrives. -/
def Msg.event (k : Nat) : Msg → Instr
  | .tlbMiss _ _ => .tlbMissToWalker k
  | .read _ => .sliceReadAccept k
  | .reflect _ _ _ _ _ => .reflectionArrival k
  | .renew _ _ _ _ _ _ _ => .renewalAtHome k
  | .renewReply _ _ _ _ _ _ _ => .renewalReply k
  | .cohStore _ _ _ _ _ _ => .cohStoreAtHome k
  | .strStore _ _ _ _ _ => .strStoreAtHome k
  | .writeBack _ _ _ _ _ => .writeBackAtHome k
  | .homeAtomic _ _ _ _ _ _ _ _ _ _ => .homeAtomic k
  | .ack _ _ _ _ _ _ _ _ _ => .storeAck k
  | .vaultRead _ way _ _ => .umbraClose k way
  | .exclReq _ _ _ _ _ => .exclusiveRequest k
  | .exclGrant _ _ _ _ _ => .exclusiveGrantArrival k
  | .exclRecall _ _ _ => .exclusiveRecall k
  | .exclReturn _ _ _ _ _ => .exclusiveReturn k
  | .dq _ _ _ _ _ _ _ => .dqServe k
  | .dqAnswer _ _ _ _ _ _ _ => .dqAnswerWrite k
  | .wqt _ _ _ _ _ => .wqtPull k
  | .mirror c ctx cv => .convoyMirrorUpdate c ctx cv

/-- Steps that a core may have to take. -/
def Core.work (c : Nat) (k : Core) : List Instr :=
  (k.accs.filter (fun a => a.phase == .logged)).map (fun a => .accessReplay c a.id)
    ++ (List.range 4).map (fun q => .sfuResult c q)
    ++ [.planeOpStart c, .planeOpComplete c, .rblkGrant c] ++ k.flushing.map (fun w => .wayFlushComplete c w)
    ++ k.slots.flatMap (fun g => [.groupEnd c g.1, .forcedSave c g.1]
      ++ (List.range g.2.threads.length).flatMap (fun t =>
        match (g.2.threads[t]?).bind (·.wait) with
        | some _ => [.sleepExpiry c g.1 t, .watchdogExpiry c g.1 t]
        | none => []))
    ++ (k.l1.filter (·.excl)).map (fun x => .exclusiveTimeout c x.pa)

/-- Steps that a cluster, die or vault may have to take. -/
def Cluster.work (n : Nat) (k : Cluster) : List Instr :=
  [.clockRatioSwitch n, .jobAccept n, .jobStart n] ++ k.jobs.flatMap (fun j =>
    [.engineUnitDelivery n j.ticket.toNat, .jobComplete n j.ticket.toNat, .jobErrorEnd n j.ticket.toNat])
def Die.work (n : Nat) (d : Die) : List Instr :=
  .walkStart n :: d.active.map (fun w => if w.leaf.isNone then .walkEntryRead n w.id else .adCompareSwap n w.id)
def Vault.work (n : Nat) (v : Vault) : List Instr :=
  .bandChange n :: (v.umbras.filter (!·.waits)).map (fun u =>
    if u.left.isNone then .vaultDataLeaves n u.way { corrected := 0, bad := 0 } else .umbraClose n u.way)

/-- Steps that the hub may have to take; polls come last. -/
def Hub.work (h : Hub) : List Instr :=
  [.drainLimitExpiry, .groupResumePlace, .gangPlace, .groupPlace, .launchRecordRead]
    ++ h.launches.map (fun l => .launchComplete l.1) ++ h.convoys.map (fun x => .shedTimeout (x.1 / 65536) (x.1 % 65536))
    ++ h.bins.map (fun b => .binTimerExpiry (b.1 / 256) (b.1 % 256)) ++ h.contexts.map (fun x => .quotaPeriodBoundary x.1)
    ++ (h.queues.filter (fun q => q.2.waiting)).map (fun q => .waitEventPoll q.1)

/-- Every step of an agent that may be due. (DESIGN CHOICE, log entry 1.) -/
def State.work (s : State) : List Instr :=
  s.net.map (fun m => m.2.event m.1) ++ s.dies.flatMap (fun d => d.2.work d.1) ++ s.vaults.flatMap (fun v => v.2.work v.1)
    ++ s.clusters.flatMap (fun k => k.2.work k.1) ++ s.cores.flatMap (fun c => c.2.work c.1) ++ s.hub.work

/-- The step of an agent is due: it does something. -/
def State.isDue (s : State) (i : Instr) : Bool := match exec i s with | .next t => t != s | _ => true

/-! ## Moves -/

/-- A row of the table that is a step of an agent, not an instruction. -/
def isEvent (i : Instr) : Bool :=
  match i with
  | .nop _ _ | .unassignedOpcode _ _ => false
  | _ => i.shape.isNone

/-- Soft errors strike a stored sector (R18, R19, R28): they are found when it is read. (DESIGN CHOICE, log entry 79.) -/
def State.strike (s : State) (sector words : Nat) (bad : Bool) : State :=
  let x := tget (0, false) s.errors sector
  { s with errors := tset s.errors sector (x.1 + words, x.2 || bad) }

/-- The host reads a device register, 8 bytes wide and aligned, else it gets all ones (R427); or it asks Benuino for a vault's band and last
sample or for 6 KiB of the certificate chain, which are answered unless it is in recovery, or for its status, which always is (R24, R438,
R439). (DESIGN CHOICE, log entry 79.) -/
def State.answerHost (s : State) : HostAsk → State
  | .register off size =>
    s.reply (if size = 8 && off % 8 = 0 then leBytes 8 (s.hubRead off).toNat else List.replicate size 0xFF)
  | .vault v => if s.hub.recovery then s else s.mailAnswer (leBytes 8 (s.vaultWord (v % 256)))
  | .chain n => if s.hub.recovery then s else s.mailAnswer ((Config.certChain.drop (6144 * n)).take 6144)
  | .status => s.mailAnswer (leBytes 8 (if s.hub.recovery then 1 else 0))

/-- One move of the schedule. (DESIGN CHOICE, log entries 1, 63 and 79.) -/
def State.runMove (s : State) (m : Move) : Out :=
  match m with
  | .event i => if isEvent i && i.wf then exec i s else .fault .noSuchAgent
  | .issue c quad => if c < 512 && quad < 4 then s.issue c quad else .fault .noSuchAgent
  | .issueLate c quad => if c < 512 && quad < 4 then s.issueLate c quad else .fault .noSuchAgent
  | .perform c n => .next (s.perform c n)
  | .putOff k t => .next (s.putOffUnit k t)
  | .answerFirst n => .next (s.answerFirst n)
  | .cycles k n => if k < 32 then .next (s.passCycles k n) else .fault .noSuchAgent
  | .hub n => .next (s.modHub (fun h => { h with cycles := h.cycles + n }))
  | .outside o => .next { s with outside := o }
  | .strike sector words bad => .next (s.strike sector words bad)
  | .ask q => .next (s.answerHost q)

/-- One front cycle of every cluster and one hub cycle. (DESIGN CHOICE, log entries 1 and 4.) -/
def State.passTime (s : State) : State :=
  (List.range 32).foldl (fun s1 k => s1.passCycles k 1) (s.modHub (fun h => { h with cycles := h.cycles + 1 }))

/-- The quadrants of the cores with groups, and then time, in turn. (DESIGN CHOICE, log entry 1.) -/
def State.turn (s : State) : Out :=
  let l := (s.cores.filter (fun c => !c.2.slots.isEmpty)).flatMap (fun c => (List.range 4).map (fun q => (c.1, q)))
  match l[s.cursor / 2 % (l.length + 1)]? with
  | some (c, q) => ({ s with cursor := s.cursor + 1 }).issue c q
  | none => .next ({ s with cursor := s.cursor + 1 }).passTime

/-- The order where the schedule names no move: late work, then a due step and a turn, alternately. (DESIGN CHOICE, log entries 1 and 81.)
-/
def State.ownMove (s : State) : Out :=
  match s.cores.find? (fun e => !e.2.late.isEmpty) with
  | some e => .next (s.perform e.1 0)
  | none =>
  if s.cursor % 2 = 0 then
    match s.work.find? s.isDue with
    | some i => exec i { s with cursor := s.cursor + 1 }
    | none => s.turn
  else s.turn

end Sys2Proof.Machine
end

