-- ==== Sys2Proof/Machine/Step.lean ====
section
/-! DEFINITION. One step: the move that the schedule in State names, or the order of Schedule where it names none. -/

namespace Sys2Proof.Machine

/-- One step of the package; ages of entries that have gone (R185) and a slab change that no thread waits for do not outlive it. (DESIGN
CHOICE, log entry 1.) -/
def step (s : State) : Host.Outcome State Fault Refusal :=
  let s1 := s.tidy
  match s.agenda with
  | m :: rest => State.runMove { s1 with agenda := rest } m
  | [] => s1.ownMove

/-- s with the instruction of bits w (numbered as the table numbers them) where core 0 issues next: a program as a launch leaves it,
its code page translated. (DESIGN CHOICE, log entry 1.) -/
def State.withFetchWord (s : State) (nbits w : Nat) : State := s.withBlock (natBytes 32 (w % 2 ^ nbits))

end Sys2Proof.Machine
end

