-- ==== Sys2Proof/Safety.lean ====
section
/-! DEFINITION. What counts as a safe run, in the terms that claims use: the invariant that a step keeps, what it is for a thread
to go on with the instruction that its wave issues, and what an instruction on registers leaves alone. -/

namespace Sys2Proof.Machine

/-- The invariant that a step keeps: memory stands in its canonical form. -/
def State.Inv (s : State) : Prop := s.memory.wf = true

/-- The machine can take n steps: none of them stops. -/
def State.RunsFor (n : Nat) (s : State) : Prop := ∃ t, Sys2Proof.core.run n s = .next t

/-- Thread t, as lane L, is an active thread of the wave that issues i, and goes on: the tiles that i names are granted, no check
of R254 traps the thread (`check` is step 10's), and no deferred trap of its is due. -/
structure State.Goes (s : State) (i : Instr) (o : Op) (check : Lane → Option Trap) (t : Nat) (L : Lane) : Prop where
  once   : s.cur.threads.Nodup
  wave   : t ∈ s.readyWave i o
  lane   : s.lane? o (s.readyWave i o) t = some L
  tiles  : ∀ x ∈ tilesOf i, x < L.g.record.tiles
  active : L.active = true
  passes : s.trapOf i o (s.readyWave i o) check t = none
  calm   : L.th.due = []

/-- The same for a wave of one thread, which begins the instruction. -/
structure State.Alone (s : State) (i : Instr) (o : Op) (check : Lane → Option Trap) (t : Nat) (L : Lane) : Prop
    extends State.Goes s i o check t L where
  sole  : s.readyWave i o = [t]
  fresh : L.th.wait = none

/-- The threads that an issue moves on where none of them traps: the inactive ones of its wave, then the active ones. -/
def State.movers (s : State) (i : Instr) (o : Op) : List Nat :=
  (s.readyWave i o).filter (fun t => !(s.actives o (s.readyWave i o)).contains t) ++ s.actives o (s.readyWave i o)

/-- The lanes of the active threads of the wave that issues i, by rising home lane. -/
def State.activeLanes (s : State) (i : Instr) (o : Op) : List Lane :=
  (byLane (s.actives o (s.readyWave i o))).filterMap (s.lane? o (s.readyWave i o))

/-- The lanes of the active threads that no check traps, by rising home lane: the participants of a cross-lane instruction (R311). -/
def State.going (s : State) (i : Instr) (o : Op) (check : Lane → Option Trap) : List Lane :=
  (byLane ((s.actives o (s.readyWave i o)).filter (fun t => (s.trapOf i o (s.readyWave i o) check t).isNone))).filterMap
    (s.lane? o (s.readyWave i o))

/-- Every active thread of the wave that issues i goes on, and there is one; L is the lowest active home lane's (R256). -/
structure State.Together (s : State) (i : Instr) (o : Op) (check : Lane → Option Trap) (L : Lane) : Prop where
  once   : s.cur.threads.Nodup
  lead   : (s.activeLanes i o).head? = some L
  tiles  : ∀ x ∈ tilesOf i, x < L.g.record.tiles
  passes : ∀ t ∈ s.actives o (s.readyWave i o), s.trapOf i o (s.readyWave i o) check t = none
  calm   : ∀ t ∈ s.readyWave i o, ∀ th, s.thread? s.cur.core s.cur.slot t = some th → th.due = []

/-- A group without its threads, and without what a trap of one of them writes: that it has stopped (R235), or is shed (R62). -/
def Group.bare (g : Group) : Group :=
  { g with threads := [], stopped := none, cv := { g.cv with count := 0, cause := 0, shed := false } }

/-- A context without the RSTATE that is to be done. -/
def Ctx.bare (x : Ctx) : Ctx := { x with moving := none }

/-- A plane-array operation without the threads that it is to release. -/
def Plane.bare (p : Plane) : Plane := { p with release := [] }

/-- What an instruction on registers leaves alone, traps of its threads included: all of memory and what reads it, every cache,
scratchpad and time, the queues and units of every core, cluster, die and vault, and every group but for its threads. A trap
may give up a place in a queue and what the thread waited for at issue (its release by a plane array, its offer of a job, its
RSTATE), stop a launch, and shed a convoy member. -/
structure State.SameMachine (s u : State) : Prop where
  memory   : u.memory = s.memory
  dies     : u.dies = s.dies
  vaults   : u.vaults = s.vaults
  outside  : u.outside = s.outside
  agenda   : u.agenda = s.agenda
  free     : u.free = s.free
  errors   : u.errors = s.errors
  hub      : u.hub = { s.hub with launches := u.hub.launches, convoys := u.hub.convoys, contexts := u.hub.contexts }
  contexts : ∀ n, (tfind u.hub.contexts n).map Ctx.bare = (tfind s.hub.contexts n).map Ctx.bare
  clusters : ∀ k, u.cluster k = { s.cluster k with boards := (u.cluster k).boards, offers := (u.cluster k).offers }
  cores    : ∀ c, u.core c = { s.core c with
    slots := (u.core c).slots, rblkQ := (u.core c).rblkQ, plane := (u.core c).plane, planeQ := (u.core c).planeQ }
  plane    : ∀ c, (u.core c).plane.map Plane.bare = (s.core c).plane.map Plane.bare
  planeQ   : ∀ c, (u.core c).planeQ.map Plane.bare = (s.core c).planeQ.map Plane.bare
  groups   : ∀ c g, (u.group? c g).map Group.bare = (s.group? c g).map Group.bare

end Sys2Proof.Machine
end

