-- ==== Sys2Proof/Certificates/Slice0/Obligations.lean ====
section
/-! DEFINITION. The statements for the provers, family by family, with the tables of results that they name. -/

namespace Sys2Proof.Claims

open Sys2Proof.Machine

/-- exec answers a next state of i in which thread t of the wave under way is th. -/
def Becomes (i : Instr) (s : State) (t : Nat) (th : Thread) : Prop :=
  ∃ u, exec i s = .next u ∧ u.thread? s.cur.core s.cur.slot t = some th

/-- A thread moved to the instruction after the one that its wave issues. -/
def after (s : State) (th : Thread) : Thread := { th with pc := s.cur.next, wait := none }

/-- A trap with a cause where p holds. -/
def stopIf (p : Prop) [Decidable p] (cause : BitVec 16) : Option Trap := if p then some { cause := cause } else none

/-- An instruction whose effect lies in its thread: its fields, the check of step 10 of R254, and the thread it leaves. -/
structure Row where
  op    : Op
  check : Lane → Option Trap
  out   : Lane → Thread

def row (o : Op) (out : Lane → Thread) : Row := ⟨o, noCheck, out⟩

/-! ## Integers (R337 to R343) -/

/-- The number that a source of the instruction's type holds: its width by FN, its sign by FN (R267). -/
def num (L : Lane) (x : Dword) : Int :=
  if wideTy L.fn then (if signedTy L.fn then x.toInt else x.toNat)
  else if signedTy L.fn then (lowWord x).toInt else (lowWord x).toNat

/-- The same bits read without a sign, and with one. -/
def unsigned (L : Lane) (x : Dword) : Int := if wideTy L.fn then x.toNat else (lowWord x).toNat
def signed (L : Lane) (x : Dword) : Int := if wideTy L.fn then x.toInt else (lowWord x).toInt

/-- Dst(t) holds an integer modulo 2^width. -/
def putInt (L : Lane) (v : Int) : Thread :=
  if wideTy L.fn then L.putD true (BitVec.ofInt 64 v) else L.putD false ((BitVec.ofInt 32 v).setWidth 64)

/-- Dst(t) holds bits of the type's width. -/
def putBits (L : Lane) (v : Dword) : Thread := L.putD (wideTy L.fn) v

def width (L : Lane) : Nat := if wideTy L.fn then 64 else 32

/-- Bits [7:0] of B, read unsigned. -/
def count (L : Lane) (i : Instr) : Nat := (L.srcBw i).toNat % 256

/-- The relation of a condition code of ICMP. -/
def compares (cc : Nat) (a b : Int) : Bool :=
  match cc with
  | 0 => a == b
  | 1 => a != b
  | 2 => a < b
  | 3 => a ≤ b
  | 4 => b < a
  | _ => b ≤ a

/-- The integer, address and predicate group, with exact arithmetic on integers. -/
def intRow (i : Instr) : Option Row :=
  match i with
  | .iadd o => some (row o fun L => putInt L (num L L.srcA + num L (L.srcBt i)))
  | .isub o => some (row o fun L => putInt L (num L L.srcA - num L (L.srcBt i)))
  | .imul o => some (row o fun L => putInt L (num L L.srcA * num L (L.srcBt i)))
  | .imulh o => some (row o fun L => putInt L (num L L.srcA * num L (L.srcBt i) / 2 ^ width L))
  | .imin o => some (row o fun L => putInt L (min (num L L.srcA) (num L (L.srcBt i))))
  | .imax o => some (row o fun L => putInt L (max (num L L.srcA) (num L (L.srcBt i))))
  | .and o => some (row o fun L => putBits L (L.srcA &&& L.srcBt i))
  | .or o => some (row o fun L => putBits L (L.srcA ||| L.srcBt i))
  | .xor o => some (row o fun L => putBits L (L.srcA ^^^ L.srcBt i))
  | .andn o => some (row o fun L => putBits L (L.srcA &&& ~~~(L.srcBt i)))
  | .shl o => some (row o fun L => putInt L (unsigned L L.srcA * 2 ^ count L i))
  | .shr o => some (row o fun L => putInt L (unsigned L L.srcA / 2 ^ count L i))
  | .sar o => some (row o fun L => putInt L (signed L L.srcA / 2 ^ count L i))
  | .rotl o => some (row o fun L =>
      let c := count L i % width L
      putInt L (unsigned L L.srcA * 2 ^ c + unsigned L L.srcA / 2 ^ (width L - c)))
  | .iabs o => some (row o fun L => putInt L (signed L L.srcA).natAbs)
  | .ineg o => some (row o fun L => putInt L (0 - num L L.srcA))
  | .not o => some (row o fun L => putBits L (~~~L.srcA))
  | .clz o => some (row o fun L => L.putD false (BitVec.ofNat 64 (clzNat (width L) L.srcA.toNat)))
  | .popc o => some (row o fun L => L.putD false (BitVec.ofNat 64 (popNat (width L) L.srcA.toNat)))
  | .brev o => some (row o fun L => putBits L (if wideTy L.fn then L.srcA.reverse else (lowWord L.srcA).reverse.setWidth 64))
  | .imad o => some (row o fun L => putInt L (num L L.srcA * num L (L.srcBt i) + num L L.srcC))
  | .iadd3 o => some (row o fun L => putInt L (num L L.srcA + num L (L.srcBt i) + num L L.srcC))
  | .lea o => some ⟨o, fun L => stopIf (63 < L.fC) 0x01, fun L => L.putD true (BitVec.ofInt 64
      ((L.source true L.fA L.moda).toNat
        + (match L.fn with
           | 0 => (lowWord (L.srcBt i)).toInt
           | 1 => (lowWord (L.srcBt i)).toNat
           | _ => (L.srcBt i).toInt) * 2 ^ L.fC))⟩
  | .bfx o => some (row o fun L =>
      let b := L.srcBw i
      putBits L (if wideTy L.fn then bitExtract (signedTy L.fn) L.srcA (fieldPos b) (fieldLen b)
        else (bitExtract (signedTy L.fn) (lowWord L.srcA) (fieldPos b) (fieldLen b)).setWidth 64))
  | .bfi o => some (row o fun L =>
      let b := L.srcBw i
      putBits L (if wideTy L.fn then bitInsert L.srcA L.srcC (fieldPos b) (fieldLen b)
        else (bitInsert (lowWord L.srcA) (lowWord L.srcC) (fieldPos b) (fieldLen b)).setWidth 64))
  | .icmp o => some ⟨o, fun _ => stopIf (6 ≤ condOf o) 0x01, fun L =>
      L.th.setPred (condPred o) (compares (condOf o) (num L L.srcA) (num L (L.srcBt i)))⟩
  | .pand o => some (row o fun L => L.th.setPred L.fD ((L.th.pred L.fA != o.m.getLsbD 1) && (L.th.pred L.fB != o.m.getLsbD 0)))
  | .por o => some (row o fun L => L.th.setPred L.fD ((L.th.pred L.fA != o.m.getLsbD 1) || (L.th.pred L.fB != o.m.getLsbD 0)))
  | .pxor o => some (row o fun L => L.th.setPred L.fD ((L.th.pred L.fA != o.m.getLsbD 1) != (L.th.pred L.fB != o.m.getLsbD 0)))
  | .pnot o => some (row o fun L => L.th.setPred L.fD (!L.th.pred L.fA))
  | .pset o => some (row o fun L => L.th.setPred L.fD (L.srcBw i != 0))
  | _ => none

/-! ## Floats (R344 to R352) -/

/-- The float group but the special functions: Dst(t) and its flags by the shared operations on FP32 numbers. -/
def floatRow (i : Instr) : Option Row :=
  match i with
  | .fadd o => some (row o fun L => L.putF (Fmt.f32.add L.th.fmode (L.f32In L.codeA) (L.f32In (L.codeB i))))
  | .fsub o => some (row o fun L => L.putF (Fmt.f32.add L.th.fmode (L.f32In L.codeA) (L.f32In (L.codeB i)).neg))
  | .fmul o => some (row o fun L => L.putF (Fmt.f32.mul L.th.fmode (L.f32In L.codeA) (L.f32In (L.codeB i))))
  | .ffma o => some (row o fun L => L.putF (Fmt.f32.fma L.th.fmode (L.f32In L.codeA) (L.f32In (L.codeB i)) (L.f32In L.codeC)))
  | .fmin o => some (row o fun L => L.putF (Fmt.f32.minmax false (L.f32In L.codeA) (L.f32In (L.codeB i))))
  | .fmax o => some (row o fun L => L.putF (Fmt.f32.minmax true (L.f32In L.codeA) (L.f32In (L.codeB i))))
  | .fcmp o => some (row o fun L =>
      let a := Fmt.f32.unpack L.codeA
      let b := Fmt.f32.unpack (L.codeB i)
      (L.th.setPred (condPred o) (floatCond (condOf o) a b)).raiseFlags (floatCondFlag (condOf o) a b))
  | .fclass o => some (row o fun L => L.putD false (BitVec.ofNat 64 (2 ^ classOf L.codeA)))
  | .frnd o => some (row o fun L => L.putF (roundIntegral (rndOf o.m.toNat L.th.fmode) (L.f32In L.codeA)))
  | .fscale o => some (row o fun L => L.putF (scaleF L.th.fmode (L.f32In L.codeA) (L.srcBw i).toInt))
  | .fmode o => some (row o fun L => { L.th with fmode := (L.srcBw i).extractLsb' 0 3 })
  | .hadd2 o => some (row o fun L => L.putF (halves L.codeA (L.codeB i) 0 fun a b _ =>
      (halfFmt L.fn).add L.th.fmode ((halfFmt L.fn).input (ftzOf L.th.fmode) a) ((halfFmt L.fn).input (ftzOf L.th.fmode) b)))
  | .hmul2 o => some (row o fun L => L.putF (halves L.codeA (L.codeB i) 0 fun a b _ =>
      (halfFmt L.fn).mul L.th.fmode ((halfFmt L.fn).input (ftzOf L.th.fmode) a) ((halfFmt L.fn).input (ftzOf L.th.fmode) b)))
  | .hfma2 o => some (row o fun L => L.putF (halves L.codeA (L.codeB i) L.codeC fun a b c =>
      (halfFmt L.fn).fma L.th.fmode ((halfFmt L.fn).input (ftzOf L.th.fmode) a) ((halfFmt L.fn).input (ftzOf L.th.fmode) b)
        ((halfFmt L.fn).input (ftzOf L.th.fmode) c)))
  | _ => none

/-! ## Registers, conversions, queries and hints -/

/-- Moves, special registers, index registers, conversions, queries, and instructions that only move on. -/
def moveRow (i : Instr) : Option Row :=
  match i with
  | .mov o => some (row o fun L => L.putD (wideTy L.fn) (placed L.fn (L.srcBt i).toNat))
  | .moviPair o => some (row o fun L => L.putD true (moviValue o))
  | .sel o => some (row o fun L =>
      L.putD (wideTy L.fn) (placed L.fn (if L.th.pred o.m.toNat then L.srcA else L.srcBt i).toNat))
  | .smovV32S o => some (row o fun L => L.putD false (L.srcBd i))
  | .smovV64S o => some (row o fun L => L.putD true (L.srcBd i))
  | .prmt o => some (row o fun L => L.putD false (BitVec.ofNat 64 (prmt L.codeA L.codeC (L.srcBw i).toNat)))
  | .rblkQry o => some (row o fun L =>
      L.th.fillAll (L.dstReg 2) [BitVec.ofNat 32 L.held, BitVec.ofNat 32 (L.s.core L.c).freeBlocks])
  | .idx o => some (row o fun L => { L.th with idx := tset L.th.idx L.fD ((L.srcBw i).extractLsb' 0 16) })
  | .idxadd o => some (row o fun L =>
      { L.th with idx := tset L.th.idx L.fD (L.th.index L.fA + (L.srcBw i).extractLsb' 0 16) })
  | .srdV32 o => some ⟨o, fun L => stopIf (L.special L.fA).isNone 0x01, fun L => L.putD false ((L.special L.fA).getD 0)⟩
  | .srdV64 o => some ⟨o, fun L => stopIf (L.special L.fA).isNone 0x01, fun L => L.putD true ((L.special L.fA).getD 0)⟩
  | .bcast o => some (row o fun L =>
      let b := (lowWord (L.srcB (shapeOf i) 1 false)).toNat
      let lane := (if o.m.getLsbD 1 then b * ww / 32 else b) % ww
      L.putD (wideTy L.fn) (placed L.fn (L.source (wideTy L.fn) L.fA (1856 + lane)).toNat))
  | .cvt o => some ⟨o, fun _ => stopIf (5 ≤ cvtRnd o || 14 ≤ cvtSrc o) 0x01, fun L =>
      let r := convertCode (rndOf (cvtRnd o) L.th.fmode) (ftzOf L.th.fmode) (cvtSat o) (cvtSrc o) L.fn
        (L.source (wideTy (cvtSrc o)) L.fA 0).toNat
      (L.putD (wideTy L.fn) (placed L.fn r.1)).raiseFlags r.2⟩
  | .pack o => some (row o fun L =>
      let rs := L.packSources.map (packOne L.th.fmode L.fn (o.m.getLsbD 1))
      (L.putD false (BitVec.ofNat 64 (elemString (typeBits L.fn) (rs.map (·.1))))).raiseFlags (rs.foldl (fun f r => f ||| r.2) 0))
  | .unpk o => some ⟨o, fun L => stopIf (32 / typeBits L.fn ≤ L.fB) 0x01, fun L =>
      match fmtOf L.fn with
      | some f => L.putF (Fmt.f32.convert .rne false false (f.unpack (elemAt (typeBits L.fn) L.fB L.codeA)))
      | none => L.putD false (BitVec.ofInt 64 (intOf L.fn (elemAt (typeBits L.fn) L.fB L.codeA)))⟩
  | .qnt o => some (row o fun L =>
      (L.th.putAll (L.dstReg (fmtBits L.fn + 1)) (quantise L.fn L.quantIn)).raiseFlags (quantFlags L.quantIn))
  | .qexp o => some (row o fun L => L.putD false (BitVec.ofNat 64 (quantExp L.fn L.quantIn)))
  | .dqnt o => some (row o fun L =>
      if o.m.getLsbD 0 then L.th.putAll (L.dstReg 16) (wordsOf 16 (elemString 16 (L.dequantOut .bf16)))
      else L.th.putAll (L.dstReg 32) ((L.dequantOut .f32).map (BitVec.ofNat 32)))
  | .hdm o => some (row o fun L => L.putD false (BitVec.ofNat 64 ((hdm false L.hdmIn).getD (homeLane L.tid) 0)))
  | .hdmNorm o => some (row o fun L => L.putD false (BitVec.ofNat 64 ((hdm true L.hdmIn).getD (homeLane L.tid) 0)))
  | .accrd o => some ⟨o, fun L => stopIf (64 < posCol (L.srcBw i) + accCount o) 0x01, fun L =>
      L.th.fillAll (L.dstReg (accCount o))
        ((List.range (accCount o)).map fun k => L.g.acc L.fA (posRow (L.srcBw i)) (posCol (L.srcBw i) + k))⟩
  | .jqry o => some (row o fun L =>
      L.putD false ((L.s.ticketStatus (clusterOf L.c) L.g.ctx ((L.source false L.fA 0).extractLsb' 0 16)).setWidth 64))
  | .cvstat o => some (row o fun L => L.putD true L.cvWord)
  | .fence o => some (row o fun L => L.th)
  | .lpad o => some (row o fun L => L.th)
  | .nop _ o => some (row o fun L => L.th)
  | _ => none

end Sys2Proof.Claims

open Sys2Proof Sys2Proof.Machine Sys2Proof.Claims

/-- Every instruction of the integer, address and predicate group gives each thread that goes on its result, exact on integers and
taken modulo 2^width, in its destination alone (R337 to R343). BFX takes the bits that R341 names, positions past the width reading 0 or
the sign, and extends them; BFI replaces them. That the sources of every thread are read before any is written, which shows where a
cross-lane source lies in another thread's destination, is the model's reading (DEDUCED, log entry 12). -/
def Obligations.IntegerResults : Prop :=
  (∀ (i : Instr) (r : Row) (s : State) (t : Nat) (L : Lane), intRow i = some r → s.Goes i r.op r.check t L →
    Becomes i s t (after s (r.out L))) ∧
  ∀ (w : Nat) (sg : Bool) (a c : BitVec w) (pos len k : Nat), k < w →
    let n := min len w
    let bit := fun j => if pos + j < w then a.getLsbD (pos + j) else sg && a.msb
    (bitExtract sg a pos len).getLsbD k = (if n = 0 then false else if k < n then bit k else sg && bit (n - 1)) ∧
      (bitInsert a c pos len).getLsbD k = (if pos ≤ k ∧ k < pos + n then a.getLsbD (k - pos) else c.getLsbD k)

/-- Every instruction of the float group gives each thread that goes on its rounded result and raises its flags (R344 to R352).
`RoundingToAFormat` says what the rounding that these operations end in returns. That the sources of every thread are read before any
is written is the model's reading (DEDUCED, log entry 12). -/
def Obligations.FloatResults : Prop :=
  ∀ (i : Instr) (r : Row) (s : State) (t : Nat) (L : Lane), floatRow i = some r → s.Goes i r.op r.check t L →
    Becomes i s t (after s (r.out L))

/-- Moves, conversions, special-register reads, queries and hints give each thread that goes on their result (R312 to R336).
The model's readings in it are these: sources are read before any thread is written (DEDUCED, log entry 12), the corners of a conversion
(DEDUCED, log entry 32), MODA of BCAST without effect (DEDUCED, log entry 33), and when ACCRD and RBLK.qry fill (log entry 23). -/
def Obligations.MoveAndQueryResults : Prop :=
  ∀ (i : Instr) (r : Row) (s : State) (t : Nat) (L : Lane), moveRow i = some r → s.Goes i r.op r.check t L →
    Becomes i s t (after s (r.out L))

/-- The frame of every instruction of the three tables: whatever its threads do, traps included, it leaves memory, every byte that
any key reads, every cache, scratchpad, scalar register, tile, join register and unit as they were, and every thread outside its
wave. -/
def Obligations.LaneFrame : Prop :=
  ∀ (i : Instr) (r : Row) (s u : State), intRow i = some r ∨ floatRow i = some r ∨ moveRow i = some r → exec i s = .next u →
    s.SameMachine u ∧ (∀ key a, u.byteAt key a = s.byteAt key a) ∧
      ∀ c g t, ¬ (c = s.cur.core ∧ g = s.cur.slot ∧ t ∈ s.cur.threads) → u.thread? c g t = s.thread? c g t

/-- A result in Dst(t) changes the destination's registers and nothing else of its thread: every other register, its full and empty
bits, predicates, index registers, modes and flags stay; and what a long-latency producer fills has its value at once, but counts as
empty until its thread's next front cycle (R126, R127, R277). -/
def Obligations.DestinationOnly : Prop :=
  ∀ (L : Lane) (wide : Bool) (v : Dword),
    let n : Nat := if wide then 2 else 1
    let d : Nat := L.dstReg n
    let u := L.putD wide v
    u.get d = lowWord v ∧ (wide = true → u.get (d + 1) = highWord v) ∧
      (∀ r : Nat, d ≤ r → r < d + n → u.isEmpty r = L.th.newly.contains r) ∧
      (∀ r : Nat, r < d ∨ d + n ≤ r → u.get r = L.th.get r ∧ u.isEmpty r = L.th.isEmpty r) ∧
      ({ u with v := L.th.v, vEmpty := L.th.vEmpty, t := L.th.t, tEmpty := L.th.tEmpty } : Thread) = L.th ∧
      (∀ (r : Nat) (ws : List Word) (k : Nat), r ≤ k → k < r + ws.length →
        (L.th.fillAll r ws).get k = ws.getD (k - r) 0 ∧ (L.th.fillAll r ws).isEmpty k = true ∧
          ((L.th.fillAll r ws).pass 1 false).isEmpty k = false)

namespace Sys2Proof.Claims

/-- The number that a finite value stands for. -/
def rational : Machine.Num → Option ℚ
  | .fin neg m e => some ((if neg then -1 else 1) * m * 2 ^ e)
  | _ => none

/-- A number is a value of a format: some code of it has that value (R134). -/
def IsValue (f : Fmt) (v : ℚ) : Prop := ∃ c, c < 2 ^ f.width ∧ rational (f.unpack c) = some v

/-- The largest finite value of a format. -/
def largest (f : Fmt) : ℚ := (rational (f.unpack f.maxc)).getD 0

/-- y is what a mode makes of x among the values of a format, by the table of R141; `even`: y has an even last significand bit. -/
def Rounds (f : Fmt) (rm : RM) (x y : ℚ) (even : Bool) : Prop :=
  match rm with
  | .rne => ∀ v, IsValue f v → |x - y| ≤ |x - v| ∧ (|x - v| = |x - y| → v = y ∨ even = true)
  | .rtz => |y| ≤ |x| ∧ ∀ v, IsValue f v → |v| ≤ |x| → |x - y| ≤ |x - v|
  | .rup => x ≤ y ∧ ∀ v, IsValue f v → x ≤ v → y ≤ v
  | .rdn => y ≤ x ∧ ∀ v, IsValue f v → v ≤ x → v ≤ y

/-- A number beyond the largest finite one becomes an infinity (R143). -/
def toInfinity (f : Fmt) (rm : RM) (neg : Bool) (x : ℚ) : Prop :=
  match rm with
  | .rne => largest f + 2 ^ (f.bias + 1) ≤ 2 * |x|
  | .rtz => False
  | .rup => neg = false
  | .rdn => neg = true

end Sys2Proof.Claims

/-- Rounding to a format, for every format, mode and exact number: no further than the largest finite value it gives, with the number's
sign, the value that the mode names among the format's values, and NX where that differs from the number; beyond it, an infinity or the
largest finite value, with OF and NX at an infinity, and the largest finite value where the format has no infinity; and with FTZ a
result that is not zero and lies below the smallest normal one becomes a zero of its sign, with UF and NX (R141 to R144). -/
def Obligations.RoundingToAFormat : Prop :=
  ∀ f ∈ [Fmt.f32, .f16, .bf16, .e4m3, .e5m2, .e2m1], ∀ (rm : RM) (neg : Bool) (mant : Nat) (exp : Int),
    let x : ℚ := (if neg then -1 else 1) * mant * 2 ^ exp
    let sign := 2 ^ (f.eb + f.fb)
    let z := if neg then sign else 0
    let r := f.round rm false false neg mant exp false
    (|x| ≤ largest f → r.1 < 2 ^ f.width ∧ (r.1 / sign = 1 ↔ neg = true) ∧
      ∃ y, rational (f.unpack r.1) = some y ∧ Rounds f rm x y (r.1 % 2 == 0) ∧ (r.2.getLsbD 4 = true ↔ y ≠ x)) ∧
    (largest f < |x| → f.inf = none → r.1 = z + f.maxc) ∧
    (∀ i, largest f < |x| → f.inf = some i → (toInfinity f rm neg x → r = (z + i, fOF ||| fNX)) ∧
      (¬ toInfinity f rm neg x → r.1 = z + f.maxc)) ∧
    f.round rm true false neg mant exp false =
      if 0 < r.1 % sign ∧ r.1 % sign < 2 ^ f.fb then (z, fUF ||| fNX) else r

namespace Sys2Proof.Claims

/-! ## Special functions, cross-lane results and group effects -/

/-- The special functions and their numbers (R353). -/
def sfuRow (i : Instr) : Option (Op × Nat) :=
  match i with
  | .rcp o => some (o, 0)
  | .rsq o => some (o, 1)
  | .sqrt o => some (o, 2)
  | .exp2 o => some (o, 3)
  | .log2 o => some (o, 4)
  | .sin o => some (o, 5)
  | .cos o => some (o, 6)
  | .tanh o => some (o, 7)
  | _ => none

/-- What a lane puts into its quadrant's queue. -/
def sfuOf (L : Lane) (fn : Nat) : Sfu :=
  { slot := L.slot, tid := L.tid, fn := fn, half := L.fn == 9, src := BitVec.ofNat 32 L.codeA, mode := L.th.fmode, dest := L.dstReg 1 }

/-- The type of RED and SCAN is .i64 or .n64. -/
def foldWide (o : Op) : Bool := o.m == 2 || o.m == 3

/-- A participant's value for RED and SCAN. -/
def foldValue (o : Op) (x : Lane) : Dword := x.source (foldWide o) x.fA 0

/-- The fold of values in their order, a NaN made the canonical one where the type is .f32 (R135), or the value for none. -/
def foldAll (o : Op) (f : Dword → Dword → Dword) (none : Dword) : List Dword → Dword
  | [] => none
  | x :: xs =>
    let v := xs.foldl f x
    if o.m = 4 ∧ (Fmt.f32.unpack (lowWord v).toNat).isNaN = true then 0x7FC00000 else v

/-- ELECT, VOTE, BALLOT, RED and SCAN: a participant's result from all participants, by rising home lane (R322 to R327). -/
def crossRow (i : Instr) : Option (Op × (List Lane → Lane → Thread)) :=
  match i with
  | .elect o => some (o, fun ls L => L.th.setPred L.fD ((ls.head?.map (·.tid)) == some L.tid))
  | .voteAll o => some (o, fun ls L => L.th.setPred L.fD (ls.all fun x => x.th.pred x.fA))
  | .voteAny o => some (o, fun ls L => L.th.setPred L.fD (ls.any fun x => x.th.pred x.fA))
  | .voteUni o => some (o, fun ls L => L.th.setPred L.fD (ls.all fun x => x.th.pred x.fA == L.th.pred L.fA))
  | .ballot o => some (o, fun ls L =>
      L.putD false (BitVec.ofNat 64 ((ls.filter fun x => x.th.pred x.fA).map fun x => 2 ^ homeLane x.tid).sum))
  | .red o => some (o, fun ls L => L.putD (foldWide o) (foldAll o (combine L.fn o.m.toNat) 0 (ls.map (foldValue o))))
  | .scan o => some (o, fun ls L =>
      let before := ls.filter fun x => homeLane x.tid < homeLane L.tid || (L.fn < 8 && x.tid == L.tid)
      L.putD (foldWide o) (foldAll o (combine (L.fn % 8) o.m.toNat) (scanIdentity (L.fn % 8) o.m.toNat) (before.map (foldValue o))))
  | _ => none

/-- An effect that is made once for an issue, with the lowest active home lane: fields, the check of step 10, and the effect. -/
structure Once where
  op    : Op
  check : Lane → Option Trap
  eff   : Lane → State → State

/-- An effect on the registers of the group alone. -/
def onGroup (o : Op) (f : Lane → Group → Group) : Once := ⟨o, noCheck, fun L s => s.modGroup L.c L.slot (f L)⟩

/-- The slip limit that CVJOIN and CVSLIP give. -/
def slipOf (i : Instr) (L : Lane) : Nat := (L.srcB (shapeOf i) 0 false).toNat

/-- The group effects (R256, R281, R310): writes to scalar, join and convoy registers, tiles and the scratchpad, acquires. -/
def onceRow (i : Instr) : Option Once :=
  match i with
  | .moviScalar o => some (onGroup o fun L g => g.sput L.fD (moviValue o))
  | .smovSS o => some (onGroup o fun L g => g.sput L.fD (L.srcBd i))
  | .smovSV32 o => some (onGroup o fun L g => g.sput L.fD (L.source false L.fA 0))
  | .smovSV64 o => some (onGroup o fun L g => g.sput L.fD (L.source true L.fA 0))
  | .srdS o => some ⟨o, fun L => stopIf (L.special L.fA).isNone 0x01, fun L s =>
      s.modGroup L.c L.slot fun g => g.sput L.fD ((L.special L.fA).getD 0)⟩
  | .jdecl o => some ⟨o, jdeclCheck o, fun L s => s.modGroup L.c L.slot fun g => { g with
      j := tset g.j L.fD { count := (jdeclCount o).toNat, first := ((L.g.sget L.fA).extractLsb' 0 10).toNat, signed := 0
                           sig := none, signers := [] } }⟩
  | .jrst o => some ⟨o, noCheck, fun L s =>
      (s.modGroup L.c L.slot fun g => { g with j := tset g.j L.fD { Join.empty with first :=
          (tget Join.empty g.j L.fD).first } }).preciseAll
        L.c L.slot (L.g.pendingSigners L.fD) 0x0E 0⟩
  | .accz o => some (onGroup o fun L g => { g with x := tdel g.x L.fD })
  | .accst o => some ⟨o, accstCheck o, fun L s =>
      (List.range 64).foldl (fun s2 i => s2.spadStore L.c (recordAt (L.g.sget L.fA) i)
        ((List.range 64).flatMap fun j => leBytes (accstSize L.fn) (accstCode L.fn (L.g.acc L.fB i j)))) s⟩
  | .fenceE o => some ⟨o, noCheck, fun L s => s.modCore L.c fun k => { k with ct := maxD k.ct L.g.jobTime }⟩
  | .syncr o => some ⟨o, noCheck, fun L s => if o.fn = 0 then s else s.discardStr L.c⟩
  | .cvjoin o => some ⟨o, slipCheck (.cvjoin o), fun L s =>
      s.cvJoin L.c L.slot ((L.g.sget L.fA).extractLsb' 0 16) (BitVec.ofNat 16 (slipOf (.cvjoin o) L))⟩
  | .cvleave o => some ⟨o, noCheck, fun L s => s.cvLeave L.c L.slot⟩
  | .cvslip o => some ⟨o, slipCheck (.cvslip o), fun L s => s.modGroup L.c L.slot fun g => { g with
      cv := { g.cv with slip := BitVec.ofNat 16 (slipOf (.cvslip o) L) } }⟩
  | _ => none

/-- SWR and the value it writes (R321). -/
def swrRow (i : Instr) : Option (Op × (Lane → Dword)) :=
  match i with
  | .swrB o => some (o, fun L => (L.srcBw i).setWidth 64)
  | .swrW o => some (o, fun L => L.srcBd i)
  | .swrS o => some (o, fun L => L.srcBd i)
  | _ => none

end Sys2Proof.Claims

/-- Every special function empties the destination of each thread that goes on, moves it on, and puts one entry with its operand and
mode at the end of its quadrant's queue; SFU_RESULT takes the oldest entry of a queue, whose results are written, full from the next
front cycle on, with their flags. Every other queue, thread and byte of memory stays (R127, R158 to R160, R353). -/
def Obligations.SpecialFunctions : Prop :=
  (∀ (i : Instr) (o : Op) (fn : Nat) (s : State) (t : Nat) (L : Lane), sfuRow i = some (o, fn) → s.Goes i o noCheck t L →
     ∃ u entry, exec i s = .next u ∧ u.thread? s.cur.core s.cur.slot t = some (after s (L.th.drain (L.dstReg 1))) ∧
       sfuOf L fn ∈ entry ∧
       tget [] (u.core s.cur.core).sfuQ s.cur.quad = tget [] (s.core s.cur.core).sfuQ s.cur.quad ++ [entry] ∧
       (∀ q, q ≠ s.cur.quad → tget [] (u.core s.cur.core).sfuQ q = tget [] (s.core s.cur.core).sfuQ q) ∧
       ∀ key a, u.byteAt key a = s.byteAt key a) ∧
  ∀ (c q : Nat) (s : State) (w : List Sfu) (rest : List (List Sfu)), tget [] (s.core c).sfuQ q = w :: rest →
    (w.map fun x => (x.slot, x.tid)).Nodup →
    ∃ u, exec (.sfuResult c q) s = .next u ∧ tget [] (u.core c).sfuQ q = rest ∧
      (∀ x ∈ w, u.thread? c x.slot x.tid =
        (s.thread? c x.slot x.tid).map fun th => (th.fillAll x.dest [x.result.1]).raiseFlags x.result.2) ∧
      (∀ k g t, ¬ (k = c ∧ ∃ x ∈ w, x.slot = g ∧ x.tid = t) → u.thread? k g t = s.thread? k g t) ∧
      ∀ key a, u.byteAt key a = s.byteAt key a

/-- The cross-lane instructions give each participant its result from all participants, read before any is written, and leave
everything but the threads of the wave as it was (R311, R322 to R327).
That sources are read before any thread is written is the model's reading (DEDUCED, log entry 12). -/
def Obligations.CrossLaneResults : Prop :=
  ∀ (i : Instr) (o : Op) (out : List Lane → Lane → Thread) (s : State) (t : Nat) (L : Lane), crossRow i = some (o, out) →
    s.Goes i o noCheck t L →
    ∃ u, exec i s = .next u ∧ u.thread? s.cur.core s.cur.slot t = some (after s (out (s.going i o noCheck) L)) ∧
      s.SameMachine u ∧ ∀ key a, u.byteAt key a = s.byteAt key a

/-- "Exactly one thread of each issue wave is elected, not one per group" (R322): ELECT, OPC 0x108, has FN 0 and the 64-bit form; the
participant of the lowest home lane gets 1 in its D, every other 0; p0 stays 1 (R120). -/
def Obligations.ElectPicksOne : Prop :=
  (∀ o : Op, (Instr.elect o).wf = true → o.form = .w64 ∧ o.fn = 0 ∧ (encode (.elect o)).head?.map opcOf = some 0x108) ∧
  ∀ (o : Op) (s : State), (Instr.elect o).wf = true → s.cur.threads.Nodup →
    (∀ t L, s.lane? o (s.readyWave (.elect o) o) t = some L → t ∈ s.readyWave (.elect o) o → L.th.due = []) →
    s.going (.elect o) o noCheck ≠ [] →
    ∃ u t, exec (.elect o) s = .next u ∧ t ∈ (s.going (.elect o) o noCheck).map (·.tid) ∧
      (∀ x ∈ s.going (.elect o) o noCheck, homeLane t ≤ homeLane x.tid) ∧
      ∀ x ∈ s.going (.elect o) o noCheck,
        (u.thread? s.cur.core s.cur.slot x.tid).map (fun th => th.pred o.d.toNat) = some (decide (o.d = 0 ∨ x.tid = t))

/-- A group effect is made once for an issue whose active threads all go on, with the lowest active home lane, and its threads move
on; nothing else changes (R256, R281, R310). The model's readings in it are FENCE.E's time (DEDUCED, log entry 24), CVJOIN into a convoy
that cannot be made (DEDUCED, log entry 34) and SYNCR writing dirty lines back as it drops them (DEDUCED, log entry 78). -/
def Obligations.GroupEffects : Prop :=
  ∀ (i : Instr) (r : Once) (s : State) (L : Lane), onceRow i = some r → s.Together i r.op r.check L →
    exec i s = .next ((r.eff L s).moveTo (s.movers i r.op) s.cur.next)

/-- SWR of sr.fmode and sr.fstat writes each thread's own low bits; of a register held per group it writes it once: the slip limit, the
shed timeout held within 256 to 1,048,576, the handler's address or the watchdog limit (R321, R65, R131, R231, R232). -/
def Obligations.SpecialRegisterWrites : Prop :=
  (∀ (i : Instr) (o : Op) (val : Lane → Dword) (s : State) (t : Nat) (L : Lane), swrRow i = some (o, val) →
    s.Goes i o (swrCheck i val) t L →
    (o.a = 3 → Becomes i s t (after s { L.th with fmode := (val L).extractLsb' 0 3 })) ∧
    (o.a = 4 → Becomes i s t (after s { L.th with fstat := (val L).extractLsb' 0 6 }))) ∧
  ∀ (i : Instr) (o : Op) (val : Lane → Dword) (s : State) (L : Lane), swrRow i = some (o, val) →
    s.Together i o (swrCheck i val) L → o.a.toNat ∈ [0x11, 0x15, 0x30, 0x31] →
    exec i s = .next ((s.modGroup L.c L.slot fun g =>
      if o.a = 0x11 then { g with cv := { g.cv with slip := (val L).extractLsb' 0 16 } }
      else if o.a = 0x15 then { g with cv := { g.cv with timeout := max 256 (min 1048576 (val L).toNat) } }
      else if o.a = 0x30 then { g with tvec := ((val L).extractLsb' 0 57).setWidth 64 }
      else { g with wdog := lowWord (val L) }).moveTo (s.movers i o) s.cur.next)

/-- The frame of the group effects and of SWR, whatever their threads do: every byte that any key reads, every other group, every
core's accesses and translations stay; scratchpads too but for ACCST, and caches but for SYNCR. -/
def Obligations.GroupFrame : Prop :=
  ∀ (i : Instr) (s u : State), (onceRow i).isSome ∨ (swrRow i).isSome → exec i s = .next u →
    (∀ key a, u.byteAt key a = s.byteAt key a) ∧
    (∀ c g, ¬ (c = s.cur.core ∧ g = s.cur.slot) → u.group? c g = s.group? c g) ∧
    (∀ c, (u.core c).accs = (s.core c).accs ∧ (u.core c).tlb = (s.core c).tlb) ∧
    ((∀ o, i ≠ .accst o) → ∀ c, (u.core c).spad = (s.core c).spad) ∧
    ((∀ o, i ≠ .syncr o) → ∀ c, (u.core c).l1 = (s.core c).l1)

namespace Sys2Proof.Claims

/-! ## Tiles, scale memory and MMA -/

/-- SCL and SCL.raw: the 4-bit code and the flags that a thread gives (R140, R359). -/
def scaleRow (i : Instr) : Option (Op × (Lane → Nat × BitVec 6)) :=
  match i with
  | .scl o => some (o, fun L =>
      let e : Int := ((L.srcBw i).toNat % 256 : Nat) - ((L.g.sget L.fA).toNat % 256 : Nat)
      ((BitVec.ofInt 4 (max (-7) (min 7 e))).toNat, if e < -7 ∨ 7 < e then 0x20 else 0))
  | .sclRaw o => some (o, fun L => ((L.srcBw i).toNat % 16, 0))
  | _ => none

/-- MMA in both its forms. -/
def mmaRow (i : Instr) : Option Op :=
  match i with
  | .mmaRegister o | .mmaDescriptor o => some o
  | _ => none

/-- The join register that an MMA names, with a signature of the thread's rank added (R170, R171). -/
def joined (s : State) (L : Lane) (o : Op) (r : Nat) : Join :=
  let j := tget Join.empty L.g.j o.a.toNat
  { j with
    signed := j.signed ||| (1 <<< r), sig := some [o.d.toNat, o.fn.toNat, o.m.toNat]
    signers := tset j.signers r { fmt := L.th.reg L.fB, a := L.th.reg L.fC, b := L.th.reg L.fE, next := s.cur.next } }

/-- The state with the signature made: the thread waits at its MMA. -/
def withSignature (s : State) (L : Lane) (o : Op) (r : Nat) : State :=
  (s.modGroup L.c L.slot fun g => { g with j := tset g.j o.a.toNat (joined s L o r) }).modThread L.c L.slot L.tid fun th =>
    { th with wait := some ⟨.signature o.a.toNat, s.now L.c, false⟩ }

/-- The format words of the signers of a join register, by rank. -/
def formatWords (g : Group) (jn : Nat) : List Word :=
  let j := tget Join.empty g.j jn
  (List.range j.count).filterMap fun q =>
    match g.threads[j.first + q]?, tfind j.signers q with
    | some th, some x => some (th.get x.fmt)
    | _, _ => none

/-! ## The scratchpad -/

/-- LDS: the words that a thread's registers get from the bytes read (R280, R285). -/
def loadedWords (o : Op) (bs : List Byte) : List Word :=
  let v := leNat bs
  match accessBytes o with
  | 1 => [BitVec.ofNat 32 (if signedLoad o.fn.toNat ∧ 128 ≤ v then v + 0xFFFFFF00 else v)]
  | 2 => [BitVec.ofNat 32 (if signedLoad o.fn.toNat ∧ 32768 ≤ v then v + 0xFFFF0000 else v)]
  | n => (List.range (n / 4)).map fun k => BitVec.ofNat 32 (leNat ((bs.drop (4 * k)).take 4))

/-- Bytes read at an offset: each defined byte as it stands there. -/
def ReadsAs (k : Core) (off : Nat) (bs : List Byte) : Prop :=
  ∀ j b, j < bs.length → k.spadByte (off + j) = some b → bs[j]? = some b

/-- ATOMS and CASS: the kind, the operand bytes and the compare bytes (R287 to R289). -/
def spadAtomicRow (i : Instr) : Option (Op × (Lane → AccKind × List Byte × List Byte)) :=
  match i with
  | .atoms o => some (o, fun L => (.atomic L.fn o.m.toNat 0, L.atomB i, []))
  | .cass o => some (o, fun L => (.cas o.m.toNat 0, L.atomC, L.atomB i))
  | _ => none

/-- Everything but scratchpads, thread t of the issuing group and the free values' counter is as it was: memory, hub, net, clusters,
dies, vaults, every core's cache, TLB, accesses and time, every other group, and of the issuing group its registers, tiles and join
registers and every other thread. -/
structure SpadOnly (s u : State) (t : Nat) : Prop where
  memory : u.memory = s.memory
  rest   : u.hub = s.hub ∧ u.net = s.net ∧ u.clusters = s.clusters ∧ u.dies = s.dies ∧ u.vaults = s.vaults ∧ u.errors = s.errors
  cores  : ∀ c, u.core c = { s.core c with spad := (u.core c).spad, slots := (u.core c).slots }
  groups : ∀ c g, ¬ (c = s.cur.core ∧ g = s.cur.slot) → u.group? c g = s.group? c g
  group  : ∃ ths, u.group? s.cur.core s.cur.slot = (s.group? s.cur.core s.cur.slot).map fun g => { g with threads := ths }
  others : ∀ x, x ≠ t → u.thread? s.cur.core s.cur.slot x = s.thread? s.cur.core s.cur.slot x

end Sys2Proof.Claims

/-- SCL writes one code of its group's window for each thread, the code of R140 or the low 4 bits as given, raises SCLAMP where it
clamps, and changes no other code (R140, R167, R359). ACCWR writes up to eight consecutive elements of a tile row, as bits, and no
other element of any tile (R361); ACCZ, once per issue, sets every element of its tile to +0 and leaves every other tile (R360). -/
def Obligations.TileAndScaleWrites : Prop :=
  (∀ (i : Instr) (o : Op) (f : Lane → Nat × BitVec 6) (s : State) (t : Nat) (L : Lane), scaleRow i = some (o, f) →
     s.Alone i o sclCheck t L →
     ∃ u g, exec i s = .next u ∧ u.group? s.cur.core s.cur.slot = some g ∧ g.threads[t]? = some (after s (L.th.raiseFlags (f L).2)) ∧
       ∀ n, g.scaleCode n =
         if n = ((L.g.sget L.fA).toNat / 256 % 8192) + L.codeC then (f L).1 else L.g.scaleCode n) ∧
  (∀ (o : Op) (s : State) (t : Nat) (L : Lane), s.Alone (.accwr o) o (accCheck (.accwr o) o) t L →
    let w := L.srcBw (.accwr o)
    let n := 2 ^ (o.m.toNat / 2)
    ∃ u g, exec (.accwr o) s = .next u ∧ u.group? s.cur.core s.cur.slot = some g ∧ g.threads[t]? = some (after s L.th) ∧
      ∀ x i j, j < 64 → g.acc x i j =
        if x = o.d.toNat ∧ i = w.toNat / 256 % 64 ∧ w.toNat % 64 ≤ j ∧ j < w.toNat % 64 + n
        then (L.words L.fA n L.moda).getD (j - w.toNat % 64) 0 else L.g.acc x i j) ∧
  ∀ (o : Op) (s : State) (L : Lane), s.Together (.accz o) o noCheck L →
    ∃ u g, exec (.accz o) s = .next u ∧ u.group? s.cur.core s.cur.slot = some g ∧
      (∀ i j, g.acc o.d.toNat i j = 0) ∧ ∀ x i j, x ≠ o.d.toNat → g.acc x i j = L.g.acc x i j

/-- A signature that is not the last adds the thread's rank to SIGNED and the thread waits at its MMA; the one that completes SIGNED
issues the operation where no check stops it: the join register forgets the signatures, the tile is empty, the operation stands
last in the array's queue, and without WAIT the thread goes on (R170 to R173, R357). -/
def Obligations.Signatures : Prop :=
  (∀ (i : Instr) (o : Op) (s : State) (t r : Nat) (L : Lane), mmaRow i = some o → s.Alone i o (mmaCheck o) t L →
    (tget Join.empty L.g.j o.a.toNat).rank t = some r → (tget Join.empty L.g.j o.a.toNat).completes r = false →
    exec i s = .next (withSignature s L o r)) ∧
  ∀ (i : Instr) (o : Op) (s : State) (t r : Nat) (L : Lane) (g : Group), mmaRow i = some o → s.Alone i o (mmaCheck o) t L →
    (tget Join.empty L.g.j o.a.toNat).rank t = some r → (tget Join.empty L.g.j o.a.toNat).completes r = true → r < 64 →
    r < (tget Join.empty L.g.j o.a.toNat).count →
    o.d.toNat ∉ L.g.xEmpty → (s.core L.c).planeFull = false →
    (withSignature s L o r).group? L.c L.slot = some g →
    (withSignature s L o r).mmaTrap L.c g o (tget Join.empty L.g.j o.a.toNat).count (formatWords g o.a.toNat) = none →
    ∃ u p h, exec i s = .next u ∧ (u.core L.c).planeQ = (s.core L.c).planeQ ++ [p] ∧ p.slot = L.slot ∧ p.tile = o.d.toNat ∧
      u.group? L.c L.slot = some h ∧ o.d.toNat ∈ h.xEmpty ∧ (tget Join.empty h.j o.a.toNat).signed = 0 ∧
      (o.m.getLsbD 0 = false → h.threads[t]? = some (after s L.th)) ∧
      (o.m.getLsbD 0 = true → h.threads[t]? = some { L.th with wait := some ⟨.signature o.a.toNat, s.now L.c, false⟩ } ∧
        tfind p.release t = some s.cur.next)

/-- LDS gives its registers the bytes at its address, little-endian, .i8 and .i16 sign-extended, an undefined byte as a free value, and
changes no byte of any scratchpad; STS puts its register bytes at its address and changes no other byte of any scratchpad; neither
changes anything else (R9, R280, R285). When LDS fills its registers is log entry 23, and that a step may put either access off to
after its issue is log entry 81 (DESIGN CHOICE); this is what exec does with one that is not put off. -/
def Obligations.ScratchpadAccesses : Prop :=
  (∀ (o : Op) (s : State) (t k off : Nat) (L : Lane),
     s.Alone (.lds o) o (fun L => spadTrap L L.sa (accessBytes o) (accessBytes o)) t L → spadAt L.c L.sa = some (k, off) →
     ∃ u bs, exec (.lds o) s = .next u ∧ bs.length = accessBytes o ∧ ReadsAs (s.core k) off bs ∧
       u.thread? L.c L.slot t = some (after s (L.th.fillAll (L.dstReg (accessRegs o)) (loadedWords o bs))) ∧
       (∀ c a, (u.core c).spadByte a = (s.core c).spadByte a) ∧ SpadOnly s u t) ∧
  ∀ (o : Op) (s : State) (t k off : Nat) (L : Lane),
    s.Alone (.sts o) o (fun L => spadTrap L L.sa (accessBytes o) (accessBytes o)) t L → spadAt L.c L.sa = some (k, off) →
    ∃ u, exec (.sts o) s = .next u ∧ u.thread? L.c L.slot t = some (after s L.th) ∧
      (∀ c a, (u.core c).spadByte a =
        if c = k ∧ off ≤ a ∧ a < off + L.storeData.length then L.storeData[a - off]? else (s.core c).spadByte a) ∧ SpadOnly s u t

/-- ATOMS and CASS, as one access: the thread's registers get the bytes found, and what the operation makes of them stands there;
no other byte of any scratchpad changes, and nothing else does (R99, R287 to R289). When the registers fill is log entry 23. -/
def Obligations.ScratchpadAtomics : Prop :=
  ∀ (i : Instr) (o : Op) (f : Lane → AccKind × List Byte × List Byte) (s : State) (t k off : Nat) (L : Lane),
    spadAtomicRow i = some (o, f) → s.Alone i o (fun L => spadTrap L L.atomSa (atomSize o) (atomSize o)) t L →
    spadAt L.c L.atomSa = some (k, off) →
    ∃ u old, exec i s = .next u ∧ old.length = atomSize o ∧ ReadsAs (s.core k) off old ∧
      let new := (f L).1.apply (atomSize o) old (f L).2.1 (f L).2.2
      u.thread? L.c L.slot t = some (after s (L.th.fillAll (L.dstReg (atomSize o / 4)) (loadWords (atomSize o) false old))) ∧
      (∀ c a, (u.core c).spadByte a =
        if c = k ∧ off ≤ a ∧ a < off + new.length then new[a - off]? else (s.core c).spadByte a) ∧ SpadOnly s u t

/-- SWARM keeps GEN, sets TARGET to B and COUNT to 0, clears the failed flag, and changes no other byte; SWAIT finds GEN moved on and
gives it, and the core's time reaches the word's, or waits while GEN is B; SWPOLL reads the word into its pair and acquires its
time (R112, R113, R115, R116, R300). -/
def Obligations.SyncWords : Prop :=
  (∀ (o : Op) (s : State) (t k off : Nat) (bs : List Byte) (L : Lane), s.Alone (.swarm o) o (swarmCheck (.swarm o)) t L →
    spadAt L.c L.saNoOff = some (k, off) → (∀ j, j < 8 → (s.core k).spadByte (off + j) = bs[j]?) → bs.length = 8 →
    ∃ u, exec (.swarm o) s = .next u ∧ u.thread? L.c L.slot t = some (after s L.th) ∧ off ∉ (u.core k).failed ∧
      (∀ j, j < 8 → (u.core k).spadByte (off + j) =
        (leBytes 8 (leNat (bs.drop 6) * 2 ^ 48 + (L.srcBw (.swarm o)).toNat * 2 ^ 24))[j]?) ∧
      (∀ a, a < off ∨ off + 8 ≤ a → (u.core k).spadByte a = (s.core k).spadByte a) ∧
      ∀ key a, u.byteAt key a = s.byteAt key a) ∧
  (∀ (o : Op) (s : State) (t k off : Nat) (w : Dword) (L : Lane),
    s.Alone (.swait o) o (fun L => spadTrap L L.saNoOff 8 8) t L → spadAt L.c L.saNoOff = some (k, off) →
    off ∉ (s.core k).failed → (∀ j, j < 8 → (s.core k).spadByte (off + j) = some (w.extractLsb' (8 * j) 8)) →
    let gen := w.extractLsb' 48 16
    let b := (L.srcBw (.swait o)).extractLsb' 0 16
    (gen ≠ b → ∃ u, exec (.swait o) s = .next u ∧
      u.thread? L.c L.slot t = some (after s (L.th.put (L.dstReg 1) (gen.setWidth 32))) ∧
      (u.core L.c).ct = maxD (s.core L.c).ct ((s.core k).timeOf off)) ∧
    (gen = b → exec (.swait o) s = .next (s.modThread L.c L.slot t fun th =>
      { th with wait := some ⟨.swait L.saNoOff b, s.now L.c, false⟩ }))) ∧
  ∀ (o : Op) (s : State) (t k off : Nat) (w : Dword) (L : Lane), s.Alone (.swpoll o) o swpollCheck t L →
    spadAt L.c L.sa = some (k, off) → (∀ j, j < 8 → (s.core k).spadByte (off + j) = some (w.extractLsb' (8 * j) 8)) →
    ∃ u, exec (.swpoll o) s = .next u ∧
      u.thread? L.c L.slot t = some (after s (L.th.fillAll (L.dstReg 2) [w.extractLsb' 0 32, w.extractLsb' 32 32])) ∧
      (u.core L.c).ct = maxD (s.core L.c).ct ((s.core k).timeOf off)

/-- An SWAIT or SWPOLL that finds the failed flag set traps with the cause of the failed job, and the flag stays set (R114, R233). -/
def Obligations.FailedWordTraps : Prop :=
  ∀ (i : Instr) (o : Op) (s : State) (t k off : Nat) (L : Lane) (bs : List Byte),
    (i = .swait o ∧ s.Alone i o noCheck t L ∧ spadAt L.c L.saNoOff = some (k, off) ∧ (spadTrap L L.saNoOff 8 8).isNone ∨
      i = .swpoll o ∧ s.Alone i o noCheck t L ∧ spadAt L.c L.sa = some (k, off) ∧ (spadTrap L L.sa 8 8).isNone) →
    off ∈ (s.core k).failed → L.g.tvec ≠ 0 → L.th.handler = false → s.target L.c L.g.ctx L.g.tvec true = .ok bs →
    let cause := tget 0x8000 (s.cluster (clusterOf k)).failures (k * 0x80000 + off)
    ∃ u th, exec i s = .next u ∧ u.thread? L.c L.slot t = some th ∧ th.handler = true ∧ th.pc = L.g.tvec ∧
      tget 0 th.t 0 = cause.setWidth 32 ∧ tget 0 th.t 8 = cause.setWidth 32 ∧ off ∈ (u.core k).failed

namespace Sys2Proof.Claims

/-! ## Memory -/

/-- An instruction that makes one access for each thread: its fields, the check of step 10, and the access. -/
structure Request where
  op    : Op
  check : Lane → Option Trap
  acc   : Lane → Acc

/-- LD, ST, LDC, ATOM and CAS (R279 to R289). -/
def memRow (i : Instr) : Option Request :=
  match i with
  | .ld o => some ⟨o, fun L => vaCheck (accessBytes o) 0 L.va, fun L =>
      L.access .load L.va (accessBytes o) (accessRegs o) (L.dstReg (accessRegs o)) (signedLoad L.fn) (hintOf o) [] []⟩
  | .st o => some ⟨o, fun L => vaCheck (accessBytes o) 1 L.va, fun L =>
      L.access .store L.va (accessBytes o) 0 0 false 0 L.storeData []⟩
  | .ldc o => some ⟨o, ldcCheck o, fun L =>
      L.access .const L.ldcVa (accessBytes o) (accessRegs o) (L.dstReg (accessRegs o)) (signedLoad L.fn) 0 [] []⟩
  | .atom o => some ⟨o, atomCheck o, fun L =>
      L.access (.atomic L.fn o.m.toNat (atomScope o)) L.atomVa (atomSize o) (atomSize o / 4) (L.dstReg (atomSize o / 4)) false 0
        (L.atomB i) []⟩
  | .cas o => some ⟨o, atomCheck o, fun L =>
      L.access (.cas o.m.toNat (atomScope o)) L.atomVa (atomSize o) (atomSize o / 4) (L.dstReg (atomSize o / 4)) false 0
        L.atomC (L.atomB i)⟩
  | _ => none

/-- The region that serves a lane's address. -/
def regionAt (s : State) (L : Lane) (a : Acc) : Region := s.regionFor L.g.ctx a.va

/-- The access as it stands at its core. -/
def placed (s : State) (a : Acc) : Acc := { a with id := s.seq + 1, inst := s.seq }

/-- An RSTATE that began before the next access moves the region of an address. -/
def Moves (s : State) (ctx : Nat) (va : Dword) : Prop :=
  ∃ since, (tfind s.hub.contexts ctx).bind (·.moving) = some ((va.extractLsb' 53 4).toNat, since) ∧ since ≤ s.seq

/-- A thread makes its access alone: the core has none under way, the step is no convoy step, and its region serves the address. -/
structure Requests (s : State) (i : Instr) (r : Request) (t : Nat) (L : Lane) : Prop extends s.Alone i r.op r.check t L where
  idle   : (s.core L.c).accs = [] ∧ (s.core L.c).misses = []
  plain  : L.steps i = 0
  still  : ¬ Moves s L.g.ctx (r.acc L).va
  mapped : regionFault (regionAt s L (r.acc L)) L.c (r.acc L).va = none

/-- The page of an access is cached as e, admits the access and lies in memory. -/
structure Reaches (s : State) (L : Lane) (a : Acc) (e : TlbEnt) : Prop where
  cached : s.tlbLookup L.c L.g.ctx a.va = some e
  open_  : s.slabHeld (e.pa (regionAt s L a) a.va) = false
  admits : s.accCheck L.c L.g.ctx (regionAt s L a) e a = none
  dirty  : a.code = 0 ∨ e.d = true
  memory : isHub (e.pa (regionAt s L a) a.va) = false

/-- The access once it is translated. -/
def translated (s : State) (L : Lane) (a : Acc) (e : TlbEnt) : Acc :=
  { placed s a with pa := e.pa (regionAt s L a) a.va, key := e.key, state := (regionAt s L a).state }

/-- A translated access of a line that the core does not hold waits for nothing of the core: in COH its order, else its
write-backs. -/
def Clear (s : State) (L : Lane) (a : Acc) : Prop := (regionAt s L a).state = 0 ∨ s.writeBacksOpen L.c = false

/-- Every byte that any key reads is as it was. -/
def SameBytes (s u : State) : Prop := ∀ key a, u.byteAt key a = s.byteAt key a

/-- Bytes read at a physical address under a key: each defined byte as it stands there. -/
def ReadsMemory (s : State) (key pa : Nat) (bs : List Byte) : Prop :=
  ∀ j b, j < bs.length → s.byteAt key (pa + j) = some b → bs[j]? = some b

/-- The words that an access gives its registers. -/
def wordsFor (i : Instr) (bs : List Byte) : List Word :=
  match i with
  | .ld o | .ldc o => loadedWords o bs
  | .atom o | .cas o => loadWords (atomSize o) false bs
  | _ => []

end Sys2Proof.Claims

/-- An access whose page no TLB holds: its thread goes on with its destinations empty, the access takes an operand-log entry and
waits, a walk of its page is asked for, and no byte of memory changes (R42, R127, R236, R237).
Which log entry the access takes is the model's choice (DESIGN CHOICE, log entry 8). -/
def Obligations.MemoryWalks : Prop :=
  ∀ (i : Instr) (r : Request) (s : State) (t : Nat) (L : Lane), memRow i = some r → Requests s i r t L →
    s.tlbLookup L.c L.g.ctx (r.acc L).va = none →
    ∃ u n w, exec i s = .next u ∧
      u.thread? L.c L.slot t = some (after s (L.th.drainAll (r.acc L).dest (r.acc L).count)) ∧
      (u.core L.c).accs = [{ placed s (r.acc L) with phase := .walk, log := some 0 }] ∧
      u.net = s.net ++ [(n, .tlbMiss (dieOf L.c) w)] ∧ w.ctx = L.g.ctx ∧ w.va = (r.acc L).va ∧
      w.waiters = [.acc L.c (s.seq + 1)] ∧ SameBytes s u

/-- LD of a line in the L1: the thread's registers get its bytes, little-endian, .i8 and .i16 sign-extended; in COH where the copy's
lease reaches the core's time, which rises to the copy's (R68, R70, R86, R280, R283). -/
def Obligations.LoadHits : Prop :=
  ∀ (o : Op) (r : Request) (s : State) (t : Nat) (L : Lane) (e : TlbEnt) (x : L1Line), memRow (.ld o) = some r →
    Requests s (.ld o) r t L → Reaches s L (r.acc L) e →
    let a := translated s L (r.acc L) e
    let ct := (s.core L.c).ct
    (s.core L.c).line? a.pa a.key = some x → x.poison.getLsbD (a.pa / 64 % 4) = false → Clear s L a →
    (a.state = 0 → (maxD ct x.wts).toNat ≤ x.rts.toNat) →
    ∃ u, exec (.ld o) s = .next u ∧
      u.thread? L.c L.slot t = some (after s (L.th.fillAll a.dest (loadedWords o ((x.bytes.drop (a.pa % 256)).take (accessBytes o))))) ∧
      (u.core L.c).accs = [] ∧ (u.core L.c).ct = (if a.state = 0 then maxD ct x.wts else ct) ∧ u.net = s.net ∧ SameBytes s u

/-- LD of a line that the L1 does not hold: the access takes a miss-status entry for its sector, and one read of the line is sent
with the hint and the core's time; where no way is a cache way it acts as hint 1 (R68, R70 to R72, R257). -/
def Obligations.LoadMisses : Prop :=
  ∀ (o : Op) (r : Request) (s : State) (t : Nat) (L : Lane) (e : TlbEnt), memRow (.ld o) = some r →
    Requests s (.ld o) r t L → Reaches s L (r.acc L) e →
    let a := translated s L (r.acc L) e
    let hint := if (s.core L.c).mask = 0xFFFF then 1 else hintOf o
    (s.core L.c).line? a.pa a.key = none → Clear s L a →
    ∃ u n, exec (.ld o) s = .next u ∧
      u.thread? L.c L.slot t = some (after s (L.th.drainAll a.dest a.count)) ∧
      (u.core L.c).accs = [{ a with phase := .fill, hint := hint }] ∧
      (u.core L.c).misses = [(0, { pa := lineOf a.pa, key := a.key, sector := a.pa / 64 % 4, stale := false })] ∧
      u.net = s.net ++ [(n, .read { core := L.c, tag := 0, sect := 1 <<< (a.pa / 64 % 4), hint := hint, ct := (s.core L.c).ct,
                                    pa := lineOf a.pa, key := a.key })] ∧ SameBytes s u

/-- ST into a line of the L1: in STR and PRV, and in COH where the core holds it exclusively, the line takes the bytes, its sectors
are dirty, and in COH its times become the later of the core's and one past its lease; memory keeps its bytes. Other stores go home:
in COH with the core's time, in STR and PRV where the L1 does not hold the line; the access stays until it is acknowledged, and the
L1 keeps its lines (R70, R88, R93, R94). -/
def Obligations.Stores : Prop :=
  (∀ (o : Op) (r : Request) (s : State) (t : Nat) (L : Lane) (e : TlbEnt) (x : L1Line), memRow (.st o) = some r →
    Requests s (.st o) r t L → Reaches s L (r.acc L) e →
    let a := translated s L (r.acc L) e
    let w := maxD (s.core L.c).ct (x.rts + 1)
    (s.core L.c).line? a.pa a.key = some x → x.bytes.length = 256 → a.data.length ≤ 256 → Clear s L a →
    (a.state = 0 → x.excl = true) →
    ∃ u y, exec (.st o) s = .next u ∧ u.thread? L.c L.slot t = some (after s L.th) ∧ (u.core L.c).accs = [] ∧
      (u.core L.c).line? a.pa a.key = some y ∧
      (∀ j, j < 256 → y.bytes[j]? =
        if (j + 256 - a.pa % 256) % 256 < a.data.length then a.data[(j + 256 - a.pa % 256) % 256]? else x.bytes[j]?) ∧
      (∀ k, k < a.data.length → y.dirty.getLsbD ((a.pa + k) / 64 % 4) = true) ∧
      (∀ q, x.dirty.getLsbD q = true → y.dirty.getLsbD q = true) ∧
      (a.state = 0 → y.wts = w ∧ y.rts = w ∧ (u.core L.c).ct = w) ∧ u.net = s.net ∧ SameBytes s u) ∧
  ∀ (o : Op) (r : Request) (s : State) (t : Nat) (L : Lane) (e : TlbEnt), memRow (.st o) = some r →
    Requests s (.st o) r t L → Reaches s L (r.acc L) e →
    let a := translated s L (r.acc L) e
    Clear s L a → (a.state = 0 → ∀ x, (s.core L.c).line? a.pa a.key = some x → x.excl = false) →
    (a.state ≠ 0 → (s.core L.c).line? a.pa a.key = none) →
    ∃ u n, exec (.st o) s = .next u ∧ u.thread? L.c L.slot t = some (after s L.th) ∧
      (u.core L.c).accs = [{ a with phase := .sent }] ∧ (u.core L.c).l1 = (s.core L.c).l1 ∧
      u.net = s.net ++ [(n, if a.state = 0 then .cohStore L.c a.id a.pa a.key (s.core L.c).ct (zipFrom a.pa a.data)
                            else .strStore L.c a.id a.pa a.key (zipFrom a.pa a.data))] ∧ SameBytes s u

/-- ATOM and CAS without their line: under COH a scope of .thread to .cluster asks for the line exclusively where the L1 has a way,
every other atomic goes to the line's home, and the destinations are empty until it answers. On a line that the core holds
exclusively a narrow scope gives the registers the bytes found and the line what the operation makes of them, and its times and the
core's are the later of the core's and one past its lease (R92, R93, R288, R289). -/
def Obligations.Atomics : Prop :=
  (∀ (i : Instr) (o : Op) (r : Request) (s : State) (t : Nat) (L : Lane) (e : TlbEnt), i = .atom o ∨ i = .cas o → memRow i = some r →
    Requests s i r t L → Reaches s L (r.acc L) e →
    let a := translated s L (r.acc L) e
    let own := a.state = 0 ∧ atomScope o ≤ 2 ∧ (s.core L.c).cacheWays ≠ []
    (s.core L.c).line? a.pa a.key = none → Clear s L a →
    ∃ u n, exec i s = .next u ∧ u.thread? L.c L.slot t = some (after s (L.th.drainAll a.dest a.count)) ∧
      (own → (u.core L.c).accs = [{ a with phase := .excl }] ∧ u.net = s.net ++ [(n, .exclReq L.c a.id a.pa a.key true)]) ∧
      (¬ own → (u.core L.c).accs = [{ a with phase := .sent }] ∧
        u.net = s.net ++ [(n, .homeAtomic L.c a.id a.pa a.key (s.core L.c).ct (a.state == 0) a.kind a.size a.data a.cmp)]) ∧
      SameBytes s u) ∧
  ∀ (i : Instr) (o : Op) (r : Request) (s : State) (t : Nat) (L : Lane) (e : TlbEnt) (x : L1Line),
    i = .atom o ∨ i = .cas o → memRow i = some r → Requests s i r t L → Reaches s L (r.acc L) e →
    let a := translated s L (r.acc L) e
    let w := maxD (s.core L.c).ct (x.rts + 1)
    let old := (x.bytes.drop (a.pa % 256)).take a.size
    let new := a.kind.apply a.size old a.data a.cmp
    a.state = 0 → atomScope o ≤ 2 → (s.core L.c).cacheWays ≠ [] → (s.core L.c).line? a.pa a.key = some x → x.excl = true →
    x.poison.getLsbD (a.pa / 64 % 4) = false → x.bytes.length = 256 → a.pa % 256 + new.length ≤ 256 →
    ∃ u y, exec i s = .next u ∧ u.thread? L.c L.slot t = some (after s (L.th.fillAll a.dest (loadWords (atomSize o) false old))) ∧
      (u.core L.c).accs = [] ∧ (u.core L.c).line? a.pa a.key = some y ∧
      (∀ j, j < 256 → y.bytes[j]? =
        if a.pa % 256 ≤ j ∧ j < a.pa % 256 + new.length then new[j - a.pa % 256]? else x.bytes[j]?) ∧
      y.wts = w ∧ y.rts = w ∧ (u.core L.c).ct = w ∧ u.net = s.net ∧ SameBytes s u

/-- LDC reads its bytes at the line's home: the registers get them, a byte that is not defined as a free value, and no time and no
byte changes (R261, R280, R286). That it reads home in the step of its issue, past any constant cache and without a time when its
registers are empty, is the model's choice (DESIGN CHOICE, log entry 22). -/
def Obligations.ConstantLoads : Prop :=
  ∀ (o : Op) (r : Request) (s : State) (t cell : Nat) (L : Lane) (e : TlbEnt), memRow (.ldc o) = some r →
    Requests s (.ldc o) r t L → Reaches s L (r.acc L) e →
    let a := translated s L (r.acc L) e
    s.owner? a.pa = none → s.homeCell a.pa = some cell → s.poisonOf cell = 0 → (∀ k, k < 4 → tfind s.errors (cell / 64 + k) = none) →
    ∃ u bs, exec (.ldc o) s = .next u ∧ bs.length = accessBytes o ∧ ReadsMemory s a.key a.pa bs ∧
      u.thread? L.c L.slot t = some (after s (L.th.fillAll a.dest (loadedWords o bs))) ∧ (u.core L.c).accs = [] ∧
      (u.core L.c).ct = (s.core L.c).ct ∧ u.net = s.net ∧ SameBytes s u

/-- PF and LEASE of a page that no TLB holds do nothing; else PF asks for the whole line, held or not, and LEASE of a
COH line asks its home to renew the line for 0 or 2^(FN + 3) ticks; the thread goes on with every register as it was (R292, R293). -/
def Obligations.LineRequests : Prop :=
  ∀ (i : Instr) (o : Op) (s : State) (t : Nat) (L : Lane), i = .pf o ∨ i = .lease o → s.Alone i o noCheck t L →
    (s.core L.c).accs = [] ∧ (s.core L.c).misses = [] → L.va.toNat < 2 ^ 57 →
    let va := L.va &&& ~~~255#64
    let reg := s.regionFor L.g.ctx va
    ¬ Moves s L.g.ctx va →
    ∃ u n, exec i s = .next u ∧ u.thread? L.c L.slot t = some (after s L.th) ∧ SameBytes s u ∧
      (s.tlbLookup L.c L.g.ctx va = none → u.net = s.net ∧ (u.core L.c).accs = []) ∧
      ∀ e, s.tlbLookup L.c L.g.ctx va = some e → regionBad reg va = false → s.checkLeaf reg L.c e va 0 L.th.handler = none →
        isHub (e.pa reg va) = false → s.slabHeld (e.pa reg va) = false → (s.core L.c).cacheWays ≠ [] →
        (i = .pf o → s.writeBacksOpen L.c = false →
          u.net = s.net ++ [(n, .read ⟨L.c, 0, 0xF, if hintOf o = 1 ∨ hintOf o = 3 then 0 else hintOf o, (s.core L.c).ct,
            lineOf (e.pa reg va), e.key, none⟩)]) ∧
        (i = .lease o → reg.state = 0 → u.net = s.net ++ [(n, .renew L.c (s.seq + 1) (e.pa reg va) e.key
          (((s.core L.c).line? (e.pa reg va) e.key).map (·.wts)) (s.core L.c).ct (if o.fn.toNat = 0 then 0 else 2 ^ (o.fn.toNat + 3)))])

namespace Sys2Proof.Claims

/-! ## Transfers, traps and returns -/

/-- A transfer: its fields, its checks, and the thread that it leaves (R364 to R369). -/
def jumpRow (i : Instr) : Option (Op × (Lane → Option Trap) × (Lane → Thread)) :=
  let near := fun (o : Op) (L : Lane) => BitVec.ofInt 64 (L.th.pc.toInt + 4 * (o.b ++ (o.a ++ o.d)).toInt)
  let linked := fun (o : Op) (L : Lane) => L.th.putAll (4 * L.fn)
    [lowWord L.s.cur.next, highWord L.s.cur.next &&& 0x1FFFFFF, (o.w1.extractLsb' 16 16).setWidth 32]
  match i with
  | .bra o => some (o, fun L => L.jumpTrap (branchTarget o L.th.pc), fun L =>
      { L.th with pc := near o L, prio := o.w1.extractLsb' 0 16 })
  | .brx o => some (o, Lane.padTrap, fun L => { L.th with pc := L.source true L.fA 0, prio := o.w1.extractLsb' 0 16 })
  | .call o => some (o, fun L => L.jumpTrap (branchTarget o L.th.pc), fun L =>
      { linked o L with pc := near o L, prio := o.w1.extractLsb' 0 16 })
  | .callx o => some (o, Lane.padTrap, fun L => { linked o L with pc := L.source true L.fA 0, prio := o.w1.extractLsb' 0 16 })
  | .ret o => some (o, fun L => L.jumpTrap L.linkPc, fun L =>
      let r := L.words L.fA 3 0
      { L.th with pc := pairOf (r.getD 0 0) (r.getD 1 0), prio := (r.getD 2 0).extractLsb' 0 16 })
  | _ => none

/-- Thread th has entered its handler as x: the trap registers of R233 for a trap without a log entry, priority 0, handler mode, and
nothing else changed. -/
structure Handles (th x : Thread) (handler resume : Dword) (cause : BitVec 16) (va : Dword) (info : Word) : Prop where
  mode   : x.handler = true ∧ x.prio = 0 ∧ x.pc = handler ∧ x.tEmpty = []
  cause  : tget 0 x.t 0 = cause.setWidth 32
  resume : tget 0 x.t 1 = resume.extractLsb' 0 32 ∧ tget 0 x.t 2 = (resume.extractLsb' 32 25).setWidth 32
  prio   : tget 0 x.t 3 = th.prio.setWidth 32
  own    : tget 0 x.t 4 = th.pc.extractLsb' 0 32 ∧ tget 0 x.t 5 = (th.pc.extractLsb' 32 25).setWidth 32
  va     : tget 0 x.t 6 = va.extractLsb' 0 32 ∧ tget 0 x.t 7 = (va.extractLsb' 32 25).setWidth 32
  info   : tget 0 x.t 8 = info
  rest   : ∀ n, 9 ≤ n → n < 16 → tget 0 x.t n = 0
  others : ({ x with t := th.t, tEmpty := th.tEmpty, pc := th.pc, prio := th.prio, handler := th.handler, fresh := th.fresh } : Thread) = th

/-- A group's handler can be entered by a thread: its address is set, the thread is in no handler, and the block is there. -/
def Enterable (s : State) (c : Nat) (g : Group) (th : Thread) : Prop :=
  g.tvec ≠ 0 ∧ th.handler = false ∧ ∃ bs, s.target c g.ctx g.tvec true = .ok bs

/-- A thread that waits inside its instruction. -/
def waiting (s : State) (c : Nat) (th : Thread) (k : WaitKind) : Thread := { th with wait := some ⟨k, s.now c, false⟩ }

/-- A core has nothing to write back. -/
def Released (s : State) (c : Nat) : Prop := (∀ x ∈ (s.core c).l1, x.dirty = 0) ∧ s.writeBacksOpen c = false

/-! ## Barriers and stage boards -/

/-- With the arrival of thread t its unit is complete: every live thread of its group in the unit has arrived, and at a level above
the group's domain every group (R189, R191). -/
def arrivalEnds (s : State) (g : Group) (n t : Nat) : Bool :=
  let here := t :: s.arrivals g n t
  let all := (g.mates n t).all here.contains
  if g.record.hubLevel n then
    let b := s.barrier g n t
    let arrived := if all && !b.arrived.contains g.index then g.index :: b.arrived else b.arrived
    !arrived.isEmpty && s.unitComplete g n t arrived
  else all

/-- The board that stands at a number of a core's cluster. -/
def boardAt (s : State) (c p : Nat) : Board := tget Board.reset (s.cluster (clusterOf c)).boards p

/-- The instructions that release as SYNCW does, with their checks, whether they write back (R95, R190, R206, R302), and the operands
that stand while they wait. -/
def releaseRow (i : Instr) : Option (Op × (Lane → Option Trap) × (Lane → Bool) × (Lane → List Nat)) :=
  match i with
  | .syncw o => some (o, noCheck, fun _ => o.fn != 0, fun _ => [])
  | .bara o => some (o, levelCheck, Lane.wideLevel, fun _ => [])
  | .bar o => some (o, levelCheck, fun L => L.th.mark.isNone && L.wideLevel, fun _ => [])
  | .stageAdd o => some (o, stageCheck i false, fun _ => true, fun L => [(L.srcB (shapeOf i) 0 false).toNat])
  | .stageSet o => some (o, stageCheck i true, fun _ => true, fun L => [(L.srcB (shapeOf i) 0 false).toNat])
  | .stend o => some (o, bindCheck, fun _ => true, fun _ => [])
  | .exit o => some (o, noCheck, fun L => L.th.bind.isSome, fun _ => [])
  | .wqe o => some (o, wqeCheck, fun _ => true, Lane.wqeArgs)
  | .wqt o => some (o, wqtCheck, fun _ => true, Lane.wqtArgs)
  | _ => none

end Sys2Proof.Claims

/-- BRA, BRX, CALL, CALLX and RET move each thread that goes on to its target with its taken priority, CALL and CALLX with the
link in three registers from 4 · FN on, and change nothing outside the wave's threads; a thread whose guard is false goes on to the next
instruction with the fall-through priority (R180, R266, R364 to R369). -/
def Obligations.Transfers : Prop :=
  (∀ (i : Instr) (o : Op) (check : Lane → Option Trap) (out : Lane → Thread) (s : State) (t : Nat) (L : Lane),
    jumpRow i = some (o, check, out) → s.Alone i o check t L →
    ∃ u, exec i s = .next u ∧ u.thread? s.cur.core s.cur.slot t = some (out L) ∧ s.SameMachine u) ∧
  ∀ (i : Instr) (o : Op) (s : State) (t : Nat) (L : Lane), i ∈ [.bra o, .brx o, .call o, .callx o] → s.cur.threads = [t] →
    s.lane? o [t] t = some L → L.th.live = true → L.th.wait = none → L.active = false → L.th.due = [] →
    ∃ u, exec i s = .next u ∧ u.thread? s.cur.core s.cur.slot t = some (after s { L.th with prio := o.w1.extractLsb' 16 16 }) ∧
      s.SameMachine u

/-- A check of R254 traps an active thread before its instruction changes anything: it enters its handler with the cause, its own PC to
resume at and to blame, and the values of R233, and nothing but the trap changes (R230, R232, R233). The number in t8 of a run or a
tile, and that a number out of range traps its own thread alone, are the model's reading (DEDUCED, log entries 14 and 19). -/
def Obligations.PreciseTraps : Prop :=
  ∀ (i : Instr) (r : Row) (s : State) (t : Nat) (L : Lane) (e : Trap), intRow i = some r ∨ floatRow i = some r ∨ moveRow i = some r →
    s.readyWave i r.op = [t] → s.lane? r.op [t] t = some L → L.active = true → L.th.wait = none → L.th.due = [] →
    (∀ x ∈ tilesOf i, x < L.g.record.tiles) → s.trapOf i r.op [t] r.check t = some e → Enterable s L.c L.g L.th →
    ∃ u x, exec i s = .next u ∧ u.thread? L.c L.slot t = some x ∧
      Handles L.th x L.g.tvec L.th.pc e.cause e.va e.info ∧ s.SameMachine u

/-- TRAP enters the handler on purpose, with the next instruction to resume at and its operand in t8; a word that is no instruction
traps each thread of its wave with 0x03 for zero length bits, else 0x02; a thread without a handler to enter stops its group
(R232, R233, R235, R254, R268, R378).
That such a word traps the inactive threads of its wave too is the model's reading (DEDUCED, log entry 70). -/
def Obligations.TrapsOnPurpose : Prop :=
  (∀ (o : Op) (s : State) (t : Nat) (L : Lane), s.Alone (.trap o) o noCheck t L →
    (Enterable s L.c L.g L.th → ∃ u x, exec (.trap o) s = .next u ∧ u.thread? L.c L.slot t = some x ∧
      Handles L.th x L.g.tvec s.cur.next 0x11 0 (lowWord (L.srcB (shapeOf (.trap o)) 0 false)) ∧ s.SameMachine u) ∧
    (L.g.tvec = 0 ∨ L.th.handler = true → L.g.stopped = none → ∃ u g, exec (.trap o) s = .next u ∧ u.group? L.c L.slot = some g ∧
      g = { L.g with stopped := some (0x11, L.th.pc) })) ∧
  ∀ (w : Word) (ws : List Word) (s : State) (t : Nat) (g : Group) (th : Thread), s.cur.threads = [t] →
    s.group? s.cur.core s.cur.slot = some g → g.threads[t]? = some th → th.live = true → th.wait = none →
    Enterable s s.cur.core g th →
    ∃ u x, exec (.unassignedOpcode w ws) s = .next u ∧ u.thread? s.cur.core s.cur.slot t = some x ∧
      Handles th x g.tvec th.pc (if w.extractLsb' 0 2 = 0 then 0x03 else 0x02) 0 0 ∧ s.SameMachine u

/-- ERET leaves handler mode with the PC of t2 and t1 and the priority of t3; with t9.V = 1 the held access is taken up again where
t0.RPL = 1, and else is given up with its destination 0 and full (R234, R237, R379). -/
def Obligations.HandlerReturns : Prop :=
  ∀ (o : Op) (s : State) (t : Nat) (L : Lane), s.Alone (.eret o) o eretCheck t L →
    let back : Thread := { L.th with
      handler := false, pc := pairOf (tget 0 L.th.t 1) (tget 0 L.th.t 2 &&& 0x1FFFFFF), prio := (tget 0 L.th.t 3).extractLsb' 0 16 }
    let e := ((tget 0 L.th.t 9).extractLsb' 0 5).toNat
    let rest := fun (a : Acc) => (s.core L.c).accs.filter (·.id != a.id)
    ∃ u, exec (.eret o) s = .next u ∧ SameBytes s u ∧
      ((tget 0 L.th.t 9).getLsbD 31 = false → u.thread? L.c L.slot t = some back ∧ (u.core L.c).accs = (s.core L.c).accs) ∧
      ∀ a, (tget 0 L.th.t 9).getLsbD 31 = true → (s.core L.c).held L.slot t e = some a →
        ((tget 0 L.th.t 0).getLsbD 31 = true → u.thread? L.c L.slot t = some back ∧
          (u.core L.c).accs = rest a ++ [{ a with phase := .logged, replay := true }]) ∧
        ((tget 0 L.th.t 0).getLsbD 31 = false → u.thread? L.c L.slot t = some (back.putAll a.dest (List.replicate a.count 0)) ∧
          (u.core L.c).accs = rest a)

/-- A thread arrives at its level's barrier with BARA, which gives it the phase, and with BAR; the phase of its unit advances by one
when no live thread of the unit is missing, and then BAR's thread goes on, else it waits; BARW goes on where its phase has passed
(R189 to R191, R371).
With a barrier of the hub BARW raises the core's time to that of the arrivals (DEDUCED, log entry 80); a unit of the fabric domain is
its part on this package, the model's choice (DESIGN CHOICE, log entry 47). -/
def Obligations.BarrierPhases : Prop :=
  ∀ (o : Op) (s : State) (t : Nat) (L : Lane), (L.wideLevel = true → Released s s.cur.core) →
    let p := (s.barrier L.g L.fA t).phase
    let q := if arrivalEnds s L.g L.fA t then p + 1 else p
    let quiet := (s.accsOf L.c L.slot t).isEmpty
    (s.Alone (.bara o) o levelCheck t L → ∃ u g, exec (.bara o) s = .next u ∧ u.group? L.c L.slot = some g ∧
      g.threads[t]? = some (after s (L.th.put (L.dstReg 1) (p.setWidth 32))) ∧ (u.barrier g L.fA t).phase = q ∧
      (q = p → t ∈ u.arrivals g L.fA t) ∧ SameBytes s u) ∧
    (s.Alone (.bar o) o levelCheck t L → L.th.mark = none → ∃ u g, exec (.bar o) s = .next u ∧ u.group? L.c L.slot = some g ∧
      (u.barrier g L.fA t).phase = q ∧ SameBytes s u ∧
      (q ≠ p → quiet = true → g.threads[t]? = some (after s L.th)) ∧
      (q = p ∨ quiet = false → g.threads[t]? = some (waiting s L.c { L.th with mark := some (L.fA, p) } (.phase true L.fA p)))) ∧
    (s.Alone (.barw o) o levelCheck t L →
      let want := (L.srcB (shapeOf (.barw o)) 0 false).extractLsb' 0 16
      ∃ u, exec (.barw o) s = .next u ∧ SameBytes s u ∧
        (want ≠ p → quiet = true → u.thread? L.c L.slot t = some (after s L.th) ∧
          (u.core L.c).ct = maxD (s.core L.c).ct (if L.g.record.hubLevel L.fA then (s.barrier L.g L.fA t).last else 0)) ∧
        (want = p ∨ quiet = false → u.thread? L.c L.slot t = some (waiting s L.c L.th (.phase false L.fA want))))

/-- STBEG gives the thread that stands first the board's next iteration when its window allows, and else a place at the board;
STRD.brd reads a board's NEXT, W and SPAN. STAGE.add raises the thread's counter to at most 254, STAGE.set sets it, STEND retires the
iteration and ends the binding, each once the thread has released and with the slot's time raised to the core's; WAITL goes on,
acquiring its predecessor's time, once that one has passed the stage, else waits; STRD.ctr reads a counter
(R198 to R207, R372 to R376). -/
def Obligations.StageBoards : Prop :=
  ((∀ (o : Op) (s : State) (t p : Nat) (b : Board) (L : Lane), s.Alone (.stbeg o) o stbegCheck t L →
     let d := L.g.sget L.fA
     let log := (d.extractLsb' 0 4).toNat
     let me := (L.c, L.slot, t)
     s.board? L.c L.g log = some (p, b) →
     let line := if me ∈ b.waiters then b.waiters else b.waiters ++ [me]
     let w := if b.w = 0 then (d.extractLsb' 8 7).toNat else b.w
     ∃ u, exec (.stbeg o) s = .next u ∧ SameBytes s u ∧
       (line.head? = some me → (b.next - b.oldest).toNat < w →
         u.thread? L.c L.slot t = some (after s { L.th.put (L.dstReg 1) b.next with bind := some (log, b.next) }) ∧
         (boardAt u L.c p).next = b.next + 1 ∧ (boardAt u L.c p).w = w ∧ (boardAt u L.c p).waiters = line.tail ∧
         (boardAt u L.c p).slot b.next = { iter := b.next, counter := 0, time := (s.core L.c).ct }) ∧
       (line.head? ≠ some me ∨ w ≤ (b.next - b.oldest).toNat →
         u.thread? L.c L.slot t = some (waiting s L.c L.th (.stbeg log)) ∧ boardAt u L.c p = { b with w := w, waiters := line })) ∧
   ∀ (o : Op) (s : State) (t p : Nat) (b : Board) (L : Lane), s.Alone (.strdBrd o) o (strdBrdCheck o) t L →
     s.board? L.c L.g (L.srcB (shapeOf (.strdBrd o)) 0 false).toNat = some (p, b) → b.w ≤ 64 → (b.next - b.oldest).toNat ≤ 64 →
     Becomes (.strdBrd o) s t (after s (L.putD true (b.next ++ (0#17 ++ BitVec.ofNat 7 b.w ++ BitVec.ofNat 8
       (b.next - b.oldest).toNat))))) ∧
  ∀ (o : Op) (s : State) (t p : Nat) (b : Board) (n : Word) (L : Lane), s.bound s.cur.core s.cur.slot t = some (p, b, n) →
    let ct := (s.core L.c).ct
    let arg := fun (i : Instr) => (L.srcB (shapeOf i) 0 false).toNat
    let slot := fun (c : Nat) => ({ iter := n, counter := c, time := maxD (b.slot n).time ct } : BSlot)
    (s.Alone (.stageAdd o) o (stageCheck (.stageAdd o) false) t L → Released s L.c → ∃ u, exec (.stageAdd o) s = .next u ∧
      u.thread? L.c L.slot t = some (after s L.th) ∧ SameBytes s u ∧
      boardAt u L.c p = { b with slots := tset b.slots (n.toNat % 64) (slot (min ((b.slot n).counter + arg (.stageAdd o)) 254)) }) ∧
    (s.Alone (.stageSet o) o (stageCheck (.stageSet o) true) t L → Released s L.c → ∃ u, exec (.stageSet o) s = .next u ∧
      u.thread? L.c L.slot t = some (after s L.th) ∧ SameBytes s u ∧
      boardAt u L.c p = { b with slots := tset b.slots (n.toNat % 64) (slot (arg (.stageSet o))) }) ∧
    (s.Alone (.stend o) o bindCheck t L → Released s L.c → ∃ u, exec (.stend o) s = .next u ∧
      u.thread? L.c L.slot t = some (after s { L.th with bind := none }) ∧ SameBytes s u ∧
      (boardAt u L.c p).slot n = slot 255 ∧ (boardAt u L.c p).retired n = true ∧ (boardAt u L.c p).tret = maxD b.tret (slot 255).time) ∧
    (s.Alone (.waitl o) o (waitlCheck o) t L → ∃ u, exec (.waitl o) s = .next u ∧ SameBytes s u ∧
      (let go := b.passed n (arg (.waitl o)) && (s.accsOf L.c L.slot t).isEmpty
       (go = true → u.thread? L.c L.slot t = some (after s L.th) ∧ (u.core L.c).ct = maxD ct (b.predTime n)) ∧
       (go = false → u.thread? L.c L.slot t = some (waiting s L.c L.th (.waitl (arg (.waitl o))))))) ∧
    (s.Alone (.strdCtr o) o (strdCtrCheck o) t L →
      Becomes (.strdCtr o) s t (after s (L.putD false (BitVec.ofNat 64 (b.counterOf (n - BitVec.ofNat 32 (arg (.strdCtr o))))))))

/-- A release of a core with dirty lines posts one write-back for each, of its dirty sectors, leaves them clean, and its thread waits
until they are acknowledged; with nothing to write back SYNCW goes on and EXIT ends its thread, whose held accesses go (R95, R190, R206,
R370). That an EXIT drops the accesses that its thread holds in the operand log is the model's reading (DEDUCED, log entry 46). -/
def Obligations.Releases : Prop :=
  (∀ (i : Instr) (o : Op) (check : Lane → Option Trap) (flush : Lane → Bool) (given : Lane → List Nat) (s : State) (t : Nat)
      (L : Lane), releaseRow i = some (o, check, flush, given) → s.Alone i o check t L → flush L = true →
    (∃ x ∈ (s.core L.c).l1, x.dirty ≠ 0) → (∀ x ∈ (s.core L.c).l1, x.excl = false ∧ x.poison = 0) →
    ∃ u, exec i s = .next u ∧ u.thread? L.c L.slot t = some (waiting s L.c L.th (.release (given L))) ∧ SameBytes s u ∧
      (u.core L.c).l1 = (s.core L.c).l1.map (fun x => { x with dirty := 0 }) ∧
      u.net.map (·.2) = s.net.map (·.2) ++
        ((s.core L.c).l1.filter (·.dirty != 0)).map fun x => .writeBack L.c x.pa x.key x.dirty x.bytes) ∧
  (∀ (o : Op) (s : State) (t : Nat) (L : Lane), s.Alone (.syncw o) o noCheck t L → (o.fn ≠ 0 → Released s L.c) →
    ∃ u, exec (.syncw o) s = .next u ∧ u.thread? L.c L.slot t = some (after s L.th) ∧ u.net = s.net ∧ SameBytes s u) ∧
  ∀ (o : Op) (s : State) (t : Nat) (L : Lane), s.Alone (.exit o) o noCheck t L → L.th.bind = none →
    ∃ u th, exec (.exit o) s = .next u ∧ u.thread? L.c L.slot t = some th ∧ th.live = false ∧ th.v = L.th.v ∧
      (u.core L.c).accs = (s.core L.c).accs.filter (fun a => !(a.slot == L.slot && a.tid == t && a.phase == .held)) ∧ SameBytes s u

namespace Sys2Proof.Claims

/-! ## Blocks, ways, regions, steps and work graphs -/

/-- A context whose region n is being moved. -/
def movingRegion (s : State) (ctx n : Nat) : State :=
  s.modHub fun h => match tfind h.contexts ctx with
    | some x => { h with contexts := tset h.contexts ctx { x with moving := some (n, s.seq) } }
    | none => h

/-- The bytes at an address are defined and stand where no core owns the line and no error waits to be found: a unit of the hub reads
them as they are. -/
def Stands (s : State) (pa : Nat) (bs : List Byte) : Prop :=
  s.peek 0 pa bs.length = some bs ∧ ∀ j, j < bs.length → s.owner? (pa + j) = none ∧
    ∃ cell, s.homeCell (pa + j) = some cell ∧ s.poisonOf cell = 0 ∧ ∀ k, k < 4 → tfind s.errors (cell / 64 + k) = none

/-- Node n's descriptor stands in memory, and the context has a node table. -/
def NodeIs (s : State) (ctx n : Nat) (d : Node) : Prop :=
  s.nodesOf ctx ≠ 0 ∧ ∃ bs : List Byte, bs.length = 64 ∧ Stands s (s.nodesOf ctx + 64 * n) bs ∧ d = nodeOf bs

/-- One record more leaves the bin of a node short of its count and its timer not run out. -/
def Short (s : State) (b : Bin) (d : Node) : Prop :=
  b.bin.length + 1 < d.coal ∧ s.hub.cycles < (if b.bin = [] then s.hub.cycles else b.since) + d.timer

/-- A bin with its ring empty that has room for one record more. -/
def Roomy (s : State) (b : Bin) (d : Node) : Prop :=
  b.tail = b.head ∧ b.bin.length < d.room ∧ (b.owned = true ∨ (s.hub.bins.filter (fun e => e.2.owned)).length < 256)

end Sys2Proof.Claims

/-- RBLK.acq and RBLK.try get k blocks for the home wave where they are free, their registers 0 and full; else .acq waits in the core's
order and .try clears its predicate; .rel gives k back; RBLK_GRANT ends the wait of the oldest request once its blocks are free
(R124, R317, R318). -/
def Obligations.RegisterBlocks : Prop :=
  (∀ (o : Op) (s : State) (t h : Nat) (L : Lane), t < 1024 → L.g.homes[homeWave t]? = some h →
    let w := homeWave t
    let free := (s.core s.cur.core).freeBlocks
    (s.Alone (.rblkAcq o) o (acqCheck (.rblkAcq o)) t L →
      let k := L.count (.rblkAcq o)
      ((s.core L.c).rblkQ = [] → k ≤ free → ∃ u g x, exec (.rblkAcq o) s = .next u ∧ u.group? L.c L.slot = some g ∧
        g.homes[w]? = some (h + k) ∧ g.threads[t]? = some x ∧ x.pc = s.cur.next ∧
        (∀ r, r < 256 → x.get r = (if 16 * h ≤ r ∧ r < 16 * h + 16 * k then 0 else L.th.get r)) ∧
        (∀ r, 16 * h ≤ r → r < 16 * h + 16 * k → r < 256 → x.isEmpty r = false)) ∧
      ((s.core L.c).rblkQ ≠ [] ∨ free < k → ∃ u, exec (.rblkAcq o) s = .next u ∧
        u.thread? L.c L.slot t = some (waiting s L.c L.th (.rblk k s.seq)) ∧
        (u.core L.c).rblkQ = (s.core L.c).rblkQ ++ [(L.slot, t)])) ∧
    (s.Alone (.rblkTry o) o noCheck t L →
      let k := L.count (.rblkTry o)
      let can := k ≤ 16 ∧ h + k ≤ 16 ∧ k ≤ free
      ∃ u g x, exec (.rblkTry o) s = .next u ∧ u.group? L.c L.slot = some g ∧ g.homes[w]? = some (if can then h + k else h) ∧
        g.threads[t]? = some x ∧ x.pc = s.cur.next ∧ (o.d ≠ 0 → o.d.toNat < 8 → x.pred o.d.toNat = decide can)) ∧
    (s.Alone (.rblkRel o) o (relCheck (.rblkRel o)) t L → ∃ u g, exec (.rblkRel o) s = .next u ∧ u.group? L.c L.slot = some g ∧
      g.homes[w]? = some (h - L.count (.rblkRel o)) ∧ g.threads[t]? = some (after s L.th))) ∧
  ∀ (s : State) (c slot t k id since h : Nat) (g : Group) (th : Thread) (rest : List (Nat × Nat)),
    (s.core c).rblkQ = (slot, t) :: rest → s.group? c slot = some g → g.stopped = none → g.saving = false →
    g.threads[t]? = some th → th.wait = some ⟨.rblk k id, since, false⟩ → g.homes[homeWave t]? = some h → h + k ≤ 16 →
    ((s.core c).freeBlocks < k → exec (.rblkGrant c) s = .next s) ∧
    (k ≤ (s.core c).freeBlocks → ∃ u g' x, exec (.rblkGrant c) s = .next u ∧ u.group? c slot = some g' ∧
      g'.homes[homeWave t]? = some (h + k) ∧ g'.threads[t]? = some x ∧ x.wait = some ⟨.rblk k id, since, true⟩ ∧
      (slot, t) ∉ (u.core c).rblkQ)

/-- WAYMASK answers 2 for a mask that is not legal and 0 for the mask that stands; ways that enter the scratchpad are flushed first,
and the thread waits; the last way's flush ends with the mask at its target and the way's bytes 0 (R77, R78, R295).
That the instruction waits for its entering ways to be flushed is the model's reading (DEDUCED, log entry 75). -/
def Obligations.ScratchpadWays : Prop :=
  (∀ (o : Op) (s : State) (t : Nat) (L : Lane), s.Alone (.waymask o) o waymaskCheck t L →
    let m : BitVec 16 := (L.srcB (shapeOf (.waymask o)) 0 false).extractLsb' 0 16
    let k := s.core L.c
    (legalMask m = false → ∃ u, exec (.waymask o) s = .next u ∧ u.thread? L.c L.slot t = some (after s (L.th.put (L.dstReg 1) 2)) ∧
      (u.core L.c).mask = k.mask ∧ SameBytes s u) ∧
    (legalMask m = true → k.mask = m → ∃ u, exec (.waymask o) s = .next u ∧
      u.thread? L.c L.slot t = some (after s (L.th.put (L.dstReg 1) 0)) ∧ (u.core L.c).mask = m ∧ (u.core L.c).target = m ∧ SameBytes s u) ∧
    (legalMask m = true → k.target = k.mask → k.flushing = [] → (∃ w, w < 16 ∧ m.getLsbD w = true ∧ k.mask.getLsbD w = false) →
      ∃ u, exec (.waymask o) s = .next u ∧ u.thread? L.c L.slot t = some (waiting s L.c L.th (.waymask m)) ∧
        (u.core L.c).mask = k.mask ∧ (u.core L.c).target = m ∧
        (∀ w, w ∈ (u.core L.c).flushing ↔ w < 16 ∧ m.getLsbD w = true ∧ k.mask.getLsbD w = false) ∧ SameBytes s u)) ∧
  ∀ (s : State) (c w : Nat), w < 16 → (s.core c).flushing = [w] → (s.core c).mask.getLsbD w = false →
    (s.core c).target = (s.core c).mask ||| (1 <<< w) → (∀ x ∈ (s.core c).l1, x.way = w → x.excl = false ∧ x.dirty = 0) →
    s.writeBacksOpen c = false →
    ∃ u, exec (.wayFlushComplete c w) s = .next u ∧ (u.core c).mask = (s.core c).target ∧ (u.core c).flushing = [] ∧
      (u.core c).l1 = (s.core c).l1.filter (·.way != w) ∧
      (∀ off, wayOf off = w → (u.core c).spadByte off = some 0) ∧
      (∀ off, wayOf off ≠ w → (u.core c).spadByte off = (s.core c).spadByte off) ∧ SameBytes s u

/-- RSTATE waits while accesses to its region are under way; then the L1 of every core that runs, or ran, groups of the context's
launches is empty, the region has the state that field B, or with IMM = 1 IMM20, names, in PRV the core as its owner, and the thread
goes on (R98, R259, R260, R294). That the cores that ran such groups are emptied too, and that the change is one step, is the model's
reading (DEDUCED, log entry 39). -/
def Obligations.RegionStates : Prop :=
  ∀ (o : Op) (s : State) (t : Nat) (x : Ctx) (L : Lane), s.Alone (.rstate o) o (rstateCheck o) t L →
    tfind s.hub.contexts L.g.ctx = some x → x.regions.length = 16 → s.hub.slabWait = [] →
    let n := o.a.toNat % 16
    let named : Nat := (if o.form = .w64 ∧ o.imm = true then (Lane.imm20 o).toNat else o.b.toNat) % 4
    let begun := movingRegion s L.g.ctx n
    (begun.rstateBusy L.g.ctx = true → ∃ u, exec (.rstate o) s = .next u ∧
      u.thread? L.c L.slot t = some (waiting s L.c L.th .region) ∧
      tfind u.hub.contexts L.g.ctx = some { x with moving := some (n, s.seq) } ∧ SameBytes s u) ∧
    (begun.rstateBusy L.g.ctx = false → s.errors = [] → ∃ u y, exec (.rstate o) s = .next u ∧ u.thread? L.c L.slot t = some (after s L.th) ∧
      tfind u.hub.contexts L.g.ctx = some y ∧ y.moving = none ∧ (regionOf (y.regions.getD n 0)).state = named ∧
      (named = 2 → (regionOf (y.regions.getD n 0)).owner = L.c % 512) ∧
      (∀ k, k ≠ n → y.regions.getD k 0 = x.regions.getD k 0) ∧
      ∀ k ∈ s.coresFor L.g.ctx, (u.core k).l1 = [])

/-- CVSTEP moves its thread's cursor on by its count; YIELD and a SLEEP of 0 pass their wave over, another SLEEP ends once its front
cycles have passed, and the watchdog traps a thread that has waited its limit; SHED_TIMEOUT sheds the member that holds its convoy
back, and CONVOY_MIRROR_UPDATE brings a cluster's mirror up to the table (R59, R62, R63, R187, R231, R306, R377).
What the watchdog leaves of a signature or an arrival is the model's reading (DEDUCED, log entry 45). -/
def Obligations.StepsAndWaits : Prop :=
  (∀ (o : Op) (s : State) (t : Nat) (L : Lane), s.Alone (.cvstep o) o (cvstepCheck (.cvstep o)) t L →
    ∃ u, exec (.cvstep o) s = .next u ∧ SameBytes s u ∧ u.thread? L.c L.slot t = some (after s { L.th with
      cursor := if L.g.cv.id = 0 then L.th.cursor else L.th.cursor + BitVec.ofNat 32 (L.srcB (shapeOf (.cvstep o)) 0 false).toNat })) ∧
  (∀ (o : Op) (s : State) (t : Nat) (L : Lane), s.Alone (.yield o) o noCheck t L → ∃ u g, exec (.yield o) s = .next u ∧
    u.group? L.c L.slot = some g ∧ g.threads[t]? = some (after s L.th) ∧ tget [] g.passed s.cur.quad = [t] ∧ SameBytes s u) ∧
  (∀ (o : Op) (s : State) (t : Nat) (L : Lane), s.Alone (.sleep o) o noCheck t L →
    let n := (lowWord (L.srcB (shapeOf (.sleep o)) 1 false)).toNat
    ∃ u g, exec (.sleep o) s = .next u ∧ u.group? L.c L.slot = some g ∧ SameBytes s u ∧
      (n = 0 → g.threads[t]? = some (after s L.th) ∧ tget [] g.passed s.cur.quad = [t]) ∧
      (n ≠ 0 → g.threads[t]? = some { after s L.th with wait := some ⟨.sleep (s.now L.c + n), s.now L.c, false⟩ })) ∧
  (∀ (s : State) (c g t wake since : Nat) (e : Bool) (th : Thread), s.thread? c g t = some th →
    th.wait = some ⟨.sleep wake, since, e⟩ → th.due = [] →
    (wake ≤ s.now c → ∃ u, exec (.sleepExpiry c g t) s = .next u ∧ u.thread? c g t = some { th with wait := none } ∧ s.SameMachine u) ∧
    (s.now c < wake → exec (.sleepExpiry c g t) s = .next s)) ∧
  (∀ (s : State) (c slot t : Nat) (g : Group) (th : Thread) (w : Wait), s.group? c slot = some g → g.threads[t]? = some th →
    th.wait = some w → w.kind.watched = true → s.inWait c slot t w = true → g.wdog ≠ 0 →
    g.stopped = none → w.since + g.wdog.toNat ≤ s.now c →
    Enterable s c g th →
    ∃ u x, exec (.watchdogExpiry c slot t) s = .next u ∧ u.thread? c slot t = some x ∧
      Handles { th with wait := none } x g.tvec th.pc 0x12 0 0 ∧ SameBytes s u) ∧
  (∀ (s : State) (ctx cv c slot : Nat) (g : Group), s.overdue ctx cv = some (c, slot) → s.group? c slot = some g → g.ctx = ctx →
    g.cv.id.toNat = cv → cv ≠ 0 → ∃ u g', exec (.shedTimeout ctx cv) s = .next u ∧ u.group? c slot = some g' ∧
      g'.cv.shed = true ∧ g'.cv.cause = 1 ∧ (c, slot) ∉ (u.convoy (cvKey ctx cv)).present ∧ g'.threads = g.threads) ∧
  ∀ (s : State) (k ctx cv : Nat), ∃ u, exec (.convoyMirrorUpdate k ctx cv) s = .next u ∧ (∀ e ∈ u.net, e.2 ≠ .mirror k ctx cv) ∧
    let x := s.convoy (cvKey ctx cv)
    tfind (u.cluster k).mirrors (cvKey ctx cv) =
      if k ∈ x.clusters then some { low := s.lowOf x.present, present := x.present, total := x.members.length } else none

/-- WQE puts its record into the bin of a node with room and sets its predicate, or finds the ring full and clears it; WQT of this
package sends its index to the node's die; a pull enqueues the records that are new; and a bin that is due launches one group with
up to COAL of its oldest records (R222 to R225, R302, R303).
That an index for another package leaves no trace on this one is the model's choice (DESIGN CHOICE, log entry 42); that this package is
sender 0 and that a receiving die numbers its senders is its reading (DEDUCED, log entry 43). -/
def Obligations.WorkGraphs : Prop :=
  (∀ (o : Op) (s : State) (t : Nat) (d : Node) (L : Lane), s.Alone (.wqe o) o wqeCheck t L → Released s L.c →
    s.hub.slabWait = [] →
    let n := (lowWord (L.srcB (shapeOf (.wqe o)) 0 false)).toNat
    let b := s.bin (binKey L.g.ctx n)
    NodeIs s L.g.ctx n d → s.firesOff L.g.ctx = false →
    (Roomy s b d → Short s b d → ∃ u bs, exec (.wqe o) s = .next u ∧ bs.length = d.rsize ∧
      (u.bin (binKey L.g.ctx n)).bin = b.bin ++ [bs] ∧ u.thread? L.c L.slot t = some (after s (L.th.setPred L.fD true)) ∧
      ∀ k off, spadAt L.c L.saNoOff = some (k, off) → ReadsAs (s.core k) off bs) ∧
    (2 ^ d.rlog ≤ (b.tail - b.head).toNat → b.tail ≠ b.head → ∃ u, exec (.wqe o) s = .next u ∧
      u.bin (binKey L.g.ctx n) = b ∧ u.thread? L.c L.slot t = some (after s (L.th.setPred L.fD false)))) ∧
  (∀ (o : Op) (s : State) (t : Nat) (L : Lane), s.Alone (.wqt o) o wqtCheck t L → Released s L.c →
    s.hub.slabWait = [] →
    let peer := (((L.words L.fD 1 0).getD 0 0).extractLsb' 16 16).toNat
    let s1 := if peer = 0 then s else (s.findPeer L.g.ctx peer).2
    ∃ u, exec (.wqt o) s = .next u ∧ u.thread? L.c L.slot t = some (after s L.th) ∧ SameBytes s1 u ∧
      u.net = if peer = 0 ∨ peer = s.hub.fabid.toNat then s1.net ++ [(s1.seq, .wqt L.g.ctx (L.source false L.fA 0).toNat 0
        (((L.words L.fD 1 0).getD 0 0).extractLsb' 0 2).toNat (lowWord (L.srcB (shapeOf (.wqt o)) 0 false)))] else s1.net) ∧
  (∀ (s : State) (m ctx node sender target : Nat) (index : Word), s.msg? m = some (.wqt ctx node sender target index) →
    s.hub.slabWait = [] →
    let s1 := s.drop m
    let key := target * 65536 + sender
    let b := s1.bin (binKey ctx node)
    let last := tget 0 b.pulled key
    (sless last index = false → exec (.wqtPull m) s = .next s1) ∧
    ∀ (d : Node) (bytes : List Byte), index = last + 1 → NodeIs s1 ctx node d → s1.firesOff ctx = false → Roomy s1 b d → Short s1 b d →
      s1.virtLoad ctx (d.slot last) d.rsize = .ok (bytes, s1) → ∃ u, exec (.wqtPull m) s = .next u ∧
        (u.bin (binKey ctx node)).bin = b.bin ++ [bytes] ∧ tget 0 (u.bin (binKey ctx node)).pulled key = index) ∧
  ∀ (s : State) (ctx node : Nat) (d : Node), NodeIs s ctx node d → s.firesOff ctx = false → s.hub.slabWait = [] →
    let b := s.bin (binKey ctx node)
    b.tail = b.head →
    (s.binDue ctx node d = false → exec (.binTimerExpiry ctx node) s = .next s) ∧
    ∀ bs : List Byte, s.binDue ctx node d = true → s.virtLoad ctx d.templ 128 = .ok (bs, s) →
      (recOf bs).firable d s.hub.levyFloor s.mostKib = true →
      ∃ u l, exec (.binTimerExpiry ctx node) s = .next u ∧ tfind u.hub.launches s.seq = some l ∧ l.node = some node ∧ l.ctx = ctx ∧
        l.groups = 1 ∧ l.record = recOf bs ∧ l.records = b.bin.take d.coal ∧ (u.bin (binKey ctx node)).bin = b.bin.drop d.coal

namespace Sys2Proof.Claims

/-! ## Jobs and tiles -/

/-- The register forms of the job instructions, with the OP that each gives its card (R296). -/
def cardRow (i : Instr) : Option (Op × Nat) :=
  match i with
  | .cpy o => some (o, 0)
  | .cpyFill o => some (o, 3)
  | .gth o => some (o, 1)
  | .coll o => some (o, 2)
  | _ => none

/-- The card of an offer: its registers', or the 64 defined bytes at its scratchpad address (R103, R296). -/
def cardOf (s : State) (ctx : Nat) (f : Offer) (card : Card) : Prop :=
  match f.addr with
  | none => card = f.card
  | some a => s.addrTrap f.core ctx a 64 64 = none ∧ ∃ (k off : Nat) (bs : List Byte), spadAt f.core a = some (k, off) ∧ bs.length = 64 ∧
      (∀ j, j < 64 → (s.core k).spadByte (off + j) = bs[j]?) ∧
      card = { dws := (List.range 8).map fun n => BitVec.ofNat 64 (leNat ((bs.drop (8 * n)).take 8)) }

/-! ## Privileged instructions -/

/-- The privileged instructions (R381). -/
def privileged (i : Instr) : Bool :=
  match i with
  | .ctxsv _ | .ctxsvSt _ | .ctxld _ | .tlbinvPage _ | .tlbinvRegion _ | .tlbinvCtx _ | .tlbinvAll _ | .tlbinvKey _
  | .pwrrd _ | .pwrwrPcap _ | .pwrwrPfloor _ | .clkrat _ | .idle _ | .halt _ | .levyqVault _ | .levyqAcct _ | .levyqBase _
  | .slabModeChange _ | .keyDraw _ | .keyLoadWrapped _ | .keyClear _ => true
  | _ => false

/-- TLBINV and the cached translations that it covers (R48, R384). -/
def invRow (i : Instr) : Option (Op × (State → Lane → TlbEnt → Bool)) :=
  let tag := fun (L : Lane) => (L.g.sget L.fA).toNat % 4096
  let va := fun (L : Lane) => L.srcBd i
  match i with
  | .tlbinvPage o => some (o, fun s L e => e.ctx == tag L && e.region == (va L).toNat / 2 ^ 53 % 16 &&
      e.page == (va L).toNat % 2 ^ 53 / 2 ^ pageBits (s.regionFor (tag L) (va L)))
  | .tlbinvRegion o => some (o, fun _ L e => e.ctx == tag L && e.region == (va L).toNat % 16)
  | .tlbinvCtx o => some (o, fun _ L e => e.ctx == tag L)
  | .tlbinvAll o => some (o, fun _ _ _ => true)
  | .tlbinvKey o => some (o, fun _ L e => e.key == (va L).toNat % 128)
  | _ => none

/-- The entries of a context's region file that TLBINV takes anew (R384). -/
def reloads (i : Instr) (L : Lane) (ctx n : Nat) : Bool :=
  let mine := ctx == (L.g.sget L.fA).toNat % 4096
  match i with
  | .tlbinvRegion _ => mine && n == (L.srcBd i).toNat % 16
  | .tlbinvCtx _ => mine
  | .tlbinvAll _ => true
  | _ => false

/-- A line of a core that alone under its key has something to write, all of it good, to memory that is there and has no owner. -/
structure AloneDirty (s : State) (c : Nat) (x : L1Line) : Prop where
  here  : x ∈ (s.core c).l1
  alone : ∀ k, ∀ y ∈ (s.core k).l1, y.key = x.key → y.dirty ≠ 0 → k = c ∧ y = x
  whole : x.bytes.length = 256 ∧ x.pa % 256 = 0 ∧ x.poison = 0 ∧ x.excl = false
  home  : s.owner? x.pa = none ∧ s.keyLoaded x.key = true ∧ ∃ cell, s.homeCell x.pa = some cell ∧ s.lost cell = false

/-- A privileged instruction of a thread alone in a supervisor context. -/
structure Rules (s : State) (i : Instr) (o : Op) (check : Lane → Option Trap) (t : Nat) (L : Lane) : Prop
    extends s.Alone i o check t L where
  marked : s.supervisor L.g.ctx = true

/-- It goes on with words in its destination. -/
def answered (s : State) (L : Lane) (ws : List Word) : Thread := after s (L.th.putAll (L.dstReg ws.length) ws)

/-- exec answers a next state u in which thread t, as lane L, has gone on with words in its destination, and P u. -/
def Answers (i : Instr) (s : State) (t : Nat) (L : Lane) (ws : List Word) (P : State → Prop) : Prop :=
  ∃ u, exec i s = .next u ∧ u.thread? L.c L.slot t = some (answered s L ws) ∧ P u

/-- The two words of a number. -/
def both (d : Dword) : List Word := [d.extractLsb' 0 32, d.extractLsb' 32 32]

end Sys2Proof.Claims

/-- A job instruction offers its thread's job and the thread waits; JOB_ACCEPT gives the card a table entry with the core's time and
an edge to each earlier job of the context whose footprint meets its own, and the thread its ticket; JWAIT of a job that has ended
acquires its time, and waits while it waits in the table or runs. DQ asks for a tile, DQ_SERVE answers with the next of the launch's
tile space, and the answer is written and counted where its slot still lies in an allocation (R106 to R109, R116, R226, R227, R296 to R298,
R301). What JWAIT acquires for a failed ticket is the model's reading (DEDUCED, log entry 24), and so is an answer whose slot has gone
(DEDUCED, log entry 75); a step may give DQ's destination its answer first (DESIGN CHOICE, log entry 81). -/
def Obligations.Jobs : Prop :=
  (∀ (i : Instr) (o : Op) (n : Nat) (s : State) (t : Nat) (L : Lane), cardRow i = some (o, n) → s.Alone i o noCheck t L →
    ∃ u f, exec i s = .next u ∧ (u.cluster (clusterOf L.c)).offers = (s.cluster (clusterOf L.c)).offers ++ [f] ∧
      f.core = L.c ∧ f.slot = L.slot ∧ f.tid = t ∧ f.addr = none ∧ f.dest = L.dstReg 1 ∧ f.next = s.cur.next ∧ f.accepted = false ∧
      f.card.op = n ∧ (o.m.getLsbD 0 = true → ∀ k, 1 ≤ k → k < 8 → f.card.dw k = L.g.sget (L.fA + k)) ∧
      u.thread? L.c L.slot t = some (waiting s L.c L.th .job) ∧ SameBytes s u) ∧
  (∀ (o : Op) (s : State) (t : Nat) (L : Lane), s.Alone (.job o) o noCheck t L →
    ∃ u f, exec (.job o) s = .next u ∧ (u.cluster (clusterOf L.c)).offers = (s.cluster (clusterOf L.c)).offers ++ [f] ∧
      f.core = L.c ∧ f.slot = L.slot ∧ f.tid = t ∧ f.addr = some L.sa ∧ f.dest = L.dstReg 1 ∧ f.next = s.cur.next ∧
      u.thread? L.c L.slot t = some (waiting s L.c L.th .job) ∧ SameBytes s u) ∧
  (∀ (s : State) (k : Nat) (f : Offer) (g : Group) (th : Thread) (card : Card), s.nextOffer k = some f → (s.cluster k).offers = [f] →
    s.group? f.core f.slot = some g → g.threads[f.tid]? = some th → th.due = [] → cardOf s g.ctx f card →
    s.cardTrap f.core g.ctx card = none →
    let x := s.cluster k
    ∃ u j, exec (.jobAccept k) s = .next u ∧ (u.cluster k).jobs = x.jobs ++ [j] ∧ (u.cluster k).ticket = x.ticket + 1 ∧
      j.ticket = x.ticket ∧ j.card = card ∧ j.jt = (s.core f.core).ct ∧ j.done = 0 ∧ j.started = false ∧ j.ctx = g.ctx ∧
      (∀ e, e ∈ j.edges ↔ ∃ y ∈ x.jobs, y.ticket = e ∧ y.ctx = g.ctx ∧ ∃ a ∈ y.feet, ∃ b ∈ card.feet f.core, a.meets b = true) ∧
      u.thread? f.core f.slot f.tid = some { th.put f.dest (x.ticket.setWidth 32) with pc := f.next, wait := none }) ∧
  (∀ (o : Op) (s : State) (t : Nat) (L : Lane), s.Alone (.jwait o) o noCheck t L →
    let time := s.ticketTime (clusterOf L.c) L.g.ctx ((L.source false L.fA 0).extractLsb' 0 16)
    exec (.jwait o) s = .next ((s.modCore L.c fun k => { k with ct := maxD k.ct time }).moveTo [t] s.cur.next)) ∧
  (∀ (o : Op) (s : State) (t : Nat) (L : Lane), s.cur.threads = [t] → s.lane? o [t] t = some L → L.th.wait = none → L.active = true →
    L.commonTrap (L.uses (.jwait o)) = none →
    (let status := s.ticketStatus (clusterOf L.c) L.g.ctx ((L.source false L.fA 0).extractLsb' 0 16)
     status = 1 ∨ status = 2) → exec (.jwait o) s = .next s) ∧
  (∀ (o : Op) (s : State) (t : Nat) (L : Lane), s.Alone (.dq o) o (fun L => spadTrap L L.sa 8 16) t L →
    exec (.dq o) s = .next (((s.modThread L.c L.slot t fun th => th.drain (L.dstReg 1)).post
      (.dq L.c L.slot t (L.dstReg 1) L.g.launch (s.core L.c).ct L.sa)).moveTo [t] s.cur.next)) ∧
  (∀ (s : State) (m c g t dest launch : Nat) (ct : Dword) (addr : Word) (y : Launch), s.msg? m = some (.dq c g t dest launch ct addr) →
    (∀ e ∈ s.net, e.1 < m → ∀ d l w a, e.2 ≠ .dq c g t d l w a) → tfind s.hub.launches launch = some y →
    let n := y.tiles
    ∃ u, exec (.dqServe m) s = .next u ∧ tfind u.hub.launches launch = some { y with tiles := n + 1 } ∧
      u.net = tdel s.net m ++ [(s.seq, .dqAnswer c g t (some dest) ct addr (if n < y.record.trows * y.record.tcols then
        BitVec.ofNat 64 (n % 2 ^ 24 * 2 ^ 32 + n % y.record.tcols * 2 ^ 16 + n / y.record.tcols) else 0x01FFFFFFFFFFFFFF))]) ∧
  ∀ (s : State) (m c g t dest k off : Nat) (ct a w : Dword) (addr : Word) (x : Group) (th : Thread),
    s.msg? m = some (.dqAnswer c g t (some dest) ct addr a) → s.group? c g = some x → x.threads[t]? = some th →
    spadAt c addr = some (k, off) → spadAt c (addr + 8) = some (k, off + 8) →
    (∀ j, j < 8 → (s.core k).spadByte (off + 8 + j) = some (w.extractLsb' (8 * j) 8)) →
    ∃ u, exec (.dqAnswerWrite m) s = .next u ∧ u.thread? c g t = some (th.fillAll dest [a.extractLsb' 0 32]) ∧
      (s.spadOwned c x.ctx addr 16 = false → ∀ k, (u.core k).spad = (s.core k).spad) ∧
      (s.spadOwned c x.ctx addr 16 = true →
        (∀ j, j < 8 → (u.core k).spadByte (off + j) = some (a.extractLsb' (8 * j) 8)) ∧
        (∀ j, j < 8 → (u.core k).spadByte (off + 8 + j) = some ((countInto w 8).extractLsb' (8 * j) 8)) ∧
        ct.toNat ≤ ((u.core k).timeOf (off + 8)).toNat)

/-- Outside a supervisor context every thread of a privileged instruction's wave traps with 0x08, and nothing else changes
(R254, R381, R428).
That the inactive threads of the wave trap too is the model's reading (DEDUCED, log entry 70). -/
def Obligations.PrivilegeTraps : Prop :=
  ∀ (i : Instr) (s : State) (t : Nat) (g : Group) (th : Thread), privileged i = true → s.cur.threads = [t] →
    s.group? s.cur.core s.cur.slot = some g → g.threads[t]? = some th → th.live = true → th.wait = none →
    s.supervisor g.ctx = false → Enterable s s.cur.core g th →
    ∃ u x, exec i s = .next u ∧ u.thread? s.cur.core s.cur.slot t = some x ∧ Handles th x g.tvec th.pc 0x08 0 0 ∧ s.SameMachine u

/-- TLBINV drops from every TLB of every core, cluster and die the translations that it covers, and keeps every other; .region, .ctx and
.all take the region entries that they cover anew from the file in memory, and no other; .key leaves no L1 a line of the key, and what
such a line had to write stands in memory (R36, R48, R384). -/
def Obligations.TranslationsInvalidated : Prop :=
  ∀ (i : Instr) (o : Op) (covers : State → Lane → TlbEnt → Bool) (s : State) (t : Nat) (L : Lane), invRow i = some (o, covers) →
    Rules s i o noCheck t L → s.errors = [] → s.hub.slabWait = [] → Answers i s t L [] fun u =>
      (∀ c, (u.core c).tlb = (s.core c).tlb.filter (fun e => !covers s L e)) ∧
      (∀ k, (u.cluster k).tlb = (s.cluster k).tlb.filter (fun e => !covers s L e)) ∧
      (∀ d, (u.die d).tlb = (s.die d).tlb.filter (fun e => !covers s L e)) ∧
      (∀ ctx x bs, tfind s.hub.contexts ctx = some x → x.regions.length = 16 → bs.length = 128 → Stands s x.raf bs →
        ∃ y, tfind u.hub.contexts ctx = some y ∧ ∀ n, n < 16 → y.regions.getD n 0 =
          if reloads i L ctx n then BitVec.ofNat 64 (leNat ((bs.drop (8 * n)).take 8)) else x.regions.getD n 0) ∧
      (i = .tlbinvKey o → let key := (L.srcBd i).toNat % 128
        (∀ c, ∀ y ∈ (u.core c).l1, y.key ≠ key ∧ y ∈ (s.core c).l1) ∧
        ∀ c x, x.key = key → AloneDirty s c x → ∀ j, j < 256 → x.dirty.getLsbD (j / 64) = true →
          u.byteAt key (x.pa + j) = x.bytes[j]?)

/-- PWRRD reads a power register, PWRWR sets PCAP or PFLOOR within its limits, answering 1 for a cap below the idle floor and 2
for a value out of range, LEVYQ reads a vault's band and temperature, a context's account or a die's base temperature, IDLE gives
the events of its mask that have come or waits for them, CLKRAT switches a cluster's clock once it is quiet, and HALT ends a
context's groups and launches (R385 to R389).
That PWRWR compares its whole operand and that a register reads back as last written are the model's readings (DEDUCED, log entry 58),
and so is what HALT overrides and drops (DEDUCED, log entry 55). -/
def Obligations.SupervisorResults : Prop :=
  (∀ (o : Op) (s : State) (t : Nat) (L : Lane), Rules s (.pwrrd o) o (powerCheck o) t L →
    Answers (.pwrrd o) s t L [BitVec.ofNat 32 ((s.powerReg o.a.toNat).getD 0), 0] fun u => u.hub = s.hub) ∧
  (∀ (o : Op) (s : State) (t : Nat) (L : Lane), Rules s (.pwrwrPcap o) o (powerCheck o) t L →
    let v := (L.word (.pwrwrPcap o)).toNat
    let ok := o.a = 0 ∧ 1200 ≤ v ∧ v ≤ 3600 ∧ s.hub.floorSum ≤ v
    (ok → Answers (.pwrwrPcap o) s t L [if v < s.hub.idle then 1 else 0] fun u => u.powerReg 0 = some v) ∧
    (¬ ok → Answers (.pwrwrPcap o) s t L [2] fun u => u.hub = s.hub)) ∧
  (∀ (o : Op) (s : State) (t : Nat) (L : Lane), Rules s (.pwrwrPfloor o) o (powerCheck o) t L → 8 ≤ o.a.toNat → o.a.toNat ≤ 15 →
    let k := o.a.toNat - 8
    let v := (L.word (.pwrwrPfloor o)).toNat
    let ok := s.hub.floorSum - s.hub.pfloorReg k + v ≤ s.hub.pcapReg
    (ok → Answers (.pwrwrPfloor o) s t L [0] fun u => u.powerReg o.a.toNat = some v) ∧
    (¬ ok → Answers (.pwrwrPfloor o) s t L [2] fun u => u.hub = s.hub)) ∧
  (∀ (o : Op) (s : State) (t : Nat) (L : Lane), Rules s (.clkrat o) o noCheck t L →
    let b := (L.word (.clkrat o)).toNat
    (b / 256 % 4 = 3 → Answers (.clkrat o) s t L [2] fun u => s.SameMachine u) ∧
    (b / 256 % 4 ≠ 3 → ∃ u, exec (.clkrat o) s = .next u ∧ u.thread? L.c L.slot t = some (waiting s L.c L.th (.clock (b % 32))) ∧
      (u.cluster (b % 32)).switch = some (BitVec.ofNat 2 (b / 256)))) ∧
  (∀ (s : State) (k : Nat) (r : BitVec 2), (s.cluster k).switch = some r →
    (s.quiet k = true → ∃ u, exec (.clockRatioSwitch k) s = .next u ∧ (u.cluster k).ratio = r ∧ (u.cluster k).switch = none) ∧
    (s.quiet k = false → exec (.clockRatioSwitch k) s = .next s)) ∧
  (∀ (o : Op) (s : State) (t : Nat) (L : Lane), Rules s (.idle o) o noCheck t L →
    let mask := (L.word (.idle o)).extractLsb' 0 5
    let all := tget 0 s.hub.events L.g.ctx
    (mask = 0 ∨ all &&& mask ≠ 0 → Answers (.idle o) s t L [(all &&& mask).setWidth 32] fun u =>
      tget 0 u.hub.events L.g.ctx = all &&& ~~~mask ∧ u.hub.idlers = s.hub.idlers) ∧
    (mask ≠ 0 → all &&& mask = 0 → ∃ u w, exec (.idle o) s = .next u ∧
      u.thread? L.c L.slot t = some (waiting s L.c L.th .idle) ∧ u.hub.idlers = s.hub.idlers ++ [w] ∧ w.mask = mask ∧
      w.dests = [(t, L.dstReg 1)] ∧ w.next = s.cur.next ∧ u.hub.events = s.hub.events)) ∧
  (∀ (o : Op) (s : State) (t : Nat) (L : Lane), Rules s (.halt o) o noCheck t L →
    let ctx := (L.g.sget L.fA).toNat % 4096
    (ctx = L.g.ctx ∨ tfind s.hub.contexts ctx = none → Answers (.halt o) s t L [2] fun u => u.hub = s.hub) ∧
    (ctx ≠ L.g.ctx → (tfind s.hub.contexts ctx).isSome = true → ∃ u, exec (.halt o) s = .next u ∧
      u.thread? L.c L.slot t =
        some (if s.groupsOf ctx = [] then answered s L [0] else waiting s L.c L.th (.halt ctx)) ∧
      (∀ id l, tfind s.hub.launches id = some l → l.ctx = ctx →
        tfind u.hub.launches id = some { l with groups := l.placed, stop := some 0x8004 }) ∧
      (∀ e ∈ s.groupsOf ctx, ∀ g, u.group? e.1 e.2 = some g → g.stopped.isSome = true))) ∧
  (∀ (o : Op) (s : State) (t : Nat) (L : Lane), Rules s (.levyqVault o) o noCheck t L →
    let v := (L.word (.levyqVault o)).toNat % 256
    (s.die (v / 64)).powered = true → (s.vault v).band < 256 →
    Answers (.levyqVault o) s t L [BitVec.ofInt 16 (s.vault v).temp ++ (BitVec.ofNat 8 (s.vault v).band ++
      (if (s.core (2 * v)).hot then 1#8 else 0#8)), 0] fun u => s.SameMachine u) ∧
  (∀ (o : Op) (s : State) (t : Nat) (L : Lane) (x : Ctx), Rules s (.levyqAcct o) o noCheck t L →
    tfind s.hub.contexts ((L.word (.levyqAcct o)).toNat % 4096) = some x →
    Answers (.levyqAcct o) s t L (both (BitVec.ofNat 64 x.account)) fun u => s.SameMachine u) ∧
  ∀ (o : Op) (s : State) (t : Nat) (L : Lane), Rules s (.levyqBase o) o noCheck t L →
    Answers (.levyqBase o) s t L [BitVec.ofInt 16 (s.die ((L.word (.levyqBase o)).toNat % 4)).tb ++
      (0#9 ++ s.hub.floor.extractLsb' 0 7), 0] fun u => s.SameMachine u

/-- MBOX: another command than its own answers 1 and recovery 4; a key is drawn, loaded or cleared in its slot, slot 0 refused,
and what was written under the old key is undefined; a slab changes its mode once no request to it is under way
(R14, R15, R30, R32, R390, R441).
The answers to a misaligned or unreadable key are the model's reading (DEDUCED, log entry 57). -/
def Obligations.SecurityRequests : Prop :=
  (∀ (i : Instr) (o : Op) (cmd : Nat) (s : State) (t : Nat) (L : Lane),
    (i, cmd) ∈ [(.slabModeChange o, 1), (.keyDraw o, 2), (.keyLoadWrapped o, 3), (.keyClear o, 4)] → Rules s i o noCheck t L →
    (s.hub.recovery = true → Answers i s t L [4] fun u => u.hub = s.hub) ∧
    (s.hub.recovery = false → (L.g.sget L.fA).toNat % 256 ≠ cmd → Answers i s t L [1] fun u => u.hub = s.hub)) ∧
  (∀ (o : Op) (s : State) (t : Nat) (L : Lane), s.hub.recovery = false →
    let cmd := (L.g.sget L.fA).toNat % 256
    let slot := (L.g.sget (L.fA + 1)).toNat % 128
    let arg2 := (L.g.sget (L.fA + 2)).toNat
    (Rules s (.keyDraw o) o noCheck t L → cmd = 2 →
      (slot = 0 → Answers (.keyDraw o) s t L [2] fun u => u.hub = s.hub) ∧
      (slot ≠ 0 → Answers (.keyDraw o) s t L [0] fun u => u.keyLoaded slot = true ∧
        ((∀ n x, tfind s.memory.seals n = some x → x.gen < s.hub.keyGen) → ∀ pa, u.byteAt slot pa = none) ∧
        ∀ key pa, key ≠ slot → u.byteAt key pa = s.byteAt key pa)) ∧
    (Rules s (.keyLoadWrapped o) o noCheck t L → cmd = 3 →
      (slot = 0 ∨ arg2 % 16 ≠ 0 → Answers (.keyLoadWrapped o) s t L [2] fun u => u.hub = s.hub) ∧
      ∀ bs : List Byte, slot ≠ 0 → arg2 % 16 = 0 → bs.length = 80 → Stands s arg2 bs →
        let good := (bs.getD 0 0).toNat % 128 = slot ∧ bs.getD 1 0 = 1 ∧ Config.unwraps bs = true
        (good → Answers (.keyLoadWrapped o) s t L [0] fun u => tfind u.hub.keys slot = some s.hub.keyGen) ∧
        (¬ good → Answers (.keyLoadWrapped o) s t L [3] fun u => u.hub.keys = s.hub.keys)) ∧
    (Rules s (.keyClear o) o noCheck t L → cmd = 4 →
      (slot = 0 → Answers (.keyClear o) s t L [2] fun u => u.hub = s.hub) ∧
      (slot ≠ 0 → Answers (.keyClear o) s t L [0] fun u => u.keyLoaded slot = false ∧
        ∀ key, key ≠ slot → tfind u.hub.keys key = tfind s.hub.keys key)) ∧
    (Rules s (.slabModeChange o) o noCheck t L → cmd = 1 →
      let n := (L.g.sget (L.fA + 1)).toNat % 1024
      let die := (L.g.sget (L.fA + 1)).getLsbD 16
      (767 < n → Answers (.slabModeChange o) s t L [2] fun u => u.hub = s.hub) ∧
      (n ≤ 767 → s.slabBusy n = false → Answers (.slabModeChange o) s t L [0] fun u =>
        (n ∈ u.hub.slabs ↔ die = true) ∧ ∀ k, k ≠ n → (k ∈ u.hub.slabs ↔ k ∈ s.hub.slabs)) ∧
      (n ≤ 767 → s.slabBusy n = true → ∃ u, exec (.slabModeChange o) s = .next u ∧
        u.thread? L.c L.slot t = some (waiting s L.c L.th (.mbox n)) ∧ u.hub.slabs = s.hub.slabs ∧ u.hub.slabWait = [(n, die)])))

/-- CTXSV or a write of PRECTL starts the pre-emption of a context, by draining or by force; the limit turns a drain into a save; a
group whose work has ended is saved and leaves its core, and CTXLD, of a record at the address of its save or moved unaltered to
another, and GROUP_RESUME_PLACE bring a saved group back
(R238 to R242, R382, R383). Which context is live is the model's reading (DEDUCED, log entry 56); a record that has moved, and the
answer where none stands, are its choice (DESIGN CHOICE, log entry 29). -/
def Obligations.Preemption : Prop :=
  (∀ (o : Op) (s : State) (t : Nat) (L : Lane), Rules s (.ctxsv o) o noCheck t L → s.hub.preempt = none →
    let a := L.g.sget L.fA
    let ctx := (a.extractLsb' 0 12).toNat
    let busy := s.hub.prestat.toNat % 4 = 1 ∨ s.hub.prestat.toNat % 4 = 2 ∨ s.liveCtx ctx = false ∨ ctx = L.g.ctx
    (busy → Answers (.ctxsv o) s t L [2] fun u => u.hub = s.hub) ∧
    (¬ busy → s.groupsOf ctx ≠ [] → a.getLsbD 62 = false → Answers (.ctxsv o) s t L [0] fun u =>
      u.hub.prestat = 1 ∧ u.hub.presave = L.srcBd (.ctxsv o) &&& 0xFFFFFFFE00000 ∧
      u.hub.preempt = some { ctx := ctx, saving := false, limit := s.hub.cycles + drainLimit a, saved := 0, next := 0 })) ∧
  (∀ (o : Op) (s : State) (t : Nat) (L : Lane), Rules s (.ctxsvSt o) o noCheck t L →
    Answers (.ctxsvSt o) s t L (both s.hub.prestat) fun u => u.hub = s.hub) ∧
  (∀ s : State, s.hub.preempt = none →
    let ctx := (s.outside.prectl.extractLsb' 0 12).toNat
    s.groupsOf ctx ≠ [] →
    (∃ u, exec .preemptDrain s = .next u ∧ u.hub.prestat = 1 ∧
      u.hub.preempt = some ⟨ctx, false, s.hub.cycles + drainLimit s.outside.prectl, 0, 0⟩) ∧
    (∃ u, exec .preemptForce s = .next u ∧ u.hub.prestat = 2 ∧
      (∃ p, u.hub.preempt = some p ∧ p.ctx = ctx ∧ p.saving = true) ∧
      ∀ e ∈ s.groupsOf ctx, ∀ g, u.group? e.1 e.2 = some g → g.saving = true)) ∧
  (∀ (s : State) (p : Preempt), s.hub.preempt = some p → p.saving = false → s.groupsOf p.ctx ≠ [] →
    (s.hub.cycles < p.limit → exec .drainLimitExpiry s = .next s) ∧
    (p.limit ≤ s.hub.cycles → ∃ u, exec .drainLimitExpiry s = .next u ∧ u.hub.preempt = some { p with saving := true } ∧
      ∀ e ∈ s.groupsOf p.ctx, ∀ g, u.group? e.1 e.2 = some g → g.saving = true)) ∧
  (∀ (s : State) (c slot : Nat) (g : Group) (p : Preempt), s.group? c slot = some g → s.hub.preempt = some p → g.saving = true →
    g.ctx = p.ctx → g.finished = false → s.hub.slabWait = [] →
    (s.saveBusy c slot = true → exec (.forcedSave c slot) s = .next s) ∧
    (s.saveBusy c slot = false → ∃ u x, exec (.forcedSave c slot) s = .next u ∧ u.group? c slot = none ∧
      tfind u.hub.saves (s.hub.saveAddr p.next) = some x ∧ x.group.index = g.index ∧ x.group.launch = g.launch ∧
      x.group.s = g.s ∧ x.group.threads.map (·.v) = g.threads.map (·.v) ∧ x.ct = (s.core c).ct ∧
      ((s.cluster (clusterOf c)).offers = [] → x.group.threads.map (·.pc) = g.threads.map (·.pc)))) ∧
  (∀ (o : Op) (s : State) (t : Nat) (L : Lane), Rules s (.ctxld o) o noCheck t L → s.hub.slabWait = [] →
    let pa := ((L.g.sget L.fA).extractLsb' 21 31).toNat * 0x200000
    (tfind s.hub.saves pa = none → (∀ e ∈ s.hub.saves, s.unaltered pa e.2 = false ∧ s.partOf pa e.2 = false) →
      Answers (.ctxld o) s t L [2] fun u => u.hub = s.hub) ∧
    ∀ (q : Nat) (x : Saved) (l : Launch), (q, x) ∈ s.hub.saves → s.unaltered pa x = true →
      (∀ e ∈ s.hub.saves, s.unaltered pa e.2 = true → e.2 = x) → tfind s.hub.launches x.group.launch = some l → x.group.threads ≠ [] →
      x.group.threads.length ≤ 1024 → l.halted = false → x.unit = none →
      Answers (.ctxld o) s t L [0] fun u => u.hub.resumes = s.hub.resumes ++ [{ saved := x, key := none, size := 1 }]) ∧
  ∀ (s : State) (r : Resume) (c slot : Nat) (rest : List Nat), s.hub.resumes = [r] → r.key = none → r.size = 1 → r.tried = false →
    s.hub.gangHold = [] → s.noPlaces r.saved.group.ctx = false →
    let s0 : State := { s with hub := { s.hub with resumes := [] } }
    let x := r.saved.group.record
    s0.rankPlaces r.saved.group.ctx x (fun k => s0.resumeCandidate r.saved (s.residents r.saved.group.launch) k &&
      s0.leavesRoom { x with regs := 0 } (sameUnit 3 r.saved []) (sameUnit 4 r.saved []) k) = c :: rest →
    firstFree ((s.core c).slots.map (·.1)) 64 = some slot →
    ∃ u g, exec .groupResumePlace s = .next u ∧ u.hub.resumes = [] ∧ u.group? c slot = some g ∧ g.index = r.saved.group.index ∧
      g.launch = r.saved.group.launch ∧ g.s = r.saved.group.s ∧ r.saved.ct.toNat ≤ (u.core c).ct.toNat

namespace Sys2Proof.Claims

/-! ## Walkers -/

/-- One walk is under way on a die. -/
def Walking (s : State) (d : Nat) (w : Walk) : Prop := (s.die d).active = [w]

/-- A die's fault queue takes no record and no new configuration. -/
def QueueOff (s : State) (d : Nat) : Prop := (s.die d).fqcfg.getLsbD 59 = false ∧ (s.die d).fqcfgNext = none

/-- The read of the line of a table entry that a die's walker sends to its slice, with hint 5 (R41, R52). -/
def entryRead (d : Nat) (w : Walk) (pa : Nat) : Msg :=
  .read ⟨128 * d, w.id % 64, 1 <<< (pa / 64 % 4), 5, 0, lineOf pa, 0, some (.walker d w.id)⟩

/-- From s to u the walk w of a die is set to read the entry at pa: it has asked for the entry's line, unless the mode of the entry's
slab is about to change (R15). -/
def Asks (s u : State) (d : Nat) (w : Walk) (pa : Nat) : Prop :=
  (s.slabHeld pa = false → Walking u d { w with line := some ⟨lineOf pa, 0, none⟩ } ∧ u.net = s.net ++ [(s.seq, entryRead d w pa)]) ∧
  (s.slabHeld pa = true → Walking u d { w with line := none } ∧ u.net = s.net)

/-- The doubleword at an address in a line as it was read. -/
def entryOf (g : Got) (pa : Nat) : Dword := BitVec.ofNat 64 (leNat ((g.bytes.drop (pa % 256)).take 8))

end Sys2Proof.Claims

/-- A walk is queued, at most 256 wait and 64 are under way; it asks its slice for one entry a level, down from its region's root; a
poisoned entry ends it, an entry with V = 0 parks it, a leaf whose A or D is to be set is set unless it has changed, and the leaf fills
the last-level TLB and lets those that wait look again. Software answers a parked walk's record: RETRY queues it again, DELIVER traps
its access with 0x0B; records go to the fault queue at its tail while it has room (R37 to R47, R429).
That RETRY queues the walk whatever the length of the queue, and which walk a miss joins, are the model's (DESIGN CHOICE, log entry
37). -/
def Obligations.WalkerEvents : Prop :=
  (∀ (s : State) (m d : Nat) (w : Walk), s.msg? m = some (.tlbMiss d w) →
    let x := s.die d
    tlbHit x.tlb (s.regionFor w.ctx w.va) w.ctx w.va = none → x.parked.length ≤ 256 →
    (∀ y ∈ x.active ++ x.queue, samePage (s.regionFor w.ctx w.va) y w.ctx w.va = false) →
    (x.queue.length < 256 → ∃ u, exec (.tlbMissToWalker m) s = .next u ∧ (u.die d).queue = x.queue ++ [w] ∧ u.net = tdel s.net m) ∧
    (256 ≤ x.queue.length → exec (.tlbMissToWalker m) s = .next s)) ∧
  (∀ (s : State) (m d : Nat) (w y : Walk), s.msg? m = some (.tlbMiss d w) → Walking s d y → y.noFill = false →
    tlbHit (s.die d).tlb (s.regionFor w.ctx w.va) w.ctx w.va = none → samePage (s.regionFor w.ctx w.va) y w.ctx w.va = true →
    ∃ u, exec (.tlbMissToWalker m) s = .next u ∧ (u.die d).queue.length = (s.die d).queue.length ∧
      Walking u d { y with waiters := y.waiters ++ w.waiters, wantD := y.wantD || w.wantD }) ∧
  (∀ (s : State) (d : Nat) (w : Walk) (rest : List Walk), (s.die d).queue = w :: rest →
    let r := s.regionFor w.ctx w.va
    (64 ≤ (s.die d).slots → exec (.walkStart d) s = .next s) ∧
    ((s.die d).slots < 64 → regionBad r w.va = false → (s.die d).active = [] → ∃ u a, exec (.walkStart d) s = .next u ∧
      (u.die d).queue = rest ∧ Asks s u d a (entryAddr r (firstLevel r) r.root w.va) ∧ a.id = w.id ∧ a.va = w.va ∧ a.waiters = w.waiters ∧
      a.leaf = none ∧ a.region = some (s.regionEntry w.ctx (w.va.extractLsb' 53 4).toNat) ∧ a.level = firstLevel r ∧ a.table = r.root)) ∧
  (∀ (s : State) (d : Nat) (w : Walk) (f : Dword) (g : Got), Walking s d w → w.leaf = none → w.region = some f →
    let r := regionOf f
    let pa := entryAddr r w.level w.table w.va
    let e := entryOf g pa
    (w.line = none → ∃ u, exec (.walkEntryRead d w.id) s = .next u ∧ Asks s u d w pa) ∧
    (∀ l, w.line = some l → l.got = none → exec (.walkEntryRead d w.id) s = .next s) ∧
    (w.line = some ⟨lineOf pa, 0, some g⟩ → g.poison.getLsbD (pa / 64 % 4) = true → ∀ k t, w.waiters = [.job k t] →
      ∃ u, exec (.walkEntryRead d w.id) s = .next u ∧ (u.die d).active = [] ∧ u.memory = s.memory ∧
        ∀ j ∈ (u.cluster k).jobs, j.ticket = t → j.fault = some 0x0C) ∧
    (w.line = some ⟨lineOf pa, 0, some g⟩ → g.poison.getLsbD (pa / 64 % 4) = false → s.linkDown pa = false →
    (e.getLsbD 0 = false → QueueOff s d → (∀ q ∈ w.waiters, s.isHalted q = false) → ∃ u, exec (.walkEntryRead d w.id) s = .next u ∧
      (u.die d).active = [] ∧ (u.die d).parked = (s.die d).parked ++ [{ w with line := none, failed := some w.level }]) ∧
    (e.getLsbD 0 = true → leafLevel r < w.level →
      let table := (e.extractLsb' 8 44).toNat * 256
      ∃ u, exec (.walkEntryRead d w.id) s = .next u ∧
        Asks s u d { w with level := w.level - 1, table := table } (entryAddr r (w.level - 1) table w.va)) ∧
    (e.getLsbD 0 = true → w.level ≤ leafLevel r →
      let open_ := e.getLsbD 4 = false ∨ (w.wantD = true ∧ e.getLsbD 1 = true ∧ e.getLsbD 5 = false)
      (open_ → ∃ u, exec (.walkEntryRead d w.id) s = .next u ∧
        Walking u d { w with leaf := some e, leafPa := pa, line := none }) ∧
      (¬ open_ → w.noFill = false → w.noKeys = [] → ∃ u, exec (.walkEntryRead d w.id) s = .next u ∧ (u.die d).active = [] ∧
        (u.die d).tlb.head? = some (leafEnt w.ctx (s.regionFor w.ctx w.va) w.va e) ∧
        ∀ c id a, w.waiters = [.acc c id] → s.acc? c id = some a → u.acc? c id = some { a with phase := .logged })))) ∧
  (∀ (s : State) (d : Nat) (w : Walk) (e f : Dword), Walking s d w → w.leaf = some e → w.leafPa % 8 = 0 →
    Stands s w.leafPa (leBytes 8 f.toNat) → s.keyLoaded 0 = true → s.hub.slabWait = [] →
    let new := e ||| 0x10 ||| (if w.wantD = true ∧ e.getLsbD 1 = true then 0x20 else 0)
    (f = e → w.noFill = false → w.noKeys = [] → ∃ u, exec (.adCompareSwap d w.id) s = .next u ∧ (u.die d).active = [] ∧
      u.peek 0 w.leafPa 8 = some (leBytes 8 new.toNat) ∧
      (u.die d).tlb.head? = some (leafEnt w.ctx (s.regionFor w.ctx w.va) w.va new)) ∧
    (f ≠ e → let r := s.regionFor w.ctx w.va
      ∃ u a, exec (.adCompareSwap d w.id) s = .next u ∧ Asks s u d a (entryAddr r (firstLevel r) r.root w.va) ∧ a.id = w.id ∧
        a.waiters = w.waiters ∧ a.leaf = none ∧ a.level = firstLevel r ∧ a.table = r.root ∧ SameBytes s u)) ∧
  (∀ (s : State) (d c id : Nat) (seq : Word) (w : Walk) (a : Acc), (s.die d).parked = [w] → w.seqNo = some seq →
    w.waiters = [.acc c id] → s.acc? c id = some a →
    (∃ u, exec (.walkRetry d seq) s = .next u ∧ (u.die d).parked = [] ∧
      (u.die d).queue = (s.die d).queue ++ [{ w with failed := none, seqNo := none }] ∧
      u.acc? c id = some { a with phase := .walk }) ∧
    ∀ (e : Nat) (g : Group) (th : Thread), a.log = some e → s.group? c a.slot = some g → g.threads[a.tid]? = some th →
      th.live = true → th.wait = none → th.due = [] → Enterable s c g th →
      ∃ u x, exec (.walkDeliver d seq) s = .next u ∧ (u.die d).parked = [] ∧
        u.acc? c id = some { a with phase := .held, replay := true } ∧
        u.thread? c a.slot a.tid = some x ∧ x.pc = g.tvec ∧ x.handler = true ∧ x.prio = 0 ∧ tget 0 x.t 0 = 0xC000000B ∧
        tget 0 x.t 1 = lowWord th.pc ∧ tget 0 x.t 4 = lowWord a.pc ∧ tget 0 x.t 6 = lowWord a.va ∧
        tget 0 x.t 8 = BitVec.ofNat 32 a.code ∧ tget 0 x.t 9 = 0x80000000 ||| BitVec.ofNat 32 e ∧ x.v = th.v) ∧
  (∀ (s : State) (d : Nat) (v : Dword), (s.die d).fqcfgNext = none →
    let x := s.die d
    let n := fqRecords x.fqcfg
    let pa := fqBase x.fqcfg + 32 * (x.fqtail.toNat % n)
    (x.parked = [] → ∃ u, exec (.fqheadWrite d v) s = .next u ∧ (u.die d).fqhead = lowWord v ∧ (u.die d).fqtail = x.fqtail) ∧
    ∀ (w : Walk) (cell : Nat), x.parked = [w] → w.seqNo = none → x.fqcfg.getLsbD 59 = true → s.slabHeld pa = false → s.owner? pa = none →
      s.homeCell pa = some cell → s.lost cell = false → s.keyLoaded 0 = true → (∀ k, k < 32 → (s.cellOf (pa + k)).isSome = true) →
      (n ≤ (x.fqtail - lowWord v).toNat → ∃ u, exec (.fqheadWrite d v) s = .next u ∧ (u.die d).parked = [w] ∧
        (u.die d).fqtail = x.fqtail) ∧
      ((x.fqtail - lowWord v).toNat < n → ∃ u, exec (.fqheadWrite d v) s = .next u ∧ (u.die d).fqhead = lowWord v ∧
        (u.die d).parked = [{ w with seqNo := some x.fqtail }] ∧ (u.die d).fqtail = x.fqtail + 1 ∧
        u.peek 0 pa 32 = some (w.record x.fqtail))) ∧
  ∀ (s : State) (d : Nat) (v : Dword), (s.die d).parked = [] →
    let x := s.die d
    (x.fqtail = x.fqhead → ∃ u, exec (.fqcfgWrite d v) s = .next u ∧ (u.die d).fqcfg = v ∧ (u.die d).fqcfgNext = none) ∧
    (x.fqtail ≠ x.fqhead → ∃ u, exec (.fqcfgWrite d v) s = .next u ∧ (u.die d).fqcfg = x.fqcfg ∧ (u.die d).fqcfgNext = some v)

namespace Sys2Proof.Claims

/-! ## Lines at home -/

/-- No error stands in the stored sectors of a line. -/
def Sound (s : State) (cell : Nat) : Prop := ∀ k, k < 4 → tfind s.errors (cell / 64 + k) = none

/-- A line of stacked memory is served by a cell, no core owns it, its die has power, no error stands in it, no read of it is open at its
slice, and the key slot of a request to it is loaded. -/
structure AtHome (s : State) (pa key cell : Nat) : Prop where
  served  : s.homeCell pa = some cell
  stacked : cell < farCell
  free    : s.owner? pa = none
  up      : s.lost cell = false
  sound   : Sound s cell
  quiet   : s.umbrasOf cell = []
  loaded  : s.keyLoaded key = true

/-- The bytes at pa, of the line of a cell, are bs under a key; every other byte of the line that the key reads, and every byte of
another line, is as it was. -/
def Writes (s u : State) (cell key pa : Nat) (bs : List Byte) : Prop :=
  (∀ j, j < bs.length → u.byteAt key (pa + j) = bs[j]?) ∧
  (∀ k a, s.homeCell a ≠ some cell → u.byteAt k a = s.byteAt k a) ∧
  ∀ a b, lineOf a = lineOf pa → a < pa ∨ pa + bs.length ≤ a → s.byteAt key a = some b → u.byteAt key a = some b

/-- The sectors of a set take a line's bytes under a key; every other sector, and every other line, is as it was. -/
def Returns (s u : State) (cell key pa : Nat) (sect : BitVec 4) (bs : List Byte) : Prop :=
  (∀ j, j < 256 → sect.getLsbD (j / 64) = true → u.byteAt key (lineOf pa + j) = bs[j]?) ∧
  (∀ k j, j < 256 → sect.getLsbD (j / 64) = false → u.byteAt k (lineOf pa + j) = s.byteAt k (lineOf pa + j)) ∧
  ∀ k a, s.homeCell a ≠ some cell → u.byteAt k a = s.byteAt k a

/-- The times of a line at home. -/
def Timed (s : State) (cell : Nat) (w r : Dword) : Prop := (s.side (cell / 256)).wts = w ∧ (s.side (cell / 256)).rts = r

/-- Data of a line as home gives it: the bytes that stand there, its times, its poison bits. -/
def Reads (s : State) (key pa : Nat) (g : Got) (w r : Dword) (poison : BitVec 4) : Prop :=
  g.bytes.length = 256 ∧ ReadsMemory s key (lineOf pa) g.bytes ∧ g.wts = w ∧ g.rts = r ∧ g.poison = poison

end Sys2Proof.Claims

/-- A slice takes a read into the open umbra of its line and key, or opens one in a free way of the line's set, and its vault read waits
while a core owns the line; a read under an empty key slot comes back as poisoned data does; when the data leaves the vault the line's
lease is extended by its hint, and errors poison its sectors; when the umbra closes one reflection carries the data to the requesters
(R18, R49 to R53, R84, R85, R93).
That a read under an empty key slot, which R30 gives no answer at its home, comes back as poisoned data is the model's reading (DEDUCED,
log entry 44). -/
def Obligations.SharedReads : Prop :=
  (∀ (s : State) (m : Nat) (r : ReadReq), s.msg? m = some (.read r) → s.keyLoaded r.key = false →
    ∃ u g, exec (.sliceReadAccept m) s = .next u ∧ g.poison = 0xF ∧
      u.net = tdel s.net m ++ [(s.seq, .reflect (clusterOf r.core) (lineOf r.pa) r.key [r] g)]) ∧
  (∀ (s : State) (m cell : Nat) (r : ReadReq), s.msg? m = some (.read r) → s.keyLoaded r.key = true → s.homeCell r.pa = some cell →
    let x := s.vault (vaultOf cell)
    let set := offsetOf cell / 256 % 16
    let gen := s.keyGenOf r.key
    x.waiting = [] →
    ((∀ y ∈ x.umbras, s.homeCell y.pa ≠ some cell) → (∃ k, k < 8 ∧ 8 * set + k ∉ x.usedWays) →
      ∃ u w, exec (.sliceReadAccept m) s = .next u ∧ w / 8 = set ∧ w ∉ x.usedWays ∧
        (u.vault (vaultOf cell)).umbras =
          x.umbras ++ [⟨w, [], lineOf r.pa, r.key, [r], false, none, gen, (s.owner? r.pa).isSome⟩] ∧
        (s.owner? r.pa = none → u.net = tdel s.net m) ∧
        ∀ e : Excl, s.owner? r.pa = some (vaultOf cell, e) → x.excls = [e] → (u.vault (vaultOf cell)).excls =
            [{ e with held := e.held ++ [(gen, .vaultRead (vaultOf cell) w (lineOf r.pa) r.key)], recalled := true }] ∧
          u.net = tdel s.net m ++ (if e.recalled then [] else [(s.seq, .exclRecall e.core e.pa e.key)])) ∧
    ∀ y : Umbra, x.umbras = [y] → y.sealed = false → y.key = r.key → s.homeCell y.pa = some cell →
      y.reqs.length < 63 * (1 + y.more.length) → ∃ u, exec (.sliceReadAccept m) s = .next u ∧ u.net = tdel s.net m ∧
        (u.vault (vaultOf cell)).umbras = [{ y with reqs := y.reqs ++ [r] }]) ∧
  (∀ (s : State) (cell : Nat) (y : Umbra) (q : ReadReq) (e : Ecc) (w r : Dword),
    (s.vault (vaultOf cell)).umbras = [y] → y.left = none → y.waits = false → y.reqs = [q] → s.homeCell y.pa = some cell →
    cell < farCell → s.lost cell = false → Sound s cell → tfind s.hub.keys y.key = some y.gen → Timed s cell w r →
    let len : Dword := if q.hint = 4 then 256 else 16
    let r1 := if q.hint = 5 then r else maxD r (maxD (w + len) (q.ct + len))
    let poison := (s.side (cell / 256)).poison ||| e.bad
    ∃ u g, exec (.vaultDataLeaves (vaultOf cell) y.way e) s = .next u ∧ (u.vault (vaultOf cell)).umbras = [{ y with left := some g }] ∧
      Reads s y.key y.pa g w r1 poison ∧ Timed u cell w r1 ∧ (u.side (cell / 256)).poison = poison ∧
      (u.vault (vaultOf cell)).errors = (s.vault (vaultOf cell)).errors + e.corrected ∧ SameBytes s u) ∧
  ∀ (s : State) (v k : Nat) (y : Umbra), (s.vault v).umbras = [y] → (s.vault v).waiting = [] → y.reqs ≠ [] →
    (∀ q ∈ y.reqs, clusterOf q.core = k) →
    (y.left = none → exec (.umbraClose v y.way) s = .next s) ∧
    ∀ g, y.left = some g → ∃ u, exec (.umbraClose v y.way) s = .next u ∧ (u.vault v).umbras = [] ∧
      u.net = s.net ++ [(s.seq, .reflect k (lineOf y.pa) y.key y.reqs g)] ∧ SameBytes s u

/-- At home a store, an atomic and a host's write of COH memory take the later of the requester's time and one past the line's lease,
which becomes both its times; a store of other memory and a write-back leave its times. Each writes its own bytes and no other, and is
acknowledged, a COH store with the time that it met there; a host's access waits behind others that wait, and while the mode of its slab
is about to change; a renewal extends the lease from the requester's time, with the data where the copy is an old one. Home grants a
line exclusively while its vault's table of 32 has room; an exclusive request that meets an owned line waits there, the line's umbras
sealed, and the owner is recalled; the line that returns brings its dirty sectors and its times, and frees the entry (R15, R55, R70,
R85, R87, R88, R92 to R94, R431). That a COH store's acknowledgement carries the time met at home, beside the new one of R88, is the
model's reading (DEDUCED, log entry 78). -/
def Obligations.HomeRequests : Prop :=
  ((∀ (s : State) (m c id pa key cell : Nat) (ct w r : Dword) (bs : List Byte), AtHome s pa key cell → Timed s cell w r →
     pa % 256 + bs.length ≤ 256 →
     (s.msg? m = some (.cohStore c id pa key ct (zipFrom pa bs)) → ∃ u, exec (.cohStoreAtHome m) s = .next u ∧
       Writes s u cell key pa bs ∧ Timed u cell (maxD ct (r + 1)) (maxD ct (r + 1)) ∧
       u.net = tdel s.net m ++ [(s.seq, .ack c id pa key (some (maxD ct (r + 1))) (zipFrom pa bs) [] false (some w))]) ∧
     (s.msg? m = some (.strStore c id pa key (zipFrom pa bs)) → ∃ u, exec (.strStoreAtHome m) s = .next u ∧
       Writes s u cell key pa bs ∧ Timed u cell w r ∧
       u.net = tdel s.net m ++ [(s.seq, .ack c id pa key none (zipFrom pa bs) [] false none)])) ∧
   (∀ (s : State) (m c pa key cell : Nat) (sect : BitVec 4) (w r : Dword) (bs : List Byte), AtHome s pa key cell → Timed s cell w r →
     bs.length = 256 → s.msg? m = some (.writeBack c pa key sect bs) → ∃ u, exec (.writeBackAtHome m) s = .next u ∧
       Returns s u cell key pa sect bs ∧ Timed u cell w r ∧
       u.net = tdel s.net m ++ [(s.seq, .ack c 0 pa key none [] [] false none)]) ∧
   (∀ (s : State) (m c id pa key len cell : Nat) (copy : Option Dword) (ct w r : Dword), AtHome s pa key cell → Timed s cell w r →
     s.msg? m = some (.renew c id pa key copy ct len) →
     let n := BitVec.ofNat 64 len
     let old := copy ≠ some w
     let r1 := maxD r (if old then maxD (w + n) (ct + n) else ct + n)
     ∃ u g, exec (.renewalAtHome m) s = .next u ∧ Timed u cell w r1 ∧ SameBytes s u ∧
       (old → Reads s key pa g w r1 (s.side (cell / 256)).poison) ∧
       u.net = tdel s.net m ++ [(s.seq, .renewReply c id pa key w r1 (if old then some g else none))]) ∧
   (∀ (s : State) (m c id pa key size cell : Nat) (coh : Bool) (kind : AccKind) (data cmp old : List Byte) (ct w r : Dword),
     AtHome s pa key cell → Timed s cell w r → s.msg? m = some (.homeAtomic c id pa key ct coh kind size data cmp) →
     let new := kind.apply size old data cmp
     let t := maxD ct (r + 1)
     (s.side (cell / 256)).poison = 0 → s.peek key pa size = some old → pa % 256 + new.length ≤ 256 →
     ∃ u, exec (.homeAtomic m) s = .next u ∧ Writes s u cell key pa new ∧
       Timed u cell (if coh then t else w) (if coh then t else r) ∧
       u.net = tdel s.net m ++ [(s.seq, .ack c id pa key (if coh then some t else none) [] old false none)]) ∧
   ∀ (s : State) (pa cell : Nat) (w r : Dword) (bs : List Byte), pa < stackedSize → bs ≠ [] → pa % 256 + bs.length ≤ 256 →
     (s.hub.hostHeld ≠ [] ∨ s.slabHeld pa = true → ∃ u v, exec (.hostCxlWrite pa bs) s = .next u ∧
       exec (.hostCxlRead pa bs.length) s = .next v ∧ u.hub.hostHeld = s.hub.hostHeld ++ [.write pa bs] ∧
       v.hub.hostHeld = s.hub.hostHeld ++ [.read pa bs.length] ∧ SameBytes s u ∧ SameBytes s v) ∧
     (s.hub.hostHeld = [] → s.hub.slabWait = [] → AtHome s pa s.hub.hkey.toNat cell → Timed s cell w r →
       (∃ u, exec (.hostCxlWrite pa bs) s = .next u ∧ Writes s u cell s.hub.hkey.toNat pa bs ∧
         Timed u cell (maxD 0 (r + 1)) (maxD 0 (r + 1))) ∧
       ((s.side (cell / 256)).poison = 0 → s.peek s.hub.hkey.toNat pa bs.length = some bs →
         exec (.hostCxlRead pa bs.length) s = .next (s.reply bs)))) ∧
  (∀ (s : State) (m c id pa key cell : Nat) (coh : Bool) (w r : Dword), AtHome s pa key cell → Timed s cell w r →
    s.msg? m = some (.exclReq c id pa key coh) →
    let v := vaultOf cell
    ((s.vault v).excls.length < 32 → ∃ u g, exec (.exclusiveRequest m) s = .next u ∧ SameBytes s u ∧
      (u.vault v).excls = (s.vault v).excls ++ [⟨lineOf pa, key, c, [], false⟩] ∧
      Reads s key pa g w r (s.side (cell / 256)).poison ∧ u.net = tdel s.net m ++ [(s.seq, .exclGrant c id pa key (some g))]) ∧
    (32 ≤ (s.vault v).excls.length → ∃ u, exec (.exclusiveRequest m) s = .next u ∧ SameBytes s u ∧
      u.net = tdel s.net m ++ [(s.seq, .exclGrant c id pa key none)])) ∧
  (∀ (s : State) (m c id pa key v : Nat) (coh : Bool) (e : Excl), s.msg? m = some (.exclReq c id pa key coh) →
    s.owner? pa = some (v, e) → (s.vault v).excls = [e] → s.keyLoaded key = true → ∃ u, exec (.exclusiveRequest m) s = .next u ∧
      SameBytes s u ∧ (∀ y ∈ (u.vault v).umbras, s.homeCell y.pa = s.homeCell pa → y.sealed = true) ∧
      (u.vault v).excls = [{ e with held := e.held ++ [(s.keyGenOf key, .exclReq c id pa key coh)], recalled := true }] ∧
      u.net = tdel s.net m ++ (if e.recalled then [] else [(s.seq, .exclRecall e.core e.pa e.key)])) ∧
  ∀ (s : State) (m c pa key v cell : Nat) (dirty : BitVec 4) (g : Got) (e : Excl), s.msg? m = some (.exclReturn c pa key dirty g) →
    s.owner? pa = some (v, e) → (s.vault v).excls = [e] → e.held = [] → s.homeCell pa = some cell → cell < farCell →
    s.lost cell = false → g.bytes.length = 256 → ∃ u, exec (.exclusiveReturn m) s = .next u ∧ (u.vault v).excls = [] ∧
      Returns s u cell key pa dirty g.bytes ∧ Timed u cell g.wts g.rts ∧ u.net = tdel s.net m

namespace Sys2Proof.Claims

/-! ## Answers at a core -/

/-- A core has one access under way, for a thread, with a destination to fill and not of quiet kind. -/
structure Lone (s : State) (c : Nat) (a : Acc) (th : Thread) : Prop where
  accs   : (s.core c).accs = [a]
  thread : s.thread? c a.slot a.tid = some th

/-- The lone access has ended and its thread's registers hold the words of its bytes. -/
def Fills (u : State) (c : Nat) (a : Acc) (th : Thread) (bs : List Byte) : Prop :=
  (u.core c).accs = [] ∧ u.thread? c a.slot a.tid = some (th.fillAll a.dest (loadWords a.size a.sext bs))

/-- The bytes that an access reads of its line's. -/
def ofLine (a : Acc) (line : List Byte) : List Byte := (line.drop (a.pa % 256)).take a.size

/-- An exclusive line as its owner gives it back: a poisoned sector is not written (R19). -/
def returned (c : Nat) (x : L1Line) : Msg := .exclReturn c x.pa x.key (x.dirty &&& ~~~x.poison) ⟨x.bytes, x.wts, x.rts, x.poison⟩

end Sys2Proof.Claims

/-- A reflection or a renewal fills the registers of the load that waits, in COH at the later of the core's time and the data's, which
becomes the core's; an acknowledgement ends a store, updates the L1's copy and raises the core's time, and gives an atomic what it
found; a copy older than the line that a store met at home leaves. A granted line is installed and its atomic performed in it, at the
later of the core's time and one past the line's lease; without a grant the atomic goes home. An owner that is recalled, its atomic
instruction finished, or that had none for 1,024 front cycles, returns its line; a logged access is looked up again; a tick adds one to
the time of each core of its cluster every 64 front cycles (R70, R71, R82, R86 to R88, R90, R92, R93, R237).
That an older copy leaves is the model's reading of R88 with R90 (DEDUCED, log entry 78). -/
def Obligations.CoreEvents : Prop :=
  ((∀ (s : State) (m k pa key c : Nat) (q : ReadReq) (g : Got) (a : Acc) (th : Thread), s.msg? m = some (.reflect k pa key [q] g) →
     q.core = c → q.agent = none → Lone s c a th → a.kind = .load → a.count ≠ 0 → a.phase = .fill → lineOf a.pa = lineOf pa →
     a.key = key → s.linkDown a.pa = false → g.poison.getLsbD (a.pa / 64 % 4) = false → (s.core c).l1 = [] → (s.core c).cacheWays ≠ [] →
     (∀ e ∈ (s.core c).misses, e.2.stale = false) → (a.state = 0 → (maxD (s.core c).ct g.wts).toNat ≤ g.rts.toNat) →
     ∃ u, exec (.reflectionArrival m) s = .next u ∧ Fills u c a th (ofLine a g.bytes) ∧ u.net = tdel s.net m ∧ SameBytes s u ∧
       (u.core c).ct = (if a.state = 0 then maxD (s.core c).ct g.wts else (s.core c).ct) ∧
       (∀ e ∈ (u.core c).misses, ¬ (e.2.pa = lineOf pa ∧ e.2.key = key ∧ e.2.sector ≠ 4)) ∧
       (a.hint ≠ 1 → ∃ y, (u.core c).line? pa key = some y ∧ y.bytes = g.bytes ∧ y.wts = g.wts ∧ y.rts = g.rts)) ∧
   (∀ (s : State) (m c id pa key : Nat) (w r : Dword) (a : Acc) (th : Thread), Lone s c a th → a.id = id → a.kind = .load → a.count ≠ 0 →
     s.linkDown a.pa = false →
     (∀ g, s.msg? m = some (.renewReply c id pa key w r (some g)) → g.poison.getLsbD (a.pa / 64 % 4) = false →
       ∃ u, exec (.renewalReply m) s = .next u ∧ Fills u c a th (ofLine a g.bytes) ∧ (u.core c).ct = maxD (s.core c).ct g.wts) ∧
     ∀ x, s.msg? m = some (.renewReply c id pa key w r none) → (s.core c).line? a.pa a.key = some x → x.wts = w → a.got = none →
       x.poison.getLsbD (a.pa / 64 % 4) = false →
       ∃ u y, exec (.renewalReply m) s = .next u ∧ Fills u c a th (ofLine a x.bytes) ∧ (u.core c).ct = maxD (s.core c).ct x.wts ∧
         (u.core c).line? a.pa a.key = some y ∧ y.rts = maxD x.rts r) ∧
   ∀ (s : State) (m c id pa key : Nat) (w prev : Option Dword) (data : List (Nat × Byte)) (found : List Byte) (a : Acc) (th : Thread),
     s.msg? m = some (.ack c id pa key w data found false prev) → Lone s c a th → a.id = id → s.linkDown pa = false →
     let ct := w.elim (s.core c).ct (maxD (s.core c).ct)
     (a.kind = .store → a.phase = .sent → ∃ u, exec (.storeAck m) s = .next u ∧ (u.core c).accs = [] ∧ (u.core c).ct = ct ∧
       u.thread? c a.slot a.tid = some th ∧ u.net = tdel s.net m ∧
       ∀ x, (s.core c).line? pa key = some x → ((∃ v, prev = some v ∧ v ≠ x.wts) → (u.core c).line? pa key = none) ∧
         ((∀ v, prev = some v → v = x.wts) → ∃ y, (u.core c).line? pa key = some y ∧ y.bytes = (x.write data).bytes ∧
           y.wts = w.getD x.wts ∧ y.rts = w.getD x.rts)) ∧
     (a.kind ≠ .store → a.count ≠ 0 → ∃ u, exec (.storeAck m) s = .next u ∧ Fills u c a th found ∧ (u.core c).ct = ct ∧
       u.net = tdel s.net m)) ∧
  (∀ (s : State) (m c id pa key : Nat) (a : Acc) (th : Thread), Lone s c a th → a.id = id → a.phase = .excl → a.count ≠ 0 →
    lineOf a.pa = lineOf pa → a.key = key → s.linkDown a.pa = false →
    (∀ g, s.msg? m = some (.exclGrant c id pa key (some g)) → (s.core c).l1 = [] → (s.core c).cacheWays ≠ [] →
      g.poison.getLsbD (a.pa / 64 % 4) = false → g.bytes.length = 256 →
      let old := ofLine a g.bytes
      let new := a.kind.apply a.size old a.data a.cmp
      let w := maxD (s.core c).ct (g.rts + 1)
      a.pa % 256 + new.length ≤ 256 → ∃ u y, exec (.exclusiveGrantArrival m) s = .next u ∧ Fills u c a th old ∧
        (u.core c).line? pa key = some y ∧ y.excl = true ∧ y.wts = w ∧ y.rts = w ∧ (u.core c).ct = w ∧
        ∀ j, j < 256 → y.bytes[j]? =
          if a.pa % 256 ≤ j ∧ j < a.pa % 256 + new.length then new[j - a.pa % 256]? else g.bytes[j]?) ∧
    (s.msg? m = some (.exclGrant c id pa key none) → ∃ u, exec (.exclusiveGrantArrival m) s = .next u ∧
      (u.core c).accs = [{ a with phase := .sent }] ∧
      u.net = tdel s.net m ++ [(s.seq, .homeAtomic c id a.pa a.key (s.core c).ct true a.kind a.size a.data a.cmp)])) ∧
  (∀ (s : State) (m c pa key : Nat) (x : L1Line), s.msg? m = some (.exclRecall c pa key) → (s.core c).line? pa key = some x →
    x.excl = true →
    let busy := ∃ b ∈ (s.core c).accs, b.inst = x.atom ∧ b.phase ≠ .parked ∧ b.phase ≠ .held ∧
      ((∃ fn ty sc, b.kind = .atomic fn ty sc) ∨ ∃ ty sc, b.kind = .cas ty sc)
    ((∃ e ∈ s.net, ∃ id p k g, e.2 = .exclGrant c id p k g ∧ lineOf p = lineOf pa) ∨ busy → exec (.exclusiveRecall m) s = .next s) ∧
    ((∀ e ∈ s.net, ∀ id p k g, e.2 = .exclGrant c id p k g → lineOf p ≠ lineOf pa) → (s.core c).l1 = [x] → ¬ busy →
      ∃ u, exec (.exclusiveRecall m) s = .next u ∧
      (u.core c).line? pa key = none ∧ u.net = tdel s.net m ++ [(s.seq, returned c x)])) ∧
  (∀ (s : State) (c pa : Nat) (x : L1Line), (s.core c).l1 = [x] → x.excl = true → x.pa = lineOf pa →
    (s.now c < x.idle + 1024 → exec (.exclusiveTimeout c pa) s = .next s) ∧
    (x.idle + 1024 ≤ s.now c → ∃ u, exec (.exclusiveTimeout c pa) s = .next u ∧ (u.core c).l1 = [] ∧
      u.net = s.net ++ [(s.seq, returned c x)])) ∧
  (∀ (s : State) (c : Nat) (a : Acc) (th : Thread) (g : Group), Lone s c a th → s.group? c a.slot = some g →
    let r := s.regionFor g.ctx a.va
    (a.phase ≠ .logged → exec (.accessReplay c a.id) s = .next s) ∧
    (a.phase = .logged → a.kind = .load → a.log.isSome = true → regionFault r c a.va = none → s.regionHeld g.ctx a = false →
      (s.tlbLookup c g.ctx a.va = none → ∃ u n w, exec (.accessReplay c a.id) s = .next u ∧
        (u.core c).accs = [{ a with phase := .walk }] ∧ u.net = s.net ++ [(n, .tlbMiss (dieOf c) w)] ∧
        w.ctx = g.ctx ∧ w.va = a.va ∧ w.waiters = [.acc c a.id]) ∧
      ∀ e x, s.tlbLookup c g.ctx a.va = some e → s.slabHeld (e.pa r a.va) = false → s.accCheck c g.ctx r e a = none →
        isHub (e.pa r a.va) = false → (s.core c).line? (e.pa r a.va) e.key = some x →
        x.poison.getLsbD (e.pa r a.va / 64 % 4) = false → r.state ≠ 0 → s.writeBacksOpen c = false → a.count ≠ 0 →
        ∃ u, exec (.accessReplay c a.id) s = .next u ∧ Fills u c a th (ofLine { a with pa := e.pa r a.va } x.bytes) ∧
          SameBytes s u)) ∧
  ∀ (s : State) (k : Nat), let x := s.cluster k
    (x.front / 64 ≤ x.ticks → exec (.tick k) s = .next s) ∧
    (x.ticks < x.front / 64 → ∃ u, exec (.tick k) s = .next u ∧ (u.cluster k).ticks = x.ticks + 1 ∧
      ∀ c, u.core c = (if clusterOf c = k then { s.core c with ct := (s.core c).ct + 1 } else s.core c))

namespace Sys2Proof.Claims

/-! ## Engines and the plane array -/

/-- The sync word of a job lies in an allocation of the job's context (R74). -/
def Owned (s : State) (j : Job) : Prop := s.spadOwned j.core j.ctx j.card.sync 8 = true

/-- An engine delivers bytes of a job at a scratchpad address: the job's time and count go on, and its engine's buffer is empty; the
bytes are there; and the bytes are counted into the job's sync word, where it has one, which takes at least the job's time. A sync word
that no longer lies in an allocation of the context ends the job with 0x09 (R74, R80, R112, R113, R115, R117). -/
def Delivers (s u : State) (k : Nat) (j : Job) (a : Nat) (bs : List Byte) (t : Dword) : Prop :=
  let out : Job := { j with jt := t, done := j.done + bs.length, lines := [] }
  (j.card.sync = 0xFFFFFFFF ∨ Owned s j → (u.cluster k).jobs = [out]) ∧
  (j.card.sync ≠ 0xFFFFFFFF → ¬ Owned s j → (u.cluster k).jobs = [{ out with fault := some 0x09 }]) ∧
  ∀ c off, spadAt j.core (BitVec.ofNat 32 a) = some (c, off) → off + bs.length ≤ 0x80000 →
    let there := ∀ i, i < bs.length → (u.core c).spadByte (off + i) = bs[i]?
    (j.card.sync = 0xFFFFFFFF ∨ ¬ Owned s j → there) ∧
    ∀ (n p : Nat) (w : Dword), j.card.sync ≠ 0xFFFFFFFF → Owned s j → spadAt j.core j.card.sync = some (n, p) →
      n ≠ c ∨ p + 8 ≤ off ∨ off + bs.length ≤ p → (∀ i, i < 8 → (s.core n).spadByte (p + i) = some (w.extractLsb' (8 * i) 8)) →
      there ∧ (∀ i, i < 8 → (u.core n).spadByte (p + i) = some ((countInto w bs.length).extractLsb' (8 * i) 8)) ∧
      t.toNat ≤ ((u.core n).timeOf p).toNat

/-- The one job of a cluster is under way and nothing holds it. -/
structure Runs (s : State) (k : Nat) (j : Job) : Prop where
  sole    : (s.cluster k).jobs = [j]
  started : j.started = true ∧ j.fault = none ∧ j.waitWalk = none
  short   : j.done < j.total
  free    : s.jobHeld j = false ∧ s.hub.slabWait = []

/-- The block that a row of registers gives a side of a plane-array operation, if a signer has the row's rank (R163). -/
def rowOf (p : PlaneSide) (i : Nat) : Option (List Block) := p.rows[i]?.map fun r => [p.block 1 i 0 r.1 r.2]

end Sys2Proof.Claims

/-- The earliest accepted job without edges whose kind has a free engine starts; an engine asks the slice for a line that it reads,
waits for its reflection, and delivers at most 256 bytes of it at a time, counted as they arrive; poisoned data, and a place out of its
footprints' or allocations' reach faults it; a job whose bytes have all been delivered ends with status 0, a faulted one with 0x8000 and
its cause and its sync word failed, its later jobs lose their edge to it and follow its time, and its group takes its time (R50, R53, R102,
R104, R107 to R114, R116, R117). The order and size of a job's units and the engine that a job takes are the model's (DEDUCED, log entry
41), what a collective counts of the contributions that earlier ones are to take is its choice (DESIGN CHOICE, log entry 42), and so are
the times that a group and the later jobs take from a job that ends (DEDUCED, log entries 24 and 80). -/
def Obligations.EngineEvents : Prop :=
  (∀ (s : State) (k : Nat) (old : List Job) (j : Job), (s.cluster k).jobs = old ++ [j] →
    (∀ y ∈ old, y.ticket ≠ j.ticket ∧ (y.started = true ∨ y.edges ≠ [])) → j.started = false →
    let busy := (s.cluster k).jobs.filterMap (·.engine)
    let can := j.edges = [] ∧ (∃ e ∈ enginesFor j.card.op, e ∉ busy) ∧ s.jobHeld j = false
    (¬ can → exec (.jobStart k) s = .next s) ∧
    (can → s.hub.slabWait = [] → ∃ u y e, exec (.jobStart k) s = .next u ∧ (u.cluster k).jobs = old ++ [y] ∧ e ∈ enginesFor j.card.op ∧
      e ∉ busy ∧
      (j.card.op ≠ 2 → y = { j with started := true, engine := some e }) ∧
      (j.card.op = 2 → ∀ l s1, s.commEntry j.ctx j.card.comm = (some l, s1) →
        let z := { j with started := true, engine := some e, comm := l }
        y = { z with ahead := s.aheadOf j.card.comm z.nrank }) ∧
      (j.card.op = 2 → ∀ s1, s.commEntry j.ctx j.card.comm = (none, s1) →
        y = { j with started := true, engine := some e, fault := some 0x0C }))) ∧
  (∀ (s : State) (k : Nat) (j : Job), Runs s k j → j.card.op = 3 → j.card.sp 0 = true →
    let a := (j.card.src + j.done) % 2 ^ 32
    let n := min 256 (j.card.len - j.done)
    (∀ cause, s.engBad j ⟨true, a⟩ true = some cause → ∃ u, exec (.engineUnitDelivery k j.ticket.toNat) s = .next u ∧
      (u.cluster k).jobs = [{ j with fault := some cause }] ∧ ∀ c, (u.core c).spad = (s.core c).spad) ∧
    ((∀ i, i < n → s.engBad j ⟨true, a + i⟩ true = none) → ∃ u, exec (.engineUnitDelivery k j.ticket.toNat) s = .next u ∧
      Delivers s u k j a ((List.range n).map fun i => (lowWord (j.card.dw 2)).extractLsb' (8 * ((a + i) % 4)) 8) j.jt)) ∧
  (∀ (s : State) (k pa key st : Nat) (j : Job), Runs s k j → j.card.op = 0 → j.card.sp 0 = false → j.card.sp 1 = true →
    let r := j.done / j.card.rowLen
    let x := j.done % j.card.rowLen
    let n := min 256 (j.card.rowLen - x)
    let src := j.card.src + r * 16 * j.card.sstr + x
    let dst := (j.card.dst + r * 16 * j.card.dstr + x) % 2 ^ 32
    j.card.rowLen ≠ 0 → src % 256 + n ≤ 256 → (∀ i, i < n → s.engBad j ⟨false, src + i⟩ false = none) →
    (∀ i, i < n → s.engBad j ⟨true, dst + i⟩ true = none) → s.engXlate k j src false = .ok pa key st → pa % 256 + n ≤ 256 →
    (j.line? (lineOf pa) key = none → ∃ u, exec (.engineUnitDelivery k j.ticket.toNat) s = .next u ∧
      (u.cluster k).jobs = [{ j with lines := j.lines ++ [⟨lineOf pa, key, none⟩] }] ∧
      u.net = s.net ++ [(s.seq, .read ⟨j.core, j.lines.length, 0xF, 5, j.jt, lineOf pa, key,
        some (.engine k (j.engine.getD 0) j.ticket)⟩)] ∧ SameBytes s u) ∧
    (∀ l, j.line? (lineOf pa) key = some l → l.got = none → ∃ u, exec (.engineUnitDelivery k j.ticket.toNat) s = .next u ∧
      (u.cluster k).jobs = [j] ∧ u.net = s.net ∧ SameBytes s u) ∧
    ∀ l g, j.line? (lineOf pa) key = some l → l.got = some g → g.bytes.length = 256 →
      (g.poison = 0 → ∃ u, exec (.engineUnitDelivery k j.ticket.toNat) s = .next u ∧ SameBytes s u ∧
        Delivers s u k j dst ((g.bytes.drop (pa % 256)).take n) (if st = 0 then maxD j.jt g.wts else j.jt)) ∧
      (g.poison.getLsbD (pa / 64 % 4) = true → n ≠ 0 → ∃ u, exec (.engineUnitDelivery k j.ticket.toNat) s = .next u ∧
        (u.cluster k).jobs = [{ j with fault := some 0x0C }] ∧ SameBytes s u)) ∧
  (∀ (s : State) (k : Nat) (j : Job), (s.cluster k).jobs = [j] →
    j.started = false ∨ j.fault ≠ none ∨ j.waitWalk ≠ none ∨ (j.total ≤ j.done ∧ j.gaps = []) →
    exec (.engineUnitDelivery k j.ticket.toNat) s = .next s) ∧
  ∀ (s : State) (k : Nat) (j : Job) (rest : List Job), (s.cluster k).jobs = j :: rest → (∀ y ∈ rest, y.ticket ≠ j.ticket) →
    ((s.cluster k).ticket - j.ticket).toNat ≤ 256 →
    let gone := fun (u : State) (st : BitVec 16) =>
      (u.cluster k).jobs.map (fun y => { y with ahead := [] }) =
        rest.map (fun y => { y with
          edges := y.edges.filter (· != j.ticket), jt := if j.ticket ∈ y.edges then maxD y.jt j.jt else y.jt, ahead := [] }) ∧
      (j.card.op ≠ 2 → (u.cluster k).jobs.map (·.ahead) = rest.map (·.ahead) ∧ u.hub.shares = s.hub.shares) ∧
      (u.cluster k).past.head? = some ⟨j.ticket, j.ctx, st, j.jt⟩ ∧
      ∀ g, s.group? j.core j.slot = some g → ∃ h, u.group? j.core j.slot = some h ∧ h.jobTime = maxD g.jobTime j.jt
    (j.started = true → j.fault = none → j.total ≤ j.done → j.gaps = [] →
      ∃ u, exec (.jobComplete k j.ticket.toNat) s = .next u ∧ gone u 0) ∧
    (j.started = false ∨ j.done < j.total ∨ j.gaps ≠ [] → exec (.jobComplete k j.ticket.toNat) s = .next s) ∧
    (∀ cause, j.fault = some cause → ∃ u, exec (.jobErrorEnd k j.ticket.toNat) s = .next u ∧ gone u (0x8000 + cause) ∧
      ∀ c off, j.card.sync ≠ 0xFFFFFFFF → spadAt j.core j.card.sync = some (c, off) → Owned s j →
        (u.core c).failed.contains off = true ∧ tfind (u.cluster k).failures (c * 0x80000 + off) = some (0x8000 + cause)) ∧
    (j.fault = none → exec (.jobErrorEnd k j.ticket.toNat) s = .next s)

/-- The plane array takes its oldest operation unless it is busy or its core throttled; when it completes each element of its tile is the
old one, or +0, with the products of its row and column blocks accumulated, a missing row or column counting as +0, the tile is full,
which an instruction finds from the next front cycle on, and a signer that waits goes on (R22, R148, R162, R163, R172, R173, R277,
R357). -/
def Obligations.PlaneArray : Prop :=
  (∀ (s : State) (c : Nat) (p : Plane) (rest : List Plane), (s.core c).planeQ = p :: rest →
    ((s.core c).plane ≠ none ∨ (s.core c).hot = true → exec (.planeOpStart c) s = .next s) ∧
    ((s.core c).plane = none → (s.core c).hot = false → ∃ u, exec (.planeOpStart c) s = .next u ∧ (u.core c).plane = some p ∧
      (u.core c).planeQ = rest)) ∧
  ∀ (s : State) (c t : Nat) (p : Plane) (g : Group) (th : Thread) (next : Dword), (s.core c).plane = some p →
    s.group? c p.slot = some g → p.a.desc = none → p.b.desc = none → p.release = [(t, next)] → g.threads[t]? = some th → th.due = [] →
    (∃ j since, th.wait = some ⟨.signature j, since, false⟩) →
    ∃ u h, exec (.planeOpComplete c) s = .next u ∧ (u.core c).plane = none ∧ u.group? c p.slot = some h ∧ p.tile ∉ h.xEmpty ∧
      p.tile ∈ h.xNewly ∧
      h.threads[t]? = some { th with wait := none, pc := next } ∧
      (∀ x i j, x ≠ p.tile → h.acc x i j = g.acc x i j) ∧
      ∀ i j, i < 64 → j < 64 → h.acc p.tile i j = BitVec.ofNat 32 (accumulate (if p.afresh then 0 else (g.acc p.tile i j).toNat)
        (products p.kblk (rowOf p.a i) (rowOf p.b j)))

namespace Sys2Proof.Claims

/-! ## The dispatcher -/

/-- What a rejected or accepted record leaves in its STATUS doubleword (R217). -/
def StatusIs (u : State) (addr : Nat) (v : Dword) : Prop := u.peek 0 (addr + 88) 8 = some (leBytes 8 v.toNat)

/-- A record's STATUS can be written: it lies in a line that no core owns, on a die with power, and slot 0 holds its key. -/
def Writable (s : State) (addr : Nat) : Prop :=
  s.keyLoaded 0 = true ∧ addr % 128 = 0 ∧ s.owner? addr = none ∧ (∀ k, k < 8 → (s.cellOf (addr + 88 + k)).isSome = true) ∧
  ∃ cell, s.homeCell addr = some cell ∧ s.lost cell = false

/-- A command queue q works, and no other that works has as high a priority (R213). -/
def Foremost (s : State) (q : Nat) : Prop :=
  q < 64 ∧ (s.queue q).works = true ∧ ∀ p, p < 64 → p ≠ q → (s.queue p).works = true → (s.queue q).prio < (s.queue p).prio

/-- A launch is the only one in progress, has a group to place that has not been tried since the last group's end or temperature sample
(R218), and nothing holds its context. -/
def Placing (s : State) (id : Nat) (l : Launch) (gang : Bool) : Prop :=
  s.hub.launches = [(id, l)] ∧ l.tried = false ∧ l.record.gang = gang ∧ l.placed < l.groups ∧ l.prio < 4 ∧ s.noPlaces l.ctx = false

/-- A thread of a new group (R120, R131, R180, R218). -/
def starts (r : Rec) (t : Nat) : Thread :=
  if r.vinit then (Thread.start r.code r.eprio).put 0 (BitVec.ofNat 32 t) else Thread.start r.code r.eprio

end Sys2Proof.Claims

/-- The record at the head of the foremost queue starts a launch with STATUS 1, or is rejected with 0x8001 for its level table or
fields, 0x8002 where it can never be placed; a wait event is polled until its doubleword reaches the value; a group is placed on the
candidate core of least levy with its registers and allocation as its record says, and one that finds no place waits for a group's end
or a temperature sample; a gang is placed whole or not at all; a group whose threads have exited leaves its slot; and a launch whose
groups have ended, its cores clean, completes with its status (R120, R192, R197, R212 to R221). The slot, the scratchpad range, the
quadrant and the boards that a group takes are the model's choice (DESIGN CHOICE, log entry 51); the order of the checks (DEDUCED, log
entry 49), what can never be placed (DEDUCED, log entries 13 and 52) and what the end of a group waits for (DEDUCED, log entry 53) are
its reading. -/
def Obligations.DispatcherEvents : Prop :=
  (∀ (s : State) (q : Nat) (v : Dword), ∃ u, exec (.queueTailWrite q v) s = .next u ∧
    u.queue q = { s.queue q with tail := lowWord v } ∧ ∀ p, p ≠ q → u.queue p = s.queue p) ∧
  (∀ (s : State) (q : Nat) (bs ctx file : List Byte), s.hub.recovery = false → s.hub.slabWait = [] → Foremost s q →
    let addr := (s.queue q).headAddr
    let desc := ((s.queue q).cfg.extractLsb' 0 46).toNat * 64
    let raf := ((dwAt ctx 0).extractLsb' 7 45).toNat * 128
    let tag := ((dwAt ctx 1).extractLsb' 0 12).toNat
    let r := recOf bs
    s.keyLoaded 0 = true → addr % 128 = 0 → bs.length = 128 → ctx.length = 64 → file.length = 128 →
    Stands s addr bs → Stands s desc ctx → Stands s raf file →
    tfind s.hub.contexts tag = none → s.liveCtx tag = false → r.waitev = 0 → r.sigev = 0 →
    let ok := r.levelsOk = true ∧ r.fieldsOk = true
    let fits := r.hopeless s.hub.levyFloor s.mostKib = false
    ∃ u, exec .launchRecordRead s = .next u ∧ (u.queue q).head = (s.queue q).head + 1 ∧
      (∃ x, tfind u.hub.contexts tag = some x ∧ x.desc = desc ∧ x.regions = (List.range 16).map (dwAt file)) ∧
      (¬ ok → StatusIs u addr 0x8001 ∧ u.hub.launches = s.hub.launches) ∧
      (ok → ¬ fits → StatusIs u addr 0x8002 ∧ u.hub.launches = s.hub.launches) ∧
      (ok → fits → StatusIs u addr 1 ∧ ∃ l, tfind u.hub.launches s.seq = some l ∧ l.record = r ∧ l.ctx = tag ∧ l.queue = some q ∧
        l.groups = r.groups ∧ l.placed = 0)) ∧
  (∀ (s s1 s2 s3 : State) (q tag : Nat) (bs vs : List Byte), s.hub.slabWait = [] → (s.queue q).waiting = true →
    (s.queue q).cfg.getLsbD 63 = true → s.hubLoad 0 (s.queue q).headAddr 128 = .ok (bs, s1) →
    s1.openCtx (((s.queue q).cfg.extractLsb' 0 46).toNat * 64) = .ok (tag, s2) → (recOf bs).waitev.toNat % 8 = 0 →
    s2.virtLoad tag (recOf bs).waitev.toNat 8 = .ok (vs, s3) →
    exec (.waitEventPoll q) s = .next (if (recOf bs).waitval.toNat ≤ leNat vs then
      s3.modQueue q fun y => { y with waiting := false, ready := true } else s3)) ∧
  (∀ (s : State) (id c v slot : Nat) (l : Launch), Placing s id l false → l.node = none → l.records = [] → s.hub.gangHold = [] →
    s.mateSaved id l l.placed = false → c < 512 → s.candidate id l l.placed c = true → s.levyAt c l.record.heat l.record.dem = some v →
    (∀ k, k < 512 → k ≠ c → s.candidate id l l.placed k = true → ∀ w, s.levyAt k l.record.heat l.record.dem = some w → v < w) →
    firstFree ((s.core c).slots.map (·.1)) 64 = some slot →
    let r := l.record
    ∃ u g, exec .groupPlace s = .next u ∧ u.group? c slot = some g ∧ g.ctx = l.ctx ∧ g.launch = id ∧ g.index = l.placed ∧ g.record = r ∧
      g.threads.length = r.threads ∧ (∀ t, t < r.threads → g.threads[t]? = some (starts r t)) ∧
      g.homes = List.replicate r.homeWaves r.waveBlocks ∧ (∀ n, n < 4 → g.sget n = r.sinit.getD n 0) ∧
      (∀ x i j, g.acc x i j = 0) ∧ g.tvec = 0 ∧ g.cv.timeout = 8192 ∧
      (r.spad ≠ 0 → ∃ a, tfind (u.core c).allocs slot = some a ∧ a.size = 1024 * r.spad ∧ a.ctx = l.ctx) ∧
      ∃ m, tfind u.hub.launches id = some m ∧ m.placed = l.placed + 1) ∧
  (∀ (s : State) (id : Nat) (l : Launch), s.hub.gangHold = [] →
    (Placing s id l false → s.choose id l l.placed = none → ∃ u, exec .groupPlace s = .next u ∧ u.cores = s.cores ∧
      u.hub.launches = [(id, { l with tried := true })]) ∧
    (s.hub.launches = [(id, l)] → l.tried = true → ∃ u v, exec .groupPlace s = .next u ∧ exec .gangPlace s = .next v ∧
      u.cores = s.cores ∧ v.cores = s.cores ∧ u.hub.launches = s.hub.launches ∧ v.hub.launches = s.hub.launches)) ∧
  (∀ (s : State) (id : Nat) (l : Launch), Placing s id l true →
    (∀ t, s.placeGang id l = some t → ∃ u m, exec .gangPlace s = .next u ∧ tfind u.hub.launches id = some m ∧
      m.placed = l.groups ∧ id ∉ u.hub.gangHold ∧ u.cores = t.cores) ∧
    (s.placeGang id l = none → ∃ u, exec .gangPlace s = .next u ∧ id ∈ u.hub.gangHold ∧ u.cores = s.cores ∧
      u.hub.launches = [(id, { l with tried := true })])) ∧
  (∀ (s : State) (c slot : Nat) (g : Group) (l : Launch), s.group? c slot = some g → tfind s.hub.launches g.launch = some l →
    s.hub.preempt = none →
    (g.finished = false ∨ s.groupBusy c slot = true → exec (.groupEnd c slot) s = .next s) ∧
    (g.finished = true → s.groupBusy c slot = false → s.hub.slabWait = [] → ∃ u, exec (.groupEnd c slot) s = .next u ∧
      u.group? c slot = none ∧
      tfind (u.core c).allocs slot = none ∧ (∀ a ∈ (u.core c).accs, a.slot ≠ slot) ∧
      tfind u.hub.launches g.launch =
        some { l with ended := g.index :: l.ended, exited := if g.stopped.isNone then g.index :: l.exited else l.exited
                      tried := false })) ∧
  ∀ (s : State) (id : Nat) (l : Launch), tfind s.hub.launches id = some l → l.halted = false →
    let clean := ∀ c ∈ l.ran, (∀ x ∈ (s.core c).l1, x.excl = true ∨ x.dirty = 0) ∧ s.writeBacksOpen c = false
    (l.ended.length < l.groups → exec (.launchComplete id) s = .next s) ∧
    (l.groups ≤ l.ended.length → clean → s.hub.slabWait = [] → l.node = none → l.record.sigev = 0 → Writable s l.addr.toNat →
      ∃ u, exec (.launchComplete id) s = .next u ∧ StatusIs u l.addr.toNat (l.stop.getD 2) ∧ tfind u.hub.launches id = none) ∧
    ∀ c x, l.groups ≤ l.ended.length → l.ran = [c] → (s.core c).l1 = [x] → x.excl = false → x.dirty ≠ 0 → x.poison = 0 →
      ∃ u, exec (.launchComplete id) s = .next u ∧ (u.core c).l1 = [{ x with dirty := 0 }] ∧
        u.net = s.net ++ [(s.seq, .writeBack c x.pa x.key x.dirty x.bytes)] ∧ tfind u.hub.launches id = some l

namespace Sys2Proof.Claims

/-! ## Heat and power -/

/-- The refresh band that a reading t calls for in band b: up at once past a threshold of 85, 95 or 105 °C, down by one at 2 °C below
the band's own (R20). Readings are in quarters of a degree. -/
def bandFor (b : Nat) (t : Int) : Nat :=
  let up := if 420 < t then 3 else if 380 < t then 2 else if 340 < t then 1 else 0
  let entry : Int := if b = 3 then 420 else if b = 2 then 380 else 340
  if b < up then up else if 0 < b ∧ t ≤ entry - 8 then b - 1 else b

/-- An account charged with energy: the context is held once it has spent its quota (R243, R244). -/
def charged (x : Ctx) (nj : Nat) : Ctx :=
  { x with spent := x.spent + nj, held := x.held || (x.period != 0 && decide (x.energy ≤ x.spent + nj)) }

/-- The energy of an interval that goes to one context: a core's whose one group has issued, a job's, the memory's where one context has
requested bytes, or a die's filler operations that one context's fall called for (R243, R422). -/
def EnergyOf (s : State) (ctx nj : Nat) : Prop :=
  nj ≠ 0 ∧
  ((∃ c slot g, s.outside.energy = ⟨[(c, nj)], [], 0, []⟩ ∧ (s.core c).slots = [(slot, g)] ∧ g.ctx = ctx ∧ g.used ≠ 0) ∨
  (∃ k j, s.outside.energy = ⟨[], [(k, j.ticket, nj)], 0, []⟩ ∧ (s.cluster k).jobs = [j] ∧ (s.cluster k).past = [] ∧ j.ctx = ctx) ∨
  (s.outside.energy = ⟨[], [], nj, []⟩ ∧ (∃ x, tfind s.hub.contexts ctx = some x ∧ x.bytes ≠ 0) ∧
    ∀ e ∈ s.hub.contexts, e.1 ≠ ctx → e.2.bytes = 0) ∨
  ∃ d fall, s.outside.energy = ⟨[], [], 0, [(d, nj)]⟩ ∧ (s.die d).filler = true ∧ (s.die d).fillCtx = [(ctx, fall)] ∧ fall ≠ 0)

end Sys2Proof.Claims

/-- A sample sets a vault's TEMP, its band to come and its cores' throttle, past 125 °C the die trips: its contexts end with 0x8005, its
cores and its memory are lost, and DIE_RESTORE brings it back with its lines poisoned. A band takes effect at its boundary, a scrub
finds errors, counts and poisons, and a report sets T_b, charges the levies and lets what waits for a place try again (R18 to R25, R218,
R220). The rounding of the levies and what a trip leaves of the units that R23 does not name are the model's reading (DEDUCED, log
entries 59 and 71). -/
def Obligations.Heat : Prop :=
  (∀ (s : State) (v : Nat) (t : Int), v < 256 → (s.die (v / 64)).powered = true →
    let x := s.vault v
    let d := v / 64
    (t ≤ 500 → ∃ u, exec (.tempSample v t) s = .next u ∧ (u.vault v).temp = t ∧ (u.vault v).band = x.band ∧
      (u.vault v).pending = (if bandFor (x.pending.getD x.band) t = x.band then none else some (bandFor (x.pending.getD x.band) t)) ∧
      (u.core (2 * v)).hot = (if 460 < t then true else if t ≤ 440 then false else (s.core (2 * v)).hot) ∧ SameBytes s u) ∧
    (500 < t → ∃ u, exec (.tempSample v t) s = .next u ∧ (u.die d).powered = false ∧ (∀ c, dieOf c = d → u.core c = Core.reset) ∧
      (∀ cell, onDie d cell = true → tfind u.memory.cells cell = none) ∧
      ∀ id l, tfind s.hub.launches id = some l → l.ctx ∈ s.ctxsOn d → tfind u.hub.launches id =
        some { l with groups := l.placed, stop := some (BitVec.ofNat 64 (d * 65536 + 0x8005)) })) ∧
  (∀ (s : State) (v : Nat), ((s.vault v).pending = none → exec (.bandChange v) s = .next s) ∧
    ∀ b, (s.vault v).pending = some b → ∃ u, exec (.bandChange v) s = .next u ∧
      u.vault v = { s.vault v with band := b, pending := none }) ∧
  (∀ (s : State) (v n k : Nat), v < 256 →
    ((s.die (v / 64)).powered = false → exec (.patrolScrub v n [k]) s = .next s) ∧
    ((s.die (v / 64)).powered = true → s.errors = [] → 64 * k < 0xC0000000 → ∃ u, exec (.patrolScrub v n [k]) s = .next u ∧
      (u.vault v).errors = (s.vault v).errors + n ∧ (u.side ((v * 0x100000000 + 64 * k) / 256)).poison.getLsbD (k % 4) = true)) ∧
  (∀ (s : State) (v sector n : Nat) (bad : Bool), v < 256 → (s.die (v / 64)).powered = true → 64 * sector < farCell →
    vaultOf (64 * sector) = v → s.errors = [(sector, (n, bad))] → ∃ u, exec (.patrolScrub v 0 []) s = .next u ∧ u.errors = [] ∧
      (u.vault v).errors = (s.vault v).errors + n ∧ (bad = true → (u.side (sector / 4)).poison.getLsbD (sector % 4) = true)) ∧
  (∀ (s : State) (d : Nat) (t : Int), s.outside.baseTemp = [(d, t)] → d < 4 → ∃ u, exec .baseTempReport s = .next u ∧
    (u.die d).tb = t ∧ (u.die d).tbKnown = true ∧ (∀ e, e ≠ d → u.die e = s.die e) ∧ (∀ l ∈ u.hub.launches, l.2.tried = false) ∧
    ∀ ctx x, tfind s.hub.contexts ctx = some x → ∃ y, tfind u.hub.contexts ctx = some y ∧
      y.account = min (x.account + ((u.groupsOf ctx).map (fun e => u.groupLevy e.1 e.2)).sum * 16384 / 1000) (2 ^ 64 - 1)) ∧
  ∀ s : State, let d := s.outside.die
    let can := d < 4 ∧ s.hub.recovery = false ∧ (s.die d).powered = false ∧ (s.die d).tb < 340
    (¬ can → exec .dieRestore s = .next s) ∧
    (can → ∃ u, exec .dieRestore s = .next u ∧ (u.die d).powered = true ∧ u.hub.msix = s.hub.msix ++ [7] ∧
      (∀ c, dieOf c = d → ∃ ct, u.core c = { Core.reset with ct := ct } ∧ ∀ k, dieOf k ≠ d → (s.core k).ct.toNat ≤ ct.toNat) ∧
      ∀ cell, onDie d cell = true → tfind u.memory.cells cell = none ∧ (u.side (cell / 256)).poison = 0xF)

/-- An exchange puts PCAP and PFLOOR into effect and gives each die its grant and its pace: without partitions each die its demand, or a
share of what there is in proportion; a large communicator's skew takes a tenth at most of a die's grant, and gives. Energy is charged to
accounts, a core's by the opportunities that its groups used, the memory's by the bytes that contexts requested, and filler energy to the
contexts whose fall caused it and whose groups ended or are held; a period's boundary relieves an account; the idle floor is measured
(R243, R244, R417 to R423).
Where the remainders of a split go, when a skew takes effect and how a period is counted are the model's (DEDUCED, log entry 61; DESIGN
CHOICE, log entries 60 and 63). -/
def Obligations.Power : Prop :=
  (∀ s : State, let m := s.outside.meters
    ∃ u, exec .tokenExchange s = .next u ∧ u.hub.pcap = s.hub.pcapReg ∧ u.hub.pcapNext = none ∧ u.hub.hpwr = m.hubPower ∧
      u.hub.pstat = m.pkgPower ∧ (∀ p, p < 8 → tget 0 u.hub.pfloor p = s.hub.pfloorReg p) ∧
      (∀ d, d < 4 → let G := (u.die d).grant
        (u.die d).power = m.diePower.getD d 0 ∧ (u.die d).pace =
          if G < m.diePower.getD d 0 then max 1 ((s.die d).pace * G / m.diePower.getD d 0) else min 8 ((s.die d).pace + 1)) ∧
      ((∀ p, tget 0 s.hub.pmap p = 0) → m.hubPower ≤ max s.hub.pcapReg s.hub.idle →
        let given := fun (d n : Nat) => n - min (s.die d).cut (n / 10) + (s.die d).raised
        let all := max s.hub.pcapReg s.hub.idle - m.hubPower
        let want := fun d => m.dieDemand.getD d 0
        let sum := want 0 + want 1 + want 2 + want 3
        (sum ≤ all → ∀ d, d < 4 → (u.die d).grant = given d (want d)) ∧
        (all < sum → ∃ part : Nat → Nat, part 0 + part 1 + part 2 + part 3 = all ∧ ∀ d, d < 4 →
          all * want d / sum ≤ part d ∧ part d ≤ all * want d / sum + 1 ∧ (u.die d).grant = given d (part d)))) ∧
  (∀ (s : State) (ctx nj : Nat) (x : Ctx), EnergyOf s ctx nj → tfind s.hub.contexts ctx = some x →
    ∃ u, exec .energyCharge s = .next u ∧ tfind u.hub.contexts ctx = some (charged { x with bytes := 0 } nj) ∧
      ∀ k, k ≠ ctx → tfind u.hub.contexts k = (tfind s.hub.contexts k).map fun y => { y with bytes := 0 }) ∧
  (∀ (s : State) (c a b nj : Nat) (g h : Group) (x y : Ctx), s.outside.energy = ⟨[(c, nj)], [], 0, []⟩ → nj ≠ 0 →
    (s.core c).slots = [(a, g), (b, h)] → g.ctx ≠ h.ctx →
    tfind s.hub.contexts g.ctx = some x → tfind s.hub.contexts h.ctx = some y →
    let part := nj * h.used / (g.used + h.used)
    ∃ u, exec .energyCharge s = .next u ∧
      tfind u.hub.contexts g.ctx =
        some (if g.used = 0 then { x with bytes := 0 } else charged { x with bytes := 0 } (nj - part)) ∧
      tfind u.hub.contexts h.ctx = some (if h.used = 0 then { y with bytes := 0 } else charged { y with bytes := 0 } part) ∧
      (u.core c).slots = [(a, { g with used := 0 }), (b, { h with used := 0 })]) ∧
  (∀ (s : State) (ctx : Nat) (x : Ctx), tfind s.hub.contexts ctx = some x →
    (x.period = 0 ∨ s.hub.cycles < x.boundary → exec (.quotaPeriodBoundary ctx) s = .next s) ∧
    (x.period ≠ 0 → x.boundary ≤ s.hub.cycles → ∃ u, exec (.quotaPeriodBoundary ctx) s = .next u ∧
      tfind u.hub.contexts ctx = some { x with
        spent := x.spent - x.energy, held := x.held && decide (x.energy ≤ x.spent - x.energy)
        boundary := x.boundary + 1000 * x.period })) ∧
  (∀ s : State, ∃ u, exec .idleFloorMeasure s = .next u ∧ u.hub.idle = s.outside.idle ∧
    u.hub.unatt = (s.hub.unatt || decide (s.hub.pcapReg < s.outside.idle)) ∧ SameBytes s u) ∧
  (∀ (s s1 : State) (d w : Nat), s.outside.early = [(d, w)] → d < 4 → s.hub.slabWait = [] →
    (s.largeComm = (false, s1) → exec .arrivalSkewRebalance s = .next s1) ∧
    (s.largeComm = (true, s1) → ∃ u, exec .arrivalSkewRebalance s = .next u ∧ ∀ e, e < 4 →
      u.die e = { s1.die e with cut := if e = d then w else 0, raised := s.outside.late.getD e 0 })) ∧
  ∀ (s : State) (d ctx fall energy : Nat) (x : Ctx), d < 4 → tfind s.hub.contexts ctx = some x →
    ((s.die d).powered = false → exec (.fillerIssue d [(ctx, fall)]) s = .next s) ∧
    ((s.die d).filler = false → exec (.fillerSettled d energy) s = .next s) ∧
    ((s.die d).powered = true → ∃ u, exec (.fillerIssue d [(ctx, fall)]) s = .next u ∧ u.cores = s.cores ∧ u.memory = s.memory ∧
      u.die d = { s.die d with
        filler := true, leavers := []
        fillCtx := (s.die d).fillCtx ++
          if ctx ∈ (s.die d).leavers ∨ (x.held = true ∧ ∃ e ∈ s.groupsOf ctx, dieOf e.1 = d) then [(ctx, fall)] else [] }) ∧
    ((s.die d).filler = true → (s.die d).fillCtx = [(ctx, fall)] → fall ≠ 0 → energy ≠ 0 → ∃ u, exec (.fillerSettled d energy) s = .next u ∧
      (u.die d).filler = false ∧ tfind u.hub.contexts ctx = some (charged x energy))

namespace Sys2Proof.Claims

/-! ## Registers of the hub and links -/

/-- The bits that a host's write leaves in a register of the hub that is written whole and does nothing else (R212, R427 to R431). -/
def keptBits (off : Nat) : Option Dword :=
  if off < 0x800 then (if off % 0x20 = 8 then some 0xFFFFFFFFFF000 else if off % 0x20 = 16 then some 0xFFFFFFFF else none)
  else if off = 0x1008 then some 0xFFFFFFFE00000
  else if off = 0x1100 then some 0x7F
  else if 0x1200 ≤ off ∧ off < 0x1240 ∧ off % 8 = 0 then some 0xFFFFFFFF
  else if 0x1300 ≤ off ∧ off < 0x1320 ∧ off % 8 = 0 then some 0x8000000000000FFF
  else if off = 0x1340 then some 0x7F
  else if off = 0x1400 then some 0x800FFFFFFFFFF000
  else if 0x4000 ≤ off ∧ off < 0x6000 ∧ off % 8 = 0 then some 0xFFFFFFFFFFFFFFFF
  else none

/-- A line lies behind CXL port p (R26). -/
def Behind (s : State) (p pa : Nat) : Prop := ∃ cell, s.homeCell pa = some cell ∧ farCell ≤ cell ∧ s.portOf cell = some p

/-- A job after a link went down: a collective between packages that is under way is to end with 0x800C (R437, R442). -/
def cutJob (j : Job) : Job :=
  if j.started = true ∧ j.card.op = 2 ∧ 2 ≤ j.nrank ∧ j.fault = none ∧ (j.done < j.total ∨ j.gaps ≠ []) then { j with fault := some 0x0C }
  else j

/-- QHEAD, PRESTAT, FABID and FQTAIL, which no write changes. -/
def readOnly (off : Nat) : Bool :=
  off < 0x800 && off % 0x20 == 24 || off == 0x1010 || off == 0x1408 || 0x2000 ≤ off && off < 0x2100 && off % 0x40 == 8

end Sys2Proof.Claims

/-- A host's write of a register of the hub leaves its own bits there and every other register as it was, and a register that is read
only stays. A CXL link that is down loses its lines, and what cores and engines had under way there ends; one that is up again starts with
memory initialised. A flit is taken in its order on its link; one that fails its tag is dropped, the 16th in a row takes its link down,
which ends the collectives under way, and retraining brings it up. A request for attestation is answered in the mailbox with the nonce,
the measurements, the rollback counter, the fabric id and a signature; a measurement is extended by SHA3-512. The host's read of a device
register answers with its 8 bytes, one of other size or alignment with all ones; Benuino answers for a vault with what LEVYQ.vault reads,
unless the package is in recovery, and tells its status in any case. Soft errors that strike a stored sector stand there until they are
found, beside those that stand there already (R18, R24, R28, R81, R105, R426 to R430, R434, R437 to R439, R442, R447).
What a link's end does to accesses under way and that a retrained CXL link's lines lose their poison and their times (DEDUCED, log entries
44 and 62), how flits are numbered (DEDUCED, log entry 64), that the host's questions and soft errors are moves, the mailbox's form and
what comes from outside (DESIGN CHOICE, log entries 63 and 79), and SHA3-512 itself (PRESUMED, log entry 82) are the model's. -/
def Obligations.HubAndLinks : Prop :=
  (∀ (s : State) (off : Nat) (v : Dword),
    (∀ m, keptBits off = some m → ∃ u, exec (.registerWrite off v) s = .next u ∧ u.hubRead off = v &&& m ∧
      ∀ k, k ≠ off → u.hubRead k = s.hubRead k) ∧
    (readOnly off = true ∨ off % 8 ≠ 0 → exec (.registerWrite off v) s = .next s)) ∧
  (∀ (s : State) (k : Nat) (v : Dword), ∃ u, exec (.supctxWrite k v) s = .next u ∧
    tget 0 u.hub.supctx k = v &&& 0x8000000000000FFF ∧ ∀ n, n ≠ k → tget 0 u.hub.supctx n = tget 0 s.hub.supctx n) ∧
  (∀ (s : State) (p : Nat), p < 4 →
    (tget true s.hub.ports p = false → exec (.cxlLinkDown p) s = .next s) ∧
    (tget true s.hub.ports p = true → exec (.cxlLinkUp p) s = .next s ∧ ∃ u, exec (.cxlLinkDown p) s = .next u ∧
      u.hub.msix = s.hub.msix ++ [6] ∧ (∀ cell, farCell ≤ cell → u.portOf cell = some p → u.lost cell = true) ∧
      (∀ c, ∀ a ∈ (u.core c).accs, Behind s p a.pa → a.phase = .logged ∨ a.phase = .walk ∨ a.phase = .parked ∨ a.phase = .held) ∧
      ∀ k, ∀ j ∈ (u.cluster k).jobs, ∀ l ∈ j.lines, Behind s p l.pa → l.got ≠ none) ∧
    (tget true s.hub.ports p = false → ∃ u, exec (.cxlLinkUp p) s = .next u ∧ u.hub.msix = s.hub.msix ++ [6] ∧
      tget true u.hub.ports p = true ∧ ∀ cell, tfind u.memory.cells cell =
        (if farCell ≤ cell / 256 * 256 ∧ s.portOf (cell / 256 * 256) = some p then none else tfind s.memory.cells cell) ∧
        ∀ v, ∀ e ∈ (u.vault v).farTs, farCell ≤ 256 * e.1 → s.portOf (256 * e.1) = some p → e.2 = (0, 0))) ∧
  (∀ (s : State) (n comm rank : Nat) (bs : List Byte), n < 16 →
    let l := s.link n
    (∀ (f : Flit) (ok : Bool), l.up = false → exec (.ulukarFlitReceive n ok f) s = .next s) ∧
    (∀ f : Flit, l.up = true →
      (f.header = l.next → f.body = .contribution comm rank bs → s.hub.slabWait = [] →
        ∃ u, exec (.ulukarFlitReceive n true f) s = .next u ∧ u.link n = { l with fails := 0, next := l.next + 1 } ∧
          u.hub.shares = s.hub.shares ++ [(comm, rank, bs)]) ∧
      (f.header ≠ l.next → ∃ u, exec (.ulukarFlitReceive n true f) s = .next u ∧ u.link n = { l with fails := 0 } ∧
        u.hub.shares = s.hub.shares) ∧
      ∃ u, exec (.ulukarFlitReceive n false f) s = .next u ∧
        u.link n = { l with up := decide (l.fails + 1 < 16), fails := l.fails + 1 } ∧ u.hub.shares = s.hub.shares ∧
        ∀ k, (u.cluster k).jobs = if l.fails + 1 < 16 then (s.cluster k).jobs else (s.cluster k).jobs.map cutJob) ∧
    ∃ u, exec (.ulukarLinkRetrain n) s = .next u ∧ u.link n = { up := true, fails := 0 } ∧ u.memory = s.memory) ∧
  (∀ s : State, (s.hub.recovery = true → exec .attestationRequest s = .next s) ∧
    (s.hub.recovery = false → (s.hub.mailbox.take 64).length = 64 → ∃ u r, exec .attestationRequest s = .next u ∧
      u.hub.mailbox = mailboxPut s.hub.mailbox 0x800 r ∧ u.hub.msix = s.hub.msix ++ [7] ∧ r.length = 592 + 4627 ∧
      r.take 64 = s.hub.mailbox.take 64 ∧
      (∀ k, k < 8 → (r.drop (64 + 64 * k)).take 64 = leBytes 64 (tget 0 s.hub.measures k).toNat) ∧
      (r.drop 576).take 8 = leBytes 8 Config.rollback.toNat ∧ (r.drop 584).take 8 = leBytes 8 s.hub.fabid.toNat)) ∧
  (∀ (s : State) (k : Nat) (d : BitVec 512), s.outside.reset.digests = [(k, d)] → k < 8 → ∃ u, exec .reset s = .next u ∧
    leBytes 64 (tget 0 u.hub.measures k).toNat = sha3 (List.replicate 64 0 ++ leBytes 64 d.toNat)) ∧
  (∀ (s : State) (rest : List Move) (sector n : Nat) (bad : Bool), s.agenda = .strike sector n bad :: rest → s.hub.slabWait = [] →
    ∃ u, step s = .next u ∧ tfind u.errors sector = some (match tfind s.errors sector with
        | some x => (x.1 + n, x.2 || bad)
        | none => (n, bad)) ∧
      (∀ k, k ≠ sector → tfind u.errors k = tfind s.errors k) ∧ u.memory = s.memory ∧ u.hub = s.hub ∧ u.vaults = s.vaults) ∧
  (∀ (s : State) (rest : List Move) (off size : Nat), s.agenda = .ask (.register off size) :: rest → s.hub.slabWait = [] →
    ∃ u, step s = .next u ∧ u.memory = s.memory ∧ u.hub = { s.hub with replies := s.hub.replies ++
      [if size = 8 ∧ off % 8 = 0 then leBytes 8 (s.hubRead off).toNat else List.replicate size 0xFF] }) ∧
  (∀ (s : State) (rest : List Move) (v : Nat), s.agenda = .ask (.vault v) :: rest → v < 256 → s.hub.slabWait = [] →
    ∃ u, step s = .next u ∧ u.memory = s.memory ∧ (s.hub.recovery = true → u.hub = s.hub) ∧
      (s.hub.recovery = false → u.hub.mailbox = mailboxPut s.hub.mailbox 0x800 (leBytes 8 (s.vaultWord v)) ∧
        u.hub.msix = s.hub.msix ++ [7])) ∧
  ∀ (s : State) (rest : List Move), s.agenda = .ask .status :: rest → s.hub.slabWait = [] → ∃ u, step s = .next u ∧
    u.hub.mailbox = mailboxPut s.hub.mailbox 0x800 (leBytes 8 (if s.hub.recovery then 1 else 0)) ∧ u.hub.msix = s.hub.msix ++ [7]


namespace Sys2Proof.Claims

/-! ## Encoding, steps, reset and leases -/

/-- The bytes of words as they lie in memory. -/
def laid (ws : List Word) : List Byte := ws.flatMap wordBytes

/-- Words decode to i, and i takes all of them. -/
def Decodes (ws : List Word) (i : Instr) : Prop := decode (laid ws) = .ok (i, ws.length)

/-- What the decoder reads from an instruction's words: MBOX is one encoding with four rows, and A tells PWRWR's registers apart. -/
def spelled (i : Instr) : Instr :=
  match i with
  | .keyDraw o | .keyLoadWrapped o | .keyClear o => .slabModeChange o
  | .pwrwrPcap o | .pwrwrPfloor o => if 8 ≤ o.a.toNat ∧ o.a.toNat ≤ 15 then .pwrwrPfloor o else .pwrwrPcap o
  | _ => i

/-- The state in which a quadrant takes the opportunity that the schedule names next: the opportunity is taken from the schedule and
counted, and the quadrant's blocks are read. -/
def atOpportunity (s : State) (rest : List Move) (c q : Nat) : State :=
  (({ s.tidy with agenda := rest } : State).countChance c q).fetchReads c q

/-- No error stands and no line is owned: a read of code or of a constant then changes nothing (R18, R93). -/
def Calm (s : State) : Prop := s.errors = [] ∧ ∀ e ∈ s.vaults, e.2.excls = []

/-- What an issue leaves as it was before its instruction acts: everything but the core's own counts of its issues, and the translations
that it has used, which the core's and its cluster's TLBs hold (R42). -/
structure Untouched (s u : State) (rest : List Move) (c : Nat) : Prop where
  memory   : u.memory = s.memory
  errors   : u.errors = s.errors
  hub      : u.hub = s.hub
  dies     : u.dies = s.dies
  vaults   : u.vaults = s.vaults
  clusters : ∀ k, u.cluster k = { s.cluster k with tlb := (u.cluster k).tlb } ∧ (k ≠ clusterOf c → u.cluster k = s.cluster k)
  net      : u.net = s.net
  outside  : u.outside = s.outside
  free     : u.free = s.free
  seq      : u.seq = s.seq
  agenda   : u.agenda = rest
  core     : u.core c = { s.core c with
    slots := (u.core c).slots, chances := (u.core c).chances, rr := (u.core c).rr, tlb := (u.core c).tlb }
  cores    : ∀ d, d ≠ c → u.core d = s.core d

/-- The length of lease that a hint asks for (R84). -/
def lengthOf (hint : Nat) : Nat := if hint = 4 then 256 else if hint = 5 then 0 else 16

/-- The values of R433 with a fabric id. -/
structure AtReset (u : State) (fabid : BitVec 12) : Prop where
  registers : ∀ off, off < 0x2100 → u.hubRead off = if off = 0x1100 then 40 else if off = 0x1408 then fabid.setWidth 64 else 0
  unread    : exec .launchRecordRead u = .next u
  floor     : u.hub.levyFloor = 40
  noParts   : ∀ k, u.hub.partitionOf k = none
  cap       : u.powerReg 0 = some 1200
  floors    : ∀ p, p < 8 → u.powerReg (8 + p) = some 0
  pace      : ∀ d, (u.die d).pace = 8
  noSuper   : ∀ ctx, u.supervisor ctx = false
  noComm    : ∀ ctx comm, (u.commEntry ctx comm).1 = none
  drawn     : u.keyLoaded 0 = true
  empty     : ∀ (r : Region) (core : Nat) (e : TlbEnt) (va : Dword) (acc : Nat) (priv : Bool), e.key ≠ 0 →
    r.state ≠ 2 → isHub (e.pa r va) = false → u.checkLeaf r core e va acc priv = some 0x0C
  slabs     : u.hub.slabs = []
  bands     : ∀ v, (u.vault v).band = 0 ∧ (u.vault v).temp = 0
  base      : ∀ d, (u.die d).tb = 0

end Sys2Proof.Claims

/-- Words written out from the spec's encodings decode to the instructions they stand for (R248 to R269, and the worked words of
chapters 14 to 24). -/
def Obligations.DecodedWords : Prop :=
  Decodes [0x03030001, 0x02000001] (.iadd { blankOp with d := 3, a := 3, b := 1, imm := true }) ∧
  Decodes [0x06050002, 0x0402A107, 0x00200000] (.iadd { blankOp with
    form := .w96, d := 5, a := 6, b := 7, pg0 := 1, pg1 := 2, n1 := true, gm := 2, m := 1, w1 := 0x00200000 }) ∧
  Decodes [0x0322005D, 0x02000064] (.icmp { blankOp with d := 0x22, a := 3, b := 0x64, imm := true }) ∧
  Decodes [0x0404820E, 0x00000005, 0x00000006] (.ffma { blankOp with form := .w96, fn := 8, d := 4, a := 4, b := 5, w1 := 6 }) ∧
  Decodes [0x0809A231, 0x00000007] (.hmul2 { blankOp with fn := 0xA, d := 9, a := 8, b := 7 }) ∧
  Decodes [0x00041401, 0x00000007] (.mov { blankOp with fn := 1, d := 4, b := 7 }) ∧
  Decodes [0x00010411, 0x0000000D] (.idx { blankOp with d := 1, b := 0xD }) ∧
  Decodes [0x02039601, 0x00000018] (.cvt { blankOp with fn := 9, d := 3, a := 2, b := 0x18 }) ∧
  Decodes [0x0201170B, 0x00000028, 0x00928B08, 0] (.mmaDescriptor { blankOp with
    form := .w128, fn := 1, d := 1, a := 2, b := 0x28, w1 := 0x00928B08 }) ∧
  Decodes [0x02081802, 0x020C0000, 0x00000040] (.ld { blankOp with
    form := .w96, fn := 1, d := 8, a := 2, h := 3, imm := true, w1 := 0x40 }) ∧
  Decodes [0x0309180D, 0x02000080] (.sts { blankOp with fn := 1, d := 9, a := 3, b := 0x80, imm := true }) ∧
  Decodes [0x02000B01, 0x00000003] (.cvjoin { blankOp with a := 2, b := 3 }) ∧
  Decodes [0xFFFB0C02, 0x000103FF, 0x00110010] (.bra { blankOp with
    form := .w96, d := 0xFB, a := 0xFF, b := 0xFF, pg0 := 3, gm := 1, w1 := 0x00110010 }) ∧
  Decodes [0x04000C15, 0] (.ret { blankOp with a := 4 }) ∧
  Decodes [0x00000F01, 0] (.nop 0x3C0 blankOp) ∧
  Decodes [0] (.unassignedOpcode 0 [])

/-- A word of a well-formed instruction decodes to it, whatever follows it, and the decoder takes all of it; and whatever decodes is
well-formed, and its encoding is the bytes that were read: every field of every form, the reserved words and the no-operations
included (R248 to R251, R268, R269). -/
def Obligations.EncodeDecode : Prop :=
  (∀ (i : Instr) (rest : List Byte), i.wf = true → encode i ≠ [] →
    decode (encodeBytes i ++ rest) = .ok (spelled i, (encode i).length)) ∧
  ∀ (bs : List Byte) (i : Instr) (n : Nat), decode bs = .ok (i, n) → encodeBytes i = bs.take (4 * n) ∧ i.wf = true

/-- At a quadrant's opportunity a thread alone on its core that waits for nothing runs the instruction that the bytes at its PC decode
to: the step is exec of it, with the instruction after it next, and, where no error stands and no line is owned, nothing else has changed.
Whatever wave issues, each of its threads stands at the instruction's PC, whose bytes decode to it. A step of another agent that the
schedule names is exec of it. A step first forgets the ages of entries that have gone, and a slab change that no thread waits for; while no
such change waits it forgets nothing else (R15, R185): so what is said of the state before an instruction is said of what that leaves. -/
def Obligations.StepRunsDecoded : Prop :=
  (∀ s : State, s.hub.slabWait = [] →
    (∀ c slot g, s.group? c slot = some g → ∃ l, s.tidy.group? c slot = some { g with ages := l } ∧ ∀ a ∈ l, a ∈ g.ages) ∧
    s.tidy.hub = s.hub ∧ s.tidy.memory = s.memory ∧ ∀ c, s.tidy.core c = { s.core c with slots := (s.tidy.core c).slots }) ∧
  (∀ (s : State) (rest : List Move) (c q slot : Nat) (g : Group) (th : Thread) (bs : List Byte) (i0 : Instr) (o : Op) (n : Nat),
    s.agenda = .issue c q :: rest → Calm s.tidy → c < 512 → q < 4 → s.tidy.opportunity c q = true →
    (s.tidy.core c).slots = [(slot, g)] → g.threads = [th] → th.live = true → th.wait = none → th.fresh = false → g.quad % 4 = q →
    let s0 := atOpportunity s rest c q
    s0.mayIssue c g = true → s0.parked c slot 0 = false → s0.fetching c slot 0 = false →
    s0.look c g.ctx th.pc th.handler = .bytes bs →
    let p := th.pc.toNat / 4 % 8
    lenWords (wordAt bs p) = n → n ≠ 0 → p + n ≤ 8 → decode (bs.drop (4 * p)) = .ok (i0, n) →
    let i := refine g [0] i0
    let L : Lane := { s := s0, c := c, slot := slot, g := g, wave := [0], tid := 0, th := th, o := o }
    fieldsOf i = some o → L.walkFor i = none → L.ready i = true →
    ∃ u h, step s = exec i u ∧ u.cur = ⟨c, slot, q, th.pc, th.prio, nextPc bs th.pc n, [0], s.cur.late⟩ ∧
      u.group? c slot = some h ∧ { h with ages := g.ages, raises := g.raises, passed := g.passed, used := g.used } = g ∧
      h.used = g.used + 1 ∧ Untouched s.tidy u rest c) ∧
  (∀ (s : State) (rest : List Move) (c q slot : Nat) (e : BitVec 16 × Dword) (i : Instr) (next : Dword) (wave : List Nat),
    s.agenda = .issue c q :: rest → c < 512 → q < 4 → s.tidy.opportunity c q = true →
    let s0 := atOpportunity s rest c q
    s0.plan c q = some (slot, e, .run i next wave) →
    ∃ u g bs i0 n priv ts, step s = exec i u ∧ u.cur = ⟨c, slot, q, e.2, e.1, next, wave, s0.cur.late⟩ ∧ (slot, g) ∈ (s0.core c).slots ∧
      (∀ t ∈ wave, ∃ th, g.threads[t]? = some th ∧ th.live = true ∧ th.pc = e.2 ∧ th.prio = e.1) ∧
      s0.look c g.ctx e.2 priv = .bytes bs ∧ decode (bs.drop (4 * (e.2.toNat / 4 % 8))) = .ok (i0, n) ∧ i = refine g ts i0 ∧
      (Calm s.tidy → Untouched s.tidy u rest c)) ∧
  ∀ (s : State) (rest : List Move) (i : Instr), s.agenda = .event i :: rest → isEvent i = true → i.wf = true →
    step s = exec i { s.tidy with agenda := rest }

/-- Every step keeps the invariant: after it memory still stands in its canonical form, whatever moves.
The canonical form is the model's own (DESIGN CHOICE, log entry 9). -/
def Obligations.StepKeepsInvariant : Prop := ∀ s t : State, s.Inv → step s = .next t → t.Inv

/-- The state at reset has the invariant.
The canonical form is the model's own (DESIGN CHOICE, log entry 9). -/
def Obligations.ResetInvariant : Prop := State.reset.Inv

/-- "At reset the hub registers, the key slots and the slab mode table hold the values below" (R433): so they do in the state that a
run begins from, with fabric id 1, and in the state after a reset from any state, with the fabric id that the boot sets and a key
drawn anew in slot 0. -/
def Obligations.ResetValues : Prop :=
  AtReset State.reset 1 ∧
  ∀ s : State, ∃ u, exec .reset s = .next u ∧ AtReset u (if s.outside.reset.fabid = 0 then 1 else s.outside.reset.fabid) ∧
    tfind u.hub.keys 0 = some s.hub.keyGen ∧ s.hub.keyGen < u.hub.keyGen

/-- "A read asks for a lease whose length depends on its hint" (R84): 16 for hints 0 to 3 and for the ignored values, 256 for 4, 0 for
5. A load whose copy's lease has run out asks for it in its renewal; for a line that is read, home fixes one lease for the requesters
listed, the longest length asked from the latest of their times and the line's own (R53, R85 to R87). -/
def Obligations.LeaseLengths : Prop :=
  (∀ (o : Op) (r : Request) (s : State) (t : Nat) (L : Lane) (e : TlbEnt) (x : L1Line), memRow (.ld o) = some r →
    Requests s (.ld o) r t L → Reaches s L (r.acc L) e → o.form ≠ .w64 ∨ o.imm = false →
    let a := translated s L (r.acc L) e
    let ct := (s.core L.c).ct
    let hint := fun h => if (s.core L.c).mask = 0xFFFF then 1 else h
    a.state = 0 → (s.core L.c).line? a.pa a.key = some x → x.rts.toNat < (maxD ct x.wts).toNat →
    ∃ u n, exec (.ld o) s = .next u ∧ u.thread? L.c L.slot t = some (after s (L.th.drainAll a.dest a.count)) ∧
      (u.core L.c).accs = [{ a with phase := .renew, hint := hint a.hint }] ∧ SameBytes s u ∧
      u.net = s.net ++ [(n, .renew L.c a.id a.pa a.key (some x.wts) ct (lengthOf (hint o.h.toNat)))]) ∧
  ∀ (s : State) (cell : Nat) (y : Umbra) (e : Ecc) (w r c : Dword),
    (s.vault (vaultOf cell)).umbras = [y] → y.left = none → y.waits = false → s.homeCell y.pa = some cell → cell < farCell →
    s.lost cell = false → Sound s cell → Timed s cell w r → (∀ q ∈ y.reqs, q.ct.toNat ≤ c.toNat) → (∃ q ∈ y.reqs, q.ct = c) →
    ∃ u, exec (.vaultDataLeaves (vaultOf cell) y.way e) s = .next u ∧
      ((∀ q ∈ y.reqs, lengthOf q.hint = 0) → Timed u cell w r) ∧
      ∀ len, (∀ q ∈ y.reqs, lengthOf q.hint ≤ len) → (∃ q ∈ y.reqs, lengthOf q.hint = len) → 0 < len →
        Timed u cell w (maxD r (maxD (w + BitVec.ofNat 64 len) (c + BitVec.ofNat 64 len)))
end

