-- ==== Sys2Proof/Laws/Tables.lean ====
section
/-! SUPPORT. Laws of tables by number: reading after writing, and the rising form that every table operation keeps. -/

namespace Sys2Proof.Laws

open Sys2Proof.Machine

variable {α : Type}

@[simp] theorem tfind_tset_self (t : Tbl α) (k : Nat) (a : α) : tfind (tset t k a) k = some a := by
  fun_induction tset t k a <;> simp_all [tfind, eq_comm]

theorem tfind_tset_other (t : Tbl α) {k n : Nat} (a : α) (h : n ≠ k) : tfind (tset t k a) n = tfind t n := by
  fun_induction tset t k a <;> simp_all [tfind, Ne.symm h]

@[simp] theorem tget_tset_self (d : α) (t : Tbl α) (k : Nat) (a : α) : tget d (tset t k a) k = a := by
  simp [tget]

theorem tget_tset_other (d : α) (t : Tbl α) {k n : Nat} (a : α) (h : n ≠ k) : tget d (tset t k a) n = tget d t n := by
  simp [tget, tfind_tset_other t a h]

/-- Every number of a table is at least n. -/
def above (n : Nat) (t : Tbl α) : Prop := ∀ e ∈ t, n < e.1

theorem rising_cons (e : Nat × α) (t : Tbl α) : rising (e :: t) = true ↔ above e.1 t ∧ rising t = true := by
  induction t generalizing e with
  | nil => simp [rising, above]
  | cons f t ih =>
    have far : e.1 < f.1 → above f.1 t → above e.1 t := fun h k x hx => Nat.lt_trans h (k x hx)
    simp only [rising, Bool.and_eq_true, decide_eq_true_eq, ih, above, List.forall_mem_cons] at far ⊢
    exact ⟨fun ⟨h, k⟩ => ⟨⟨h, far h k.1⟩, k⟩, fun ⟨h, k⟩ => ⟨h.1, k⟩⟩

/-- A write puts in its own entry and keeps the others. -/
theorem tset_subset (t : Tbl α) (k : Nat) (a : α) : tset t k a ⊆ (k, a) :: t := by
  fun_induction tset t k a with
  | case4 i b t k a _ _ ih =>
    exact List.cons_subset.2 ⟨by simp, List.Subset.trans ih (List.cons_subset_cons _ (List.subset_cons_self _ _))⟩
  | _ => simp_all

theorem mem_tset {t : Tbl α} {k : Nat} {a : α} {e : Nat × α} (h : e ∈ tset t k a) : e = (k, a) ∨ e ∈ t := by
  simpa using tset_subset t k a h

theorem rising_tset {t : Tbl α} (k : Nat) (a : α) (h : rising t = true) : rising (tset t k a) = true := by
  fun_induction tset t k a with
  | case1 => rfl
  | case2 => simp_all [rising]
  | case3 => simpa [rising_cons, above] using h
  | case4 i b t k a hlt hne ih =>
    rw [rising_cons] at h ⊢
    refine ⟨fun x hx => ?_, ih h.2⟩
    obtain rfl | hx := mem_tset hx
    · exact Nat.lt_of_le_of_ne (Nat.le_of_not_lt hlt) (Ne.symm hne)
    · exact h.1 x hx

theorem rising_filter {t : Tbl α} (p : Nat × α → Bool) (h : rising t = true) : rising (t.filter p) = true := by
  induction t with
  | nil => rfl
  | cons e t ih =>
    obtain ⟨h1, h2⟩ := (rising_cons _ _).1 h
    rw [List.filter_cons]
    split
    · exact (rising_cons _ _).2 ⟨fun x hx => h1 x (List.mem_filter.1 hx).1, ih h2⟩
    · exact ih h2

theorem rising_tdel {t : Tbl α} (k : Nat) (h : rising t = true) : rising (tdel t k) = true := rising_filter _ h

theorem rising_tdrop {t : Tbl α} (lo n : Nat) (h : rising t = true) : rising (tdrop t lo n) = true := rising_filter _ h

theorem tfind_filter (t : Tbl α) (p : Nat → Bool) (k : Nat) :
    tfind (t.filter (fun e => p e.1)) k = if p k then tfind t k else none := by
  induction t with
  | nil => simp [tfind]
  | cons e t ih =>
    obtain ⟨i, b⟩ := e
    rw [List.filter_cons]
    by_cases hi : i = k
    · subst hi
      split
      · simp [tfind, *]
      · next h => simp [ih, h]
    · split <;> simp [tfind, hi, ih]

@[simp] theorem modAt_length (f : α → α) (l : List α) (k : Nat) : (modAt f l k).length = l.length := by
  induction l generalizing k with
  | nil => rfl
  | cons a t ih => cases k <;> simp [modAt, ih]

theorem modAt_get (f : α → α) (l : List α) (k n : Nat) :
    (modAt f l k)[n]? = if n = k then l[n]?.map f else l[n]? := by
  induction l generalizing k n with
  | nil => simp [modAt]
  | cons a t ih => cases k <;> cases n <;> simp [modAt, ih]

end Sys2Proof.Laws
end

