-- ==== Sys2Proof/Laws/State.lean ====
section
/-! SUPPORT. Laws of State's accessors: what each update of a component leaves of every field, and reading a component after an update. -/

namespace Sys2Proof.Laws

open Sys2Proof.Machine

@[simp] theorem setCore_agenda (s : State) (c : Nat) (x : Core) : (s.setCore c x).agenda = s.agenda := rfl
@[simp] theorem setCore_outside (s : State) (c : Nat) (x : Core) : (s.setCore c x).outside = s.outside := rfl
@[simp] theorem setCore_errors (s : State) (c : Nat) (x : Core) : (s.setCore c x).errors = s.errors := rfl
@[simp] theorem setCore_net (s : State) (c : Nat) (x : Core) : (s.setCore c x).net = s.net := rfl
@[simp] theorem setCore_cur (s : State) (c : Nat) (x : Core) : (s.setCore c x).cur = s.cur := rfl
@[simp] theorem setCore_cursor (s : State) (c : Nat) (x : Core) : (s.setCore c x).cursor = s.cursor := rfl
@[simp] theorem setCore_free (s : State) (c : Nat) (x : Core) : (s.setCore c x).free = s.free := rfl
@[simp] theorem setCore_seq (s : State) (c : Nat) (x : Core) : (s.setCore c x).seq = s.seq := rfl
@[simp] theorem setCore_clusters (s : State) (c : Nat) (x : Core) : (s.setCore c x).clusters = s.clusters := rfl
@[simp] theorem setCore_dies (s : State) (c : Nat) (x : Core) : (s.setCore c x).dies = s.dies := rfl
@[simp] theorem setCore_vaults (s : State) (c : Nat) (x : Core) : (s.setCore c x).vaults = s.vaults := rfl
@[simp] theorem setCore_memory (s : State) (c : Nat) (x : Core) : (s.setCore c x).memory = s.memory := rfl
@[simp] theorem setCore_hub (s : State) (c : Nat) (x : Core) : (s.setCore c x).hub = s.hub := rfl

@[simp] theorem modCore_agenda (s : State) (c : Nat) (f : Core → Core) : (s.modCore c f).agenda = s.agenda := rfl
@[simp] theorem modCore_outside (s : State) (c : Nat) (f : Core → Core) : (s.modCore c f).outside = s.outside := rfl
@[simp] theorem modCore_errors (s : State) (c : Nat) (f : Core → Core) : (s.modCore c f).errors = s.errors := rfl
@[simp] theorem modCore_net (s : State) (c : Nat) (f : Core → Core) : (s.modCore c f).net = s.net := rfl
@[simp] theorem modCore_cur (s : State) (c : Nat) (f : Core → Core) : (s.modCore c f).cur = s.cur := rfl
@[simp] theorem modCore_cursor (s : State) (c : Nat) (f : Core → Core) : (s.modCore c f).cursor = s.cursor := rfl
@[simp] theorem modCore_free (s : State) (c : Nat) (f : Core → Core) : (s.modCore c f).free = s.free := rfl
@[simp] theorem modCore_seq (s : State) (c : Nat) (f : Core → Core) : (s.modCore c f).seq = s.seq := rfl
@[simp] theorem modCore_clusters (s : State) (c : Nat) (f : Core → Core) : (s.modCore c f).clusters = s.clusters := rfl
@[simp] theorem modCore_dies (s : State) (c : Nat) (f : Core → Core) : (s.modCore c f).dies = s.dies := rfl
@[simp] theorem modCore_vaults (s : State) (c : Nat) (f : Core → Core) : (s.modCore c f).vaults = s.vaults := rfl
@[simp] theorem modCore_memory (s : State) (c : Nat) (f : Core → Core) : (s.modCore c f).memory = s.memory := rfl
@[simp] theorem modCore_hub (s : State) (c : Nat) (f : Core → Core) : (s.modCore c f).hub = s.hub := rfl

@[simp] theorem setCluster_agenda (s : State) (k : Nat) (x : Cluster) : (s.setCluster k x).agenda = s.agenda := rfl
@[simp] theorem setCluster_outside (s : State) (k : Nat) (x : Cluster) : (s.setCluster k x).outside = s.outside := rfl
@[simp] theorem setCluster_errors (s : State) (k : Nat) (x : Cluster) : (s.setCluster k x).errors = s.errors := rfl
@[simp] theorem setCluster_net (s : State) (k : Nat) (x : Cluster) : (s.setCluster k x).net = s.net := rfl
@[simp] theorem setCluster_cur (s : State) (k : Nat) (x : Cluster) : (s.setCluster k x).cur = s.cur := rfl
@[simp] theorem setCluster_cursor (s : State) (k : Nat) (x : Cluster) : (s.setCluster k x).cursor = s.cursor := rfl
@[simp] theorem setCluster_free (s : State) (k : Nat) (x : Cluster) : (s.setCluster k x).free = s.free := rfl
@[simp] theorem setCluster_seq (s : State) (k : Nat) (x : Cluster) : (s.setCluster k x).seq = s.seq := rfl
@[simp] theorem setCluster_cores (s : State) (k : Nat) (x : Cluster) : (s.setCluster k x).cores = s.cores := rfl
@[simp] theorem setCluster_dies (s : State) (k : Nat) (x : Cluster) : (s.setCluster k x).dies = s.dies := rfl
@[simp] theorem setCluster_vaults (s : State) (k : Nat) (x : Cluster) : (s.setCluster k x).vaults = s.vaults := rfl
@[simp] theorem setCluster_memory (s : State) (k : Nat) (x : Cluster) : (s.setCluster k x).memory = s.memory := rfl
@[simp] theorem setCluster_hub (s : State) (k : Nat) (x : Cluster) : (s.setCluster k x).hub = s.hub := rfl

@[simp] theorem modCluster_agenda (s : State) (k : Nat) (f : Cluster → Cluster) : (s.modCluster k f).agenda = s.agenda := rfl
@[simp] theorem modCluster_outside (s : State) (k : Nat) (f : Cluster → Cluster) : (s.modCluster k f).outside = s.outside := rfl
@[simp] theorem modCluster_errors (s : State) (k : Nat) (f : Cluster → Cluster) : (s.modCluster k f).errors = s.errors := rfl
@[simp] theorem modCluster_net (s : State) (k : Nat) (f : Cluster → Cluster) : (s.modCluster k f).net = s.net := rfl
@[simp] theorem modCluster_cur (s : State) (k : Nat) (f : Cluster → Cluster) : (s.modCluster k f).cur = s.cur := rfl
@[simp] theorem modCluster_cursor (s : State) (k : Nat) (f : Cluster → Cluster) : (s.modCluster k f).cursor = s.cursor := rfl
@[simp] theorem modCluster_free (s : State) (k : Nat) (f : Cluster → Cluster) : (s.modCluster k f).free = s.free := rfl
@[simp] theorem modCluster_seq (s : State) (k : Nat) (f : Cluster → Cluster) : (s.modCluster k f).seq = s.seq := rfl
@[simp] theorem modCluster_cores (s : State) (k : Nat) (f : Cluster → Cluster) : (s.modCluster k f).cores = s.cores := rfl
@[simp] theorem modCluster_dies (s : State) (k : Nat) (f : Cluster → Cluster) : (s.modCluster k f).dies = s.dies := rfl
@[simp] theorem modCluster_vaults (s : State) (k : Nat) (f : Cluster → Cluster) : (s.modCluster k f).vaults = s.vaults := rfl
@[simp] theorem modCluster_memory (s : State) (k : Nat) (f : Cluster → Cluster) : (s.modCluster k f).memory = s.memory := rfl
@[simp] theorem modCluster_hub (s : State) (k : Nat) (f : Cluster → Cluster) : (s.modCluster k f).hub = s.hub := rfl

@[simp] theorem setDie_agenda (s : State) (d : Nat) (x : Die) : (s.setDie d x).agenda = s.agenda := rfl
@[simp] theorem setDie_outside (s : State) (d : Nat) (x : Die) : (s.setDie d x).outside = s.outside := rfl
@[simp] theorem setDie_errors (s : State) (d : Nat) (x : Die) : (s.setDie d x).errors = s.errors := rfl
@[simp] theorem setDie_net (s : State) (d : Nat) (x : Die) : (s.setDie d x).net = s.net := rfl
@[simp] theorem setDie_cur (s : State) (d : Nat) (x : Die) : (s.setDie d x).cur = s.cur := rfl
@[simp] theorem setDie_cursor (s : State) (d : Nat) (x : Die) : (s.setDie d x).cursor = s.cursor := rfl
@[simp] theorem setDie_free (s : State) (d : Nat) (x : Die) : (s.setDie d x).free = s.free := rfl
@[simp] theorem setDie_seq (s : State) (d : Nat) (x : Die) : (s.setDie d x).seq = s.seq := rfl
@[simp] theorem setDie_cores (s : State) (d : Nat) (x : Die) : (s.setDie d x).cores = s.cores := rfl
@[simp] theorem setDie_clusters (s : State) (d : Nat) (x : Die) : (s.setDie d x).clusters = s.clusters := rfl
@[simp] theorem setDie_vaults (s : State) (d : Nat) (x : Die) : (s.setDie d x).vaults = s.vaults := rfl
@[simp] theorem setDie_memory (s : State) (d : Nat) (x : Die) : (s.setDie d x).memory = s.memory := rfl
@[simp] theorem setDie_hub (s : State) (d : Nat) (x : Die) : (s.setDie d x).hub = s.hub := rfl

@[simp] theorem modDie_agenda (s : State) (d : Nat) (f : Die → Die) : (s.modDie d f).agenda = s.agenda := rfl
@[simp] theorem modDie_outside (s : State) (d : Nat) (f : Die → Die) : (s.modDie d f).outside = s.outside := rfl
@[simp] theorem modDie_errors (s : State) (d : Nat) (f : Die → Die) : (s.modDie d f).errors = s.errors := rfl
@[simp] theorem modDie_net (s : State) (d : Nat) (f : Die → Die) : (s.modDie d f).net = s.net := rfl
@[simp] theorem modDie_cur (s : State) (d : Nat) (f : Die → Die) : (s.modDie d f).cur = s.cur := rfl
@[simp] theorem modDie_cursor (s : State) (d : Nat) (f : Die → Die) : (s.modDie d f).cursor = s.cursor := rfl
@[simp] theorem modDie_free (s : State) (d : Nat) (f : Die → Die) : (s.modDie d f).free = s.free := rfl
@[simp] theorem modDie_seq (s : State) (d : Nat) (f : Die → Die) : (s.modDie d f).seq = s.seq := rfl
@[simp] theorem modDie_cores (s : State) (d : Nat) (f : Die → Die) : (s.modDie d f).cores = s.cores := rfl
@[simp] theorem modDie_clusters (s : State) (d : Nat) (f : Die → Die) : (s.modDie d f).clusters = s.clusters := rfl
@[simp] theorem modDie_vaults (s : State) (d : Nat) (f : Die → Die) : (s.modDie d f).vaults = s.vaults := rfl
@[simp] theorem modDie_memory (s : State) (d : Nat) (f : Die → Die) : (s.modDie d f).memory = s.memory := rfl
@[simp] theorem modDie_hub (s : State) (d : Nat) (f : Die → Die) : (s.modDie d f).hub = s.hub := rfl

@[simp] theorem setVault_agenda (s : State) (v : Nat) (x : Vault) : (s.setVault v x).agenda = s.agenda := rfl
@[simp] theorem setVault_outside (s : State) (v : Nat) (x : Vault) : (s.setVault v x).outside = s.outside := rfl
@[simp] theorem setVault_errors (s : State) (v : Nat) (x : Vault) : (s.setVault v x).errors = s.errors := rfl
@[simp] theorem setVault_net (s : State) (v : Nat) (x : Vault) : (s.setVault v x).net = s.net := rfl
@[simp] theorem setVault_cur (s : State) (v : Nat) (x : Vault) : (s.setVault v x).cur = s.cur := rfl
@[simp] theorem setVault_cursor (s : State) (v : Nat) (x : Vault) : (s.setVault v x).cursor = s.cursor := rfl
@[simp] theorem setVault_free (s : State) (v : Nat) (x : Vault) : (s.setVault v x).free = s.free := rfl
@[simp] theorem setVault_seq (s : State) (v : Nat) (x : Vault) : (s.setVault v x).seq = s.seq := rfl
@[simp] theorem setVault_cores (s : State) (v : Nat) (x : Vault) : (s.setVault v x).cores = s.cores := rfl
@[simp] theorem setVault_clusters (s : State) (v : Nat) (x : Vault) : (s.setVault v x).clusters = s.clusters := rfl
@[simp] theorem setVault_dies (s : State) (v : Nat) (x : Vault) : (s.setVault v x).dies = s.dies := rfl
@[simp] theorem setVault_memory (s : State) (v : Nat) (x : Vault) : (s.setVault v x).memory = s.memory := rfl
@[simp] theorem setVault_hub (s : State) (v : Nat) (x : Vault) : (s.setVault v x).hub = s.hub := rfl

@[simp] theorem modVault_agenda (s : State) (v : Nat) (f : Vault → Vault) : (s.modVault v f).agenda = s.agenda := rfl
@[simp] theorem modVault_outside (s : State) (v : Nat) (f : Vault → Vault) : (s.modVault v f).outside = s.outside := rfl
@[simp] theorem modVault_errors (s : State) (v : Nat) (f : Vault → Vault) : (s.modVault v f).errors = s.errors := rfl
@[simp] theorem modVault_net (s : State) (v : Nat) (f : Vault → Vault) : (s.modVault v f).net = s.net := rfl
@[simp] theorem modVault_cur (s : State) (v : Nat) (f : Vault → Vault) : (s.modVault v f).cur = s.cur := rfl
@[simp] theorem modVault_cursor (s : State) (v : Nat) (f : Vault → Vault) : (s.modVault v f).cursor = s.cursor := rfl
@[simp] theorem modVault_free (s : State) (v : Nat) (f : Vault → Vault) : (s.modVault v f).free = s.free := rfl
@[simp] theorem modVault_seq (s : State) (v : Nat) (f : Vault → Vault) : (s.modVault v f).seq = s.seq := rfl
@[simp] theorem modVault_cores (s : State) (v : Nat) (f : Vault → Vault) : (s.modVault v f).cores = s.cores := rfl
@[simp] theorem modVault_clusters (s : State) (v : Nat) (f : Vault → Vault) : (s.modVault v f).clusters = s.clusters := rfl
@[simp] theorem modVault_dies (s : State) (v : Nat) (f : Vault → Vault) : (s.modVault v f).dies = s.dies := rfl
@[simp] theorem modVault_memory (s : State) (v : Nat) (f : Vault → Vault) : (s.modVault v f).memory = s.memory := rfl
@[simp] theorem modVault_hub (s : State) (v : Nat) (f : Vault → Vault) : (s.modVault v f).hub = s.hub := rfl

@[simp] theorem modHub_agenda (s : State) (f : Hub → Hub) : (s.modHub f).agenda = s.agenda := rfl
@[simp] theorem modHub_outside (s : State) (f : Hub → Hub) : (s.modHub f).outside = s.outside := rfl
@[simp] theorem modHub_errors (s : State) (f : Hub → Hub) : (s.modHub f).errors = s.errors := rfl
@[simp] theorem modHub_net (s : State) (f : Hub → Hub) : (s.modHub f).net = s.net := rfl
@[simp] theorem modHub_cur (s : State) (f : Hub → Hub) : (s.modHub f).cur = s.cur := rfl
@[simp] theorem modHub_cursor (s : State) (f : Hub → Hub) : (s.modHub f).cursor = s.cursor := rfl
@[simp] theorem modHub_free (s : State) (f : Hub → Hub) : (s.modHub f).free = s.free := rfl
@[simp] theorem modHub_seq (s : State) (f : Hub → Hub) : (s.modHub f).seq = s.seq := rfl
@[simp] theorem modHub_cores (s : State) (f : Hub → Hub) : (s.modHub f).cores = s.cores := rfl
@[simp] theorem modHub_clusters (s : State) (f : Hub → Hub) : (s.modHub f).clusters = s.clusters := rfl
@[simp] theorem modHub_dies (s : State) (f : Hub → Hub) : (s.modHub f).dies = s.dies := rfl
@[simp] theorem modHub_vaults (s : State) (f : Hub → Hub) : (s.modHub f).vaults = s.vaults := rfl
@[simp] theorem modHub_memory (s : State) (f : Hub → Hub) : (s.modHub f).memory = s.memory := rfl

@[simp] theorem post_agenda (s : State) (m : Msg) : (s.post m).agenda = s.agenda := rfl
@[simp] theorem post_outside (s : State) (m : Msg) : (s.post m).outside = s.outside := rfl
@[simp] theorem post_errors (s : State) (m : Msg) : (s.post m).errors = s.errors := rfl
@[simp] theorem post_cur (s : State) (m : Msg) : (s.post m).cur = s.cur := rfl
@[simp] theorem post_cursor (s : State) (m : Msg) : (s.post m).cursor = s.cursor := rfl
@[simp] theorem post_free (s : State) (m : Msg) : (s.post m).free = s.free := rfl
@[simp] theorem post_cores (s : State) (m : Msg) : (s.post m).cores = s.cores := rfl
@[simp] theorem post_clusters (s : State) (m : Msg) : (s.post m).clusters = s.clusters := rfl
@[simp] theorem post_dies (s : State) (m : Msg) : (s.post m).dies = s.dies := rfl
@[simp] theorem post_vaults (s : State) (m : Msg) : (s.post m).vaults = s.vaults := rfl
@[simp] theorem post_memory (s : State) (m : Msg) : (s.post m).memory = s.memory := rfl
@[simp] theorem post_hub (s : State) (m : Msg) : (s.post m).hub = s.hub := rfl

@[simp] theorem drop_agenda (s : State) (k : Nat) : (s.drop k).agenda = s.agenda := rfl
@[simp] theorem drop_outside (s : State) (k : Nat) : (s.drop k).outside = s.outside := rfl
@[simp] theorem drop_errors (s : State) (k : Nat) : (s.drop k).errors = s.errors := rfl
@[simp] theorem drop_cur (s : State) (k : Nat) : (s.drop k).cur = s.cur := rfl
@[simp] theorem drop_cursor (s : State) (k : Nat) : (s.drop k).cursor = s.cursor := rfl
@[simp] theorem drop_free (s : State) (k : Nat) : (s.drop k).free = s.free := rfl
@[simp] theorem drop_seq (s : State) (k : Nat) : (s.drop k).seq = s.seq := rfl
@[simp] theorem drop_cores (s : State) (k : Nat) : (s.drop k).cores = s.cores := rfl
@[simp] theorem drop_clusters (s : State) (k : Nat) : (s.drop k).clusters = s.clusters := rfl
@[simp] theorem drop_dies (s : State) (k : Nat) : (s.drop k).dies = s.dies := rfl
@[simp] theorem drop_vaults (s : State) (k : Nat) : (s.drop k).vaults = s.vaults := rfl
@[simp] theorem drop_memory (s : State) (k : Nat) : (s.drop k).memory = s.memory := rfl
@[simp] theorem drop_hub (s : State) (k : Nat) : (s.drop k).hub = s.hub := rfl

@[simp] theorem setSide_agenda (s : State) (n : Nat) (x : Side) : (s.setSide n x).agenda = s.agenda := rfl
@[simp] theorem setSide_outside (s : State) (n : Nat) (x : Side) : (s.setSide n x).outside = s.outside := rfl
@[simp] theorem setSide_errors (s : State) (n : Nat) (x : Side) : (s.setSide n x).errors = s.errors := rfl
@[simp] theorem setSide_net (s : State) (n : Nat) (x : Side) : (s.setSide n x).net = s.net := rfl
@[simp] theorem setSide_cur (s : State) (n : Nat) (x : Side) : (s.setSide n x).cur = s.cur := rfl
@[simp] theorem setSide_cursor (s : State) (n : Nat) (x : Side) : (s.setSide n x).cursor = s.cursor := rfl
@[simp] theorem setSide_free (s : State) (n : Nat) (x : Side) : (s.setSide n x).free = s.free := rfl
@[simp] theorem setSide_seq (s : State) (n : Nat) (x : Side) : (s.setSide n x).seq = s.seq := rfl
@[simp] theorem setSide_cores (s : State) (n : Nat) (x : Side) : (s.setSide n x).cores = s.cores := rfl
@[simp] theorem setSide_clusters (s : State) (n : Nat) (x : Side) : (s.setSide n x).clusters = s.clusters := rfl
@[simp] theorem setSide_dies (s : State) (n : Nat) (x : Side) : (s.setSide n x).dies = s.dies := rfl
@[simp] theorem setSide_vaults (s : State) (n : Nat) (x : Side) : (s.setSide n x).vaults = s.vaults := rfl
@[simp] theorem setSide_hub (s : State) (n : Nat) (x : Side) : (s.setSide n x).hub = s.hub := rfl

@[simp] theorem setCore_cluster (s : State) (c : Nat) (x : Core) (n' : Nat) : (s.setCore c x).cluster n' = s.cluster n' := rfl
@[simp] theorem setCore_die (s : State) (c : Nat) (x : Core) (n' : Nat) : (s.setCore c x).die n' = s.die n' := rfl
@[simp] theorem setCore_vault (s : State) (c : Nat) (x : Core) (n' : Nat) : (s.setCore c x).vault n' = s.vault n' := rfl
@[simp] theorem modCore_cluster (s : State) (c : Nat) (f : Core → Core) (n' : Nat) : (s.modCore c f).cluster n' = s.cluster n' := rfl
@[simp] theorem modCore_die (s : State) (c : Nat) (f : Core → Core) (n' : Nat) : (s.modCore c f).die n' = s.die n' := rfl
@[simp] theorem modCore_vault (s : State) (c : Nat) (f : Core → Core) (n' : Nat) : (s.modCore c f).vault n' = s.vault n' := rfl
@[simp] theorem setCluster_core (s : State) (k : Nat) (x : Cluster) (n' : Nat) : (s.setCluster k x).core n' = s.core n' := rfl
@[simp] theorem setCluster_die (s : State) (k : Nat) (x : Cluster) (n' : Nat) : (s.setCluster k x).die n' = s.die n' := rfl
@[simp] theorem setCluster_vault (s : State) (k : Nat) (x : Cluster) (n' : Nat) : (s.setCluster k x).vault n' = s.vault n' := rfl
@[simp] theorem modCluster_core (s : State) (k : Nat) (f : Cluster → Cluster) (n' : Nat) : (s.modCluster k f).core n' = s.core n' := rfl
@[simp] theorem modCluster_die (s : State) (k : Nat) (f : Cluster → Cluster) (n' : Nat) : (s.modCluster k f).die n' = s.die n' := rfl
@[simp] theorem modCluster_vault (s : State) (k : Nat) (f : Cluster → Cluster) (n' : Nat) : (s.modCluster k f).vault n' = s.vault n' := rfl
@[simp] theorem setDie_core (s : State) (d : Nat) (x : Die) (n' : Nat) : (s.setDie d x).core n' = s.core n' := rfl
@[simp] theorem setDie_cluster (s : State) (d : Nat) (x : Die) (n' : Nat) : (s.setDie d x).cluster n' = s.cluster n' := rfl
@[simp] theorem setDie_vault (s : State) (d : Nat) (x : Die) (n' : Nat) : (s.setDie d x).vault n' = s.vault n' := rfl
@[simp] theorem modDie_core (s : State) (d : Nat) (f : Die → Die) (n' : Nat) : (s.modDie d f).core n' = s.core n' := rfl
@[simp] theorem modDie_cluster (s : State) (d : Nat) (f : Die → Die) (n' : Nat) : (s.modDie d f).cluster n' = s.cluster n' := rfl
@[simp] theorem modDie_vault (s : State) (d : Nat) (f : Die → Die) (n' : Nat) : (s.modDie d f).vault n' = s.vault n' := rfl
@[simp] theorem setVault_core (s : State) (v : Nat) (x : Vault) (n' : Nat) : (s.setVault v x).core n' = s.core n' := rfl
@[simp] theorem setVault_cluster (s : State) (v : Nat) (x : Vault) (n' : Nat) : (s.setVault v x).cluster n' = s.cluster n' := rfl
@[simp] theorem setVault_die (s : State) (v : Nat) (x : Vault) (n' : Nat) : (s.setVault v x).die n' = s.die n' := rfl
@[simp] theorem modVault_core (s : State) (v : Nat) (f : Vault → Vault) (n' : Nat) : (s.modVault v f).core n' = s.core n' := rfl
@[simp] theorem modVault_cluster (s : State) (v : Nat) (f : Vault → Vault) (n' : Nat) : (s.modVault v f).cluster n' = s.cluster n' := rfl
@[simp] theorem modVault_die (s : State) (v : Nat) (f : Vault → Vault) (n' : Nat) : (s.modVault v f).die n' = s.die n' := rfl
@[simp] theorem modHub_core (s : State) (f : Hub → Hub) (n' : Nat) : (s.modHub f).core n' = s.core n' := rfl
@[simp] theorem modHub_cluster (s : State) (f : Hub → Hub) (n' : Nat) : (s.modHub f).cluster n' = s.cluster n' := rfl
@[simp] theorem modHub_die (s : State) (f : Hub → Hub) (n' : Nat) : (s.modHub f).die n' = s.die n' := rfl
@[simp] theorem modHub_vault (s : State) (f : Hub → Hub) (n' : Nat) : (s.modHub f).vault n' = s.vault n' := rfl
@[simp] theorem post_core (s : State) (m : Msg) (n' : Nat) : (s.post m).core n' = s.core n' := rfl
@[simp] theorem post_cluster (s : State) (m : Msg) (n' : Nat) : (s.post m).cluster n' = s.cluster n' := rfl
@[simp] theorem post_die (s : State) (m : Msg) (n' : Nat) : (s.post m).die n' = s.die n' := rfl
@[simp] theorem post_vault (s : State) (m : Msg) (n' : Nat) : (s.post m).vault n' = s.vault n' := rfl
@[simp] theorem drop_core (s : State) (k : Nat) (n' : Nat) : (s.drop k).core n' = s.core n' := rfl
@[simp] theorem drop_cluster (s : State) (k : Nat) (n' : Nat) : (s.drop k).cluster n' = s.cluster n' := rfl
@[simp] theorem drop_die (s : State) (k : Nat) (n' : Nat) : (s.drop k).die n' = s.die n' := rfl
@[simp] theorem drop_vault (s : State) (k : Nat) (n' : Nat) : (s.drop k).vault n' = s.vault n' := rfl
@[simp] theorem setSide_core (s : State) (n : Nat) (x : Side) (n' : Nat) : (s.setSide n x).core n' = s.core n' := rfl
@[simp] theorem setSide_cluster (s : State) (n : Nat) (x : Side) (n' : Nat) : (s.setSide n x).cluster n' = s.cluster n' := rfl
@[simp] theorem setSide_die (s : State) (n : Nat) (x : Side) (n' : Nat) : (s.setSide n x).die n' = s.die n' := rfl
@[simp] theorem setSide_vault (s : State) (n : Nat) (x : Side) (n' : Nat) : (s.setSide n x).vault n' = s.vault n' := rfl

@[simp] theorem core_setCore (s : State) (k : Nat) (x : Core) : (s.setCore k x).core k = x := by
  simp [State.setCore, State.core]
theorem core_setCore_other (s : State) {k n : Nat} (x : Core) (h : n ≠ k) : (s.setCore k x).core n = s.core n := by
  simp [State.setCore, State.core, tget_tset_other _ _ _ h]
@[simp] theorem core_modCore (s : State) (k : Nat) (f : Core → Core) : (s.modCore k f).core k = f (s.core k) := by
  simp [State.modCore]
theorem core_modCore_other (s : State) {k n : Nat} (f : Core → Core) (h : n ≠ k) : (s.modCore k f).core n = s.core n :=
  core_setCore_other s _ h

@[simp] theorem cluster_setCluster (s : State) (k : Nat) (x : Cluster) : (s.setCluster k x).cluster k = x := by
  simp [State.setCluster, State.cluster]
theorem cluster_setCluster_other (s : State) {k n : Nat} (x : Cluster) (h : n ≠ k) : (s.setCluster k x).cluster n = s.cluster n := by
  simp [State.setCluster, State.cluster, tget_tset_other _ _ _ h]
@[simp] theorem cluster_modCluster (s : State) (k : Nat) (f : Cluster → Cluster) : (s.modCluster k f).cluster k = f (s.cluster k) := by
  simp [State.modCluster]
theorem cluster_modCluster_other (s : State) {k n : Nat} (f : Cluster → Cluster) (h : n ≠ k) : (s.modCluster k f).cluster n = s.cluster n :=
  cluster_setCluster_other s _ h

@[simp] theorem die_setDie (s : State) (k : Nat) (x : Die) : (s.setDie k x).die k = x := by
  simp [State.setDie, State.die]
theorem die_setDie_other (s : State) {k n : Nat} (x : Die) (h : n ≠ k) : (s.setDie k x).die n = s.die n := by
  simp [State.setDie, State.die, tget_tset_other _ _ _ h]
@[simp] theorem die_modDie (s : State) (k : Nat) (f : Die → Die) : (s.modDie k f).die k = f (s.die k) := by
  simp [State.modDie]
theorem die_modDie_other (s : State) {k n : Nat} (f : Die → Die) (h : n ≠ k) : (s.modDie k f).die n = s.die n :=
  die_setDie_other s _ h

@[simp] theorem vault_setVault (s : State) (k : Nat) (x : Vault) : (s.setVault k x).vault k = x := by
  simp [State.setVault, State.vault]
theorem vault_setVault_other (s : State) {k n : Nat} (x : Vault) (h : n ≠ k) : (s.setVault k x).vault n = s.vault n := by
  simp [State.setVault, State.vault, tget_tset_other _ _ _ h]
@[simp] theorem vault_modVault (s : State) (k : Nat) (f : Vault → Vault) : (s.modVault k f).vault k = f (s.vault k) := by
  simp [State.modVault]
theorem vault_modVault_other (s : State) {k n : Nat} (f : Vault → Vault) (h : n ≠ k) : (s.modVault k f).vault n = s.vault n :=
  vault_setVault_other s _ h

@[simp] theorem modHub_hub (s : State) (f : Hub → Hub) : (s.modHub f).hub = f s.hub := rfl
@[simp] theorem post_net (s : State) (m : Msg) : (s.post m).net = s.net ++ [(s.seq, m)] := rfl
@[simp] theorem post_seq (s : State) (m : Msg) : (s.post m).seq = s.seq + 1 := rfl

/-! ## Groups and threads -/

/-- Every field but the cores, which groups and threads stand in, is the same. -/
structure SameButCores (s u : State) : Prop where
  agenda : u.agenda = s.agenda
  outside : u.outside = s.outside
  net : u.net = s.net
  cur : u.cur = s.cur
  cursor : u.cursor = s.cursor
  free : u.free = s.free
  seq : u.seq = s.seq
  clusters : u.clusters = s.clusters
  dies : u.dies = s.dies
  vaults : u.vaults = s.vaults
  memory : u.memory = s.memory
  hub : u.hub = s.hub
  errors : u.errors = s.errors

theorem setGroup_same (s : State) (c g : Nat) (x : Group) : SameButCores s (s.setGroup c g x) := by
  constructor <;> rfl

theorem modGroup_same (s : State) (c g : Nat) (f : Group → Group) : SameButCores s (s.modGroup c g f) := by
  unfold State.modGroup
  split <;> constructor <;> rfl

theorem modThread_same (s : State) (c g t : Nat) (f : Thread → Thread) : SameButCores s (s.modThread c g t f) :=
  modGroup_same s c g _

@[simp] theorem group_setGroup (s : State) (c g : Nat) (x : Group) : (s.setGroup c g x).group? c g = some x := by
  simp [State.setGroup, State.group?]

theorem group_setGroup_other (s : State) {c g c' g' : Nat} (x : Group) (h : c' ≠ c ∨ g' ≠ g) :
    (s.setGroup c g x).group? c' g' = s.group? c' g' := by
  unfold State.setGroup State.group?
  by_cases hc : c' = c
  · subst hc
    rcases h with h | h
    · exact absurd rfl h
    · simp [tfind_tset_other _ _ h]
  · rw [core_modCore_other _ _ hc]

theorem group_modGroup (s : State) (c g : Nat) (f : Group → Group) :
    (s.modGroup c g f).group? c g = (s.group? c g).map f := by
  unfold State.modGroup
  split
  · next x h => simp [h]
  · next h => simp [h]

theorem group_modGroup_other (s : State) {c g c' g' : Nat} (f : Group → Group) (h : c' ≠ c ∨ g' ≠ g) :
    (s.modGroup c g f).group? c' g' = s.group? c' g' := by
  unfold State.modGroup
  split
  · exact group_setGroup_other s _ h
  · rfl

theorem thread_modGroup (s : State) (c g : Nat) (f : Group → Group) (hf : ∀ x, (f x).threads = x.threads) (c' g' t : Nat) :
    (s.modGroup c g f).thread? c' g' t = s.thread? c' g' t := by
  unfold State.thread?
  by_cases h : c' = c ∧ g' = g
  · obtain ⟨rfl, rfl⟩ := h
    rw [group_modGroup]
    cases s.group? c' g' <;> simp [hf]
  · rw [group_modGroup_other]
    rw [Decidable.not_and_iff_not_or_not] at h
    exact h

theorem group_modThread (s : State) (c g t : Nat) (f : Thread → Thread) :
    (s.modThread c g t f).group? c g = (s.group? c g).map (fun x => { x with threads := modAt f x.threads t }) :=
  group_modGroup s c g _

theorem thread_modThread (s : State) (c g t : Nat) (f : Thread → Thread) :
    (s.modThread c g t f).thread? c g t = (s.thread? c g t).map f := by
  unfold State.thread?
  rw [group_modThread]
  cases s.group? c g <;> simp [modAt_get]

theorem thread_modThread_other (s : State) {c g t c' g' t' : Nat} (f : Thread → Thread)
    (h : ¬ (c' = c ∧ g' = g ∧ t' = t)) : (s.modThread c g t f).thread? c' g' t' = s.thread? c' g' t' := by
  unfold State.thread?
  by_cases hg : c' = c ∧ g' = g
  · obtain ⟨rfl, rfl⟩ := hg
    rw [group_modThread]
    have ht : t' ≠ t := fun e => h ⟨rfl, rfl, e⟩
    cases s.group? c' g' <;> simp [modAt_get, ht]
  · rw [State.modThread, group_modGroup_other]
    rw [Decidable.not_and_iff_not_or_not] at hg
    exact hg

/-- A component of the group that does not stand in its threads. -/
theorem group_map_modThread {β : Type} (p : Group → β) (hp : ∀ x l, p { x with threads := l } = p x) (s : State) (c g t : Nat)
    (f : Thread → Thread) (c' g' : Nat) : ((s.modThread c g t f).group? c' g').map p = (s.group? c' g').map p := by
  by_cases hg : c' = c ∧ g' = g
  · obtain ⟨rfl, rfl⟩ := hg
    rw [group_modThread]
    cases s.group? c' g' <;> simp [hp]
  · rw [State.modThread, group_modGroup_other]
    rw [Decidable.not_and_iff_not_or_not] at hg
    exact hg

end Sys2Proof.Laws
end

