-- ==== Sys2Proof/Laws/Memory.lean ====
section
/-! SUPPORT. Laws of memory: every operation keeps its canonical form, and a byte read after writes. -/

namespace Sys2Proof.Laws

open Sys2Proof.Machine

theorem wf_iff (m : Memory) : m.wf = true ↔
    rising m.cells = true ∧ rising m.seals = true ∧ rising m.sides = true ∧ ∀ e ∈ m.sides, e.2 ≠ m.sideDefault e.1 := by
  simp [Memory.wf, and_assoc]

theorem wf_put {m : Memory} (cell : Nat) (sl : Seal) (b : Byte) (h : m.wf = true) : (m.put cell sl b).wf = true := by
  obtain ⟨h1, h2, h3, h4⟩ := (wf_iff _).1 h
  unfold Memory.put
  split
  · exact (wf_iff _).2 ⟨rising_tset _ _ h1, h2, h3, h4⟩
  · exact (wf_iff _).2 ⟨rising_tset _ _ (rising_tdrop _ _ h1), rising_tset _ _ h2, h3, h4⟩

theorem wf_putSide {m : Memory} (line : Nat) (x : Side) (h : m.wf = true) : (m.putSide line x).wf = true := by
  obtain ⟨h1, h2, h3, h4⟩ := (wf_iff _).1 h
  unfold Memory.putSide
  refine (wf_iff _).2 ⟨h1, h2, ?_, ?_⟩
  · show rising (if _ then _ else _) = true
    split
    · exact rising_tdel _ h3
    · exact rising_tset _ _ h3
  · intro e he
    show e.2 ≠ m.sideDefault e.1
    replace he : e ∈ (if x = m.sideDefault line then tdel m.sides line else tset m.sides line x) := he
    split at he
    · exact h4 e (List.mem_filter.1 he).1
    · next hx =>
      rcases mem_tset he with rfl | he
      · exact hx
      · exact h4 e he

theorem wf_forget {m : Memory} (cell n : Nat) (h : m.wf = true) : (m.forget cell n).wf = true := by
  obtain ⟨h1, h2, h3, h4⟩ := (wf_iff _).1 h
  exact (wf_iff _).2 ⟨rising_tdrop _ _ h1, h2, h3, h4⟩

theorem wf_forgetLines {m : Memory} (p : Nat → Bool) (h : m.wf = true) : (m.forgetLines p).wf = true := by
  obtain ⟨h1, h2, h3, h4⟩ := (wf_iff _).1 h
  exact (wf_iff _).2 ⟨rising_filter _ h1, rising_filter _ h2, rising_filter _ h3, fun e he => h4 e (List.mem_filter.1 he).1⟩

theorem wf_loseDie {m : Memory} (d : Nat) (h : m.wf = true) : (m.loseDie d).wf = true := wf_forgetLines _ h

theorem wf_restoreDie {m : Memory} (d : Nat) (h : m.wf = true) : (m.restoreDie d).wf = true := by
  obtain ⟨h1, h2, h3, h4⟩ := (wf_iff _).1 (wf_loseDie d h)
  refine (wf_iff _).2 ⟨h1, h2, h3, fun e he => ?_⟩
  replace he : e ∈ m.sides.filter (fun e => !onDie d (e.1 * 256)) := he
  have hp := (List.mem_filter.1 he).2
  have := h4 e he
  intro hx
  apply this
  rw [hx]
  have key : ∀ k, k ≠ d → (m.restored ||| (1#4 <<< d)).getLsbD k = m.restored.getLsbD k := by
    intro k hk
    simp only [BitVec.getLsbD_or, BitVec.getLsbD_shiftLeft, BitVec.getLsbD_one]
    by_cases h4 : k < 4
    · by_cases hkd : k < d
      · simp [hkd]
      · have : k - d ≠ 0 := by omega
        simp [this]
    · simp [BitVec.getLsbD_of_ge _ _ (Nat.le_of_not_lt h4), h4]
  simp only [onDie, Bool.not_eq_true', Bool.and_eq_false_iff, decide_eq_false_iff_not, beq_eq_false_iff_ne] at hp
  show Side.mk _ _ (if decide (e.1 * 256 < farCell) && (m.restored ||| (1#4 <<< d)).getLsbD (vaultOf (e.1 * 256) / 64) then _ else _) =
    Side.mk _ _ (if decide (e.1 * 256 < farCell) && m.restored.getLsbD (vaultOf (e.1 * 256) / 64) then _ else _)
  rcases hp with hp | hp
  · simp [hp]
  · rw [key _ hp]

@[simp] theorem wf_reset : State.reset.memory.wf = true := rfl

/-! ## State's operations on memory -/

theorem wf_writeByte {s : State} (key pa : Nat) (b : Byte) (h : s.memory.wf = true) :
    (s.writeByte key pa b).memory.wf = true := by
  unfold State.writeByte
  split
  · exact wf_put _ _ _ h
  · exact h

theorem wf_writeMem {s : State} (key : Nat) (l : List (Nat × Byte)) (h : s.memory.wf = true) :
    (s.writeMem key l).memory.wf = true := by
  induction l generalizing s with
  | nil => exact h
  | cons e l ih => exact ih (wf_writeByte key e.1 e.2 h)

theorem wf_setSide {s : State} (line : Nat) (x : Side) (h : s.memory.wf = true) : (s.setSide line x).memory.wf = true :=
  wf_putSide line x h

theorem wf_setTimes {s : State} (cell : Nat) (w r : Dword) (h : s.memory.wf = true) :
    (s.setTimes cell w r).memory.wf = true := by
  unfold State.setTimes
  split
  · exact wf_setSide _ _ h
  · exact h

theorem wf_storeHome {s : State} (key line : Nat) (data : List (Nat × Byte)) (h : s.memory.wf = true) :
    (s.storeHome key line data).memory.wf = true := by
  unfold State.storeHome
  split
  · exact h
  · split
    · exact h
    · dsimp only
      split
      · exact wf_writeMem key data h
      · exact wf_setSide _ _ (wf_writeMem key data h)

@[simp] theorem readMem_memory (s : State) (key pa n : Nat) : (s.readMem key pa n).2.memory = s.memory := by
  induction n generalizing s pa with
  | zero => rfl
  | succ n ih =>
    simp only [State.readMem]
    split <;> simp [ih]

/-! ## A byte after a write -/

/-- A write touches only the sector of its cell. -/
theorem put_cells_other (m : Memory) {cell n : Nat} (sl : Seal) (b : Byte) (h : n / 64 ≠ cell / 64) :
    tfind (m.put cell sl b).cells n = tfind m.cells n ∧ tfind (m.put cell sl b).seals (n / 64) = tfind m.seals (n / 64) := by
  have hn : n ≠ cell := fun e => h (by rw [e])
  unfold Memory.put
  split
  · exact ⟨tfind_tset_other _ _ hn, rfl⟩
  · refine ⟨?_, tfind_tset_other _ _ h⟩
    show tfind (tset (tdrop m.cells (cell / 64 * 64) 64) cell b) n = _
    rw [tfind_tset_other _ _ hn]
    unfold tdrop
    rw [tfind_filter m.cells (fun k => decide (k < cell / 64 * 64) || decide (cell / 64 * 64 + 64 ≤ k))]
    have : (decide (n < cell / 64 * 64) || decide (cell / 64 * 64 + 64 ≤ n)) = true := by
      simp only [Bool.or_eq_true, decide_eq_true_eq]
      omega
    simp [this]

/-- The byte written is the byte that stands there, under the seal it was written with. -/
theorem put_self (m : Memory) (cell : Nat) (sl : Seal) (b : Byte) :
    tfind (m.put cell sl b).cells cell = some b ∧ tfind (m.put cell sl b).seals (cell / 64) = some sl := by
  unfold Memory.put
  split
  · next h => exact ⟨by simp, h⟩
  · exact ⟨by simp, by simp⟩

/-- Under a seal that already stands, a write leaves every other byte. -/
theorem put_same_seal (m : Memory) {cell n : Nat} {sl : Seal} (b : Byte) (hs : tfind m.seals (cell / 64) = some sl)
    (h : n ≠ cell) : tfind (m.put cell sl b).cells n = tfind m.cells n := by
  unfold Memory.put
  rw [if_pos hs]
  exact tfind_tset_other _ _ h

@[simp] theorem writeByte_cellOf (s : State) (key pa : Nat) (b : Byte) (n : Nat) :
    (s.writeByte key pa b).cellOf n = s.cellOf n := by
  unfold State.writeByte
  split <;> rfl

theorem byteAt_writeByte_self {s : State} {key pa cell : Nat} (b : Byte) (h : s.cellOf pa = some cell) :
    (s.writeByte key pa b).byteAt key pa = some b := by
  unfold State.byteAt
  rw [writeByte_cellOf, h]
  have : s.writeByte key pa b = { s with memory := s.memory.put cell (s.sealFor key pa) b } := by
    unfold State.writeByte
    rw [h]
  rw [this]
  obtain ⟨h1, h2⟩ := put_self s.memory cell (s.sealFor key pa) b
  show (if (tfind (s.memory.put cell (s.sealFor key pa) b).seals (cell / 64) == some (s.sealFor key pa)) = true then _ else _) = _
  rw [h2]
  simp [h1]

end Sys2Proof.Laws
end

