-- ==== Sys2Proof/Laws/Frame.lean ====
section
/-! SUPPORT. Laws of the shared operations of an issue: what a trap, a settled trap, a move and the frame of an issue can do to
the threads of the wave and to the rest of the machine. -/

namespace Sys2Proof.Machine

/-! ## SameMachine -/

theorem State.SameMachine.refl (s : State) : s.SameMachine s := by
  constructor <;> intros <;> rfl

theorem State.SameMachine.trans {s u v : State} (h : s.SameMachine u) (k : u.SameMachine v) : s.SameMachine v where
  memory := k.memory.trans h.memory
  dies := k.dies.trans h.dies
  vaults := k.vaults.trans h.vaults
  outside := k.outside.trans h.outside
  agenda := k.agenda.trans h.agenda
  free := k.free.trans h.free
  errors := k.errors.trans h.errors
  hub := by rw [k.hub, h.hub]
  contexts := fun n => (k.contexts n).trans (h.contexts n)
  clusters := fun n => by rw [k.clusters n, h.clusters n]
  cores := fun c => by rw [k.cores c, h.cores c]
  plane := fun c => (k.plane c).trans (h.plane c)
  planeQ := fun c => (k.planeQ c).trans (h.planeQ c)
  groups := fun c g => (k.groups c g).trans (h.groups c g)

open Sys2Proof.Laws in
theorem State.SameMachine.of_cores {s u : State} (h : SameButCores s u)
    (hc : ∀ c, u.core c = { s.core c with slots := (u.core c).slots })
    (hg : ∀ c g, (u.group? c g).map Group.bare = (s.group? c g).map Group.bare) : s.SameMachine u where
  memory := h.memory
  dies := h.dies
  vaults := h.vaults
  outside := h.outside
  agenda := h.agenda
  free := h.free
  errors := h.errors
  hub := by rw [h.hub]
  contexts := fun n => by rw [h.hub]
  clusters := fun k => by simp [State.cluster, h.clusters]
  cores := fun c => by rw [hc c]
  plane := fun c => by rw [hc c]
  planeQ := fun c => by rw [hc c]
  groups := hg

/-- A byte reads as before where the machine but for its threads is the same. -/
theorem State.SameMachine.cellOf {s u : State} (h : s.SameMachine u) (pa : Nat) : u.cellOf pa = s.cellOf pa := by
  unfold State.cellOf
  rw [h.hub]

theorem State.SameMachine.byteAt {s u : State} (h : s.SameMachine u) (key pa : Nat) : u.byteAt key pa = s.byteAt key pa := by
  unfold State.byteAt
  rw [h.cellOf, h.memory]
  unfold State.sealFor State.keyGenOf
  rw [h.hub]

end Sys2Proof.Machine

namespace Sys2Proof.Laws

open Sys2Proof.Machine

theorem core_setGroup (s : State) (c g : Nat) (x : Group) (n : Nat) :
    (s.setGroup c g x).core n = { s.core n with slots := ((s.setGroup c g x).core n).slots } := by
  unfold State.setGroup
  by_cases h : n = c
  · subst h; simp
  · rw [core_modCore_other _ _ h]

theorem same_setGroup {s : State} {c g : Nat} {x y : Group} (hy : s.group? c g = some y) (hb : x.bare = y.bare) :
    s.SameMachine (s.setGroup c g x) := by
  refine .of_cores (setGroup_same s c g x) (fun n => ?_) (fun c' g' => ?_)
  · rw [core_setGroup]
  · by_cases h : c' = c ∧ g' = g
    · obtain ⟨rfl, rfl⟩ := h
      simp [hy, hb]
    · rw [group_setGroup_other]
      exact Decidable.not_and_iff_not_or_not.1 h

theorem same_modGroup (s : State) (c g : Nat) {f : Group → Group} (hf : ∀ x, (f x).bare = x.bare) :
    s.SameMachine (s.modGroup c g f) := by
  unfold State.modGroup
  split
  · next x h => exact same_setGroup h (hf x)
  · exact .refl s

theorem same_modThread (s : State) (c g t : Nat) (f : Thread → Thread) : s.SameMachine (s.modThread c g t f) :=
  same_modGroup s c g (fun _ => rfl)

theorem same_foldl {β : Type} (f : State → β → State) (hf : ∀ (s : State) b, s.SameMachine (f s b)) (l : List β) (s : State) :
    s.SameMachine (l.foldl f s) := by
  induction l generalizing s with
  | nil => exact .refl s
  | cons b l ih => exact (hf s b).trans (ih _)

/-! ## Convoys -/

theorem same_post (s : State) (m : Msg) : s.SameMachine (s.post m) := by
  constructor <;> intros <;> rfl

theorem same_cvTell (s : State) (ctx id : Nat) (ks : List Nat) : s.SameMachine (s.cvTell ctx id ks) :=
  same_foldl _ (fun (s : State) k => by split; exact .refl s; exact same_post s _) ks s

theorem cvTell_core (s : State) (ctx id : Nat) (ks : List Nat) : (s.cvTell ctx id ks).cores = s.cores := by
  unfold State.cvTell
  induction ks generalizing s with
  | nil => rfl
  | cons k ks ih =>
    rw [List.foldl_cons, ih]
    split <;> rfl

theorem cvTell_cur (s : State) (ctx id : Nat) (ks : List Nat) : (s.cvTell ctx id ks).cur = s.cur := by
  unfold State.cvTell
  induction ks generalizing s with
  | nil => rfl
  | cons k ks ih =>
    rw [List.foldl_cons, ih]
    split <;> rfl

theorem same_cvPut (s : State) (ctx id : Nat) (x : Convoy) (low : Option Word) (tell : List Nat) :
    s.SameMachine (s.cvPut ctx id x low tell) := by
  refine State.SameMachine.trans ?_ (same_cvTell _ _ _ _)
  constructor <;> intros <;> rfl

theorem cvPut_cores (s : State) (ctx id : Nat) (x : Convoy) (low : Option Word) (tell : List Nat) :
    (s.cvPut ctx id x low tell).cores = s.cores := cvTell_core _ _ _ _

theorem cvPut_cur (s : State) (ctx id : Nat) (x : Convoy) (low : Option Word) (tell : List Nat) :
    (s.cvPut ctx id x low tell).cur = s.cur := cvTell_cur _ _ _ _

theorem group_of_cores {s u : State} (h : u.cores = s.cores) (c g : Nat) : u.group? c g = s.group? c g := by
  simp [State.group?, State.core, h]

theorem thread_of_cores {s u : State} (h : u.cores = s.cores) (c g t : Nat) : u.thread? c g t = s.thread? c g t := by
  simp [State.thread?, group_of_cores h]

/-- Threads as they stand in every group. -/
def SameThreads (s u : State) : Prop := ∀ c g t, u.thread? c g t = s.thread? c g t

theorem thread_setGroup {s : State} {c g : Nat} {x y : Group} (hy : s.group? c g = some y) (hx : x.threads = y.threads) :
    SameThreads s (s.setGroup c g x) := by
  intro c' g' t
  unfold State.thread?
  by_cases h : c' = c ∧ g' = g
  · obtain ⟨rfl, rfl⟩ := h
    simp [hy, hx]
  · rw [group_setGroup_other]
    exact Decidable.not_and_iff_not_or_not.1 h

theorem bare_shedBy (x : Group) (cause : BitVec 3) : ({ x with cv := x.cv.shedBy cause } : Group).bare = x.bare := by
  simp [Group.bare, CvRegs.shedBy]

theorem same_cvShed (s : State) (c g : Nat) (cause : BitVec 3) : s.SameMachine (s.cvShed c g cause) := by
  unfold State.cvShed
  split
  · exact .refl s
  · next x h =>
    dsimp only
    split
    · exact .refl s
    · exact (same_setGroup h (bare_shedBy x cause)).trans (same_cvPut _ _ _ _ _ _)

theorem threads_cvShed (s : State) (c g : Nat) (cause : BitVec 3) : SameThreads s (s.cvShed c g cause) := by
  unfold State.cvShed
  split
  · exact fun _ _ _ => rfl
  · next x h =>
    dsimp only
    split
    · exact fun _ _ _ => rfl
    · intro c' g' t
      rw [thread_of_cores (cvPut_cores _ _ _ _ _ _)]
      exact thread_setGroup (x := { x with cv := x.cv.shedBy cause }) h rfl c' g' t

theorem cur_cvShed (s : State) (c g : Nat) (cause : BitVec 3) : (s.cvShed c g cause).cur = s.cur := by
  unfold State.cvShed
  split
  · rfl
  · dsimp only
    split
    · rfl
    · rw [cvPut_cur]; rfl

/-! ## Taking a trap -/

theorem group_leaveQueues (s : State) (c g t c' g' : Nat) : (s.leaveQueues c g t).group? c' g' = s.group? c' g' := by
  unfold State.leaveQueues State.group?
  rw [modCluster_core]
  by_cases h : c' = c
  · subst h; simp
  · rw [core_modCore_other _ _ h]

theorem bare_without (g t : Nat) (p : Plane) : (p.without g t).bare = p.bare := by
  unfold Plane.without
  split <;> rfl

theorem same_leaveQueues (s : State) (c g t : Nat) : s.SameMachine (s.leaveQueues c g t) := by
  constructor
  all_goals try (intros; rfl)
  · intro k
    unfold State.leaveQueues
    by_cases h : k = clusterOf c
    · subst h; simp
    · rw [cluster_modCluster_other _ _ h]; rfl
  · intro n
    unfold State.leaveQueues
    rw [modCluster_core]
    by_cases h : n = c
    · subst h; simp
    · rw [core_modCore_other _ _ h]
  · intro n
    unfold State.leaveQueues
    rw [modCluster_core]
    by_cases h : n = c
    · subst h; simp [Option.map_map, Function.comp_def, bare_without]
    · rw [core_modCore_other _ _ h]
  · intro n
    unfold State.leaveQueues
    rw [modCluster_core]
    by_cases h : n = c
    · subst h; simp [Function.comp_def, bare_without]
    · rw [core_modCore_other _ _ h]
  · intro c' g'
    rw [group_leaveQueues]

theorem threads_leaveQueues (s : State) (c g t : Nat) : SameThreads s (s.leaveQueues c g t) := by
  intro c' g' t'
  unfold State.thread?
  rw [group_leaveQueues]

theorem same_stopGroup (s : State) (c g : Nat) (d : Due) : s.SameMachine (s.stopGroup c g d) := by
  unfold State.stopGroup
  split
  · exact .refl s
  · next x h =>
    refine (same_setGroup h (x := x.stop d) rfl).trans ?_
    constructor
    all_goals try (intros; rfl)
    · rw [modHub_hub]
      split
      · split <;> rfl
      · rfl
    · intro n
      rw [modHub_hub]
      split
      · split <;> rfl
      · rfl

theorem threads_stopGroup (s : State) (c g : Nat) (d : Due) : SameThreads s (s.stopGroup c g d) := by
  unfold State.stopGroup
  split
  · exact fun _ _ _ => rfl
  · next x h => exact thread_setGroup h rfl

theorem same_takeTrap (s : State) (c g t : Nat) (d : Due) (deferred : Bool) (resume : Dword) :
    s.SameMachine (s.takeTrap c g t d deferred resume) := by
  unfold State.takeTrap
  split
  · dsimp only
    have hq := same_leaveQueues s c g t
    split
    · exact hq.trans (same_stopGroup _ c g d)
    · split
      · exact (hq.trans (same_modThread _ _ _ _ _)).trans (same_cvShed _ _ _ _)
      · exact hq.trans (same_stopGroup _ c g d)
      · exact (hq.trans (same_modThread _ _ _ _ _)).trans (same_cvShed _ _ _ _)
  · exact .refl s

/-- A trap of one thread leaves every other thread as it is. -/
theorem thread_takeTrap_other (s : State) {c g t c' g' t' : Nat} (d : Due) (deferred : Bool) (resume : Dword)
    (h : ¬ (c' = c ∧ g' = g ∧ t' = t)) : (s.takeTrap c g t d deferred resume).thread? c' g' t' = s.thread? c' g' t' := by
  unfold State.takeTrap
  split
  · dsimp only
    split
    · rw [threads_stopGroup, threads_leaveQueues]
    · split
      · rw [threads_cvShed, thread_modThread_other _ _ h, threads_leaveQueues]
      · rw [threads_stopGroup, threads_leaveQueues]
      · rw [threads_cvShed, thread_modThread_other _ _ h, threads_leaveQueues]
  · rfl

/-- A handled trap whose handler's first block can be looked at: the thread enters its handler (R232, R233). -/
theorem thread_takeTrap {s : State} {c g t : Nat} {x : Group} {th : Thread} {bs : List Byte} (d : Due) (deferred : Bool)
    (resume : Dword) (hg : s.group? c g = some x) (ht : s.thread? c g t = some th) (hv : x.tvec ≠ 0) (hh : th.handler = false)
    (hl : s.target c x.ctx x.tvec true = .ok bs) (hs : s.lookLate c x.ctx x.tvec = false) :
    (s.takeTrap c g t d deferred resume).thread? c g t = some (th.enter x.tvec d deferred resume false) := by
  unfold State.takeTrap
  rw [hg, ht]
  have : (decide (x.tvec = 0) || th.handler) = false := by simpa [hh] using hv
  simp only [this, hl, hs, Bool.false_eq_true, if_false]
  rw [threads_cvShed, thread_modThread, threads_leaveQueues, ht]
  rfl

theorem same_precise (s : State) (c g t : Nat) (cause : BitVec 16) (va : Dword) (info : Word) :
    s.SameMachine (s.precise c g t cause va info) := by
  unfold State.precise
  split
  · exact same_takeTrap _ _ _ _ _ _ _
  · exact .refl s

theorem thread_precise_other (s : State) {c g t c' g' t' : Nat} (cause : BitVec 16) (va : Dword) (info : Word)
    (h : ¬ (c' = c ∧ g' = g ∧ t' = t)) : (s.precise c g t cause va info).thread? c' g' t' = s.thread? c' g' t' := by
  unfold State.precise
  split
  · exact thread_takeTrap_other s _ _ _ h
  · rfl

theorem same_endMoving (s : State) (ctx : Nat) : s.SameMachine (s.endMoving ctx) := by
  unfold State.endMoving
  split
  · exact .refl s
  · next y hy =>
    split
    · exact .refl s
    · constructor
      all_goals try (intros; rfl)
      · intro n
        rw [modHub_hub]
        by_cases h : n = ctx
        · subst h; simp [hy, Ctx.bare]
        · simp [tfind_tset_other _ _ h]

/-- What a thread that waits at issue gives up (R230). -/
theorem same_withdraw (s : State) (c g t : Nat) : s.SameMachine (s.withdraw c g t) := by
  unfold State.withdraw
  dsimp only
  have hm := same_modThread s c g t (fun th => { th with wait := none })
  revert hm
  generalize s.modThread c g t (fun th => { th with wait := none }) = u
  intro hm
  refine hm.trans ?_
  have hc : ∀ f : List Offer → List Offer, u.SameMachine (u.modCluster (clusterOf c) (fun k => { k with offers := f k.offers })) := by
    intro f
    constructor
    all_goals try (intros; rfl)
    · intro k
      by_cases h : k = clusterOf c
      · subst h; simp
      · rw [cluster_modCluster_other _ _ h]
  split
  · exact hc _
  · exact (hc _).trans (same_endMoving _ _)

theorem endMoving_cores (s : State) (ctx : Nat) : (s.endMoving ctx).cores = s.cores := by
  unfold State.endMoving
  split
  · rfl
  · split <;> rfl

theorem endMoving_cur (s : State) (ctx : Nat) : (s.endMoving ctx).cur = s.cur := by
  unfold State.endMoving
  split
  · rfl
  · split <;> rfl

theorem withdraw_cores (s : State) (c g t : Nat) :
    (s.withdraw c g t).cores = (s.modThread c g t (fun th => { th with wait := none })).cores := by
  unfold State.withdraw
  dsimp only
  split
  · rfl
  · rw [endMoving_cores]; rfl

theorem cur_withdraw (s : State) (c g t : Nat) : (s.withdraw c g t).cur = s.cur := by
  unfold State.withdraw
  dsimp only
  split
  · exact (modThread_same _ _ _ _ _).cur
  · rw [endMoving_cur]; exact (modThread_same _ _ _ _ _).cur

theorem thread_withdraw_other (s : State) {c g t c' g' t' : Nat} (h : ¬ (c' = c ∧ g' = g ∧ t' = t)) :
    (s.withdraw c g t).thread? c' g' t' = s.thread? c' g' t' := by
  rw [thread_of_cores (withdraw_cores s c g t), thread_modThread_other _ _ h]

theorem same_settle (s : State) (c g t : Nat) : s.SameMachine (s.settle c g t) := by
  unfold State.settle
  split
  · split
    · exact .refl s
    · split
      · exact .refl s
      · refine State.SameMachine.trans ?_ ((same_modThread _ _ _ _ _).trans (same_takeTrap _ _ _ _ _ _ _))
        split
        · exact same_withdraw s c g t
        · exact .refl s
  · exact .refl s

theorem thread_settle_other (s : State) {c g t c' g' t' : Nat} (h : ¬ (c' = c ∧ g' = g ∧ t' = t)) :
    (s.settle c g t).thread? c' g' t' = s.thread? c' g' t' := by
  unfold State.settle
  split
  · split
    · rfl
    · split
      · rfl
      · rw [thread_takeTrap_other _ _ _ _ h, thread_modThread_other _ _ h]
        split
        · exact thread_withdraw_other s h
        · rfl
  · rfl

/-- A thread with no deferred trap due stays as it is. -/
theorem settle_calm {s : State} {c g t : Nat} (h : ∀ th, s.thread? c g t = some th → th.due = []) : s.settle c g t = s := by
  unfold State.settle
  split
  · next th ht => simp [h th ht]
  · rfl

/-! ## Lists of traps and moves -/

theorem cur_modThread (s : State) (c g t : Nat) (f : Thread → Thread) : (s.modThread c g t f).cur = s.cur :=
  (modThread_same s c g t f).cur

theorem cur_takeTrap (s : State) (c g t : Nat) (d : Due) (deferred : Bool) (resume : Dword) :
    (s.takeTrap c g t d deferred resume).cur = s.cur := by
  have hs : ∀ s : State, (s.stopGroup c g d).cur = s.cur := by
    intro s
    unfold State.stopGroup
    split <;> rfl
  unfold State.takeTrap
  split
  · dsimp only
    split
    · rw [hs]; rfl
    · split
      · rw [cur_cvShed, cur_modThread]; rfl
      · rw [hs]; rfl
      · rw [cur_cvShed, cur_modThread]; rfl
  · rfl

theorem cur_precise (s : State) (c g t : Nat) (cause : BitVec 16) (va : Dword) (info : Word) :
    (s.precise c g t cause va info).cur = s.cur := by
  unfold State.precise
  split
  · exact cur_takeTrap _ _ _ _ _ _ _
  · rfl

theorem cur_settle (s : State) (c g t : Nat) : (s.settle c g t).cur = s.cur := by
  unfold State.settle
  split
  · split
    · rfl
    · split
      · rfl
      · rw [cur_takeTrap, cur_modThread]
        split
        · exact cur_withdraw s c g t
        · rfl
  · rfl

theorem same_moveTo (s : State) (ts : List Nat) (pc : Dword) : s.SameMachine (s.moveTo ts pc) :=
  same_foldl _ (fun s _ => same_modThread s _ _ _ _) ts s

theorem cur_moveTo (s : State) (ts : List Nat) (pc : Dword) : (s.moveTo ts pc).cur = s.cur := by
  unfold State.moveTo
  induction ts generalizing s with
  | nil => rfl
  | cons t ts ih => rw [List.foldl_cons, ih, cur_modThread]

/-- Threads that move stand at the address and wait for nothing; every other thread is as before. -/
theorem thread_moveTo (s : State) (ts : List Nat) (pc : Dword) (t : Nat) :
    (s.moveTo ts pc).thread? s.cur.core s.cur.slot t =
      if t ∈ ts then (s.thread? s.cur.core s.cur.slot t).map (fun th => { th with pc := pc, wait := none })
      else s.thread? s.cur.core s.cur.slot t := by
  unfold State.moveTo
  induction ts generalizing s with
  | nil => simp
  | cons u ts ih =>
    rw [List.foldl_cons]
    have := ih (s.modThread s.cur.core s.cur.slot u (fun th => { th with pc := pc, wait := none }))
    rw [cur_modThread] at this
    rw [this]
    by_cases hu : t = u
    · subst hu
      rw [thread_modThread]
      split <;> simp [Option.map_map, Function.comp_def]
    · rw [thread_modThread_other _ _ (fun h => hu h.2.2)]
      simp [hu]

theorem thread_moveTo_other (s : State) (ts : List Nat) (pc : Dword) {c g t : Nat}
    (h : ¬ (c = s.cur.core ∧ g = s.cur.slot)) : (s.moveTo ts pc).thread? c g t = s.thread? c g t := by
  unfold State.moveTo
  induction ts generalizing s with
  | nil => rfl
  | cons u ts ih =>
    rw [List.foldl_cons, ih _ (by rw [cur_modThread]; exact h), thread_modThread_other _ _ (fun k => h ⟨k.1, k.2.1⟩)]

theorem same_trapAll (s : State) (l : List (Nat × Trap)) : s.SameMachine (s.trapAll l) :=
  same_foldl _ (fun s _ => same_precise s _ _ _ _ _ _) l s

theorem cur_trapAll (s : State) (l : List (Nat × Trap)) : (s.trapAll l).cur = s.cur := by
  unfold State.trapAll
  induction l generalizing s with
  | nil => rfl
  | cons e l ih => rw [List.foldl_cons, ih, cur_precise]

/-- A thread that is not among those that trap is as before. -/
theorem thread_trapAll_other (s : State) (l : List (Nat × Trap)) {c g t : Nat}
    (h : ¬ (c = s.cur.core ∧ g = s.cur.slot ∧ t ∈ l.map (·.1))) : (s.trapAll l).thread? c g t = s.thread? c g t := by
  unfold State.trapAll
  induction l generalizing s with
  | nil => rfl
  | cons e l ih =>
    rw [List.foldl_cons, ih _ (by rw [cur_precise]; exact fun k => h ⟨k.1, k.2.1, by simp [List.mem_map.1 k.2.2]⟩)]
    exact thread_precise_other s _ _ _ (fun k => h ⟨k.1, k.2.1, by simp [k.2.2]⟩)

theorem same_settleAll (s : State) (ts : List Nat) : s.SameMachine (s.settleAll ts) :=
  same_foldl _ (fun s _ => same_settle s _ _ _) ts s

theorem cur_settleAll (s : State) (ts : List Nat) : (s.settleAll ts).cur = s.cur := by
  unfold State.settleAll
  induction ts generalizing s with
  | nil => rfl
  | cons t ts ih => rw [List.foldl_cons, ih, cur_settle]

/-- A thread with no deferred trap due is as before, whatever the other threads take. -/
theorem thread_settleAll_calm (s : State) (ts : List Nat) {t : Nat}
    (h : ∀ th, s.thread? s.cur.core s.cur.slot t = some th → th.due = []) :
    (s.settleAll ts).thread? s.cur.core s.cur.slot t = s.thread? s.cur.core s.cur.slot t := by
  unfold State.settleAll
  induction ts generalizing s with
  | nil => rfl
  | cons u ts ih =>
    rw [List.foldl_cons]
    have hu : (s.settle s.cur.core s.cur.slot u).thread? s.cur.core s.cur.slot t = s.thread? s.cur.core s.cur.slot t := by
      by_cases hut : t = u
      · subst hut; rw [settle_calm h]
      · exact thread_settle_other s (fun k => hut k.2.2)
    have := ih (s.settle s.cur.core s.cur.slot u) (by rw [cur_settle, hu]; exact h)
    rw [cur_settle] at this
    rw [this, hu]

theorem thread_settleAll_other (s : State) (ts : List Nat) {c g t : Nat}
    (h : ¬ (c = s.cur.core ∧ g = s.cur.slot ∧ t ∈ ts)) : (s.settleAll ts).thread? c g t = s.thread? c g t := by
  unfold State.settleAll
  induction ts generalizing s with
  | nil => rfl
  | cons u ts ih =>
    rw [List.foldl_cons, ih _ (by rw [cur_settle]; exact fun k => h ⟨k.1, k.2.1, List.mem_cons_of_mem _ k.2.2⟩)]
    exact thread_settle_other s (fun k => h ⟨k.1, k.2.1, by simp [k.2.2]⟩)

/-- Threads with nothing due: settling them all changes nothing. -/
theorem settleAll_calm {s : State} {ts : List Nat}
    (h : ∀ t ∈ ts, ∀ th, s.thread? s.cur.core s.cur.slot t = some th → th.due = []) : s.settleAll ts = s := by
  unfold State.settleAll
  induction ts generalizing s with
  | nil => rfl
  | cons u ts ih =>
    rw [List.foldl_cons, settle_calm (h u (by simp)), ih (fun t ht => h t (List.mem_cons_of_mem _ ht))]

end Sys2Proof.Laws
end

