-- ==== Sys2Proof/Laws/Issue.lean ====
section
/-! SUPPORT. Laws of the frame of an issue and of the shared shapes of meanings over it: the next state of a thread that goes on,
and of the machine around it. -/

namespace Sys2Proof.Laws

open Sys2Proof.Machine

/-! ## The parts of a frame -/

/-- The active threads of the wave with the checks that trap them. -/
def trapsOf (s : State) (i : Instr) (o : Op) (check : Lane → Option Trap) : List (Nat × Trap) :=
  (s.actives o (s.readyWave i o)).filterMap (fun t => (s.trapOf i o (s.readyWave i o) check t).map (fun e => (t, e)))

/-- The active threads of the wave that pass. -/
def passers (s : State) (i : Instr) (o : Op) (check : Lane → Option Trap) : List Nat :=
  (s.actives o (s.readyWave i o)).filter (fun t => !((trapsOf s i o check).map (·.1)).contains t)

/-- The inactive threads of the wave. -/
def idlers (s : State) (i : Instr) (o : Op) : List Nat :=
  (s.readyWave i o).filter (fun t => !(s.actives o (s.readyWave i o)).contains t)

theorem frame_eq {s : State} {i : Instr} {o : Op} {g : Group} (check : Lane → Option Trap)
    (body : List Nat → List Nat → State → State) (stay : Bool) (hg : s.group? s.cur.core s.cur.slot = some g)
    (ht : ∀ x ∈ tilesOf i, x < g.record.tiles) :
    s.frame i o check body stay =
      ((((if (passers s i o check).isEmpty then s else body (s.readyWave i o) (passers s i o check) s).moveTo
        (if stay then idlers s i o else idlers s i o ++ passers s i o check) s.cur.next).trapAll (trapsOf s i o check)).settleAll
          (s.readyWave i o)) := by
  unfold State.frame
  rw [hg]
  have : (tilesOf i).any (fun x => decide (g.record.tiles ≤ x)) = false := by
    simp only [List.any_eq_false, decide_eq_true_eq, Nat.not_le]
    exact ht
  simp only [this]
  rfl

theorem lane_eq {s : State} {o : Op} {wave : List Nat} {t : Nat} {L : Lane} (h : s.lane? o wave t = some L) :
    s.group? s.cur.core s.cur.slot = some L.g ∧ L.g.threads[t]? = some L.th ∧ L.s = s ∧ L.c = s.cur.core ∧ L.slot = s.cur.slot
      ∧ L.wave = wave ∧ L.tid = t ∧ L.o = o := by
  unfold State.lane? at h
  split at h
  · next g hg =>
    split at h
    · next th ht =>
      injection h with h
      subst h
      exact ⟨hg, ht, rfl, rfl, rfl, rfl, rfl, rfl⟩
    · cases h
  · cases h

theorem lane_thread {s : State} {o : Op} {wave : List Nat} {t : Nat} {L : Lane} (h : s.lane? o wave t = some L) :
    s.thread? s.cur.core s.cur.slot t = some L.th := by
  obtain ⟨hg, ht, -⟩ := lane_eq h
  simp [State.thread?, hg, ht]

end Sys2Proof.Laws

namespace Sys2Proof.Machine

open Sys2Proof.Laws

section

variable {s : State} {i : Instr} {o : Op} {check : Lane → Option Trap} {t : Nat} {L : Lane}

theorem State.Goes.not_trapped (h : s.Goes i o check t L) : t ∉ (trapsOf s i o check).map (·.1) := by
  intro hm
  obtain ⟨e, he, rfl⟩ := List.mem_map.1 hm
  obtain ⟨u, _, hu⟩ := List.mem_filterMap.1 he
  cases hx : s.trapOf i o (s.readyWave i o) check u with
  | none => simp [hx] at hu
  | some x =>
    simp only [hx, Option.map_some, Option.some.injEq] at hu
    subst hu
    have := h.passes
    rw [hx] at this
    cases this

theorem State.Goes.mem_actives (h : s.Goes i o check t L) : t ∈ s.actives o (s.readyWave i o) := by
  unfold State.actives
  exact List.mem_filter.2 ⟨h.wave, by rw [h.lane]; exact h.active⟩

theorem State.Goes.mem_passers (h : s.Goes i o check t L) : t ∈ passers s i o check := by
  refine List.mem_filter.2 ⟨h.mem_actives, ?_⟩
  simp only [Bool.not_eq_true', ← Bool.not_eq_true, List.contains_iff_mem]
  exact h.not_trapped

theorem State.Goes.not_idle (h : s.Goes i o check t L) : t ∉ idlers s i o := by
  intro hm
  have := (List.mem_filter.1 hm).2
  simp only [Bool.not_eq_true', ← Bool.not_eq_true, List.contains_iff_mem] at this
  exact this h.mem_actives

theorem State.Goes.nodup (h : s.Goes i o check t L) : (passers s i o check).Nodup := by
  unfold passers State.actives State.readyWave
  exact ((h.once.filter _).filter _).filter _

theorem State.Goes.passers_ne (h : s.Goes i o check t L) : (passers s i o check).isEmpty = false := by
  cases hp : passers s i o check with
  | nil => have := h.mem_passers; rw [hp] at this; cases this
  | cons => rfl

/-- A thread that goes on and simply moves to the next instruction: it ends as the body leaves it, there. -/
theorem State.Goes.frame_thread (h : s.Goes i o check t L) {body : List Nat → List Nat → State → State} {th : Thread}
    (hc : (body (s.readyWave i o) (passers s i o check) s).cur = s.cur)
    (hb : (body (s.readyWave i o) (passers s i o check) s).thread? s.cur.core s.cur.slot t = some th) (hd : th.due = []) :
    (s.frame i o check body false).thread? s.cur.core s.cur.slot t = some { th with pc := s.cur.next, wait := none } := by
  rw [frame_eq check body false (lane_eq h.lane).1 h.tiles]
  simp only [h.passers_ne, Bool.false_eq_true, if_false]
  generalize hB : body (s.readyWave i o) (passers s i o check) s = b at hc hb
  have hm := thread_moveTo b (idlers s i o ++ passers s i o check) s.cur.next t
  rw [hc, if_pos (List.mem_append_right _ h.mem_passers), hb] at hm
  have hcm := cur_moveTo b (idlers s i o ++ passers s i o check) s.cur.next
  rw [hc] at hcm
  generalize b.moveTo (idlers s i o ++ passers s i o check) s.cur.next = m at hm hcm
  have htr : (m.trapAll (trapsOf s i o check)).thread? s.cur.core s.cur.slot t = some { th with pc := s.cur.next, wait := none } := by
    rw [thread_trapAll_other _ _ (fun k => h.not_trapped k.2.2), hm]; rfl
  have hct : (m.trapAll (trapsOf s i o check)).cur = s.cur := by rw [cur_trapAll, hcm]
  have := thread_settleAll_calm (m.trapAll (trapsOf s i o check)) (s.readyWave i o) (t := t)
  rw [hct, htr] at this
  rw [this]
  intro x hx
  cases hx
  exact hd

/-- A thread that goes on in a frame that does not move it: it ends as the body leaves it. -/
theorem State.Goes.frame_thread_stay (h : s.Goes i o check t L) {body : List Nat → List Nat → State → State} {th : Thread}
    (hc : (body (s.readyWave i o) (passers s i o check) s).cur = s.cur)
    (hb : (body (s.readyWave i o) (passers s i o check) s).thread? s.cur.core s.cur.slot t = some th) (hd : th.due = []) :
    (s.frame i o check body true).thread? s.cur.core s.cur.slot t = some th := by
  rw [frame_eq check body true (lane_eq h.lane).1 h.tiles]
  simp only [h.passers_ne, Bool.false_eq_true, if_false, if_true]
  generalize hB : body (s.readyWave i o) (passers s i o check) s = b at hc hb
  have hm := thread_moveTo b (idlers s i o) s.cur.next t
  rw [hc, if_neg h.not_idle, hb] at hm
  have hcm := cur_moveTo b (idlers s i o) s.cur.next
  rw [hc] at hcm
  generalize b.moveTo (idlers s i o) s.cur.next = m at hm hcm
  have htr : (m.trapAll (trapsOf s i o check)).thread? s.cur.core s.cur.slot t = some th := by
    rw [thread_trapAll_other _ _ (fun k => h.not_trapped k.2.2), hm]
  have hct : (m.trapAll (trapsOf s i o check)).cur = s.cur := by rw [cur_trapAll, hcm]
  have := thread_settleAll_calm (m.trapAll (trapsOf s i o check)) (s.readyWave i o) (t := t)
  rw [hct, htr] at this
  rw [this]
  intro x hx
  cases hx
  exact hd

/-! ## A wave of one thread -/

theorem State.Alone.passers_eq (h : s.Alone i o check t L) : passers s i o check = [t] := by
  have ht := h.toGoes
  have ha : s.actives o (s.readyWave i o) = [t] := by
    unfold State.actives
    have := h.toGoes.mem_actives
    unfold State.actives at this
    rw [h.sole] at this ⊢
    simp only [List.filter_cons, List.filter_nil]
    rw [if_pos (List.mem_filter.1 this).2]
  unfold passers
  rw [ha]
  have hn := State.Goes.not_trapped ht
  simp only [List.filter_cons, List.filter_nil]
  rw [if_pos]
  simpa [← Bool.not_eq_true, List.contains_iff_mem] using hn

theorem State.Alone.idlers_eq (h : s.Alone i o check t L) : idlers s i o = [] := by
  have hi := h.toGoes.not_idle
  have : ∀ x ∈ idlers s i o, x = t := by
    intro x hx
    have := (List.mem_filter.1 hx).1
    rw [h.sole] at this
    simpa using this
  cases hl : idlers s i o with
  | nil => rfl
  | cons x l =>
    rw [hl] at this hi
    exact absurd (this x (by simp)) (fun e => hi (by simp [e]))

theorem State.Alone.traps_eq (h : s.Alone i o check t L) : trapsOf s i o check = [] := by
  unfold trapsOf
  have : ∀ x ∈ s.actives o (s.readyWave i o), x = t := by
    intro x hx
    have := (List.mem_filter.1 hx).1
    rw [h.sole] at this
    simpa using this
  rw [List.filterMap_eq_nil_iff]
  intro x hx
  rw [this x hx, h.passes]
  rfl

/-- The frame of a wave of one thread that passes: the body, the move, and the thread's deferred traps. -/
theorem State.Alone.frame (h : s.Alone i o check t L) (body : List Nat → List Nat → State → State) (stay : Bool) :
    s.frame i o check body stay =
      ((body [t] [t] s).moveTo (if stay then [] else [t]) s.cur.next).settleAll [t] := by
  rw [frame_eq check body stay (lane_eq h.lane).1 h.tiles, h.passers_eq, h.idlers_eq, h.traps_eq, h.sole]
  rfl

theorem State.Alone.byLane1 (_ : s.Alone i o check t L) : byLane [t] = [t] := rfl

theorem State.Alone.lane1 (h : s.Alone i o check t L) : s.lane? o [t] t = some L := by
  have := h.toGoes.lane
  rwa [h.sole] at this

theorem State.Alone.lanes (h : s.Alone i o check t L) : (Machine.byLane [t]).filterMap (s.lane? o [t]) = [L] := by
  rw [h.byLane1]
  simp [State.Alone.lane1 h]

end

/-! ## What a frame leaves alone -/

/-- A frame whose body leaves the machine but for its threads leaves it so, traps included. -/
theorem State.same_frame {s : State} (i : Instr) (o : Op) (check : Lane → Option Trap)
    {body : List Nat → List Nat → State → State} (stay : Bool) (hb : ∀ wave ok, s.SameMachine (body wave ok s)) :
    s.SameMachine (s.frame i o check body stay) := by
  unfold State.frame
  split
  · exact .refl s
  · dsimp only
    split
    · exact same_trapAll _ _
    · refine (State.SameMachine.trans ?_ (same_trapAll _ _)).trans (same_settleAll _ _)
      refine State.SameMachine.trans ?_ (same_moveTo _ _ _)
      split
      · exact .refl s
      · exact hb _ _

/-- One change per thread of a list, each thread's own. -/
theorem thread_foldl_lane {s0 : State} (o : Op) (wave : List Nat) (f : Lane → Thread) (c g t : Nat) (l : List Nat) (s : State) :
    (l.foldl (fun s1 u => match s0.lane? o wave u with
        | some L => s1.modThread c g u (fun _ => f L)
        | none => s1) s).thread? c g t =
      if t ∈ l then (match s0.lane? o wave t with
        | some L => (s.thread? c g t).map (fun _ => f L)
        | none => s.thread? c g t)
      else s.thread? c g t := by
  induction l generalizing s with
  | nil => simp
  | cons u l ih =>
    rw [List.foldl_cons, ih]
    by_cases hu : t = u
    · subst hu
      simp only [List.mem_cons, true_or, if_true]
      cases hl : s0.lane? o wave t with
      | none => simp
      | some L => simp only [thread_modThread]; split <;> simp [Option.map_map, Function.comp_def]
    · have : (match s0.lane? o wave u with
          | some L => s.modThread c g u (fun _ => f L)
          | none => s).thread? c g t = s.thread? c g t := by
        split
        · exact thread_modThread_other _ _ (fun h => hu h.2.2)
        · rfl
      rw [this]
      simp [hu]

theorem cur_foldl_lane {s0 : State} (o : Op) (wave : List Nat) (f : Lane → Thread) (c g : Nat) (l : List Nat) (s : State) :
    (l.foldl (fun s1 u => match s0.lane? o wave u with
        | some L => s1.modThread c g u (fun _ => f L)
        | none => s1) s).cur = s.cur := by
  induction l generalizing s with
  | nil => rfl
  | cons u l ih =>
    rw [List.foldl_cons, ih]
    split
    · exact cur_modThread _ _ _ _ _
    · rfl

theorem same_foldl_lane {s0 : State} (o : Op) (wave : List Nat) (f : Lane → Thread) (c g : Nat) (l : List Nat) (s : State) :
    s.SameMachine (l.foldl (fun s1 u => match s0.lane? o wave u with
        | some L => s1.modThread c g u (fun _ => f L)
        | none => s1) s) := by
  refine same_foldl _ (fun s u => ?_) l s
  split
  · exact same_modThread _ _ _ _ _
  · exact .refl _

/-- A lane operation: the thread becomes what f gives, at the next instruction. -/
theorem State.Goes.laneOp {s : State} {i : Instr} {o : Op} {check : Lane → Option Trap} {t : Nat} {L : Lane}
    (h : s.Goes i o check t L) (f : Lane → Thread) (hd : (f L).due = []) :
    (s.laneOp i o check f).thread? s.cur.core s.cur.slot t = some { f L with pc := s.cur.next, wait := none } := by
  refine h.frame_thread (cur_foldl_lane _ _ _ _ _ _ _) ?_ hd
  refine (thread_foldl_lane (s0 := s) o _ f _ _ t _ s).trans ?_
  rw [if_pos h.mem_passers, h.lane]
  simp [lane_thread h.lane]

theorem State.same_laneOp (s : State) (i : Instr) (o : Op) (check : Lane → Option Trap) (f : Lane → Thread) :
    s.SameMachine (s.laneOp i o check f) :=
  State.same_frame i o check false (fun _ _ => same_foldl_lane _ _ _ _ _ _ _)

/-- A transfer: the thread becomes what f gives, its PC included. -/
theorem State.Goes.jump {s : State} {i : Instr} {o : Op} {check : Lane → Option Trap} {t : Nat} {L : Lane}
    (h : s.Goes i o check t L) (f : Lane → Thread) (hd : (f L).due = []) :
    (s.jump i o check f).thread? s.cur.core s.cur.slot t = some (f L) := by
  refine h.frame_thread_stay (cur_foldl_lane _ _ _ _ _ _ _) ?_ hd
  refine (thread_foldl_lane (s0 := s) o _ f _ _ t _ s).trans ?_
  rw [if_pos h.mem_passers, h.lane]
  simp [lane_thread h.lane]

theorem State.same_jump (s : State) (i : Instr) (o : Op) (check : Lane → Option Trap) (f : Lane → Thread) :
    s.SameMachine (s.jump i o check f) :=
  State.same_frame i o check true (fun _ _ => same_foldl_lane _ _ _ _ _ _ _)

/-! ## The shapes over a wave of one thread -/

section

variable {s : State} {i : Instr} {o : Op} {check : Lane → Option Trap} {t : Nat} {L : Lane}

/-- A state after the body of an issue, with the thread moved and calm. -/
theorem State.Alone.moved (h : s.Alone i o check t L) {body : List Nat → List Nat → State → State} {th : Thread}
    (hc : (body [t] [t] s).cur = s.cur) (hb : (body [t] [t] s).thread? s.cur.core s.cur.slot t = some th) (hd : th.due = []) :
    s.frame i o check body false = (body [t] [t] s).moveTo [t] s.cur.next := by
  rw [h.frame]
  refine settleAll_calm ?_
  intro u hu x hx
  simp only [List.mem_singleton] at hu
  subst hu
  rw [cur_moveTo, hc] at hx
  have := thread_moveTo (body [u] [u] s) [u] s.cur.next u
  rw [hc, hb] at this
  simp only [Bool.false_eq_true, if_false] at hx
  rw [this] at hx
  simp only [List.mem_singleton, if_true, Option.map_some, Option.some.injEq] at hx
  subst hx
  exact hd

/-- The same where the body moves the thread. -/
theorem State.Alone.stayed (h : s.Alone i o check t L) {body : List Nat → List Nat → State → State} {th : Thread}
    (hc : (body [t] [t] s).cur = s.cur) (hb : (body [t] [t] s).thread? s.cur.core s.cur.slot t = some th) (hd : th.due = []) :
    s.frame i o check body true = body [t] [t] s := by
  rw [h.frame]
  refine settleAll_calm ?_
  intro u hu x hx
  simp only [List.mem_singleton] at hu
  subst hu
  have hm : (body [u] [u] s).moveTo (if true = true then [] else [u]) s.cur.next = body [u] [u] s := rfl
  rw [hm, hc, hb] at hx
  cases hx
  exact hd

theorem State.Alone.thread (h : s.Alone i o check t L) : s.thread? s.cur.core s.cur.slot t = some L.th := lane_thread h.lane

theorem State.Alone.group (h : s.Alone i o check t L) : s.group? s.cur.core s.cur.slot = some L.g := (lane_eq h.lane).1

theorem State.Alone.place (h : s.Alone i o check t L) : L.s = s ∧ L.c = s.cur.core ∧ L.slot = s.cur.slot ∧ L.tid = t ∧ L.o = o :=
  let ⟨_, _, a, b, c, _, d, e⟩ := lane_eq h.lane
  ⟨a, b, c, d, e⟩

/-- A group effect of one thread's issue. -/
theorem State.Alone.groupOp (h : s.Alone i o check t L) {f : Lane → State → State} {th : Thread} (hc : (f L s).cur = s.cur)
    (hb : (f L s).thread? s.cur.core s.cur.slot t = some th) (hd : th.due = []) :
    s.groupOp i o check f = (f L s).moveTo [t] s.cur.next := by
  have hl : s.lane? o [t] t = some L := h.lane1
  have := h.moved (body := fun wave ok s0 =>
    match ok.foldl (fun (m : Option Nat) t => match m with
        | none => some t
        | some u => if homeLane t < homeLane u then some t else some u) none with
    | some t => match s0.lane? o wave t with | some L => f L s0 | none => s0
    | none => s0) (th := th) (by simp only [List.foldl, hl]; exact hc) (by simp only [List.foldl, hl]; exact hb) hd
  refine this.trans ?_
  simp only [List.foldl, hl]

/-- An effect lane by lane of one thread's issue. -/
theorem State.Alone.sliceOp (h : s.Alone i o check t L) {f : Lane → State → State} {th : Thread} (hc : (f L s).cur = s.cur)
    (hb : (f L s).thread? s.cur.core s.cur.slot t = some th) (hd : th.due = []) :
    s.sliceOp i o check f = (f L s).moveTo [t] s.cur.next := by
  have := h.moved (body := fun wave ok s0 => ((byLane ok).filterMap (s0.lane? o wave)).foldl (fun s1 L => f L s1) s0)
    (th := th) (by simp only [h.lanes]; exact hc) (by simp only [h.lanes]; exact hb) hd
  refine this.trans ?_
  simp only [h.lanes, List.foldl]

end

end Sys2Proof.Machine
end

