-- ==== Sys2Proof/Laws/Registers.lean ====
section
/-! SUPPORT. Laws of a thread's registers: reading after writing, the full and empty bits, and what a write leaves. -/

namespace Sys2Proof.Laws

open Sys2Proof.Machine

theorem get_put_self (th : Thread) (r : Nat) (w : Word) : (th.put r w).get r = w := by
  unfold Thread.put Thread.get
  by_cases h : r < 256 <;> simp [h]

theorem get_put_other (th : Thread) {r k : Nat} (w : Word) (h : k ≠ r) : (th.put r w).get k = th.get k := by
  unfold Thread.put Thread.get
  by_cases h1 : r < 256 <;> by_cases h2 : k < 256 <;> simp only [h1, h2, if_true, if_false]
  · exact tget_tset_other _ _ _ h
  · exact tget_tset_other _ _ _ (by omega)

/-- A register that a producer has just filled stays empty until the next front cycle (R277); any other is full once written. -/
theorem isEmpty_put_self (th : Thread) (r : Nat) (w : Word) : (th.put r w).isEmpty r = th.newly.contains r := by
  unfold Thread.put Thread.isEmpty
  by_cases h : r < 256 <;> simp [h]

theorem isEmpty_put_other (th : Thread) {r k : Nat} (w : Word) (h : k ≠ r) : (th.put r w).isEmpty k = th.isEmpty k := by
  unfold Thread.put Thread.isEmpty
  by_cases h1 : r < 256 <;> by_cases h2 : k < 256 <;> simp only [h1, h2, if_true, if_false]
  · simp [List.contains_eq_mem, h]
  · have : k - 256 ≠ r - 256 := by omega
    simp [List.contains_eq_mem, this]

/-- A write of a register leaves everything of the thread but its vector and trap registers. -/
theorem put_rest (th : Thread) (r : Nat) (w : Word) :
    ({ th.put r w with v := th.v, vEmpty := th.vEmpty, t := th.t, tEmpty := th.tEmpty } : Thread) = th := by
  unfold Thread.put
  split <;> rfl

@[simp] theorem put_due (th : Thread) (r : Nat) (w : Word) : (th.put r w).due = th.due := by
  unfold Thread.put
  split <;> rfl

@[simp] theorem putAll_due (th : Thread) (r : Nat) (ws : List Word) : (th.putAll r ws).due = th.due := by
  induction ws generalizing th r with
  | nil => rfl
  | cons w ws ih => rw [Thread.putAll, ih, put_due]

@[simp] theorem drain_due (th : Thread) (r : Nat) : (th.drain r).due = th.due := by
  unfold Thread.drain
  split <;> rfl

theorem isEmpty_drain_self (th : Thread) (r : Nat) : (th.drain r).isEmpty r = true := by
  unfold Thread.drain Thread.isEmpty
  by_cases h : r < 256 <;> simp only [h, if_true, if_false] <;> split <;> simp_all

theorem get_drain (th : Thread) (r k : Nat) : (th.drain r).get k = th.get k := by
  unfold Thread.drain Thread.get
  by_cases h : r < 256 <;> simp only [h, if_true, if_false]

@[simp] theorem setPred_due (th : Thread) (n : Nat) (b : Bool) : (th.setPred n b).due = th.due := by
  unfold Thread.setPred
  split <;> rfl

@[simp] theorem raiseFlags_due (th : Thread) (f : BitVec 6) : (th.raiseFlags f).due = th.due := rfl

@[simp] theorem putD_due (L : Lane) (wide : Bool) (v : Dword) : (L.putD wide v).due = L.th.due := by
  unfold Lane.putD
  split
  · exact putAll_due _ _ _
  · exact put_due _ _ _

@[simp] theorem putF_due (L : Lane) (r : Nat × BitVec 6) : (L.putF r).due = L.th.due := putD_due _ _ _

/-- p0 reads 1, and a write to it is discarded (R120). -/
@[simp] theorem pred_zero (th : Thread) : th.pred 0 = true := rfl
@[simp] theorem setPred_zero (th : Thread) (b : Bool) : th.setPred 0 b = th := rfl

end Sys2Proof.Laws
end

