-- ==== Sys2Proof/Laws/Shapes.lean ====
section
/-! SUPPORT. Laws of the shared shapes of meanings over a wave whose active threads all go on: a group effect, a cross-lane
result, and the order of lanes. -/

namespace Sys2Proof.Laws

open Sys2Proof.Machine

/-! ## The order of lanes -/

theorem mem_laneInsert (t u : Nat) (l : List Nat) : u ∈ laneInsert t l ↔ u = t ∨ u ∈ l := by
  induction l with
  | nil => simp [laneInsert]
  | cons x l ih =>
    unfold laneInsert
    split
    · simp
    · simp only [List.mem_cons, ih]; constructor <;> rintro (h | h | h) <;> simp [h]

@[simp] theorem mem_byLane (u : Nat) (l : List Nat) : u ∈ byLane l ↔ u ∈ l := by
  induction l with
  | nil => simp [byLane]
  | cons t l ih => simp [byLane, mem_laneInsert, ih]

theorem nodup_laneInsert {t : Nat} {l : List Nat} (h : t ∉ l) (hl : l.Nodup) : (laneInsert t l).Nodup := by
  induction l with
  | nil => simp [laneInsert]
  | cons x l ih =>
    unfold laneInsert
    split
    · exact List.nodup_cons.2 ⟨h, hl⟩
    · rw [List.nodup_cons] at hl ⊢
      simp only [List.mem_cons, not_or] at h
      refine ⟨?_, ih h.2 hl.2⟩
      rw [mem_laneInsert]
      rintro (rfl | hx)
      · exact h.1 rfl
      · exact hl.1 hx

theorem nodup_byLane {l : List Nat} (h : l.Nodup) : (byLane l).Nodup := by
  induction l with
  | nil => simp [byLane]
  | cons t l ih =>
    rw [List.nodup_cons] at h
    exact nodup_laneInsert (by simpa using h.1) (ih h.2)

/-- The lowest home lane that groupOp takes is the first of byLane. -/
theorem head_byLane (l : List Nat) :
    l.foldl (fun (m : Option Nat) t => match m with
      | none => some t
      | some u => if homeLane t < homeLane u then some t else some u) none = (byLane l).head? := by
  have key : ∀ (l : List Nat) (u : Nat), l.foldl (fun (m : Option Nat) t => match m with
      | none => some t
      | some u => if homeLane t < homeLane u then some t else some u) (some u) = (byLane (u :: l)).head? := by
    intro l
    induction l with
    | nil => intro u; rfl
    | cons t l ih =>
      intro u
      rw [List.foldl_cons]
      have hb : ∀ (a : Nat) (m : List Nat), (byLane (a :: m)).head? =
          some (match (byLane m).head? with | none => a | some b => if homeLane a ≤ homeLane b then a else b) := by
        intro a m
        show (laneInsert a (byLane m)).head? = _
        cases byLane m with
        | nil => rfl
        | cons b r => unfold laneInsert; split <;> first | (simp_all; done) | (simp_all; omega)
      simp only
      have : (if homeLane t < homeLane u then some t else some u) = some (if homeLane t < homeLane u then t else u) := by split <;> rfl
      rw [this, ih, hb, hb u (t :: l), hb t l]
      cases (byLane l).head? with
      | none => simp only; split <;> split <;> first | rfl | (exfalso; omega)
      | some b =>
        simp only
        congr 1
        repeat' split
        all_goals first | rfl | (exfalso; omega)
  cases l with
  | nil => rfl
  | cons t l => exact key l t

/-- A change of each thread of a list of lanes, where no thread stands twice. -/
theorem thread_foldl_lanes (f : Lane → Thread) (c g t : Nat) (ls : List Lane) (s : State) (h : (ls.map (·.tid)).Nodup) :
    (ls.foldl (fun s1 L => s1.modThread c g L.tid (fun _ => f L)) s).thread? c g t =
      match ls.find? (fun L => L.tid == t) with
      | some L => (s.thread? c g t).map (fun _ => f L)
      | none => s.thread? c g t := by
  induction ls generalizing s with
  | nil => rfl
  | cons L ls ih =>
    rw [List.map_cons, List.nodup_cons] at h
    rw [List.foldl_cons, ih _ h.2, List.find?_cons]
    by_cases ht : L.tid = t
    · subst ht
      simp only [BEq.rfl]
      have : ls.find? (fun M => M.tid == L.tid) = none := by
        rw [List.find?_eq_none]
        intro M hM hx
        exact h.1 (List.mem_map.2 ⟨M, hM, by simpa using hx⟩)
      rw [this, thread_modThread]
    · have : (L.tid == t) = false := by simpa using ht
      rw [this]
      simp only
      rw [thread_modThread_other _ _ (fun k => ht k.2.2.symm)]

theorem cur_foldl_lanes (f : Lane → Thread) (c g : Nat) (ls : List Lane) (s : State) :
    (ls.foldl (fun s1 L => s1.modThread c g L.tid (fun _ => f L)) s).cur = s.cur := by
  induction ls generalizing s with
  | nil => rfl
  | cons L ls ih => rw [List.foldl_cons, ih, cur_modThread]

end Sys2Proof.Laws

namespace Sys2Proof.Machine

open Sys2Proof.Laws

section

variable {s : State} {i : Instr} {o : Op} {check : Lane → Option Trap} {t : Nat} {L : Lane}

/-- Those that pass are those that no check traps. -/
theorem passers_going (s : State) (i : Instr) (o : Op) (check : Lane → Option Trap) :
    passers s i o check = (s.actives o (s.readyWave i o)).filter (fun t => (s.trapOf i o (s.readyWave i o) check t).isNone) := by
  unfold passers
  refine List.filter_congr (fun t ht => ?_)
  rw [Bool.eq_iff_iff]
  simp only [Bool.not_eq_true', ← Bool.not_eq_true, List.contains_iff_mem, Option.isNone_iff_eq_none]
  unfold trapsOf
  constructor
  · intro h
    cases hx : s.trapOf i o (s.readyWave i o) check t with
    | none => rfl
    | some x => exact absurd (List.mem_map.2 ⟨(t, x), List.mem_filterMap.2 ⟨t, ht, by simp [hx]⟩, rfl⟩) h
  · intro h hm
    obtain ⟨e, he, rfl⟩ := List.mem_map.1 hm
    obtain ⟨u, _, hu⟩ := List.mem_filterMap.1 he
    cases hx : s.trapOf i o (s.readyWave i o) check u with
    | none => simp [hx] at hu
    | some x => simp only [hx, Option.map_some, Option.some.injEq] at hu; subst hu; rw [hx] at h; cases h

theorem going_eq (s : State) (i : Instr) (o : Op) (check : Lane → Option Trap) :
    (byLane (passers s i o check)).filterMap (s.lane? o (s.readyWave i o)) = s.going i o check := by
  rw [passers_going]; rfl

theorem lane_tid {s : State} {o : Op} {wave : List Nat} {t : Nat} {L : Lane} (h : s.lane? o wave t = some L) : L.tid = t :=
  (lane_eq h).2.2.2.2.2.2.1

theorem lanes_tids (s : State) (o : Op) (wave : List Nat) {l : List Nat} (h : l.Nodup) :
    ((l.filterMap (s.lane? o wave)).map (·.tid)).Nodup := by
  induction l with
  | nil => simp
  | cons t l ih =>
    rw [List.nodup_cons] at h
    cases hx : s.lane? o wave t with
    | none => rw [List.filterMap_cons_none hx]; exact ih h.2
    | some L =>
      rw [List.filterMap_cons_some hx, List.map_cons, List.nodup_cons]
      refine ⟨fun hm => ?_, ih h.2⟩
      obtain ⟨M, hM, ht⟩ := List.mem_map.1 hm
      obtain ⟨u, hu, hl⟩ := List.mem_filterMap.1 hM
      rw [lane_tid hl, lane_tid hx] at ht
      exact h.1 (ht ▸ hu)

/-- A cross-lane result: the thread becomes what f gives of all participants. -/
theorem State.Goes.crossOp (h : s.Goes i o noCheck t L) (f : List Lane → Lane → Thread)
    (hd : (f (s.going i o noCheck) L).due = []) :
    (s.crossOp i o f).thread? s.cur.core s.cur.slot t =
      some { f (s.going i o noCheck) L with pc := s.cur.next, wait := none } := by
  unfold State.crossOp
  refine h.frame_thread (check := noCheck) ?_ ?_ hd
  · simp only [going_eq]
    exact cur_foldl_lanes _ _ _ _ _
  · simp only [going_eq]
    have hn : ((s.going i o noCheck).map (·.tid)).Nodup := by
      rw [← going_eq]
      exact lanes_tids _ _ _ (nodup_byLane h.nodup)
    rw [thread_foldl_lanes _ _ _ _ _ _ hn]
    have hm : L ∈ s.going i o noCheck := by
      rw [← going_eq]
      exact List.mem_filterMap.2 ⟨t, by simpa using h.mem_passers, h.lane⟩
    have ht := lane_tid h.lane
    cases hf : (s.going i o noCheck).find? (fun M => M.tid == t) with
    | none => exact absurd (List.find?_eq_none.1 hf L hm) (by simp [ht])
    | some M =>
      have hM := List.mem_of_find?_eq_some hf
      have hMt : M.tid = t := by simpa using List.find?_some hf
      have : M = L := by
        rw [← going_eq] at hM
        obtain ⟨u, hu, hl⟩ := List.mem_filterMap.1 hM
        have := lane_tid hl
        rw [hMt] at this
        subst this
        rw [h.lane] at hl
        exact (Option.some.inj hl).symm
      rw [this, lane_thread h.lane]
      rfl

theorem State.same_crossOp (s : State) (i : Instr) (o : Op) (f : List Lane → Lane → Thread) : s.SameMachine (s.crossOp i o f) :=
  State.same_frame i o noCheck false (fun _ _ => same_foldl _ (fun s _ => same_modThread s _ _ _ _) _ _)

/-! ## A wave whose active threads all go on -/

theorem State.Together.group (h : s.Together i o check L) : s.group? s.cur.core s.cur.slot = some L.g := by
  have := h.lead
  obtain ⟨t, _, hl⟩ := List.mem_filterMap.1 (List.mem_of_mem_head? (Option.mem_def.2 this))
  exact (lane_eq hl).1

theorem State.Together.place (h : s.Together i o check L) : L.s = s ∧ L.c = s.cur.core ∧ L.slot = s.cur.slot ∧ L.o = o := by
  have := h.lead
  obtain ⟨t, _, hl⟩ := List.mem_filterMap.1 (List.mem_of_mem_head? (Option.mem_def.2 this))
  obtain ⟨_, _, a, b, c, _, _, e⟩ := lane_eq hl
  exact ⟨a, b, c, e⟩

theorem State.Together.traps (h : s.Together i o check L) : trapsOf s i o check = [] := by
  unfold trapsOf
  rw [List.filterMap_eq_nil_iff]
  intro t ht
  rw [h.passes t ht]
  rfl

theorem State.Together.passers (h : s.Together i o check L) : passers s i o check = s.actives o (s.readyWave i o) := by
  rw [passers_going]
  refine List.filter_eq_self.2 (fun t ht => ?_)
  rw [h.passes t ht]
  rfl

theorem State.Together.some_active (h : s.Together i o check L) : (s.actives o (s.readyWave i o)).isEmpty = false := by
  cases hx : s.actives o (s.readyWave i o) with
  | nil => have := h.lead; unfold State.activeLanes at this; rw [hx] at this; cases this
  | cons => rfl

/-- The frame of such a wave: the body, the move, and the deferred traps due, of which a body that makes none due leaves none. -/
theorem State.Together.frame (h : s.Together i o check L) (body : List Nat → List Nat → State → State) (stay : Bool) :
    s.frame i o check body stay =
      ((body (s.readyWave i o) (s.actives o (s.readyWave i o)) s).moveTo
        (if stay then idlers s i o else s.movers i o) s.cur.next).settleAll (s.readyWave i o) := by
  rw [frame_eq check body stay h.group h.tiles, h.traps, h.passers]
  simp only [h.some_active, Bool.false_eq_true, if_false]
  rfl

/-- A state whose threads of the wave have no deferred trap due. -/
def State.calmAt (s : State) (c g : Nat) (ts : List Nat) : Prop := ∀ t ∈ ts, ∀ th, s.thread? c g t = some th → th.due = []

theorem State.calm_moveTo {s : State} {ts us : List Nat} {pc : Dword} (h : s.calmAt s.cur.core s.cur.slot ts) :
    (s.moveTo us pc).settleAll ts = s.moveTo us pc := by
  refine settleAll_calm (fun t ht th hth => ?_)
  rw [cur_moveTo, thread_moveTo] at hth
  split at hth
  · cases hx : s.thread? s.cur.core s.cur.slot t with
    | none => rw [hx] at hth; cases hth
    | some x =>
      rw [hx] at hth
      cases hth
      exact h t ht x hx
  · exact h t ht th hth

/-- A group effect of the whole wave, made once with the lowest active home lane. -/
theorem State.Together.groupOp (h : s.Together i o check L) {f : Lane → State → State} (hc : (f L s).cur = s.cur)
    (hd : (f L s).calmAt s.cur.core s.cur.slot (s.readyWave i o)) :
    s.groupOp i o check f = (f L s).moveTo (s.movers i o) s.cur.next := by
  refine (h.frame _ false).trans ?_
  have hl : (byLane (s.actives o (s.readyWave i o))).head?.bind (s.lane? o (s.readyWave i o)) = some L := by
    have := h.lead
    unfold State.activeLanes at this
    have hall : ∀ t ∈ byLane (s.actives o (s.readyWave i o)), (s.lane? o (s.readyWave i o) t).isSome := by
      intro t ht
      have := (List.mem_filter.1 ((mem_byLane _ _).1 ht)).2
      split at this
      · next x hx => simp [hx]
      · cases this
    cases hb : byLane (s.actives o (s.readyWave i o)) with
    | nil => rw [hb] at this; cases this
    | cons t l =>
      rw [hb] at this hall
      have ht := hall t (by simp)
      obtain ⟨x, hx⟩ := Option.isSome_iff_exists.1 ht
      rw [List.filterMap_cons_some hx] at this
      simpa [hx] using this
  rw [← head_byLane] at hl
  cases hb : (s.actives o (s.readyWave i o)).foldl (fun (m : Option Nat) t => match m with
      | none => some t
      | some u => if homeLane t < homeLane u then some t else some u) none with
  | none => rw [hb] at hl; cases hl
  | some t =>
    rw [hb] at hl
    simp only [Option.bind_some] at hl
    simp only [hl, Bool.false_eq_true, if_false]
    exact State.calm_moveTo (by rw [hc]; exact hd)

end

end Sys2Proof.Machine
end

