-- ==== Sys2Proof/Laws/Waits.lean ====
section
/-! SUPPORT. What a slab whose mode is to change holds up, what a step tidies first, and work that is put off: one lemma for each shared
operation, of all that it can do. -/

namespace Sys2Proof.Laws

open Sys2Proof.Machine

/-- A step of a unit of the hub is made, or waits as a whole (R15). -/
theorem waitSlab_cases (s : State) (f : State → State) : s.waitSlab f = f s ∨ s.waitSlab f = s := by
  unfold State.waitSlab
  split
  · exact .inl rfl
  · simp only []
    split
    · exact .inr rfl
    · exact .inl rfl

/-- While no change waits it is made. -/
@[simp] theorem waitSlab_calm {s : State} (f : State → State) (h : s.hub.slabWait = []) : s.waitSlab f = f s := by
  simp [State.waitSlab, h]

@[simp] theorem slabHeld_calm {s : State} (pa : Nat) (h : s.hub.slabWait = []) : s.slabHeld pa = false := by
  simp [State.slabHeld, h]

@[simp] theorem touchSlab_calm {s : State} (pa : Nat) (h : s.hub.slabWait = []) : s.touchSlab pa = s := by
  simp [State.touchSlab, slabHeld_calm pa h]

@[simp] theorem tidySlab_calm {s : State} (h : s.hub.slabWait = []) : s.tidySlab = s := by
  simp [State.tidySlab, h]

/-- Where no error stands and no line is owned, reading the blocks to fetch changes nothing (R18, R93). -/
theorem fetchReads_calm {s : State} (c quad : Nat) (h : s.errors = []) (k : ∀ v ∈ s.vaults, v.2.excls = []) : s.fetchReads c quad = s := by
  rw [State.fetchReads, if_pos]
  simpa [h] using k

/-- Work is put off: nothing but the thread's full bits and the core's list of late work changes. -/
theorem putOff_keeps (s : State) (c slot t : Nat) (w : LateWork) :
    (s.putOff c slot t w).memory = s.memory ∧ (s.putOff c slot t w).hub = s.hub ∧ (s.putOff c slot t w).net = s.net ∧
      (s.putOff c slot t w).clusters = s.clusters := by
  simp only [State.putOff, State.modThread, State.modGroup]
  split <;> simp [State.setGroup]

/-- A move that performs late work where there is none does nothing. -/
theorem perform_none {s : State} {c n : Nat} (h : (s.core c).late[n]? = none) : s.perform c n = s := by
  simp [State.perform, h]

/-- A scratchpad access is not performed before an earlier one of its thread (R99). -/
theorem perform_waits {s : State} {c n : Nat} {e x : Late} (h : (s.core c).late[n]? = some e) (hs : e.work.isSpad = true)
    (hx : x ∈ (s.core c).late.take n) (h1 : x.slot = e.slot) (h2 : x.tid = e.tid) (h3 : x.work.isSpad = true) : s.perform c n = s := by
  rw [State.perform]
  simp only [h]
  rw [if_pos]
  simp only [hs, Bool.true_and, List.any_eq_true]
  exact ⟨x, hx, by simp [h1, h2, h3]⟩

end Sys2Proof.Laws
end

