-- ==== Sys2Proof/Tests/Slice0.lean ====
section
/-! SUPPORT. Tests: words written out from the spec's encodings, ill-formed terms that WellFormed refuses, and for every statement with
hypotheses a state and operands that meet them. -/

namespace Sys2Proof.Tests

set_option maxRecDepth 100000
set_option Elab.async false

open Sys2Proof Sys2Proof.Machine Sys2Proof.Claims

theorem all_of_check {α : Type} {P : α → Prop} [DecidablePred P] {l : List α} (h : (l.all fun v => decide (P v)) = true) :
    ∀ v ∈ l, P v := by simpa using h

/-! ## A thread that goes on -/

/-- The check that a thread goes on with the instruction that its wave issues. -/
def goesB (s : State) (i : Instr) (o : Op) (check : Lane → Option Trap) (t : Nat) : Bool :=
  let w := s.readyWave i o
  decide s.cur.threads.Nodup && w.contains t &&
    match s.lane? o w t with
    | none => false
    | some L => (tilesOf i).all (fun x => x < L.g.record.tiles) && L.active && (s.trapOf i o w check t).isNone && L.th.due.isEmpty

/-- The lane of a thread of the wave under way. -/
def laneAt (s : State) (i : Instr) (o : Op) (t : Nat) : Lane :=
  (s.lane? o (s.readyWave i o) t).getD
    { s := s, c := 0, slot := 0, g := soleGroup, wave := [], tid := 0, th := Thread.start 0 0, o := o }

theorem goes_of_check {s : State} {i : Instr} {o : Op} {check : Lane → Option Trap} {t : Nat} (h : goesB s i o check t = true) :
    s.Goes i o check t (laneAt s i o t) := by
  unfold goesB at h
  simp only [Bool.and_eq_true, decide_eq_true_eq, List.contains_iff_mem] at h
  obtain ⟨⟨h1, h2⟩, h3⟩ := h
  cases hl : s.lane? o (s.readyWave i o) t with
  | none => simp [hl] at h3
  | some L =>
    simp only [hl, Bool.and_eq_true, List.all_eq_true, decide_eq_true_eq, Option.isNone_iff_eq_none, List.isEmpty_iff] at h3
    obtain ⟨⟨⟨h3, h4⟩, h5⟩, h6⟩ := h3
    have e : laneAt s i o t = L := by simp [laneAt, hl]
    rw [e]
    exact ⟨h1, h2, hl, h3, h4, h5, h6⟩

/-- The same for a wave of one thread, which begins the instruction. -/
def aloneB (s : State) (i : Instr) (o : Op) (check : Lane → Option Trap) (t : Nat) : Bool :=
  goesB s i o check t && s.readyWave i o == [t] && (laneAt s i o t).th.wait.isNone

theorem alone_of_check {s : State} {i : Instr} {o : Op} {check : Lane → Option Trap} {t : Nat} (h : aloneB s i o check t = true) :
    s.Alone i o check t (laneAt s i o t) := by
  simp only [aloneB, Bool.and_eq_true, beq_iff_eq, Option.isNone_iff_eq_none] at h
  exact { goes_of_check h.1.1 with sole := h.1.2, fresh := h.2 }

/-- The lowest active lane. -/
def leadLane (s : State) (i : Instr) (o : Op) : Lane := (s.activeLanes i o).headD (laneAt s i o 0)

/-- Every active thread goes on, and there is one. -/
def togetherB (s : State) (i : Instr) (o : Op) (check : Lane → Option Trap) : Bool :=
  decide s.cur.threads.Nodup && (s.activeLanes i o).head?.isSome
    && (tilesOf i).all (fun x => x < (leadLane s i o).g.record.tiles)
    && (s.actives o (s.readyWave i o)).all (fun x => (s.trapOf i o (s.readyWave i o) check x).isNone)
    && (s.readyWave i o).all (fun x => (s.thread? s.cur.core s.cur.slot x).all (fun th => th.due.isEmpty))

theorem together_of_check {s : State} {i : Instr} {o : Op} {check : Lane → Option Trap} (h : togetherB s i o check = true) :
    s.Together i o check (leadLane s i o) := by
  simp only [togetherB, Bool.and_eq_true, decide_eq_true_eq, List.all_eq_true, Option.isNone_iff_eq_none] at h
  obtain ⟨⟨⟨⟨h1, h2⟩, h3⟩, h4⟩, h5⟩ := h
  refine ⟨h1, ?_, h3, h4, fun t ht th hth => ?_⟩
  · obtain ⟨L, hL⟩ := Option.isSome_iff_exists.mp h2
    simp [leadLane, List.headD_eq_head?_getD, hL]
  · have := h5 t ht
    rw [hth] at this
    simpa [List.isEmpty_iff] using this

/-! ## States -/

/-- One thread that issues at codePc. -/
def at1 : State := { State.reset.withBlock [] with agenda := [], cur := ⟨0, 0, 0, codePc, 0x8000, codePc + 8, [0], false⟩ }

def op96 : Op := { blankOp with form := .w96 }
def f8 (o : Op) : Op := { o with fn := 8 }

def ints : List Instr :=
  [.iadd blankOp, .isub blankOp, .imul blankOp, .imulh blankOp, .imin blankOp, .imax blankOp, .and blankOp, .or blankOp,
   .xor blankOp, .andn blankOp, .shl blankOp, .shr blankOp, .sar blankOp, .rotl blankOp, .iabs blankOp, .ineg blankOp, .not blankOp,
   .clz blankOp, .popc blankOp, .brev blankOp, .imad op96, .iadd3 op96, .lea op96, .bfx blankOp, .bfi op96, .icmp blankOp,
   .pand blankOp, .por blankOp, .pxor blankOp, .pnot blankOp, .pset blankOp]

def floats : List Instr :=
  [.fadd (f8 blankOp), .fsub (f8 blankOp), .fmul (f8 blankOp), .ffma (f8 op96), .fmin (f8 blankOp), .fmax (f8 blankOp),
   .fcmp (f8 blankOp), .fclass (f8 blankOp), .frnd (f8 blankOp), .fscale (f8 blankOp), .fmode blankOp,
   .hadd2 { blankOp with fn := 9 }, .hmul2 { blankOp with fn := 10 }, .hfma2 { op96 with fn := 9 }]

def moves : List Instr :=
  [.mov blankOp, .moviPair { blankOp with fn := 1, imm := true }, .sel blankOp, .smovV32S { blankOp with fn := 3 },
   .smovV64S { blankOp with fn := 4 }, .prmt op96, .rblkQry { blankOp with fn := 3 }, .idx blankOp, .idxadd blankOp, .srdV32 blankOp,
   .srdV64 { blankOp with fn := 1 }, .bcast blankOp, .cvt blankOp, .pack { blankOp with fn := 9 }, .unpk { blankOp with fn := 9 },
   .qnt { blankOp with fn := 4 }, .qexp { blankOp with fn := 4 }, .dqnt { blankOp with fn := 4 }, .hdm blankOp,
   .hdmNorm { blankOp with fn := 1 }, .accrd blankOp, .jqry blankOp, .cvstat blankOp, .fence blankOp, .lpad blankOp, .nop 0x3C0 blankOp]

/-- Each instruction of a list is well-formed, and the thread of `at1` goes on with it. -/
def rowsGo (tab : Instr → Option Row) (l : List Instr) : Bool :=
  l.all fun i => i.wf && (tab i).any (fun r => goesB at1 i r.op r.check 0)

theorem rows_go {tab : Instr → Option Row} {l : List Instr} (h : rowsGo tab l = true) :
    ∀ i ∈ l, ∃ r L, tab i = some r ∧ at1.Goes i r.op r.check 0 L := by
  intro i hi
  have h1 := List.all_eq_true.mp h i hi
  simp only [Bool.and_eq_true] at h1
  obtain ⟨-, h1⟩ := h1
  cases hr : tab i with
  | none => simp [hr] at h1
  | some r => exact ⟨r, _, rfl, goes_of_check (by simpa [hr] using h1)⟩

theorem met_integers : ∀ i ∈ ints, ∃ r L, intRow i = some r ∧ at1.Goes i r.op r.check 0 L := rows_go (by decide +kernel)
theorem met_floats : ∀ i ∈ floats, ∃ r L, floatRow i = some r ∧ at1.Goes i r.op r.check 0 L := rows_go (by decide +kernel)
theorem met_moves : ∀ i ∈ moves, ∃ r L, moveRow i = some r ∧ at1.Goes i r.op r.check 0 L := rows_go (by decide +kernel)


/-! ## An answer -/

/-- exec answers a next state. -/
def answers (i : Instr) (s : State) : Bool := match exec i s with | .next _ => true | _ => false

theorem next_of_answers {i : Instr} {s : State} (h : answers i s = true) : ∃ u, exec i s = .next u := by
  unfold answers at h
  split at h
  · exact ⟨_, by assumption⟩
  · cases h

theorem met_lane_frame : ∃ (i : Instr) (r : Row) (s u : State), intRow i = some r ∧ exec i s = .next u :=
  have ⟨u, h⟩ := next_of_answers (i := .iadd blankOp) (s := at1) (by decide +kernel)
  ⟨_, _, _, u, rfl, h⟩
theorem met_bit_fields : ∃ w k : Nat, k < w := ⟨32, 31, by decide +kernel⟩

/-! ## Special functions and cross-lane instructions -/

/-- Two threads of one wave, with 7 and 9 in v1 and one predicate of the two set. -/
def at2 : State :=
  let g := { soleGroup with threads :=
    [(Thread.start codePc 0x8000).put 1 7, ((Thread.start codePc 0x8000).put 1 9).setPred 1 true] }
  { at1.setGroup 0 0 g with cur := { at1.cur with threads := [0, 1] } }

def specials : List Instr :=
  [.rcp (f8 blankOp), .rsq (f8 blankOp), .sqrt (f8 blankOp), .exp2 (f8 blankOp), .log2 (f8 blankOp), .sin (f8 blankOp),
   .cos (f8 blankOp), .tanh (f8 blankOp)]
def cross : List Instr :=
  [.elect { blankOp with d := 1 }, .voteAll { blankOp with d := 1, a := 1 }, .voteAny { blankOp with d := 1, a := 1, fn := 1 },
   .voteUni { blankOp with d := 1, a := 1, fn := 2 }, .ballot { blankOp with a := 1 }, .red { blankOp with a := 1 },
   .scan { blankOp with a := 1 }]

/-- Each instruction of a list is well-formed, and thread 1 of `at2` goes on with it. -/
def opsGo (op : Instr → Option Op) (s : State) (l : List Instr) : Bool :=
  l.all fun i => i.wf && (op i).any (fun o => goesB s i o noCheck 1)

theorem ops_go {op : Instr → Option Op} {s : State} {l : List Instr} (h : opsGo op s l = true) :
    ∀ i ∈ l, ∃ o L, op i = some o ∧ s.Goes i o noCheck 1 L := by
  intro i hi
  have h1 := List.all_eq_true.mp h i hi
  simp only [Bool.and_eq_true] at h1
  obtain ⟨-, h1⟩ := h1
  cases hr : op i with
  | none => simp [hr] at h1
  | some o => exact ⟨o, _, rfl, goes_of_check (by simpa [hr] using h1)⟩

theorem met_specials : ∀ i ∈ specials, ∃ o L, (sfuRow i).map (·.1) = some o ∧ at2.Goes i o noCheck 1 L := ops_go (by decide +kernel)
theorem met_cross : ∀ i ∈ cross, ∃ o L, (crossRow i).map (·.1) = some o ∧ at2.Goes i o noCheck 1 L := ops_go (by decide +kernel)

/-- RCP of 2.0 and of 4.0 stand in quadrant 3's queue. -/
def withResults : State :=
  at2.modCore 0 fun k => { k with sfuQ := [(3, [[⟨0, 0, 0, false, 0x40000000, 0, 5⟩, ⟨0, 1, 0, false, 0x40800000, 0, 5⟩]])] }
theorem met_results : ∃ (c q : Nat) (s : State) (w : List Sfu) (rest : List (List Sfu)),
    tget [] (s.core c).sfuQ q = w :: rest ∧ (w.map fun x => (x.slot, x.tid)).Nodup :=
  ⟨0, 3, withResults, _, _, rfl, by decide +kernel⟩

/-- The threads that are ready have no deferred trap. -/
theorem calm_of_check {s : State} {i : Instr} {o : Op}
    (h : ((s.readyWave i o).all fun t => (s.lane? o (s.readyWave i o) t).all fun L => L.th.due.isEmpty) = true) :
    ∀ t L, s.lane? o (s.readyWave i o) t = some L → t ∈ s.readyWave i o → L.th.due = [] := by
  intro t L hL ht
  have h1 := List.all_eq_true.mp h t ht
  simpa [hL, List.isEmpty_iff] using h1

theorem met_elect : ∀ d ∈ [(0 : Byte), 1], (Instr.elect { blankOp with d := d }).wf = true ∧ at2.cur.threads.Nodup ∧
    (∀ t L, at2.lane? { blankOp with d := d } (at2.readyWave (.elect { blankOp with d := d }) { blankOp with d := d }) t = some L →
      t ∈ at2.readyWave (.elect { blankOp with d := d }) { blankOp with d := d } → L.th.due = []) ∧
    at2.going (.elect { blankOp with d := d }) { blankOp with d := d } noCheck ≠ [] := by
  intro d hd
  refine ⟨?_, by decide +kernel, calm_of_check ?_, fun h => ?_⟩
  case refine_3 =>
    have h1 : (at2.going (.elect { blankOp with d := d }) { blankOp with d := d } noCheck).length = 2 := by
      revert d; exact fun d hd _ => (all_of_check (P := fun d => (at2.going (.elect { blankOp with d := d }) { blankOp with d := d } noCheck).length = 2)
        (l := [(0 : Byte), 1]) (by decide +kernel)) d hd
    rw [h] at h1
    cases h1
  all_goals (revert d; exact all_of_check (by decide +kernel))

/-! ## Group effects -/

def onces : List Instr :=
  [.moviScalar { blankOp with imm := true }, .smovSS blankOp, .smovSV32 { blankOp with fn := 1 }, .smovSV64 { blankOp with fn := 2 },
   .srdS { blankOp with fn := 2 }, .jdecl { blankOp with imm := true, b := 2 }, .jrst blankOp, .accz blankOp,
   .accst { blankOp with fn := 8, a := 1 }, .fenceE { blankOp with fn := 1 }, .syncr { blankOp with fn := 1 }, .cvjoin { blankOp with b := 2 },
   .cvleave blankOp, .cvslip { blankOp with imm := true, b := 4 }]
theorem met_group_effects : ∀ i ∈ onces, ∃ r L, onceRow i = some r ∧ at2.Together i r.op r.check L := by
  have h : (onces.all fun i => i.wf && (onceRow i).any (fun r => togetherB at2 i r.op r.check)) = true := by decide +kernel
  intro i hi
  have h1 := List.all_eq_true.mp h i hi
  simp only [Bool.and_eq_true] at h1
  obtain ⟨-, h1⟩ := h1
  cases hr : onceRow i with
  | none => simp [hr] at h1
  | some r => exact ⟨r, _, rfl, together_of_check (by simpa [hr] using h1)⟩

theorem met_mode_writes : ∀ a ∈ [(3 : Byte), 4], ∃ val L,
    swrRow (.swrB { blankOp with a := a }) = some ({ blankOp with a := a }, val) ∧
      at2.Goes (.swrB { blankOp with a := a }) { blankOp with a := a } (swrCheck (.swrB { blankOp with a := a }) val) 1 L := by
  intro a ha
  refine ⟨_, _, rfl, goes_of_check (t := 1) ?_⟩
  revert a
  exact all_of_check (by decide +kernel)
theorem met_group_writes : ∀ a ∈ [(0x11 : Byte), 0x15, 0x30, 0x31], ∃ val L,
    swrRow (.swrB { blankOp with a := a }) = some ({ blankOp with a := a }, val) ∧
      at2.Together (.swrB { blankOp with a := a }) { blankOp with a := a } (swrCheck (.swrB { blankOp with a := a }) val) L := by
  intro a ha
  refine ⟨_, _, rfl, together_of_check ?_⟩
  revert a
  exact all_of_check (by decide +kernel)
theorem met_group_frame : ∃ (i : Instr) (s u : State), (onceRow i).isSome ∧ exec i s = .next u :=
  have ⟨u, h⟩ := next_of_answers (i := .accz blankOp) (s := at2) (by decide +kernel)
  ⟨_, _, u, rfl, h⟩

/-! ## Tiles, scale memory, signatures and the scratchpad -/

/-- At offset 0 of core 0's scratchpad a sync word: GEN 5, TARGET 2, COUNT 1. Join register 0 names threads 0 and 1, and join
register 1 thread 0 alone. The handler's address is codePc, where two NOPs stand. -/
def atS : State :=
  let s0 := State.reset.withBlock (laid [0x00000F01, 0, 0x00000F01, 0])
  let s1 := s0.modCore 0 fun k => { k with spad := zipFrom 0 [1, 0, 0, 2, 0, 0, 5, 0] }
  { s1.modGroup 0 0 fun g => { g with
      tvec := codePc
      j := [(0, { count := 2, first := 0, signed := 0, sig := none, signers := [] }),
            (1, { count := 1, first := 0, signed := 0, sig := none, signers := [] })] } with
    agenda := [], cur := ⟨0, 0, 0, codePc, 0x8000, codePc + 8, [0], false⟩ }

def op128 : Op := { blankOp with form := .w128 }

theorem met_scale_writes : ∀ i ∈ [Instr.scl op96, .sclRaw { op96 with fn := 1 }], ∃ o f L, scaleRow i = some (o, f) ∧
    atS.Alone i o sclCheck 0 L := by
  intro i hi
  simp only [List.mem_cons, List.not_mem_nil, or_false] at hi
  obtain rfl | rfl := hi
  · exact ⟨_, _, _, rfl, alone_of_check (by decide +kernel)⟩
  · exact ⟨_, _, _, rfl, alone_of_check (by decide +kernel)⟩
theorem met_tile_writes : ∃ L, atS.Alone (.accwr blankOp) blankOp (accCheck (.accwr blankOp) blankOp) 0 L :=
  ⟨_, alone_of_check (by decide +kernel)⟩
theorem met_tile_clear : ∃ L, atS.Together (.accz blankOp) blankOp noCheck L := ⟨_, together_of_check (by decide +kernel)⟩

/-- An MMA of join register n. -/
def mmaOf (n : Byte) : Op := { op128 with d := 1, a := n }

theorem met_signature : ∃ L, atS.Alone (.mmaRegister (mmaOf 0)) (mmaOf 0) (mmaCheck (mmaOf 0)) 0 L ∧
    (tget Join.empty L.g.j 0).rank 0 = some 0 ∧ (tget Join.empty L.g.j 0).completes 0 = false :=
  ⟨_, alone_of_check (by decide +kernel), by decide +kernel⟩
theorem met_last_signature : ∃ L g, mmaRow (.mmaRegister (mmaOf 1)) = some (mmaOf 1) ∧
    atS.Alone (.mmaRegister (mmaOf 1)) (mmaOf 1) (mmaCheck (mmaOf 1)) 0 L ∧
    (tget Join.empty L.g.j 1).rank 0 = some 0 ∧ (tget Join.empty L.g.j 1).completes 0 = true ∧
    0 < (tget Join.empty L.g.j 1).count ∧ 1 ∉ L.g.xEmpty ∧ (atS.core L.c).planeFull = false ∧
    (withSignature atS L (mmaOf 1) 0).group? L.c L.slot = some g ∧
    (withSignature atS L (mmaOf 1) 0).mmaTrap L.c g (mmaOf 1) (tget Join.empty L.g.j 1).count (formatWords g 1) = none :=
  ⟨laneAt atS (.mmaRegister (mmaOf 1)) (mmaOf 1) 0, _, rfl, alone_of_check (by decide +kernel), by decide +kernel, by decide +kernel, by decide +kernel, by decide +kernel,
    by decide +kernel, rfl, by decide +kernel⟩
theorem met_descriptor : ∃ L, atS.Alone (.mmaDescriptor { mmaOf 0 with fn := 1 }) { mmaOf 0 with fn := 1 }
    (mmaCheck { mmaOf 0 with fn := 1 }) 0 L := ⟨_, alone_of_check (by decide +kernel)⟩

theorem met_scratchpad_load : ∃ L, atS.Alone (.lds blankOp) blankOp (fun L => spadTrap L L.sa (accessBytes blankOp) (accessBytes blankOp)) 0 L ∧
    spadAt L.c L.sa = some (0, 0) := ⟨_, alone_of_check (by decide +kernel), by decide +kernel⟩
theorem met_scratchpad_store : ∃ L, atS.Alone (.sts blankOp) blankOp (fun L => spadTrap L L.sa (accessBytes blankOp) (accessBytes blankOp)) 0 L ∧
    spadAt L.c L.sa = some (0, 0) := ⟨_, alone_of_check (by decide +kernel), by decide +kernel⟩
theorem met_scratchpad_atomics : ∀ i ∈ [Instr.atoms blankOp, .cass op96], ∃ o f L, spadAtomicRow i = some (o, f) ∧
    atS.Alone i o (fun L => spadTrap L L.atomSa (atomSize o) (atomSize o)) 0 L ∧ spadAt L.c L.atomSa = some (0, 0) := by
  intro i hi
  simp only [List.mem_cons, List.not_mem_nil, or_false] at hi
  obtain rfl | rfl := hi
  · exact ⟨_, _, laneAt atS (.atoms blankOp) blankOp 0, rfl, alone_of_check (by decide +kernel), by decide +kernel⟩
  · exact ⟨_, _, laneAt atS (.cass op96) op96 0, rfl, alone_of_check (by decide +kernel), by decide +kernel⟩

theorem met_arm : ∃ L, atS.Alone (.swarm blankOp) blankOp (swarmCheck (.swarm blankOp)) 0 L ∧ spadAt L.c L.saNoOff = some (0, 0) ∧
    ∀ j, j < 8 → (atS.core 0).spadByte (0 + j) = [(1 : Byte), 0, 0, 2, 0, 0, 5, 0][j]? :=
  ⟨_, alone_of_check (by decide +kernel), by decide +kernel⟩
/-- The sync word of `atS`. -/
def word5 : Dword := 0x0005000002000001
theorem met_wait_done : ∃ L, atS.Alone (.swait blankOp) blankOp (fun L => spadTrap L L.saNoOff 8 8) 0 L ∧
    spadAt L.c L.saNoOff = some (0, 0) ∧ 0 ∉ (atS.core 0).failed ∧
    (∀ j, j < 8 → (atS.core 0).spadByte (0 + j) = some (word5.extractLsb' (8 * j) 8)) ∧
    word5.extractLsb' 48 16 ≠ (L.srcBw (.swait blankOp)).extractLsb' 0 16 :=
  ⟨laneAt atS (.swait blankOp) blankOp 0, alone_of_check (by decide +kernel), by decide +kernel⟩
theorem met_wait_on : ∃ L, atS.Alone (.swait { blankOp with imm := true, b := 5 }) { blankOp with imm := true, b := 5 }
    (fun L => spadTrap L L.saNoOff 8 8) 0 L ∧
    word5.extractLsb' 48 16 = (L.srcBw (.swait { blankOp with imm := true, b := 5 })).extractLsb' 0 16 :=
  ⟨laneAt atS (.swait { blankOp with imm := true, b := 5 }) { blankOp with imm := true, b := 5 } 0, alone_of_check (by decide +kernel), by decide +kernel⟩
theorem met_poll : ∃ L, atS.Alone (.swpoll blankOp) blankOp swpollCheck 0 L ∧ spadAt L.c L.sa = some (0, 0) :=
  ⟨_, alone_of_check (by decide +kernel), by decide +kernel⟩

/-- A failed job's word: its failed flag stands, with cause 0x8001. -/
def atFailed : State := (atS.modCore 0 fun k => { k with failed := [0] }).modCluster 0 fun x => { x with failures := [(0, 0x8001)] }
/-- The handler of a group can be entered. -/
def bytesOf (t : Target) : List Byte := match t with | .ok bs => bs | _ => []
theorem target_of_check {t : Target} (h : (match t with | .ok _ => true | _ => false) = true) : t = .ok (bytesOf t) := by
  cases t <;> simp_all [bytesOf]
theorem met_failed_wait : ∃ L bs, atFailed.Alone (.swait blankOp) blankOp noCheck 0 L ∧ spadAt L.c L.saNoOff = some (0, 0) ∧
    (spadTrap L L.saNoOff 8 8).isNone ∧ 0 ∈ (atFailed.core 0).failed ∧ L.g.tvec ≠ 0 ∧ L.th.handler = false ∧
    atFailed.target L.c L.g.ctx L.g.tvec true = .ok bs :=
  ⟨laneAt atFailed (.swait blankOp) blankOp 0, _, alone_of_check (by decide +kernel), by decide +kernel, by decide +kernel, by decide +kernel, by decide +kernel, by decide +kernel,
    target_of_check (by decide +kernel)⟩
theorem met_failed_poll : ∃ L, atFailed.Alone (.swpoll blankOp) blankOp noCheck 0 L ∧ spadAt L.c L.sa = some (0, 0) ∧
    (spadTrap L L.sa 8 8).isNone := ⟨laneAt atFailed (.swpoll blankOp) blankOp 0, alone_of_check (by decide +kernel), by decide +kernel⟩

/-! ## Memory accesses -/

/-- The check that an RSTATE moves the region of an address. -/
def movesB (s : State) (ctx : Nat) (va : Dword) : Bool :=
  match (tfind s.hub.contexts ctx).bind (·.moving) with
  | some (n, since) => n == (va.extractLsb' 53 4).toNat && since ≤ s.seq
  | none => false
theorem still_of_check {s : State} {ctx : Nat} {va : Dword} (h : movesB s ctx va = false) : ¬ Moves s ctx va := by
  rintro ⟨since, h1, h2⟩
  simp [movesB, h1, h2] at h

/-- The check that a thread makes its access alone. -/
def requestsB (s : State) (i : Instr) (r : Request) (t : Nat) : Bool :=
  let L := laneAt s i r.op t
  aloneB s i r.op r.check t && (s.core L.c).accs.isEmpty && (s.core L.c).misses.isEmpty && L.steps i == 0
    && movesB s L.g.ctx (r.acc L).va == false && regionFault (regionAt s L (r.acc L)) L.c (r.acc L).va == none

theorem requests_of_check {s : State} {i : Instr} {r : Request} {t : Nat} (h : requestsB s i r t = true) :
    Requests s i r t (laneAt s i r.op t) := by
  simp only [requestsB, Bool.and_eq_true, beq_iff_eq, List.isEmpty_iff] at h
  obtain ⟨⟨⟨⟨⟨h1, h2⟩, h3⟩, h4⟩, h5⟩, h6⟩ := h
  exact { alone_of_check h1 with idle := ⟨h2, h3⟩, plain := h4, still := still_of_check h5, mapped := h6 }

/-- The thread holds an address of the page at codePc in v0 and v1, and data in v2 and v4; constant bank 0 lies there too. -/
def atM : State :=
  (at1.modGroup 0 0 fun g => { g with record := { g.record with cbank := codePc } }).modThread 0 0 0 fun th =>
    ((th.put 0 0x1000).put 2 0x11223344).put 4 5
/-- The same with an address that no TLB translates. -/
def atMiss : State := atM.modThread 0 0 0 fun th => th.put 0 0x2000
/-- The same with a line in the L1, whose lease ends at 19. -/
def lineAt (excl : Bool) : L1Line :=
  { pa := 0x1000, key := 0, bytes := List.replicate 256 7, wts := 3, rts := 19, dirty := 0, excl := excl, poison := 0, keep := false
    str := false, way := 5, idle := 0 }
def atHit (excl : Bool) : State := atM.modCore 0 fun k => { k with l1 := [lineAt excl] }

def ldO : Op := blankOp
def stO : Op := { blankOp with d := 2 }
def ldcO : Op := { blankOp with a := 6 }
def casO : Op := { op96 with b := 2, w1 := 4 }
def wideO : Op := { op96 with b := 2, w1 := 0x00500000 }
def accesses : List Instr := [.ld ldO, .st stO, .ldc ldcO, .atom { op96 with b := 2 }, .cas casO]

/-- A page that is cached admits an access. -/
def reachesB (s : State) (i : Instr) (r : Request) (e : TlbEnt) : Bool :=
  let L := laneAt s i r.op 0
  let a := r.acc L
  s.tlbLookup L.c L.g.ctx a.va == some e && s.slabHeld (e.pa (regionAt s L a) a.va) == false
    && s.accCheck L.c L.g.ctx (regionAt s L a) e a == none && (a.code == 0 || e.d) && isHub (e.pa (regionAt s L a) a.va) == false
theorem reaches_of_check {s : State} {i : Instr} {r : Request} {e : TlbEnt} (h : reachesB s i r e = true) :
    Reaches s (laneAt s i r.op 0) (r.acc (laneAt s i r.op 0)) e := by
  simp only [reachesB, Bool.and_eq_true, beq_iff_eq, Bool.or_eq_true] at h
  obtain ⟨⟨⟨⟨h1, h2⟩, h3⟩, h4⟩, h5⟩ := h
  exact ⟨h1, h2, h3, h4, h5⟩

/-- An access of the thread in s, by its row. -/
def reqOf (i : Instr) : Request := (memRow i).getD ⟨blankOp, noCheck, fun L => L.access .load 0 0 0 0 false 0 [] []⟩
def laneOfReq (s : State) (i : Instr) : Lane := laneAt s i (reqOf i).op 0
def arrives (s : State) (i : Instr) : Bool := i.wf && requestsB s i (reqOf i) 0 && reachesB s i (reqOf i) codePage

theorem arrives_met {s : State} {i : Instr} (h : arrives s i = true) :
    Requests s i (reqOf i) 0 (laneOfReq s i) ∧ Reaches s (laneOfReq s i) ((reqOf i).acc (laneOfReq s i)) codePage := by
  simp only [arrives, Bool.and_eq_true] at h
  exact ⟨requests_of_check h.1.2, reaches_of_check h.2⟩

theorem met_walks : ∀ i ∈ accesses.erase (.ldc ldcO), ∃ r L, memRow i = some r ∧ Requests atMiss i r 0 L ∧
    atMiss.tlbLookup L.c L.g.ctx (r.acc L).va = none := by
  have h : ((accesses.erase (.ldc ldcO)).all fun i => i.wf && (memRow i).any fun r =>
      requestsB atMiss i r 0 && (atMiss.tlbLookup 0 0 (r.acc (laneAt atMiss i r.op 0)).va).isNone
        && (laneAt atMiss i r.op 0).c == 0 && (laneAt atMiss i r.op 0).g.ctx == 0) = true := by decide +kernel
  intro i hi
  have h1 := List.all_eq_true.mp h i hi
  simp only [Bool.and_eq_true] at h1
  obtain ⟨-, h1⟩ := h1
  cases hr : memRow i with
  | none => simp [hr] at h1
  | some r =>
    simp only [hr, Option.any_some, Bool.and_eq_true, beq_iff_eq, Option.isNone_iff_eq_none] at h1
    obtain ⟨⟨⟨h2, h3⟩, h4⟩, h5⟩ := h1
    exact ⟨r, _, rfl, requests_of_check h2, by rw [h4, h5]; exact h3⟩

theorem met_hit : let i := Instr.ld ldO
    let L := laneOfReq (atHit false) i
    let a := translated (atHit false) L ((reqOf i).acc L) codePage
    memRow i = some (reqOf i) ∧ Requests (atHit false) i (reqOf i) 0 L ∧ Reaches (atHit false) L ((reqOf i).acc L) codePage ∧
      ((atHit false).core L.c).line? a.pa a.key = some (lineAt false) ∧ (lineAt false).poison.getLsbD (a.pa / 64 % 4) = false ∧
      a.state = 0 ∧ (maxD ((atHit false).core L.c).ct (lineAt false).wts).toNat ≤ (lineAt false).rts.toNat :=
  ⟨rfl, (arrives_met (by decide +kernel)).1, (arrives_met (by decide +kernel)).2, by decide +kernel⟩
theorem met_miss : let i := Instr.ld ldO
    let L := laneOfReq atM i
    let a := translated atM L ((reqOf i).acc L) codePage
    memRow i = some (reqOf i) ∧ Requests atM i (reqOf i) 0 L ∧ Reaches atM L ((reqOf i).acc L) codePage ∧
      (atM.core L.c).line? a.pa a.key = none ∧ Clear atM L a :=
  ⟨rfl, (arrives_met (by decide +kernel)).1, (arrives_met (by decide +kernel)).2, by decide +kernel, .inl (by decide +kernel)⟩
theorem met_store_hit : let i := Instr.st stO
    let L := laneOfReq (atHit true) i
    let a := translated (atHit true) L ((reqOf i).acc L) codePage
    memRow i = some (reqOf i) ∧ Requests (atHit true) i (reqOf i) 0 L ∧ Reaches (atHit true) L ((reqOf i).acc L) codePage ∧
      ((atHit true).core L.c).line? a.pa a.key = some (lineAt true) ∧ (lineAt true).bytes.length = 256 ∧ a.data.length ≤ 256 ∧
      Clear (atHit true) L a ∧ a.state = 0 :=
  ⟨rfl, (arrives_met (by decide +kernel)).1, (arrives_met (by decide +kernel)).2, by decide +kernel, by decide +kernel, by decide +kernel, .inl (by decide +kernel), by decide +kernel⟩
theorem met_store_home : let i := Instr.st stO
    let L := laneOfReq (atHit false) i
    let a := translated (atHit false) L ((reqOf i).acc L) codePage
    memRow i = some (reqOf i) ∧ Requests (atHit false) i (reqOf i) 0 L ∧ Reaches (atHit false) L ((reqOf i).acc L) codePage ∧
      Clear (atHit false) L a ∧ a.state = 0 ∧ ∀ x, ((atHit false).core L.c).line? a.pa a.key = some x → x.excl = false := by
  refine ⟨rfl, (arrives_met (by decide +kernel)).1, (arrives_met (by decide +kernel)).2, .inl (by decide +kernel), by decide +kernel, fun x h => ?_⟩
  have h1 : ((atHit false).core 0).line? 0x1000 0 = some (lineAt false) := by decide +kernel
  exact (Option.some.inj (h1.symm.trans h)) ▸ rfl
theorem met_atomics : ∀ i ∈ [Instr.atom { op96 with b := 2 }, .cas casO, .atom { op96 with b := 2, w1 := 0x00400000 }], memRow i = some (reqOf i) ∧
    Requests atM i (reqOf i) 0 (laneOfReq atM i) ∧
    Reaches atM (laneOfReq atM i) ((reqOf i).acc (laneOfReq atM i)) codePage ∧
    (atM.core 0).line? 0x1000 0 = none := by
  have h : ([Instr.atom { op96 with b := 2 }, .cas casO, .atom { op96 with b := 2, w1 := 0x00400000 }].all fun i => arrives atM i && (memRow i).isSome) = true := by decide +kernel
  intro i hi
  have h1 := List.all_eq_true.mp h i hi
  simp only [Bool.and_eq_true] at h1
  refine ⟨?_, (arrives_met h1.1).1, (arrives_met h1.1).2, by decide +kernel⟩
  obtain ⟨r, hr⟩ := Option.isSome_iff_exists.mp h1.2
  simp [reqOf, hr]
theorem met_atomics_held : ∀ i ∈ [Instr.atom { op96 with b := 2 }, .cas casO], memRow i = some (reqOf i) ∧
    Requests (atHit true) i (reqOf i) 0 (laneOfReq (atHit true) i) ∧
    Reaches (atHit true) (laneOfReq (atHit true) i) ((reqOf i).acc (laneOfReq (atHit true) i)) codePage ∧
    ((atHit true).core 0).cacheWays ≠ [] ∧ ((atHit true).core 0).line? 0x1000 0 = some (lineAt true) := by
  have h : ([Instr.atom { op96 with b := 2 }, .cas casO].all fun i => arrives (atHit true) i && (memRow i).isSome) = true := by decide +kernel
  intro i hi
  have h1 := List.all_eq_true.mp h i hi
  simp only [Bool.and_eq_true] at h1
  refine ⟨?_, (arrives_met h1.1).1, (arrives_met h1.1).2, by decide +kernel⟩
  obtain ⟨r, hr⟩ := Option.isSome_iff_exists.mp h1.2
  simp [reqOf, hr]
theorem met_constant : let i := Instr.ldc ldcO
    let L := laneOfReq atM i
    let a := translated atM L ((reqOf i).acc L) codePage
    memRow i = some (reqOf i) ∧ Requests atM i (reqOf i) 0 L ∧ Reaches atM L ((reqOf i).acc L) codePage ∧
      atM.owner? a.pa = none ∧ atM.homeCell a.pa = some 0x200000000 ∧ atM.poisonOf 0x200000000 = 0 ∧ atM.errors = [] :=
  ⟨rfl, (arrives_met (by decide +kernel)).1, (arrives_met (by decide +kernel)).2, by decide +kernel⟩
theorem met_line_requests : ∀ i ∈ [Instr.pf blankOp, .lease blankOp], ∃ L, atM.Alone i blankOp noCheck 0 L ∧ movesB atM L.g.ctx (L.va &&& ~~~255#64) = false ∧
    atM.tlbLookup L.c L.g.ctx (L.va &&& ~~~255#64) = some codePage ∧ L.va.toNat < 2 ^ 57 ∧ (atM.core L.c).cacheWays ≠ [] ∧
    regionBad (atM.regionFor L.g.ctx (L.va &&& ~~~255#64)) (L.va &&& ~~~255#64) = false ∧ (atM.regionFor L.g.ctx (L.va &&& ~~~255#64)).state = 0 ∧
    atM.checkLeaf (atM.regionFor L.g.ctx (L.va &&& ~~~255#64)) L.c codePage (L.va &&& ~~~255#64) 0 L.th.handler = none := by
  intro i hi
  simp only [List.mem_cons, List.not_mem_nil, or_false] at hi
  obtain rfl | rfl := hi
  · exact ⟨laneAt atM (.pf blankOp) blankOp 0, alone_of_check (by decide +kernel), by decide +kernel⟩
  · exact ⟨laneAt atM (.lease blankOp) blankOp 0, alone_of_check (by decide +kernel), by decide +kernel⟩
theorem met_line_absent : ∃ L, atMiss.Alone (.pf blankOp) blankOp noCheck 0 L ∧ atMiss.tlbLookup L.c L.g.ctx (L.va &&& ~~~255#64) = none :=
  ⟨laneAt atMiss (.pf blankOp) blankOp 0, alone_of_check (by decide +kernel), by decide +kernel⟩

/-! ## Transfers, traps, returns, barriers, boards and releases -/

/-- At codePc NOP, LPAD, NOP, NOP; the handler's address is codePc. v0 and v1 hold the LPAD's address, v4 and v5 codePc. The group
owns board 3 of its cluster, with window 4, iteration 0 open and taken by no thread, and s0 names it. -/
def atE : State :=
  let s0 := State.reset.withBlock (laid [0x00000F01, 0, 0x00000C09, 0, 0x00000F01, 0, 0x00000F01, 0])
  let s1 := s0.modCluster 0 fun k => { k with boards :=
    [(3, { Board.reset with owner := some 0, next := 1, w := 4, slots := [(0, { iter := 0, counter := 5, time := 0 })] })] }
  let s2 := s1.modGroup 0 0 fun g => { g with tvec := codePc, boards := [3], s := [(0, 0x400)] }
  { s2.modThread 0 0 0 fun th => (((th.put 0 0x1008).put 1 0).put 4 0x1000).put 5 0 with
    agenda := [], cur := ⟨0, 0, 0, codePc, 0x8000, codePc + 8, [0], false⟩ }

def jumps : List Instr := [.bra op96, .brx op96, .call op96, .callx op96, .ret { blankOp with a := 4 }]
theorem met_transfers : ∀ i ∈ jumps, ∃ o check out L, jumpRow i = some (o, check, out) ∧ atE.Alone i o check 0 L := by
  intro i hi
  simp only [jumps, List.mem_cons, List.not_mem_nil, or_false] at hi
  obtain rfl | rfl | rfl | rfl | rfl := hi
  all_goals exact ⟨_, _, _, _, rfl, alone_of_check (by decide +kernel)⟩
theorem jumps_wf : (jumps.all Instr.wf) = true := by decide +kernel

/-- A guard that is false: p1. -/
def offO : Op := { op96 with gm := 1, pg0 := 1 }
theorem met_fall_through : ∀ i ∈ [Instr.bra offO, .brx offO, .call offO, .callx offO], ∃ L,
    i ∈ [Instr.bra offO, .brx offO, .call offO, .callx offO] ∧ atE.cur.threads = [0] ∧ atE.lane? offO [0] 0 = some L ∧
      L.th.live = true ∧ L.th.wait = none ∧ L.active = false ∧ L.th.due = [] :=
  fun _ hi => ⟨_, hi, rfl, rfl, by decide +kernel⟩

/-- A group's handler can be entered. -/
theorem enterable_of_check {s : State} {c : Nat} {g : Group} {th : Thread}
    (h : (decide (g.tvec ≠ 0) && !th.handler && (match s.target c g.ctx g.tvec true with | .ok _ => true | _ => false)) = true) :
    Enterable s c g th := by
  simp only [Bool.and_eq_true, decide_eq_true_eq, Bool.not_eq_true'] at h
  exact ⟨h.1.1, h.1.2, _, target_of_check h.2⟩

/-- ICMP with a condition that is not assigned. -/
def badO : Op := { blankOp with d := 0x70 }
theorem met_precise_trap : ∃ (r : Row) (L : Lane) (e : Trap), intRow (.icmp badO) = some r ∧ atE.readyWave (.icmp badO) r.op = [0] ∧
    atE.lane? r.op [0] 0 = some L ∧ L.active = true ∧ L.th.wait = none ∧ L.th.due = [] ∧ (∀ x ∈ tilesOf (.icmp badO), x < L.g.record.tiles) ∧
    atE.trapOf (.icmp badO) r.op [0] r.check 0 = some e ∧ Enterable atE L.c L.g L.th :=
  ⟨_, _, ⟨0x01, 0, 0⟩, rfl, by decide +kernel, rfl, by decide +kernel, by decide +kernel, by decide +kernel, by decide +kernel, by decide +kernel, enterable_of_check (by decide +kernel)⟩
theorem met_trap_entry : ∃ L, atE.Alone (.trap blankOp) blankOp noCheck 0 L ∧ Enterable atE L.c L.g L.th :=
  ⟨laneAt atE (.trap blankOp) blankOp 0, alone_of_check (by decide +kernel), enterable_of_check (by decide +kernel)⟩
theorem met_trap_stop : ∃ L, at1.Alone (.trap blankOp) blankOp noCheck 0 L ∧ L.g.tvec = 0 ∧ L.g.stopped = none :=
  ⟨laneAt at1 (.trap blankOp) blankOp 0, alone_of_check (by decide +kernel), by decide +kernel⟩
theorem met_word_traps : ∃ g th, atE.cur.threads = [0] ∧ atE.group? atE.cur.core atE.cur.slot = some g ∧ g.threads[0]? = some th ∧
    th.live = true ∧ th.wait = none ∧ Enterable atE atE.cur.core g th :=
  ⟨_, _, rfl, rfl, rfl, by decide +kernel, by decide +kernel, enterable_of_check (by decide +kernel)⟩

/-- The thread in its handler, to return to the LPAD's address with priority 7; `held`: for an access it holds in entry 2 to be taken up
again. -/
def heldLoad : Acc := { (laneAt atM (.ld ldO) ldO 0).access .load 0x2000 4 1 9 false 0 [] [] with id := 40, inst := 39, phase := .held, log := some 2 }
def atHandler (held replay : Bool) : State :=
  (atE.modThread 0 0 0 fun th => { th with
    handler := true
    t := [(0, if replay then 0x80000000 else 0), (1, 0x1008), (3, 7), (9, if held then 0x80000002 else 0)] }).modCore 0 fun k =>
      { k with accs := if held then [heldLoad] else [] }
theorem met_return : ∃ L, (atHandler false false).Alone (.eret blankOp) blankOp eretCheck 0 L ∧ (tget 0 L.th.t 9).getLsbD 31 = false :=
  ⟨laneAt (atHandler false false) (.eret blankOp) blankOp 0, alone_of_check (by decide +kernel), by decide +kernel⟩
theorem met_return_replay : ∃ L, (atHandler true true).Alone (.eret blankOp) blankOp eretCheck 0 L ∧
    (tget 0 L.th.t 9).getLsbD 31 = true ∧ ((atHandler true true).core L.c).held L.slot 0 2 = some heldLoad ∧
    (tget 0 L.th.t 0).getLsbD 31 = true :=
  ⟨laneAt (atHandler true true) (.eret blankOp) blankOp 0, alone_of_check (by decide +kernel), by decide +kernel⟩
theorem met_return_give_up : ∃ L, (atHandler true false).Alone (.eret blankOp) blankOp eretCheck 0 L ∧
    ((atHandler true false).core L.c).held L.slot 0 2 = some heldLoad ∧ (tget 0 L.th.t 0).getLsbD 31 = false :=
  ⟨laneAt (atHandler true false) (.eret blankOp) blankOp 0, alone_of_check (by decide +kernel), by decide +kernel⟩

theorem released_of_check {s : State} {c : Nat} (h : ((s.core c).l1.all (fun x => x.dirty == 0) && !s.writeBacksOpen c) = true) :
    Released s c := by
  simp only [Bool.and_eq_true, List.all_eq_true, beq_iff_eq, Bool.not_eq_true'] at h
  exact h
/-- A barrier instruction at the group's level and the package's. -/
theorem met_barriers : ∀ n ∈ [(0 : Byte), 1], Released atE 0 ∧
    (∃ L, atE.Alone (.bara { blankOp with a := n }) { blankOp with a := n } levelCheck 0 L) ∧
    (∃ L, atE.Alone (.bar { blankOp with a := n }) { blankOp with a := n } levelCheck 0 L ∧ L.th.mark = none) ∧
    ∃ L, atE.Alone (.barw { blankOp with a := n }) { blankOp with a := n } levelCheck 0 L := by
  intro n hn
  refine ⟨released_of_check (by decide +kernel), ⟨_, alone_of_check (t := 0) ?_⟩,
    ⟨laneAt atE (.bar { blankOp with a := n }) { blankOp with a := n } 0, alone_of_check ?_, ?_⟩, _, alone_of_check (t := 0) ?_⟩
  all_goals revert n; exact all_of_check (by decide +kernel)

/-- Board 0 of the group of `atE` stands at 3. -/
def boardE : Board :=
  { Board.reset with owner := some 0, next := 1, w := 4, slots := [(0, { iter := 0, counter := 5, time := 0 })] }
theorem met_stage_begin : ∃ L, atE.Alone (.stbeg blankOp) blankOp stbegCheck 0 L ∧ atE.board? L.c L.g 0 = some (3, boardE) ∧
    (boardE.next - boardE.oldest).toNat < boardE.w :=
  ⟨laneAt atE (.stbeg blankOp) blankOp 0, alone_of_check (by decide +kernel), by decide +kernel⟩
theorem met_board_read : ∃ L, atE.Alone (.strdBrd { blankOp with fn := 1, imm := true }) { blankOp with fn := 1, imm := true }
    (strdBrdCheck { blankOp with fn := 1, imm := true }) 0 L ∧ boardE.w ≤ 64 :=
  ⟨_, alone_of_check (by decide +kernel), by decide +kernel⟩
/-- The thread is bound to iteration 0 of its board. -/
def atBound : State := atE.modThread 0 0 0 fun th => { th with bind := some (0, 0) }
theorem met_bound : atBound.bound atBound.cur.core atBound.cur.slot 0 = some (3, boardE, 0) ∧ Released atBound 0 ∧
    (∃ L, atBound.Alone (.stageAdd { blankOp with imm := true, b := 2 }) { blankOp with imm := true, b := 2 }
      (stageCheck (.stageAdd { blankOp with imm := true, b := 2 }) false) 0 L) ∧
    (∃ L, atBound.Alone (.stageSet { blankOp with fn := 1, imm := true, b := 9 }) { blankOp with fn := 1, imm := true, b := 9 }
      (stageCheck (.stageSet { blankOp with fn := 1, imm := true, b := 9 }) true) 0 L) ∧
    (∃ L, atBound.Alone (.stend blankOp) blankOp bindCheck 0 L) ∧
    (∃ L, atBound.Alone (.waitl { blankOp with imm := true, b := 4 }) { blankOp with imm := true, b := 4 }
      (waitlCheck { blankOp with imm := true, b := 4 }) 0 L) ∧
    ∃ L, atBound.Alone (.strdCtr { blankOp with imm := true }) { blankOp with imm := true } (strdCtrCheck { blankOp with imm := true }) 0 L :=
  ⟨by decide +kernel, released_of_check (by decide +kernel), ⟨_, alone_of_check (by decide +kernel)⟩, ⟨_, alone_of_check (by decide +kernel)⟩,
    ⟨_, alone_of_check (by decide +kernel)⟩, ⟨_, alone_of_check (by decide +kernel)⟩, _, alone_of_check (by decide +kernel)⟩

/-- Two dirty sectors of a line are to be written back. -/
def atDirty : State := atBound.modCore 0 fun k => { k with l1 := [{ lineAt false with dirty := 6 }] }
def wideA : Op := { blankOp with a := 1 }
def releases : List Instr :=
  [.syncw { blankOp with fn := 1 }, .bara wideA, .bar wideA, .stageAdd { blankOp with imm := true, b := 2 }, .stageSet { blankOp with fn := 1, imm := true, b := 9 },
   .stend blankOp, .exit blankOp]
theorem met_releases : ∀ i ∈ releases, ∃ o check flush given L, releaseRow i = some (o, check, flush, given) ∧ atDirty.Alone i o check 0 L ∧
    flush L = true ∧ (∃ x ∈ (atDirty.core L.c).l1, x.dirty ≠ 0) ∧ ∀ x ∈ (atDirty.core L.c).l1, x.excl = false ∧ x.poison = 0 := by
  have h : (releases.all fun i => i.wf && (releaseRow i).any fun r => aloneB atDirty i r.1 r.2.1 0 && r.2.2.1 (laneAt atDirty i r.1 0)
      && (atDirty.core (laneAt atDirty i r.1 0).c).l1.any (fun x => x.dirty != 0)
      && (atDirty.core (laneAt atDirty i r.1 0).c).l1.all (fun x => !x.excl && x.poison == 0)) = true := by decide +kernel
  intro i hi
  have h1 := List.all_eq_true.mp h i hi
  simp only [Bool.and_eq_true] at h1
  obtain ⟨-, h1⟩ := h1
  cases hr : releaseRow i with
  | none => simp [hr] at h1
  | some r =>
    simp only [hr, Option.any_some, Bool.and_eq_true, List.any_eq_true, List.all_eq_true, bne_iff_ne, beq_iff_eq, Bool.not_eq_true'] at h1
    obtain ⟨⟨⟨h2, h3⟩, h4⟩, h5⟩ := h1
    exact ⟨r.1, r.2.1, r.2.2.1, r.2.2.2, _, rfl, alone_of_check h2, h3, h4, h5⟩
theorem met_nothing_to_release : (∃ L, atE.Alone (.syncw { blankOp with fn := 1 }) { blankOp with fn := 1 } noCheck 0 L ∧ Released atE L.c) ∧
    ∃ L, atE.Alone (.exit blankOp) blankOp noCheck 0 L ∧ L.th.bind = none :=
  ⟨⟨laneAt atE (.syncw { blankOp with fn := 1 }) { blankOp with fn := 1 } 0, alone_of_check (by decide +kernel), released_of_check (by decide +kernel)⟩,
    laneAt atE (.exit blankOp) blankOp 0, alone_of_check (by decide +kernel), by decide +kernel⟩

/-! ## Blocks, ways, regions, waits and work graphs -/

/-- Memory that holds bytes at rising addresses of interleaved slabs, written under key 0. -/
def memOf (l : List (Nat × List Byte)) : Memory :=
  { cells := l.flatMap fun e => zipFrom (interleavedCell e.1) e.2
    seals := l.flatMap fun e => (List.range ((e.2.length + 63) / 64)).map fun k =>
      (interleavedCell e.1 / 64 + k, { key := 0, gen := 0, pa := e.1 / 64 + k })
    sides := [], restored := 0 }
def qw (l : List Dword) : List Byte := l.flatMap fun d => leBytes 8 d.toNat

/-- A launch record of one group of one thread: 16 registers, 1 KiB of scratchpad, two levels. -/
def recBytes : List Byte := qw [0x1000, 0x0210, 0, 0x8000000000000000, 0x0001009200010080, 0, 0, 0, 0, 0, 0, 0, 0, 0, 0, 0]
/-- A work-graph node: its template stands at 0x4000, timer 100, records of 16 bytes, coalesced by 4, a ring of 4 at 0x5000. -/
def nodeBytes : List Byte := qw [0x4000, 0x640104, 0x5000, 2, 0, 0, 0, 0]

/-- A package at work: context 0 maps the low GiB to itself by one entry at 0x2000, its node table stands at 0x3000, and it is a
supervisor context; one group of one thread holds four blocks and runs at codePc; its handler is there too. -/
def world : State :=
  let s1 := (State.reset.withBlock []).modHub fun h => { h with
    contexts := tset h.contexts 0 { soleCtx with regions := 0x2000047 :: List.replicate 15 0, nodes := 0x3000 }
    supctx := [(0, 0x8000000000000000)] }
  let s2 := s1.modCore 0 fun k => { k with tlb := [{ codePage with page := 0, base := 0 }] }
  let s3 := (s2.modGroup 0 0 fun g => { g with tvec := codePc, homes := [4], record := { g.record with regs := 32 } }).modThread 0 0 0 fun th => (th.put 2 1).put 4 0xFFF8
  { s3 with
    memory := memOf [(0x1000, laid [0x00000F01, 0, 0x00000C09, 0, 0x00000F01, 0, 0x00000F01, 0]), (0x2000, qw [0x3F]), (0x3000, nodeBytes),
      (0x4000, recBytes), (0x5000, List.replicate 16 5)]
    agenda := [], cur := ⟨0, 0, 0, codePc, 0x8000, codePc + 8, [0], false⟩ }

theorem met_memory : world.Inv := by
  show world.memory.wf = true
  decide +kernel

def immO (n : Byte) : Op := { blankOp with imm := true, b := n }

theorem met_blocks_free : ∃ L, world.Alone (.rblkAcq (immO 2)) (immO 2) (acqCheck (.rblkAcq (immO 2))) 0 L ∧ L.g.homes[homeWave 0]? = some 4 ∧
    (world.core L.c).rblkQ = [] ∧ L.count (.rblkAcq (immO 2)) ≤ (world.core 0).freeBlocks :=
  ⟨laneAt world (.rblkAcq (immO 2)) (immO 2) 0, alone_of_check (by decide +kernel), by decide +kernel⟩
def worldQueue : State := world.modCore 0 fun k => { k with rblkQ := [(9, 9)] }
theorem met_blocks_wait : ∃ L, worldQueue.Alone (.rblkAcq (immO 2)) (immO 2) (acqCheck (.rblkAcq (immO 2))) 0 L ∧
    (worldQueue.core L.c).rblkQ ≠ [] :=
  ⟨laneAt worldQueue (.rblkAcq (immO 2)) (immO 2) 0, alone_of_check (by decide +kernel), by decide +kernel⟩
theorem met_blocks_try : ∃ L, world.Alone (.rblkTry { immO 2 with fn := 1, d := 1 }) { immO 2 with fn := 1, d := 1 } noCheck 0 L :=
  ⟨_, alone_of_check (by decide +kernel)⟩
theorem met_blocks_release : ∃ L, world.Alone (.rblkRel { immO 2 with fn := 2 }) { immO 2 with fn := 2 }
    (relCheck (.rblkRel { immO 2 with fn := 2 })) 0 L := ⟨_, alone_of_check (by decide +kernel)⟩
/-- The thread waits for n blocks. -/
def worldAcq (n : Nat) : State :=
  (world.modCore 0 fun k => { k with rblkQ := [(0, 0)] }).modThread 0 0 0 fun th => { th with wait := some ⟨.rblk n 7, 0, false⟩ }
theorem met_grant : ∀ n ∈ [2, 12], ((worldAcq n).core 0).rblkQ = [(0, 0)] ∧ ∃ g th, (worldAcq n).group? 0 0 = some g ∧ g.stopped = none ∧
    g.saving = false ∧ g.threads[0]? = some th ∧ th.wait = some ⟨.rblk n 7, 0, false⟩ ∧ g.homes[homeWave 0]? = some 4 ∧ 4 + n ≤ 16 := by
  intro n hn
  simp only [List.mem_cons, List.not_mem_nil, or_false] at hn
  obtain rfl | rfl := hn
  all_goals exact ⟨by decide +kernel, _, _, rfl, by decide +kernel, by decide +kernel, rfl, by decide +kernel⟩

/-- Every block is held. -/
def worldFull : State := (worldAcq 2).modCore 0 fun k => { k with slots := k.slots ++ [(1, { soleGroup with homes := List.replicate 16 16, threads := List.replicate 1024 (Thread.start 0 0) })] }
theorem met_grant_late : (worldFull.core 0).freeBlocks < 2 ∧ (worldFull.core 0).rblkQ = [(0, 0)] ∧ ∃ g th, worldFull.group? 0 0 = some g ∧
    g.stopped = none ∧ g.saving = false ∧ g.threads[0]? = some th ∧ th.wait = some ⟨.rblk 2 7, 0, false⟩ ∧ g.homes[homeWave 0]? = some 4 :=
  ⟨by decide +kernel, by decide +kernel, _, _, rfl, by decide +kernel, by decide +kernel, rfl, by decide +kernel⟩

/-- WAYMASK of the mask in v register b. -/
def wayO (b : Byte) : Op := { blankOp with b := b }
theorem met_waymask : ∀ b ∈ [(2 : Byte), 4], ∃ L, world.Alone (.waymask (wayO b)) (wayO b) waymaskCheck 0 L := by
  intro b hb
  refine ⟨_, alone_of_check (t := 0) ?_⟩
  revert b
  exact all_of_check (by decide +kernel)
theorem met_waymask_bad : legalMask ((laneAt world (.waymask (wayO 2)) (wayO 2) 0).srcB (shapeOf (.waymask (wayO 2))) 0 false |>.extractLsb' 0 16) = false := by decide +kernel
theorem met_waymask_grow : (laneAt world (.waymask (wayO 4)) (wayO 4) 0 |>.srcB (shapeOf (.waymask (wayO 4))) 0 false |>.extractLsb' 0 16) = 0xFFF8 ∧
    legalMask 0xFFF8 = true ∧ (world.core 0).target = (world.core 0).mask ∧ (world.core 0).flushing = [] ∧ (world.core 0).mask = 0xFFF0 := by decide +kernel
theorem met_waymask_same : ∃ L, ((world.modThread 0 0 0 fun th => th.put 4 0xFFF0)).Alone (.waymask (wayO 4)) (wayO 4) waymaskCheck 0 L ∧
    (L.srcB (shapeOf (.waymask (wayO 4))) 0 false).extractLsb' 0 16 = (world.core L.c).mask :=
  ⟨laneAt _ (.waymask (wayO 4)) (wayO 4) 0, alone_of_check (by decide +kernel), by decide +kernel⟩
/-- Way 3 is being flushed to enter the scratchpad. -/
def worldFlush : State := world.modCore 0 fun k => { k with flushing := [3], target := 0xFFF8 }
theorem met_way_flushed : (3 : Nat) < 16 ∧ (worldFlush.core 0).flushing = [3] ∧ (worldFlush.core 0).mask.getLsbD 3 = false ∧
    (worldFlush.core 0).target = (worldFlush.core 0).mask ||| (1 <<< 3) ∧
    (∀ x ∈ (worldFlush.core 0).l1, x.way = 3 → x.excl = false ∧ x.dirty = 0) ∧ worldFlush.writeBacksOpen 0 = false := by decide +kernel

def stateO : Op := { blankOp with b := 1 }
theorem met_region_state : ∃ x L, world.Alone (.rstate stateO) stateO (rstateCheck stateO) 0 L ∧
    tfind world.hub.contexts L.g.ctx = some x ∧ x.regions.length = 16 ∧ (movingRegion world L.g.ctx 0).rstateBusy L.g.ctx = false :=
  ⟨_, laneAt world (.rstate stateO) stateO 0, alone_of_check (by decide +kernel), rfl, by decide +kernel⟩
/-- A load of region 0 is under way. -/
def worldBusy : State := world.modCore 0 fun k => { k with accs := [{ heldLoad with inst := 0, tid := 1, phase := .fill, log := none }] }
theorem met_region_busy : ∃ x L, worldBusy.Alone (.rstate stateO) stateO (rstateCheck stateO) 0 L ∧
    tfind worldBusy.hub.contexts L.g.ctx = some x ∧ (movingRegion worldBusy L.g.ctx 0).rstateBusy L.g.ctx = true :=
  ⟨_, laneAt worldBusy (.rstate stateO) stateO 0, alone_of_check (by decide +kernel), rfl, by decide +kernel⟩

theorem met_steps : (∃ L, world.Alone (.cvstep (immO 1)) (immO 1) (cvstepCheck (.cvstep (immO 1))) 0 L) ∧
    (∃ L, world.Alone (.yield blankOp) blankOp noCheck 0 L) ∧
    (∃ L, world.Alone (.sleep (immO 9)) (immO 9) noCheck 0 L ∧ (lowWord (L.srcB (shapeOf (.sleep (immO 9))) 1 false)).toNat ≠ 0) ∧
    ∃ L, world.Alone (.sleep (immO 0)) (immO 0) noCheck 0 L ∧ (lowWord (L.srcB (shapeOf (.sleep (immO 0))) 1 false)).toNat = 0 :=
  ⟨⟨_, alone_of_check (by decide +kernel)⟩, ⟨_, alone_of_check (by decide +kernel)⟩,
    ⟨laneAt world (.sleep (immO 9)) (immO 9) 0, alone_of_check (by decide +kernel), by decide +kernel⟩,
    laneAt world (.sleep (immO 0)) (immO 0) 0, alone_of_check (by decide +kernel), by decide +kernel⟩
/-- The thread waits, since cycle 0, at front cycle `now`. -/
def worldWait (k : WaitKind) (now : Nat) : State :=
  ((world.modGroup 0 0 fun g => { g with wdog := 50 }).modCluster 0 fun x => { x with front := now }).modThread 0 0 0 fun th =>
    { th with wait := some ⟨k, 0, false⟩ }
theorem met_sleep_over : ∃ th, (worldWait (.sleep 9) 9).thread? 0 0 0 = some th ∧ th.wait = some ⟨.sleep 9, 0, false⟩ ∧ th.due = [] ∧
    9 ≤ (worldWait (.sleep 9) 9).now 0 := ⟨_, rfl, by decide +kernel⟩
theorem met_sleep_on : (worldWait (.sleep 9) 8).now 0 < 9 := by decide +kernel
theorem met_watchdog : ∃ g th, (worldWait (.phase true 0 0) 50).group? 0 0 = some g ∧ g.threads[0]? = some th ∧
    th.wait = some ⟨.phase true 0 0, 0, false⟩ ∧ WaitKind.watched (.phase true 0 0) = true ∧
    (worldWait (.phase true 0 0) 50).inWait 0 0 0 ⟨.phase true 0 0, 0, false⟩ = true ∧ g.wdog ≠ 0 ∧ g.stopped = none ∧
    0 + g.wdog.toNat ≤ (worldWait (.phase true 0 0) 50).now 0 ∧ Enterable (worldWait (.phase true 0 0) 50) 0 g th :=
  ⟨_, _, rfl, rfl, by decide +kernel, by decide +kernel, by decide +kernel, by decide +kernel, by decide +kernel, by decide +kernel,
    enterable_of_check (by decide +kernel)⟩
/-- The group is the member of convoy 5 that holds it back, for 300 cycles. -/
def worldConvoy : State :=
  (world.modGroup 0 0 fun g => { g with cv := { g.cv with id := 5, timeout := 256 } }).modHub fun h =>
    { h with convoys := [(5, { members := [(0, 0)], present := [(0, 0)], timer := [(0, 300)] })] }
theorem met_shed : ∃ g, worldConvoy.overdue 0 5 = some (0, 0) ∧ worldConvoy.group? 0 0 = some g ∧ g.ctx = 0 ∧ g.cv.id.toNat = 5 :=
  ⟨_, by decide +kernel, rfl, by decide +kernel⟩

/-- Node 0's descriptor. -/
theorem stands_of_check {s : State} {pa : Nat} {bs : List Byte} {cell : Nat}
    (h : (decide (s.peek 0 pa bs.length = some bs) && (List.range bs.length).all (fun j => s.owner? (pa + j) == none &&
      s.homeCell (pa + j) == some cell) && s.poisonOf cell == 0 && s.errors.isEmpty) = true) : Stands s pa bs := by
  simp only [Bool.and_eq_true, decide_eq_true_eq, beq_iff_eq, List.isEmpty_iff, List.all_eq_true, List.mem_range] at h
  exact ⟨h.1.1.1, fun j hj => ⟨(h.1.1.2 j hj).1, cell, (h.1.1.2 j hj).2, h.1.2, fun k _ => by simp [h.2, tfind]⟩⟩
def cell3 : Nat := interleavedCell 0x3000
def node0 : Node := nodeOf nodeBytes
theorem met_node : NodeIs world 0 0 node0 := ⟨by decide +kernel, nodeBytes, by decide +kernel, stands_of_check (cell := cell3) (by decide +kernel), rfl⟩
theorem met_enqueue : ∃ L, world.Alone (.wqe (immO 0)) (immO 0) wqeCheck 0 L ∧ Released world L.c ∧ NodeIs world L.g.ctx 0 node0 ∧
    world.firesOff L.g.ctx = false ∧ Roomy world (world.bin (binKey L.g.ctx 0)) node0 ∧ Short world (world.bin (binKey L.g.ctx 0)) node0 :=
  ⟨laneAt world (.wqe (immO 0)) (immO 0) 0, alone_of_check (by decide +kernel), released_of_check (by decide +kernel), met_node, by decide +kernel,
    ⟨by decide +kernel, by decide +kernel, .inr (by decide +kernel)⟩, ⟨by decide +kernel, by decide +kernel⟩⟩
/-- Node 0's ring is full. -/
def worldRing : State := world.setBin 0 { Bin.empty with owned := true, head := 1, tail := 5, bin := List.replicate 256 [] }
theorem met_ring_full : ∃ L, worldRing.Alone (.wqe (immO 0)) (immO 0) wqeCheck 0 L ∧ NodeIs worldRing 0 0 node0 ∧
    2 ^ node0.rlog ≤ ((worldRing.bin 0).tail - (worldRing.bin 0).head).toNat ∧ (worldRing.bin 0).tail ≠ (worldRing.bin 0).head :=
  ⟨_, alone_of_check (by decide +kernel), ⟨by decide +kernel, nodeBytes, by decide +kernel, stands_of_check (cell := cell3) (by decide +kernel), rfl⟩, by decide +kernel⟩
theorem met_tail : ∃ L, world.Alone (.wqt blankOp) blankOp wqtCheck 0 L ∧ Released world L.c :=
  ⟨laneAt world (.wqt blankOp) blankOp 0, alone_of_check (by decide +kernel), released_of_check (by decide +kernel)⟩
/-- Records 0 to `index` of sender 3 are offered to node 0. -/
def worldPull (index : Word) : State := { world with net := [(9, .wqt 0 0 3 0 index)] }
theorem met_pull_old : (worldPull 0).msg? 9 = some (.wqt 0 0 3 0 0) ∧
    sless (tget 0 (((worldPull 0).drop 9).bin (binKey 0 0)).pulled 3) 0 = false := by decide +kernel
theorem met_pull : (worldPull 1).msg? 9 = some (.wqt 0 0 3 0 1) ∧ NodeIs ((worldPull 1).drop 9) 0 0 node0 ∧
    Roomy ((worldPull 1).drop 9) (((worldPull 1).drop 9).bin (binKey 0 0)) node0 ∧
    Short ((worldPull 1).drop 9) (((worldPull 1).drop 9).bin (binKey 0 0)) node0 ∧
    ((worldPull 1).drop 9).virtLoad 0 (node0.slot 0) node0.rsize = .ok (List.replicate 16 5, (worldPull 1).drop 9) :=
  ⟨by decide +kernel, ⟨by decide +kernel, nodeBytes, by decide +kernel, stands_of_check (cell := cell3) (by decide +kernel), rfl⟩, ⟨by decide +kernel, by decide +kernel, .inr (by decide +kernel)⟩,
    ⟨by decide +kernel, by decide +kernel⟩, by decide +kernel⟩
/-- Node 0 has five records in its bin. -/
def worldBin (n : Nat) : State := world.setBin 0 { Bin.empty with owned := true, bin := List.replicate n (List.replicate 16 5) }
theorem met_bin_early : (worldBin 0).binDue 0 0 node0 = false ∧ NodeIs (worldBin 0) 0 0 node0 :=
  ⟨by decide +kernel, by decide +kernel, nodeBytes, by decide +kernel, stands_of_check (cell := cell3) (by decide +kernel), rfl⟩
theorem met_bin_due : NodeIs (worldBin 5) 0 0 node0 ∧ (worldBin 5).firesOff 0 = false ∧ (worldBin 5).binDue 0 0 node0 = true ∧
    ((worldBin 5).bin (binKey 0 0)).tail = ((worldBin 5).bin (binKey 0 0)).head ∧
    (worldBin 5).virtLoad 0 node0.templ 128 = .ok (recBytes, worldBin 5) ∧
    (recOf recBytes).firable node0 (worldBin 5).hub.levyFloor (worldBin 5).mostKib = true :=
  ⟨⟨by decide +kernel, nodeBytes, by decide +kernel, stands_of_check (cell := cell3) (by decide +kernel), rfl⟩, by decide +kernel⟩

/-! ## Jobs and privileged instructions -/

/-- A card in s8 to s15: a fill of 64 bytes at 0x100000, with a sync word at none. -/
def fillCard : Card := { dws := [0x30000001FFFFFFFF, 0, 0x100000, 64, 0x8000000000100000, 0, 0, 0] }
def atJobs : State := atS.modGroup 0 0 fun g => { g with s := (List.range 8).map fun k => (8 + k, fillCard.dw k) }
/-- A base in scalar registers from s8. -/
def jobO (fn : BitVec 4) : Op := { blankOp with fn := fn, a := 8, m := 1 }
theorem met_offers : ∀ i ∈ [Instr.cpy (jobO 0), .cpyFill (jobO 1), .gth (jobO 0), .coll (jobO 0)], ∃ o n L, cardRow i = some (o, n) ∧
    atJobs.Alone i o noCheck 0 L ∧ o.m.getLsbD 0 = true := by
  intro i hi
  simp only [List.mem_cons, List.not_mem_nil, or_false] at hi
  obtain rfl | rfl | rfl | rfl := hi
  all_goals exact ⟨_, _, _, rfl, alone_of_check (by decide +kernel), by decide⟩
theorem met_job : ∃ L, atJobs.Alone (.job blankOp) blankOp noCheck 0 L := ⟨_, alone_of_check (by decide +kernel)⟩

/-- The thread has offered a job: its card, or the card's address. -/
def offerOf (addr : Option Word) : Offer :=
  { core := 0, slot := 0, tid := 0, pc := codePc, addr := addr, card := fillCard, dest := 3, op := 1, next := codePc + 8, accepted := false }
def atOffer (addr : Option Word) : State :=
  (atS.modCore 0 fun k => { k with spad := zipFrom 0 (qw fillCard.dws) }).modCluster 0 fun x => { x with offers := [offerOf addr] }
theorem met_accept : (atOffer none).nextOffer 0 = some (offerOf none) ∧ ((atOffer none).cluster 0).offers = [offerOf none] ∧
    ∃ g th, (atOffer none).group? 0 0 = some g ∧ g.threads[0]? = some th ∧ th.due = [] ∧ cardOf (atOffer none) g.ctx (offerOf none) fillCard ∧
      (atOffer none).cardTrap 0 g.ctx fillCard = none :=
  ⟨by decide +kernel, by decide +kernel, _, _, rfl, rfl, by decide +kernel, rfl, by decide +kernel⟩
theorem met_accept_scratchpad : (atOffer (some 0)).nextOffer 0 = some (offerOf (some 0)) ∧ cardOf (atOffer (some 0)) 0 (offerOf (some 0)) fillCard :=
  ⟨by decide +kernel, by decide +kernel, 0, 0, qw fillCard.dws, by decide +kernel⟩
theorem met_job_wait : ∃ L, atS.Alone (.jwait blankOp) blankOp noCheck 0 L := ⟨_, alone_of_check (by decide +kernel)⟩
theorem met_tile_request : ∃ L, atS.Alone (.dq blankOp) blankOp (fun L => spadTrap L L.sa 8 16) 0 L := ⟨_, alone_of_check (by decide +kernel)⟩
/-- A tile is asked for; an answer arrives for the sync word at 8. -/
def atTile : State := { atS with net := [(4, .dq 0 0 0 3 0 7 0)] }
theorem met_tile_serve : atTile.msg? 4 = some (.dq 0 0 0 3 0 7 0) ∧
    (∀ e ∈ atTile.net, e.1 < 4 → ∀ d l w a, e.2 ≠ .dq 0 0 0 d l w a) ∧ tfind atTile.hub.launches 0 = some soleLaunch := by
  refine ⟨by decide +kernel, fun e he h => ?_, by decide +kernel⟩
  have h1 : e = (4, .dq 0 0 0 3 0 7 0) := by simpa [atTile] using he
  rw [h1] at h
  exact absurd h (by decide)
def atAnswer : State :=
  { atS.modCore 0 fun k => { k with spad := zipFrom 8 [1, 0, 0, 2, 0, 0, 5, 0] } with net := [(4, .dqAnswer 0 0 0 (some 3) 7 0 0x200000001)] }
theorem met_tile_answer : atAnswer.msg? 4 = some (.dqAnswer 0 0 0 (some 3) 7 0 0x200000001) ∧ (∃ x th, atAnswer.group? 0 0 = some x ∧ x.threads[0]? = some th ∧ atAnswer.spadOwned 0 x.ctx 0 16 = true) ∧
    spadAt 0 0 = some (0, 0) ∧ spadAt 0 (0 + 8) = some (0, 0 + 8) ∧
    ∀ j, j < 8 → (atAnswer.core 0).spadByte (0 + 8 + j) = some (word5.extractLsb' (8 * j) 8) :=
  ⟨by decide +kernel, ⟨_, _, rfl, rfl, by decide +kernel⟩, by decide, by decide, by decide +kernel⟩

/-- The context of `atE` is no supervisor context. -/
theorem met_privilege : ∃ g th, privileged (.halt blankOp) = true ∧ atE.cur.threads = [0] ∧ atE.group? atE.cur.core atE.cur.slot = some g ∧
    g.threads[0]? = some th ∧ th.live = true ∧ th.wait = none ∧ atE.supervisor g.ctx = false ∧ Enterable atE atE.cur.core g th :=
  ⟨_, _, rfl, rfl, rfl, rfl, by decide, by decide, by decide +kernel, enterable_of_check (by decide +kernel)⟩

/-- A thread alone in a supervisor context begins a privileged instruction. -/
def rulesB (s : State) (i : Instr) (o : Op) (check : Lane → Option Trap) : Bool := i.wf && aloneB s i o check 0 && s.supervisor (laneAt s i o 0).g.ctx
theorem rules_of_check {s : State} {i : Instr} {o : Op} {check : Lane → Option Trap} (h : rulesB s i o check = true) :
    Rules s i o check 0 (laneAt s i o 0) := by
  simp only [rulesB, Bool.and_eq_true] at h
  exact { alone_of_check h.1.2 with marked := h.2 }
/-- `world` with scalar registers, and the thread's v1 the same as s1. -/
def worldS (l : List (Nat × Dword)) : State :=
  (world.modGroup 0 0 fun g => { g with s := l }).modThread 0 0 0 fun th => th.put 1 (lowWord (tget 0 l 1))

theorem met_invalidations : ∀ i ∈ [Instr.tlbinvPage { blankOp with b := 1 }, .tlbinvRegion { blankOp with fn := 1 }, .tlbinvCtx { blankOp with fn := 2 },
    .tlbinvAll { blankOp with fn := 3 }, .tlbinvKey { blankOp with fn := 4 }], ∃ o covers L, invRow i = some (o, covers) ∧ Rules world i o noCheck 0 L := by
  intro i hi
  simp only [List.mem_cons, List.not_mem_nil, or_false] at hi
  obtain rfl | rfl | rfl | rfl | rfl := hi
  all_goals exact ⟨_, _, _, rfl, rules_of_check (by decide +kernel)⟩

theorem met_power_read : ∃ L, Rules world (.pwrrd blankOp) blankOp (powerCheck blankOp) 0 L := ⟨_, rules_of_check (by decide +kernel)⟩
/-- PWRWR of register a with the value of v1. -/
def capO (a : Byte) : Op := { blankOp with a := a, b := 1 }
theorem met_cap : ∀ v ∈ [(2000 : Dword), 5000], ∃ L, Rules (worldS [(1, v)]) (.pwrwrPcap (capO 0)) (capO 0) (powerCheck (capO 0)) 0 L ∧
    (L.word (.pwrwrPcap (capO 0))).toNat = v.toNat ∧ (worldS [(1, v)]).hub.floorSum = 0 := by
  intro v hv
  refine ⟨laneAt (worldS [(1, v)]) (.pwrwrPcap (capO 0)) (capO 0) 0, rules_of_check ?_, ?_, ?_⟩
  all_goals revert v; exact all_of_check (by decide +kernel)
theorem met_floor : ∀ v ∈ [(200 : Dword), 5000], ∃ L, Rules (worldS [(1, v)]) (.pwrwrPfloor (capO 9)) (capO 9) (powerCheck (capO 9)) 0 L ∧
    (L.word (.pwrwrPfloor (capO 9))).toNat = v.toNat ∧ (worldS [(1, v)]).hub.pcapReg = 1200 := by
  intro v hv
  refine ⟨laneAt (worldS [(1, v)]) (.pwrwrPfloor (capO 9)) (capO 9) 0, rules_of_check ?_, ?_, ?_⟩
  all_goals revert v; exact all_of_check (by decide +kernel)
/-- A privileged instruction whose argument is in v1. -/
def argO (fn : BitVec 4) : Op := { blankOp with fn := fn, b := 1 }
theorem met_clock : ∀ v ∈ [(0x303 : Dword), 0x103], ∃ L, Rules (worldS [(1, v)]) (.clkrat (argO 0)) (argO 0) noCheck 0 L ∧
    (L.word (.clkrat (argO 0))).toNat = v.toNat := by
  intro v hv
  refine ⟨laneAt (worldS [(1, v)]) (.clkrat (argO 0)) (argO 0) 0, rules_of_check ?_, ?_⟩
  all_goals revert v; exact all_of_check (by decide +kernel)
/-- Cluster n's clock is to change. -/
def worldSwitch (n : Nat) : State := world.modCluster n fun x => { x with switch := some 1 }
def worldBusyClock : State := (worldSwitch 0).modCore 0 fun k => { k with sfuQ := [(3, [[⟨0, 0, 0, false, 0x40000000, 0, 5⟩]])] }
theorem met_switch : ((worldSwitch 1).cluster 1).switch = some 1 ∧ (worldSwitch 1).quiet 1 = true ∧
    (worldBusyClock.cluster 0).switch = some 1 ∧ worldBusyClock.quiet 0 = false := by decide +kernel
/-- IDLE with a mask, and the events of context 0. -/
def worldIdle (mask : Dword) (events : BitVec 5) : State := (worldS [(1, mask)]).modHub fun h => { h with events := [(0, events)] }
theorem met_idle : ∀ x ∈ [((0 : Dword), (3 : BitVec 5)), (6, 3), (4, 3)], ∃ L, Rules (worldIdle x.1 x.2) (.idle (argO 0)) (argO 0) noCheck 0 L ∧
    (L.word (.idle (argO 0))).extractLsb' 0 5 = x.1.setWidth 5 ∧ tget 0 (worldIdle x.1 x.2).hub.events L.g.ctx = x.2 := by
  intro x hx
  refine ⟨laneAt (worldIdle x.1 x.2) (.idle (argO 0)) (argO 0) 0, rules_of_check ?_, ?_, ?_⟩
  all_goals revert x; exact all_of_check (by decide +kernel)
/-- Context 7 runs a group of its own on core 1. -/
def world7 (l : List (Nat × Dword)) : State :=
  ((worldS l).modHub fun h => { h with
    contexts := tset h.contexts 7 { soleCtx with regions := [] }
    launches := tset h.launches 5 { soleLaunch with ctx := 7, groups := 3 } }).setGroup 1 0 { soleGroup with ctx := 7, launch := 5 }
theorem met_halt : ∀ v ∈ [(0 : Dword), 9, 7], ∃ L, Rules (world7 [(0, v)]) (.halt blankOp) blankOp noCheck 0 L ∧
    (L.g.sget L.fA).toNat % 4096 = v.toNat ∧ L.g.ctx = 0 ∧ tfind (world7 [(0, v)]).hub.contexts 9 = none ∧
    (tfind (world7 [(0, v)]).hub.contexts 7).isSome = true := by
  intro v hv
  refine ⟨laneAt (world7 [(0, v)]) (.halt blankOp) blankOp 0, rules_of_check ?_, ?_, ?_, ?_, ?_⟩
  all_goals revert v; exact all_of_check (by decide +kernel)
theorem met_levy : (∃ L, Rules world (.levyqVault (argO 0)) (argO 0) noCheck 0 L ∧ (world.die 0).powered = true ∧ (world.vault 0).band < 256) ∧
    (∃ x L, Rules world (.levyqAcct (argO 1)) (argO 1) noCheck 0 L ∧
      tfind world.hub.contexts ((L.word (.levyqAcct (argO 1))).toNat % 4096) = some x) ∧
    ∃ L, Rules world (.levyqBase (argO 2)) (argO 2) noCheck 0 L :=
  ⟨⟨_, rules_of_check (by decide +kernel), by decide +kernel⟩,
    ⟨_, laneAt world (.levyqAcct (argO 1)) (argO 1) 0, rules_of_check (by decide +kernel), rfl⟩, _, rules_of_check (by decide +kernel)⟩

/-- MBOX with command, slot or slab, and address in s0, s1 and s2. -/
def box (l : List Dword) : State := worldS [(0, l.getD 0 0), (1, l.getD 1 0), (2, l.getD 2 0)]
theorem met_mailbox : ∀ i ∈ [Instr.slabModeChange blankOp, .keyDraw blankOp, .keyLoadWrapped blankOp, .keyClear blankOp],
    ∃ L, Rules (box [9]) i blankOp noCheck 0 L ∧ (box [9]).hub.recovery = false ∧ (L.g.sget L.fA).toNat % 256 = 9 := by
  intro i hi
  refine ⟨laneAt (box [9]) i blankOp 0, rules_of_check ?_, by decide +kernel, ?_⟩
  all_goals
    simp only [List.mem_cons, List.not_mem_nil, or_false] at hi
    obtain rfl | rfl | rfl | rfl := hi <;> decide +kernel
def recovering : State := (box [2, 1]).modHub fun h => { h with recovery := true }
theorem met_recovery : ∃ L, Rules recovering (.keyDraw blankOp) blankOp noCheck 0 L ∧ recovering.hub.recovery = true :=
  ⟨_, rules_of_check (by decide +kernel), by decide +kernel⟩
theorem met_draw : ∀ k ∈ [(0 : Dword), 3], ∃ L, Rules (box [2, k]) (.keyDraw blankOp) blankOp noCheck 0 L ∧
    (L.g.sget L.fA).toNat % 256 = 2 ∧ (L.g.sget (L.fA + 1)).toNat % 128 = k.toNat := by
  intro v hv
  refine ⟨laneAt (box [2, v]) (.keyDraw blankOp) blankOp 0, rules_of_check ?_, ?_, ?_⟩
  all_goals revert v; exact all_of_check (by decide +kernel)
theorem met_draw_fresh : ∀ n x, tfind (box [2, 3]).memory.seals n = some x → x.gen < (box [2, 3]).hub.keyGen := by
  intro n x h
  have h1 : ((box [2, 3]).memory.seals.all fun e => decide (e.2.gen < (box [2, 3]).hub.keyGen)) = true := by decide +kernel
  have h2 : ∀ l : List (Nat × Seal), tfind l n = some x → ∃ e ∈ l, e.2 = x := by
    intro l
    induction l with
    | nil => simp [tfind]
    | cons a t ih =>
      intro h
      unfold tfind at h
      split at h
      · exact ⟨_, List.mem_cons_self, by simpa using h⟩
      · obtain ⟨e, he, hx⟩ := ih h
        exact ⟨e, List.mem_cons_of_mem _ he, hx⟩
  obtain ⟨e, he, rfl⟩ := h2 _ h
  simpa using List.all_eq_true.mp h1 e he
theorem met_load_refused : ∀ l ∈ [[(3 : Dword), 0, 0x5000], [3, 3, 0x5008]], ∃ L, Rules (box l) (.keyLoadWrapped blankOp) blankOp noCheck 0 L ∧
    (L.g.sget L.fA).toNat % 256 = 3 ∧ ((L.g.sget (L.fA + 1)).toNat % 128 = 0 ∨ (L.g.sget (L.fA + 2)).toNat % 16 ≠ 0) := by
  intro l hl
  refine ⟨laneAt (box l) (.keyLoadWrapped blankOp) blankOp 0, rules_of_check ?_, ?_, ?_⟩
  all_goals revert l; exact all_of_check (by decide +kernel)
/-- A wrapped key for slot n stands at 0x1000. -/
def wrapped (n : Byte) : List Byte := n :: 1 :: List.replicate 78 6
def boxKey (n : Byte) : State := { box [3, 3, 0x1000] with memory := memOf [(0x1000, wrapped n)] }
theorem met_load : ∀ n ∈ [(3 : Byte), 4], (∃ L, Rules (boxKey n) (.keyLoadWrapped blankOp) blankOp noCheck 0 L ∧
    (L.g.sget (L.fA + 1)).toNat % 128 = 3 ∧ (L.g.sget (L.fA + 2)).toNat = 0x1000) ∧ (wrapped n).length = 80 ∧ Stands (boxKey n) 0x1000 (wrapped n) := by
  intro n hn
  refine ⟨⟨laneAt (boxKey n) (.keyLoadWrapped blankOp) blankOp 0, rules_of_check ?_, ?_, ?_⟩, ?_, stands_of_check (cell := interleavedCell 0x1000) ?_⟩
  all_goals revert n; exact all_of_check (by decide +kernel)
theorem met_clear : ∀ k ∈ [(0 : Dword), 3], ∃ L, Rules (box [4, k]) (.keyClear blankOp) blankOp noCheck 0 L ∧
    (L.g.sget L.fA).toNat % 256 = 4 ∧ (L.g.sget (L.fA + 1)).toNat % 128 = k.toNat := by
  intro v hv
  refine ⟨laneAt (box [4, v]) (.keyClear blankOp) blankOp 0, rules_of_check ?_, ?_, ?_⟩
  all_goals revert v; exact all_of_check (by decide +kernel)
theorem met_slab : ∀ k ∈ [(768 : Dword), 0x10009], ∃ L, Rules (box [1, k]) (.slabModeChange blankOp) blankOp noCheck 0 L ∧
    (L.g.sget L.fA).toNat % 256 = 1 ∧ (L.g.sget (L.fA + 1)).toNat % 1024 = k.toNat % 1024 ∧ (box [1, k]).slabBusy 9 = false := by
  intro v hv
  refine ⟨laneAt (box [1, v]) (.slabModeChange blankOp) blankOp 0, rules_of_check ?_, ?_, ?_, ?_⟩
  all_goals revert v; exact all_of_check (by decide +kernel)
/-- A request to slab 9 is under way. -/
def boxBusy : State := { box [1, 9] with net := [(4, .cohStore 0 1 (9 * 0x40000000) 0 0 [])] }
theorem met_slab_busy : ∃ L, Rules boxBusy (.slabModeChange blankOp) blankOp noCheck 0 L ∧ boxBusy.slabBusy 9 = true :=
  ⟨_, rules_of_check (by decide +kernel), by decide +kernel⟩

/-! ## Pre-emption -/

/-- CTXSV of the context in s0, with context 7 running. -/
def svO : Op := { blankOp with b := 1 }
theorem met_save_refused : ∃ L, Rules (world7 [(0, 9)]) (.ctxsv svO) svO noCheck 0 L ∧ (world7 [(0, 9)]).hub.preempt = none ∧
    (world7 [(0, 9)]).liveCtx ((L.g.sget L.fA).extractLsb' 0 12).toNat = false :=
  ⟨laneAt (world7 [(0, 9)]) (.ctxsv svO) svO 0, rules_of_check (by decide +kernel), by decide +kernel⟩
theorem met_save : ∃ L, Rules (world7 [(0, 7)]) (.ctxsv svO) svO noCheck 0 L ∧ (world7 [(0, 7)]).hub.preempt = none ∧
    ¬ ((world7 [(0, 7)]).hub.prestat.toNat % 4 = 1 ∨ (world7 [(0, 7)]).hub.prestat.toNat % 4 = 2 ∨
      (world7 [(0, 7)]).liveCtx ((L.g.sget L.fA).extractLsb' 0 12).toNat = false ∨ ((L.g.sget L.fA).extractLsb' 0 12).toNat = L.g.ctx) ∧
    (world7 [(0, 7)]).groupsOf ((L.g.sget L.fA).extractLsb' 0 12).toNat ≠ [] ∧ (L.g.sget L.fA).getLsbD 62 = false :=
  ⟨laneAt (world7 [(0, 7)]) (.ctxsv svO) svO 0, rules_of_check (by decide +kernel), by decide +kernel⟩
theorem met_save_state : ∃ L, Rules world (.ctxsvSt { blankOp with fn := 1 }) { blankOp with fn := 1 } noCheck 0 L := ⟨_, rules_of_check (by decide +kernel)⟩
/-- The host asks for a pre-emption of context 7. -/
def worldPrectl : State := { world7 [] with outside := { Outside.empty with prectl := 7 } }
theorem met_prectl : worldPrectl.hub.preempt = none ∧ worldPrectl.groupsOf (worldPrectl.outside.prectl.extractLsb' 0 12).toNat ≠ [] := by decide +kernel
def pre7 (saving : Bool) : Preempt := { ctx := 7, saving := saving, limit := 100, saved := 0, next := 0 }
def worldDrain (cycles : Nat) : State := (world7 []).modHub fun h => { h with preempt := some (pre7 false), cycles := cycles }
theorem met_drain : ∀ n ∈ [99, 100], (worldDrain n).hub.preempt = some (pre7 false) ∧ (worldDrain n).groupsOf 7 ≠ [] ∧ (worldDrain n).hub.cycles = n := by
  decide +kernel
/-- Context 7's group is to be saved; `busy`: a load of its is under way. -/
def worldSave (busy : Bool) : State :=
  (((world7 []).modHub fun h => { h with preempt := some (pre7 true) }).modGroup 1 0 fun g => { g with saving := true }).modCore 1 fun k =>
    { k with accs := if busy then [{ heldLoad with phase := .fill, log := none }] else [] }
theorem met_forced_save : ∀ b ∈ [true, false], ∃ g, (worldSave b).group? 1 0 = some g ∧ (worldSave b).hub.preempt = some (pre7 true) ∧
    g.saving = true ∧ g.ctx = 7 ∧ g.finished = false ∧ (worldSave b).saveBusy 1 0 = b := by
  intro b hb
  refine ⟨((worldSave b).group? 1 0).getD soleGroup, ?_⟩
  revert b
  exact all_of_check (by decide +kernel)
/-- A saved group of one thread without registers: its record has a header, the thread's place and the last sections. It stands at
0x200000. -/
def kept : Saved :=
  { group := { soleGroup with homes := [0], record := { soleRec with regs := 1, tiles := 0, scale := 0, spad := 0 } }
    ct := 9, accs := [], spad := [], failed := [], time := 0, boards := [], unit := none }
/-- Its bytes: 4,352 from offset 0, whose values the spec does not give, and zeros from offset 0x1FC000. -/
def keptBytes : List (Nat × Byte) :=
  (List.range 4352).map (fun j => (j, Config.freeByte j)) ++ (List.range 16384).map fun j => (0x1FC000 + j, 0)
/-- The sectors of the record, by their offsets in units of 64. -/
def keptSectors : List Nat := List.range 68 ++ (List.range 256).map (0x7F00 + ·)
def keptMemory : Memory :=
  { cells := keptBytes.map fun e => (interleavedCell (0x200000 + e.1), e.2)
    seals := keptSectors.map fun q => (interleavedCell (0x200000 + 64 * q) / 64, { key := 0, gen := 0, pa := 0x8000 + q })
    sides := [], restored := 0 }
def worldKept : State :=
  { ((worldS [(0, 0x200000)]).modHub fun h => { h with saves := [(0x200000, kept)] }) with memory := keptMemory }

theorem range_split (f : Nat → Nat × Byte) (m n : Nat) :
    (List.range (m + n)).map f = (List.range m).map f ++ (List.range n).map fun j => f (m + j) := by
  rw [List.range_add, List.map_append, List.map_map]; rfl
theorem zip_replicate (p n : Nat) (b : Byte) : zipFrom p (List.replicate n b) = (List.range n).map fun j => (p + j, b) := by
  apply List.ext_getElem <;> simp [zipFrom]
theorem kept_sections : kept.sections = keptBytes := by
  rw [keptBytes, range_split _ 4096 256, range_split _ 8 16376]
  have h0 : leBytes 8 kept.time.toNat = List.replicate 8 0 := by decide
  have h1 : kept.mark = 0 := rfl
  have h2 : kept.group.threads.length = 1 := rfl
  have h3 : ∀ t, kept.group.regLimit t = 0 := by
    intro t
    cases h : homeWave t <;> simp [kept, Group.regLimit, h]
  have h4 : kept.group.record = { soleRec with regs := 1, tiles := 0, scale := 0, spad := 0 } := rfl
  have h5 : kept.accs = [] := rfl
  have h6 : kept.spad = [] := rfl
  obtain ⟨th, h7⟩ : ∃ th, kept.group.threads[0]? = some th := ⟨_, rfl⟩
  simp only [Saved.sections, h0, h1, h2, h3, h4, h5, h6, zip_replicate, Nat.zero_add]
  simp [h7, Nat.add_assoc]
  omega

theorem interleaved_sector (x : Nat) :
    interleavedCell (0x200000 + x) / 64 = interleavedCell (0x200000 + 64 * (x / 64)) / 64 ∧ interleavedCell (0x200000 + x) % 64 = x % 64 := by
  have h : (0x200000 + x) / 2048 = (0x200000 + 64 * (x / 64)) / 2048 := by omega
  simp only [interleavedCell, h]
  generalize ((0x200000 + 64 * (x / 64)) / 2048 % 256 ^^^ (0x200000 + 64 * (x / 64)) / 2048 / 256 % 256) = v
  omega
theorem kept_seals : ∀ q ∈ keptSectors, tfind keptMemory.seals (interleavedCell (0x200000 + 64 * q) / 64) =
    some { key := 0, gen := 0, pa := 0x8000 + q } := all_of_check (by decide +kernel)
theorem kept_offset {e : Nat × Byte} (h : e ∈ keptBytes) : e.1 / 64 ∈ keptSectors ∧ e.1 < 0x200000 := by
  simp only [keptBytes, List.mem_append, List.mem_map, List.mem_range] at h
  obtain ⟨j, hj, rfl⟩ | ⟨j, hj, rfl⟩ := h
  · exact ⟨List.mem_append_left _ (by simp only [List.mem_range]; omega), by simp only []; omega⟩
  · refine ⟨List.mem_append_right _ (List.mem_map.mpr ⟨j / 64, by simp only [List.mem_range]; omega, by simp only []; omega⟩), by simp only []; omega⟩
theorem kept_byte {e f : Nat × Byte} (he : e ∈ keptBytes) (hf : f ∈ keptBytes) (h : e.1 = f.1) : e.2 = f.2 := by
  simp only [keptBytes, List.mem_append, List.mem_map, List.mem_range] at he hf
  obtain ⟨j, hj, rfl⟩ | ⟨j, hj, rfl⟩ := he <;> obtain ⟨k, hk, rfl⟩ | ⟨k, hk, rfl⟩ := hf <;> simp only [] at h ⊢
  · rw [h]
  all_goals omega
theorem kept_seal {e : Nat × Byte} (h : e ∈ keptBytes) :
    tfind keptMemory.seals (interleavedCell (0x200000 + e.1) / 64) = some { key := 0, gen := 0, pa := 0x8000 + e.1 / 64 } := by
  rw [(interleaved_sector e.1).1]
  exact kept_seals _ (kept_offset h).1
/-- Two bytes of one cell are one: the sector's seal tells its address. -/
theorem kept_cell {e f : Nat × Byte} (he : e ∈ keptBytes) (hf : f ∈ keptBytes)
    (h : interleavedCell (0x200000 + e.1) = interleavedCell (0x200000 + f.1)) : e.1 = f.1 := by
  have h1 := kept_seal he
  rw [h, kept_seal hf] at h1
  have h2 : e.1 / 64 = f.1 / 64 := by simpa using congrArg Seal.pa (Option.some.inj h1).symm
  have h3 := (interleaved_sector e.1).2
  rw [h, (interleaved_sector f.1).2] at h3
  omega
theorem tfind_one {l : List (Nat × Byte)} {b : Byte} {k : Nat} (h : ∀ e ∈ l, e.1 = k → e.2 = b) (hk : ∃ e ∈ l, e.1 = k) : tfind l k = some b := by
  induction l with
  | nil => simp at hk
  | cons a t ih =>
    unfold tfind
    split
    · simpa using h _ List.mem_cons_self (by assumption)
    · obtain ⟨e, he, rfl⟩ := hk
      rcases List.mem_cons.mp he with rfl | he
      · rename_i hne; exact absurd rfl hne
      · exact ih (fun x hx => h x (List.mem_cons_of_mem _ hx)) ⟨e, he, rfl⟩
theorem kept_find {e : Nat × Byte} (h : e ∈ keptBytes) : tfind keptMemory.cells (interleavedCell (0x200000 + e.1)) = some e.2 := by
  refine tfind_one (fun x hx h1 => ?_) ⟨_, List.mem_map.mpr ⟨e, h, rfl⟩, rfl⟩
  obtain ⟨f, hf, rfl⟩ := List.mem_map.mp hx
  show f.2 = e.2
  exact kept_byte hf h (kept_cell hf h h1)

/-- The record stands in any state with this memory and no die-local slab. -/
theorem kept_stands {s : State} (hm : s.memory = keptMemory) (hk : s.keyGenOf 0 = 0) (hd : s.hub.slabs = []) :
    s.unaltered 0x200000 kept = true := by
  have cell {x : Nat} (h : x < 0x200000) : s.cellOf (0x200000 + x) = some (interleavedCell (0x200000 + x)) := by
    have h1 : 0x200000 + x < stackedSize := by simp only [stackedSize]; omega
    simp [State.cellOf, h1, hd]
  rw [State.unaltered, kept_sections]
  simp only [List.all_eq_true, beq_iff_eq]
  intro e he
  have h1 : (0x200000 + e.1) / 64 = 0x8000 + e.1 / 64 := by omega
  simp only [State.byteAt, cell (kept_offset he).2, hm, kept_seal he, State.sealFor, hk, h1, beq_self_eq_true, if_true]
  exact kept_find he
theorem kept_unaltered : worldKept.unaltered 0x200000 kept = true := kept_stands rfl (by decide +kernel) (by decide +kernel)
theorem met_load_record : ∃ L l, Rules worldKept (.ctxld blankOp) blankOp noCheck 0 L ∧
    ((L.g.sget L.fA).extractLsb' 21 31).toNat * 0x200000 = 0x200000 ∧ (0x200000, kept) ∈ worldKept.hub.saves ∧
    worldKept.unaltered 0x200000 kept = true ∧ (∀ e ∈ worldKept.hub.saves, worldKept.unaltered 0x200000 e.2 = true → e.2 = kept) ∧
    tfind worldKept.hub.launches kept.group.launch = some l ∧ kept.group.threads ≠ [] ∧ kept.group.threads.length ≤ 1024 ∧ l.halted = false ∧
    kept.unit = none :=
  ⟨laneAt worldKept (.ctxld blankOp) blankOp 0, soleLaunch, rules_of_check (by decide +kernel), by decide +kernel, List.mem_cons_self,
    kept_unaltered, fun e he _ => by rw [List.mem_singleton.mp he], by decide +kernel, by decide, by decide, by decide +kernel, rfl⟩
theorem met_load_none : ∃ L, Rules (worldS [(0, 0x400000)]) (.ctxld blankOp) blankOp noCheck 0 L ∧ (worldS [(0, 0x400000)]).hub.saves = [] :=
  ⟨_, rules_of_check (by decide +kernel), by decide +kernel⟩
/-- The dispatcher holds the record. -/
def keptResume : Resume := { saved := kept, key := none, size := 1 }
def worldResume : State := (worldKept.modHub fun h => { h with resumes := [keptResume] }).modDie 0 fun d => { d with tbKnown := true }
/-- The places for the record, with the dispatcher's queue empty. -/
def keptPlaces : List Nat :=
  let s : State := { worldResume with hub := { worldResume.hub with resumes := [] } }
  s.rankPlaces kept.group.ctx kept.group.record (fun k => s.resumeCandidate kept (worldResume.residents kept.group.launch) k &&
    s.leavesRoom { kept.group.record with regs := 0 } (sameUnit 3 kept []) (sameUnit 4 kept []) k)
theorem met_resume : worldResume.hub.resumes = [keptResume] ∧ keptResume.key = none ∧ keptResume.size = 1 ∧ keptResume.tried = false ∧
    worldResume.hub.gangHold = [] ∧ worldResume.noPlaces kept.group.ctx = false ∧
    ∃ c slot rest, keptPlaces = c :: rest ∧ firstFree ((worldResume.core c).slots.map (·.1)) 64 = some slot := by
  obtain ⟨rest, h⟩ := List.head?_eq_some_iff.mp (show keptPlaces.head? = some 0 by decide +kernel)
  exact ⟨rfl, rfl, rfl, rfl, by decide +kernel, by decide +kernel, 0, 1, rest, h, by decide +kernel⟩
/-! ## Walkers -/

/-- A walk of address va that one lane access waits for. -/
def walkOf (va : Dword) : Walk :=
  { id := 7, ctx := 0, va := va, pc := codePc, core := 0, slot := 0, eng := false, acc := 0, wantD := false, waiters := [.acc 0 40]
    region := none, level := 0, table := 0, leaf := none, leafPa := 0, noFill := false, failed := none, seqNo := none }
/-- A region of 1 GiB with pages of 4 KiB, whose level-1 table is at 0x2000, where e stands. -/
def fineRegion : Dword := 0x2000061
def worldTable (e : Dword) : State :=
  { ((world.modHub fun h => { h with contexts := [(0, { soleCtx with regions := [fineRegion] })] }).modCore 0 fun k =>
      { k with accs := [{ heldLoad with phase := .walk, log := some 2 }], tlb := [] }) with memory := memOf [(0x2000, qw [e])] }
def worldMiss (n : Nat) : State :=
  { (worldTable 0).modDie 0 (fun x => { x with queue := List.replicate n (walkOf 0x5000) }) with net := [(4, .tlbMiss 0 (walkOf 0x2000))] }
theorem met_miss_queued : ∀ n ∈ [255, 256], (worldMiss n).msg? 4 = some (.tlbMiss 0 (walkOf 0x2000)) ∧
    tlbHit ((worldMiss n).die 0).tlb ((worldMiss n).regionFor 0 0x2000) 0 0x2000 = none ∧ ((worldMiss n).die 0).parked.length ≤ 256 ∧
    (∀ y ∈ ((worldMiss n).die 0).active ++ ((worldMiss n).die 0).queue, samePage ((worldMiss n).regionFor 0 0x2000) y 0 0x2000 = false) ∧
    ((worldMiss n).die 0).queue.length = n := all_of_check (by decide +kernel)
def worldJoin : State :=
  { (worldTable 0).modDie 0 (fun x => { x with active := [walkOf 0x2008] }) with net := [(4, .tlbMiss 0 { walkOf 0x2000 with wantD := true })] }
theorem met_miss_joins : worldJoin.msg? 4 = some (.tlbMiss 0 { walkOf 0x2000 with wantD := true }) ∧ Walking worldJoin 0 (walkOf 0x2008) ∧
    tlbHit (worldJoin.die 0).tlb (worldJoin.regionFor 0 0x2000) 0 0x2000 = none ∧
    samePage (worldJoin.regionFor 0 0x2000) (walkOf 0x2008) 0 0x2000 = true ∧ (walkOf 0x2008).noFill = false :=
  ⟨by decide +kernel, by simp only [Walking]; decide +kernel, by decide +kernel⟩
def worldQueued (n : Nat) : State :=
  (worldTable 0).modDie 0 fun x => { x with queue := [walkOf 0x2000], active := List.replicate n (walkOf 0x5000) }
theorem met_walk_start : ∀ n ∈ [0, 63, 64], ((worldQueued n).die 0).queue = [walkOf 0x2000] ∧ ((worldQueued n).die 0).slots = n ∧
    regionBad ((worldQueued n).regionFor 0 0x2000) 0x2000 = false ∧ ((worldQueued 0).die 0).active = [] := all_of_check (by decide +kernel)
/-- The slab of the first table is about to change its mode, or none is. -/
def worldSlab (b : Bool) : State := (worldQueued 0).modHub fun h => { h with slabWait := if b then [(0, true)] else [] }
theorem met_entry_slab : ∀ b ∈ [true, false], (worldSlab b).slabHeld 0x2000 = b ∧ ((worldSlab b).die 0).queue = [walkOf 0x2000] ∧
    ((worldSlab b).die 0).slots = 0 ∧ ((worldSlab b).die 0).active = [] := all_of_check (by decide +kernel)
/-- A walk under way that has come to a level of the table at 0x2000, and the line of its entry. -/
def atLevel (n : Nat) (d : Bool) (line : Option Line) : Walk :=
  { walkOf 0 with region := some fineRegion, level := n, table := 0x2000, wantD := d, line := line }
def worldWalk (w : Walk) : State := (worldTable 0).modDie 0 fun x => { x with active := [w] }
/-- The line with an entry in its first doubleword, or poisoned. -/
def entryGot (e : Dword) (poison : BitVec 4) : Got := ⟨leBytes 8 e.toNat ++ List.replicate 248 0, 0, 0, poison⟩
/-- An entry with V = 0; a pointer; a leaf with A clear; a leaf with A set; one that is to be written and has D clear. -/
theorem met_entry_read : ∀ x ∈ [((0 : Dword), 1, false), (0x3001, 1, false), (0x300B, 0, false), (0x301B, 0, false), (0x301B, 0, true)],
    let w := atLevel x.2.1 x.2.2 (some ⟨0x2000, 0, some (entryGot x.1 0)⟩)
    let pa := entryAddr (regionOf fineRegion) w.level w.table w.va
    Walking (worldWalk w) 0 w ∧ QueueOff (worldWalk w) 0 ∧ (worldWalk w).linkDown pa = false ∧ lineOf pa = 0x2000 ∧
    entryOf (entryGot x.1 0) pa = x.1 ∧ (∀ q ∈ w.waiters, (worldWalk w).isHalted q = false) ∧ w.noFill = false ∧ w.noKeys = [] ∧
    (worldWalk w).acc? 0 40 = some { heldLoad with phase := .walk } := by
  intro x hx w pa
  refine ⟨?_, ?_, ?_, ?_, ?_, ?_, ?_, ?_, ?_⟩
  · revert x; simp only [Walking]; exact all_of_check (by decide +kernel)
  · revert x; simp only [QueueOff]; exact all_of_check (by decide +kernel)
  all_goals revert x; exact all_of_check (by decide +kernel)
/-- The walk has not asked for its line, or has no answer yet. -/
theorem met_entry_asks : ∀ l ∈ [none, some (⟨0x2000, 0, none⟩ : Line)], Walking (worldWalk (atLevel 1 false l)) 0 (atLevel 1 false l) ∧
    (atLevel 1 false l).leaf = none ∧ (atLevel 1 false l).region = some fineRegion := by
  intro l hl
  refine ⟨?_, rfl, rfl⟩
  revert l; simp only [Walking]; exact all_of_check (by decide +kernel)
/-- The entry of an engine's walk is poisoned. -/
def jobWalk : Walk := { atLevel 1 false (some ⟨0x2000, 0, some (entryGot 0 1)⟩) with waiters := [.job 0 3] }
theorem met_entry_poison : Walking (worldWalk jobWalk) 0 jobWalk ∧
    (entryGot 0 1).poison.getLsbD (entryAddr (regionOf fineRegion) jobWalk.level jobWalk.table jobWalk.va / 64 % 4) = true := by
  simp only [Walking]; decide +kernel
/-- A leaf that was read as e with A clear, and that stands as f. -/
def atLeaf : Walk := { atLevel 0 true none with leaf := some 0x300B, leafPa := 0x2000 }
def worldLeaf (f : Dword) : State := (worldTable f).modDie 0 fun x => { x with active := [atLeaf] }
theorem met_leaf_update : ∀ f ∈ [(0x300B : Dword), 0x300F], Walking (worldLeaf f) 0 atLeaf ∧ Stands (worldLeaf f) 0x2000 (leBytes 8 f.toNat) ∧
    (worldLeaf f).keyLoaded 0 = true ∧ atLeaf.noFill = false ∧ atLeaf.noKeys = [] := by
  intro f hf
  refine ⟨?_, stands_of_check (cell := interleavedCell 0x2000) ?_, ?_, rfl, rfl⟩
  · revert f; simp only [Walking]; exact all_of_check (by decide +kernel)
  all_goals revert f; exact all_of_check (by decide +kernel)
/-- A parked walk whose record has been written, and its access; the group's handler can be entered. -/
def parkedWalk : Walk := { walkOf 0x2000 with failed := some 1, seqNo := some 3 }
def heldParked : Acc := { heldLoad with phase := .parked }
def atParked : State :=
  (atE.modCore 0 fun k => { k with accs := [heldParked] }).modDie 0 fun x => { x with parked := [parkedWalk] }
theorem met_parked : (atParked.die 0).parked = [parkedWalk] ∧ atParked.acc? 0 40 = some heldParked ∧
    ∃ g th, heldParked.log = some 2 ∧ atParked.group? 0 heldParked.slot = some g ∧ g.threads[heldParked.tid]? = some th ∧ th.live = true ∧
      th.wait = none ∧ th.due = [] ∧ Enterable atParked 0 g th :=
  ⟨by decide +kernel, by decide +kernel, _, _, rfl, rfl, rfl, by decide +kernel, by decide +kernel, by decide +kernel, enterable_of_check (by decide +kernel)⟩
/-- A fault queue of 16 records at 0x5000, with n records between its head and its tail, and a walk parked without a record. -/
def worldFaults (on : Bool) (n : Word) (walks : List Walk) : State :=
  (worldTable 0).modDie 0 fun x => { x with
    fqcfg := if on then 0x0800000000005000 else 0x5000, fqhead := 4, fqtail := 4 + n, parked := walks }
def unrecorded : Walk := { walkOf 0x2000 with failed := some 1 }
theorem met_fault_head : ((worldFaults true 1 []).die 0).fqcfgNext = none ∧ ((worldFaults true 1 []).die 0).parked = [] := by decide +kernel
theorem met_fault_record : ∀ n ∈ [(16 : Word), 15], let s := worldFaults true n [unrecorded]
    (s.die 0).parked = [unrecorded] ∧ (s.die 0).fqcfg.getLsbD 59 = true ∧ (s.die 0).fqcfgNext = none ∧
    fqRecords (s.die 0).fqcfg = 16 ∧ ((s.die 0).fqtail - lowWord 4).toNat = n.toNat ∧
    s.owner? (fqBase (s.die 0).fqcfg + 32 * ((s.die 0).fqtail.toNat % 16)) = none ∧
    (∃ cell, s.homeCell (fqBase (s.die 0).fqcfg + 32 * ((s.die 0).fqtail.toNat % 16)) = some cell ∧ s.lost cell = false) ∧ s.keyLoaded 0 = true ∧
    ∀ k, k < 32 → (s.cellOf (fqBase (s.die 0).fqcfg + 32 * ((s.die 0).fqtail.toNat % 16) + k)).isSome = true := by
  intro n hn s
  refine ⟨?_, ?_, ?_, ?_, ?_, ?_, ⟨interleavedCell 0x5000, ?_⟩, ?_, ?_⟩
  all_goals (revert n; exact all_of_check (by decide +kernel))
theorem met_fault_config : ((worldFaults true 0 []).die 0).fqtail = ((worldFaults true 0 []).die 0).fqhead ∧
    ((worldFaults true 1 []).die 0).fqtail ≠ ((worldFaults true 1 []).die 0).fqhead := by decide +kernel

/-! ## Lines at home -/

/-- The line of 0x1000 and its vault; a read of it for core 5. -/
def cell1 : Nat := interleavedCell 0x1000
def vault1 : Nat := vaultOf cell1
def readOf (hint : Nat) : ReadReq := { core := 5, tag := 0, sect := 1, hint := hint, ct := 30, pa := 0x1000, key := 0 }
def umbra1 (hint : Nat) (left : Option Got) : Umbra := ⟨4, [], 0x1000, 0, [readOf hint], false, left, 0, false⟩
/-- `world` with the line's times, umbras in its vault, and a message. -/
def worldHome (umbras : List Umbra) (msgs : List Msg) : State :=
  { (world.modVault vault1 fun x => { x with umbras := umbras }) with
    memory := { world.memory with sides := [(cell1 / 256, ⟨3, 50, 0⟩)] }, net := msgs.map fun m => (4, m) }
/-- The same with core 9 the owner of the line, recalled or not. -/
def ownedBy (recalled : Bool) : Excl := ⟨0x1000, 0, 9, [], recalled⟩
def worldOwner (recalled : Bool) (m : Msg) : State := (worldHome [] [m]).modVault vault1 fun x => { x with excls := [ownedBy recalled] }
theorem met_read_empty_key : (worldHome [] [.read { readOf 1 with key := 5 }]).msg? 4 = some (.read { readOf 1 with key := 5 }) ∧
    (worldHome [] [.read { readOf 1 with key := 5 }]).keyLoaded 5 = false := by decide +kernel
theorem met_read_opens : (worldHome [] [.read (readOf 1)]).msg? 4 = some (.read (readOf 1)) ∧ (worldHome [] []).keyLoaded 0 = true ∧
    (worldHome [] []).homeCell 0x1000 = some cell1 ∧ (worldHome [] []).owner? 0x1000 = none ∧ ((worldHome [] []).vault vault1).waiting = [] ∧
    8 * (offsetOf cell1 / 256 % 16) ∉ ((worldHome [] []).vault vault1).usedWays := by decide +kernel
theorem met_read_owned : ∀ b ∈ [true, false], let s := worldOwner b (.read (readOf 1))
    s.msg? 4 = some (.read (readOf 1)) ∧ s.owner? 0x1000 = some (vault1, ownedBy b) ∧ (s.vault vault1).excls = [ownedBy b] ∧
    (s.vault vault1).umbras = [] ∧ (s.vault vault1).waiting = [] ∧ 8 * (offsetOf cell1 / 256 % 16) ∉ (s.vault vault1).usedWays :=
  all_of_check (by decide +kernel)
theorem met_read_joins : ((worldHome [umbra1 1 none] [.read (readOf 1)]).vault vault1).umbras = [umbra1 1 none] ∧
    (umbra1 1 none).reqs.length < 63 * (1 + (umbra1 1 none).more.length) := by decide +kernel
theorem met_data_leaves : ∀ h ∈ [1, 4, 5], ((worldHome [umbra1 h none] []).vault (vaultOf cell1)).umbras = [umbra1 h none] ∧ cell1 < farCell ∧
    (worldHome [umbra1 h none] []).homeCell 0x1000 = some cell1 ∧ (worldHome [umbra1 h none] []).lost cell1 = false ∧
    tfind (worldHome [umbra1 h none] []).hub.keys 0 = some 0 ∧ Sound (worldHome [umbra1 h none] []) cell1 ∧
    Timed (worldHome [umbra1 h none] []) cell1 3 50 := by
  intro h hh
  refine ⟨?_, ?_, ?_, ?_, ?_, fun k _ => rfl, ?_⟩
  case refine_6 => revert h; simp only [Timed]; exact all_of_check (by decide +kernel)
  all_goals revert h; exact all_of_check (by decide +kernel)
theorem met_umbra_close : ∀ g ∈ [none, some (⟨List.replicate 256 7, 3, 50, 0⟩ : Got)],
    ((worldHome [umbra1 1 g] []).vault vault1).umbras = [umbra1 1 g] ∧ ((worldHome [umbra1 1 g] []).vault vault1).waiting = [] ∧
    (umbra1 1 g).reqs ≠ [] ∧ (umbra1 1 g).left = g ∧ ∀ q ∈ (umbra1 1 g).reqs, clusterOf q.core = 0 := all_of_check (by decide +kernel)

/-- A line of stacked memory is served at home. -/
theorem home_of_check {s : State} {pa key cell : Nat} (h : (decide (s.homeCell pa = some cell) && decide (cell < farCell) && s.owner? pa == none
    && s.lost cell == false && s.errors == [] && s.umbrasOf cell == [] && s.keyLoaded key) = true) : AtHome s pa key cell := by
  simp only [Bool.and_eq_true, decide_eq_true_eq, beq_iff_eq] at h
  exact ⟨h.1.1.1.1.1.1, h.1.1.1.1.1.2, h.1.1.1.1.2, h.1.1.1.2, fun k _ => by rw [h.1.1.2]; rfl, h.1.2, h.2⟩
def fourBytes : List Byte := [9, 8, 7, 6]
/-- A store in COH and STR, a write-back, a renewal with an old copy and the present one, and atomics. -/
def requests : List Msg :=
  [.cohStore 5 40 0x1008 0 70 (zipFrom 0x1008 fourBytes), .strStore 5 40 0x1008 0 (zipFrom 0x1008 fourBytes),
    .writeBack 5 0x1000 0 5 (List.replicate 256 9), .renew 5 40 0x1000 0 (some 3) 90 16, .renew 5 40 0x1000 0 (some 2) 90 16,
    .homeAtomic 5 40 0x1008 0 70 true (.atomic 0 0 0) 4 fourBytes [], .homeAtomic 5 40 0x1008 0 70 false (.atomic 0 0 0) 4 fourBytes [],
    .exclReq 5 40 0x1008 0 true]
theorem met_at_home : ∀ m ∈ requests, (worldHome [] [m]).msg? 4 = some m ∧ AtHome (worldHome [] [m]) 0x1008 0 cell1 ∧
    Timed (worldHome [] [m]) cell1 3 50 ∧ (worldHome [] [m]).hub.hostHeld = [] ∧ (worldHome [] [m]).hub.slabWait = [] ∧ ((worldHome [] [m]).side (cell1 / 256)).poison = 0 ∧
    (worldHome [] [m]).peek 0 0x1008 4 = some [0x09, 0x0C, 0, 0] ∧ (worldHome [] [m]).hub.hkey.toNat = 0 := by
  intro m hm
  refine ⟨?_, home_of_check ?_, ?_, ?_, ?_, ?_, ?_, ?_⟩
  case refine_3 => revert m; simp only [Timed]; exact all_of_check (by decide +kernel)
  all_goals revert m; exact all_of_check (by decide +kernel)
theorem met_fits : (0x1008 % 256 + fourBytes.length ≤ 256) ∧ 0x1008 < stackedSize ∧ fourBytes ≠ [] ∧
    0x1008 % 256 + (AccKind.apply (.atomic 0 0 0) 4 [0x09, 0x0C, 0, 0] fourBytes []).length ≤ 256 := by decide +kernel
/-- A host's access waits, or the slab of its line is about to change its mode. -/
def worldHost (held : Bool) : State := (worldHome [] []).modHub fun h =>
  if held then { h with hostHeld := [.read 0x1008 4] } else { h with slabWait := [(0, true)] }
theorem met_host_waits : (worldHost true).hub.hostHeld ≠ [] ∧ (worldHost false).hub.hostHeld = [] ∧ (worldHost false).slabHeld 0x1008 = true := by
  decide +kernel
/-- Lines of the vault that are owned, the first of them 0x1000. -/
def owned (n : Nat) : List Excl := (List.range n).map fun k => ⟨0x1000 + 0x100 * k, 0, 9, [], false⟩
def worldOwned (first n : Nat) (m : Msg) : State := (worldHome [] [m]).modVault vault1 fun x => { x with excls := (owned (first + n)).drop first }
def exclMsg : Msg := .exclReq 5 40 0x1008 0 true
theorem met_exclusive : ∀ n ∈ [31, 32], AtHome (worldOwned 1 n exclMsg) 0x1008 0 cell1 ∧ Timed (worldOwned 1 n exclMsg) cell1 3 50 ∧
    (worldOwned 1 n exclMsg).msg? 4 = some exclMsg ∧ ((worldOwned 1 n exclMsg).vault (vaultOf cell1)).excls.length = n := by
  intro n hn
  refine ⟨home_of_check ?_, ?_, ?_, ?_⟩
  case refine_2 => revert n; simp only [Timed]; exact all_of_check (by decide +kernel)
  all_goals revert n; exact all_of_check (by decide +kernel)
theorem met_exclusive_waits : ∀ b ∈ [true, false], (worldOwner b exclMsg).msg? 4 = some exclMsg ∧
    (worldOwner b exclMsg).owner? 0x1008 = some (vault1, ownedBy b) ∧ ((worldOwner b exclMsg).vault vault1).excls = [ownedBy b] ∧
    (worldOwner b exclMsg).keyLoaded 0 = true := all_of_check (by decide +kernel)
def backMsg : Msg := .exclReturn 9 0x1000 0 3 ⟨List.replicate 256 7, 80, 80, 0⟩
theorem met_exclusive_return : (worldOwned 0 1 backMsg).msg? 4 = some backMsg ∧
    (worldOwned 0 1 backMsg).owner? 0x1000 = some (vault1, ⟨0x1000, 0, 9, [], false⟩) ∧
    ((worldOwned 0 1 backMsg).vault vault1).excls = [⟨0x1000, 0, 9, [], false⟩] ∧
    (worldOwned 0 1 backMsg).homeCell 0x1000 = some cell1 ∧ cell1 < farCell ∧ (worldOwned 0 1 backMsg).lost cell1 = false := by decide +kernel

/-! ## Answers at a core -/

/-- Thread 0's access of 0x1008 under way. -/
def accOf (k : AccKind) (p : Phase) (hint state : Nat) : Acc :=
  { heldLoad with kind := k, phase := p, hint := hint, state := state, va := 0x1008, pa := 0x1008, log := some 2, data := fourBytes }
def worldCore (a : Acc) (l1 : List L1Line) (msgs : List Msg) : State :=
  { (world.modCore 0 fun k => { k with accs := [a], l1 := l1, ct := 10, misses := [(0, ⟨0x1000, 0, 0, false⟩)] }) with
    net := msgs.map fun m => (4, m) }
def thread1 : Thread := (world.thread? 0 0 0).getD (Thread.start 0 0)
theorem lone_of_check {s : State} {c : Nat} {a : Acc} {th : Thread} (h : (decide ((s.core c).accs = [a]) && s.thread? c a.slot a.tid == some th) = true) :
    Lone s c a th := by
  simp only [Bool.and_eq_true, decide_eq_true_eq, beq_iff_eq] at h
  exact ⟨h.1, h.2⟩
def gotLine (w r : Dword) : Got := ⟨List.replicate 256 7, w, r, 0⟩
def coreRead : ReadReq := { readOf 0 with core := 0 }
/-- A reflection for a load in COH, in STR and with hint 1. -/
theorem met_reflection : ∀ x ∈ [(0, 0), (0, 1), (1, 0)], let a := accOf .load .fill x.1 x.2
    let s := worldCore a [] [.reflect 0 0x1000 0 [coreRead] (gotLine 30 50)]
    s.msg? 4 = some (.reflect 0 0x1000 0 [coreRead] (gotLine 30 50)) ∧ Lone s 0 a thread1 ∧ a.count ≠ 0 ∧ lineOf a.pa = lineOf 0x1000 ∧ a.key = 0 ∧
      coreRead.agent = none ∧ s.linkDown a.pa = false ∧ (s.core 0).l1 = [] ∧ (s.core 0).cacheWays ≠ [] ∧ (∀ e ∈ (s.core 0).misses, e.2.stale = false) ∧ (maxD (s.core 0).ct 30).toNat ≤ 50 := by
  intro x hx a s
  refine ⟨?_, lone_of_check ?_, ?_, ?_, ?_, ?_, ?_, ?_, ?_, ?_, ?_⟩
  all_goals (revert x; exact all_of_check (by decide +kernel))
/-- A renewal's reply with data and without. -/
theorem met_renewal : ∀ x ∈ [((5 : Dword), some (gotLine 5 60)), (3, none)], let a := accOf .load .renew 0 0
    let s := worldCore a [lineAt false] [.renewReply 0 40 0x1000 0 x.1 60 x.2]
    Lone s 0 a thread1 ∧ a.id = 40 ∧ a.count ≠ 0 ∧ s.msg? 4 = some (.renewReply 0 40 0x1000 0 x.1 60 x.2) ∧
      (s.core 0).line? a.pa a.key = some (lineAt false) ∧ (lineAt false).wts = 3 ∧ a.got = none ∧
      s.linkDown a.pa = false ∧ (lineAt false).poison = 0 := by
  intro x hx a s
  refine ⟨lone_of_check ?_, ?_, ?_, ?_, ?_, ?_, ?_, ?_, ?_⟩
  all_goals (revert x; exact all_of_check (by decide +kernel))
/-- The acknowledgement of a store that met the copy's line at home, an older one or that no one asks about, and of an atomic. -/
theorem met_ack : ∀ x ∈ [(AccKind.store, some (3 : Dword)), (.store, some 2), (.store, none), (.atomic 0 0 0, none)], let a := accOf x.1 .sent 0 0
    let m := Msg.ack 0 40 0x1008 0 (some 70) (zipFrom 0x1008 fourBytes) [1, 2, 3, 4] false x.2
    let s := worldCore a [lineAt false] [m]
    s.msg? 4 = some m ∧ Lone s 0 a thread1 ∧ a.id = 40 ∧ a.count ≠ 0 ∧ s.linkDown 0x1008 = false ∧
      (s.core 0).line? 0x1008 0 = some (lineAt false) ∧ (lineAt false).wts = 3 := by
  intro x hx a m s
  refine ⟨?_, lone_of_check ?_, ?_, ?_, ?_, ?_, ?_⟩
  all_goals (revert x; exact all_of_check (by decide +kernel))
/-- An exclusive grant, and a refusal of one. -/
theorem met_grant_arrives : ∀ g ∈ [some (gotLine 30 50), none], let a := accOf (.atomic 0 0 0) .excl 0 0
    let s := worldCore a [] [.exclGrant 0 40 0x1000 0 g]
    Lone s 0 a thread1 ∧ a.id = 40 ∧ a.count ≠ 0 ∧ lineOf a.pa = lineOf 0x1000 ∧ a.key = 0 ∧ s.linkDown a.pa = false ∧
      s.msg? 4 = some (.exclGrant 0 40 0x1000 0 g) ∧
      (s.core 0).l1 = [] ∧ (s.core 0).cacheWays ≠ [] ∧
      a.pa % 256 + (a.kind.apply a.size (ofLine a (List.replicate 256 7)) a.data a.cmp).length ≤ 256 := by
  intro x hx a s
  refine ⟨lone_of_check ?_, ?_, ?_, ?_, ?_, ?_, ?_, ?_, ?_, ?_⟩
  all_goals (revert x; exact all_of_check (by decide +kernel))
def worldRecall (more : List (Nat × Msg)) : State :=
  { (world.modCore 0 fun k => { k with l1 := [lineAt true] }) with net := (4, .exclRecall 0 0x1000 0) :: more }
theorem met_recall : (worldRecall []).msg? 4 = some (.exclRecall 0 0x1000 0) ∧ ((worldRecall []).core 0).line? 0x1000 0 = some (lineAt true) ∧
    ((worldRecall []).core 0).accs = [] ∧ ((worldRecall []).core 0).l1 = [lineAt true] ∧
    ∀ e ∈ (worldRecall []).net, ∀ id p k g, e.2 = .exclGrant 0 id p k g → lineOf p ≠ lineOf 0x1000 := by
  refine ⟨by decide +kernel, by decide +kernel, by decide +kernel, by decide +kernel, fun e he id p k g h => ?_⟩
  have h1 : e = (4, .exclRecall 0 0x1000 0) := by simpa [worldRecall] using he
  rw [h1] at h
  exact absurd h (by simp)
def worldRecallEarly : State := worldRecall [(5, .exclGrant 0 40 0x1008 0 none)]
theorem met_recall_early : worldRecallEarly.msg? 4 = some (.exclRecall 0 0x1000 0) ∧ (worldRecallEarly.core 0).line? 0x1000 0 = some (lineAt true) ∧
    ∃ e ∈ worldRecallEarly.net, ∃ id p k g, e.2 = .exclGrant 0 id p k g ∧ lineOf p = lineOf 0x1000 :=
  ⟨by decide +kernel, by decide +kernel, (5, .exclGrant 0 40 0x1008 0 none), by simp [worldRecallEarly, worldRecall], 40, 0x1008, 0, none, rfl, by decide⟩
/-- Lanes of the atomic instruction that took the line have yet to be performed. -/
def atomAcc : Acc := { accOf (.atomic 0 0 0) .excl 0 0 with inst := (lineAt true).atom }
def worldRecallBusy : State := (worldRecall []).modCore 0 fun k => { k with accs := [atomAcc] }
theorem met_recall_busy : worldRecallBusy.msg? 4 = some (.exclRecall 0 0x1000 0) ∧ (worldRecallBusy.core 0).line? 0x1000 0 = some (lineAt true) ∧
    ∃ b ∈ (worldRecallBusy.core 0).accs, b.inst = (lineAt true).atom ∧ b.phase ≠ .parked ∧ b.phase ≠ .held ∧
      ((∃ fn ty sc, b.kind = .atomic fn ty sc) ∨ ∃ ty sc, b.kind = .cas ty sc) :=
  ⟨by decide +kernel, by decide +kernel, atomAcc, List.mem_cons_self, rfl, by decide, by decide, .inl ⟨0, 0, 0, rfl⟩⟩
def worldAged (n : Nat) : State := (worldRecall []).modCluster 0 fun x => { x with front := n }
theorem met_lease_old : ∀ n ∈ [1023, 1024], ((worldAged n).core 0).l1 = [lineAt true] ∧ (lineAt true).pa = lineOf 0x1010 ∧ (lineAt true).idle = 0 ∧
    (worldAged n).now 0 = n := all_of_check (by decide +kernel)

/-- A logged load, in region state 1, of an address that no TLB translates and of one whose line the L1 holds. -/
def worldReplay (miss : Bool) (p : Phase) : State :=
  (worldCore { accOf .load p 0 1 with va := if miss then 0x2000 else 0x1008 } [lineAt false] []).modHub fun h =>
    { h with contexts := [(0, { soleCtx with regions := [9] })] }
def worldCached (miss : Bool) (p : Phase) : State :=
  (worldReplay miss p).modCore 0 fun k => { k with tlb := [codePage] }
def replayed (miss : Bool) (p : Phase) : Acc := { accOf .load p 0 1 with va := if miss then 0x2000 else 0x1008 }
theorem met_replay_early : Lone (worldCached false .fill) 0 (replayed false .fill) thread1 ∧ (replayed false .fill).phase ≠ .logged :=
  ⟨lone_of_check (by decide +kernel), by decide⟩
theorem met_replay : ∀ b ∈ [true, false], let s := worldCached b .logged
    Lone s 0 (replayed b .logged) thread1 ∧ (∃ g, s.group? 0 0 = some g ∧ g.ctx = 0) ∧ (replayed b .logged).log.isSome = true ∧
    regionFault (s.regionFor 0 (replayed b .logged).va) 0 (replayed b .logged).va = none ∧ s.regionHeld 0 (replayed b .logged) = false ∧
    s.tlbLookup 0 0 (replayed b .logged).va = if b then none else some codePage := by
  intro b hb s
  refine ⟨lone_of_check ?_, ⟨(s.group? 0 0).getD soleGroup, ?_⟩, ?_, ?_, ?_, ?_⟩
  all_goals (revert b; exact all_of_check (by decide +kernel))
theorem met_replay_hit : let s := worldCached false .logged
    let r := s.regionFor 0 0x1008
    s.slabHeld (codePage.pa r 0x1008) = false ∧ s.accCheck 0 0 r codePage (replayed false .logged) = none ∧ isHub (codePage.pa r 0x1008) = false ∧
      (s.core 0).line? (codePage.pa r 0x1008) codePage.key = some (lineAt false) ∧ (lineAt false).poison = 0 ∧ r.state ≠ 0 ∧ s.writeBacksOpen 0 = false ∧
      (replayed false .logged).count ≠ 0 := by decide +kernel
theorem met_tick : ∀ n ∈ [63, 64], ((worldAged n).cluster 0).ticks = 0 ∧ ((worldAged n).cluster 0).front = n := all_of_check (by decide +kernel)

/-! ## Engines and the plane array -/

/-- A job under way with a card, delivered up to `done`; its footprints are 0x100 to 0x400 of its core's scratchpad and 0x1000 to 0x1200
of region 0. -/
def jobOf (card : Card) (done : Nat) : Job :=
  { ticket := 3, core := 0, slot := 0, ctx := 0, pc := codePc, card := card
    feet := [{ write := true, sp := true, base := 0x100, size := 0x300 }, { write := false, sp := false, base := 0x1000, size := 0x200 }]
    edges := [], jt := 70, engine := some 0, started := true, done := done, fault := none, waitWalk := none, comm := [] }
/-- Fills of 600 bytes with the counting word at 0x800 or with none, and a copy of two rows of 64 bytes from 0x1000. -/
def fillJob (sync : Word) (done : Nat) : Job :=
  jobOf { dws := [0x3000000100000000 ||| sync.setWidth 64, 0x100, 0x0A0B0C0D, 600, 0x4000000000000000] } done
def copyCard (lines : List Line) : Job := { jobOf { dws := [0x0000000200000800, 0x1000, 0x200, 0x0004000200100004, 0, 0x4000000000000000] } 0 with lines := lines }
def worldJobs (l : List Job) : State :=
  (world.modCluster 0 fun x => { x with jobs := l, ticket := 5, tlb := [{ codePage with page := 0, base := 0 }] }).modCore 0 fun k =>
    { k with spad := zipFrom 0x800 [1, 0, 0, 2, 0, 0, 5, 0] }
theorem runs_of_check {s : State} {k : Nat} {j : Job} (h : (decide ((s.cluster k).jobs = [j]) && decide (j.started = true ∧ j.fault = none ∧ j.waitWalk = none)
    && decide (j.done < j.total) && decide (s.jobHeld j = false ∧ s.hub.slabWait = [])) = true) : Runs s k j := by
  simp only [Bool.and_eq_true, decide_eq_true_eq] at h
  exact ⟨h.1.1.1, h.1.1.2, h.1.2, h.2⟩
/-- Another job of the cluster, which runs, and one that waits for an edge or for none. -/
def oldJob : Job := { fillJob 0xFFFFFFFF 0 with ticket := 1 }
def newJob (j : Job) (edges : List (BitVec 16)) : Job := { j with started := false, engine := none, edges := edges }
def collJob : Job := newJob (jobOf { dws := [0x20000001FFFFFFFF, 0, 0, 0, 0] } 0) []
theorem met_job_start : ∀ j ∈ [newJob (fillJob 0xFFFFFFFF 0) [1], newJob (fillJob 0xFFFFFFFF 0) [], collJob],
    ((worldJobs [oldJob, j]).cluster 0).jobs = [oldJob] ++ [j] ∧ (∀ y ∈ [oldJob], y.ticket ≠ j.ticket ∧ (y.started = true ∨ y.edges ≠ [])) ∧
    j.started = false ∧ (worldJobs [oldJob, j]).jobHeld j = false ∧
    ∃ e ∈ enginesFor j.card.op, e ∉ ((worldJobs [oldJob, j]).cluster 0).jobs.filterMap (·.engine) := by
  intro j hj
  refine ⟨?_, ?_, ?_, ?_, if j.card.op = 2 then 8 else 1, ?_, ?_⟩
  all_goals (revert j; exact all_of_check (by decide +kernel))
/-- The copy engines are busy, and the job's region is being moved. -/
def busyJobs : List Job := (List.range 4).map fun e => { oldJob with ticket := BitVec.ofNat 16 (20 + e), engine := some e }
def heldJob : Job := newJob (copyCard []) []
def worldHeldJob : State := (worldJobs [heldJob]).modHub fun h => { h with contexts := [(0, { soleCtx with moving := some (0, 0) })] }
theorem met_job_none : (∀ y ∈ busyJobs, y.ticket ≠ heldJob.ticket ∧ (y.started = true ∨ y.edges ≠ [])) ∧
    (¬ ∃ e ∈ enginesFor heldJob.card.op, e ∉ ((worldJobs (busyJobs ++ [heldJob])).cluster 0).jobs.filterMap (·.engine)) ∧
    worldHeldJob.jobHeld heldJob = true := by decide +kernel
/-- A communicator's entry is there. -/
def worldComm : State :=
  { (worldJobs [collJob]).modHub (fun h => { h with commcfg := 0x8000000000006000 }) with memory := memOf [(0x6000, qw [0x8000000200000000, 0])] }
theorem met_communicator : collJob.card.op = 2 ∧ worldComm.commEntry collJob.ctx collJob.card.comm = (some [0x8000000200000000, 0], worldComm) ∧
    (worldJobs [collJob]).commEntry collJob.ctx collJob.card.comm = (none, worldJobs [collJob]) := by decide +kernel
theorem met_fill : ∀ sync ∈ [(0xFFFFFFFF : Word), 0x800], Runs (worldJobs [fillJob sync 0]) 0 (fillJob sync 0) ∧ (fillJob sync 0).card.op = 3 ∧
    (fillJob sync 0).card.sp 0 = true ∧ (fillJob sync 0).card.sync = sync ∧
    ∀ i, i < min 256 ((fillJob sync 0).card.len - 0) →
      (worldJobs [fillJob sync 0]).engBad (fillJob sync 0) ⟨true, ((fillJob sync 0).card.src + 0) % 2 ^ 32 + i⟩ true = none := by
  intro sync hs
  refine ⟨runs_of_check ?_, ?_, ?_, ?_, ?_⟩
  all_goals (revert sync; exact all_of_check (by decide +kernel))
theorem met_fill_word : spadAt 0 (BitVec.ofNat 32 0x100) = some (0, 0x100) ∧ spadAt 0 0x800 = some (0, 0x800) ∧
    ∀ i, i < 8 → ((worldJobs []).core 0).spadByte (0x800 + i) = some (word5.extractLsb' (8 * i) 8) := by decide +kernel
/-- The same fill with no footprint. -/
def strayJob : Job := { fillJob 0xFFFFFFFF 0 with feet := [] }
theorem met_fill_stray : Runs (worldJobs [strayJob]) 0 strayJob ∧ strayJob.card.op = 3 ∧ strayJob.card.sp 0 = true ∧
    (worldJobs [strayJob]).engBad strayJob ⟨true, 0x100⟩ true = some 0x09 :=
  ⟨runs_of_check (by decide +kernel), by decide +kernel⟩
/-- The copy has not asked for the line, has no answer, or has it sound or poisoned. -/
def copyLines : List (List Line) :=
  [[], [⟨0x1000, 0, none⟩], [⟨0x1000, 0, some (gotLine 30 50)⟩], [⟨0x1000, 0, some { gotLine 30 50 with poison := 1 }⟩]]
theorem met_copy : ∀ l ∈ copyLines, let j := copyCard l
    let s := worldJobs [j]
    Runs s 0 j ∧ j.card.op = 0 ∧ j.card.sp 0 = false ∧ j.card.sp 1 = true ∧ j.card.rowLen = 64 ∧
      j.card.src = 0x1000 ∧ j.card.dst = 0x200 ∧ (∀ i, i < 64 → s.engBad j ⟨false, 0x1000 + i⟩ false = none) ∧
      (∀ i, i < 64 → s.engBad j ⟨true, 0x200 + i⟩ true = none) ∧ s.engXlate 0 j 0x1000 false = .ok 0x1000 0 0 ∧
      j.line? (lineOf 0x1000) 0 = l.head? := by
  intro l hl j s
  refine ⟨runs_of_check ?_, ?_, ?_, ?_, ?_, ?_, ?_, ?_, ?_, ?_, ?_⟩
  all_goals (revert l; exact all_of_check (by decide +kernel))
theorem met_copy_word : (copyCard []).card.sync = 0x800 ∧ ∀ b ∈ [true, false],
    Owned (if b then worldJobs [copyCard []] else (worldJobs [copyCard []]).modCore 0 fun k => { k with allocs := [] }) (copyCard []) ↔ b = true := by
  refine ⟨by decide +kernel, fun b hb => ?_⟩
  simp only [Owned]
  revert b; exact all_of_check (by decide +kernel)
/-- A job that does not run: it has not started, is at fault, waits for a walk, or is done. -/
theorem met_unit_none : ∀ j ∈ [{ oldJob with started := false }, { oldJob with fault := some 9 }, { oldJob with waitWalk := some (0, 3) },
    { oldJob with done := 600 }], ((worldJobs [j]).cluster 0).jobs = [j] ∧
      (j.started = false ∨ j.fault ≠ none ∨ j.waitWalk ≠ none ∨ j.total ≤ j.done) := all_of_check (by decide +kernel)
/-- A job that has ended, one that has not, one at fault; another waits for it. -/
def laterJob : Job := newJob { fillJob 0xFFFFFFFF 0 with ticket := 4 } [3]
theorem met_job_end : ∀ j ∈ [fillJob 0x800 600, fillJob 0x800 599, { fillJob 0x800 0 with fault := some 9 }],
    ((worldJobs [j, laterJob]).cluster 0).jobs = j :: [laterJob] ∧ (∀ y ∈ [laterJob], y.ticket ≠ j.ticket) ∧
    (((worldJobs [j, laterJob]).cluster 0).ticket - j.ticket).toNat ≤ 256 ∧ ((worldJobs [j, laterJob]).group? j.core j.slot).isSome = true ∧
    j.card.sync = 0x800 := all_of_check (by decide +kernel)

/-- An operation of two signers' rows and one column, in E4M3. -/
def planeOp (afresh : Bool) : Plane :=
  { slot := 0, tile := 0, kblk := 1, afresh := afresh
    a := { code := 2, scaled := true, base := 0, codes := [0, 1], rows := [(List.replicate 8 0x38383838, 0), (List.replicate 8 0x40404040, 0)], desc := none }
    b := { code := 2, scaled := true, base := 0, codes := [2], rows := [(List.replicate 8 0x3C383838, 0)], desc := none }
    release := [(0, codePc + 8)] }
def worldPlane (op : Option Plane) (queue : List Plane) (hot : Bool) : State :=
  ((world.modCore 0 fun k => { k with plane := op, planeQ := queue, hot := hot }).modGroup 0 0 fun g =>
    { g with x := [(0, [(0, 0x3F800000), (65, 0x40000000)])], xEmpty := [0] }).modThread 0 0 0 fun th =>
      { th with wait := some ⟨.signature 0, 0, false⟩ }
theorem met_plane_start : ∀ x ∈ [(none, false), (none, true), (some (planeOp true), false)],
    ((worldPlane x.1 [planeOp false] x.2).core 0).planeQ = planeOp false :: [] ∧ ((worldPlane x.1 [planeOp false] x.2).core 0).plane = x.1 ∧
    ((worldPlane x.1 [planeOp false] x.2).core 0).hot = x.2 := all_of_check (by decide +kernel)
theorem met_plane_complete : ∀ b ∈ [true, false], let s := worldPlane (some (planeOp b)) [] false
    (s.core 0).plane = some (planeOp b) ∧ (planeOp b).a.desc = none ∧ (planeOp b).b.desc = none ∧ (planeOp b).release = [(0, codePc + 8)] ∧
    ∃ g th, s.group? 0 0 = some g ∧ g.threads[0]? = some th ∧ th.due = [] ∧ th.wait = some ⟨.signature 0, 0, false⟩ := by
  intro b hb s
  refine ⟨?_, ?_, ?_, ?_, (s.group? 0 0).getD soleGroup, (s.thread? 0 0 0).getD (Thread.start 0 0), ?_, ?_, ?_, ?_⟩
  all_goals (revert b; exact all_of_check (by decide +kernel))

/-! ## The dispatcher -/

/-- A launch record at 0x4000 whose wait event lies at 0x5000, a context descriptor at 0x6000 and its region attribute file at 0x6800;
queue 2 begins there. -/
def recWith (levels dem event : Dword) : List Byte :=
  qw [0x1000, 0x100210, 0, 0x8000000000000000 ||| dem <<< 32, levels, 0, 0, 0, event, 4, 0, 0, 0, 0, 0, 0]
def goodLevels : Dword := 0x0001009200010080
def descBytes : List Byte := qw [0x6800, 9, 0, 0, 0, 0, 0, 0]
def fileBytes : List Byte := qw (0x2000047 :: List.replicate 15 0)
def queue2 (waiting : Bool) : Queue :=
  { Queue.reset with cfg := 0x8400000000000180, base := 0x4000, tail := 1, waiting := waiting }
def worldQueues (waiting : Bool) (r : List Byte) (v : Dword) : State :=
  { (State.reset.modHub fun h => { h with queues := [(2, queue2 waiting)] }) with
    memory := memOf [(0x2000, qw [0x3F]), (0x4000, r), (0x5000, qw [v]), (0x6000, descBytes), (0x6800, fileBytes)] }
theorem foremost_of_check {s : State} {q : Nat} (h : (decide (q < 64) && (s.queue q).works
    && (List.range 64).all (fun p => p == q || !(s.queue p).works || decide ((s.queue q).prio < (s.queue p).prio))) = true) : Foremost s q := by
  simp only [Bool.and_eq_true, decide_eq_true_eq, List.all_eq_true, List.mem_range] at h
  refine ⟨h.1.1, h.1.2, fun p hp hne hw => ?_⟩
  have h1 := h.2 p hp
  simpa [hne, hw] using h1
theorem met_record_read : let r := recWith goodLevels 0 0
    let s := worldQueues false r 0
    s.hub.recovery = false ∧ s.keyLoaded 0 = true ∧ Foremost s 2 ∧ (s.queue 2).headAddr = 0x4000 ∧ ((s.queue 2).cfg.extractLsb' 0 46).toNat * 64 = 0x6000 ∧
      ((dwAt descBytes 0).extractLsb' 7 45).toNat * 128 = 0x6800 ∧ ((dwAt descBytes 1).extractLsb' 0 12).toNat = 9 ∧ r.length = 128 ∧
      descBytes.length = 64 ∧ fileBytes.length = 128 ∧ Stands s 0x4000 r ∧ Stands s 0x6000 descBytes ∧ Stands s 0x6800 fileBytes ∧
      tfind s.hub.contexts 9 = none ∧ s.liveCtx 9 = false ∧ (recOf r).waitev = 0 ∧ (recOf r).sigev = 0 := by
  intro r s
  refine ⟨?_, ?_, foremost_of_check ?_, ?_, ?_, ?_, ?_, ?_, ?_, ?_, stands_of_check (cell := interleavedCell 0x4000) ?_,
    stands_of_check (cell := interleavedCell 0x6000) ?_, stands_of_check (cell := interleavedCell 0x6800) ?_, ?_, ?_, ?_, ?_⟩
  all_goals decide +kernel
/-- A record with no level, and one of a demand that no vault grants. -/
theorem met_records : (recOf (recWith 0 0 0)).levelsOk = false ∧ (recOf (recWith goodLevels 0 0)).levelsOk = true ∧
    (recOf (recWith goodLevels 0 0)).fieldsOk = true ∧ (recOf (recWith goodLevels 0 0)).hopeless 40 512 = false ∧
    (recOf (recWith goodLevels 512 0)).levelsOk = true ∧ (recOf (recWith goodLevels 512 0)).fieldsOk = true ∧
    (recOf (recWith goodLevels 512 0)).hopeless 40 512 = true := by decide +kernel
/-- The context is known, and the event, whose value is to be 4, is v. -/
def worldPoll (v : Dword) : State :=
  (worldQueues true (recWith goodLevels 0 0x5000) v).modHub fun h => { h with contexts :=
    [(9, { soleCtx with desc := 0x6000, raf := 0x6800, regions := (List.range 16).map (dwAt fileBytes) })] }
theorem met_event_poll : let s := worldPoll 4
    (s.queue 2).waiting = true ∧ (s.queue 2).cfg.getLsbD 63 = true ∧
      s.hubLoad 0 (s.queue 2).headAddr 128 = .ok (recWith goodLevels 0 0x5000, s) ∧
      s.openCtx (((s.queue 2).cfg.extractLsb' 0 46).toNat * 64) = .ok (9, s) ∧ (recOf (recWith goodLevels 0 0x5000)).waitev.toNat % 8 = 0 ∧
      s.virtLoad 9 (recOf (recWith goodLevels 0 0x5000)).waitev.toNat 8 = .ok (leBytes 8 4, s) := by
  refine ⟨?_, ?_, ?_, ?_, ?_, ?_⟩
  all_goals decide +kernel

/-- A launch with a group to place. -/
def launchOf (gang : Bool) : Launch :=
  { soleLaunch with record := { recOf (recWith goodLevels 0 0) with gang := gang }, groups := 1, placed := 0, cores := [], ran := [] }
/-- T_b of die 0 is known or not; every core of it but core 0 holds a group with all eight tiles. -/
def worldPlace (gang known : Bool) : State :=
  { (State.reset.modHub fun h => { h with contexts := [(0, soleCtx)], launches := [(5, launchOf gang)] }).modDie 0
      (fun x => { x with tb := 160, tbKnown := known }) with
    cores := (List.range 127).map fun k => (k + 1, { Core.reset with slots := [(0, soleGroup)] }) }
theorem met_places : ∀ x ∈ [(false, true), (true, true), (true, false)], Placing (worldPlace x.1 x.2) 5 (launchOf x.1) x.1 := by
  intro x hx
  refine ⟨?_, ?_, ?_, ?_, ?_⟩
  all_goals (revert x; exact all_of_check (by decide +kernel))
theorem met_group_place : (launchOf false).node = none ∧ (launchOf false).records = [] ∧ (worldPlace false true).hub.gangHold = [] ∧
    (worldPlace false true).mateSaved 5 (launchOf false) 0 = false ∧
    (worldPlace false true).candidate 5 (launchOf false) 0 0 = true ∧
    (worldPlace false true).levyAt 0 (launchOf false).record.heat (launchOf false).record.dem = some 0 ∧
    (∀ k, k < 512 → k ≠ 0 → (worldPlace false true).candidate 5 (launchOf false) 0 k = false) ∧
    firstFree (((worldPlace false true).core 0).slots.map (·.1)) 64 = some 0 ∧ (launchOf false).record.spad ≠ 0 := by decide +kernel
/-- No temperature is known yet, so no core is a candidate; and a launch that has been tried. -/
theorem met_no_place : Placing (worldPlace false false) 5 (launchOf false) false ∧ (worldPlace false false).hub.gangHold = [] ∧
    (worldPlace false false).choose 5 (launchOf false) 0 = none := by
  refine ⟨⟨?_, ?_, ?_, ?_, ?_⟩, ?_⟩
  all_goals decide +kernel
def triedLaunch : Launch := { launchOf false with tried := true }
theorem met_tried : ((worldPlace false true).modHub fun h => { h with launches := [(5, triedLaunch)] }).hub.launches = [(5, triedLaunch)] ∧
    triedLaunch.tried = true := by decide +kernel
theorem met_gang : ((worldPlace true true).placeGang 5 (launchOf true)).isSome = true ∧ (worldPlace true false).placeGang 5 (launchOf true) = none := by
  decide +kernel
/-- The group of `world` with its thread live or exited, and a load of its under way or not. -/
def worldEnd (live busy : Bool) : State :=
  (world.modThread 0 0 0 fun th => { th with live := live }).modCore 0 fun k =>
    { k with accs := if busy then [{ heldLoad with phase := .fill }] else [] }
theorem met_group_end : ∀ x ∈ [(true, false), (false, true), (false, false)], ((worldEnd x.1 x.2).group? 0 0).map Group.finished = some (!x.1) ∧
    (worldEnd x.1 x.2).groupBusy 0 0 = x.2 ∧ tfind (worldEnd x.1 x.2).hub.launches soleGroup.launch = some soleLaunch ∧
    (worldEnd x.1 x.2).hub.preempt = none := all_of_check (by decide +kernel)
/-- A launch whose record is at 0x4000 and whose group has ended or not, and core 0 with a line that is dirty in some sectors. -/
def endedLaunch (ended : Bool) : Launch := { soleLaunch with addr := 0x4000, ended := if ended then [0] else [] }
def worldDone (ended : Bool) (dirty : BitVec 4) : State :=
  (world.modHub fun h => { h with launches := [(0, endedLaunch ended)] }).modCore 0 fun k => { k with l1 := [{ lineAt false with dirty := dirty }] }
theorem writable_of_check {s : State} {addr cell : Nat} (h : (decide (s.keyLoaded 0 = true ∧ addr % 128 = 0 ∧ s.owner? addr = none) &&
    (List.range 8).all (fun k => (s.cellOf (addr + 88 + k)).isSome) && decide (s.homeCell addr = some cell ∧ s.lost cell = false)) = true) :
    Writable s addr := by
  simp only [Bool.and_eq_true, decide_eq_true_eq, List.all_eq_true, List.mem_range] at h
  exact ⟨h.1.1.1, h.1.1.2.1, h.1.1.2.2, h.1.2, cell, h.2⟩
theorem met_complete : ∀ x ∈ [(false, (0 : BitVec 4)), (true, 0), (true, 5)], tfind (worldDone x.1 x.2).hub.launches 0 = some (endedLaunch x.1) ∧
    (endedLaunch x.1).halted = false ∧ (endedLaunch x.1).node = none ∧ (endedLaunch x.1).record.sigev = 0 ∧ (endedLaunch x.1).ran = [0] ∧
    ((worldDone x.1 x.2).core 0).l1 = [{ lineAt false with dirty := x.2 }] ∧ (worldDone x.1 x.2).writeBacksOpen 0 = false ∧
    Writable (worldDone x.1 x.2) (endedLaunch x.1).addr.toNat := by
  intro x hx
  refine ⟨?_, ?_, ?_, ?_, ?_, ?_, ?_, writable_of_check (cell := interleavedCell 0x4000) ?_⟩
  all_goals (revert x; exact all_of_check (by decide +kernel))

/-! ## Heat, power, the hub's registers and links -/

theorem met_sample : ∀ t ∈ [(500 : Int), 501], vault1 < 256 ∧ (world.die (vault1 / 64)).powered = true ∧ (t ≤ 500 ∨ 500 < t) := by
  intro t ht
  exact ⟨by decide +kernel, by decide +kernel, by omega⟩
theorem met_trip : vault1 / 64 = 0 ∧ onDie 0 cell1 = true ∧ tfind world.hub.launches 0 = some soleLaunch ∧ soleLaunch.ctx ∈ world.ctxsOn 0 := by decide +kernel
theorem met_band : (world.vault 1).pending = none ∧ ((world.modVault 1 fun x => { x with pending := some 2 }).vault 1).pending = some 2 := by decide +kernel
theorem met_scrub : ∀ b ∈ [true, false], ((world.modDie 0 fun x => { x with powered := b }).die (1 / 64)).powered = b ∧ 64 * 5 < 0xC0000000 :=
  all_of_check (by decide +kernel)
def worldReport (l : List (Nat × Int)) : State := { world with outside := { Outside.empty with baseTemp := l } }
/-- An error stands in a sector of vault 1, which can be corrected or not. -/
def worldError (bad : Bool) : State := { world with errors := [(0x4000005, (2, bad))] }
theorem met_scrub_finds : ∀ b ∈ [true, false], (worldError b).errors = [(0x4000005, (2, b))] ∧ ((worldError b).die (1 / 64)).powered = true ∧
    64 * 0x4000005 < farCell ∧ vaultOf (64 * 0x4000005) = 1 := all_of_check (by decide +kernel)
theorem met_report : (worldReport [(2, 300)]).outside.baseTemp = [(2, 300)] ∧ ∃ x, tfind (worldReport [(2, 300)]).hub.contexts 0 = some x :=
  ⟨by decide +kernel, _, rfl⟩
def worldDark (tb : Int) : State :=
  { world.modDie 1 (fun x => { x with powered := false, tb := tb }) with outside := { Outside.empty with die := 1 } }
theorem met_restore : ∀ t ∈ [(339 : Int), 340], (worldDark t).outside.die = 1 ∧ ((worldDark t).die 1).powered = false ∧ ((worldDark t).die 1).tb = t :=
  all_of_check (by decide +kernel)

/-- The meters of an exchange, with demands that the cap covers and that it does not. -/
def worldMeters (d : Nat) : State :=
  { world with outside := { Outside.empty with meters :=
    { clusterDemand := [], dieDemand := [d, 200, 100, 33], diePower := [150, 150, 150, 150], hubPower := 100, pkgPower := 900 } } }
theorem met_exchange : ∀ x ∈ [(300, true), (2000, false)], (∀ p, tget 0 (worldMeters x.1).hub.pmap p = 0) ∧
    decide (x.1 + 200 + 100 + 33 ≤ max (worldMeters x.1).hub.pcapReg (worldMeters x.1).hub.idle - 100) = x.2 := by
  intro x hx
  refine ⟨fun p => rfl, ?_⟩
  revert x; exact all_of_check (by decide +kernel)
/-- The energy of an interval: a core's, whose one group has issued; a job's, that runs; the memory's; a die's filler operations'. -/
def energies : List Energy := [⟨[(0, 700)], [], 0, []⟩, ⟨[], [(0, 3, 700)], 0, []⟩, ⟨[], [], 700, []⟩, ⟨[], [], 0, [(1, 700)]⟩]
def worldEnergy (e : Energy) : State :=
  { (((worldJobs [fillJob 0x800 0]).modGroup 0 0 fun g => { g with used := 3 }).modDie 1 fun x =>
      { x with filler := true, fillCtx := [(0, 9)] }).modHub (fun h => { h with contexts := [(0, { soleCtx with bytes := 5 }), (7, soleCtx)] }) with
    outside := { Outside.empty with energy := e } }
theorem met_energy : ∀ e ∈ energies, EnergyOf (worldEnergy e) 0 700 ∧ ∃ x, tfind (worldEnergy e).hub.contexts 0 = some x := by
  intro e he
  refine ⟨⟨by decide, ?_⟩, _, rfl⟩
  simp only [energies, List.mem_cons, List.not_mem_nil, or_false] at he
  obtain rfl | rfl | rfl | rfl := he
  · exact .inl ⟨0, 0, ((worldEnergy ⟨[(0, 700)], [], 0, []⟩).group? 0 0).getD soleGroup, by decide +kernel⟩
  · exact .inr (.inl ⟨0, fillJob 0x800 0, by decide +kernel⟩)
  · exact .inr (.inr (.inl ⟨rfl, ⟨_, rfl, by decide⟩, by decide +kernel⟩))
  · exact .inr (.inr (.inr ⟨1, 9, by decide +kernel⟩))
/-- Two groups of two contexts have issued on core 0. -/
def groupUsed (ctx used : Nat) : Group := { soleGroup with ctx := ctx, used := used }
def worldShare : State :=
  { ((world7 []).modCore 0 fun k => { k with slots := [(0, groupUsed 0 3), (1, groupUsed 7 1)] }) with
    outside := { Outside.empty with energy := ⟨[(0, 700)], [], 0, []⟩ } }
theorem met_energy_shared : worldShare.outside.energy = ⟨[(0, 700)], [], 0, []⟩ ∧
    (worldShare.core 0).slots = [(0, groupUsed 0 3), (1, groupUsed 7 1)] ∧ 0 < (groupUsed 0 3).used + (groupUsed 7 1).used ∧
    (tfind worldShare.hub.contexts 0).isSome = true ∧ (tfind worldShare.hub.contexts 7).isSome = true := by decide +kernel
/-- A context with a period of 5, whose boundary is at cycle 5,000, or with none. -/
def quotaCtx (period : Nat) : Ctx := { soleCtx with quota := BitVec.ofNat 64 (period * 2 ^ 40), boundary := 5000 }
def worldQuota (period cycles : Nat) : State := world.modHub fun h => { h with contexts := [(0, quotaCtx period)], cycles := cycles }
theorem met_quota : ∀ x ∈ [(0, 5000), (5, 4999), (5, 5000)], tfind (worldQuota x.1 x.2).hub.contexts 0 = some (quotaCtx x.1) ∧
    (quotaCtx x.1).period = x.1 ∧ (worldQuota x.1 x.2).hub.cycles = x.2 := all_of_check (by decide +kernel)
/-- A communicator of 16 ranks is configured, or none; die 2 is early by 30 W. -/
def worldSkew (ranks : Bool) : State :=
  { (world.modHub (fun h => { h with commcfg := if ranks then 0x8000000000006000 else 0 })).modDie 2 (fun x => { x with grant := 200 }) with
    memory := memOf [(0x6000, qw [0x8000001000000000])], outside := { Outside.empty with early := [(2, 30)], late := [5, 0, 0, 0] } }
theorem met_skew : ∀ b ∈ [true, false], (worldSkew b).outside.early = [(2, 30)] ∧ (worldSkew b).largeComm.1 = b ∧ (worldSkew b).hub.slabWait = [] := all_of_check (by decide +kernel)
/-- Filler operations run on die 1 or not; context 0's groups have ended or were held there, or not. -/
def worldFiller (b leaver : Bool) : State := world.modDie 1 fun x =>
  { x with filler := b, fillCtx := if b then [(0, 9)] else [], leavers := if leaver then [0] else [] }
theorem met_filler : ∀ x ∈ [(true, true), (true, false), (false, true), (false, false)], let s := worldFiller x.1 x.2
    (s.die 1).filler = x.1 ∧ (s.die 1).powered = true ∧ (tfind s.hub.contexts 0).isSome = true ∧ (x.1 = true → (s.die 1).fillCtx = [(0, 9)]) ∧
    (s.die 1).leavers.contains 0 = x.2 := all_of_check (by decide +kernel)
/-- A register of each kind that a write leaves bits in; registers that no write changes. -/
theorem met_registers : (∀ off ∈ [0x28, 0x30, 0x1008, 0x1100, 0x1208, 0x1318, 0x1340, 0x1400, 0x5FF8], (keptBits off).isSome = true) ∧
    ∀ off ∈ [0x38, 0x1010, 0x1408, 0x2048, 0x1401], readOnly off = true ∨ off % 8 ≠ 0 := by decide +kernel
def worldPort (up : Bool) : State := world.modHub fun h =>
  { h with ports := [(2, up)], ranges := [{ base := 0, size := 0x100000, gran := 0x1000, ports := [3, 2] }] }
theorem met_port : ∀ b ∈ [true, false], tget true (worldPort b).hub.ports 2 = b ∧ farCell ≤ farCell + 0x1000 ∧
    (worldPort b).portOf (farCell + 0x1000) = some 2 := all_of_check (by decide +kernel)
/-- Link 9, whose next flit has header 4, in front of a collective between packages and a job of this one. -/
def sharedJob : Job := { jobOf { dws := [0x20000001FFFFFFFF, 0, 0, 0x800000000, 0] } 0 with comm := [0x8000000200000000, 0] }
def worldLink (up : Bool) (fails : Nat) : State := (worldJobs [sharedJob, fillJob 0x800 0]).modHub fun h =>
  { h with links := [(9, { up := up, fails := fails, next := 4 })] }
def flit9 (n : Nat) : Flit := ⟨BitVec.ofNat 64 n, .contribution 0 1 [7], 0⟩
theorem met_link : ∀ x ∈ [(false, 0), (true, 14), (true, 15)], (worldLink x.1 x.2).link 9 = { up := x.1, fails := x.2, next := 4 } ∧
    (flit9 4).header = ((worldLink x.1 x.2).link 9).next ∧ (flit9 5).header ≠ ((worldLink x.1 x.2).link 9).next ∧
    (worldLink x.1 x.2).hub.slabWait = [] ∧
    ((worldLink x.1 x.2).cluster 0).jobs.map cutJob ≠ ((worldLink x.1 x.2).cluster 0).jobs := all_of_check (by decide +kernel)
/-- R437, R442: the 16th failed tag ends the collective between packages, and no job of this package. -/
theorem test_link_down : (match exec (.ulukarFlitReceive 9 false (flit9 4)) (worldLink true 15) with
    | .next u => decide ((u.cluster 0).jobs.map (·.fault) = [some 0x0C, none] ∧ u.hub.shares = [])
    | _ => false) = true := by decide +kernel
/-- R434: a flit that is not next on its link is not taken, the next one is. -/
theorem test_flit_order :
    (match exec (.ulukarFlitReceive 9 true (flit9 5)) (worldLink true 2), exec (.ulukarFlitReceive 9 true (flit9 4)) (worldLink true 2) with
    | .next u, .next v => decide (u.hub.shares = [] ∧ v.hub.shares = [(0, 1, [7])] ∧ (v.link 9).next = 5)
    | _, _ => false) = true := by decide +kernel
def worldAttest (r : Bool) : State := world.modHub fun h => { h with recovery := r, mailbox := List.replicate 64 7 }
theorem met_attest : ∀ b ∈ [true, false], (worldAttest b).hub.recovery = b ∧ ((worldAttest b).hub.mailbox.take 64).length = 64 :=
  all_of_check (by decide +kernel)
/-- FIPS 202's digest of the empty message. -/
theorem test_sha3_empty : leNat ((sha3 []).reverse) =
    0xa69f73cca23a9ac5c8b567dc185a756e97c982164fe25859e0d1dcc1475c80a615b2123af1f5f94c11e3e9402c3ac558f500199d95b6d3e301758586281dcd26 := by
  decide +kernel
theorem met_measure : ∃ d, ({ world with outside := { Outside.empty with reset := { Outside.empty.reset with digests := [(3, 5)] } } } : State).outside.reset.digests
    = [(3, d)] ∧ 3 < 8 := ⟨5, rfl, by decide⟩
/-- An error strikes a sector where one stands or not; the host reads a register, or asks about a vault. -/
def worldMoves (m : List Move) (r : Bool) : State := { (worldError false).modHub (fun h => { h with recovery := r }) with agenda := m }
theorem met_strike : ∀ k ∈ [0x4000005, 7], (worldMoves [.strike k 1 true] false).agenda = .strike k 1 true :: [] ∧
    (tfind (worldMoves [.strike k 1 true] false).errors k).isSome = (k == 0x4000005) ∧ (worldMoves [.strike k 1 true] false).hub.slabWait = [] :=
  all_of_check (by decide +kernel)
theorem met_ask : (worldMoves [.ask (.register 0x1400 8)] false).agenda = .ask (.register 0x1400 8) :: [] ∧
    (∀ b ∈ [true, false], (worldMoves [.ask (.vault 1)] b).agenda = .ask (.vault 1) :: [] ∧ (worldMoves [.ask (.vault 1)] b).hub.recovery = b) ∧
    ∀ b ∈ [true, false], (worldMoves [.ask .status] b).agenda = .ask .status :: [] ∧ (worldMoves [.ask .status] b).hub.slabWait = [] :=
  ⟨by decide +kernel, all_of_check (by decide +kernel), all_of_check (by decide +kernel)⟩
/-! ## Words and terms -/

/-- For every instruction a word written from the opcode map of R268 and its entry's FN and form, the other fields 0. -/
def words1 : List (List Word × Instr) :=
  [([0xE25, 0], .slabModeChange blankOp), ([0x1, 0], .iadd blankOp), ([0x5, 0], .isub blankOp), ([0x9, 0], .imul blankOp),
   ([0xD, 0], .imulh blankOp), ([0x12, 0, 0], .imad { blankOp with form := .w96 }), ([0x15, 0], .imin blankOp),
   ([0x19, 0], .imax blankOp), ([0x1D, 0], .iabs blankOp), ([0x21, 0], .ineg blankOp), ([0x25, 0], .and blankOp),
   ([0x29, 0], .or blankOp), ([0x2D, 0], .xor blankOp), ([0x31, 0], .not blankOp), ([0x35, 0], .andn blankOp),
   ([0x39, 0], .shl blankOp), ([0x3D, 0], .shr blankOp), ([0x41, 0], .sar blankOp), ([0x45, 0], .rotl blankOp),
   ([0x49, 0], .bfx blankOp), ([0x4E, 0, 0], .bfi { blankOp with form := .w96 }), ([0x51, 0], .clz blankOp), ([0x55, 0], .popc blankOp),
   ([0x59, 0], .brev blankOp), ([0x5D, 0], .icmp blankOp), ([0x62, 0, 0], .lea { blankOp with form := .w96 }),
   ([0x66, 0, 0], .iadd3 { blankOp with form := .w96 }), ([0x69, 0], .pand blankOp), ([0x6D, 0], .por blankOp),
   ([0x71, 0], .pxor blankOp), ([0x75, 0], .pnot blankOp), ([0x79, 0], .pset blankOp), ([0x8201, 0], .fadd { blankOp with fn := 8 }),
   ([0x8205, 0], .fsub { blankOp with fn := 8 }), ([0x8209, 0], .fmul { blankOp with fn := 8 })]
def words2 : List (List Word × Instr) :=
  [([0x820E, 0, 0], .ffma { blankOp with form := .w96, fn := 8 }), ([0x8211, 0], .fmin { blankOp with fn := 8 }),
   ([0x8215, 0], .fmax { blankOp with fn := 8 }), ([0x8219, 0], .fcmp { blankOp with fn := 8 }),
   ([0x821D, 0], .fclass { blankOp with fn := 8 }), ([0x8221, 0], .frnd { blankOp with fn := 8 }),
   ([0x8225, 0], .fscale { blankOp with fn := 8 }), ([0x229, 0], .fmode blankOp), ([0x922D, 0], .hadd2 { blankOp with fn := 9 }),
   ([0x9231, 0], .hmul2 { blankOp with fn := 9 }), ([0x9236, 0, 0], .hfma2 { blankOp with form := .w96, fn := 9 }),
   ([0x8239, 0], .rcp { blankOp with fn := 8 }), ([0x823D, 0], .rsq { blankOp with fn := 8 }),
   ([0x8241, 0], .sqrt { blankOp with fn := 8 }), ([0x8245, 0], .exp2 { blankOp with fn := 8 }),
   ([0x8249, 0], .log2 { blankOp with fn := 8 }), ([0x824D, 0], .sin { blankOp with fn := 8 }),
   ([0x8251, 0], .cos { blankOp with fn := 8 }), ([0x8255, 0], .tanh { blankOp with fn := 8 }), ([0x401, 0], .mov blankOp),
   ([0x405, 0x2000000], .moviScalar { blankOp with imm := true }),
   ([0x1405, 0x2000000], .moviPair { blankOp with fn := 1, imm := true }), ([0x409, 0], .sel blankOp), ([0x43D, 0], .smovSS blankOp),
   ([0x143D, 0], .smovSV32 { blankOp with fn := 1 }), ([0x243D, 0], .smovSV64 { blankOp with fn := 2 }),
   ([0x343D, 0], .smovV32S { blankOp with fn := 3 }), ([0x443D, 0], .smovV64S { blankOp with fn := 4 }),
   ([0x43A, 0, 0], .prmt { blankOp with form := .w96 }), ([0x40D, 0], .rblkAcq blankOp),
   ([0x140D, 0], .rblkTry { blankOp with fn := 1 }), ([0x240D, 0], .rblkRel { blankOp with fn := 2 }),
   ([0x340D, 0], .rblkQry { blankOp with fn := 3 }), ([0x411, 0], .idx blankOp), ([0x415, 0], .idxadd blankOp)]
def words3 : List (List Word × Instr) :=
  [([0x419, 0], .srdV32 blankOp), ([0x1419, 0], .srdV64 { blankOp with fn := 1 }), ([0x2419, 0], .srdS { blankOp with fn := 2 }),
   ([0x41D, 0], .swrB blankOp), ([0x141D, 0], .swrW { blankOp with fn := 1 }), ([0x241D, 0], .swrS { blankOp with fn := 2 }),
   ([0x421, 0], .elect blankOp), ([0x425, 0], .bcast blankOp), ([0x429, 0], .voteAll blankOp),
   ([0x1429, 0], .voteAny { blankOp with fn := 1 }), ([0x2429, 0], .voteUni { blankOp with fn := 2 }), ([0x42D, 0], .ballot blankOp),
   ([0x431, 0], .red blankOp), ([0x435, 0], .scan blankOp), ([0x601, 0], .cvt blankOp), ([0x4615, 0], .pack { blankOp with fn := 4 }),
   ([0x4619, 0], .unpk { blankOp with fn := 4 }), ([0x4605, 0], .qnt { blankOp with fn := 4 }),
   ([0x4609, 0], .qexp { blankOp with fn := 4 }), ([0x260D, 0], .dqnt { blankOp with fn := 2 }), ([0x611, 0], .hdm blankOp),
   ([0x1611, 0], .hdmNorm { blankOp with fn := 1 }), ([0x701, 0x2000000], .jdecl { blankOp with imm := true }),
   ([0x705, 0], .jrst blankOp), ([0x70B, 0, 0, 0], .mmaRegister { blankOp with form := .w128 }),
   ([0x170B, 0, 0, 0], .mmaDescriptor { blankOp with form := .w128, fn := 1 }), ([0x70E, 0, 0], .scl { blankOp with form := .w96 }),
   ([0x170E, 0, 0], .sclRaw { blankOp with form := .w96, fn := 1 }), ([0x711, 0], .accz blankOp), ([0x715, 0], .accrd blankOp),
   ([0x719, 0], .accwr blankOp), ([0x871D, 0], .accst { blankOp with fn := 8 }), ([0x801, 0], .ld blankOp), ([0x805, 0], .st blankOp),
   ([0x809, 0], .lds blankOp)]
def words4 : List (List Word × Instr) :=
  [([0x80D, 0], .sts blankOp), ([0x811, 0], .ldc blankOp), ([0x816, 0, 0], .atom { blankOp with form := .w96 }),
   ([0x819, 0], .atoms blankOp), ([0x81E, 0, 0], .cas { blankOp with form := .w96 }),
   ([0x822, 0, 0], .cass { blankOp with form := .w96 }), ([0x825, 0], .fence blankOp), ([0x1825, 0], .fenceE { blankOp with fn := 1 }),
   ([0x829, 0], .lease blankOp), ([0x82D, 0], .pf blankOp), ([0x831, 0], .syncr blankOp), ([0x835, 0], .syncw blankOp),
   ([0x839, 0], .rstate blankOp), ([0x83D, 0], .waymask blankOp), ([0xA01, 0], .cpy blankOp),
   ([0x1A01, 0], .cpyFill { blankOp with fn := 1 }), ([0xA05, 0], .gth blankOp), ([0xA0D, 0], .coll blankOp),
   ([0xA09, 0], .job blankOp), ([0xA11, 0], .jwait blankOp), ([0xA15, 0], .jqry blankOp), ([0xA19, 0], .swarm blankOp),
   ([0xA1D, 0], .swait blankOp), ([0xA21, 0], .swpoll blankOp), ([0xA25, 0], .dq blankOp), ([0xA29, 0], .wqe blankOp),
   ([0xA2D, 0], .wqt blankOp), ([0xB01, 0], .cvjoin blankOp), ([0xB05, 0], .cvleave blankOp), ([0xB09, 0], .cvstep blankOp),
   ([0xB0D, 0], .cvstat blankOp), ([0xB11, 0], .cvslip blankOp), ([0xC02, 0, 0], .bra { blankOp with form := .w96 }),
   ([0xC06, 0, 0], .brx { blankOp with form := .w96 }), ([0xC09, 0], .lpad blankOp)]
def words5 : List (List Word × Instr) :=
  [([0xC0E, 0, 0], .call { blankOp with form := .w96 }), ([0xC12, 0, 0], .callx { blankOp with form := .w96 }),
   ([0xC15, 0], .ret blankOp), ([0xC19, 0], .exit blankOp), ([0xC1D, 0], .bar blankOp), ([0xC21, 0], .bara blankOp),
   ([0xC25, 0], .barw blankOp), ([0xC29, 0], .stbeg blankOp), ([0xC2D, 0], .stageAdd blankOp),
   ([0x1C2D, 0], .stageSet { blankOp with fn := 1 }), ([0xC31, 0], .waitl blankOp), ([0xC35, 0], .stend blankOp),
   ([0xC39, 0], .strdCtr blankOp), ([0x1C39, 0], .strdBrd { blankOp with fn := 1 }), ([0xC3D, 0], .yield blankOp),
   ([0xC41, 0], .sleep blankOp), ([0xC45, 0], .trap blankOp), ([0xC49, 0], .eret blankOp), ([0xE01, 0], .ctxsv blankOp),
   ([0x1E01, 0], .ctxsvSt { blankOp with fn := 1 }), ([0xE05, 0], .ctxld blankOp), ([0xE09, 0], .tlbinvPage blankOp),
   ([0x1E09, 0], .tlbinvRegion { blankOp with fn := 1 }), ([0x2E09, 0], .tlbinvCtx { blankOp with fn := 2 }),
   ([0x3E09, 0], .tlbinvAll { blankOp with fn := 3 }), ([0x4E09, 0], .tlbinvKey { blankOp with fn := 4 }), ([0xE0D, 0], .pwrrd blankOp),
   ([0xE11, 0], .pwrwrPcap blankOp), ([0x9000E11, 0], .pwrwrPfloor { blankOp with a := 9 }), ([0xE15, 0], .clkrat blankOp),
   ([0xE19, 0], .idle blankOp), ([0xE1D, 0], .halt blankOp), ([0xE21, 0], .levyqVault blankOp),
   ([0x1E21, 0], .levyqAcct { blankOp with fn := 1 }), ([0x2E21, 0], .levyqBase { blankOp with fn := 2 })]

def readAs (bs : List Byte) (i : Instr) (n : Nat) : Bool := match decode bs with | .ok (j, m) => decide (j = i ∧ m = n) | .error _ => false
theorem ok_of_check {bs : List Byte} {i : Instr} {n : Nat} (h : readAs bs i n = true) : decode bs = .ok (i, n) := by
  unfold readAs at h
  split at h
  · rename_i heq
    obtain ⟨rfl, rfl⟩ := of_decide_eq_true h
    exact heq
  · cases h
def rejectedAs (ws : List Word) (e : Reject) : Bool := match decode (laid ws) with | .ok _ => false | .error r => decide (r = e)
def decodes (l : List (List Word × Instr)) : Bool := l.all fun e => readAs (laid e.1) e.2 e.1.length
theorem test_words1 : decodes words1 = true := by decide +kernel
theorem test_words2 : decodes words2 = true := by decide +kernel
theorem test_words3 : decodes words3 = true := by decide +kernel
theorem test_words4 : decodes words4 = true := by decide +kernel
theorem test_words5 : decodes words5 = true := by decide +kernel
/-- RED.add.f32 v9, v8 (R326), JDECL of a COUNT (R355), and the 96-bit NOP (R269). -/
theorem test_written_words : Decodes [0x08090431, 0x10000000] (.red { blankOp with d := 9, a := 8, m := 4 }) ∧
    Decodes [0x00000F02, 0, 0] (.nop 0x3C0 { blankOp with form := .w96 }) :=
  ⟨ok_of_check (by decide +kernel), ok_of_check (by decide +kernel)⟩
/-- Zero words and opcodes that R268 does not assign; an instruction that lacks its last word; forms and FN values of no entry. -/
theorem test_odd_words : readAs (laid [0x00000100]) (.unassignedOpcode 0x100 []) 1 = true ∧
    readAs (laid [0x0000007D, 5]) (.unassignedOpcode 0x7D [5]) 2 = true ∧ rejectedAs [0x00000002, 0] .short = true ∧
    rejectedAs [0x00004001, 0] (.illegal false) = true ∧ rejectedAs [0x00000E02, 0, 0] (.illegal true) = true := by decide +kernel

/-- A form, an IMM, an FN and an M that the entry does not define, DX on a scalar D, a forbidden constant. -/
theorem test_ill_formed_step6 : ∀ i ∈ [Instr.imad blankOp, .mov { blankOp with fn := 14 }, .iabs { blankOp with imm := true },
    .frnd { blankOp with fn := 8, m := 5 }, .ld { blankOp with fn := 13 }, .atom { op96 with fn := 7, m := 5 },
    .moviScalar { blankOp with imm := true, dx := true }, .idx { blankOp with m := 1 }, .jdecl blankOp], i.wf = false :=
  all_of_check (by decide +kernel)
/-- Numbers beyond their classes, odd pairs, and a modifier on a field of another class. -/
theorem test_ill_formed_step7 : ∀ i ∈ [Instr.smovSS { blankOp with d := 64 }, .pand { blankOp with a := 8 }, .accz { blankOp with d := 8 },
    .idx { blankOp with d := 4 }, .jrst { blankOp with d := 16 }, .iadd { blankOp with fn := 2, d := 1 }, .brx { op96 with a := 1 },
    .cpy { blankOp with a := 57, m := 1 }, .ld { blankOp with a := 3 }, .lds { blankOp with a := 64, m := 1 }, .slabModeChange { blankOp with a := 62 },
    .imad { op96 with fn := 2, w1 := 1 }, .scl { op96 with w1 := 0x00020000 },
    .sel { blankOp with form := .w128, fn := 2, b := 1 }, .cvt { blankOp with a := 1, b := 2 }], i.wf = false := all_of_check (by decide +kernel)
/-- Words that a form lacks; a no-operation outside the hint region; an assigned word as unassigned; places that do not exist. -/
theorem test_ill_formed_terms : ∀ i ∈ [Instr.iadd { blankOp with w1 := 1 }, .imad { op96 with w2 := 1 }, .nop 0x3BF blankOp,
    .nop 0x3C0 { blankOp with w1 := 1 }, .unassignedOpcode 1 [0], .unassignedOpcode 0 [0], .unassignedOpcode 0x7D [], .unassignedOpcode 0xF01 [0],
    .bandChange 256, .walkStart 4, .vaultDataLeaves 0 128 ⟨0, 0⟩, .cxlLinkUp 4, .tick 32, .rblkGrant 512, .wayFlushComplete 0 16, .sfuResult 0 4,
    .groupEnd 0 64, .watchdogExpiry 0 0 1024, .queueTailWrite 64 0, .supctxWrite 4 0, .ulukarLinkRetrain 16], i.wf = false :=
  all_of_check (by decide +kernel)
theorem test_well_formed : ∀ i ∈ [Instr.imad op96, .mov { blankOp with fn := 13 }, .frnd { blankOp with fn := 8, m := 4 }, .smovSS { blankOp with d := 63 },
    .cpy { blankOp with a := 56, m := 1 }, .scl { op96 with w1 := 0 }, .nop 0x3FF op96, .unassignedOpcode 0x7D [5], .bandChange 255, .tick 31,
    .ulukarLinkRetrain 15], i.wf = true := all_of_check (by decide +kernel)
theorem test_table_word : decodeTableWord 64 0x0000000503030001 = some (.iadd { blankOp with d := 3, a := 3, b := 5 }) ∧
    decodeTableWord 32 0 = some (.unassignedOpcode 0 []) := by decide +kernel
theorem met_encode : (Instr.imad op96).wf = true ∧ encode (.imad op96) ≠ [] ∧ decode (laid [0x12, 0, 0]) = .ok (.imad op96, 3) :=
  ⟨by decide +kernel, by decide +kernel, ok_of_check (by decide +kernel)⟩

/-! ## Steps -/

/-- IADD v3, v3, 1 in the first place of the block at codePc, then NOPs. -/
def stepBlock : List Byte := laid [0x03030001, 0x02000001, 0x00000F01, 0, 0x00000F01, 0, 0x00000F01, 0]
def addO : Op := { blankOp with d := 3, a := 3, b := 1, imm := true }
def atIssue : State := (State.reset.withBlock stepBlock).modThread 0 0 0 fun th => { th with fresh := false }
def issuing : Group := (atIssue.group? 0 0).getD soleGroup
def issuer : Thread := issuing.threads.headD (Thread.start 0 0)
def soleLane : Lane :=
  { s := atOpportunity atIssue [] 0 0, c := 0, slot := 0, g := issuing, wave := [0], tid := 0, th := issuer, o := addO }
theorem met_step_alone : let s0 := atOpportunity atIssue [] 0 0
    atIssue.agenda = [.issue 0 0] ∧ Calm atIssue.tidy ∧ atIssue.tidy.opportunity 0 0 = true ∧ (atIssue.tidy.core 0).slots = [(0, issuing)] ∧
      issuing.threads = [issuer] ∧ issuer.live = true ∧ issuer.wait = none ∧ issuer.fresh = false ∧ issuing.quad % 4 = 0 ∧
      s0.mayIssue 0 issuing = true ∧ s0.parked 0 0 0 = false ∧ s0.fetching 0 0 0 = false := by
  refine ⟨rfl, ⟨by decide +kernel, by decide +kernel⟩, ?_⟩
  decide +kernel
theorem met_step_bytes : (atOpportunity atIssue [] 0 0).look 0 issuing.ctx issuer.pc issuer.handler = .bytes stepBlock ∧
    issuer.pc.toNat / 4 % 8 = 0 ∧ lenWords (wordAt stepBlock 0) = 2 ∧ decode (stepBlock.drop 0) = .ok (.iadd addO, 2) ∧
    refine issuing [0] (.iadd addO) = .iadd addO ∧ fieldsOf (.iadd addO) = some addO ∧ soleLane.walkFor (.iadd addO) = none ∧
    soleLane.ready (.iadd addO) = true := by
  refine ⟨?_, ?_, ?_, ok_of_check ?_, ?_⟩ <;> decide +kernel
/-- Reset's own state with the block: the thread's first issue. -/
def atFirst : State := State.reset.withBlock stepBlock
def planned : Option (Nat × (BitVec 16 × Dword) × Chance) := (atOpportunity atFirst [] 0 0).plan 0 0
theorem met_step_wave : atFirst.agenda = [.issue 0 0] ∧ Calm atFirst.tidy ∧ atFirst.tidy.opportunity 0 0 = true ∧
    ∃ slot e i next wave, (atOpportunity atFirst [] 0 0).plan 0 0 = some (slot, e, .run i next wave) := by
  refine ⟨rfl, ⟨by decide +kernel, by decide +kernel⟩, by decide +kernel, ?_⟩
  have h : (match planned with | some (_, _, .run _ _ _) => true | _ => false) = true := by decide +kernel
  unfold planned at h
  split at h
  · exact ⟨_, _, _, _, _, by assumption⟩
  · cases h
def atEvent : State := { atFirst with agenda := [.event (.tick 0)] }
theorem met_step_event : atEvent.agenda = [.event (.tick 0)] ∧ isEvent (.tick 0) = true ∧ (Instr.tick 0).wf = true := by
  refine ⟨?_, ?_, ?_⟩ <;> decide +kernel
theorem met_step_keeps : atEvent.Inv ∧ ∃ t, step atEvent = .next t := by
  refine ⟨by show atEvent.memory.wf = true; decide +kernel, ?_⟩
  have h : (match step atEvent with | .next _ => true | _ => false) = true := by decide +kernel
  split at h
  · exact ⟨_, by assumption⟩
  · cases h
theorem test_reset_inv : State.reset.Inv := by show State.reset.memory.wf = true; decide +kernel

/-! ## Leases -/

/-- The L1's copy has a lease that has run out. -/
def atExpired : State := (atHit false).modCore 0 fun k => { k with ct := 20 }
theorem met_expired : let i := Instr.ld ldO
    let L := laneOfReq atExpired i
    let a := translated atExpired L ((reqOf i).acc L) codePage
    memRow i = some (reqOf i) ∧ Requests atExpired i (reqOf i) 0 L ∧ Reaches atExpired L ((reqOf i).acc L) codePage ∧
      (ldO.form ≠ .w64 ∨ ldO.imm = false) ∧ a.state = 0 ∧ (atExpired.core L.c).line? a.pa a.key = some (lineAt false) ∧
      (lineAt false).rts.toNat < (maxD (atExpired.core L.c).ct (lineAt false).wts).toNat :=
  ⟨rfl, (arrives_met (by decide +kernel)).1, (arrives_met (by decide +kernel)).2, by decide, by decide +kernel⟩
/-- Two readers of one line, with hints 0 and 4 at times 30 and 90; and one with hint 5. -/
def umbraOf (reqs : List ReadReq) : Umbra := ⟨4, [], 0x1000, 0, reqs, false, none, 0, false⟩
def twoReads : List ReadReq := [readOf 0, { readOf 4 with ct := 90, core := 6 }]
theorem met_lengths : ∀ l ∈ [twoReads, [{ readOf 5 with ct := 90 }]], ((worldHome [umbraOf l] []).vault (vaultOf cell1)).umbras = [umbraOf l] ∧
    (umbraOf l).left = none ∧ (worldHome [umbraOf l] []).homeCell 0x1000 = some cell1 ∧ cell1 < farCell ∧
    (worldHome [umbraOf l] []).lost cell1 = false ∧ Sound (worldHome [umbraOf l] []) cell1 ∧ Timed (worldHome [umbraOf l] []) cell1 3 50 ∧ (∀ q ∈ l, q.ct.toNat ≤ 90) ∧ ∃ q ∈ l, q.ct = 90 := by
  intro l hl
  refine ⟨?_, ?_, ?_, ?_, ?_, fun k _ => rfl, ?_, ?_, ?_⟩
  case refine_6 => revert l; simp only [Timed]; exact all_of_check (by decide +kernel)
  all_goals (revert l; exact all_of_check (by decide +kernel))
theorem met_longest : (∀ q ∈ twoReads, lengthOf q.hint ≤ 256) ∧ (∃ q ∈ twoReads, lengthOf q.hint = 256) ∧
    ∀ q ∈ [{ readOf 5 with ct := 90 }], lengthOf q.hint = 0 := by decide +kernel

/-! ## Rounding -/

theorem met_rounding : (∃ x : ℚ, |x| ≤ largest .e4m3) ∧ (∃ x : ℚ, largest .e4m3 < |x| ∧ Fmt.e4m3.inf = none) ∧
    ∃ x : ℚ, largest .f16 < |x| ∧ Fmt.f16.inf = some 0x7C00 ∧ toInfinity .f16 .rne false x := by
  have h8 : largest .e4m3 = 448 := by
    have h : rational (Fmt.e4m3.unpack Fmt.e4m3.maxc) = some ((1 : ℚ) * (14 : ℕ) * 2 ^ (5 : ℤ)) := rfl
    rw [largest, h]; norm_num
  have h16 : largest .f16 = 65504 := by
    have h : rational (Fmt.f16.unpack Fmt.f16.maxc) = some ((1 : ℚ) * (2047 : ℕ) * 2 ^ (5 : ℤ)) := rfl
    rw [largest, h]; norm_num
  refine ⟨⟨1, ?_⟩, ⟨449, ?_, rfl⟩, 65520, ?_, rfl, ?_⟩
  · rw [h8]; norm_num
  · rw [h8]; norm_num
  · rw [h16]; norm_num
  · show largest .f16 + 2 ^ (Fmt.f16.bias + 1) ≤ 2 * |(65520 : ℚ)|
    rw [h16, show Fmt.f16.bias = 15 from rfl]; norm_num
/-- R141, R143: a tie goes to the even code; half a unit past the largest f16 is an infinity, a little less is not; e4m3 saturates; FTZ. -/
theorem test_rounding : (Fmt.f16.round .rne false false false 2049 0 false).1 = 0x6800 ∧
    Fmt.f16.round .rne false false false 65520 0 false = (0x7C00, fOF ||| fNX) ∧ (Fmt.f16.round .rne false false false 65519 0 false).1 = 0x7BFF ∧
    (Fmt.e4m3.round .rup false false true 449 0 false).1 = 0xFE ∧
    Fmt.f16.round .rne true false true 1 (-24) false = (0x8000, fUF ||| fNX) := by decide +kernel

/-! ## Slab changes, late work and what else a step may meet -/

/-- No slab change waits in the states above of which a statement asks it. -/
theorem met_no_slab_change : ([world, worldRing, worldPull 0, worldPull 1, worldBin 0, worldBin 5, worldBusy, worldSave true, worldSave false,
    worldKept, worldS [(0, 0x400000)], worldLeaf 0x300B, worldQueues false [] 0, worldPoll 4, worldEnd false true, worldEnd false false,
    worldDone true 0, worldJobs [], worldComm, worldFaults true 15 [], worldLink true 0].all fun s => s.hub.slabWait.isEmpty) = true := by
  decide +kernel
/-- RSTATE with IMM = 1: the state is IMM20, of which 0x101 names none (R259, R260, R294). -/
theorem met_region_literal : ∃ L, world.Alone (.rstate (immO 2)) (immO 2) (rstateCheck (immO 2)) 0 L ∧ (Lane.imm20 (immO 2)).toNat % 4 = 2 ∧
    (rstateCheck { immO 1 with pg0 := 1 } L).isSome = true :=
  ⟨laneAt world (.rstate (immO 2)) (immO 2) 0, alone_of_check (by decide +kernel), by decide +kernel⟩
/-- R15: a firing that would read the slab whose mode is to change waits as a whole. -/
def worldHeldBin : State := (worldBin 5).modHub fun h => { h with slabWait := [(0, true)] }
theorem test_slab_held : (match exec (.binTimerExpiry 0 0) worldHeldBin with | .next u => decide (u = worldHeldBin) | _ => false) = true := by
  decide +kernel
/-- A job that runs, and one that has not started, whose ticket 3 the thread names. -/
def worldTicket (on : Bool) : State := (worldJobs [{ fillJob 0x800 0 with started := on }]).modThread 0 0 0 fun th => th.put 5 3
theorem met_job_wait_on : ∀ b ∈ [true, false], ∃ L, (worldTicket b).cur.threads = [0] ∧
    (worldTicket b).lane? { blankOp with a := 5 } [0] 0 = some L ∧ L.th.wait = none ∧ L.active = true ∧
    L.commonTrap (L.uses (.jwait { blankOp with a := 5 })) = none ∧
    (worldTicket b).ticketStatus (clusterOf L.c) L.g.ctx ((L.source false L.fA 0).extractLsb' 0 16) = if b then 2 else 1 := by
  intro b hb
  simp only [List.mem_cons, List.not_mem_nil, or_false] at hb
  obtain rfl | rfl := hb
  all_goals exact ⟨_, rfl, rfl, by decide +kernel, by decide +kernel, Option.isNone_iff_eq_none.mp (by decide +kernel), by decide +kernel⟩
/-- The allocation of the slot has been cleared. -/
theorem met_tile_answer_gone : (atAnswer.modCore 0 (·.clearAlloc 0)).spadOwned 0 0 0 16 = false ∧
    (atAnswer.modCore 0 (·.clearAlloc 0)).msg? 4 = some (.dqAnswer 0 0 0 (some 3) 7 0 0x200000001) := by decide +kernel
/-- Context 0's region file stands at 0x6800; core 0 has one line to write, and its key's only one. -/
def worldFile : State :=
  { ((world.modHub fun h => { h with contexts := [(0, { soleCtx with raf := 0x6800, regions := List.replicate 16 0 })] }).modCore 0 fun k =>
      { k with l1 := [{ lineAt false with dirty := 5 }] }) with memory := memOf [(0x6800, List.replicate 128 5)] }
theorem met_region_file : ∃ x, tfind worldFile.hub.contexts 0 = some x ∧ x.regions.length = 16 ∧ Stands worldFile x.raf (List.replicate 128 5) :=
  ⟨_, rfl, rfl, stands_of_check (cell := interleavedCell 0x6800) (by decide +kernel)⟩
theorem met_reloads : ∃ L, Rules worldFile (.tlbinvRegion { blankOp with fn := 1 }) { blankOp with fn := 1 } noCheck 0 L ∧
    reloads (.tlbinvRegion { blankOp with fn := 1 }) L 0 0 = true ∧ reloads (.tlbinvRegion { blankOp with fn := 1 }) L 0 1 = false :=
  ⟨laneAt worldFile (.tlbinvRegion { blankOp with fn := 1 }) { blankOp with fn := 1 } 0, rules_of_check (by decide +kernel), by decide +kernel⟩
theorem met_key_line : AloneDirty worldFile 0 { lineAt false with dirty := 5 } := by
  have none {k : Nat} (h : k ≠ 0) : (worldFile.core k).l1 = [] := by
    have h1 : worldFile.cores.map (·.1) = [0] := by decide +kernel
    obtain ⟨⟨n, x⟩, h2, h3⟩ : ∃ x, worldFile.cores = [x] ∧ x.1 = 0 := by simpa [List.map_eq_singleton_iff] using h1
    rw [State.core, h2, tget, tfind, if_neg (by simp only at h3; omega)]; rfl
  refine ⟨by decide +kernel, fun k y hy _ _ => ?_, by decide +kernel, by decide +kernel⟩
  by_cases h : k = 0
  · subst h
    have h1 : (worldFile.core 0).l1 = [{ lineAt false with dirty := 5 }] := by decide +kernel
    exact ⟨rfl, by simpa [h1] using hy⟩
  · rw [none h] at hy; cases hy
/-- A context that is held, with a group on die 0. -/
theorem met_filler_held : ∃ x, tfind (world.modHub fun h => { h with contexts := [(0, { soleCtx with held := true })] }).hub.contexts 0 = some x ∧
    x.held = true ∧ ∃ e ∈ world.groupsOf 0, dieOf e.1 = 0 := ⟨_, rfl, rfl, (0, 0), by decide +kernel, by decide⟩
/-- A job that has one unit put off. -/
theorem met_gaps : ((worldJobs [{ fillJob 0x800 600 with gaps := [(0, 256)] }]).cluster 0).jobs = [{ fillJob 0x800 600 with gaps := [(0, 256)] }] ∧
    ({ fillJob 0x800 600 with gaps := [(0, 256)] } : Job).total ≤ 600 := by decide +kernel
/-- R117, R446: the first unit of a fill is put off, and the second is delivered before it. -/
theorem test_unit_put_off : (match exec (.engineUnitDelivery 0 3) ((worldJobs [fillJob 0xFFFFFFFF 0]).putOffUnit 0 3) with
    | .next u => decide (((u.core 0).spadByte 0x200).isSome = true ∧ ((u.core 0).spadByte 0x100).isSome = false ∧
        (u.cluster 0).jobs.map (·.gaps) = [[(0, 256)]])
    | _ => false) = true := by decide +kernel
/-- R445: an STS of 1 that issues, whose store is put off; a move performs it. -/
def lateBlock : List Byte := laid [0x0000080D, 0x00000000, 0x00000F01, 0, 0x00000F01, 0, 0x00000F01, 0]
def atLate : State :=
  { (((State.reset.withBlock lateBlock).modThread 0 0 0 fun th => { th with fresh := false }).modCore 0 fun k => { k with
      allocs := [(0, { base := 0, size := 1024, ctx := 0, rot := 0 })] }) with agenda := [.issueLate 0 0, .perform 0 0] }
theorem test_late_store : (match step atLate with
    | .next u => (u.core 0).late.length == 1 && ((u.core 0).spadByte 0).isNone && (match step u with
        | .next v => (v.core 0).late.isEmpty && ((v.core 0).spadByte 0).isSome
        | _ => false)
    | _ => false) = true := by decide +kernel
end Sys2Proof.Tests
end

