-- ==== Sys2Proof/Proofs/MemoryFrames.lean ====
section
/-! SUPPORT. What leaves memory as it is: one lemma for each operation of the model that writes no byte, no seal and no side bit, in the
order of the model's files. -/

namespace Sys2Proof.Laws

open Sys2Proof.Machine

theorem foldl_memory {β : Type} {f : State → β → State} (hf : ∀ s b, (f s b).memory = s.memory) (l : List β) (s : State) :
    (l.foldl f s).memory = s.memory :=
  List.foldlRecOn (motive := fun u : State => u.memory = s.memory) l f rfl (fun u h b _ => (hf u b).trans h)

/-! ### State's accessors -/

@[simp] theorem setGroup_memory (s : State) (c g : Nat) (x : Group) :
    (s.setGroup c g x).memory = s.memory := (setGroup_same s c g x).memory

@[simp] theorem modGroup_memory (s : State) (c g : Nat) (f : Group → Group) :
    (s.modGroup c g f).memory = s.memory := (modGroup_same s c g f).memory

@[simp] theorem modThread_memory (s : State) (c g t : Nat) (f : Thread → Thread) :
    (s.modThread c g t f).memory = s.memory := (modThread_same s c g t f).memory

@[simp] theorem freeBytes_memory (s : State) (n : Nat) : (s.freeBytes n).2.memory = s.memory := rfl

/-! ### Convoys -/

@[simp] theorem cvTell_memory (s : State) (ctx id : Nat) (ks : List Nat) :
    (s.cvTell ctx id ks).memory = s.memory := (same_cvTell s ctx id ks).memory

@[simp] theorem cvPut_memory (s : State) (ctx id : Nat) (x : Convoy) (low0 : Option Word) (tell : List Nat) :
    (s.cvPut ctx id x low0 tell).memory = s.memory := (same_cvPut s ctx id x low0 tell).memory

@[simp] theorem cvMirror_memory (s : State) (k ctx id : Nat) : (s.cvMirror k ctx id).memory = s.memory := by simp [State.cvMirror]

@[simp] theorem cvLeave_memory (s : State) (c g : Nat) : (s.cvLeave c g).memory = s.memory := by
  fun_cases State.cvLeave <;> simp +zetaDelta

@[simp] theorem cvShed_memory (s : State) (c g : Nat) (cause : BitVec 3) :
    (s.cvShed c g cause).memory = s.memory := (same_cvShed s c g cause).memory

@[simp] theorem cvReturn_memory (s : State) (c g : Nat) : (s.cvReturn c g).memory = s.memory := by fun_cases State.cvReturn <;> simp

@[simp] theorem cvSteps_memory (s : State) (c g : Nat) (ns : List (Nat × Word)) : (s.cvSteps c g ns).memory = s.memory := by
  fun_cases State.cvSteps <;> simp +zetaDelta [apply_ite State.memory]

@[simp] theorem cvJoin_memory (s : State) (c g : Nat) (id slip : BitVec 16) : (s.cvJoin c g id slip).memory = s.memory := by
  fun_cases State.cvJoin <;> simp +zetaDelta

@[simp] theorem cvExit_memory (s : State) (c g t : Nat) : (s.cvExit c g t).memory = s.memory := by
  fun_cases State.cvExit <;> simp +zetaDelta

/-! ### Slabs and page translations -/

@[simp] theorem touchSlab_memory (s : State) (pa : Nat) : (s.touchSlab pa).memory = s.memory := by
  simp [State.touchSlab, apply_ite State.memory]

@[simp] theorem tlbFill_memory (s : State) (c level : Nat) (e : TlbEnt) : (s.tlbFill c level e).memory = s.memory := by
  simp [State.tlbFill, apply_ite State.memory]

@[simp] theorem tlbTouch_memory (s : State) (c ctx : Nat) (va : Dword) : (s.tlbTouch c ctx va).memory = s.memory := by
  unfold State.tlbTouch
  split <;> simp

/-! ### Traps and deferred traps -/

@[simp] theorem stopGroup_memory (s : State) (c g : Nat) (d : Due) :
    (s.stopGroup c g d).memory = s.memory := (same_stopGroup s c g d).memory

@[simp] theorem leaveQueues_memory (s : State) (c g t : Nat) :
    (s.leaveQueues c g t).memory = s.memory := (same_leaveQueues s c g t).memory

@[simp] theorem takeTrap_memory (s : State) (c g t : Nat) (d : Due) (deferred : Bool) (resume : Dword) :
    (s.takeTrap c g t d deferred resume).memory = s.memory := (same_takeTrap s c g t d deferred resume).memory

@[simp] theorem precise_memory (s : State) (c g t : Nat) (cause : BitVec 16) (va : Dword) (info : Word) :
    (s.precise c g t cause va info).memory = s.memory := (same_precise s c g t cause va info).memory

@[simp] theorem endMoving_memory (s : State) (ctx : Nat) : (s.endMoving ctx).memory = s.memory := (same_endMoving s ctx).memory
@[simp] theorem withdraw_memory (s : State) (c g t : Nat) : (s.withdraw c g t).memory = s.memory := (same_withdraw s c g t).memory
@[simp] theorem settle_memory (s : State) (c g t : Nat) : (s.settle c g t).memory = s.memory := (same_settle s c g t).memory
@[simp] theorem defer_memory (s : State) (c g t : Nat) (d : Due) : (s.defer c g t d).memory = s.memory := by simp [State.defer]

@[simp] theorem eret_memory (s : State) (c g t : Nat) : (s.eret c g t).memory = s.memory := by
  unfold State.eret
  split
  · rfl
  · simp only [settle_memory]
    split
    · simp
    · split
      · simp
      · split <;> simp

/-! ### The scratchpad and stage boards -/

@[simp] theorem spadRead_memory (s : State) (k off n : Nat) : (s.spadRead k off n).2.memory = s.memory := by
  induction n generalizing s off with
  | zero => rfl
  | succ n ih =>
    simp only [State.spadRead]
    split <;> simp [ih]

@[simp] theorem spadWrite_memory (s : State) (k off : Nat) (bs : List Byte) : (s.spadWrite k off bs).memory = s.memory := by
  simp [State.spadWrite]

@[simp] theorem spadLoad_memory (s : State) (c : Nat) (sa : Word) (n : Nat) : (s.spadLoad c sa n).2.memory = s.memory := by
  unfold State.spadLoad
  split <;> simp

@[simp] theorem spadStore_memory (s : State) (c : Nat) (sa : Word) (bs : List Byte) : (s.spadStore c sa bs).memory = s.memory := by
  unfold State.spadStore
  split <;> simp

@[simp] theorem syncRead_memory (s : State) (k off : Nat) : (s.syncRead k off).2.memory = s.memory := by
  rw [State.syncRead, ← spadRead_memory s k off 8]

@[simp] theorem deliver_memory (s : State) (c : Nat) (sa : Word) (n : Nat) (jt : Dword) : (s.deliver c sa n jt).memory = s.memory := by
  unfold State.deliver
  split <;> simp

@[simp] theorem markFailed_memory (s : State) (c : Nat) (sa : Word) : (s.markFailed c sa).memory = s.memory := by
  unfold State.markFailed
  split <;> simp

@[simp] theorem raiseCt_memory (s : State) (c : Nat) (w : Dword) : (s.raiseCt c w).memory = s.memory := by simp [State.raiseCt]
@[simp] theorem setBoard_memory (s : State) (c p : Nat) (x : Board) : (s.setBoard c p x).memory = s.memory := by simp [State.setBoard]

/-! ### The parts of a frame -/

@[simp] theorem moveTo_memory (s : State) (ts : List Nat) (pc : Dword) :
    (s.moveTo ts pc).memory = s.memory := (same_moveTo s ts pc).memory

@[simp] theorem trapAll_memory (s : State) (l : List (Nat × Trap)) : (s.trapAll l).memory = s.memory := (same_trapAll s l).memory
@[simp] theorem settleAll_memory (s : State) (ts : List Nat) : (s.settleAll ts).memory = s.memory := (same_settleAll s ts).memory

/-! ### Register blocks -/

@[simp] theorem acqRequests_memory (k : Nat) (ts : List Nat) (id : Nat) (ws : List Nat) (s : State) :
    (acqRequests k ts id ws s).memory = s.memory := by
  induction ws generalizing s with
  | nil => rfl
  | cons w ws ih =>
    simp only [acqRequests, ih]
    split <;> simp [foldl_memory]

/-! ### Slices and controllers -/

@[simp] theorem serveIdler_memory (s : State) (w : Idler) : (s.serveIdler w).memory = s.memory := by
  fun_cases State.serveIdler <;> simp +zetaDelta [foldl_memory]

@[simp] theorem raiseEvent_memory (s : State) (bit : Nat) : (s.raiseEvent bit).memory = s.memory := by
  simp [State.raiseEvent, foldl_memory]

@[simp] theorem raiseMsix_memory (s : State) (v : Nat) : (s.raiseMsix v).memory = s.memory := by simp [State.raiseMsix]

@[simp] theorem reportPoison_memory (s : State) (cell sector : Nat) : (s.reportPoison cell sector).memory = s.memory := by
  simp [State.reportPoison]

@[simp] theorem homeLine_memory (s : State) (key pa cell : Nat) : (s.homeLine key pa cell).2.memory = s.memory := by
  unfold State.homeLine
  generalize h : s.readMem key (lineOf pa) 256 = r
  rw [← readMem_memory s key (lineOf pa) 256, h]

@[simp] theorem clearErrors_memory (s : State) (cell : Nat) (sects : BitVec 4) : (s.clearErrors cell sects).memory = s.memory := rfl
@[simp] theorem setUmbra_memory (s : State) (v : Nat) (u : Umbra) : (s.setUmbra v u).memory = s.memory := by simp [State.setUmbra]
@[simp] theorem sealUmbra_memory (s : State) (v way : Nat) : (s.sealUmbra v way).memory = s.memory := by simp [State.sealUmbra]

@[simp] theorem holdAtHome_memory (s : State) (v : Nat) (e : Excl) (gen : Nat) (m : Msg) :
    (s.holdAtHome v e gen m).memory = s.memory := by
  simp [State.holdAtHome, apply_ite State.memory]

@[simp] theorem sealWaiting_memory (s : State) (m : Msg) : (s.sealWaiting m).memory = s.memory := by
  unfold State.sealWaiting
  split <;> simp [foldl_memory]

@[simp] theorem reflect_memory (s : State) (pa key : Nat) (reqs : List ReadReq) (g : Got) :
    (s.reflect pa key reqs g).memory = s.memory :=
  foldl_memory (fun _ _ => by simp) _ s

@[simp] theorem waitAtSlice_memory (s : State) (v : Nat) (r : ReadReq) : (s.waitAtSlice v r).memory = s.memory := by
  simp [State.waitAtSlice]

@[simp] theorem acceptRead_memory (s : State) (r : ReadReq) : (s.acceptRead r).memory = s.memory := by
  unfold State.acceptRead
  split
  · simp
  · dsimp only
    repeat' split
    all_goals simp

@[simp] theorem retryWaiting_memory (s : State) (v : Nat) : (s.retryWaiting v).memory = s.memory := by
  simp [State.retryWaiting, foldl_memory]

@[simp] theorem asks_memory (s : State) (ctx n : Nat) : (s.asks ctx n).memory = s.memory := by simp [State.asks]

@[simp] theorem groupAsks_memory (s : State) (c slot n : Nat) : (s.groupAsks c slot n).memory = s.memory := by
  unfold State.groupAsks
  split <;> simp

@[simp] theorem reply_memory (s : State) (bs : List Byte) : (s.reply bs).memory = s.memory := by simp [State.reply]

/-! ### Walkers -/

@[simp] theorem modAcc_memory (s : State) (c id : Nat) (f : Acc → Acc) : (s.modAcc c id f).memory = s.memory := by simp [State.modAcc]

@[simp] theorem holdAcc_memory (s : State) (c : Nat) (a : Acc) (cause : BitVec 16) : (s.holdAcc c a cause).memory = s.memory := by
  simp [State.holdAcc]

@[simp] theorem answerSaved_memory (s : State) (id : Nat) (cause : BitVec 16) : (s.answerSaved id cause).memory = s.memory := by
  simp [State.answerSaved]

@[simp] theorem modJob_memory (s : State) (k : Nat) (t : BitVec 16) (f : Job → Job) : (s.modJob k t f).memory = s.memory := by
  simp [State.modJob]

@[simp] theorem endWait_memory (s : State) (fault : Option (BitVec 16)) (q : Waiter) : (s.endWait fault q).memory = s.memory := by
  fun_cases State.endWait <;> simp

@[simp] theorem parkWaiters_memory (s : State) (ws : List Waiter) : (s.parkWaiters ws).memory = s.memory := by
  refine foldl_memory (fun u q => ?_) ws s
  split
  · dsimp only
    split <;> simp
  · simp
  · simp

@[simp] theorem abandon_memory (s : State) (q : Waiter) : (s.abandon q).memory = s.memory := by
  unfold State.abandon
  split <;> simp

@[simp] theorem endWalk_memory (s : State) (d : Nat) (w : Walk) (fault : Option (BitVec 16)) :
    (s.endWalk d w fault).memory = s.memory := by
  simp [State.endWalk, foldl_memory]

@[simp] theorem fillFrom_memory (s : State) (d level : Nat) (w : Walk) (e : TlbEnt) : (s.fillFrom d level w e).memory = s.memory := by
  unfold State.fillFrom
  split
  · rfl
  · refine (foldl_memory (fun u q => ?_) _ _).trans ?_
    · split <;> simp
    · split <;> simp

@[simp] theorem completeWalk_memory (s : State) (d : Nat) (w : Walk) (e : Dword) : (s.completeWalk d w e).memory = s.memory := by
  simp [State.completeWalk]

@[simp] theorem setWalk_memory (s : State) (d : Nat) (w : Walk) : (s.setWalk d w).memory = s.memory := by simp [State.setWalk]

@[simp] theorem askEntry_memory (s : State) (d : Nat) (w : Walk) : (s.askEntry d w).memory = s.memory := by
  simp [State.askEntry, apply_ite State.memory]

@[simp] theorem retryWalk_memory (s : State) (d : Nat) (seq : Word) : (s.retryWalk d seq).memory = s.memory := by
  unfold State.retryWalk
  split
  · rfl
  · refine (foldl_memory (fun u q => ?_) _ _).trans (by simp)
    split <;> simp

@[simp] theorem deliverWalk_memory (s : State) (d : Nat) (seq : Word) : (s.deliverWalk d seq).memory = s.memory := by
  unfold State.deliverWalk
  split <;> simp [foldl_memory]

@[simp] theorem writeWresume_memory (s : State) (d : Nat) (v : Dword) : (s.writeWresume d v).memory = s.memory := by
  unfold State.writeWresume
  split <;> simp

/-! ### Pre-emption and hub registers -/

@[simp] theorem beginSaves_memory (s : State) (ctx : Nat) : (s.beginSaves ctx).memory = s.memory := by
  simp [State.beginSaves, foldl_memory]

@[simp] theorem preemptCheck_memory (s : State) : s.preemptCheck.memory = s.memory := by fun_cases State.preemptCheck <;> simp

@[simp] theorem writePrectl_memory (s : State) (v : Dword) : (s.writePrectl v).memory = s.memory := by
  simp [State.writePrectl, apply_ite State.memory]

@[simp] theorem modQueue_memory (s : State) (q : Nat) (f : Queue → Queue) : (s.modQueue q f).memory = s.memory := by simp [State.modQueue]
@[simp] theorem writeQtail_memory (s : State) (q : Nat) (v : Dword) : (s.writeQtail q v).memory = s.memory := by simp [State.writeQtail]
@[simp] theorem mailAnswer_memory (s : State) (bs : List Byte) : (s.mailAnswer bs).memory = s.memory := by simp [State.mailAnswer]

@[simp] theorem writeSupctx_memory (s : State) (k : Nat) (v : Dword) : (s.writeSupctx k v).memory = s.memory := by
  simp [State.writeSupctx]

/-! ### Accesses of a core -/

@[simp] theorem evict_memory (s : State) (c : Nat) (l : L1Line) : (s.evict c l).memory = s.memory := by
  simp [State.evict, apply_ite State.memory]

@[simp] theorem install_memory (s : State) (c : Nat) (l : L1Line) : (s.install c l).2.memory = s.memory := by
  fun_cases State.install <;> simp

@[simp] theorem writeBackAll_memory (s : State) (c : Nat) (p : L1Line → Bool) : (s.writeBackAll c p).memory = s.memory :=
  foldl_memory (fun _ _ => by simp) _ s

@[simp] theorem removeAcc_memory (s : State) (c id : Nat) : (s.removeAcc c id).memory = s.memory := by simp [State.removeAcc]

@[simp] theorem finish_memory (s : State) (c : Nat) (a : Acc) (bs : List Byte) : (s.finish c a bs).memory = s.memory := by
  simp [State.finish, apply_ite State.memory]

@[simp] theorem freeWords_memory (s : State) (n : Nat) : (s.freeWords n).2.memory = s.memory := rfl
@[simp] theorem poisonAcc_memory (s : State) (c : Nat) (a : Acc) : (s.poisonAcc c a).memory = s.memory := by simp [State.poisonAcc]

@[simp] theorem translateAcc_memory (s : State) (c id : Nat) : (s.translateAcc c id).memory = s.memory := by
  unfold State.translateAcc
  dsimp only
  repeat' split
  all_goals simp [foldl_memory]

@[simp] theorem request_memory (s : State) (c : Nat) (a : Acc) : (s.request c a).memory = s.memory := by
  simp [State.request, apply_ite State.memory]

@[simp] theorem touch_memory (s : State) (c pa key : Nat) : (s.touch c pa key).memory = s.memory := by
  unfold State.touch
  split <;> simp

@[simp] theorem finishLoad_memory (s : State) (c : Nat) (a : Acc) (g : Got) : (s.finishLoad c a g).memory = s.memory := by
  simp [State.finishLoad, apply_ite State.memory]

@[simp] theorem cohLoad_memory (s : State) (c : Nat) (a : Acc) : (s.cohLoad c a).memory = s.memory := by fun_cases State.cohLoad <;> simp

@[simp] theorem load_memory (s : State) (c : Nat) (a : Acc) : (s.load c a).memory = s.memory := by
  fun_cases State.load <;> simp +zetaDelta

@[simp] theorem markSent_memory (s : State) (c : Nat) (ids : List Nat) : (s.markSent c ids).memory = s.memory := by simp [State.markSent]

@[simp] theorem removeAccs_memory (s : State) (c : Nat) (ids : List Nat) : (s.removeAccs c ids).memory = s.memory := by
  simp [State.removeAccs]

@[simp] theorem atomicInL1_memory (s : State) (c : Nat) (a : Acc) (x : L1Line) : (s.atomicInL1 c a x).memory = s.memory := by
  simp [State.atomicInL1, apply_ite State.memory]

@[simp] theorem sendAtomic_memory (s : State) (c : Nat) (a : Acc) (coh : Bool) : (s.sendAtomic c a coh).memory = s.memory := by
  simp [State.sendAtomic]

@[simp] theorem atomic_memory (s : State) (c : Nat) (a : Acc) : (s.atomic c a).memory = s.memory := by fun_cases State.atomic <;> simp

@[simp] theorem sendLease_memory (s : State) (c : Nat) (a : Acc) (len : Nat) : (s.sendLease c a len).memory = s.memory := by
  simp [State.sendLease, apply_ite State.memory]

@[simp] theorem fillCore_memory (s : State) (c pa key : Nat) (g : Got) : (s.fillCore c pa key g).memory = s.memory := by
  simp [State.fillCore, foldl_memory, apply_ite State.memory]

@[simp] theorem fillAgent_memory (s : State) (x : Agent) (pa key : Nat) (g : Got) : (s.fillAgent x pa key g).memory = s.memory := by
  unfold State.fillAgent
  split <;> simp

@[simp] theorem leaseDone_memory (s : State) (c : Nat) (a : Acc) (w r : Dword) : (s.leaseDone c a w r).memory = s.memory := by
  simp [State.leaseDone]

@[simp] theorem renewDone_memory (s : State) (c : Nat) (a : Acc) (w r : Dword) (got : Option Got) :
    (s.renewDone c a w r got).memory = s.memory := by
  fun_cases State.renewDone <;> simp +zetaDelta [apply_ite State.memory]

@[simp] theorem giveBack_memory (s : State) (c pa key : Nat) : (s.giveBack c pa key).memory = s.memory := by
  unfold State.giveBack
  split <;> simp

/-! ### Fences, late work and way masks -/

@[simp] theorem pushAccs_memory (s : State) (c : Nat) (l : List Acc) : (s.pushAccs c l).memory = s.memory := by simp [State.pushAccs]

@[simp] theorem spadDo_memory (s : State) (c slot t : Nat) (w : SpadWork) : (s.spadDo c slot t w).memory = s.memory := by
  unfold State.spadDo
  split
  · simp
  · simp [apply_ite State.memory]

@[simp] theorem putOff_memory (s : State) (c slot t : Nat) (w : LateWork) :
    (s.putOff c slot t w).memory = s.memory := (putOff_keeps s c slot t w).1

@[simp] theorem lateDo_memory (s : State) (c : Nat) (e : Late) : (s.lateDo c e).memory = s.memory := by
  unfold State.lateDo
  split <;> simp

@[simp] theorem perform_memory (s : State) (c n : Nat) : (s.perform c n).memory = s.memory := by fun_cases State.perform <;> simp
@[simp] theorem performAll_memory (s : State) (k : Nat) : (s.performAll k).memory = s.memory := by simp [State.performAll, foldl_memory]
@[simp] theorem wait_memory (s : State) (c g t : Nat) (k : WaitKind) : (s.wait c g t k).memory = s.memory := by simp [State.wait]
@[simp] theorem discardStr_memory (s : State) (c : Nat) : (s.discardStr c).memory = s.memory := by simp [State.discardStr, foldl_memory]

@[simp] theorem applyTarget_memory (s : State) (c : Nat) : (s.applyTarget c).memory = s.memory := by
  simp [State.applyTarget, apply_ite State.memory]

@[simp] theorem setTarget_memory (s : State) (c : Nat) (m : BitVec 16) : (s.setTarget c m).memory = s.memory := by simp [State.setTarget]

/-! ### Control -/

@[simp] theorem fall_memory (s : State) (i : Instr) (o : Op) : (s.fall i o).memory = s.memory := by simp [State.fall, foldl_memory]
@[simp] theorem yieldWave_memory (s : State) (wave : List Nat) : (s.yieldWave wave).memory = s.memory := by simp [State.yieldWave]

@[simp] theorem unsign_memory (s : State) (c g t : Nat) : (s.unsign c g t).memory = s.memory := by
  unfold State.unsign
  split <;> simp

@[simp] theorem trapWave_memory (s : State) (cause : BitVec 16) : (s.trapWave cause).memory = s.memory := by simp [State.trapWave]

/-! ### Engines and jobs -/

@[simp] theorem endOffers_memory (s : State) (k op : Nat) : (s.endOffers k op).memory = s.memory := by
  simp [State.endOffers, foldl_memory]

@[simp] theorem engFill_memory (s : State) (k : Nat) (j : Job) (l : Loc) (n : Nat) : (s.engFill k j l n).memory = s.memory := by
  unfold State.engFill
  split
  · rfl
  · refine foldl_memory (fun u p => ?_) _ s
    dsimp only
    split <;> simp

@[simp] theorem engAsk_memory (s : State) (k : Nat) (j : Job) (ls : List (Nat × Nat)) : (s.engAsk k j ls).memory = s.memory := by
  unfold State.engAsk
  split
  · rfl
  · exact (foldl_memory (fun _ _ => by simp) _ _).trans (by simp)

@[simp] theorem gatherIdx_memory (s : State) (k : Nat) (j : Job) (i : Nat) : (s.gatherIdx k j i).2.memory = s.memory := by
  unfold State.gatherIdx
  split
  · rfl
  · dsimp only
    split <;> simp

@[simp] theorem nextUnit_memory (s : State) (k : Nat) (j : Job) : (s.nextUnit k j).2.memory = s.memory := by
  unfold State.nextUnit
  dsimp only
  split <;> simp

@[simp] theorem endCollectives_memory (s : State) : s.endCollectives.memory = s.memory := rfl

@[simp] theorem engStop_memory (s : State) (k : Nat) (j : Job) (va : Nat) (write : Bool) (e : EngPage) :
    (s.engStop k j va write e).memory = s.memory := by
  unfold State.engStop
  split <;> simp

@[simp] theorem putOffUnit_memory (s : State) (k t : Nat) : (s.putOffUnit k t).memory = s.memory := by fun_cases State.putOffUnit <;> simp
@[simp] theorem endShares_memory (s : State) (j : Job) : (s.endShares j).memory = s.memory := rfl

@[simp] theorem endJob_memory (s : State) (k : Nat) (j : Job) (st : BitVec 16) : (s.endJob k j st).memory = s.memory := by
  simp [State.endJob, foldl_memory, apply_ite State.memory]

@[simp] theorem examine_memory (s : State) (c : Nat) (sa : Word) : (s.examine c sa).2.memory = s.memory := by
  unfold State.examine
  split
  · rfl
  · split <;> simp

@[simp] theorem answerFirst_memory (s : State) (m : Nat) : (s.answerFirst m).memory = s.memory := by
  unfold State.answerFirst
  split <;> simp

/-! ### Launches and placement -/

@[simp] theorem queueError_memory (s : State) : s.queueError.memory = s.memory := rfl
@[simp] theorem advanceHead_memory (s : State) (q : Nat) : (s.advanceHead q).memory = s.memory := by simp [State.advanceHead]

@[simp] theorem grantBoards_memory (s : State) (c key n : Nat) : (s.grantBoards c key n).2.memory = s.memory := by
  fun_cases State.grantBoards <;> simp

@[simp] theorem putGroup_memory (s : State) (id index c : Nat) : (s.putGroup id index c).memory = s.memory := by
  unfold State.putGroup
  split
  · simp [apply_ite State.memory]
  · rfl

@[simp] theorem setTried_memory (s : State) (ids : List Nat) : (s.setTried ids).memory = s.memory := by simp [State.setTried]
@[simp] theorem retryPlaces_memory (s : State) : s.retryPlaces.memory = s.memory := by simp [State.retryPlaces]

/-! ### Bins -/

@[simp] theorem setBin_memory (s : State) (k : Nat) (b : Bin) : (s.setBin k b).memory = s.memory := by simp [State.setBin]
@[simp] theorem failFire_memory (s : State) (k : Nat) : (s.failFire k).memory = s.memory := by simp [State.failFire]

@[simp] theorem peerTail_memory (s : State) (ctx node peer : Nat) (index : Word) :
    (s.peerTail ctx node peer index).memory = s.memory := by
  simp [State.peerTail, apply_ite State.memory]

/-! ### The end of a group -/

@[simp] theorem removeGroup_memory (s : State) (c slot : Nat) (freeBoards : Bool) :
    (s.removeGroup c slot freeBoards).memory = s.memory := by
  fun_cases State.removeGroup <;> simp +zetaDelta [apply_ite State.memory]

/-! ### Privileged operations -/

@[simp] theorem answer_memory (s : State) (o : Op) (wave ok : List Nat) (ws : List Word) : (s.answer o wave ok ws).memory = s.memory := by
  refine foldl_memory (fun u t => ?_) ok s
  split <;> simp

@[simp] theorem dropTlb_memory (s : State) (p : TlbEnt → Bool) (f : Walk → Walk) : (s.dropTlb p f).memory = s.memory := rfl

@[simp] theorem dropWalks_memory (s : State) (ctx : Nat) : (s.dropWalks ctx).memory = s.memory := by
  refine foldl_memory (fun u d => ?_) s.dies s
  exact foldl_memory (fun v w => (foldl_memory abandon_memory _ _).trans (by simp)) _ u

@[simp] theorem haltCtx_memory (s : State) (ctx : Nat) (status : Dword) : (s.haltCtx ctx status).memory = s.memory := by
  simp [State.haltCtx, foldl_memory]

@[simp] theorem newKey_memory (s : State) (slot : Nat) : (s.newKey slot).memory = s.memory := by simp [State.newKey]
@[simp] theorem setSlab_memory (s : State) (n : Nat) (die : Bool) : (s.setSlab n die).memory = s.memory := by simp [State.setSlab]

/-! ### Saved groups -/

@[simp] theorem acceptRecord_memory (s : State) (pa : Nat) : (s.acceptRecord pa).2.memory = s.memory := by
  fun_cases State.acceptRecord <;> simp

@[simp] theorem restoreBoards_memory (s : State) (c : Nat) (x : Saved) : (s.restoreBoards c x).2.memory = s.memory := by
  fun_cases State.restoreBoards <;> simp

@[simp] theorem cvRejoin_memory (s : State) (c g : Nat) : (s.cvRejoin c g).memory = s.memory := by
  fun_cases State.cvRejoin <;> simp +zetaDelta

@[simp] theorem renameWaiters_memory (s : State) (ids : List Nat) (c : Nat) : (s.renameWaiters ids c).memory = s.memory := rfl

@[simp] theorem putSaved_memory (s : State) (c : Nat) (x : Saved) : (s.putSaved c x).memory = s.memory := by
  unfold State.putSaved
  split
  · rfl
  · have h := restoreBoards_memory s c x
    generalize s.restoreBoards c x = r at h ⊢
    refine (foldl_memory (fun _ _ => by simp) _ _).trans ?_
    simp [apply_ite State.memory, h]

/-! ### Temperatures -/

@[simp] theorem therm_memory (s : State) : s.therm.memory = s.memory := by simp [State.therm]

@[simp] theorem throttle_memory (s : State) (v : Nat) (t : Int) : (s.throttle v t).memory = s.memory := by
  simp [State.throttle, apply_ite State.memory]

@[simp] theorem chargeLevies_memory (s : State) : s.chargeLevies.memory = s.memory := by simp [State.chargeLevies]

/-! ### Power and ticks -/

@[simp] theorem charge_memory (s : State) (ctx nj : Nat) : (s.charge ctx nj).memory = s.memory := by
  unfold State.charge
  split
  · rfl
  · dsimp only
    split
    · simp
    · exact (foldl_memory (fun _ _ => by simp) _ _).trans (by simp)

@[simp] theorem tick_memory (s : State) (k : Nat) : (s.tick k).memory = s.memory := by
  unfold State.tick
  dsimp only
  split
  · rfl
  · exact (foldl_memory (fun _ _ => by simp) _ _).trans (by simp)

/-! ### Links -/

@[simp] theorem linkNotice_memory (s : State) : s.linkNotice.memory = s.memory := by simp [State.linkNotice]

@[simp] theorem cutCore_memory (s : State) (lost : Nat → Bool) (c : Nat) : (s.cutCore lost c).memory = s.memory := by
  simp [State.cutCore, foldl_memory, apply_ite State.memory]

@[simp] theorem cutOff_memory (s : State) (lost : Nat → Bool) : (s.cutOff lost).memory = s.memory := by simp [State.cutOff, foldl_memory]
@[simp] theorem setLink_memory (s : State) (n : Nat) (l : Link) : (s.setLink n l).memory = s.memory := by simp [State.setLink]
@[simp] theorem dropLink_memory (s : State) (n : Nat) (l : Link) : (s.dropLink n l).memory = s.memory := by simp [State.dropLink]

/-! ### Fetching -/

@[simp] theorem countChance_memory (s : State) (c quad : Nat) : (s.countChance c quad).memory = s.memory := by simp [State.countChance]
@[simp] theorem tidyAges_memory (s : State) : s.tidyAges.memory = s.memory := rfl

@[simp] theorem begin_memory (s : State) (c quad slot : Nat) (e : BitVec 16 × Dword) (yld : Bool) (next : Dword) (wave : List Nat) :
    (s.begin c quad slot e yld next wave).memory = s.memory := by
  unfold State.begin
  split <;> simp

@[simp] theorem fetchTrap_memory (s : State) (c slot t : Nat) (cause : BitVec 16) (pc : Dword) :
    (s.fetchTrap c slot t cause pc).memory = s.memory := by
  fun_cases State.fetchTrap <;> simp

@[simp] theorem startFetch_memory (s : State) (c slot : Nat) (pc : Dword) (walks : List (Nat × Dword × Nat))
    (traps : List (Nat × BitVec 16)) : (s.startFetch c slot pc walks traps).memory = s.memory := by
  unfold State.startFetch
  split
  · rfl
  · refine (foldl_memory (fun _ _ => by simp) _ _).trans ?_
    exact (foldl_memory (fun _ _ => by simp) _ _).trans (by simp)

/-! ### Barriers and stages -/

@[simp] theorem advanceBarrier_memory (s : State) (c slot n t : Nat) : (s.advanceBarrier c slot n t).memory = s.memory := by
  fun_cases State.advanceBarrier <;> simp

@[simp] theorem arrive_memory (s : State) (c slot n t : Nat) : (s.arrive c slot n t).memory = s.memory := by
  unfold State.arrive
  split <;> simp

@[simp] theorem acquire_memory (s : State) (c : Nat) (wide : Bool) : (s.acquire c wide).memory = s.memory := by
  simp [State.acquire, apply_ite State.memory]

@[simp] theorem passPhase_memory (s : State) (L : Lane) (bar : Bool) (n : Nat) (p : BitVec 16) (next : Dword) :
    (s.passPhase L bar n p next).memory = s.memory := by
  simp [State.passPhase, apply_ite State.memory]

@[simp] theorem retire_memory (s : State) (c slot t : Nat) : (s.retire c slot t).memory = s.memory := by
  unfold State.retire
  split <;> simp

@[simp] theorem stage_memory (s : State) (L : Lane) (f : Nat → Nat) : (s.stage L f).memory = s.memory := by
  unfold State.stage
  split <;> simp

@[simp] theorem endThread_memory (s : State) (c slot t : Nat) : (s.endThread c slot t).memory = s.memory := by
  fun_cases State.endThread <;> simp +zetaDelta [foldl_memory]

/-! ### Matrix operations -/

@[simp] theorem preciseAll_memory (s : State) (c g : Nat) (ts : List Nat) (cause : BitVec 16) (va : Dword) :
    (s.preciseAll c g ts cause va).memory = s.memory := by
  simp [State.preciseAll, foldl_memory]

@[simp] theorem releaseSigners_memory (s : State) (c g : Nat) (l : Tbl Dword) : (s.releaseSigners c g l).memory = s.memory := by
  refine foldl_memory (fun u e => ?_) l s
  split
  · split
    · split <;> simp
    · rfl
  · rfl

@[simp] theorem mmaIssue_memory (s : State) (c gs : Nat) (o : Op) : (s.mmaIssue c gs o).memory = s.memory := by
  fun_cases State.mmaIssue <;> simp +zetaDelta

@[simp] theorem sign_memory (s : State) (o : Op) (wave : List Nat) (t : Nat) : (s.sign o wave t).memory = s.memory := by
  fun_cases State.sign <;> simp +zetaDelta

@[simp] theorem planeRows_memory (s : State) (c : Nat) (p : PlaneSide) (kblk : Nat) : (s.planeRows c p kblk).2.memory = s.memory := by
  unfold State.planeRows
  split
  · rfl
  · exact List.foldlRecOn (motive := fun acc : List (Option (List Block)) × State => acc.2.memory = s.memory) _ _ rfl
      (fun acc h _ _ => by simpa using h)

/-! ### Moves of the schedule -/

@[simp] theorem convoyTime_memory (s : State) (k n : Nat) : (s.convoyTime k n).memory = s.memory := by simp [State.convoyTime]
@[simp] theorem passThreads_memory (s : State) (k n : Nat) : (s.passThreads k n).memory = s.memory := rfl
@[simp] theorem strike_memory (s : State) (sector words : Nat) (bad : Bool) : (s.strike sector words bad).memory = s.memory := rfl
@[simp] theorem answerHost_memory (s : State) (q : HostAsk) : (s.answerHost q).memory = s.memory := by fun_cases State.answerHost <;> simp

end Sys2Proof.Laws
end

