-- ==== Sys2Proof/Proofs/CanonicalMemory.lean ====
section
/-! SUPPORT. What writes memory keeps its canonical form: the home slices and controllers, and all that reads or writes through them, in
the order of the model's files. -/

namespace Sys2Proof.Laws

open Sys2Proof.Machine

theorem wf_of_memory {s u : State} (e : u.memory = s.memory) (h : s.memory.wf = true) : u.memory.wf = true := by
  rwa [e]

theorem wf_foldl {β : Type} {f : State → β → State} (hf : ∀ s b, s.memory.wf = true → (f s b).memory.wf = true) (l : List β)
    {s : State} (h : s.memory.wf = true) : (l.foldl f s).memory.wf = true :=
  List.foldlRecOn (motive := fun u : State => u.memory.wf = true) l f h (fun u hu b _ => hf u b hu)

theorem wf_ite {c : Prop} [Decidable c] {s u : State} (hs : s.memory.wf = true) (hu : u.memory.wf = true) :
    (if c then s else u).memory.wf = true := by
  split
  · exact hs
  · exact hu

/-- The state in which an attempt ends, whether it fails or not; `st` is the state of what it gives. -/
def endState {α : Type} (st : α → State) : Except State α → State
  | .error s => s
  | .ok x => st x

theorem wf_ok {α : Type} {st : α → State} {e : Except State α} {x : α} (h : (endState st e).memory.wf = true) (he : e = .ok x) :
    (st x).memory.wf = true := by
  subst he
  exact h

theorem wf_error {α : Type} {st : α → State} {e : Except State α} {u : State} (h : (endState st e).memory.wf = true)
    (he : e = .error u) : u.memory.wf = true := by
  subst he
  exact h

theorem wf_attempts {α β : Type} {st : α → State} {f : Except State α → β → Except State α}
    (hf : ∀ acc b, (endState st acc).memory.wf = true → (endState st (f acc b)).memory.wf = true) (l : List β)
    {acc : Except State α} (h : (endState st acc).memory.wf = true) : (endState st (l.foldl f acc)).memory.wf = true :=
  List.foldlRecOn (motive := fun acc => (endState st acc).memory.wf = true) l f h (fun acc ha b _ => hf acc b ha)

/-! ### Lines at home -/

@[simp] theorem wf_noteEcc {s : State} (cell : Nat) (e : Ecc) (h : s.memory.wf = true) : (s.noteEcc cell e).memory.wf = true := by
  unfold State.noteEcc
  dsimp only
  split
  · exact h
  · rw [foldl_memory (fun _ _ => by simp [apply_ite State.memory])]
    exact wf_setSide _ _ h

@[simp] theorem wf_findErrors {s : State} (cell : Nat) (sects : BitVec 4) (h : s.memory.wf = true) :
    (s.findErrors cell sects).memory.wf = true := by
  refine wf_foldl (fun u k hu => ?_) _ h
  split
  · exact wf_noteEcc _ _ hu
  · exact hu

@[simp] theorem wf_leaveVault {s : State} (u : Umbra) (e : Ecc) (h : s.memory.wf = true) : (s.leaveVault u e).2.memory.wf = true := by
  unfold State.leaveVault
  split
  · exact h
  · next cell _ =>
    have h1 := wf_noteEcc cell e (wf_findErrors cell 0xF h)
    generalize (s.findErrors cell 0xF).noteEcc cell e = s1 at h1 ⊢
    have h2 : (if s1.lost cell then s1
        else s1.setTimes cell (s1.times cell).1 (leaseEnd u.reqs (s1.times cell).1 (s1.times cell).2)).memory.wf = true := by
      split
      · exact h1
      · exact wf_setTimes _ _ _ h1
    dsimp only
    generalize (if s1.lost cell then s1
      else s1.setTimes cell (s1.times cell).1 (leaseEnd u.reqs (s1.times cell).1 (s1.times cell).2)) = s2 at h2 ⊢
    split <;> simp [h2]

@[simp] theorem wf_leaveNow {s : State} (v : Nat) (u : Umbra) (h : s.memory.wf = true) : (s.leaveNow v u).memory.wf = true := by
  unfold State.leaveNow
  split <;> simp [h]

@[simp] theorem wf_sealLine {s : State} (cell : Nat) (h : s.memory.wf = true) : (s.sealLine cell).memory.wf = true :=
  wf_foldl (fun _ _ hu => by simp [hu]) _ h

/-! ### Requests at the controller -/

@[simp] theorem wf_storeAtHome {s : State} (coh : Bool) (key pa : Nat) (ct : Dword) (data : List (Nat × Byte))
    (h : s.memory.wf = true) : (s.storeAtHome coh key pa ct data).2.memory.wf = true := by
  unfold State.storeAtHome
  split
  · exact h
  · next cell _ =>
    split
    · exact h
    · simp only [clearErrors_memory]
      refine wf_storeHome _ _ _ ?_
      split
      · exact wf_setTimes _ _ _ (wf_sealLine cell h)
      · exact wf_sealLine cell h

@[simp] theorem wf_atomicAtHome {s : State} (coh : Bool) (key pa : Nat) (ct : Dword) (kind : AccKind) (size : Nat)
    (data cmp : List Byte) (h : s.memory.wf = true) : (s.atomicAtHome coh key pa ct kind size data cmp).2.2.2.memory.wf = true := by
  unfold State.atomicAtHome
  split
  · exact h
  · next cell _ =>
    split
    · exact h
    · have h1 := wf_findErrors cell (1 <<< (pa / 64 % 4)) (wf_sealLine cell h)
      generalize (s.sealLine cell).findErrors cell (1 <<< (pa / 64 % 4)) = s1 at h1 ⊢
      dsimp only
      split
      · exact h1
      · refine wf_storeHome _ _ _ ?_
        split
        · exact wf_setTimes _ _ _ (by simpa using h1)
        · simpa using h1

@[simp] theorem wf_renewAtHome {s : State} (core id pa key : Nat) (wts : Option Dword) (ct len : Dword) (h : s.memory.wf = true) :
    (s.renewAtHome core id pa key wts ct len).memory.wf = true := by
  unfold State.renewAtHome
  split
  · exact h
  · next cell _ =>
    have h0 := wf_foldl (f := fun s2 u => s2.leaveNow (vaultOf cell) u) (fun _ u hu => wf_leaveNow _ u hu) (s.umbrasOf cell) h
    generalize (s.umbrasOf cell).foldl (fun s2 u => s2.leaveNow (vaultOf cell) u) s = s0 at h0 ⊢
    have h1 : (if wts == some (s0.times cell).1 then s0 else s0.findErrors cell 0xF).memory.wf = true := by
      split
      · exact h0
      · exact wf_findErrors _ _ h0
    dsimp only
    generalize (if wts == some (s0.times cell).1 then s0 else s0.findErrors cell 0xF) = s1 at h1 ⊢
    split
    · exact wf_setTimes _ _ _ h1
    · simp only [post_memory, homeLine_memory]
      split
      · exact h1
      · exact wf_setTimes _ _ _ h1

@[simp] theorem wf_grantExcl {s : State} (core id pa key : Nat) (h : s.memory.wf = true) :
    (s.grantExcl core id pa key).memory.wf = true := by
  unfold State.grantExcl
  split
  · exact h
  · next cell _ =>
    have h0 := wf_sealLine cell h
    dsimp only
    split
    · exact h
    · split
      · exact h0
      · simpa using wf_findErrors cell 0xF h0

@[simp] theorem wf_performAtHome {s : State} (m : Msg) (h : s.memory.wf = true) : (s.performAtHome m).memory.wf = true := by
  unfold State.performAtHome
  split <;> simp [h]

theorem wf_underGen {s : State} (key gen : Nat) {f : State → State} (hf : ∀ u, u.memory.wf = true → (f u).memory.wf = true)
    (h : s.memory.wf = true) : (s.underGen key gen f).memory.wf = true := by
  unfold State.underGen
  split
  · exact hf s h
  · exact hf _ h

@[simp] theorem wf_release {s : State} (x : Nat × Msg) (h : s.memory.wf = true) : (s.release x).memory.wf = true := by
  unfold State.release
  split
  · simpa using h
  · exact wf_underGen _ _ (fun _ hu => wf_performAtHome x.2 hu) h

@[simp] theorem wf_arriveAtHome {s : State} (m : Msg) (h : s.memory.wf = true) : (s.arriveAtHome m).memory.wf = true := by
  unfold State.arriveAtHome
  split
  · split <;> simp [h]
  · exact wf_performAtHome m h

@[simp] theorem wf_returnExcl {s : State} (pa key : Nat) (dirty : BitVec 4) (g : Got) (h : s.memory.wf = true) :
    (s.returnExcl pa key dirty g).memory.wf = true := by
  unfold State.returnExcl
  split
  · refine wf_foldl (fun _ x hu => wf_release x hu) _ ?_
    split
    · exact h
    · exact wf_storeHome _ _ _ (wf_setTimes _ _ _ h)
  · exact h

@[simp] theorem wf_pull {s : State} (pa : Nat) (h : s.memory.wf = true) : (s.pull pa).memory.wf = true := by
  unfold State.pull
  split
  · exact h
  · split
    · exact wf_returnExcl _ _ _ _ h
    · split
      · exact wf_returnExcl _ _ _ _ h
      · exact wf_foldl (fun _ x hu => wf_release x hu) _ h

/-! ### Reads and writes made at home -/

theorem wf_loadDirect {s : State} (key pa n : Nat) (h : s.memory.wf = true) :
    (endState (·.2.2) (s.loadDirect key pa n)).memory.wf = true := by
  have h0 := wf_pull pa h
  unfold State.loadDirect
  dsimp only
  split
  · exact h0
  · next cell _ =>
    have h1 := wf_findErrors cell (sectorSet (pa % 256) n) h0
    split
    · exact h1
    · simpa [endState] using h1

@[simp] theorem wf_storeDirect {s : State} (coh : Bool) (key pa : Nat) (ct : Dword) (data : List (Nat × Byte))
    (h : s.memory.wf = true) : (s.storeDirect coh key pa ct data).2.memory.wf = true :=
  wf_storeAtHome coh key pa ct data (wf_pull pa h)

theorem wf_hubLoad {s : State} (key pa n : Nat) (h : s.memory.wf = true) :
    (endState (·.2) (s.hubLoad key pa n)).memory.wf = true := by
  refine wf_attempts (fun acc p ha => ?_) _ h
  rcases acc with u | ⟨bs, u⟩
  · exact ha
  · have hl := wf_loadDirect key p.1 p.2 (s := u.touchSlab p.1) (by simpa [endState] using ha)
    dsimp only
    generalize (u.touchSlab p.1).loadDirect key p.1 p.2 = r at hl ⊢
    rcases r with v | ⟨x, w, v⟩ <;> exact hl

@[simp] theorem wf_hubStore {s : State} (coh : Bool) (key pa : Nat) (data : List (Nat × Byte)) (h : s.memory.wf = true) :
    (s.hubStore coh key pa data).memory.wf = true :=
  wf_storeDirect coh key pa 0 data (by simpa using h)

@[simp] theorem wf_readAt {s : State} (c ctx : Nat) (va : Dword) (acc : Nat) (priv : Bool) (n : Nat) (h : s.memory.wf = true) :
    (s.readAt c ctx va acc priv n).memory.wf = true := by
  unfold State.readAt
  split <;> simp [h]

/-! ### The host's reads and writes -/

@[simp] theorem wf_hostRead {s : State} (pa n : Nat) (h : s.memory.wf = true) : (s.hostRead pa n).memory.wf = true := by
  unfold State.hostRead
  simp only [reply_memory]
  refine List.foldlRecOn (motive := fun acc : Option (List Byte) × State => acc.2.memory.wf = true) _ _ h (fun acc ha l _ => ?_)
  split
  · next e es _ _ =>
    split
    · exact ha
    · have hl := wf_loadDirect acc.2.hub.hkey.toNat e.1 (e :: es).length ha
      generalize acc.2.loadDirect acc.2.hub.hkey.toNat e.1 (e :: es).length = r at hl ⊢
      rcases r with u | ⟨x, w, u⟩ <;> exact hl
  · exact ha

@[simp] theorem wf_hostStore {s : State} (pa : Nat) (bytes : List Byte) (h : s.memory.wf = true) :
    (s.hostStore pa bytes).memory.wf = true := by
  refine wf_foldl (fun u l hu => ?_) _ h
  split
  · exact hu
  · exact wf_storeDirect _ _ _ _ _ hu

@[simp] theorem wf_releaseHost {s : State} (h : s.memory.wf = true) : s.releaseHost.memory.wf = true := by
  refine wf_foldl (fun u x hu => ?_) _ h
  split
  · exact wf_hostRead _ _ hu
  · exact wf_hostStore _ _ hu

/-! ### Fault queues and walks -/

@[simp] theorem wf_writeRecord {s : State} (d : Nat) (w : Walk) (h : s.memory.wf = true) : (s.writeRecord d w).memory.wf = true := by
  unfold State.writeRecord
  dsimp only
  split
  · exact h
  · split
    · exact h
    · have hs := wf_hubStore true 0 (fqBase (s.die d).fqcfg + 32 * ((s.die d).fqtail.toNat % fqRecords (s.die d).fqcfg))
        (zipFrom (fqBase (s.die d).fqcfg + 32 * ((s.die d).fqtail.toNat % fqRecords (s.die d).fqcfg))
          (w.record (s.die d).fqtail)) h
      simpa [apply_ite State.memory] using hs

@[simp] theorem wf_settleQueue {s : State} (d : Nat) (h : s.memory.wf = true) : (s.settleQueue d).memory.wf = true :=
  wf_foldl (fun _ w hu => wf_writeRecord d w hu) _ h

@[simp] theorem wf_freeSlab {s : State} (h : s.memory.wf = true) : s.freeSlab.memory.wf = true :=
  wf_foldl (fun _ d hu => wf_settleQueue d.1 hu) _ (wf_releaseHost h)

@[simp] theorem wf_failWalk {s : State} (d : Nat) (w : Walk) (level : Nat) (h : s.memory.wf = true) :
    (s.failWalk d w level).memory.wf = true :=
  wf_settleQueue d (by simp [foldl_memory, h])

@[simp] theorem wf_useEntry {s : State} (d : Nat) (w : Walk) (g : Got) (h : s.memory.wf = true) :
    (s.useEntry d w g).memory.wf = true := by
  fun_cases State.useEntry <;> simp [h]

@[simp] theorem wf_writeFqHead {s : State} (d : Nat) (v : Dword) (h : s.memory.wf = true) : (s.writeFqHead d v).memory.wf = true :=
  wf_settleQueue d (by simpa using h)

@[simp] theorem wf_writeFqCfg {s : State} (d : Nat) (v : Dword) (h : s.memory.wf = true) : (s.writeFqCfg d v).memory.wf = true :=
  wf_settleQueue d (by simpa using h)

/-! ### The hub's registers and steps that wait for a slab -/

@[simp] theorem wf_hubWrite {s : State} (host : Bool) (off : Nat) (v : Dword) (h : s.memory.wf = true) :
    (s.hubWrite host off v).memory.wf = true := by
  unfold State.hubWrite
  refine wf_ite ?_ (wf_ite (wf_of_memory (writePrectl_memory s v) h) (wf_ite h (wf_ite h (wf_ite h (wf_ite ?_ (wf_ite ?_ (wf_ite h
    (wf_ite ?_ (wf_ite (wf_of_memory (modHub_memory s _) h) h)))))))))
  · dsimp only
    split
    · exact h
    · exact h
    · exact wf_of_memory (writeQtail_memory s (off / 0x20) v) h
    · exact h
  · exact wf_ite (wf_of_memory (writeSupctx_memory s ((off - 0x1300) / 8) v) h) h
  · exact wf_ite h h
  · dsimp only
    split
    · exact wf_writeFqCfg ((off - 0x2000) / 0x40) v h
    · exact wf_writeFqHead ((off - 0x2000) / 0x40) v h
    · exact wf_of_memory (writeWresume_memory s ((off - 0x2000) / 0x40) v) h
    · exact h

theorem wf_waitSlab {s : State} {f : State → State} (hf : (f s).memory.wf = true) (h : s.memory.wf = true) :
    (s.waitSlab f).memory.wf = true := by
  obtain hw | hw := waitSlab_cases s f
  · rwa [hw]
  · rwa [hw]

/-! ### The progress of a core -/

@[simp] theorem wf_store {s : State} (c : Nat) (a : Acc) (h : s.memory.wf = true) : (s.store c a).memory.wf = true := by
  fun_cases State.store <;> simp +zetaDelta [h]

@[simp] theorem wf_constLoad {s : State} (c : Nat) (a : Acc) (h : s.memory.wf = true) : (s.constLoad c a).memory.wf = true := by
  have hl := wf_loadDirect a.key a.pa a.size h
  unfold State.constLoad
  generalize s.loadDirect a.key a.pa a.size = r at hl ⊢
  rcases r with u | ⟨x, w, u⟩
  · exact wf_of_memory (poisonAcc_memory u c a) hl
  · exact wf_of_memory (finish_memory u c a x) hl

@[simp] theorem wf_advance {s : State} (c id : Nat) (h : s.memory.wf = true) : (s.advance c id).memory.wf = true := by
  fun_cases State.advance <;> simp [h]

@[simp] theorem wf_advanceAll {s : State} (c : Nat) (ids : List Nat) (behind : Bool) (h : s.memory.wf = true) :
    (State.advanceAll c ids behind s).memory.wf = true := by
  induction ids generalizing s behind with
  | nil => exact h
  | cons id ids ih =>
    unfold State.advanceAll
    split
    · exact ih _ h
    · exact ih _ (wf_advance c id h)

@[simp] theorem wf_progress {s : State} (c : Nat) (h : s.memory.wf = true) : (s.progress c).memory.wf = true :=
  wf_advanceAll c _ false (by simp [foldl_memory, h])

/-! ### Dies that lose power, patrols and slabs -/

@[simp] theorem wf_loseVault {s : State} (v : Nat) (h : s.memory.wf = true) : (s.loseVault v).memory.wf = true := by
  refine wf_foldl (fun u e hu => wf_foldl (fun _ x hv => wf_release x hv) _ hu) _ ?_
  simp [foldl_memory, h]

@[simp] theorem wf_loseOwner {s : State} (e : Excl) (h : s.memory.wf = true) : (s.loseOwner e).memory.wf = true := by
  unfold State.loseOwner
  split <;> simp [h]

@[simp] theorem wf_trip {s : State} (d : Nat) (h : s.memory.wf = true) : (s.trip d).memory.wf = true := by
  unfold State.trip
  refine wf_foldl (fun _ e hu => wf_loseOwner e hu) _ ?_
  dsimp only
  refine wf_foldl (fun _ n hu => wf_loseVault (64 * d + n) hu) _ ?_
  exact wf_loseDie d (by simp [foldl_memory, h])

@[simp] theorem wf_poisonSector {s : State} (v n : Nat) (h : s.memory.wf = true) : (s.poisonSector v n).memory.wf = true := by
  unfold State.poisonSector
  dsimp only
  split
  · exact h
  · simpa using wf_setSide _ _ h

@[simp] theorem wf_scrub {s : State} (v : Nat) (h : s.memory.wf = true) : (s.scrub v).memory.wf = true :=
  wf_foldl (fun _ _ hu => wf_findErrors _ _ hu) _ h

@[simp] theorem wf_doneSlab {s : State} (h : s.memory.wf = true) : s.doneSlab.memory.wf = true :=
  wf_freeSlab (by simp [foldl_memory, h])

@[simp] theorem wf_tidy {s : State} (h : s.memory.wf = true) : s.tidy.memory.wf = true := by
  show s.tidySlab.memory.wf = true
  unfold State.tidySlab
  split <;> simp [h]

/-! ### Engines -/

theorem engRead_memory (s : State) (k : Nat) (j : Job) (l : Loc) (n : Nat) :
    (endState (·.2.2) (s.engRead k j l n)).memory = s.memory := by
  unfold State.engRead
  split
  · exact List.foldlRecOn (motive := fun acc : List Byte × Dword × State => acc.2.2.memory = s.memory) _ _ rfl
      (fun acc h _ _ => by simpa using h)
  · dsimp only
    split
    · exact engAsk_memory s k j _
    · split
      · rfl
      · exact modJob_memory s k j.ticket _
      · rfl

@[simp] theorem wf_commEntry {s : State} (ctx comm : Nat) (h : s.memory.wf = true) : (s.commEntry ctx comm).2.memory.wf = true := by
  unfold State.commEntry
  dsimp only
  split
  · exact h
  · have hl := wf_hubLoad 0 ((s.hub.commcfg.extractLsb' 12 40).toNat * 4096 + 16 * comm) 16 h
    generalize s.hubLoad 0 ((s.hub.commcfg.extractLsb' 12 40).toNat * 4096 + 16 * comm) 16 = r at hl ⊢
    rcases r with u | ⟨bs, u⟩ <;> exact hl

@[simp] theorem wf_engWrite {s : State} (k : Nat) (j : Job) (l : Loc) (bs : List Byte) (jt : Dword) (h : s.memory.wf = true) :
    (s.engWrite k j l bs jt).2.memory.wf = true := by
  unfold State.engWrite
  split
  · exact wf_foldl (fun u p hu => wf_of_memory (spadStore_memory u _ _ _) hu) _ h
  · refine List.foldlRecOn (motive := fun acc : Dword × State => acc.2.memory.wf = true) _ _ h (fun acc ha p _ => ?_)
    split
    · exact wf_storeDirect _ _ _ _ _ (by simpa using ha)
    · exact ha

@[simp] theorem wf_engDeliver {s : State} (k : Nat) (j : Job) (dst : Loc) (bs : List Byte) (jt : Dword) (h : s.memory.wf = true) :
    (s.engDeliver k j dst bs jt).memory.wf = true := by
  have hw := wf_engWrite k j dst bs jt h
  unfold State.engDeliver
  dsimp only
  split
  · simpa using hw
  · split <;> simpa using hw

theorem wf_engRead {s : State} {k : Nat} {j : Job} {l : Loc} {n : Nat} (h : s.memory.wf = true) :
    (endState (·.2.2) (s.engRead k j l n)).memory.wf = true :=
  wf_of_memory (engRead_memory s k j l n) h

@[simp] theorem wf_collStep {s : State} (k : Nat) (j : Job) (most : Nat) (h : s.memory.wf = true) :
    (s.collStep k j most).memory.wf = true := by
  fun_cases State.collStep
  case case7 src _ _ _ _ _ _ s0 _ _ _ u he =>
    clear_value src
    have h0 : s0.memory.wf = true := by cases src <;> simp [s0, h]
    cases src with
    | none => cases he
    | some l => exact (wf_error (wf_engRead h0) he :)
  case case8 src _ _ _ _ _ _ s0 _ _ _ bs w u he parts =>
    clear_value parts src
    have h0 : s0.memory.wf = true := by cases src <;> simp [s0, h]
    clear_value s0
    refine wf_engDeliver _ _ _ _ _ ?_
    cases src with
    | none => cases he; exact h0
    | some l => exact (wf_ok (wf_engRead h0) he :)
  all_goals simp +zetaDelta [h]
  all_goals split <;> simp [h]

@[simp] theorem wf_engStep {s : State} (k : Nat) (j : Job) (u : EngUnit) (h : s.memory.wf = true) :
    (s.engStep k j u).memory.wf = true := by
  obtain ⟨src, dst, m⟩ := u
  cases src with
  | none =>
    simp only [State.engStep]
    split
    · simp [h]
    · split
      · simp [h]
      · split <;> simp [h]
  | some l =>
    simp only [State.engStep]
    split
    · simp [h]
    · split
      · simp [h]
      · split
        · simp [h]
        · split
          · next he => exact (wf_error (wf_engRead (by simp [h])) he :)
          · next he =>
            have hu := wf_ok (wf_engRead (by simp [h])) he
            exact wf_engDeliver _ _ _ _ _ hu

/-! ### The hub's reads and writes of virtual memory -/

theorem wf_walkDirect {s : State} (r : Region) (va : Dword) (leaf level table : Nat) (h : s.memory.wf = true) :
    (endState (·.2.2) (s.walkDirect r va leaf level table)).memory.wf = true := by
  induction level generalizing s table with
  | zero =>
    unfold State.walkDirect
    split
    · next he => exact (wf_error (wf_hubLoad 0 _ 8 h) he :)
    · next he =>
      have hu := wf_ok (wf_hubLoad 0 _ 8 h) he
      dsimp only
      split
      · exact hu
      · split <;> exact hu
  | succ level ih =>
    unfold State.walkDirect
    split
    · next he => exact (wf_error (wf_hubLoad 0 _ 8 h) he :)
    · next he =>
      have hu := wf_ok (wf_hubLoad 0 _ 8 h) he
      dsimp only
      split
      · exact hu
      · split
        · exact hu
        · exact ih _ hu

theorem wf_hubXlate {s : State} (ctx : Nat) (va : Dword) (acc : Nat) (h : s.memory.wf = true) :
    (endState (·.2.2.2) (s.hubXlate ctx va acc)).memory.wf = true := by
  unfold State.hubXlate
  dsimp only
  split
  · exact h
  · split
    · next he => exact (wf_error (wf_walkDirect _ _ _ _ _ h) he :)
    · next he =>
      have hu := wf_ok (wf_walkDirect _ _ _ _ _ h) he
      split
      · exact hu
      · exact wf_ite hu (wf_hubStore _ _ _ _ hu)

theorem wf_virtLoad {s : State} (ctx va n : Nat) (h : s.memory.wf = true) :
    (endState (·.2) (s.virtLoad ctx va n)).memory.wf = true := by
  refine wf_attempts (fun acc p ha => ?_) _ h
  split
  · exact ha
  · split
    · next he => exact (wf_error (wf_hubXlate ctx _ 0 ha) he :)
    · next he =>
      have hu := wf_ok (wf_hubXlate ctx _ 0 ha) he
      split
      · next he => exact (wf_ok (wf_hubLoad _ _ _ hu) he :)
      · next he => exact (wf_error (wf_hubLoad _ _ _ hu) he :)

theorem wf_virtAdd {s : State} (ctx : Nat) (va : Dword) (h : s.memory.wf = true) :
    (endState id (s.virtAdd ctx va)).memory.wf = true := by
  unfold State.virtAdd
  split
  · exact h
  · split
    · next he => exact (wf_error (wf_hubXlate ctx va 2 h) he :)
    · next pa key st u he =>
      have hu := wf_ok (wf_hubXlate ctx va 2 h) he
      have ha := wf_atomicAtHome (st == 0) key pa 0 (.atomic 0 3 5) 8 (leBytes 8 1) []
        (wf_pull (s := u.touchSlab pa) pa (by simpa using hu))
      dsimp only
      split <;> exact ha

theorem wf_virtStore {s : State} (ctx va : Nat) (bs : List Byte) (h : s.memory.wf = true) :
    (endState id (s.virtStore ctx va bs)).memory.wf = true := by
  unfold State.virtStore
  generalize hg : List.foldl _ (Except.ok ([], s)) (pieces va bs.length) = r
  have hr : (endState (·.2) r).memory.wf = true := by
    subst hg
    refine wf_attempts (fun acc p ha => ?_) _ h
    split
    · exact ha
    · split
      · next he => exact (wf_error (wf_hubXlate ctx _ 1 ha) he :)
      · next he => exact (wf_ok (wf_hubXlate ctx _ 1 ha) he :)
  rcases r with u | ⟨l, u⟩
  · exact hr
  · exact wf_foldl (fun _ e hu => wf_hubStore _ _ _ _ hu) l hr

/-! ### Status words, events and launch records -/

@[simp] theorem wf_signal {s : State} (ctx : Option Nat) (sigev : Dword) (h : s.memory.wf = true) :
    (s.signal ctx sigev).memory.wf = true := by
  unfold State.signal
  split
  · exact h
  · cases ctx with
    | none => simpa using h
    | some c =>
      have hl := wf_virtAdd c sigev h
      dsimp only [Option.elim]
      split
      · next he => exact (wf_ok hl he :)
      · next he => exact wf_of_memory (queueError_memory _) (wf_error hl he)

@[simp] theorem wf_writeStatus {s : State} (addr : Nat) (v : Dword) (h : s.memory.wf = true) :
    (s.writeStatus addr v).memory.wf = true := by
  have hs := wf_hubStore true 0 (addr + 88) (zipFrom (addr + 88) (leBytes 8 v.toNat)) h
  unfold State.writeStatus
  exact wf_ite (by simpa using hs) hs

@[simp] theorem wf_reject {s : State} (addr : Nat) (ctx : Option Nat) (sigev code : Dword) (h : s.memory.wf = true) :
    (s.reject addr ctx sigev code).memory.wf = true :=
  wf_signal ctx sigev (wf_writeStatus addr code h)

theorem wf_readFile {s : State} (raf : Nat) (h : s.memory.wf = true) : (endState (·.2) (s.readFile raf)).memory.wf = true := by
  unfold State.readFile
  split
  · next he => exact (wf_ok (wf_hubLoad 0 raf 128 h) he :)
  · next he => exact (wf_error (wf_hubLoad 0 raf 128 h) he :)

theorem wf_openCtx {s : State} (pa : Nat) (h : s.memory.wf = true) : (endState (·.2) (s.openCtx pa)).memory.wf = true := by
  unfold State.openCtx
  split
  · next he => exact (wf_error (wf_hubLoad 0 pa 64 h) he :)
  · next he =>
    have hu := wf_ok (wf_hubLoad 0 pa 64 h) he
    dsimp only
    split
    · next he => exact (wf_error (wf_readFile _ hu) he :)
    · next he =>
      have hv := wf_ok (wf_readFile _ hu) he
      split <;> exact hv

theorem wf_eventReached {s : State} (ctx : Nat) (r : Rec) (h : s.memory.wf = true) :
    (endState (·.2) (s.eventReached ctx r)).memory.wf = true := by
  unfold State.eventReached
  split
  · exact h
  · split
    · next he => exact (wf_ok (wf_virtLoad ctx _ 8 h) he :)
    · next he => exact (wf_error (wf_virtLoad ctx _ 8 h) he :)

@[simp] theorem wf_startLaunch {s : State} (q ctx addr : Nat) (r : Rec) (h : s.memory.wf = true) :
    (s.startLaunch q ctx addr r).memory.wf = true :=
  wf_writeStatus addr 1 h

/-! ### Bins -/

theorem wf_node {s : State} (ctx n : Nat) (h : s.memory.wf = true) : (endState (·.2) (s.node? ctx n)).memory.wf = true := by
  unfold State.node?
  split
  · exact h
  · split
    · next he => exact (wf_ok (wf_hubLoad 0 _ 64 h) he :)
    · next he => exact (wf_error (wf_hubLoad 0 _ 64 h) he :)

theorem wf_oldestRecords {s : State} (ctx : Nat) (d : Node) (b : Bin) (k : Nat) (h : s.memory.wf = true) :
    (endState (·.2) (s.oldestRecords ctx d b k)).memory.wf = true := by
  refine wf_attempts (fun acc i ha => ?_) _ h
  split
  · exact ha
  · split
    · next he => exact (wf_ok (wf_virtLoad ctx _ _ ha) he :)
    · next he => exact (wf_error (wf_virtLoad ctx _ _ ha) he :)

@[simp] theorem wf_refill {s : State} (ctx node : Nat) (d : Node) (n : Nat) (h : s.memory.wf = true) :
    (s.refill ctx node d n).memory.wf = true := by
  induction n generalizing s with
  | zero => exact h
  | succ n ih =>
    unfold State.refill
    dsimp only
    split
    · exact h
    · split
      · next he => exact (wf_error (wf_virtLoad ctx _ _ h) he :)
      · next he =>
        have hu := wf_ok (wf_virtLoad ctx _ _ h) he
        exact ih (by simpa using hu)

@[simp] theorem wf_fire {s : State} (ctx node : Nat) (d : Node) (h : s.memory.wf = true) : (s.fire ctx node d).memory.wf = true := by
  unfold State.fire
  dsimp only
  split
  · next he => exact wf_of_memory (failFire_memory _ _) (wf_error (wf_virtLoad ctx d.templ 128 h) he)
  · next he =>
    have hu := wf_ok (wf_virtLoad ctx d.templ 128 h) he
    split
    · exact wf_of_memory (failFire_memory _ _) hu
    · split
      · next he => exact wf_of_memory (failFire_memory _ _) (wf_error (wf_oldestRecords ctx d _ _ hu) he)
      · next he =>
        have hv := wf_ok (wf_oldestRecords ctx d _ _ hu) he
        exact wf_refill _ _ _ _ (by simpa using hv)

@[simp] theorem wf_fireDue {s : State} (ctx node : Nat) (h : s.memory.wf = true) : (s.fireDue ctx node).memory.wf = true := by
  unfold State.fireDue
  split
  · next he => exact (wf_error (wf_node ctx node h) he :)
  · next he =>
    have hu := wf_ok (wf_node ctx node h) he
    exact wf_ite (wf_fire _ _ _ hu) hu

@[simp] theorem wf_fireBins {s : State} (ctx : Nat) (h : s.memory.wf = true) : (s.fireBins ctx).memory.wf = true :=
  wf_foldl (fun _ e hu => wf_fireDue ctx (e.1 % 256) hu) _ h

@[simp] theorem wf_preemptEnd {s : State} (h : s.memory.wf = true) : s.preemptEnd.memory.wf = true := by
  unfold State.preemptEnd
  dsimp only
  split
  · exact wf_ite (wf_fireBins _ (by simpa using h)) (by simpa using h)
  · simpa using h

@[simp] theorem wf_enqueue {s : State} (ctx node : Nat) (bytes : List Byte) (h : s.memory.wf = true) :
    (s.enqueue ctx node bytes).2.memory.wf = true := by
  unfold State.enqueue
  split
  · next he => exact (wf_error (wf_node ctx node h) he :)
  · next he =>
    have hu := wf_ok (wf_node ctx node h) he
    dsimp only
    split
    · exact wf_fireDue _ _ (by simpa using hu)
    · split
      · exact hu
      · split
        · next he => exact (wf_error (wf_virtStore ctx _ bytes hu) he :)
        · next he =>
          have hv := wf_ok (wf_virtStore ctx _ bytes hu) he
          exact wf_fireDue _ _ (wf_refill _ _ _ _ (by simpa using hv))

@[simp] theorem wf_pullRing {s : State} (ctx node key : Nat) (index : Word) (n : Nat) (h : s.memory.wf = true) :
    (s.pullRing ctx node key index n).memory.wf = true := by
  induction n generalizing s with
  | zero => exact h
  | succ n ih =>
    unfold State.pullRing
    dsimp only
    split
    · exact h
    · split
      · next he => exact (wf_error (wf_node ctx node h) he :)
      · next he =>
        have hu := wf_ok (wf_node ctx node h) he
        split
        · next he => exact (wf_error (wf_virtLoad ctx _ _ hu) he :)
        · next he =>
          have hv := wf_ok (wf_virtLoad ctx _ _ hu) he
          exact ih (wf_enqueue _ _ _ (by simpa using hv))

@[simp] theorem wf_peerRecords {s : State} (ctx node peer : Nat) (rs : List (List Byte)) (h : s.memory.wf = true) :
    (s.peerRecords ctx node peer rs).memory.wf = true := by
  induction rs generalizing s with
  | nil => exact h
  | cons r rs ih =>
    unfold State.peerRecords
    exact wf_ite h (ih (wf_enqueue _ _ _ (by simpa using h)))

@[simp] theorem wf_peerBytes {s : State} (ctx node peer : Nat) (bytes : List Byte) (h : s.memory.wf = true) :
    (s.peerBytes ctx node peer bytes).memory.wf = true := by
  unfold State.peerBytes
  split
  · next he => exact (wf_error (wf_node ctx node h) he :)
  · next he =>
    have hu := wf_ok (wf_node ctx node h) he
    exact wf_peerRecords _ _ _ _ (by simpa using hu)

@[simp] theorem wf_takeFlit {s : State} (b : FlitBody) (h : s.memory.wf = true) : (s.takeFlit b).memory.wf = true := by
  cases b <;> simp [State.takeFlit, h]

@[simp] theorem wf_findPeer {s : State} (ctx peer : Nat) (h : s.memory.wf = true) : (s.findPeer ctx peer).2.memory.wf = true := by
  refine List.foldlRecOn (motive := fun acc : Bool × State => acc.2.memory.wf = true) _ _ h (fun acc ha c _ => ?_)
  have hc := wf_commEntry ctx c ha
  generalize acc.2.commEntry ctx c = e at hc ⊢
  rcases e with ⟨_ | e, u⟩
  · exact hc
  · refine List.foldlRecOn (motive := fun acc : Bool × State => acc.2.memory.wf = true) _ _ hc (fun acc ha r _ => ?_)
    split
    · next he => exact (wf_ok (wf_hubLoad 0 _ 2 ha) he :)
    · next he => exact (wf_error (wf_hubLoad 0 _ 2 ha) he :)

@[simp] theorem wf_largeComm {s : State} (h : s.memory.wf = true) : s.largeComm.2.memory.wf = true := by
  refine List.foldlRecOn (motive := fun acc : Bool × State => acc.2.memory.wf = true) _ _ h (fun acc ha c _ => ?_)
  split
  · exact ha
  · split
    · next he => exact (wf_ok (wf_hubLoad 0 _ 8 ha) he :)
    · next he => exact (wf_error (wf_hubLoad 0 _ 8 ha) he :)

/-! ### Launch records, saved groups and the ends of launches -/

@[simp] theorem wf_readHead {s : State} (q : Nat) (h : s.memory.wf = true) : (s.readHead q).memory.wf = true := by
  have hr {u : State} (addr : Nat) (ctx : Option Nat) (sigev code : Dword) (hu : u.memory.wf = true) :
      ((u.advanceHead q).reject addr ctx sigev code).memory.wf = true := by simp [hu]
  unfold State.readHead
  dsimp only
  split
  · next he => exact hr _ _ _ _ (wf_error (wf_hubLoad 0 _ 128 h) he)
  · next he =>
    have h1 := wf_ok (wf_hubLoad 0 _ 128 h) he
    split
    · next he => exact hr _ _ _ _ (wf_error (wf_openCtx _ h1) he)
    · next ctx s2 he =>
      have h2 : s2.memory.wf = true := (wf_ok (wf_openCtx _ h1) he :)
      have h3 (c : Bool) (r : Rec) : (endState (fun x : Bool × State => x.2)
          (if c then .ok (true, s2) else s2.eventReached ctx r)).memory.wf = true := by
        split
        · exact h2
        · exact wf_eventReached ctx r h2
      split
      · next he => exact hr _ _ _ _ (wf_error (h3 _ _) he)
      · next he => exact wf_of_memory (modQueue_memory _ _ _) (wf_ok (h3 _ _) he)
      · next s3 he =>
        have hu : s3.memory.wf = true := (wf_ok (h3 _ _) he :)
        refine wf_ite (hr _ _ _ _ hu) (wf_ite (hr _ _ _ _ hu) ?_)
        simp [hu]

@[simp] theorem wf_writeFstat {s : State} (l : Launch) (h : s.memory.wf = true) : (s.writeFstat l).memory.wf = true := by
  unfold State.writeFstat
  cases hn : l.node with
  | none => simpa using h
  | some n =>
    dsimp only [Option.elim]
    split
    · next d u he =>
      have hu : u.memory.wf = true := (wf_ok (wf_node l.ctx n h) he :)
      refine wf_of_memory (queueError_memory _) (wf_ite hu ?_)
      split
      · next he => exact (wf_ok (wf_virtStore l.ctx _ _ hu) he :)
      · next he => exact (wf_error (wf_virtStore l.ctx _ _ hu) he :)
    · next he => exact wf_of_memory (queueError_memory _) (wf_error (wf_node l.ctx n h) he)

@[simp] theorem wf_forgetRecord {s : State} (pa : Nat) (h : s.memory.wf = true) : (s.forget pa).memory.wf = true := by
  refine wf_foldl (fun u n hu => ?_) _ h
  split
  · exact wf_forget _ _ hu
  · exact hu

@[simp] theorem wf_writeSave {s : State} (pa : Nat) (x : Saved) (h : s.memory.wf = true) : (s.writeSave pa x).memory.wf = true := by
  unfold State.writeSave
  dsimp only
  rw [modHub_memory]
  refine wf_foldl (fun u d hu => ?_) _ ?_
  · split
    · exact hu
    · exact wf_hubStore _ _ _ _ hu
  · exact wf_forgetRecord pa (wf_foldl (f := fun s1 n => s1.pull (pa + 256 * n)) (fun _ _ hu => wf_pull _ hu) _ h)

/-! ### Flushing and regions -/

@[simp] theorem wf_flushCore {s : State} (c : Nat) (h : s.memory.wf = true) : (s.flushCore c).memory.wf = true := by
  refine wf_foldl (fun u x hu => wf_ite ?_ (wf_ite hu (wf_hubStore _ _ _ _ hu))) _ h
  exact wf_returnExcl _ _ _ _ (by simpa using hu)

@[simp] theorem wf_flushKey {s : State} (c key : Nat) (h : s.memory.wf = true) : (s.flushKey c key).memory.wf = true := by
  refine wf_foldl (fun u x hu => wf_ite ?_ (wf_ite hu (wf_hubStore _ _ _ _ hu))) _ h
  exact wf_returnExcl _ _ _ _ (by simpa using hu)

@[simp] theorem wf_changeRegion {s : State} (c ctx n st : Nat) (h : s.memory.wf = true) :
    (s.changeRegion c ctx n st).memory.wf = true := by
  have h1 := wf_foldl (f := State.flushCore) (fun _ k hu => wf_flushCore k hu) (s.coresFor ctx) h
  unfold State.changeRegion
  dsimp only
  split
  · exact h1
  · next x _ =>
    have hl := wf_hubLoad 0 (x.raf + 8 * n) 8 h1
    generalize State.hubLoad _ 0 (x.raf + 8 * n) 8 = r at hl ⊢
    rcases r with u | ⟨bs, u⟩ <;> exact wf_of_memory (modHub_memory _ _) (wf_hubStore _ _ _ _ hl)

@[simp] theorem wf_reloadRegions {s : State} (ctx : Nat) (ns : List Nat) (h : s.memory.wf = true) :
    (s.reloadRegions ctx ns).memory.wf = true := by
  unfold State.reloadRegions
  split
  · exact h
  · split
    · next he => exact (wf_error (wf_readFile _ h) he :)
    · next he => exact (wf_ok (wf_readFile _ h) he :)

/-! ### What an issue reads before it begins -/

@[simp] theorem wf_fetchReads {s : State} (c quad : Nat) (h : s.memory.wf = true) : (s.fetchReads c quad).memory.wf = true := by
  unfold State.fetchReads
  refine wf_ite h (wf_foldl (fun u e hu => wf_foldl (fun v x hv => wf_foldl (fun _ t hw => ?_) _ hv) _ hu) _ h)
  exact wf_readAt _ _ _ _ _ _ hw

@[simp] theorem wf_touchReads {s : State} (c slot : Nat) (i : Instr) (wave : List Nat) (h : s.memory.wf = true) :
    (s.touchReads c slot i wave).memory.wf = true := by
  unfold State.touchReads
  split
  · refine wf_foldl (fun u t hu => ?_) wave h
    split
    · exact wf_foldl (fun v e hv => wf_readAt _ _ _ _ _ _ (by simpa using hv)) _ hu
    · exact hu
  · exact h

end Sys2Proof.Laws
end

