-- ==== Sys2Proof/Proofs/InvariantStep.lean ====
section
/-! SUPPORT. Every instruction and every step of an agent keeps memory in its canonical form: the shared shapes of meanings over a
frame, the meanings, and the moves of the schedule. -/

namespace Sys2Proof.Laws

open Sys2Proof.Machine

/-! ### The shapes of meanings over a frame -/

section

variable {s : State} {i : Instr} {o : Op} {check : Lane → Option Trap}

theorem wf_frame {body : List Nat → List Nat → State → State} {stay : Bool}
    (hb : ∀ wave ok u, u.memory.wf = true → (body wave ok u).memory.wf = true) (h : s.memory.wf = true) :
    (s.frame i o check body stay).memory.wf = true := by
  unfold State.frame
  split
  · exact h
  · dsimp only
    split
    · simpa using h
    · simpa using wf_ite h (hb _ _ s h)

theorem wf_laneOp (f : Lane → Thread) (h : s.memory.wf = true) : (s.laneOp i o check f).memory.wf = true := by
  refine wf_frame (fun wave ok u hu => wf_foldl (fun v t hv => ?_) ok hu) h
  split
  · simpa using hv
  · exact hv

theorem wf_jump (f : Lane → Thread) (h : s.memory.wf = true) : (s.jump i o check f).memory.wf = true := by
  refine wf_frame (fun wave ok u hu => wf_foldl (fun v t hv => ?_) ok hu) h
  split
  · simpa using hv
  · exact hv

theorem wf_crossOp (f : List Lane → Lane → Thread) (h : s.memory.wf = true) : (s.crossOp i o f).memory.wf = true :=
  wf_frame (fun _ _ _ hu => wf_foldl (fun _ _ hv => by simpa using hv) _ hu) h

theorem wf_groupOp {f : Lane → State → State} (hf : ∀ L u, u.memory.wf = true → (f L u).memory.wf = true)
    (h : s.memory.wf = true) : (s.groupOp i o check f).memory.wf = true := by
  refine wf_frame (fun wave ok u hu => ?_) h
  split
  · split
    · exact hf _ u hu
    · exact hu
  · exact hu

theorem wf_groupPut (f : Lane → Group → Group) (h : s.memory.wf = true) : (s.groupPut i o f).memory.wf = true :=
  wf_groupOp (fun _ _ hu => by simpa using hu) h

theorem wf_sliceOp {f : Lane → State → State} (hf : ∀ L u, u.memory.wf = true → (f L u).memory.wf = true)
    (h : s.memory.wf = true) : (s.sliceOp i o check f).memory.wf = true :=
  wf_frame (fun _ _ _ hu => wf_foldl (fun v L hv => hf L v hv) _ hu) h

theorem wf_lateOp (work : Lane → Option LateWork) (h : s.memory.wf = true) : (s.lateOp i o check work).memory.wf = true := by
  refine wf_sliceOp (fun L u hu => ?_) h
  split
  · simpa using hu
  · exact hu

theorem wf_spadOp (h : s.memory.wf = true) : (s.spadOp i o).memory.wf = true :=
  wf_sliceOp (fun _ _ hu => by simpa using hu) h

theorem wf_releaseOp {flush : Lane → Bool} {fin : List Lane → State → State} {given : Lane → List Nat}
    (hf : ∀ ls u, u.memory.wf = true → (fin ls u).memory.wf = true) (h : s.memory.wf = true) :
    (s.releaseOp i o check flush fin given).memory.wf = true := by
  refine wf_frame (fun wave ok u hu => hf _ _ ?_) h
  exact wf_foldl (fun _ _ hv => by simpa using hv) _ (wf_ite hu (by simpa using hu))

theorem wf_stageOp (set : Bool) (f : Nat → Nat → Nat) (h : s.memory.wf = true) : (s.stageOp i o set f).memory.wf = true :=
  wf_releaseOp (fun _ _ hu => wf_foldl (fun _ _ hv => by simpa using hv) _ hu) h

theorem wf_jobOp (mk : Lane → Option Word × Card) (h : s.memory.wf = true) : (s.jobOp i o mk).memory.wf = true :=
  wf_frame (fun _ _ _ hu => wf_foldl (fun _ _ hv => by simpa using hv) _ (by simpa using hu)) h

theorem wf_sclOp (f : Lane → Nat × BitVec 6) (h : s.memory.wf = true) : (s.sclOp i o f).memory.wf = true :=
  wf_frame (fun _ _ _ hu => wf_foldl (fun _ _ hv => by simpa using hv) _ hu) h

theorem wf_swr (val : Lane → Dword) (h : s.memory.wf = true) : (s.swr i o val).memory.wf = true := by
  unfold State.swr
  exact wf_ite (wf_laneOp _ h) (wf_ite (wf_laneOp _ h) (wf_groupOp (fun _ _ hu => by simpa using hu) h))

theorem wf_mmaOp (h : s.memory.wf = true) : (s.mmaOp i o).memory.wf = true :=
  wf_frame (fun _ _ _ hu => wf_foldl (fun _ _ hv => by simpa using hv) _ hu) h

theorem wf_sfuIssue (fn : Nat) (h : s.memory.wf = true) : (sfuIssue i o fn s).memory.wf = true :=
  wf_frame (fun _ _ _ hu => wf_of_memory (modCore_memory _ _ _) (wf_foldl (fun _ _ hv => by simpa using hv) _ hu)) h

theorem wf_memOp (mk : Lane → List Acc) (h : s.memory.wf = true) : (s.memOp i o check mk).memory.wf = true := by
  refine wf_frame (fun wave ok u hu => wf_progress _ ?_) h
  exact wf_of_memory (pushAccs_memory _ _ _) (wf_foldl (fun _ _ hv => by simpa using hv) _ (by simpa using hu))

theorem wf_lineOp (mk : Lane → Dword → Acc) (h : s.memory.wf = true) : (s.lineOp i o mk).memory.wf = true :=
  wf_frame (fun _ _ _ hu => wf_progress _ (by simpa using hu)) h

theorem wf_privFrame {body : Lane → List Nat → List Nat → State → State}
    (hb : ∀ L wave ok u, u.memory.wf = true → (body L wave ok u).memory.wf = true) (h : s.memory.wf = true) :
    (s.privFrame i o check body).memory.wf = true := by
  have run {u : State} (hu : u.memory.wf = true) : (u.frame i o check (fun wave ok s0 =>
      match s0.lead o wave ok with | some L => body L wave ok s0 | none => s0) true).memory.wf = true := by
    refine wf_frame (fun wave ok v hv => ?_) hu
    split
    · exact hb _ _ _ _ hv
    · exact hv
  have ht : (s.trapWave 0x08).memory.wf = true := by simpa using h
  unfold State.privFrame
  exact wf_ite (run h) (wf_ite ht (run ht))

theorem wf_privOp {f : Lane → State → List Word × State} (hf : ∀ L u, u.memory.wf = true → (f L u).2.memory.wf = true)
    (h : s.memory.wf = true) : (s.privOp i o check f).memory.wf = true :=
  wf_privFrame (fun L _ _ u hu => by simpa using hf L u hu) h

theorem wf_mboxOp {cmd : Nat} {f : Lane → State → Word × State} (hf : ∀ L u, u.memory.wf = true → (f L u).2.memory.wf = true)
    (h : s.memory.wf = true) : (s.mboxOp i o cmd f).memory.wf = true := by
  refine wf_privOp (fun L u hu => ?_) h
  split
  · exact hu
  · split
    · exact hu
    · exact hf L u hu

theorem wf_privWait {fin : Lane → State → State} {start : Lane → List Nat → List Nat → State → State}
    (hf : ∀ L u, u.memory.wf = true → (fin L u).memory.wf = true)
    (hs : ∀ L wave ok u, u.memory.wf = true → (start L wave ok u).memory.wf = true) (h : s.memory.wf = true) :
    (s.privWait i o fin start).memory.wf = true := by
  refine wf_privFrame (fun _ wave ok u hu => ?_) h
  have h1 (begun : List Nat) : (match u.lead o wave begun with
      | some L => ((fin L u).answer o wave begun [0]).moveTo begun s.cur.next
      | none => u).memory.wf = true := by
    split
    · simpa using hf _ u hu
    · exact hu
  dsimp only
  split
  · exact hs _ _ _ _ (h1 _)
  · exact h1 _

end

/-! ### What an outcome leaves -/

/-- Where an outcome is a next state, memory stands in its canonical form there. -/
def KeepsForm : Out → Prop
  | .next t => t.memory.wf = true
  | .fault _ => True
  | .refused _ => True

@[simp] theorem keepsForm_next (s : State) : KeepsForm (.next s) ↔ s.memory.wf = true := Iff.rfl

theorem keepsForm_ite {c : Prop} [Decidable c] {r q : Out} (hr : KeepsForm r) (hq : KeepsForm q) : KeepsForm (if c then r else q) := by
  split
  · exact hr
  · exact hq

/-! ### Instructions that are more than their shape -/

section

variable {s : State} (o : Op)

theorem wf_beginWaymask {c : Nat} {m : BitVec 16} {ls : List Lane} {answer : State → Word → State}
    (ha : ∀ u w, u.memory.wf = true → (answer u w).memory.wf = true) (h : s.memory.wf = true) :
    (s.beginWaymask c m ls answer).memory.wf = true := by
  have ht : (s.setTarget c m).memory.wf = true := by simpa using h
  unfold State.beginWaymask
  exact wf_ite (ha _ _ h) (wf_ite (ha _ _ (by simpa using h))
    (wf_ite (ha _ _ ht) (wf_ite (wf_foldl (fun _ _ hv => by simpa using hv) _ ht) (ha _ _ ht))))

theorem wf_execKeyDraw (h : s.memory.wf = true) : KeepsForm (execKeyDraw o s) :=
  wf_mboxOp (fun L u hu => by split <;> simpa using hu) h

theorem wf_execKeyClear (h : s.memory.wf = true) : KeepsForm (execKeyClear o s) :=
  wf_mboxOp (fun L u hu => by split <;> simpa using hu) h

theorem wf_execKeyLoadWrapped (h : s.memory.wf = true) : KeepsForm (execKeyLoadWrapped o s) := by
  refine wf_waitSlab (wf_mboxOp (fun L u hu => ?_) h) h
  split
  · exact hu
  · have hl := wf_hubLoad 0 L.arg2.toNat 80 hu
    generalize u.hubLoad 0 L.arg2.toNat 80 = r at hl ⊢
    rcases r with v | ⟨bs, v⟩
    · exact hl
    · dsimp only
      split
      · exact wf_of_memory (newKey_memory _ _) hl
      · exact hl

theorem wf_execRblkAcq (h : s.memory.wf = true) : KeepsForm (execRblkAcq o s) := by
  refine wf_frame (fun wave ok u hu => ?_) h
  dsimp only
  split
  · simpa using hu
  · simpa using hu

theorem wf_execRblkTry (h : s.memory.wf = true) : KeepsForm (execRblkTry o s) := by
  refine wf_frame (fun wave ok u hu => ?_) h
  dsimp only
  split
  · exact hu
  · exact wf_foldl (fun v w hv => wf_foldl (fun _ _ hx => by simpa using hx) _ (wf_ite (by simpa using hv) hv)) _ hu

theorem wf_execRblkRel (h : s.memory.wf = true) : KeepsForm (execRblkRel o s) := by
  refine wf_frame (fun wave ok u hu => ?_) h
  split
  · exact hu
  · exact wf_foldl (fun _ _ hv => by simpa using hv) _ hu

theorem wf_execWaymask (h : s.memory.wf = true) : KeepsForm (execWaymask o s) := by
  refine wf_frame (fun wave ok u hu => ?_) h
  have answers (ls : List Lane) (st : Word) {v : State} (hv : v.memory.wf = true) :
      (((ls.foldl (fun s2 x => s2.modThread x.c x.slot x.tid (fun th => th.put (x.dstReg 1) st)) v).moveTo (ls.map (·.tid))
        s.cur.next)).memory.wf = true := by
    simpa using wf_foldl (fun _ _ hx => by simpa using hx) ls hv
  dsimp only
  split
  · exact hu
  · generalize hr : List.foldl _ u _ = v
    have hv : v.memory.wf = true := by
      rw [← hr]
      refine wf_foldl (fun w x hw => ?_) _ hu
      split
      · exact answers _ _ hw
      · exact hw
    exact wf_ite hv (wf_beginWaymask (fun _ _ hw => answers _ _ hw) hv)

theorem wf_execSwait (h : s.memory.wf = true) : KeepsForm (execSwait o s) := by
  refine wf_frame (fun wave ok u hu => wf_foldl (fun v L hv => ?_) _ hu) h
  have he (sa : Word) : (v.examine L.c sa).2.memory.wf = true := by simpa using hv
  dsimp only
  split
  · simpa using hv
  · have := he L.swaitArgs.1
    generalize v.examine L.c L.swaitArgs.1 = r at this ⊢
    rcases r with ⟨st | ⟨w, t⟩, x⟩
    · simpa using this
    · dsimp only
      split
      · exact wf_ite this (by simpa using this)
      · simpa using this

theorem wf_execStbeg (h : s.memory.wf = true) : KeepsForm (execStbeg o s) := by
  refine wf_frame (fun wave ok u hu => wf_foldl (fun v L hv => ?_) _ hu) h
  dsimp only
  split
  · exact hv
  · exact wf_ite (by simpa using hv) (wf_ite (by simpa using hv) (by simpa using hv))

theorem wf_execWaitl (h : s.memory.wf = true) : KeepsForm (execWaitl o s) := by
  refine wf_frame (fun wave ok u hu => wf_foldl (fun v L hv => ?_) _ hu) h
  dsimp only
  split
  · exact hv
  · exact wf_ite (by simpa using hv) (wf_ite hv (by simpa using hv))

theorem wf_execSleep (h : s.memory.wf = true) : KeepsForm (execSleep o s) :=
  wf_frame (fun wave ok u hu => wf_foldl (fun v L hv => wf_ite hv (by simpa using hv)) _
    (wf_ite (by simpa using hu) (by simpa using hu))) h

theorem wf_execRstate (h : s.memory.wf = true) : KeepsForm (execRstate o s) := by
  refine wf_frame (fun wave ok u hu => ?_) h
  dsimp only
  split
  · exact hu
  · next L _ _ =>
    refine wf_ite (wf_foldl (fun _ _ hv => by simpa using hv) _ (wf_of_memory (modHub_memory _ _) hu)) (wf_waitSlab ?_ ?_)
    · simpa using wf_changeRegion L.c L.g.ctx _ _ (wf_of_memory (modHub_memory _ _) hu)
    · exact wf_of_memory (modHub_memory _ _) hu

theorem wf_execAccst (h : s.memory.wf = true) : KeepsForm (execAccst o s) := by
  refine wf_groupOp (fun L u hu => ?_) h
  dsimp only
  exact wf_foldl (fun v i hv => by simpa using hv) _ hu

theorem wf_execSyncr (h : s.memory.wf = true) : KeepsForm (execSyncr o s) :=
  wf_groupOp (fun _ _ hu => wf_ite hu (by simpa using hu)) h

theorem wf_execSwarm (h : s.memory.wf = true) : KeepsForm (execSwarm o s) := by
  refine wf_sliceOp (fun L u hu => ?_) h
  split
  · exact hu
  · simpa using hu

theorem wf_execSwpoll (h : s.memory.wf = true) : KeepsForm (execSwpoll o s) := by
  refine wf_sliceOp (fun L u hu => ?_) h
  have he : (u.examine L.c L.sa).2.memory.wf = true := by simpa using hu
  generalize u.examine L.c L.sa = r at he ⊢
  rcases r with ⟨st | ⟨w, t⟩, x⟩
  · exact he
  · simpa using he

theorem wf_execBar (h : s.memory.wf = true) : KeepsForm (execBar o s) := by
  refine wf_releaseOp (fun ls u hu => wf_foldl (fun v L hv => ?_) _ hu) h
  split
  · simpa using hv
  · simpa using hv

theorem wf_execWqe (h : s.memory.wf = true) : KeepsForm (execWqe o s) := by
  refine wf_waitSlab (wf_releaseOp (fun ls u hu => ?_) h) h
  refine wf_of_memory (moveTo_memory _ _ _) (wf_foldl (fun v L hv => ?_) _ hu)
  simpa using wf_enqueue _ _ _ (wf_of_memory (spadLoad_memory _ _ _ _) hv)

theorem wf_execWqt (h : s.memory.wf = true) : KeepsForm (execWqt o s) := by
  refine wf_waitSlab (wf_releaseOp (fun ls u hu => ?_) h) h
  refine wf_of_memory (moveTo_memory _ _ _) (wf_foldl (fun v L hv => ?_) _ hu)
  have hp : (if (L.args Lane.wqtArgs).getD 0 0 = 0 then v
      else (v.findPeer L.g.ctx ((L.args Lane.wqtArgs).getD 0 0)).2).memory.wf = true :=
    wf_ite hv (wf_findPeer _ _ hv)
  exact wf_ite hp (by simpa using hp)

theorem wf_execPwrwrPcap (h : s.memory.wf = true) : KeepsForm (execPwrwrPcap o s) := by
  refine wf_privOp (fun L u hu => ?_) h
  dsimp only
  split <;> simpa using hu

theorem wf_execPwrwrPfloor (h : s.memory.wf = true) : KeepsForm (execPwrwrPfloor o s) := by
  refine wf_privOp (fun L u hu => ?_) h
  dsimp only
  split <;> simpa using hu

theorem wf_execCtxsv (h : s.memory.wf = true) : KeepsForm (execCtxsv o s) := by
  refine wf_privOp (fun L u hu => ?_) h
  dsimp only
  split
  · exact hu
  · exact wf_of_memory (writePrectl_memory _ _) (wf_hubWrite _ _ _ hu)

theorem wf_execTlbinvRegion (h : s.memory.wf = true) : KeepsForm (execTlbinvRegion o s) :=
  wf_waitSlab (wf_privOp (fun _ _ hu => wf_reloadRegions _ _ (by simpa using hu)) h) h

theorem wf_execTlbinvCtx (h : s.memory.wf = true) : KeepsForm (execTlbinvCtx o s) :=
  wf_waitSlab (wf_privOp (fun _ _ hu => wf_reloadRegions _ _ (by simpa using hu)) h) h

theorem wf_execTlbinvAll (h : s.memory.wf = true) : KeepsForm (execTlbinvAll o s) :=
  wf_waitSlab (wf_privOp (fun _ _ hu => wf_foldl (fun _ _ hv => wf_reloadRegions _ _ hv) _ (by simpa using hu)) h) h

theorem wf_execTlbinvKey (h : s.memory.wf = true) : KeepsForm (execTlbinvKey o s) :=
  wf_waitSlab (wf_privOp (fun _ _ hu => wf_foldl (fun _ _ hv => wf_flushKey _ _ hv) _ (by simpa using hu)) h) h

theorem wf_execClkrat (h : s.memory.wf = true) : KeepsForm (execClkrat o s) :=
  wf_privWait (fun _ _ hu => hu) (fun _ _ _ u hu => wf_ite (by simpa using hu)
    (wf_foldl (fun _ _ hv => by simpa using hv) _ (wf_of_memory (modCluster_memory _ _ _) hu))) h

theorem wf_execHalt (h : s.memory.wf = true) : KeepsForm (execHalt o s) :=
  wf_privWait (fun _ _ hu => hu) (fun _ _ _ u hu => wf_ite (by simpa using hu)
    (wf_ite (by simpa using hu) (wf_foldl (fun _ _ hv => by simpa using hv) _ (by simpa using hu)))) h

theorem wf_execSlabModeChange (h : s.memory.wf = true) : KeepsForm (execSlabModeChange o s) := by
  refine wf_privWait (fun _ _ hu => wf_doneSlab hu) (fun L wave ok u hu => ?_) h
  have done (w : Word) {v : State} (hv : v.memory.wf = true) : ((v.answer o wave ok [w]).moveTo ok s.cur.next).memory.wf = true := by
    simpa using hv
  exact wf_ite (done _ hu) (wf_ite (done _ hu) (wf_ite (done _ hu)
    (wf_ite (wf_foldl (fun _ _ hv => by simpa using hv) _ (wf_of_memory (modHub_memory _ _) hu)) (done _ (by simpa using hu)))))

theorem wf_execIdle (h : s.memory.wf = true) : KeepsForm (execIdle o s) :=
  wf_privFrame (fun _ _ _ _ hu => wf_ite (by simpa using hu)
    (wf_foldl (fun _ _ hv => by simpa using hv) _ (wf_of_memory (modHub_memory _ _) hu))) h

end

end Sys2Proof.Laws
end

