-- ==== Sys2Proof/Proofs/InvariantAgents.lean ====
section
/-! SUPPORT. Every step of an agent keeps memory in its canonical form. -/

namespace Sys2Proof.Laws

open Sys2Proof.Machine

/-! ### Placements that may find no room -/

theorem placeAll_memory {id n : Nat} {s t : State} (he : s.placeAll id n = some t) : t.memory = s.memory := by
  induction n generalizing s with
  | zero =>
    obtain rfl : s = t := by simpa [State.placeAll] using he
    rfl
  | succ n ih =>
    unfold State.placeAll at he
    split at he
    · exact absurd he (by simp)
    · obtain ⟨c, _, hc⟩ := List.exists_of_findSome?_eq_some he
      exact (ih hc).trans (putGroup_memory _ _ _ _)

theorem placeGang_memory {id : Nat} {l : Launch} {s t : State} (he : s.placeGang id l = some t) : t.memory = s.memory := by
  unfold State.placeGang at he
  split at he
  · exact absurd he (by simp)
  · exact placeAll_memory he

theorem putAllSaved_memory {xs : List Saved} {mates : List (Nat × Nat)} {s t : State} (he : s.putAllSaved mates xs = some t) :
    t.memory = s.memory := by
  induction xs generalizing s mates with
  | nil =>
    obtain rfl : s = t := by simpa [State.putAllSaved] using he
    rfl
  | cons x xs ih =>
    unfold State.putAllSaved at he
    obtain ⟨c, _, hc⟩ := List.exists_of_findSome?_eq_some he
    exact (ih hc).trans (putSaved_memory _ _ _)

theorem nextResume_memory {s t : State} (he : s.nextResume = some t) : t.memory = s.memory := by
  obtain ⟨r, _, hr⟩ := List.exists_of_findSome?_eq_some he
  exact (putAllSaved_memory hr).trans (modHub_memory _ _)

/-! ### The steps of agents -/

section

variable {s : State}

theorem wf_execTokenExchange (h : s.memory.wf = true) : KeepsForm (execTokenExchange s) := by
  unfold execTokenExchange
  extract_lets m s1 gs
  have h1 : s1.memory.wf = true := wf_of_memory (modHub_memory _ _) h
  clear_value s1
  exact (keepsForm_next _).2 (wf_foldl (fun _ _ hv => wf_of_memory (modDie_memory _ _ _) hv) _ h1)

theorem wf_execHostCxlRead (pa n : Nat) (h : s.memory.wf = true) : KeepsForm (execHostCxlRead pa n s) :=
  wf_ite (by simpa using h) (wf_hostRead _ _ h)

theorem wf_execHostCxlWrite (pa : Nat) (bytes : List Byte) (h : s.memory.wf = true) : KeepsForm (execHostCxlWrite pa bytes s) :=
  wf_ite (by simpa using h) (wf_hostStore _ _ h)

theorem wf_execBinTimerExpiry (ctx node : Nat) (h : s.memory.wf = true) : KeepsForm (execBinTimerExpiry ctx node s) :=
  wf_waitSlab (wf_fireDue _ _ h) h

theorem wf_execAccessReplay (c id : Nat) (h : s.memory.wf = true) : KeepsForm (execAccessReplay c id s) :=
  wf_ite (wf_progress _ h) h

theorem wf_execRegisterWrite (off : Nat) (v : Dword) (h : s.memory.wf = true) : KeepsForm (execRegisterWrite off v s) :=
  wf_ite (wf_hubWrite _ _ _ h) h

theorem wf_execArrivalSkewRebalance (h : s.memory.wf = true) : KeepsForm (execArrivalSkewRebalance s) := by
  refine wf_waitSlab ?_ h
  have hl := wf_largeComm h
  generalize s.largeComm = r at hl ⊢
  rcases r with ⟨large, u⟩
  exact wf_ite hl (wf_foldl (fun _ _ hv => wf_of_memory (modDie_memory _ _ _) hv) _ hl)

theorem wf_execJobAccept (k : Nat) (h : s.memory.wf = true) : KeepsForm (execJobAccept k s) := by
  unfold execJobAccept
  split
  · split <;> simpa using h
  · next f _ =>
    split
    · simpa using h
    · next g _ =>
      extract_lets at1
      clear_value at1
      rcases f.addr with _ | a <;> rcases at1 with _ | t <;> dsimp only
      · split
        · simpa using h
        · exact wf_ite (by simpa using h) (by simpa using h)
      · simpa using h
      · split
        · simpa using h
        · exact wf_ite (by simpa using h) (by simpa using h)
      · simpa using h

theorem wf_execPlaneOpComplete (c : Nat) (h : s.memory.wf = true) : KeepsForm (execPlaneOpComplete c s) := by
  unfold execPlaneOpComplete
  split
  · exact h
  · split
    · simpa using h
    · simpa using h

theorem wf_execDqAnswerWrite (m : Nat) (h : s.memory.wf = true) : KeepsForm (execDqAnswerWrite m s) := by
  unfold execDqAnswerWrite
  split
  · next c g t dest ct addr a _ =>
    have hd := wf_ite (c := (s.group? c g).any (fun x => s.spadOwned c x.ctx addr 16) = true)
      (s := ((s.drop m).spadStore c addr (leBytes 8 a.toNat)).deliver c (addr + 8) 8 ct) (u := s.drop m)
      (by simpa using h) (by simpa using h)
    dsimp only
    split
    · exact wf_of_memory (modThread_memory _ _ _ _ _) hd
    · exact hd
  · exact h

theorem wf_execGangPlace (h : s.memory.wf = true) : KeepsForm (execGangPlace s) := by
  unfold execGangPlace
  dsimp only
  split
  · next id t he =>
    obtain ⟨e, _, hp⟩ := List.exists_of_findSome?_eq_some he
    obtain ⟨u, hu, rfl, rfl⟩ : ∃ u, s.placeGang e.1 e.2 = some u ∧ e.1 = id ∧ u = t := by simpa using hp
    have := wf_of_memory (placeGang_memory hu) h
    simpa using this
  · simpa using h

theorem wf_execGroupResumePlace (h : s.memory.wf = true) : KeepsForm (execGroupResumePlace s) := by
  unfold execGroupResumePlace
  split
  · next t he => exact wf_of_memory (nextResume_memory he) h
  · simpa using h

theorem wf_execTempSample (v : Nat) (t : Int) (h : s.memory.wf = true) : KeepsForm (execTempSample v t s) :=
  keepsForm_ite h (wf_ite (wf_trip _ (by simpa using h)) (by simpa using h))

theorem wf_execPatrolScrub (v corrected : Nat) (bad : List Nat) (h : s.memory.wf = true) :
    KeepsForm (execPatrolScrub v corrected bad s) :=
  keepsForm_ite h (wf_foldl (fun _ _ hv => wf_poisonSector _ _ hv) _ (wf_of_memory (modVault_memory _ _ _) (wf_scrub _ h)))

theorem wf_execCxlLinkUp (p : Nat) (h : s.memory.wf = true) : KeepsForm (execCxlLinkUp p s) :=
  keepsForm_ite h (wf_of_memory ((linkNotice_memory _).trans (modHub_memory _ _)) (wf_forgetLines _ h))

theorem wf_execAdCompareSwap (d n : Nat) (h : s.memory.wf = true) : KeepsForm (execAdCompareSwap d n s) := by
  unfold execAdCompareSwap
  split
  · exact h
  · next w _ =>
    refine wf_waitSlab ?_ h
    have hl := wf_hubLoad 0 w.leafPa 8 h
    generalize s.hubLoad 0 w.leafPa 8 = r at hl ⊢
    rcases r with v | ⟨bs, v⟩
    · exact wf_of_memory (endWalk_memory _ _ _ _) hl
    · exact wf_ite (wf_of_memory (completeWalk_memory _ _ _ _) (wf_hubStore _ _ _ _ hl))
        (wf_of_memory ((askEntry_memory _ _ _).trans rfl) hl)

theorem wf_execReflectionArrival (m : Nat) (h : s.memory.wf = true) : KeepsForm (execReflectionArrival m s) := by
  unfold execReflectionArrival
  split
  · exact wf_foldl (fun _ _ hv => wf_progress _ (by simpa using hv)) _ (wf_foldl (fun _ _ hv => by simpa using hv) _ (by simpa using h))
  · exact h

theorem wf_execStoreAck (m : Nat) (h : s.memory.wf = true) : KeepsForm (execStoreAck m s) := by
  unfold execStoreAck
  split
  · next c id pa key w data found poison prev _ =>
    extract_lets s0 bad s1
    have h0 : s0.memory.wf = true := wf_of_memory (drop_memory _ _) h
    have h1 : s1.memory.wf = true := by
      unfold s1
      split
      · simpa using h0
      · exact h0
    clear_value s1 s0 bad
    rcases s0.acc? c id with _ | a
    · exact h0
    · refine keepsForm_ite ?_ (keepsForm_ite (wf_progress _ (by simpa using h1)) (wf_progress _ (by simpa using h1)))
      extract_lets mates s2 s3
      have h2 : s2.memory.wf = true :=
        wf_ite (wf_foldl (fun _ _ hv => by simpa using hv) _ h1) (by simpa using h1)
      clear_value s2
      have h3 : s3.memory.wf = true := by
        unfold s3
        split
        · exact wf_ite (wf_of_memory (modCore_memory _ _ _) h2) (wf_of_memory (modCore_memory _ _ _) h2)
        · exact h2
      exact wf_progress _ h3
  · exact h

theorem wf_execExclusiveGrantArrival (m : Nat) (h : s.memory.wf = true) : KeepsForm (execExclusiveGrantArrival m s) := by
  unfold execExclusiveGrantArrival
  split
  · next c id pa key got _ =>
    have home {u : State} (hu : u.memory.wf = true) : (match u.acc? c id with
        | some a => u.sendAtomic c a true
        | none => u).memory.wf = true := by
      split <;> simpa using hu
    have hd : (s.drop m).memory.wf = true := by simpa using h
    rcases got with _ | g
    · exact wf_progress _ (home hd)
    · have hi (x : L1Line) := wf_of_memory (install_memory (s.drop m) c x) hd
      exact keepsForm_ite (wf_progress _ (hi _)) (wf_progress _ (home (wf_of_memory (post_memory _ _) (hi _))))
  · exact h

theorem wf_execJobStart (k : Nat) (h : s.memory.wf = true) : KeepsForm (execJobStart k s) := by
  unfold execJobStart
  dsimp only
  split
  · exact h
  · next j _ =>
    refine wf_waitSlab (wf_ite ?_ (by simpa using h)) h
    have hl := wf_commEntry j.ctx j.card.comm h
    generalize s.commEntry j.ctx j.card.comm = r at hl ⊢
    rcases r with ⟨_ | e, v⟩ <;> simpa using hl

theorem wf_execEngineUnitDelivery (k t : Nat) (h : s.memory.wf = true) : KeepsForm (execEngineUnitDelivery k t s) := by
  unfold execEngineUnitDelivery
  split
  · exact h
  · next j0 _ =>
    rcases j0.atUnit with ⟨j, most⟩
    refine keepsForm_ite h (keepsForm_ite (wf_collStep _ _ _ h) ?_)
    have hl : (s.nextUnit k j).2.memory.wf = true := by simpa using h
    generalize s.nextUnit k j = r at hl ⊢
    rcases r with ⟨_ | u, v⟩
    · exact wf_of_memory (modJob_memory _ _ _ _) hl
    · exact wf_engStep _ _ _ hl

theorem wf_execGroupEnd (c slot : Nat) (h : s.memory.wf = true) : KeepsForm (execGroupEnd c slot s) := by
  unfold execGroupEnd
  split
  · exact h
  · exact keepsForm_ite h (wf_waitSlab (wf_preemptEnd (by simpa using h)) h)

theorem wf_execWaitEventPoll (q : Nat) (h : s.memory.wf = true) : KeepsForm (execWaitEventPoll q s) := by
  refine keepsForm_ite h (wf_waitSlab ?_ h)
  have hl := wf_hubLoad 0 (s.queue q).headAddr 128 h
  generalize s.hubLoad 0 (s.queue q).headAddr 128 = r at hl ⊢
  rcases r with v | ⟨bs, v⟩
  · exact wf_readHead _ hl
  · have ho := wf_openCtx (((s.queue q).cfg.extractLsb' 0 46).toNat * 64) (s := v) hl
    dsimp only
    generalize v.openCtx (((s.queue q).cfg.extractLsb' 0 46).toNat * 64) = r at ho ⊢
    rcases r with w | ⟨ctx, w⟩
    · exact wf_readHead _ ho
    · have hr := wf_eventReached ctx (recOf bs) (s := w) ho
      dsimp only
      generalize w.eventReached ctx (recOf bs) = r at hr ⊢
      rcases r with x | ⟨_ | _, x⟩
      · exact wf_readHead _ hr
      · exact hr
      · exact wf_of_memory (modQueue_memory _ _ _) hr

theorem wf_execLaunchComplete (id : Nat) (h : s.memory.wf = true) : KeepsForm (execLaunchComplete id s) := by
  unfold execLaunchComplete
  split
  · exact h
  · refine keepsForm_ite h (keepsForm_ite (wf_foldl (fun _ _ hv => by simpa using hv) _ h)
      (keepsForm_ite h (wf_waitSlab (wf_signal _ _ ?_) h)))
    have hm := fun (f : Hub → Hub) => wf_of_memory (modHub_memory s f) h
    exact wf_ite (wf_writeStatus _ _ (hm _)) (wf_ite (wf_writeFstat _ (hm _)) (hm _))

theorem wf_execWqtPull (m : Nat) (h : s.memory.wf = true) : KeepsForm (execWqtPull m s) := by
  unfold execWqtPull
  split
  · exact wf_waitSlab (wf_ite (wf_pullRing _ _ _ _ _ (by simpa using h)) (by simpa using h)) h
  · exact h

theorem withFree_memory (s : State) (n : Nat) : ({ s with free := n } : State).memory = s.memory := rfl
theorem wf_waitSlab_of_eq {f : State → State} {t : State} (e : f s = t) (ht : t.memory.wf = true) (h : s.memory.wf = true) :
    (s.waitSlab f).memory.wf = true :=
  wf_waitSlab (e ▸ ht) h

theorem wf_execForcedSave (c slot : Nat) (h : s.memory.wf = true) : KeepsForm (execForcedSave c slot s) := by
  unfold execForcedSave
  dsimp only
  split
  · refine keepsForm_ite h ((keepsForm_next _).2 (wf_waitSlab_of_eq rfl (wf_preemptEnd ?_) h))
    refine wf_of_memory ((removeGroup_memory _ _ _ _).trans ((cvLeave_memory _ _ _).trans (modHub_memory _ _))) ?_
    exact wf_writeSave _ _ (wf_of_memory (withFree_memory s _) h)
  · exact h

theorem wf_execUlukarFlitReceive (n : Nat) (tagOk : Bool) (flit : Flit) (h : s.memory.wf = true) :
    KeepsForm (execUlukarFlitReceive n tagOk flit s) :=
  keepsForm_ite h (keepsForm_ite (wf_ite (by simpa using h) (by simpa using h))
    (keepsForm_ite (by simpa using h) (wf_waitSlab (wf_takeFlit _ (by simpa using h)) h)))

theorem wf_execDieRestore (h : s.memory.wf = true) : KeepsForm (execDieRestore s) := by
  unfold execDieRestore
  extract_lets d ct s1 r s2 s3 s4
  refine keepsForm_ite h ?_
  have h1 : s1.memory.wf = true := wf_of_memory (modDie_memory _ _ _) h
  clear_value s1
  have h2 : s2.memory.wf = true := wf_foldl (fun _ _ hv => wf_of_memory (setCore_memory _ _ _) hv) _ h1
  clear_value s2
  have h3 : s3.memory.wf = true := wf_foldl (fun _ _ hv => wf_of_memory (setCluster_memory _ _ _) hv) _ h2
  clear_value s3
  have h4 : s4.memory.wf = true := wf_foldl (fun _ _ hv => wf_of_memory (setVault_memory _ _ _) hv) _ h3
  clear_value s4
  exact (keepsForm_next _).2 (wf_of_memory (mailAnswer_memory _ _) (wf_restoreDie _ h4))

theorem wf_execLaunchRecordRead (h : s.memory.wf = true) : KeepsForm (execLaunchRecordRead s) := by
  unfold execLaunchRecordRead
  split
  · exact h
  · have hr := fun (f : Hub → Hub) q => wf_readHead q (wf_of_memory (modHub_memory s f) h)
    exact keepsForm_ite h (wf_waitSlab (wf_ite (hr _ _) (wf_of_memory (modHub_memory _ _) (hr _ _))) h)

end

/-! ### Steps whose operations each leave memory, or its form, as it is -/

section

variable {s : State}

theorem wf_execSfuResult (c q : Nat) (h : s.memory.wf = true) : KeepsForm (execSfuResult c q s) := by
  fun_cases execSfuResult <;> simp +zetaDelta [h, foldl_memory]

theorem wf_execRblkGrant (c : Nat) (h : s.memory.wf = true) : KeepsForm (execRblkGrant c s) := by
  fun_cases execRblkGrant <;> simp +zetaDelta [h, foldl_memory]

theorem wf_execSliceReadAccept (m : Nat) (h : s.memory.wf = true) : KeepsForm (execSliceReadAccept m s) := by
  unfold execSliceReadAccept
  split <;> simp [h]

theorem wf_execVaultDataLeaves (v way : Nat) (e : Ecc) (h : s.memory.wf = true) : KeepsForm (execVaultDataLeaves v way e s) := by
  unfold execVaultDataLeaves
  split <;> simp [h]

theorem wf_execUmbraClose (v way : Nat) (h : s.memory.wf = true) : KeepsForm (execUmbraClose v way s) := by
  fun_cases execUmbraClose <;> simp +zetaDelta [h]

theorem wf_execCohStoreAtHome (m : Nat) (h : s.memory.wf = true) : KeepsForm (execCohStoreAtHome m s) := by
  unfold execCohStoreAtHome
  split <;> simp [h]

theorem wf_execStrStoreAtHome (m : Nat) (h : s.memory.wf = true) : KeepsForm (execStrStoreAtHome m s) := by
  unfold execStrStoreAtHome
  split <;> simp [h]

theorem wf_execWriteBackAtHome (m : Nat) (h : s.memory.wf = true) : KeepsForm (execWriteBackAtHome m s) := by
  unfold execWriteBackAtHome
  split <;> simp [h]

theorem wf_execRenewalAtHome (m : Nat) (h : s.memory.wf = true) : KeepsForm (execRenewalAtHome m s) := by
  unfold execRenewalAtHome
  split <;> simp [h]

theorem wf_execHomeAtomic (m : Nat) (h : s.memory.wf = true) : KeepsForm (execHomeAtomic m s) := by
  unfold execHomeAtomic
  split <;> simp [h]

theorem wf_execExclusiveRequest (m : Nat) (h : s.memory.wf = true) : KeepsForm (execExclusiveRequest m s) := by
  unfold execExclusiveRequest
  split <;> simp [h]

theorem wf_execExclusiveReturn (m : Nat) (h : s.memory.wf = true) : KeepsForm (execExclusiveReturn m s) := by
  unfold execExclusiveReturn
  split <;> simp [h]

theorem wf_execTlbMissToWalker (m : Nat) (h : s.memory.wf = true) : KeepsForm (execTlbMissToWalker m s) := by
  fun_cases execTlbMissToWalker <;> simp +zetaDelta [h, foldl_memory]

theorem wf_execWalkStart (d : Nat) (h : s.memory.wf = true) : KeepsForm (execWalkStart d s) := by
  fun_cases execWalkStart <;> simp +zetaDelta [h]

theorem wf_execWalkEntryRead (d n : Nat) (h : s.memory.wf = true) : KeepsForm (execWalkEntryRead d n s) := by
  fun_cases execWalkEntryRead <;> simp [h]

theorem wf_execWalkRetry (d : Nat) (seq : Word) (h : s.memory.wf = true) : KeepsForm (execWalkRetry d seq s) := by
  simp [execWalkRetry, h]

theorem wf_execWalkDeliver (d : Nat) (seq : Word) (h : s.memory.wf = true) : KeepsForm (execWalkDeliver d seq s) := by
  simp [execWalkDeliver, h]

theorem wf_execFqheadWrite (d : Nat) (v : Dword) (h : s.memory.wf = true) : KeepsForm (execFqheadWrite d v s) := by
  simp [execFqheadWrite, h]

theorem wf_execFqcfgWrite (d : Nat) (v : Dword) (h : s.memory.wf = true) : KeepsForm (execFqcfgWrite d v s) := by
  simp [execFqcfgWrite, h]

theorem wf_execPreemptDrain (h : s.memory.wf = true) : KeepsForm (execPreemptDrain s) := by
  simp [execPreemptDrain, h]

theorem wf_execPreemptForce (h : s.memory.wf = true) : KeepsForm (execPreemptForce s) := by
  simp [execPreemptForce, h]

theorem wf_execDrainLimitExpiry (h : s.memory.wf = true) : KeepsForm (execDrainLimitExpiry s) := by
  unfold execDrainLimitExpiry
  split
  · exact keepsForm_ite ((keepsForm_next _).2 (wf_of_memory (preemptCheck_memory _)
      (wf_of_memory ((beginSaves_memory _ _).trans (modHub_memory _ _)) h))) h
  · exact h

theorem wf_execQueueTailWrite (q : Nat) (v : Dword) (h : s.memory.wf = true) : KeepsForm (execQueueTailWrite q v s) := by
  simp [execQueueTailWrite, h]

theorem wf_execSupctxWrite (k : Nat) (v : Dword) (h : s.memory.wf = true) : KeepsForm (execSupctxWrite k v s) := by
  simp [execSupctxWrite, h]

theorem wf_execRenewalReply (m : Nat) (h : s.memory.wf = true) : KeepsForm (execRenewalReply m s) := by
  fun_cases execRenewalReply <;> simp +zetaDelta [h, apply_ite State.memory]

theorem wf_execExclusiveRecall (m : Nat) (h : s.memory.wf = true) : KeepsForm (execExclusiveRecall m s) := by
  fun_cases execExclusiveRecall <;> simp [h]

theorem wf_execExclusiveTimeout (c pa : Nat) (h : s.memory.wf = true) : KeepsForm (execExclusiveTimeout c pa s) := by
  unfold execExclusiveTimeout
  split <;> simp [h]

theorem wf_execWayFlushComplete (c w : Nat) (h : s.memory.wf = true) : KeepsForm (execWayFlushComplete c w s) := by
  fun_cases execWayFlushComplete <;> simp +zetaDelta [h, foldl_memory]

theorem wf_execSleepExpiry (c g t : Nat) (h : s.memory.wf = true) : KeepsForm (execSleepExpiry c g t s) := by
  fun_cases execSleepExpiry <;> simp [h]

theorem wf_execWatchdogExpiry (c g t : Nat) (h : s.memory.wf = true) : KeepsForm (execWatchdogExpiry c g t s) := by
  fun_cases execWatchdogExpiry <;> simp [h]

theorem wf_execUnassignedOpcode (first : Word) (rest : List Word) (h : s.memory.wf = true) :
    KeepsForm (execUnassignedOpcode first rest s) := by
  simp [execUnassignedOpcode, h]

theorem wf_execJobComplete (k t : Nat) (h : s.memory.wf = true) : KeepsForm (execJobComplete k t s) := by
  fun_cases execJobComplete <;> simp [h]

theorem wf_execJobErrorEnd (k t : Nat) (h : s.memory.wf = true) : KeepsForm (execJobErrorEnd k t s) := by
  fun_cases execJobErrorEnd <;> simp +zetaDelta [h]

theorem wf_execDqServe (m : Nat) (h : s.memory.wf = true) : KeepsForm (execDqServe m s) := by
  fun_cases execDqServe <;> simp [h]

theorem wf_execGroupPlace (h : s.memory.wf = true) : KeepsForm (execGroupPlace s) := by
  unfold execGroupPlace
  split <;> simp [h]

theorem wf_execClockRatioSwitch (k : Nat) (h : s.memory.wf = true) : KeepsForm (execClockRatioSwitch k s) := by
  fun_cases execClockRatioSwitch <;> simp [h]

theorem wf_execBandChange (v : Nat) (h : s.memory.wf = true) : KeepsForm (execBandChange v s) := by
  fun_cases execBandChange <;> simp [h]

theorem wf_execBaseTempReport (h : s.memory.wf = true) : KeepsForm (execBaseTempReport s) := by
  simp [execBaseTempReport, foldl_memory, apply_ite State.memory, h]

theorem wf_execIdleFloorMeasure (h : s.memory.wf = true) : KeepsForm (execIdleFloorMeasure s) := by
  simp [execIdleFloorMeasure, h]

theorem wf_execEnergyCharge (h : s.memory.wf = true) : KeepsForm (execEnergyCharge s) := by
  simp [execEnergyCharge, foldl_memory, h]

theorem wf_execQuotaPeriodBoundary (ctx : Nat) (h : s.memory.wf = true) : KeepsForm (execQuotaPeriodBoundary ctx s) := by
  simp [execQuotaPeriodBoundary, h]

theorem wf_execFillerIssue (d : Nat) (falls : List (Nat × Nat)) (h : s.memory.wf = true) : KeepsForm (execFillerIssue d falls s) := by
  unfold execFillerIssue
  split <;> simp [h]

theorem wf_execFillerSettled (d energy : Nat) (h : s.memory.wf = true) : KeepsForm (execFillerSettled d energy s) := by
  fun_cases execFillerSettled <;> simp +zetaDelta [h, foldl_memory]

theorem wf_execTick (k : Nat) (h : s.memory.wf = true) : KeepsForm (execTick k s) := by
  simp [execTick, h]

theorem wf_execCxlLinkDown (p : Nat) (h : s.memory.wf = true) : KeepsForm (execCxlLinkDown p s) := by
  unfold execCxlLinkDown
  split <;> simp [h]

theorem wf_execUlukarLinkRetrain (n : Nat) (h : s.memory.wf = true) : KeepsForm (execUlukarLinkRetrain n s) := by
  unfold execUlukarLinkRetrain
  split <;> simp [h]

theorem wf_execAttestationRequest (h : s.memory.wf = true) : KeepsForm (execAttestationRequest s) := by
  unfold execAttestationRequest
  split <;> simp [h]

theorem wf_execReset : KeepsForm (execReset s) := by
  simp [execReset]

theorem wf_execConvoyMirrorUpdate (k ctx cv : Nat) (h : s.memory.wf = true) : KeepsForm (execConvoyMirrorUpdate k ctx cv s) := by
  simp [execConvoyMirrorUpdate, h]

theorem wf_execShedTimeout (ctx cv : Nat) (h : s.memory.wf = true) : KeepsForm (execShedTimeout ctx cv s) := by
  unfold execShedTimeout
  split <;> simp [h]

theorem wf_execPlaneOpStart (c : Nat) (h : s.memory.wf = true) : KeepsForm (execPlaneOpStart c s) := by
  fun_cases execPlaneOpStart <;> simp [h]

end

end Sys2Proof.Laws
end

