-- ==== Sys2Proof/Proofs/InvariantExec.lean ====
section
/-! SUPPORT. Every row of the table keeps memory in its canonical form. -/

namespace Sys2Proof.Laws

open Sys2Proof.Machine

theorem keepsForm_exec (i : Instr) {s : State} (h : s.memory.wf = true) : KeepsForm (exec i s) := by
  cases i with
  | iadd o | isub o | imul o | imulh o | imad o | imin o | imax o | iabs o | ineg o | and o | or o | xor o | not o | andn o | shl o
  | shr o | sar o | rotl o | bfx o | bfi o | clz o | popc o | brev o | icmp o | lea o | iadd3 o | pand o | por o | pxor o | pnot o
  | pset o | fadd o | fsub o | fmul o | ffma o | fmin o | fmax o | fcmp o | fclass o | frnd o | fscale o | fmode o | hadd2 o | hmul2 o
  | hfma2 o | mov o | moviPair o | sel o | smovV32S o | smovV64S o | prmt o | rblkQry o | idx o | idxadd o | srdV32 o | srdV64 o
  | bcast o | cvt o | pack o | unpk o | qnt o | qexp o | dqnt o | hdm o | hdmNorm o | accrd o | fence o | jqry o | cvstat o | lpad o
  | strdCtr o | strdBrd o | nop opc o =>
    exact wf_laneOp _ h
  | rcp o | rsq o | sqrt o | exp2 o | log2 o | sin o | cos o | tanh o =>
    exact wf_sfuIssue _ h
  | moviScalar o | smovSS o | smovSV32 o | smovSV64 o | accz o =>
    exact wf_groupPut _ h
  | srdS o | jdecl o | jrst o | fenceE o | cvjoin o | cvleave o | cvslip o =>
    exact wf_groupOp (fun _ _ hu => by simpa using hu) h
  | swrB o | swrW o | swrS o =>
    exact wf_swr _ h
  | elect o | voteAll o | voteAny o | voteUni o | ballot o | red o | scan o =>
    exact wf_crossOp _ h
  | mmaRegister o | mmaDescriptor o =>
    exact wf_mmaOp h
  | scl o | sclRaw o =>
    exact wf_sclOp _ h
  | accwr o | barw o | trap o | eret o =>
    exact wf_frame (fun _ _ _ hu => wf_foldl (fun _ _ hv => by simpa using hv) _ hu) h
  | ld o | st o | ldc o | atom o | cas o =>
    exact wf_memOp _ h
  | lds o | sts o | atoms o | cass o =>
    exact wf_spadOp h
  | lease o | pf o =>
    exact wf_lineOp _ h
  | syncw o | exit o | bara o | stend o =>
    exact wf_releaseOp (fun _ _ hu => wf_foldl (fun _ _ hv => by simpa using hv) _ hu) h
  | cpy o | cpyFill o | gth o | coll o | job o =>
    exact wf_jobOp _ h
  | jwait o | dq o =>
    exact wf_sliceOp (fun _ _ hu => by simpa using hu) h
  | cvstep o | yield o =>
    exact wf_frame (fun _ _ _ hu => by simpa using hu) h
  | bra o | brx o | call o | callx o =>
    exact wf_jump _ (by simpa using h)
  | ret o =>
    exact wf_jump _ h
  | stageAdd o | stageSet o =>
    exact wf_stageOp _ _ h
  | ctxsvSt o | tlbinvPage o | pwrrd o | levyqVault o | levyqAcct o | levyqBase o =>
    exact wf_privOp (fun _ _ hu => by simpa using hu) h
  | ctxld o =>
    exact wf_waitSlab (wf_privOp (fun _ _ hu => by simpa using hu) h) h
  | tempSample vault temp => exact wf_execTempSample vault temp h
  | bandChange vault => exact wf_execBandChange vault h
  | patrolScrub vault corrected bad => exact wf_execPatrolScrub vault corrected bad h
  | vaultDataLeaves slice way ecc => exact wf_execVaultDataLeaves slice way ecc h
  | cxlLinkDown port => exact wf_execCxlLinkDown port h
  | cxlLinkUp port => exact wf_execCxlLinkUp port h
  | slabModeChange o => exact wf_execSlabModeChange o h
  | keyDraw o => exact wf_execKeyDraw o h
  | keyLoadWrapped o => exact wf_execKeyLoadWrapped o h
  | keyClear o => exact wf_execKeyClear o h
  | tlbMissToWalker m => exact wf_execTlbMissToWalker m h
  | walkStart die => exact wf_execWalkStart die h
  | walkEntryRead die walk => exact wf_execWalkEntryRead die walk h
  | adCompareSwap die walk => exact wf_execAdCompareSwap die walk h
  | walkRetry die seq => exact wf_execWalkRetry die seq h
  | walkDeliver die seq => exact wf_execWalkDeliver die seq h
  | fqheadWrite die v => exact wf_execFqheadWrite die v h
  | fqcfgWrite die v => exact wf_execFqcfgWrite die v h
  | sliceReadAccept m => exact wf_execSliceReadAccept m h
  | umbraClose slice way => exact wf_execUmbraClose slice way h
  | reflectionArrival m => exact wf_execReflectionArrival m h
  | tick cluster => exact wf_execTick cluster h
  | cohStoreAtHome m => exact wf_execCohStoreAtHome m h
  | storeAck m => exact wf_execStoreAck m h
  | renewalAtHome m => exact wf_execRenewalAtHome m h
  | renewalReply m => exact wf_execRenewalReply m h
  | homeAtomic m => exact wf_execHomeAtomic m h
  | exclusiveRequest m => exact wf_execExclusiveRequest m h
  | exclusiveRecall m => exact wf_execExclusiveRecall m h
  | exclusiveTimeout core line => exact wf_execExclusiveTimeout core line h
  | exclusiveReturn m => exact wf_execExclusiveReturn m h
  | writeBackAtHome m => exact wf_execWriteBackAtHome m h
  | hostCxlRead pa n => exact wf_execHostCxlRead pa n h
  | hostCxlWrite pa bytes => exact wf_execHostCxlWrite pa bytes h
  | wayFlushComplete core way => exact wf_execWayFlushComplete core way h
  | jobAccept cluster => exact wf_execJobAccept cluster h
  | jobStart cluster => exact wf_execJobStart cluster h
  | engineUnitDelivery cluster ticket => exact wf_execEngineUnitDelivery cluster ticket h
  | jobComplete cluster ticket => exact wf_execJobComplete cluster ticket h
  | jobErrorEnd cluster ticket => exact wf_execJobErrorEnd cluster ticket h
  | rblkGrant core => exact wf_execRblkGrant core h
  | sfuResult core quad => exact wf_execSfuResult core quad h
  | planeOpStart core => exact wf_execPlaneOpStart core h
  | planeOpComplete core => exact wf_execPlaneOpComplete core h
  | clockRatioSwitch cluster => exact wf_execClockRatioSwitch cluster h
  | groupEnd core slot => exact wf_execGroupEnd core slot h
  | queueTailWrite q v => exact wf_execQueueTailWrite q v h
  | waitEventPoll q => exact wf_execWaitEventPoll q h
  | launchComplete launch => exact wf_execLaunchComplete launch h
  | binTimerExpiry ctx node => exact wf_execBinTimerExpiry ctx node h
  | wqtPull m => exact wf_execWqtPull m h
  | dqServe m => exact wf_execDqServe m h
  | dqAnswerWrite m => exact wf_execDqAnswerWrite m h
  | accessReplay core id => exact wf_execAccessReplay core id h
  | watchdogExpiry core slot tid => exact wf_execWatchdogExpiry core slot tid h
  | shedTimeout ctx cv => exact wf_execShedTimeout ctx cv h
  | sleepExpiry core slot tid => exact wf_execSleepExpiry core slot tid h
  | forcedSave core slot => exact wf_execForcedSave core slot h
  | quotaPeriodBoundary ctx => exact wf_execQuotaPeriodBoundary ctx h
  | fillerIssue die ctxs => exact wf_execFillerIssue die ctxs h
  | supctxWrite k v => exact wf_execSupctxWrite k v h
  | registerWrite off v => exact wf_execRegisterWrite off v h
  | ulukarFlitReceive link tagOk flit => exact wf_execUlukarFlitReceive link tagOk flit h
  | ulukarLinkRetrain link => exact wf_execUlukarLinkRetrain link h
  | rblkAcq o => exact wf_execRblkAcq o h
  | rblkTry o => exact wf_execRblkTry o h
  | rblkRel o => exact wf_execRblkRel o h
  | accst o => exact wf_execAccst o h
  | syncr o => exact wf_execSyncr o h
  | rstate o => exact wf_execRstate o h
  | waymask o => exact wf_execWaymask o h
  | swarm o => exact wf_execSwarm o h
  | swait o => exact wf_execSwait o h
  | swpoll o => exact wf_execSwpoll o h
  | wqe o => exact wf_execWqe o h
  | wqt o => exact wf_execWqt o h
  | bar o => exact wf_execBar o h
  | stbeg o => exact wf_execStbeg o h
  | waitl o => exact wf_execWaitl o h
  | sleep o => exact wf_execSleep o h
  | ctxsv o => exact wf_execCtxsv o h
  | tlbinvRegion o => exact wf_execTlbinvRegion o h
  | tlbinvCtx o => exact wf_execTlbinvCtx o h
  | tlbinvAll o => exact wf_execTlbinvAll o h
  | tlbinvKey o => exact wf_execTlbinvKey o h
  | pwrwrPcap o => exact wf_execPwrwrPcap o h
  | pwrwrPfloor o => exact wf_execPwrwrPfloor o h
  | clkrat o => exact wf_execClkrat o h
  | idle o => exact wf_execIdle o h
  | halt o => exact wf_execHalt o h
  | strStoreAtHome m => exact wf_execStrStoreAtHome m h
  | exclusiveGrantArrival m => exact wf_execExclusiveGrantArrival m h
  | fillerSettled die energy => exact wf_execFillerSettled die energy h
  | convoyMirrorUpdate cluster ctx cv => exact wf_execConvoyMirrorUpdate cluster ctx cv h
  | unassignedOpcode first rest => exact wf_execUnassignedOpcode first rest h
  | reset => exact wf_execReset
  | tokenExchange => exact wf_execTokenExchange h
  | energyCharge => exact wf_execEnergyCharge h
  | baseTempReport => exact wf_execBaseTempReport h
  | idleFloorMeasure => exact wf_execIdleFloorMeasure h
  | arrivalSkewRebalance => exact wf_execArrivalSkewRebalance h
  | attestationRequest => exact wf_execAttestationRequest h
  | dieRestore => exact wf_execDieRestore h
  | preemptDrain => exact wf_execPreemptDrain h
  | preemptForce => exact wf_execPreemptForce h
  | launchRecordRead => exact wf_execLaunchRecordRead h
  | groupPlace => exact wf_execGroupPlace h
  | gangPlace => exact wf_execGangPlace h
  | drainLimitExpiry => exact wf_execDrainLimitExpiry h
  | groupResumePlace => exact wf_execGroupResumePlace h

end Sys2Proof.Laws
end

