-- ==== Sys2Proof/Proofs/InvariantSchedule.lean ====
section
/-! SUPPORT. Every move of the schedule, and so every step, keeps memory in its canonical form (O57, O58). -/

namespace Sys2Proof.Laws

open Sys2Proof.Machine

variable {s : State}

/-! ### An issue opportunity -/

theorem keepsForm_issue (c quad : Nat) (h : s.memory.wf = true) : KeepsForm (s.issue c quad) := by
  have h1 : (s.countChance c quad).memory.wf = true := by simpa using h
  unfold State.issue
  refine keepsForm_ite h1 ?_
  have h2 := wf_fetchReads c quad h1
  generalize (s.countChance c quad).fetchReads c quad = u at h2 ⊢
  dsimp only
  split
  · exact h2
  · exact (keepsForm_next _).2 (by simpa using h2)
  · exact (keepsForm_next _).2 (by simpa using h2)
  · exact keepsForm_exec _ (wf_of_memory (begin_memory _ _ _ _ _ _ _ _) (wf_touchReads _ _ _ _ h2))

theorem keepsForm_execLate (i : Instr) (h : s.memory.wf = true) : KeepsForm (s.execLate i) := by
  unfold State.execLate
  split
  · exact wf_lateOp _ h
  · exact wf_lateOp _ h
  · exact wf_lateOp _ h
  · exact wf_lateOp _ h
  · exact wf_lateOp _ h
  · exact wf_lateOp _ h
  · exact wf_lateOp _ h
  · exact keepsForm_exec _ h

theorem keepsForm_issueLate (c quad : Nat) (h : s.memory.wf = true) : KeepsForm (s.issueLate c quad) := by
  unfold State.issueLate
  have h1 : (({ s with cur := { s.cur with late := true } } : State).countChance c quad).memory.wf = true :=
    wf_of_memory (countChance_memory _ _ _) h
  have h2 := wf_fetchReads c quad h1
  generalize State.fetchReads _ c quad = u at h2 ⊢
  dsimp only
  split
  · next slot e i next wave _ =>
    refine keepsForm_ite (keepsForm_issue c quad h) ?_
    have hr := keepsForm_execLate i
      (wf_of_memory (begin_memory _ c quad slot e (yields i) next wave) (wf_touchReads c slot i wave h2))
    generalize State.execLate _ i = r at hr ⊢
    cases r with
    | next t => exact hr
    | fault x => exact trivial
    | refused x => exact trivial
  · exact keepsForm_issue c quad h

/-! ### Time and the moves -/

@[simp] theorem wf_passCycles (k n : Nat) (h : s.memory.wf = true) : (s.passCycles k n).memory.wf = true := by
  unfold State.passCycles
  refine wf_ite h ?_
  extract_lets s1 x s2
  have h1 : s1.memory.wf = true :=
    wf_of_memory ((modCluster_memory _ _ _).trans ((passThreads_memory _ _ _).trans (convoyTime_memory _ _ _))) h
  have h2 : s2.memory.wf = true := wf_foldl (fun _ _ hv => wf_of_memory (tick_memory _ _) hv) _ h1
  exact wf_foldl (fun _ _ hv => wf_progress _ hv) _ h2

theorem wf_passTime (h : s.memory.wf = true) : s.passTime.memory.wf = true :=
  wf_foldl (fun _ _ hv => wf_passCycles _ _ hv) _ (wf_of_memory (modHub_memory _ _) h)

theorem keepsForm_runMove (m : Move) (h : s.memory.wf = true) : KeepsForm (s.runMove m) := by
  cases m with
  | event i => exact keepsForm_ite (keepsForm_exec i h) trivial
  | issue c quad => exact keepsForm_ite (keepsForm_issue c quad h) trivial
  | issueLate c quad => exact keepsForm_ite (keepsForm_issueLate c quad h) trivial
  | perform c n => exact wf_of_memory (perform_memory _ _ _) h
  | putOff k t => exact wf_of_memory (putOffUnit_memory _ _ _) h
  | answerFirst n => exact wf_of_memory (answerFirst_memory _ _) h
  | cycles k n => exact keepsForm_ite (wf_passCycles k n h) trivial
  | hub n => exact wf_of_memory (modHub_memory _ _) h
  | outside o => exact h
  | strike sector words bad => exact wf_of_memory (strike_memory _ _ _ _) h
  | ask q => exact wf_of_memory (answerHost_memory _ _) h

theorem keepsForm_turn (h : s.memory.wf = true) : KeepsForm s.turn := by
  unfold State.turn
  dsimp only
  split
  · exact keepsForm_issue _ _ h
  · exact wf_passTime h

theorem keepsForm_ownMove (h : s.memory.wf = true) : KeepsForm s.ownMove := by
  unfold State.ownMove
  split
  · exact wf_of_memory (perform_memory _ _ _) h
  · refine keepsForm_ite ?_ (keepsForm_turn h)
    split
    · exact keepsForm_exec _ h
    · exact keepsForm_turn h

theorem keepsForm_step (h : s.memory.wf = true) : KeepsForm (step s) := by
  have ht := wf_tidy h
  unfold step
  dsimp only
  split
  · exact keepsForm_runMove _ ht
  · exact keepsForm_ownMove ht

/-- Settles O57: each operation of the model either leaves memory as it is or writes it by Memory's own operations, which keep the canonical
form; so every meaning of the table and every move of the schedule keeps it. -/
theorem stepKeepsInvariant : Obligations.StepKeepsInvariant := by
  unfold Obligations.StepKeepsInvariant
  intro s t hs ht
  have h := keepsForm_step (s := s) hs
  rw [ht] at h
  exact h

/-- Settles O58: memory at reset holds no line. -/
theorem resetInvariant : Obligations.ResetInvariant := wf_reset

end Sys2Proof.Laws
end

