-- ==== Sys2Proof/Proofs/Scratchpad.lean ====
section
/-! SUPPORT. Scratchpad accesses: what a read and a write of bytes give and leave, and LDS and STS as a wave of one thread issues
them (O15). -/

namespace Sys2Proof.Laws

open Sys2Proof.Machine Sys2Proof.Claims

/-! ### The check of a lane -/

/-- Only what a check says of the thread's own lane counts. -/
theorem alone_of_check_eq {s : State} {i : Instr} {o : Op} {check check' : Lane → Option Trap} {t : Nat} {L : Lane}
    (h : s.Alone i o check t L) (e : check' L = check L) : s.Alone i o check' t L := by
  refine { h with passes := ?_ }
  have hp := h.passes
  unfold State.trapOf at hp ⊢
  rw [h.lane] at hp ⊢
  simpa [e] using hp

/-! ### Bytes -/

theorem tfind_spadPut (p : Tbl Byte) (off : Nat) (bs : List Byte) (a : Nat) :
    tfind (spadPut p off bs) a = if off ≤ a ∧ a < off + bs.length then bs[a - off]? else tfind p a := by
  induction bs generalizing p off with
  | nil =>
    rw [if_neg (by simp)]
    rfl
  | cons b bs ih =>
    rw [spadPut, ih, List.length_cons]
    obtain h | rfl | h := Nat.lt_trichotomy a off
    · rw [if_neg (by omega), if_neg (by omega), tfind_tset_other _ _ (by omega)]
    · simp
    · rw [tfind_tset_other _ _ (by omega)]
      by_cases hl : a < off + (bs.length + 1)
      · rw [if_pos (by omega), if_pos (by omega), show a - off = a - (off + 1) + 1 by omega, List.getElem?_cons_succ]
      · rw [if_neg (by omega), if_neg (by omega)]

/-- A write puts its bytes at its offset and leaves every other byte of every scratchpad. -/
theorem spadByte_spadWrite (s : State) (k off : Nat) (bs : List Byte) (c a : Nat) :
    ((s.spadWrite k off bs).core c).spadByte a =
      if c = k ∧ off ≤ a ∧ a < off + bs.length then bs[a - off]? else (s.core c).spadByte a := by
  unfold State.spadWrite
  by_cases hc : c = k
  · subst hc
    rw [core_modCore]
    unfold Core.spadByte
    simp only [tfind_spadPut, true_and]
    by_cases ha : off ≤ a ∧ a < off + bs.length
    · simp [ha, List.getElem?_eq_getElem (show a - off < bs.length by omega)]
    · simp [ha]
  · rw [core_modCore_other _ _ hc, if_neg (fun h => hc h.1)]

theorem spadRead_length (s : State) (k off n : Nat) : (s.spadRead k off n).1.length = n := by
  induction n generalizing s off with
  | zero => rfl
  | succ n ih => simp [State.spadRead, ih]

/-- A read draws free values for undefined bytes and changes nothing else. -/
theorem spadRead_state (s : State) (k off n : Nat) : ∃ m, (s.spadRead k off n).2 = { s with free := m } := by
  induction n generalizing s off with
  | zero => exact ⟨s.free, rfl⟩
  | succ n ih =>
    unfold State.spadRead
    dsimp only
    split
    · exact ih s (off + 1)
    · exact ih { s with free := s.free + 1 } (off + 1)

theorem readsAs_spadRead (s : State) (k off n : Nat) : ReadsAs (s.core k) off (s.spadRead k off n).1 := by
  induction n generalizing s off with
  | zero => exact fun j b hj => absurd hj (Nat.not_lt_zero j)
  | succ n ih =>
    intro j b hj hb
    unfold State.spadRead
    rcases j with _ | j
    · simp [show (s.core k).spadByte off = some b from hb]
    · rw [List.getElem?_cons_succ]
      rw [spadRead_length] at hj
      have hb' : (s.core k).spadByte (off + 1 + j) = some b := by rwa [Nat.add_right_comm]
      split
      · exact ih s (off + 1) j b (by rw [spadRead_length]; omega) hb'
      · exact ih { s with free := s.free + 1 } (off + 1) j b (by rw [spadRead_length]; omega) hb'

/-! ### The thread at issue -/

theorem core_modThread (s : State) (c g t : Nat) (f : Thread → Thread) (n : Nat) :
    (s.modThread c g t f).core n = { s.core n with slots := ((s.modThread c g t f).core n).slots } := by
  unfold State.modThread State.modGroup
  split
  · exact core_setGroup s c g _ n
  · rfl

theorem spadByte_modThread (s : State) (c g t : Nat) (f : Thread → Thread) (n a : Nat) :
    ((s.modThread c g t f).core n).spadByte a = (s.core n).spadByte a := by
  rw [core_modThread]
  rfl

@[simp] theorem fillAll_due (th : Thread) (r : Nat) (ws : List Word) : (th.fillAll r ws).due = th.due := putAll_due th r ws

theorem spadOnly_trans {s u v : State} {t : Nat} (hu : SpadOnly s u t) (hc : u.cur = s.cur) (hv : SpadOnly u v t) :
    SpadOnly s v t where
  memory := hv.memory.trans hu.memory
  rest := by
    obtain ⟨a1, a2, a3, a4, a5, a6⟩ := hu.rest
    obtain ⟨b1, b2, b3, b4, b5, b6⟩ := hv.rest
    exact ⟨b1.trans a1, b2.trans a2, b3.trans a3, b4.trans a4, b5.trans a5, b6.trans a6⟩
  cores c := by
    rw [hv.cores c, hu.cores c]
  groups c g h := (hv.groups c g (by rwa [hc])).trans (hu.groups c g h)
  group := by
    obtain ⟨ts, e⟩ := hu.group
    obtain ⟨us, e'⟩ := hv.group
    refine ⟨us, ?_⟩
    rw [hc] at e'
    rw [e', e, Option.map_map]
    rfl
  others x hx := by
    have := hv.others x hx
    rw [hc] at this
    exact this.trans (hu.others x hx)

theorem spadOnly_free (s : State) (m t : Nat) : SpadOnly s { s with free := m } t where
  memory := rfl
  rest := ⟨rfl, rfl, rfl, rfl, rfl, rfl⟩
  cores _ := rfl
  groups _ _ _ := rfl
  group := by
    refine ⟨((s.group? s.cur.core s.cur.slot).map (·.threads)).getD [], ?_⟩
    show s.group? s.cur.core s.cur.slot = _
    cases s.group? s.cur.core s.cur.slot <;> rfl
  others _ _ := rfl

theorem group_spadWrite (s : State) (k off : Nat) (bs : List Byte) (c g : Nat) :
    (s.spadWrite k off bs).group? c g = s.group? c g := by
  unfold State.spadWrite State.group?
  by_cases hc : c = k
  · subst hc
    rw [core_modCore]
  · rw [core_modCore_other _ _ hc]

theorem spadOnly_spadWrite (s : State) (k off : Nat) (bs : List Byte) (t : Nat) : SpadOnly s (s.spadWrite k off bs) t := by
  refine ⟨rfl, ⟨rfl, rfl, rfl, rfl, rfl, rfl⟩, fun c => ?_, fun c g _ => group_spadWrite s k off bs c g, ?_, fun x _ => ?_⟩
  · unfold State.spadWrite
    by_cases hc : c = k
    · subst hc
      rw [core_modCore]
    · rw [core_modCore_other _ _ hc]
  · rw [group_spadWrite]
    exact (spadOnly_free s 0 t).group
  · unfold State.thread?
    rw [group_spadWrite]

theorem spadOnly_modThread (s : State) (t : Nat) (f : Thread → Thread) :
    SpadOnly s (s.modThread s.cur.core s.cur.slot t f) t where
  memory := modThread_memory _ _ _ _ _
  rest := by
    have h := modThread_same s s.cur.core s.cur.slot t f
    exact ⟨h.hub, h.net, h.clusters, h.dies, h.vaults, h.errors⟩
  cores c := by
    rw [core_modThread]
  groups c g h := group_modGroup_other _ _ (Decidable.not_and_iff_not_or_not.1 h)
  group := by
    rw [group_modThread]
    cases s.group? s.cur.core s.cur.slot with
    | none => exact ⟨[], rfl⟩
    | some g => exact ⟨modAt f g.threads t, rfl⟩
  others x hx := thread_modThread_other _ _ (fun h => hx h.2.2)

/-! ### LDS -/

theorem spadWork_lds (L : Lane) (o : Op) : L.spadWork (.lds o) =
    { kind := .load, sa := L.sa, size := accessBytes L.o, count := accessRegs L.o, dest := L.dstReg (accessRegs L.o)
      sext := signedLoad L.fn, data := [], cmp := [] } := rfl

theorem accessBytes_pow (o : Op) : ∃ n, accessBytes o = 2 ^ n := by
  have hs : ∃ m, (accessSize o.fn.toNat).getD 4 = 2 ^ m := by
    unfold accessSize
    split
    · exact ⟨0, rfl⟩
    · split
      · exact ⟨1, rfl⟩
      · split
        · exact ⟨2, rfl⟩
        · split
          · exact ⟨3, rfl⟩
          · exact ⟨2, rfl⟩
  obtain ⟨m, hm⟩ := hs
  exact ⟨m + o.m.toNat / 2, by rw [accessBytes, hm, pow_add]⟩

theorem loadWords_eq_loadedWords (o : Op) (bs : List Byte) :
    loadWords (accessBytes o) (signedLoad o.fn.toNat) bs = loadedWords o bs := by
  unfold loadWords loadedWords
  obtain ⟨n, hn⟩ := accessBytes_pow o
  rw [hn]
  match n with
  | 0 => simp
  | 1 => simp
  | n + 2 =>
    have h4 : 2 ^ 2 ≤ 2 ^ (n + 2) := Nat.pow_le_pow_right (by omega) (by omega)
    rw [if_neg (by omega)]
    split
    · omega
    · omega
    · rfl

theorem spadDo_load {s : State} {c slot t k off : Nat} {w : SpadWork} (hk : w.kind = .load) (ha : spadAt c w.sa = some (k, off)) :
    s.spadDo c slot t w = (s.spadRead k off w.size).2.modThread c slot t
      (fun th => th.fillAll w.dest (loadWords w.size w.sext (s.spadRead k off w.size).1)) := by
  unfold State.spadDo State.spadLoad
  rw [hk, ha]
  rfl

theorem spadDo_store {s : State} {c slot t k off : Nat} {w : SpadWork} (hk : w.kind = .store) (ha : spadAt c w.sa = some (k, off)) :
    s.spadDo c slot t w = s.spadWrite k off w.data := by
  unfold State.spadDo State.spadStore
  rw [hk, ha]

/-- An access that is performed as its thread alone issues: the thread moves on, and what the access leaves stays. -/
theorem alone_spadOp {s : State} {i : Instr} {o : Op} {t : Nat} {L : Lane} (h : s.Alone i o (Lane.spadAccessTrap i) t L)
    {v : State} {th : Thread} (hv : s.spadDo L.c L.slot L.tid (L.spadWork i) = v) (hc : v.cur = s.cur)
    (hth : v.thread? s.cur.core s.cur.slot t = some th) (hd : th.due = []) (hs : SpadOnly s v t) :
    ∃ u, s.spadOp i o = u ∧ u.thread? L.c L.slot t = some (after s th) ∧
      (∀ c a, (u.core c).spadByte a = (v.core c).spadByte a) ∧ SpadOnly s u t := by
  obtain ⟨-, hLc, hLs, -, -⟩ := h.place
  refine ⟨v.moveTo [t] s.cur.next, ?_, ?_, fun c a => spadByte_modThread _ _ _ _ _ _ _, ?_⟩
  · rw [← hv] at hc hth ⊢
    exact h.sliceOp hc hth hd
  · have hm := thread_moveTo v [t] s.cur.next t
    rw [hc, hth, if_pos (List.mem_singleton_self t)] at hm
    rw [hLc, hLs, hm]
    rfl
  · rw [← hc]
    exact spadOnly_trans hs hc (spadOnly_modThread v t _)

theorem lds_gives {o : Op} {s : State} {t k off : Nat} {L : Lane}
    (h : s.Alone (.lds o) o (fun L => spadTrap L L.sa (accessBytes o) (accessBytes o)) t L) (ha : spadAt L.c L.sa = some (k, off)) :
    ∃ u bs, exec (.lds o) s = .next u ∧ bs.length = accessBytes o ∧ ReadsAs (s.core k) off bs ∧
      u.thread? L.c L.slot t = some (after s (L.th.fillAll (L.dstReg (accessRegs o)) (loadedWords o bs))) ∧
      (∀ c a, (u.core c).spadByte a = (s.core c).spadByte a) ∧ SpadOnly s u t := by
  obtain ⟨-, hc, hg, ht, ho⟩ := h.place
  have hcheck : Lane.spadAccessTrap (.lds o) L = spadTrap L L.sa (accessBytes o) (accessBytes o) := by
    simp [Lane.spadAccessTrap, Lane.spadWork, ho]
  obtain ⟨m, hm⟩ := spadRead_state s k off (accessBytes o)
  let bs := (s.spadRead k off (accessBytes o)).1
  let fill := fun th : Thread => th.fillAll (L.dstReg (accessRegs o)) (loadedWords o bs)
  have hdo : s.spadDo L.c L.slot L.tid (L.spadWork (.lds o)) = ({ s with free := m } : State).modThread s.cur.core s.cur.slot t fill := by
    rw [spadDo_load (w := L.spadWork (.lds o)) rfl ha, spadWork_lds, hc, hg, ht, Lane.fn, ho]
    dsimp only
    rw [hm, loadWords_eq_loadedWords]
  have hth : (({ s with free := m } : State).modThread s.cur.core s.cur.slot t fill).thread? s.cur.core s.cur.slot t =
      some (fill L.th) := by
    rw [thread_modThread]
    exact congrArg (Option.map fill) h.thread
  obtain ⟨u, hu, hut, hub, hus⟩ := alone_spadOp (alone_of_check_eq h hcheck) hdo (cur_modThread _ _ _ _ _) hth
    ((fillAll_due _ _ _).trans h.calm) (spadOnly_trans (spadOnly_free s m t) rfl (spadOnly_modThread _ t fill))
  exact ⟨u, bs, congrArg _ hu, spadRead_length _ _ _ _, readsAs_spadRead _ _ _ _, hut,
    fun c a => (hub c a).trans (spadByte_modThread _ _ _ _ _ _ _), hus⟩

/-! ### STS -/

theorem sts_puts {o : Op} {s : State} {t k off : Nat} {L : Lane}
    (h : s.Alone (.sts o) o (fun L => spadTrap L L.sa (accessBytes o) (accessBytes o)) t L) (ha : spadAt L.c L.sa = some (k, off)) :
    ∃ u, exec (.sts o) s = .next u ∧ u.thread? L.c L.slot t = some (after s L.th) ∧
      (∀ c a, (u.core c).spadByte a =
        if c = k ∧ off ≤ a ∧ a < off + L.storeData.length then L.storeData[a - off]? else (s.core c).spadByte a) ∧
      SpadOnly s u t := by
  obtain ⟨-, -, -, -, ho⟩ := h.place
  have hcheck : Lane.spadAccessTrap (.sts o) L = spadTrap L L.sa (accessBytes o) (accessBytes o) := by
    simp [Lane.spadAccessTrap, Lane.spadWork, ho]
  have hdo : s.spadDo L.c L.slot L.tid (L.spadWork (.sts o)) = s.spadWrite k off L.storeData := spadDo_store rfl ha
  have hs := spadOnly_spadWrite s k off L.storeData t
  have hth : (s.spadWrite k off L.storeData).thread? s.cur.core s.cur.slot t = some L.th := by
    unfold State.thread?
    rw [group_spadWrite]
    exact h.thread
  obtain ⟨u, hu, hut, hub, hus⟩ := alone_spadOp (alone_of_check_eq h hcheck) hdo rfl hth h.calm hs
  exact ⟨u, congrArg _ hu, hut, fun c a => (hub c a).trans (spadByte_spadWrite _ _ _ _ _ _), hus⟩

/-- Settles O15, from what a read and a write of bytes give and leave. -/
theorem scratchpadAccesses : Obligations.ScratchpadAccesses := by
  unfold Obligations.ScratchpadAccesses
  exact ⟨fun _ _ _ _ _ _ h ha => lds_gives h ha, fun _ _ _ _ _ _ h ha => sts_puts h ha⟩

end Sys2Proof.Laws
end

