-- ==== Sys2Proof/Proofs/ThermalTrip.lean ====
section
/-! SUPPORT. A thermal trip (O51): a store that waits at a lost vault, of a line of another die, is performed there, and its bytes go
where its message says, which may be back on the die that tripped. -/

namespace Sys2Proof.Laws

open Sys2Proof.Machine Sys2Proof.Claims

/-- A store to the line at 0x20000, of vault 64 on die 1, waits behind an exclusive lease in the table of vault 0 on die 0; the byte that
it carries is addressed to 0, in vault 0. -/
def strayStore : State :=
  { State.reset with vaults := [(0, { Vault.reset with
      excls := [{ pa := 0, key := 0, core := 0, held := [(0, .strStore 0 0 0x20000 0 [(0, 5)])], recalled := true }] })] }

/-- What a sample of 125.25 °C in vault 0 leaves in cell 0. -/
def cellAfterTrip : Option Byte :=
  match exec (.tempSample 0 501) strayStore with
  | .next u => tfind u.memory.cells 0
  | _ => none

theorem cellAfterTrip_written : cellAfterTrip = some 5 := by decide +kernel

/-- Refutes O51: the trip of die 0 performs the held store, whose line has its home on die 1, and the byte that it carries for cell 0
stands there afterwards, where the statement has die 0's memory lost. Nothing in the statement ties a held store's bytes to its line. -/
theorem not_heat : ¬ Obligations.Heat := by
  unfold Obligations.Heat
  intro h
  obtain ⟨-, trips⟩ := h.1 strayStore 0 501 (by decide) (by decide)
  obtain ⟨u, hu, -, -, lost, -⟩ := trips (by decide)
  have written := cellAfterTrip_written
  rw [cellAfterTrip, hu] at written
  exact absurd ((lost 0 (by decide)).symm.trans written) (by decide)

end Sys2Proof.Laws
end

