-- ==== Sys2Proof/Proofs/PlaneArray.lean ====
section
/-! SUPPORT. The plane array: the tile that an operation writes, and the signers that it releases (O49). -/

namespace Sys2Proof.Laws

open Sys2Proof.Machine Sys2Proof.Claims

/-! ### The tile -/

/-- A table built along a list of numbers, each number's entry under itself. -/
theorem tfind_filterMap {α : Type} {g : Nat → Option (Nat × α)} (hg : ∀ k e, g k = some e → e.1 = k) (l : List Nat) (m : Nat) :
    tfind (l.filterMap g) m = if m ∈ l then (g m).map (·.2) else none := by
  induction l with
  | nil => rfl
  | cons k l ih =>
    rw [List.filterMap_cons]
    by_cases hm : m = k
    · subst hm
      cases h : g m with
      | none => simp [ih, h]
      | some e => simp [tfind, ← hg m e h]
    · cases h : g k with
      | none => simp [ih, hm]
      | some e => simp [tfind, hg k e h, ih, hm, Ne.symm hm]

/-- The element of row i and column j after an operation. -/
theorem planeTile_element (p : Plane) (old : Nat → Nat → Word) (rows cols : List (Option (List Block))) {i j : Nat} (hi : i < 64)
    (hj : j < 64) :
    tget 0 (planeTile p old rows cols) (64 * i + j) = BitVec.ofNat 32 (accumulate (if p.afresh then 0 else (old i j).toNat)
      (products p.kblk (rows.getD i none) (cols.getD j none))) := by
  have hr : (64 * i + j) / 64 = i := by omega
  have hc : (64 * i + j) % 64 = j := by omega
  unfold tget planeTile
  rw [tfind_filterMap, if_pos (List.mem_range.2 (by omega)), hr, hc]
  · dsimp only
    generalize accumulate (if p.afresh then 0 else (old i j).toNat) (products p.kblk (rows.getD i none) (cols.getD j none)) = v
    by_cases hv : v = 0 <;> simp [hv]
  · intro k e he
    obtain ⟨-, he⟩ := Option.ite_none_left_eq_some.1 he
    exact (congrArg Prod.fst (Option.some.inj he)).symm

/-- Rows that signers supplied in registers are read from the operation alone. -/
theorem planeRows_registers (s : State) (c : Nat) {p : PlaneSide} (kblk : Nat) (h : p.desc = none) :
    s.planeRows c p kblk = ((List.range 64).map (rowOf p), s) := by
  unfold State.planeRows
  rw [h]
  rfl

theorem rowOf_getD (p : PlaneSide) {i : Nat} (hi : i < 64) : ((List.range 64).map (rowOf p)).getD i none = rowOf p i := by
  rw [List.getD_eq_getElem?_getD, List.getElem?_map, List.getElem?_range hi]
  rfl

/-! ### The signers -/

/-- A thread with no deferred trap due settles as it stands. -/
theorem settle_not_due {s : State} {c g t : Nat} {th : Thread} (h : s.thread? c g t = some th) (hd : th.due = []) :
    s.settle c g t = s := by
  unfold State.settle
  rw [h]
  simp [hd]

/-- The one signer that waits goes on past its MMA. -/
theorem releaseSigners_one {s : State} {c g t : Nat} {next : Dword} {th : Thread} {j since : Nat} {ended : Bool}
    (h : s.thread? c g t = some th) (hw : th.wait = some ⟨.signature j, since, ended⟩) (hd : th.due = []) :
    s.releaseSigners c g [(t, next)] = s.modThread c g t fun x => { x with wait := none, pc := next } := by
  simp only [State.releaseSigners, List.foldl_cons, List.foldl_nil, h, hw]
  refine settle_not_due (th := { th with wait := none, pc := next }) ?_ hd
  rw [thread_modThread, h]
  rfl

/-! ### Starting and completing -/

theorem planeOpStart_waits {s : State} {c : Nat} {p : Plane} {rest : List Plane} (hq : (s.core c).planeQ = p :: rest)
    (h : (s.core c).plane ≠ none ∨ (s.core c).hot = true) : exec (.planeOpStart c) s = .next s := by
  show execPlaneOpStart c s = _
  simp only [execPlaneOpStart, hq]
  rw [if_pos]
  simpa [Option.isSome_iff_ne_none] using h

theorem planeOpStart_takes {s : State} {c : Nat} {p : Plane} {rest : List Plane} (hq : (s.core c).planeQ = p :: rest)
    (hp : (s.core c).plane = none) (hh : (s.core c).hot = false) :
    exec (.planeOpStart c) s = .next (s.setCore c { s.core c with plane := some p, planeQ := rest }) := by
  show execPlaneOpStart c s = _
  simp [execPlaneOpStart, hq, hp, hh]

/-- The group after an operation of the register form: its tile is the new one, and full. -/
def planeDone (g : Group) (p : Plane) : Group :=
  let sum := planeTile p (fun i j => g.acc p.tile i j) ((List.range 64).map (rowOf p.a)) ((List.range 64).map (rowOf p.b))
  { g with x := tset g.x p.tile sum }.tileFill p.tile

theorem planeOpComplete_registers {s : State} {c : Nat} {p : Plane} {g : Group} (hp : (s.core c).plane = some p)
    (hg : s.group? c p.slot = some g) (ha : p.a.desc = none) (hb : p.b.desc = none) :
    exec (.planeOpComplete c) s = .next (((s.setGroup c p.slot (planeDone g p)).modCore c fun k => { k with plane := none }).releaseSigners
      c p.slot p.release) := by
  show execPlaneOpComplete c s = _
  simp only [execPlaneOpComplete, hp, hg, planeRows_registers _ _ _ ha, planeRows_registers _ _ _ hb, State.modGroup]
  rfl

theorem planeDone_acc (g : Group) (p : Plane) {i j : Nat} (hi : i < 64) (hj : j < 64) :
    (planeDone g p).acc p.tile i j = BitVec.ofNat 32 (accumulate (if p.afresh then 0 else (g.acc p.tile i j).toNat)
      (products p.kblk (rowOf p.a i) (rowOf p.b j))) := by
  show tget 0 (tget [] (tset g.x p.tile _) p.tile) (64 * i + j) = _
  rw [tget_tset_self, planeTile_element _ _ _ _ hi hj, rowOf_getD _ hi, rowOf_getD _ hj]

theorem planeDone_acc_other (g : Group) (p : Plane) {x : Nat} (i j : Nat) (h : x ≠ p.tile) : (planeDone g p).acc x i j = g.acc x i j := by
  show tget 0 (tget [] (tset g.x p.tile _) x) (64 * i + j) = _
  rw [tget_tset_other _ _ _ h]
  rfl

theorem planeDone_full (g : Group) (p : Plane) : p.tile ∉ (planeDone g p).xEmpty ∧ p.tile ∈ (planeDone g p).xNewly :=
  ⟨fun h => by simpa using (List.mem_filter.1 h).2, List.mem_cons_self⟩

/-- Settles O49, from the elements of the tile written and the release of its signer. -/
theorem planeArray : Obligations.PlaneArray := by
  unfold Obligations.PlaneArray
  refine ⟨fun s c p rest hq => ⟨planeOpStart_waits hq, fun hp hh => ⟨_, planeOpStart_takes hq hp hh, ?_⟩⟩, ?_⟩
  · rw [core_setCore]
    exact ⟨rfl, rfl⟩
  intro s c t p g th next hp hg ha hb hr ht hd hw
  obtain ⟨j, since, hw⟩ := hw
  let s1 := (s.setGroup c p.slot (planeDone g p)).modCore c fun k => { k with plane := none }
  let go := fun x : Thread => { x with wait := none, pc := next }
  have hg1 : s1.group? c p.slot = some (planeDone g p) := by
    show tfind ((State.modCore _ c _).core c).slots p.slot = _
    rw [core_modCore]
    exact group_setGroup s c p.slot _
  have ht1 : s1.thread? c p.slot t = some th := by
    show (s1.group? c p.slot).bind _ = _
    rw [hg1]
    exact ht
  have hu : exec (.planeOpComplete c) s = .next (s1.modThread c p.slot t go) := by
    rw [planeOpComplete_registers hp hg ha hb, hr]
    exact congrArg _ (releaseSigners_one ht1 hw hd)
  obtain ⟨full, newly⟩ := planeDone_full g p
  refine ⟨_, { planeDone g p with threads := modAt go g.threads t }, hu, ?_, ?_, full, newly, ?_, fun x i j => planeDone_acc_other g p i j,
    fun i j => planeDone_acc g p⟩
  · rw [core_modThread]
    show (State.core s1 c).plane = none
    rw [core_modCore]
  · rw [group_modThread, hg1]
    rfl
  · rw [modAt_get, if_pos rfl, ht]
    rfl

end Sys2Proof.Laws
end

