-- ==== Sys2Proof/Proofs/HomeLines.lean ====
section
/-! SUPPORT. Lines at home: where the bytes of a line stand, what writes of a line's bytes leave there and elsewhere, and what a read of
a line gives. -/

namespace Sys2Proof.Laws

open Sys2Proof.Machine Sys2Proof.Claims

/-! ### Where a line stands -/

theorem lineOf_add_mod (pa : Nat) : lineOf pa + pa % 256 = pa := by
  unfold lineOf
  omega

theorem interleavedCell_line (pa : Nat) : interleavedCell pa = interleavedCell (lineOf pa) + pa % 256 ∧ interleavedCell (lineOf pa) % 256 = 0 := by
  have hg : lineOf pa / 2048 = pa / 2048 := by unfold lineOf; omega
  have hm : pa % 2048 = lineOf pa % 2048 + pa % 256 := by unfold lineOf; omega
  have ha : lineOf pa % 2048 % 256 = 0 := by unfold lineOf; omega
  unfold interleavedCell
  dsimp only
  rw [hg, hm]
  generalize pa / 2048 % 256 ^^^ pa / 2048 / 256 % 256 = v
  omega

theorem dieCell_line (d x : Nat) : dieCell d x = dieCell d (lineOf x) + x % 256 ∧ dieCell d (lineOf x) % 256 = 0 := by
  have hg : lineOf x / 2048 = x / 2048 := by unfold lineOf; omega
  have hm : x % 2048 = lineOf x % 2048 + x % 256 := by unfold lineOf; omega
  have ha : lineOf x % 2048 % 256 = 0 := by unfold lineOf; omega
  unfold dieCell
  dsimp only
  rw [hg, hm]
  generalize x / 2048 % 64 ^^^ x / 2048 / 64 % 64 = v
  omega

theorem dieViewOf_line (pa : Nat) : dieViewOf (lineOf pa) = dieViewOf pa := by
  unfold dieViewOf
  congr 1
  funext d
  rw [Bool.eq_iff_iff]
  simp only [Bool.and_eq_true, decide_eq_true_eq]
  simp only [dieBase, dieSize, lineOf]
  omega

/-- Outside far memory an address is served where its line is, at its offset. -/
theorem cellOf_line (s : State) {pa : Nat} (h : ¬ (farBase ≤ pa ∧ pa < farBase + farSize)) :
    s.cellOf pa = (s.cellOf (lineOf pa)).map (· + pa % 256) ∧ ∀ c, s.cellOf (lineOf pa) = some c → c % 256 = 0 := by
  have hf : ¬ (farBase ≤ lineOf pa ∧ lineOf pa < farBase + farSize) := by
    simp only [farBase, farSize, lineOf] at h ⊢
    omega
  unfold State.cellOf
  by_cases hs : pa < stackedSize
  · have hl : lineOf pa < stackedSize := by unfold lineOf; omega
    have hq : lineOf pa / 0x40000000 = pa / 0x40000000 := by unfold lineOf; omega
    obtain ⟨h1, h2⟩ := interleavedCell_line pa
    rw [if_pos hs, if_pos hl, hq]
    split
    · exact ⟨rfl, by simp⟩
    · refine ⟨?_, fun c hc => ?_⟩
      · rw [Option.map_some, h1]
      · cases hc
        exact h2
  · have hl : ¬ lineOf pa < stackedSize := by simp only [lineOf, stackedSize] at hs ⊢; omega
    rw [if_neg hs, if_neg h, if_neg hl, if_neg hf, dieViewOf_line]
    cases hd : dieViewOf pa with
    | none => exact ⟨rfl, by simp⟩
    | some d =>
      have hb : dieBase d ≤ pa := by
        have := List.find?_some hd
        simp only [Bool.and_eq_true, decide_eq_true_eq] at this
        exact this.1
      have hx : lineOf pa - dieBase d = lineOf (pa - dieBase d) ∧ (pa - dieBase d) % 256 = pa % 256 := by
        simp only [lineOf, dieBase] at hb ⊢
        omega
      have hq : lineOf (pa - dieBase d) / 0x10000000 = (pa - dieBase d) / 0x10000000 := by unfold lineOf; omega
      obtain ⟨h1, h2⟩ := dieCell_line d (pa - dieBase d)
      dsimp only
      rw [hx.1, hq]
      split
      · refine ⟨?_, fun c hc => ?_⟩
        · rw [Option.map_some, h1, hx.2]
        · cases hc
          exact h2
      · exact ⟨rfl, by simp⟩

theorem cellOf_far {s : State} {pa c : Nat} (h : s.cellOf pa = some c) (hc : c < farCell) :
    ¬ (farBase ≤ pa ∧ pa < farBase + farSize) := by
  intro hf
  unfold State.cellOf at h
  have hs : ¬ pa < stackedSize := by
    simp only [farBase, stackedSize] at hf ⊢
    omega
  rw [if_neg hs, if_pos hf] at h
  split at h
  · have := Option.some.inj h
    omega
  · cases h

/-- The bytes of a line stand in a row of cells. -/
theorem cellOf_of_homeCell {s : State} {pa cell : Nat} (h : s.homeCell pa = some cell) (hc : cell < farCell) {a : Nat}
    (ha : lineOf a = lineOf pa) : s.cellOf a = some (cell + a % 256) ∧ cell % 256 = 0 := by
  unfold State.homeCell at h
  have hf : ¬ (farBase ≤ a ∧ a < farBase + farSize) := by
    have := cellOf_far h hc
    rw [← ha] at this
    simp only [lineOf, farBase, farSize] at this ⊢
    omega
  obtain ⟨h1, h2⟩ := cellOf_line s hf
  rw [ha] at h1 h2
  exact ⟨by rw [h1, h]; rfl, h2 _ h⟩

/-- A stacked cell belongs to the line whose first cell its number gives. -/
theorem homeCell_of_cellOf {s : State} {pa c : Nat} (h : s.cellOf pa = some c) (hc : c < farCell) :
    s.homeCell pa = some (c / 256 * 256) := by
  obtain ⟨h1, h2⟩ := cellOf_line s (cellOf_far h hc)
  unfold State.homeCell
  rw [h] at h1
  cases hl : s.cellOf (lineOf pa) with
  | none => simp [hl] at h1
  | some d =>
    have hd := h2 d hl
    rw [hl, Option.map_some, Option.some.injEq] at h1
    congr 1
    omega

/-! ### Writes of one byte -/

/-- A write of one byte leaves every other byte of its line that its key reads. -/
theorem byteAt_writeByte_line {s : State} {key pa cell a : Nat} (b : Byte) {x : Byte} (h : s.homeCell pa = some cell) (hc : cell < farCell)
    (ha : lineOf a = lineOf pa) (hne : a ≠ pa) (hx : s.byteAt key a = some x) : (s.writeByte key pa b).byteAt key a = some x := by
  obtain ⟨ca, h0⟩ := cellOf_of_homeCell h hc ha
  obtain ⟨cp, -⟩ := cellOf_of_homeCell h hc (rfl : lineOf pa = lineOf pa)
  have hoff : a % 256 ≠ pa % 256 := fun e => hne (by rw [← lineOf_add_mod a, ← lineOf_add_mod pa, ha, e])
  have hu : s.writeByte key pa b = { s with memory := s.memory.put (cell + pa % 256) (s.sealFor key pa) b } := by
    unfold State.writeByte
    rw [cp]
  unfold State.byteAt at hx ⊢
  rw [writeByte_cellOf, ca]
  rw [ca] at hx
  dsimp only at hx ⊢
  split at hx
  · next hs =>
    rw [beq_iff_eq] at hs
    rw [hu]
    show (if (tfind (s.memory.put _ _ b).seals _ == some (s.sealFor key a)) = true then tfind (s.memory.put _ _ b).cells _ else none) = some x
    by_cases hsec : (cell + a % 256) / 64 = (cell + pa % 256) / 64
    · have he : s.sealFor key pa = s.sealFor key a := by
        unfold State.sealFor
        congr 1
        have := lineOf_add_mod a
        have := lineOf_add_mod pa
        rw [ha] at *
        unfold lineOf at *
        omega
      have hp : tfind s.memory.seals ((cell + pa % 256) / 64) = some (s.sealFor key pa) := by rw [← hsec, hs, he]
      rw [put_same_seal s.memory b hp (by omega), hsec, (put_self _ _ _ _).2, he, beq_self_eq_true, if_pos rfl, hx]
    · obtain ⟨h1, h2⟩ := put_cells_other s.memory (s.sealFor key pa) b hsec
      rw [h1, h2, hs, beq_self_eq_true, if_pos rfl, hx]
  · cases hx

/-- It leaves every byte of another sector. -/
theorem byteAt_writeByte_other {s : State} {key pa cell : Nat} (b : Byte) (h : s.cellOf pa = some cell) (k a : Nat)
    (ha : ∀ c, s.cellOf a = some c → c / 64 ≠ cell / 64) : (s.writeByte key pa b).byteAt k a = s.byteAt k a := by
  have hu : s.writeByte key pa b = { s with memory := s.memory.put cell (s.sealFor key pa) b } := by
    unfold State.writeByte
    rw [h]
  unfold State.byteAt
  rw [writeByte_cellOf]
  cases hc : s.cellOf a with
  | none => rfl
  | some c =>
    obtain ⟨h1, h2⟩ := put_cells_other s.memory (s.sealFor key pa) b (ha c hc)
    rw [hu]
    show (if (tfind (s.memory.put _ _ b).seals _ == some (s.sealFor k a)) = true then tfind (s.memory.put _ _ b).cells _ else none) = _
    rw [h1, h2]

/-! ### Writes of a line's bytes -/

@[simp] theorem writeMem_cellOf (s : State) (key : Nat) (data : List (Nat × Byte)) (n : Nat) : (s.writeMem key data).cellOf n = s.cellOf n := by
  induction data generalizing s with
  | nil => rfl
  | cons e data ih => rw [State.writeMem, ih, writeByte_cellOf]

theorem writeByte_homeCell (s : State) (key pa : Nat) (b : Byte) (n : Nat) : (s.writeByte key pa b).homeCell n = s.homeCell n :=
  writeByte_cellOf s key pa b _

section

variable {s : State} {key pa cell : Nat} {data : List (Nat × Byte)}

/-- Of a line that is written, what its key reads at an address that is not written stays. -/
theorem byteAt_writeMem_kept (h : s.homeCell pa = some cell) (hc : cell < farCell) (hd : ∀ e ∈ data, lineOf e.1 = lineOf pa) {a : Nat}
    {x : Byte} (ha : lineOf a = lineOf pa) (hn : a ∉ data.map (·.1)) (hx : s.byteAt key a = some x) :
    (s.writeMem key data).byteAt key a = some x := by
  induction data generalizing s with
  | nil => exact hx
  | cons e data ih =>
    obtain ⟨he, hd⟩ := List.forall_mem_cons.1 hd
    rw [List.map_cons, List.mem_cons, not_or] at hn
    have h1 : s.homeCell e.1 = some cell := by
      unfold State.homeCell
      rw [he]
      exact h
    exact ih ((writeByte_homeCell ..).trans h) hd hn.2 (byteAt_writeByte_line _ h1 hc (ha.trans he.symm) hn.1 hx)

/-- Each byte that is written stands at its address. -/
theorem byteAt_writeMem_written (h : s.homeCell pa = some cell) (hc : cell < farCell) (hd : ∀ e ∈ data, lineOf e.1 = lineOf pa)
    (hu : (data.map (·.1)).Nodup) {e : Nat × Byte} (he : e ∈ data) : (s.writeMem key data).byteAt key e.1 = some e.2 := by
  induction data generalizing s with
  | nil => cases he
  | cons f data ih =>
    obtain ⟨hf, hd⟩ := List.forall_mem_cons.1 hd
    rw [List.map_cons, List.nodup_cons] at hu
    have hs := (writeByte_homeCell s key f.1 f.2 pa).trans h
    obtain hef | he := List.mem_cons.1 he
    · rw [hef]
      exact byteAt_writeMem_kept hs hc hd hf hu.1 (byteAt_writeByte_self _ (cellOf_of_homeCell h hc hf).1)
    · exact ih hs hd hu.2 he

/-- A byte of a sector that is not written stays. -/
theorem byteAt_writeMem_other (h : s.homeCell pa = some cell) (hc : cell < farCell) (hd : ∀ e ∈ data, lineOf e.1 = lineOf pa) (k a : Nat)
    (ha : ∀ e ∈ data, ∀ c, s.cellOf a = some c → c / 64 ≠ (cell + e.1 % 256) / 64) :
    (s.writeMem key data).byteAt k a = s.byteAt k a := by
  induction data generalizing s with
  | nil => rfl
  | cons e data ih =>
    obtain ⟨he, hd⟩ := List.forall_mem_cons.1 hd
    obtain ⟨h1, ha⟩ := List.forall_mem_cons.1 ha
    rw [State.writeMem, ih ((writeByte_homeCell ..).trans h) hd (by simpa using ha)]
    exact byteAt_writeByte_other _ (cellOf_of_homeCell h hc he).1 k a h1

end

/-! ### Bytes with their addresses -/

theorem mem_zipFrom {pa : Nat} {bs : List Byte} {e : Nat × Byte} : e ∈ zipFrom pa bs ↔ ∃ j, e.1 = pa + j ∧ bs[j]? = some e.2 := by
  obtain ⟨a, b⟩ := e
  simp only [zipFrom, List.mem_map, Prod.mk.injEq, Prod.exists]
  constructor
  · rintro ⟨j, x, hm, rfl, rfl⟩
    obtain ⟨i, hi, he⟩ := List.mem_iff_getElem.1 hm
    rw [List.getElem_zip, List.getElem_range, Prod.mk.injEq] at he
    obtain ⟨rfl, rfl⟩ := he
    exact ⟨i, rfl, List.getElem?_eq_getElem _⟩
  · rintro ⟨j, rfl, hj⟩
    obtain ⟨hl, rfl⟩ := List.getElem?_eq_some_iff.1 hj
    refine ⟨j, _, List.mem_iff_getElem.2 ⟨j, by simpa using hl, ?_⟩, rfl, rfl⟩
    rw [List.getElem_zip, List.getElem_range]

theorem zipFrom_addresses (pa : Nat) (bs : List Byte) : (zipFrom pa bs).map (·.1) = (List.range bs.length).map (pa + ·) := by
  have h : ((List.range bs.length).zip bs).map (·.1) = List.range bs.length := List.map_fst_zip (by simp)
  conv_rhs => rw [← h]
  simp [zipFrom]

theorem zipFrom_nodup (pa : Nat) (bs : List Byte) : ((zipFrom pa bs).map (·.1)).Nodup := by
  rw [zipFrom_addresses]
  exact List.nodup_range.map fun a b h => Nat.add_left_cancel h

theorem lineOf_add {pa j : Nat} (h : pa % 256 + j < 256) : lineOf (pa + j) = lineOf pa := by
  unfold lineOf
  omega

theorem zipFrom_line {pa : Nat} {bs : List Byte} (h : pa % 256 + bs.length ≤ 256) : ∀ e ∈ zipFrom pa bs, lineOf e.1 = lineOf pa := by
  intro e he
  obtain ⟨j, hj, hb⟩ := mem_zipFrom.1 he
  obtain ⟨hl, -⟩ := List.getElem?_eq_some_iff.1 hb
  rw [hj]
  exact lineOf_add (by omega)

end Sys2Proof.Laws
end

