-- ==== Sys2Proof/Proofs/HomeStores.lean ====
section
/-! SUPPORT. What the operations at home do to one stacked line of a vault that has power: its times, its bytes, and the rest. -/

namespace Sys2Proof.Laws

open Sys2Proof.Machine Sys2Proof.Claims

/-! ### Reads -/

theorem readMem_length (s : State) (key pa n : Nat) : (s.readMem key pa n).1.length = n := by
  induction n generalizing s pa with
  | zero => rfl
  | succ n ih => simp [State.readMem, ih]

/-- A read draws free values for undefined bytes and changes nothing else. -/
theorem readMem_state (s : State) (key pa n : Nat) : ∃ f, (s.readMem key pa n).2 = { s with free := f } := by
  induction n generalizing s pa with
  | zero => exact ⟨s.free, rfl⟩
  | succ n ih =>
    unfold State.readMem
    dsimp only
    split
    · exact ih s (pa + 1)
    · exact ih { s with free := s.free + 1 } (pa + 1)

theorem readsMemory_readMem (s : State) (key pa n : Nat) : ReadsMemory s key pa (s.readMem key pa n).1 := by
  induction n generalizing s pa with
  | zero => exact fun j b hj => absurd hj (Nat.not_lt_zero j)
  | succ n ih =>
    intro j b hj hb
    rw [readMem_length] at hj
    unfold State.readMem
    cases j with
    | zero => simp [show s.byteAt key pa = some b from hb]
    | succ j =>
      rw [List.getElem?_cons_succ]
      have hb' : s.byteAt key (pa + 1 + j) = some b := by rwa [Nat.add_right_comm]
      split
      · exact ih s (pa + 1) j b (by rw [readMem_length]; omega) hb'
      · exact ih { s with free := s.free + 1 } (pa + 1) j b (by rw [readMem_length]; omega) hb'

/-- Where every byte is defined a read gives them and draws none. -/
theorem readMem_peek {s : State} {key pa n : Nat} {bs : List Byte} (h : s.peek key pa n = some bs) : s.readMem key pa n = (bs, s) := by
  induction n generalizing pa bs with
  | zero =>
    cases h
    rfl
  | succ n ih =>
    have hp : s.peek key pa (n + 1) = (s.byteAt key pa).bind fun b => (s.peek key (pa + 1) n).map (b :: ·) := by
      unfold State.peek
      rw [List.range_succ_eq_map, List.mapM_cons, List.mapM_map]
      simp only [Nat.add_zero, Function.comp_def, Nat.succ_eq_add_one, Nat.add_comm _ 1, ← Nat.add_assoc]
      generalize (List.mapM (fun k => s.byteAt key (1 + pa + k)) (List.range n) : Option (List Byte)) = t
      cases s.byteAt key pa <;> cases t <;> rfl
    rw [hp] at h
    cases hb : s.byteAt key pa with
    | none => simp [hb] at h
    | some b =>
      rw [hb, Option.bind_some, Option.map_eq_some_iff] at h
      obtain ⟨t, ht, rfl⟩ := h
      simp only [State.readMem, hb, ih ht]

/-! ### Times -/

theorem side_setSide (s : State) (n : Nat) (x : Side) : (s.setSide n x).side n = x := by
  show tget (s.memory.sideDefault n) (s.memory.putSide n x).sides n = x
  unfold Memory.putSide tdel
  dsimp only
  split
  · next h => rw [tget, tfind_filter s.memory.sides (fun k => k != n)]; simp [h]
  · exact tget_tset_self _ _ _ _

theorem side_setTimes {s : State} {cell : Nat} (w r : Dword) (hc : cell < farCell) :
    (s.setTimes cell w r).side (cell / 256) = { s.side (cell / 256) with wts := w, rts := r } := by
  unfold State.setTimes
  rw [if_pos hc]
  exact side_setSide ..

theorem setTimes_frame (s : State) {cell : Nat} (w r : Dword) (hc : cell < farCell) :
    s.setTimes cell w r = { s with memory := { s.memory with sides := (s.setTimes cell w r).memory.sides } } := by
  unfold State.setTimes
  rw [if_pos hc]
  rfl

theorem sameBytes_setTimes (s : State) {cell : Nat} (w r : Dword) (hc : cell < farCell) : SameBytes s (s.setTimes cell w r) := by
  rw [setTimes_frame s w r hc]
  exact fun _ _ => rfl

theorem timed_setTimes (s : State) {cell : Nat} (w r : Dword) (hc : cell < farCell) : Timed (s.setTimes cell w r) cell w r := by
  unfold Timed
  rw [side_setTimes w r hc]
  exact ⟨rfl, rfl⟩

theorem times_of_timed {s : State} {cell : Nat} {w r : Dword} (hc : cell < farCell) (h : Timed s cell w r) : s.times cell = (w, r) := by
  unfold State.times
  rw [if_pos hc]
  exact Prod.ext h.1 h.2

/-! ### Bytes stored at home -/

theorem writeByte_frame (s : State) (key pa : Nat) (b : Byte) :
    ∃ c l, s.writeByte key pa b = { s with memory := { s.memory with cells := c, seals := l } } := by
  unfold State.writeByte
  split
  · unfold Memory.put
    split
    · exact ⟨_, s.memory.seals, rfl⟩
    · exact ⟨_, _, rfl⟩
  · exact ⟨_, _, rfl⟩

theorem writeMem_frame (s : State) (key : Nat) (data : List (Nat × Byte)) :
    ∃ c l, s.writeMem key data = { s with memory := { s.memory with cells := c, seals := l } } := by
  induction data generalizing s with
  | nil => exact ⟨_, _, rfl⟩
  | cons e data ih =>
    obtain ⟨c, l, h⟩ := writeByte_frame s key e.1 e.2
    obtain ⟨c', l', h'⟩ := ih (s.writeByte key e.1 e.2)
    rw [h] at h'
    exact ⟨c', l', by rw [State.writeMem, h, h']⟩

/-- Bytes stored at the home of a line that is not lost are written; the line keeps its times, and nothing but memory changes. -/
theorem storeHome_spec {s : State} {key pa cell : Nat} (h : s.homeCell pa = some cell) (hl : s.lost cell = false) (data : List (Nat × Byte)) :
    (∀ k a, (s.storeHome key (lineOf pa) data).byteAt k a = (s.writeMem key data).byteAt k a) ∧
    (∀ w r, Timed s cell w r → Timed (s.storeHome key (lineOf pa) data) cell w r) ∧
    ∃ m, s.storeHome key (lineOf pa) data = { s with memory := m } := by
  obtain ⟨c, l, hw⟩ := writeMem_frame s key data
  unfold State.storeHome
  rw [show s.cellOf (lineOf pa) = some cell from h]
  simp only [hl, Bool.false_eq_true, if_false]
  split
  · rw [hw]
    exact ⟨fun _ _ => rfl, fun _ _ ht => ht, _, rfl⟩
  · refine ⟨fun _ _ => rfl, fun w r ht => ?_, _, by rw [hw]; rfl⟩
    unfold Timed
    rw [side_setSide, hw]
    exact ht

theorem sameBytes_trans {s u v : State} (h : SameBytes s u) (h' : SameBytes u v) : SameBytes s v :=
  fun k a => (h' k a).trans (h k a)

/-- What is written after steps that leave every byte is written as if they had not been. -/
theorem writes_after {s s1 u : State} {cell key pa : Nat} {bs : List Byte} (h : SameBytes s s1) (hh : ∀ a, s1.homeCell a = s.homeCell a)
    (hw : Writes s1 u cell key pa bs) : Writes s u cell key pa bs := by
  obtain ⟨h1, h2, h3⟩ := hw
  refine ⟨h1, fun k a ha => ?_, fun a b hl hn hb => h3 a b hl hn ?_⟩
  · rw [h2 k a (by rwa [hh]), h]
  · rwa [h]

theorem returns_after {s s1 u : State} {cell key pa : Nat} {sect : BitVec 4} {bs : List Byte} (h : SameBytes s s1)
    (hh : ∀ a, s1.homeCell a = s.homeCell a) (hw : Returns s1 u cell key pa sect bs) : Returns s u cell key pa sect bs := by
  obtain ⟨h1, h2, h3⟩ := hw
  refine ⟨h1, fun k j hj hs => ?_, fun k a ha => ?_⟩
  · rw [h2 k j hj hs, h]
  · rw [h3 k a (by rwa [hh]), h]

/-- A cell that serves an address of no byte of a line lies outside the line. -/
theorem outside_line {s : State} {a cell : Nat} (hc : cell < farCell) (h0 : cell % 256 = 0) (ha : s.homeCell a ≠ some cell) {c j : Nat}
    (hj : j < 256) (hs : s.cellOf a = some c) : c / 64 ≠ (cell + j) / 64 := by
  intro e
  have hf : c < farCell := by
    simp only [farCell] at hc ⊢
    omega
  refine ha ?_
  rw [homeCell_of_cellOf hs hf]
  congr 1
  omega

/-- A store's bytes at home. -/
theorem writes_storeHome {s : State} {key pa cell : Nat} {bs : List Byte} (h : s.homeCell pa = some cell) (hc : cell < farCell)
    (hl : s.lost cell = false) (hb : pa % 256 + bs.length ≤ 256) :
    Writes s (s.storeHome key (lineOf pa) (zipFrom pa bs)) cell key pa bs := by
  obtain ⟨hbytes, -, -⟩ := storeHome_spec (key := key) h hl (zipFrom pa bs)
  have hd := zipFrom_line hb
  obtain ⟨-, h0⟩ := cellOf_of_homeCell h hc (rfl : lineOf pa = _)
  refine ⟨fun j hj => ?_, fun k a ha => ?_, fun a b hl' hn hx => ?_⟩
  · have he : (pa + j, bs[j]) ∈ zipFrom pa bs := mem_zipFrom.2 ⟨j, rfl, List.getElem?_eq_getElem hj⟩
    rw [hbytes, byteAt_writeMem_written h hc hd (zipFrom_nodup pa bs) he, List.getElem?_eq_getElem hj]
  · rw [hbytes]
    exact byteAt_writeMem_other h hc hd k a fun e _ c hs => outside_line hc h0 ha (Nat.mod_lt _ (by omega)) hs
  · rw [hbytes]
    refine byteAt_writeMem_kept h hc hd hl' ?_ hx
    rw [zipFrom_addresses, List.mem_map]
    rintro ⟨j, hj, rfl⟩
    rw [List.mem_range] at hj
    omega

/-- The sectors of a line that are written back, or that return. -/
theorem returns_storeHome {s : State} {key pa cell : Nat} {sect : BitVec 4} {bs : List Byte} (h : s.homeCell pa = some cell)
    (hc : cell < farCell) (hl : s.lost cell = false) (hb : bs.length = 256) :
    Returns s (s.storeHome key (lineOf pa) (sectorBytes (lineOf pa) sect bs)) cell key pa sect bs := by
  obtain ⟨hbytes, -, -⟩ := storeHome_spec (key := key) h hl (sectorBytes (lineOf pa) sect bs)
  have hm : lineOf pa % 256 = 0 := by unfold lineOf; omega
  have hll : lineOf (lineOf pa) = lineOf pa := by unfold lineOf; omega
  have hmem : ∀ e ∈ sectorBytes (lineOf pa) sect bs, ∃ j, j < 256 ∧ e.1 = lineOf pa + j ∧ bs[j]? = some e.2 ∧
      sect.getLsbD (j / 64) = true := by
    intro e he
    obtain ⟨he, hs⟩ := List.mem_filter.1 he
    obtain ⟨j, hj, hbj⟩ := mem_zipFrom.1 he
    obtain ⟨hlt, -⟩ := List.getElem?_eq_some_iff.1 hbj
    rw [hj, show (lineOf pa + j) / 64 % 4 = j / 64 by omega] at hs
    exact ⟨j, by omega, hj, hbj, hs⟩
  have hd : ∀ e ∈ sectorBytes (lineOf pa) sect bs, lineOf e.1 = lineOf pa := by
    intro e he
    obtain ⟨j, hj, h1, -⟩ := hmem e he
    rw [h1, lineOf_add (by omega), hll]
  have hnd : ((sectorBytes (lineOf pa) sect bs).map (·.1)).Nodup :=
    (zipFrom_nodup _ _).sublist (List.filter_sublist.map _)
  obtain ⟨-, h0⟩ := cellOf_of_homeCell h hc (rfl : lineOf pa = _)
  refine ⟨fun j hj hs => ?_, fun k j hj hs => ?_, fun k a ha => ?_⟩
  · have hlt : j < bs.length := by omega
    have he : (lineOf pa + j, bs[j]) ∈ sectorBytes (lineOf pa) sect bs := by
      refine List.mem_filter.2 ⟨mem_zipFrom.2 ⟨j, rfl, List.getElem?_eq_getElem hlt⟩, ?_⟩
      rwa [show (lineOf pa + j) / 64 % 4 = j / 64 by omega]
    rw [hbytes, byteAt_writeMem_written h hc hd hnd he, List.getElem?_eq_getElem hlt]
  · rw [hbytes]
    refine byteAt_writeMem_other h hc hd k _ fun e he c hcell => ?_
    obtain ⟨i, hi, h1, -, hsi⟩ := hmem e he
    have hca := (cellOf_of_homeCell h hc (show lineOf (lineOf pa + j) = lineOf pa by rw [lineOf_add (by omega), hll])).1
    rw [hcell, Option.some.injEq] at hca
    rw [hca, h1, show (lineOf pa + j) % 256 = j by omega, show (lineOf pa + i) % 256 = i by omega]
    intro e
    rw [show i / 64 = j / 64 by omega, hs] at hsi
    cases hsi
  · rw [hbytes]
    exact byteAt_writeMem_other h hc hd k a fun e _ c hs => outside_line hc h0 ha (Nat.mod_lt _ (by omega)) hs

/-! ### What a request finds at home -/

/-- Where no error stands, a read finds none. -/
theorem findErrors_sound {s : State} {cell : Nat} (sects : BitVec 4) (h : Sound s cell) : s.findErrors cell sects = s := by
  have step : ∀ k ∈ List.range 4, (if sects.getLsbD k then tfind s.errors (cell / 64 + k) else none) = none := by
    intro k hk
    rw [h k (List.mem_range.1 hk), ite_self]
  unfold State.findErrors
  generalize List.range 4 = l at step
  induction l with
  | nil => rfl
  | cons k l ih =>
    rw [List.foldl_cons, step k List.mem_cons_self]
    exact ih fun n hn => step n (List.mem_cons_of_mem _ hn)

/-- The line as its key reads it. -/
theorem homeLine_spec {s : State} {key pa cell : Nat} {w r : Dword} (hc : cell < farCell) (hl : s.lost cell = false) (ht : Timed s cell w r) :
    Reads s key pa (s.homeLine key pa cell).1 w r (s.side (cell / 256)).poison ∧
      ∃ f, (s.homeLine key pa cell).2 = { s with free := f } := by
  have hn := readMem_length s key (lineOf pa) 256
  have hr := readsMemory_readMem s key (lineOf pa) 256
  have hs := readMem_state s key (lineOf pa) 256
  unfold State.homeLine
  rw [times_of_timed hc ht]
  generalize s.readMem key (lineOf pa) 256 = x at hn hr hs
  refine ⟨⟨hn, hr, rfl, rfl, ?_⟩, hs⟩
  show s.poisonOf cell = _
  rw [State.poisonOf, hl]
  rfl

end Sys2Proof.Laws
end

