-- ==== Sys2Proof/Proofs/HomeServed.lean ====
section
/-! SUPPORT. Requests at home: stores, atomics, renewals and exclusive leases of a line that no core owns, what waits behind an owner, and
the host's accesses (O46). -/

namespace Sys2Proof.Laws

open Sys2Proof.Machine Sys2Proof.Claims

/-! ### A line that is served at once -/

section

variable {s : State} {pa key cell : Nat} {w r : Dword}

theorem atHome_drop (m : Nat) (h : AtHome s pa key cell) : AtHome (s.drop m) pa key cell :=
  ⟨h.served, h.stacked, h.free, h.up, h.sound, h.quiet, h.loaded⟩

theorem sealLine_quiet (h : s.umbrasOf cell = []) : s.sealLine cell = s := by
  unfold State.sealLine
  rw [h]
  rfl

theorem refuses_atHome (h : AtHome s pa key cell) : s.refuses key pa = false := by
  obtain ⟨hs, h0⟩ := cellOf_of_homeCell h.served h.stacked (rfl : lineOf pa = _)
  have hc := h.stacked
  have hnear : ¬ farCell ≤ cell + pa % 256 := by
    simp only [farCell] at hc ⊢
    omega
  have hp : s.linkDown pa = false := by
    unfold State.linkDown
    rw [hs]
    simp [State.portDown, hnear]
  rw [State.refuses, hp, h.loaded]
  rfl

theorem arriveAtHome_free {m : Msg} (h : s.owner? m.pa = none) : s.arriveAtHome m = s.performAtHome m := by
  unfold State.arriveAtHome
  rw [h]

/-- The line's times are set where the memory is COH; every byte stays, and nothing but memory changes. -/
theorem setTimes_coh (coh : Bool) (t : Dword) (hc : cell < farCell) (ht : Timed s cell w r) :
    ∃ m, (if coh then s.setTimes cell t t else s) = { s with memory := m } ∧ SameBytes s { s with memory := m } ∧
      Timed { s with memory := m } cell (if coh then t else w) (if coh then t else r) := by
  cases coh with
  | false => exact ⟨s.memory, rfl, fun _ _ => rfl, ht⟩
  | true =>
    have hf := setTimes_frame s t t hc
    refine ⟨_, hf, ?_, ?_⟩
    · rw [← hf]
      exact sameBytes_setTimes s t t hc
    · rw [← hf]
      exact timed_setTimes s t t hc

/-- Bytes stored after the line's times have been set. -/
theorem storeHome_coh (coh : Bool) (t : Dword) (h : AtHome s pa key cell) (ht : Timed s cell w r) {bs : List Byte}
    (hb : pa % 256 + bs.length ≤ 256) :
    ∃ m, (if coh then s.setTimes cell t t else s).storeHome key (lineOf pa) (zipFrom pa bs) = { s with memory := m } ∧
      Writes s { s with memory := m } cell key pa bs ∧
      Timed { s with memory := m } cell (if coh then t else w) (if coh then t else r) := by
  obtain ⟨m, hm, hsame, htimes⟩ := setTimes_coh coh t h.stacked ht
  rw [hm]
  have served : ({ s with memory := m } : State).homeCell pa = some cell := h.served
  have up : ({ s with memory := m } : State).lost cell = false := h.up
  obtain ⟨-, hkeep, m', hm'⟩ := storeHome_spec (key := key) served up (zipFrom pa bs)
  have hw := writes_storeHome (key := key) served h.stacked up hb
  have hk := hkeep _ _ htimes
  rw [hm'] at hw hk
  exact ⟨m', hm', writes_after hsame (fun _ => rfl) hw, hk⟩

/-- A store at home: the time that it takes, its bytes, the line's times, and nothing else but what errors stood in sectors that it writes
whole. -/
theorem storeAtHome_stores (coh : Bool) (ct : Dword) (h : AtHome s pa key cell) (ht : Timed s cell w r) {bs : List Byte}
    (hb : pa % 256 + bs.length ≤ 256) :
    ∃ m e, s.storeAtHome coh key pa ct (zipFrom pa bs) = (maxD ct (r + 1), { s with memory := m, errors := e }) ∧
      Writes s { s with memory := m, errors := e } cell key pa bs ∧
      Timed { s with memory := m, errors := e } cell (if coh then maxD ct (r + 1) else w) (if coh then maxD ct (r + 1) else r) := by
  obtain ⟨m, hm, hw, hk⟩ := storeHome_coh coh (maxD ct (r + 1)) h ht hb
  refine ⟨m, (s.clearErrors cell (wholeSectors ((zipFrom pa bs).map fun e => e.1 % 256))).errors, ?_, hw, hk⟩
  simp only [State.storeAtHome, h.served, h.up, h.loaded, sealLine_quiet h.quiet, times_of_timed h.stacked ht, hm, Bool.not_true,
    Bool.or_self, Bool.false_eq_true, if_false]
  rfl

/-- A write-back at home: its sectors' bytes, with the line's times as they were. -/
theorem storeAtHome_writesBack (h : AtHome s pa key cell) (ht : Timed s cell w r) (sect : BitVec 4) {bs : List Byte} (hb : bs.length = 256) :
    ∃ t m e, s.storeAtHome false key pa 0 (sectorBytes (lineOf pa) sect bs) = (t, { s with memory := m, errors := e }) ∧
      Returns s { s with memory := m, errors := e } cell key pa sect bs ∧ Timed { s with memory := m, errors := e } cell w r := by
  obtain ⟨-, hkeep, m, hm⟩ := storeHome_spec (key := key) h.served h.up (sectorBytes (lineOf pa) sect bs)
  have hr := returns_storeHome (key := key) (sect := sect) h.served h.stacked h.up hb
  have hk := hkeep _ _ ht
  rw [hm] at hr hk
  refine ⟨maxD 0 (r + 1), m,
    (s.clearErrors cell (wholeSectors ((sectorBytes (lineOf pa) sect bs).map fun e => e.1 % 256))).errors, ?_, hr, hk⟩
  simp only [State.storeAtHome, h.served, h.up, h.loaded, sealLine_quiet h.quiet, times_of_timed h.stacked ht, hm, Bool.not_true,
    Bool.or_self, Bool.false_eq_true, if_false]
  rfl

/-- An atomic at home finds the bytes that stand there and writes its own. -/
theorem atomicAtHome_stores (coh : Bool) (ct : Dword) (kind : AccKind) (h : AtHome s pa key cell) (ht : Timed s cell w r) {size : Nat}
    {data cmp old : List Byte} (hp : (s.side (cell / 256)).poison = 0) (ho : s.peek key pa size = some old)
    (hb : pa % 256 + (kind.apply size old data cmp).length ≤ 256) :
    ∃ m, s.atomicAtHome coh key pa ct kind size data cmp = (maxD ct (r + 1), old, false, { s with memory := m }) ∧
      Writes s { s with memory := m } cell key pa (kind.apply size old data cmp) ∧
      Timed { s with memory := m } cell (if coh then maxD ct (r + 1) else w) (if coh then maxD ct (r + 1) else r) := by
  obtain ⟨m, hm, hw, hk⟩ := storeHome_coh coh (maxD ct (r + 1)) h ht hb
  have clean : (s.side (cell / 256)).poison.getLsbD (pa / 64 % 4) = false := by
    rw [hp]
    exact BitVec.getLsbD_zero
  refine ⟨m, ?_, hw, hk⟩
  simp only [State.atomicAtHome, h.served, h.up, h.loaded, sealLine_quiet h.quiet, findErrors_sound _ h.sound, clean, readMem_peek ho,
    times_of_timed h.stacked ht, hm, Bool.not_true, Bool.or_self, Bool.false_eq_true, if_false]

/-- A renewal extends the line's lease and gives the line where the copy is an old one. -/
theorem renewAtHome_extends (c id : Nat) (copy : Option Dword) (ct n : Dword) (h : AtHome s pa key cell) (ht : Timed s cell w r) :
    let r1 := maxD r (if copy ≠ some w then maxD (w + n) (ct + n) else ct + n)
    ∃ m f g, s.renewAtHome c id pa key copy ct n = ({ s with memory := m, free := f } : State).post
        (.renewReply c id pa key w r1 (if copy ≠ some w then some g else none)) ∧
      Timed { s with memory := m, free := f } cell w r1 ∧ SameBytes s { s with memory := m, free := f } ∧
      Reads s key pa g w r1 (s.side (cell / 256)).poison := by
  intro r1
  have hf := setTimes_frame s w r1 h.stacked
  have hside := side_setTimes (s := s) w r1 h.stacked
  have htimes := timed_setTimes s w r1 h.stacked
  have hsame := sameBytes_setTimes s w r1 h.stacked
  obtain ⟨hg, f, hs⟩ := homeLine_spec (key := key) (pa := pa) h.stacked (s := s.setTimes cell w r1) (by rw [hf]; exact h.up) htimes
  rw [hside] at hg
  generalize hx : (s.setTimes cell w r1).homeLine key pa cell = x at hg hs
  obtain ⟨hn, hread, hw, -, hp⟩ := hg
  have hg : Reads s key pa { x.1 with rts := r1 } w r1 (s.side (cell / 256)).poison :=
    ⟨hn, fun j b hj hb => hread j b hj (by rw [hsame]; exact hb), hw, rfl, hp⟩
  by_cases hold : copy = some w
  · refine ⟨_, s.free, _, ?_, hf ▸ htimes, hf ▸ hsame, hg⟩
    simp only [State.renewAtHome, h.loaded, h.served, h.quiet, List.foldl_nil, times_of_timed h.stacked ht, hold, h.up, if_true, beq_self_eq_true,
      Bool.not_false, Bool.and_self, ne_eq, not_true_eq_false, if_false, r1] at hf ⊢
    rw [hf]
  · have hne : (copy == some w) = false := by simpa using hold
    refine ⟨_, f, _, ?_, hf ▸ htimes, hf ▸ hsame, hg⟩
    simp only [State.renewAtHome, h.loaded, h.served, h.quiet, List.foldl_nil, times_of_timed h.stacked ht, hne, h.up, findErrors_sound _ h.sound,
      if_true, Bool.false_and, Bool.false_eq_true, ne_eq, hold, not_false_eq_true, if_false, r1] at hf hs hx ⊢
    rw [hx, hs, hf]

/-- A lease is granted while the table has room. -/
theorem grantExcl_grants (c id : Nat) (h : AtHome s pa key cell) (ht : Timed s cell w r)
    (hroom : (s.vault (vaultOf cell)).excls.length < 32) :
    ∃ f g, s.grantExcl c id pa key = ((({ s with free := f } : State).modVault (vaultOf cell) fun x => { x with
        excls := x.excls ++ [{ pa := lineOf pa, key := key, core := c, held := [], recalled := false }] })).post
          (.exclGrant c id pa key (some g)) ∧
      Reads s key pa g w r (s.side (cell / 256)).poison := by
  obtain ⟨hg, f, hs⟩ := homeLine_spec (key := key) (pa := pa) h.stacked h.up ht
  refine ⟨f, _, ?_, hg⟩
  simp only [State.grantExcl, h.loaded, h.served, h.up, sealLine_quiet h.quiet, findErrors_sound _ h.sound, hs, if_true, Bool.false_eq_true,
    if_false, Nat.not_le.2 hroom]

theorem grantExcl_full (c id : Nat) (h : AtHome s pa key cell) (hfull : 32 ≤ (s.vault (vaultOf cell)).excls.length) :
    s.grantExcl c id pa key = s.post (.exclGrant c id pa key none) := by
  simp only [State.grantExcl, h.loaded, h.served, h.up, sealLine_quiet h.quiet, if_true, Bool.false_eq_true, if_false, hfull]

end

end Sys2Proof.Laws
end

