-- ==== Sys2Proof/Proofs/HomeOwners.lean ====
section
/-! SUPPORT. What waits behind an owner, the host's accesses, and the requests at home together (O46). -/

namespace Sys2Proof.Laws

open Sys2Proof.Machine Sys2Proof.Claims

/-! ### An owned line -/

theorem owner_some {s : State} {pa v : Nat} {e : Excl} (h : s.owner? pa = some (v, e)) :
    ∃ cell, s.homeCell pa = some cell ∧ v = vaultOf cell := by
  unfold State.owner? at h
  split at h
  · next cell hc =>
    obtain ⟨x, -, hx⟩ := Option.map_eq_some_iff.1 h
    cases hx
    exact ⟨cell, hc, rfl⟩
  · cases h

/-- Umbras of some ways are sealed, and nothing else changes. -/
theorem sealUmbras_spec (s : State) (v : Nat) (l : List Umbra) :
    (∃ t, l.foldl (fun s1 y => s1.sealUmbra v y.way) s = { s with vaults := t }) ∧
    (l.foldl (fun s1 y => s1.sealUmbra v y.way) s).vault v = { s.vault v with
      umbras := (s.vault v).umbras.map fun y => if y.way ∈ l.map (·.way) then { y with sealed := true } else y } := by
  induction l generalizing s with
  | nil => exact ⟨⟨_, rfl⟩, by simp⟩
  | cons x l ih =>
    obtain ⟨⟨t, ht⟩, hv⟩ := ih (s.sealUmbra v x.way)
    refine ⟨⟨t, ht⟩, ?_⟩
    rw [List.foldl_cons, hv]
    unfold State.sealUmbra
    rw [vault_modVault]
    dsimp only
    rw [List.map_map]
    congr 2
    funext y
    simp only [Function.comp_apply, List.map_cons, List.mem_cons, beq_iff_eq]
    by_cases h1 : y.way = x.way <;> by_cases h2 : y.way ∈ l.map (·.way) <;> simp_all

/-- A request is held behind the one owner in the table, who is recalled if he has not been. -/
theorem holdAtHome_one {s : State} {v : Nat} {e : Excl} (gen : Nat) (m : Msg) (h : (s.vault v).excls = [e]) :
    ∃ t, s.holdAtHome v e gen m = { s with
        vaults := t
        net := s.net ++ (if e.recalled then [] else [(s.seq, .exclRecall e.core e.pa e.key)])
        seq := if e.recalled then s.seq else s.seq + 1 } ∧
      (s.holdAtHome v e gen m).vault v = { s.vault v with excls := [{ e with held := e.held ++ [(gen, m)], recalled := true }] } := by
  let x := { s.vault v with excls := [{ e with held := e.held ++ [(gen, m)], recalled := true }] }
  have hs : s.holdAtHome v e gen m = if e.recalled then s.setVault v x else (s.setVault v x).post (.exclRecall e.core e.pa e.key) := by
    simp only [State.holdAtHome, State.modVault, h, List.map_cons, List.map_nil, beq_self_eq_true, if_true, x]
  rw [hs]
  cases e.recalled with
  | false => exact ⟨_, rfl, vault_setVault s v x⟩
  | true => exact ⟨_, by simp only [if_true, List.append_nil]; rfl, vault_setVault s v x⟩

/-- An exclusive request that meets an owner waits, and the line's umbras are sealed. -/
theorem arriveAtHome_owned {s : State} {c id pa key v : Nat} {coh : Bool} {e : Excl} (ho : s.owner? pa = some (v, e))
    (he : (s.vault v).excls = [e]) (hk : s.keyLoaded key = true) :
    ∃ t n u, s.arriveAtHome (.exclReq c id pa key coh) = u ∧ u = { s with
        vaults := t
        net := s.net ++ (if e.recalled then [] else [(s.seq, .exclRecall e.core e.pa e.key)])
        seq := n } ∧
      (∀ y ∈ (u.vault v).umbras, s.homeCell y.pa = s.homeCell pa → y.sealed = true) ∧
      (u.vault v).excls = [{ e with held := e.held ++ [(s.keyGenOf key, .exclReq c id pa key coh)], recalled := true }] := by
  obtain ⟨cell, hc, rfl⟩ := owner_some ho
  have hseal : s.sealWaiting (.exclReq c id pa key coh) =
      (s.umbrasOf cell).foldl (fun s1 y => s1.sealUmbra (vaultOf cell) y.way) s := by
    simp only [State.sealWaiting, Msg.pa, hc]
  obtain ⟨⟨t, ht⟩, hv⟩ := sealUmbras_spec s (vaultOf cell) (s.umbrasOf cell)
  generalize (s.umbrasOf cell).foldl (fun s1 y => s1.sealUmbra (vaultOf cell) y.way) s = s1 at ht hv hseal
  obtain ⟨t', hs, hh⟩ := holdAtHome_one (s.keyGenOf key) (.exclReq c id pa key coh) (show (s1.vault (vaultOf cell)).excls = [e] by rw [hv, he])
  refine ⟨t', if e.recalled then s.seq else s.seq + 1, s1.holdAtHome (vaultOf cell) e (s.keyGenOf key) (.exclReq c id pa key coh), ?_,
    by rw [hs, ht], fun y hy hy' => ?_, by rw [hh]⟩
  · simp only [State.arriveAtHome, Msg.pa, Msg.key, ho, hk, if_true, hseal]
  · rw [hh, hv] at hy
    obtain ⟨x, hx, rfl⟩ := List.mem_map.1 hy
    split
    · rfl
    · next hway =>
      rw [if_neg hway, hc] at hy'
      exact absurd (List.mem_map_of_mem (List.mem_filter.2 ⟨hx, by simpa using hy'⟩)) hway

/-- A line returns to its home, where nothing waits for it. -/
theorem returnExcl_returns {s : State} {pa key v cell : Nat} {dirty : BitVec 4} {g : Got} {e : Excl} (ho : s.owner? pa = some (v, e))
    (he : (s.vault v).excls = [e]) (hh : e.held = []) (hc : s.homeCell pa = some cell) (hf : cell < farCell) (hl : s.lost cell = false)
    (hb : g.bytes.length = 256) :
    ∃ t m, s.returnExcl pa key dirty g = { s with vaults := t, memory := m } ∧
      (({ s with vaults := t, memory := m } : State).vault v).excls = [] ∧
      Returns s { s with vaults := t, memory := m } cell key pa dirty g.bytes ∧
      Timed { s with vaults := t, memory := m } cell g.wts g.rts := by
  let s1 := s.modVault v fun x => { x with excls := x.excls.filter (·.pa != e.pa) }
  have hx : (s1.vault v).excls = [] := by simp [s1, he]
  have h1 : s1 = { s with vaults := s1.vaults } := rfl
  have hset := setTimes_frame s1 g.wts g.rts hf
  have hsame := sameBytes_setTimes s1 g.wts g.rts hf
  have htimes := timed_setTimes s1 g.wts g.rts hf
  have hr : s.returnExcl pa key dirty g = (s1.setTimes cell g.wts g.rts).storeHome key (lineOf pa) (sectorBytes (lineOf pa) dirty g.bytes) := by
    have hl1 : s1.lost cell = false := hl
    simp only [State.returnExcl, ho, hc, hh, List.foldl_nil]
    exact if_neg (by rw [show (s1.lost cell) = false from hl]; decide)
  generalize s1.setTimes cell g.wts g.rts = s2 at hset hsame htimes hr
  have served : s2.homeCell pa = some cell := by rw [hset]; exact hc
  have up : s2.lost cell = false := by rw [hset]; exact hl
  obtain ⟨-, hkeep, m, hm⟩ := storeHome_spec (key := key) served up (sectorBytes (lineOf pa) dirty g.bytes)
  have hret := returns_storeHome (key := key) (sect := dirty) served hf up hb
  have hk := hkeep _ _ htimes
  rw [hm, hset] at hret hk hr
  refine ⟨s1.vaults, m, hr, hx, returns_after ?_ (fun _ => ?_) hret, hk⟩
  · exact fun k a => (hset ▸ hsame) k a
  · rfl

/-! ### The host's accesses -/

/-- A transfer within one line is one piece. -/
theorem byLines_line {data : List (Nat × Byte)} {l : Nat} (hn : data ≠ []) (h : ∀ e ∈ data, lineOf e.1 = l) : byLines data = [data] := by
  have hm : data.map (fun e => lineOf e.1) = List.replicate data.length l := by
    rw [List.eq_replicate_iff]
    refine ⟨List.length_map _, fun b hb => ?_⟩
    obtain ⟨e, he, rfl⟩ := List.mem_map.1 hb
    exact h e he
  have hf : data.filter (fun e => lineOf e.1 == l) = data := List.filter_eq_self.2 fun e he => by simp [h e he]
  unfold byLines
  rw [hm]
  cases data with
  | nil => exact absurd rfl hn
  | cons e data =>
    rw [List.length_cons, List.replicate_succ, List.eraseDups_cons, List.filter_replicate]
    simp only [beq_self_eq_true, Bool.not_true, Bool.false_eq_true, if_false, List.eraseDups_nil, List.map_cons, List.map_nil, hf]

theorem pull_free {s : State} {pa : Nat} (h : s.owner? pa = none) : s.pull pa = s := by
  unfold State.pull
  rw [h]

theorem zipFrom_cons (pa : Nat) (b : Byte) (bs : List Byte) : ∃ t, zipFrom pa (b :: bs) = (pa, b) :: t := by
  simp [zipFrom, List.range_succ_eq_map]

/-- A host's write within a line is one store of COH memory. -/
theorem hostStore_line {s : State} {pa : Nat} {bs : List Byte} (hp : pa < stackedSize) (hn : bs ≠ []) (hb : pa % 256 + bs.length ≤ 256)
    (hf : s.owner? pa = none) : s.hostStore pa bs = (s.storeAtHome true s.hub.hkey.toNat pa 0 (zipFrom pa bs)).2 := by
  have hlow : (zipFrom pa bs).filter (fun e => decide (e.1 < stackedSize)) = zipFrom pa bs := by
    refine List.filter_eq_self.2 fun e he => ?_
    have hl := zipFrom_line hb e he
    rw [decide_eq_true_eq]
    simp only [stackedSize, lineOf] at hp hl ⊢
    omega
  obtain ⟨b, t, rfl⟩ := List.exists_cons_of_ne_nil hn
  obtain ⟨z, hz⟩ := zipFrom_cons pa b t
  unfold State.hostStore
  rw [hlow, byLines_line (by simp [hz]) (zipFrom_line hb), List.foldl_cons, List.foldl_nil, hz]
  simp only [State.storeDirect, pull_free hf]

/-- A host's read within a line gives the bytes that stand there, where no sector is poisoned. -/
theorem hostRead_line {s : State} {pa cell : Nat} {bs : List Byte} (hp : pa < stackedSize) (hn : bs ≠ []) (hb : pa % 256 + bs.length ≤ 256)
    (h : AtHome s pa s.hub.hkey.toNat cell) (hc : (s.side (cell / 256)).poison = 0) (hs : s.peek s.hub.hkey.toNat pa bs.length = some bs) :
    s.hostRead pa bs.length = s.reply bs := by
  have hpoison : s.poisonOf cell = 0 := by simp [State.poisonOf, h.up, hc]
  have hclean : ∀ k, (s.poisonOf cell).getLsbD k = false := by
    intro k
    rw [hpoison]
    exact BitVec.getLsbD_zero
  have hload : s.loadDirect s.hub.hkey.toNat pa bs.length = .ok (bs, (s.times cell).1, s) := by
    simp only [State.loadDirect, pull_free h.free, h.served, findErrors_sound _ h.sound, hclean, readMem_peek hs]
    simp
  have hlen : (List.replicate bs.length (0 : Byte)).length = bs.length := List.length_replicate
  obtain ⟨z, hz⟩ : ∃ t, zipFrom pa (List.replicate bs.length 0) = (pa, 0) :: t := by
    obtain ⟨b, t, rfl⟩ := List.exists_cons_of_ne_nil hn
    exact zipFrom_cons pa 0 (List.replicate t.length 0)
  have hzl : ((pa, (0 : Byte)) :: z).length = bs.length := by
    rw [← hz, ← List.length_map (f := (·.1)), zipFrom_addresses]
    simp
  unfold State.hostRead
  dsimp only
  rw [byLines_line (by rw [hz]; exact List.cons_ne_nil _ _) (zipFrom_line (by rw [hlen]; exact hb)), List.foldl_cons, List.foldl_nil, hz]
  simp only [hzl, h.loaded, Nat.not_le.2 hp, decide_false, Bool.not_true, Bool.or_self, Bool.false_eq_true, if_false, hload, List.nil_append,
    Option.getD_some]

end Sys2Proof.Laws
end

