-- ==== Sys2Proof/Proofs/HomeRequests.lean ====
section
/-! SUPPORT. Stores, write-backs, renewals, atomics, exclusive leases and the host's accesses as the controller takes them (O46). -/

namespace Sys2Proof.Laws

open Sys2Proof.Machine Sys2Proof.Claims

variable {s : State} {m c id pa key cell : Nat} {ct w r : Dword} {bs : List Byte}

theorem cohStoreAtHome_stores (h : AtHome s pa key cell) (ht : Timed s cell w r) (hb : pa % 256 + bs.length ≤ 256)
    (hm : s.msg? m = some (.cohStore c id pa key ct (zipFrom pa bs))) : ∃ u, exec (.cohStoreAtHome m) s = .next u ∧
      Writes s u cell key pa bs ∧ Timed u cell (maxD ct (r + 1)) (maxD ct (r + 1)) ∧
      u.net = tdel s.net m ++ [(s.seq, .ack c id pa key (some (maxD ct (r + 1))) (zipFrom pa bs) [] false (some w))] := by
  have hd := atHome_drop m h
  obtain ⟨mem, e, hs, hw, hk⟩ := storeAtHome_stores true ct hd ht hb
  have htimes : (s.drop m).times cell = (w, r) := times_of_timed h.stacked ht
  refine ⟨({ s.drop m with memory := mem, errors := e } : State).post
    (.ack c id pa key (some (maxD ct (r + 1))) (zipFrom pa bs) [] false (some w)), ?_, hw, hk, rfl⟩
  show execCohStoreAtHome m s = _
  simp only [execCohStoreAtHome, hm]
  rw [arriveAtHome_free (m := .cohStore c id pa key ct (zipFrom pa bs)) hd.free]
  simp only [State.performAtHome, hs, refuses_atHome hd, hd.served, Option.map_some, htimes]

theorem strStoreAtHome_stores (h : AtHome s pa key cell) (ht : Timed s cell w r) (hb : pa % 256 + bs.length ≤ 256)
    (hm : s.msg? m = some (.strStore c id pa key (zipFrom pa bs))) : ∃ u, exec (.strStoreAtHome m) s = .next u ∧
      Writes s u cell key pa bs ∧ Timed u cell w r ∧
      u.net = tdel s.net m ++ [(s.seq, .ack c id pa key none (zipFrom pa bs) [] false none)] := by
  have hd := atHome_drop m h
  obtain ⟨mem, e, hs, hw, hk⟩ := storeAtHome_stores false 0 hd ht hb
  refine ⟨({ s.drop m with memory := mem, errors := e } : State).post (.ack c id pa key none (zipFrom pa bs) [] false none),
    ?_, hw, hk, rfl⟩
  show execStrStoreAtHome m s = _
  simp only [execStrStoreAtHome, hm]
  rw [arriveAtHome_free (m := .strStore c id pa key (zipFrom pa bs)) hd.free]
  simp only [State.performAtHome, hs, refuses_atHome hd]

theorem writeBackAtHome_returns {sect : BitVec 4} (h : AtHome s pa key cell) (ht : Timed s cell w r) (hb : bs.length = 256)
    (hm : s.msg? m = some (.writeBack c pa key sect bs)) : ∃ u, exec (.writeBackAtHome m) s = .next u ∧
      Returns s u cell key pa sect bs ∧ Timed u cell w r ∧ u.net = tdel s.net m ++ [(s.seq, .ack c 0 pa key none [] [] false none)] := by
  have hd := atHome_drop m h
  obtain ⟨t, mem, e, hs, hr, hk⟩ := storeAtHome_writesBack hd ht sect hb
  refine ⟨({ s.drop m with memory := mem, errors := e } : State).post (.ack c 0 pa key none [] [] false none), ?_, hr, hk, rfl⟩
  show execWriteBackAtHome m s = _
  simp only [execWriteBackAtHome, hm]
  rw [arriveAtHome_free (m := .writeBack c pa key sect bs) hd.free]
  simp only [State.performAtHome, hs]

theorem renewalAtHome_renews {len : Nat} {copy : Option Dword} (h : AtHome s pa key cell) (ht : Timed s cell w r)
    (hm : s.msg? m = some (.renew c id pa key copy ct len)) :
    let n := BitVec.ofNat 64 len
    let r1 := maxD r (if copy ≠ some w then maxD (w + n) (ct + n) else ct + n)
    ∃ u g, exec (.renewalAtHome m) s = .next u ∧ Timed u cell w r1 ∧ SameBytes s u ∧
      (copy ≠ some w → Reads s key pa g w r1 (s.side (cell / 256)).poison) ∧
      u.net = tdel s.net m ++ [(s.seq, .renewReply c id pa key w r1 (if copy ≠ some w then some g else none))] := by
  intro n r1
  have hd := atHome_drop m h
  obtain ⟨mem, f, g, hs, hk, hsame, hg⟩ := renewAtHome_extends c id copy ct n hd ht
  refine ⟨({ s.drop m with memory := mem, free := f } : State).post (.renewReply c id pa key w r1 (if copy ≠ some w then some g else none)),
    g, ?_, hk, hsame, fun _ => hg, rfl⟩
  show execRenewalAtHome m s = _
  simp only [execRenewalAtHome, hm]
  rw [arriveAtHome_free (m := .renew c id pa key copy ct len) hd.free]
  simp only [State.performAtHome]
  exact congrArg _ hs

theorem homeAtomic_stores {size : Nat} {coh : Bool} {kind : AccKind} {data cmp old : List Byte} (h : AtHome s pa key cell)
    (ht : Timed s cell w r) (hm : s.msg? m = some (.homeAtomic c id pa key ct coh kind size data cmp))
    (hp : (s.side (cell / 256)).poison = 0) (ho : s.peek key pa size = some old)
    (hb : pa % 256 + (kind.apply size old data cmp).length ≤ 256) :
    ∃ u, exec (.homeAtomic m) s = .next u ∧ Writes s u cell key pa (kind.apply size old data cmp) ∧
      Timed u cell (if coh then maxD ct (r + 1) else w) (if coh then maxD ct (r + 1) else r) ∧
      u.net = tdel s.net m ++ [(s.seq, .ack c id pa key (if coh then some (maxD ct (r + 1)) else none) [] old false none)] := by
  have hd := atHome_drop m h
  obtain ⟨mem, hs, hw, hk⟩ := atomicAtHome_stores (s := s.drop m) coh ct kind hd ht hp ho hb
  refine ⟨({ s.drop m with memory := mem } : State).post
    (.ack c id pa key (if coh then some (maxD ct (r + 1)) else none) [] old false none), ?_, hw, hk, rfl⟩
  show execHomeAtomic m s = _
  simp only [execHomeAtomic, hm]
  rw [arriveAtHome_free (m := .homeAtomic c id pa key ct coh kind size data cmp) hd.free]
  simp only [State.performAtHome, hs]

/-- The host's accesses wait behind those that wait, and for their slab. -/
theorem host_waits (h : s.hub.hostHeld ≠ [] ∨ s.slabHeld pa = true) (n : Nat) : s.hostWaits pa n = true := by
  unfold State.hostWaits
  rcases h with h | h <;> simp [h]

theorem host_goes (h : s.hub.hostHeld = []) (hw : s.hub.slabWait = []) (n : Nat) : s.hostWaits pa n = false := by
  simp [State.hostWaits, h, hw]

theorem hostCxlWrite_stores (hp : pa < stackedSize) (hn : bs ≠ []) (hb : pa % 256 + bs.length ≤ 256) (hh : s.hub.hostHeld = [])
    (hw : s.hub.slabWait = []) (h : AtHome s pa s.hub.hkey.toNat cell) (ht : Timed s cell w r) :
    ∃ u, exec (.hostCxlWrite pa bs) s = .next u ∧ Writes s u cell s.hub.hkey.toNat pa bs ∧
      Timed u cell (maxD 0 (r + 1)) (maxD 0 (r + 1)) := by
  obtain ⟨mem, e, hs, hw', hk⟩ := storeAtHome_stores true 0 h ht hb
  refine ⟨_, ?_, hw', hk⟩
  show execHostCxlWrite pa bs s = _
  rw [execHostCxlWrite, host_goes hh hw, hostStore_line hp hn hb h.free, hs]
  rfl

theorem exclusiveRequest_grants {coh : Bool} (h : AtHome s pa key cell) (ht : Timed s cell w r)
    (hm : s.msg? m = some (.exclReq c id pa key coh)) (hroom : (s.vault (vaultOf cell)).excls.length < 32) :
    ∃ u g, exec (.exclusiveRequest m) s = .next u ∧ SameBytes s u ∧
      (u.vault (vaultOf cell)).excls = (s.vault (vaultOf cell)).excls ++ [⟨lineOf pa, key, c, [], false⟩] ∧
      Reads s key pa g w r (s.side (cell / 256)).poison ∧ u.net = tdel s.net m ++ [(s.seq, .exclGrant c id pa key (some g))] := by
  have hd := atHome_drop m h
  obtain ⟨f, g, hs, hg⟩ := grantExcl_grants c id hd ht hroom
  let u := (({ s.drop m with free := f } : State).modVault (vaultOf cell) fun x => { x with
    excls := x.excls ++ [{ pa := lineOf pa, key := key, core := c, held := [], recalled := false }] }).post (.exclGrant c id pa key (some g))
  have hu : exec (.exclusiveRequest m) s = .next u := by
    show execExclusiveRequest m s = _
    simp only [execExclusiveRequest, hm]
    rw [arriveAtHome_free (m := .exclReq c id pa key coh) hd.free]
    exact congrArg _ hs
  refine ⟨u, g, hu, fun _ _ => rfl, ?_, hg, rfl⟩
  rw [post_vault, vault_modVault]
  rfl

theorem exclusiveRequest_refused {coh : Bool} (h : AtHome s pa key cell) (hm : s.msg? m = some (.exclReq c id pa key coh))
    (hfull : 32 ≤ (s.vault (vaultOf cell)).excls.length) : ∃ u, exec (.exclusiveRequest m) s = .next u ∧ SameBytes s u ∧
      u.net = tdel s.net m ++ [(s.seq, .exclGrant c id pa key none)] := by
  have hd := atHome_drop m h
  refine ⟨(s.drop m).post (.exclGrant c id pa key none), ?_, fun _ _ => rfl, rfl⟩
  show execExclusiveRequest m s = _
  simp only [execExclusiveRequest, hm]
  rw [arriveAtHome_free (m := .exclReq c id pa key coh) hd.free]
  exact congrArg _ (grantExcl_full c id hd hfull)

theorem exclusiveRequest_waits {v : Nat} {coh : Bool} {e : Excl} (hm : s.msg? m = some (.exclReq c id pa key coh))
    (ho : s.owner? pa = some (v, e)) (he : (s.vault v).excls = [e]) (hk : s.keyLoaded key = true) :
    ∃ u, exec (.exclusiveRequest m) s = .next u ∧ SameBytes s u ∧
      (∀ y ∈ (u.vault v).umbras, s.homeCell y.pa = s.homeCell pa → y.sealed = true) ∧
      (u.vault v).excls = [{ e with held := e.held ++ [(s.keyGenOf key, .exclReq c id pa key coh)], recalled := true }] ∧
      u.net = tdel s.net m ++ (if e.recalled then [] else [(s.seq, .exclRecall e.core e.pa e.key)]) := by
  obtain ⟨t, n, u, hs, hu, hy, hx⟩ := arriveAtHome_owned (s := s.drop m) (c := c) (id := id) (coh := coh) ho he hk
  refine ⟨u, ?_, ?_, hy, hx, ?_⟩
  · show execExclusiveRequest m s = _
    simp only [execExclusiveRequest, hm]
    exact congrArg _ hs
  · rw [hu]
    exact fun _ _ => rfl
  · rw [hu]
    rfl

theorem exclusiveReturn_returns {v : Nat} {dirty : BitVec 4} {g : Got} {e : Excl} (hm : s.msg? m = some (.exclReturn c pa key dirty g))
    (ho : s.owner? pa = some (v, e)) (he : (s.vault v).excls = [e]) (hh : e.held = []) (hc : s.homeCell pa = some cell)
    (hf : cell < farCell) (hl : s.lost cell = false) (hb : g.bytes.length = 256) :
    ∃ u, exec (.exclusiveReturn m) s = .next u ∧ (u.vault v).excls = [] ∧ Returns s u cell key pa dirty g.bytes ∧
      Timed u cell g.wts g.rts ∧ u.net = tdel s.net m := by
  obtain ⟨t, mem, hs, hx, hr, hk⟩ := returnExcl_returns (s := s.drop m) (key := key) (dirty := dirty) ho he hh hc hf hl hb
  refine ⟨_, ?_, hx, hr, hk, rfl⟩
  show execExclusiveReturn m s = _
  simp only [execExclusiveReturn, hm]
  exact congrArg _ hs

end Sys2Proof.Laws

namespace Sys2Proof.Laws

open Sys2Proof.Machine Sys2Proof.Claims

/-- Settles O46, from what home does with each request. -/
theorem homeRequests : Obligations.HomeRequests := by
  unfold Obligations.HomeRequests
  refine ⟨⟨?_, ?_, ?_, ?_, ?_⟩, ?_, ?_, ?_⟩
  · exact fun s m c id pa key cell ct w r bs h ht hb => ⟨cohStoreAtHome_stores h ht hb, strStoreAtHome_stores h ht hb⟩
  · exact fun s m c pa key cell sect w r bs h ht hb hm => writeBackAtHome_returns h ht hb hm
  · exact fun s m c id pa key len cell copy ct w r h ht hm => renewalAtHome_renews h ht hm
  · exact fun s m c id pa key size cell coh kind data cmp old ct w r h ht hm hp ho hb => homeAtomic_stores h ht hm hp ho hb
  · intro s pa cell w r bs hp hn hb
    refine ⟨fun h => ?_, fun hh hw h ht => ⟨hostCxlWrite_stores hp hn hb hh hw h ht, fun hc hs => ?_⟩⟩
    · refine ⟨s.modHub fun x => { x with hostHeld := x.hostHeld ++ [.write pa bs] },
        s.modHub fun x => { x with hostHeld := x.hostHeld ++ [.read pa bs.length] }, ?_, ?_, rfl, rfl, fun _ _ => rfl, fun _ _ => rfl⟩
      · show execHostCxlWrite pa bs s = _
        rw [execHostCxlWrite, host_waits h]
        rfl
      · show execHostCxlRead pa bs.length s = _
        rw [execHostCxlRead, host_waits h]
        rfl
    · show execHostCxlRead pa bs.length s = _
      rw [execHostCxlRead, host_goes hh hw, ← hostRead_line hp hn hb h hc hs]
      rfl
  · exact fun s m c id pa key cell coh w r h ht hm => ⟨exclusiveRequest_grants h ht hm, exclusiveRequest_refused h hm⟩
  · exact fun s m c id pa key v coh e hm ho he hk => exclusiveRequest_waits hm ho he hk
  · exact fun s m c pa key v cell dirty g e hm ho he hh hc hf hl hb => exclusiveReturn_returns hm ho he hh hc hf hl hb

end Sys2Proof.Laws
end

