-- ==== Sys2Proof/Proofs/Notices.lean ====
section
/-! SUPPORT. Notices and events: what Benuino's notices leave, and an error that is found. -/

namespace Sys2Proof.Laws

open Sys2Proof.Machine Sys2Proof.Claims

/-- Only threads, event words, waiting IDLEs, vectors and notices have changed. -/
structure Told (s u : State) : Prop where
  state : u = { s with
    cores := u.cores
    hub := { s.hub with events := u.hub.events, idlers := u.hub.idlers, msix := u.hub.msix, notices := u.hub.notices } }
  cores : ∀ c, u.core c = { s.core c with slots := (u.core c).slots }

theorem Told.refl (s : State) : Told s s := ⟨rfl, fun _ => rfl⟩

theorem Told.trans {s u v : State} (h : Told s u) (k : Told u v) : Told s v := by
  refine ⟨?_, fun c => ?_⟩
  · have h1 := k.state
    rw [h.state] at h1
    exact h1
  · have h1 := k.cores c
    rw [h.cores c] at h1
    exact h1

theorem told_foldl {β : Type} {f : State → β → State} (h : ∀ s b, Told s (f s b)) (l : List β) (s : State) : Told s (l.foldl f s) := by
  induction l generalizing s with
  | nil => exact Told.refl s
  | cons b l ih => exact (h s b).trans (ih _)

theorem told_modThread (s : State) (c g t : Nat) (f : Thread → Thread) : Told s (s.modThread c g t f) := by
  refine ⟨?_, fun n => core_modThread s c g t f n⟩
  unfold State.modThread State.modGroup
  split <;> rfl

theorem told_serveIdler (s : State) (w : Idler) : Told s (s.serveIdler w) := by
  unfold State.serveIdler
  split
  · exact Told.refl s
  · dsimp only
    split
    · exact Told.refl s
    · refine Told.trans ?_ (told_foldl (fun s d => told_modThread s _ _ _ _) _ _)
      exact ⟨rfl, fun _ => rfl⟩

theorem told_raiseEvent (s : State) (bit : Nat) : Told s (s.raiseEvent bit) := by
  unfold State.raiseEvent
  refine Told.trans ?_ (told_foldl told_serveIdler _ _)
  exact ⟨rfl, fun _ => rfl⟩

theorem told_reportPoison (s : State) (cell sector : Nat) : Told s (s.reportPoison cell sector) := by
  unfold State.reportPoison State.raiseMsix
  refine Told.trans ?_ (told_raiseEvent _ 4)
  exact ⟨rfl, fun _ => rfl⟩

section

variable {s u : State} (h : Told s u)
include h

theorem Told.vault (v : Nat) : u.vault v = s.vault v := by
  rw [h.state]
  rfl

theorem Told.die (d : Nat) : u.die d = s.die d := by
  rw [h.state]
  rfl

theorem Told.cluster (k : Nat) : u.cluster k = s.cluster k := by
  rw [h.state]
  rfl

theorem Told.side (n : Nat) : u.side n = s.side n := by
  rw [h.state]
  rfl

theorem Told.memory : u.memory = s.memory := by
  rw [h.state]

theorem Told.net : u.net = s.net := by
  rw [h.state]

end

/-! ### An error that is found -/

/-- Errors have been found: besides what their notices change, only vaults' counts and lines' side bits have. -/
structure Found (s u : State) : Prop where
  state : u = { s with
    cores := u.cores
    vaults := u.vaults
    memory := { s.memory with sides := u.memory.sides }
    hub := { s.hub with events := u.hub.events, idlers := u.hub.idlers, msix := u.hub.msix, notices := u.hub.notices } }

theorem noteEcc_found (s : State) (cell : Nat) (e : Ecc) : Found s (s.noteEcc cell e) ∧
    (s.noteEcc cell e).vault (vaultOf cell) = { s.vault (vaultOf cell) with errors := (s.vault (vaultOf cell)).errors + e.corrected } ∧
    (s.noteEcc cell e).side (cell / 256) = { s.side (cell / 256) with poison := (s.side (cell / 256)).poison ||| e.bad } := by
  let s1 := s.modVault (vaultOf cell) fun v => { v with errors := v.errors + e.corrected }
  have hv : s1.vault (vaultOf cell) = { s.vault (vaultOf cell) with errors := (s.vault (vaultOf cell)).errors + e.corrected } :=
    vault_modVault s _ _
  unfold State.noteEcc
  dsimp only
  split
  · next hb =>
    refine ⟨⟨rfl⟩, hv, ?_⟩
    have hp : (s.side (cell / 256)).poison ||| e.bad = (s.side (cell / 256)).poison := by
      rw [hb]
      exact BitVec.or_zero
    rw [hp]
    rfl
  · let s2 := s1.setSide (cell / 256) { s1.side (cell / 256) with poison := (s1.side (cell / 256)).poison ||| e.bad }
    have ht : Told s2 ((List.range 4).foldl (fun s3 k => if e.bad.getLsbD k then s3.reportPoison cell k else s3) s2) := by
      refine told_foldl (fun s3 k => ?_) _ _
      split
      · exact told_reportPoison s3 cell k
      · exact Told.refl s3
    refine ⟨⟨?_⟩, (ht.vault _).trans hv, (ht.side _).trans (side_setSide s1 _ _)⟩
    rw [ht.state]
    rfl

section

variable {s u : State} (h : Found s u)
include h

theorem Found.sameBytes : SameBytes s u := by
  rw [h.state]
  exact fun _ _ => rfl

theorem Found.homeCell (a : Nat) : u.homeCell a = s.homeCell a := by
  rw [h.state]
  rfl

theorem Found.lost (cell : Nat) : u.lost cell = s.lost cell := by
  rw [h.state]
  rfl

theorem Found.keys : u.hub.keys = s.hub.keys := by
  rw [h.state]

end

end Sys2Proof.Laws
end

