-- ==== Sys2Proof/Proofs/Umbras.lean ====
section
/-! SUPPORT. Umbras: a read that a slice takes, its data as it leaves the vault, and the reflection (O45). -/

namespace Sys2Proof.Laws

open Sys2Proof.Machine Sys2Proof.Claims

/-! ### Reflections -/

/-- One reflection carries the data where every requester is of one cluster. -/
theorem reflect_one (s : State) (pa key k : Nat) {reqs : List ReadReq} (g : Got) (hn : reqs ≠ []) (h : ∀ q ∈ reqs, clusterOf q.core = k) :
    s.reflect pa key reqs g = s.post (.reflect k (lineOf pa) key reqs g) := by
  have hm : reqs.map (fun q => clusterOf q.core) = List.replicate reqs.length k := by
    rw [List.eq_replicate_iff]
    refine ⟨List.length_map _, fun b hb => ?_⟩
    obtain ⟨q, hq, rfl⟩ := List.mem_map.1 hb
    exact h q hq
  have hf : reqs.filter (fun q => clusterOf q.core == k) = reqs := List.filter_eq_self.2 fun q hq => by simp [h q hq]
  unfold State.reflect
  rw [hm]
  cases reqs with
  | nil => exact absurd rfl hn
  | cons q reqs =>
    rw [List.length_cons, List.replicate_succ, List.eraseDups_cons, List.filter_replicate]
    simp only [beq_self_eq_true, Bool.not_true, Bool.false_eq_true, if_false, List.eraseDups_nil, List.foldl_cons, List.foldl_nil, hf]

/-! ### A read at its slice -/

section

variable {s : State} {m cell : Nat} {r : ReadReq}

theorem sliceReadAccept_accepts (h : s.msg? m = some (.read r)) : exec (.sliceReadAccept m) s = .next ((s.drop m).acceptRead r) := by
  show execSliceReadAccept m s = _
  simp only [execSliceReadAccept, h]

/-- Under an empty key slot a read comes back as poisoned data does. -/
theorem sliceReadAccept_emptyKey (h : s.msg? m = some (.read r)) (hk : s.keyLoaded r.key = false) :
    ∃ u g, exec (.sliceReadAccept m) s = .next u ∧ g.poison = 0xF ∧
      u.net = tdel s.net m ++ [(s.seq, .reflect (clusterOf r.core) (lineOf r.pa) r.key [r] g)] := by
  let g : Got := { bytes := (s.freeBytes 256).1, wts := 0, rts := 0, poison := 0xF }
  let s1 : State := { s.drop m with free := s.free + 256 }
  have hk' : (s.drop m).keyLoaded r.key = false := hk
  refine ⟨s1.post (.reflect (clusterOf r.core) (lineOf r.pa) r.key [r] g), g, ?_, rfl, rfl⟩
  rw [sliceReadAccept_accepts h]
  have hr := reflect_one s1 r.pa r.key (clusterOf r.core) (reqs := [r]) g (List.cons_ne_nil _ _) (by simp)
  rw [← hr]
  simp only [State.acceptRead, hk', Bool.false_eq_true, if_false]
  rfl

/-- The umbra that a read opens in a way. -/
def openedUmbra (s : State) (r : ReadReq) (w : Nat) : Umbra :=
  ⟨w, [], lineOf r.pa, r.key, [r], false, none, s.keyGenOf r.key, (s.owner? r.pa).isSome⟩

/-- A read of a line without an umbra opens one in a free way of the line's set. -/
theorem acceptRead_opens (hk : s.keyLoaded r.key = true) (hc : s.homeCell r.pa = some cell)
    (hw : (s.vault (vaultOf cell)).waiting = []) (hn : ∀ y ∈ (s.vault (vaultOf cell)).umbras, s.homeCell y.pa ≠ some cell)
    (hfree : ∃ k, k < 8 ∧ 8 * (offsetOf cell / 256 % 16) + k ∉ (s.vault (vaultOf cell)).usedWays) :
    ∃ w, w / 8 = offsetOf cell / 256 % 16 ∧ w ∉ (s.vault (vaultOf cell)).usedWays ∧
      let s1 := s.modVault (vaultOf cell) fun y => { y with umbras := y.umbras ++ [openedUmbra s r w] }
      (s.owner? r.pa = none → s.acceptRead r = s1) ∧
      ∀ v e, s.owner? r.pa = some (v, e) →
        s.acceptRead r = s1.holdAtHome v e (s.keyGenOf r.key) (.vaultRead (vaultOf cell) w (lineOf r.pa) r.key) := by
  obtain ⟨j, hj, hjw⟩ := hfree
  obtain ⟨k, hf⟩ : ∃ k, (List.range 8).find? (fun k =>
      !(s.vault (vaultOf cell)).usedWays.contains (8 * (offsetOf cell / 256 % 16) + k)) = some k := by
    rw [← Option.isSome_iff_exists, List.find?_isSome]
    exact ⟨j, List.mem_range.2 hj, by simpa using hjw⟩
  have hk8 : k < 8 := List.mem_range.1 (List.mem_of_find?_eq_some hf)
  have hkw := List.find?_some hf
  have hnone : (s.vault (vaultOf cell)).umbras.find? (fun u => !u.sealed && (u.key == r.key && s.homeCell u.pa == some cell)) = none := by
    rw [List.find?_eq_none]
    intro y hy
    simp [hn y hy]
  refine ⟨8 * (offsetOf cell / 256 % 16) + k, by omega, by simpa using hkw, fun ho => ?_, fun v e ho => ?_⟩
  all_goals simp only [State.acceptRead, hk, hc, if_true, hw, List.any_nil, Bool.false_eq_true, if_false, hnone, hf, openedUmbra, ho]

theorem umbras_holdAtHome (s : State) (v : Nat) (e : Excl) (gen : Nat) (m : Msg) :
    ((s.holdAtHome v e gen m).vault v).umbras = (s.vault v).umbras := by
  unfold State.holdAtHome
  dsimp only
  split <;> simp

theorem sliceReadAccept_opens (h : s.msg? m = some (.read r)) (hk : s.keyLoaded r.key = true) (hc : s.homeCell r.pa = some cell)
    (hw : (s.vault (vaultOf cell)).waiting = []) (hn : ∀ y ∈ (s.vault (vaultOf cell)).umbras, s.homeCell y.pa ≠ some cell)
    (hfree : ∃ k, k < 8 ∧ 8 * (offsetOf cell / 256 % 16) + k ∉ (s.vault (vaultOf cell)).usedWays) :
    ∃ u w, exec (.sliceReadAccept m) s = .next u ∧ w / 8 = offsetOf cell / 256 % 16 ∧ w ∉ (s.vault (vaultOf cell)).usedWays ∧
      (u.vault (vaultOf cell)).umbras = (s.vault (vaultOf cell)).umbras ++ [openedUmbra s r w] ∧
      (s.owner? r.pa = none → u.net = tdel s.net m) ∧
      ∀ e : Excl, s.owner? r.pa = some (vaultOf cell, e) → (s.vault (vaultOf cell)).excls = [e] →
        (u.vault (vaultOf cell)).excls =
          [{ e with held := e.held ++ [(s.keyGenOf r.key, .vaultRead (vaultOf cell) w (lineOf r.pa) r.key)], recalled := true }] ∧
        u.net = tdel s.net m ++ (if e.recalled then [] else [(s.seq, .exclRecall e.core e.pa e.key)]) := by
  obtain ⟨w, hset, hway, hfresh, howned⟩ := acceptRead_opens (s := s.drop m) hk hc hw hn hfree
  let s1 := (s.drop m).modVault (vaultOf cell) fun y => { y with umbras := y.umbras ++ [openedUmbra s r w] }
  have hv : s1.vault (vaultOf cell) =
      { s.vault (vaultOf cell) with umbras := (s.vault (vaultOf cell)).umbras ++ [openedUmbra s r w] } := vault_modVault _ _ _
  cases ho : s.owner? r.pa with
  | none =>
    have hexec := (sliceReadAccept_accepts h).trans (congrArg _ (hfresh ho))
    exact ⟨s1, w, hexec, hset, hway, by rw [hv], fun _ => rfl, fun _ he => by cases he⟩
  | some p =>
    obtain ⟨v, e⟩ := p
    obtain ⟨cell', hc', rfl⟩ := owner_some ho
    obtain rfl : cell' = cell := Option.some.inj (hc'.symm.trans hc)
    have hexec := (sliceReadAccept_accepts h).trans (congrArg _ (howned _ _ ho))
    let held := Msg.vaultRead (vaultOf cell') w (lineOf r.pa) r.key
    have hopened : ((s1.holdAtHome (vaultOf cell') e (s.keyGenOf r.key) held).vault (vaultOf cell')).umbras =
        (s.vault (vaultOf cell')).umbras ++ [openedUmbra s r w] := by
      rw [umbras_holdAtHome]
      exact congrArg Vault.umbras hv
    refine ⟨s1.holdAtHome (vaultOf cell') e (s.keyGenOf r.key) held, w, hexec, hset, hway, hopened, nofun, fun x hx hone => ?_⟩
    · obtain rfl : e = x := (Prod.mk.inj (Option.some.inj hx)).2
      obtain ⟨t, hu, hu'⟩ := holdAtHome_one (s := s1) (s.keyGenOf r.key) held
        (show (s1.vault (vaultOf cell')).excls = [e] by rw [hv]; exact hone)
      exact ⟨congrArg Vault.excls hu', congrArg State.net hu⟩

/-- A read joins the one open umbra of its line and key. -/
theorem acceptRead_joins (hk : s.keyLoaded r.key = true) (hc : s.homeCell r.pa = some cell) (hw : (s.vault (vaultOf cell)).waiting = [])
    {y : Umbra} (hy : (s.vault (vaultOf cell)).umbras = [y]) (hs : y.sealed = false) (hkey : y.key = r.key)
    (hyc : s.homeCell y.pa = some cell) (hroom : y.reqs.length < 63 * (1 + y.more.length)) :
    s.acceptRead r = s.setUmbra (vaultOf cell) { y with reqs := y.reqs ++ [r] } := by
  have hfind : [y].find? (fun u => !u.sealed && (u.key == r.key && s.homeCell u.pa == some cell)) = some y := by
    simp [hs, hkey, hyc]
  simp only [State.acceptRead, hk, hc, if_true, hw, List.any_nil, Bool.false_eq_true, if_false, hy, hfind, hroom]

theorem setUmbra_one (s : State) (v : Nat) {y z : Umbra} (h : (s.vault v).umbras = [y]) (hw : z.way = y.way) :
    ((s.setUmbra v z).vault v).umbras = [z] := by
  unfold State.setUmbra
  rw [vault_modVault]
  simp [h, hw]

end

/-! ### Data that leaves the vault -/

theorem maxD_zero (a : Dword) : maxD 0#64 a = a := by
  unfold maxD
  rw [if_pos (by simp)]

/-- The lease end for one requester. -/
theorem leaseEnd_one (q : ReadReq) (w r : Dword) : leaseEnd [q] w r =
    if q.hint = 5 then r else maxD r (maxD (w + (if q.hint = 4 then 256 else 16)) (q.ct + (if q.hint = 4 then 256 else 16))) := by
  by_cases h : q.hint = 5
  · simp [leaseEnd, h]
  · simp [leaseEnd, h, maxD_zero, leaseLen]

section

variable {s : State} {cell : Nat} {y : Umbra} {e : Ecc} {w r : Dword}

/-- What leaves the vault, and what that leaves there. -/
theorem leaveVault_leaves (hc : s.homeCell y.pa = some cell) (hf : cell < farCell) (hl : s.lost cell = false) (hs : Sound s cell)
    (hk : tfind s.hub.keys y.key = some y.gen) (ht : Timed s cell w r) :
    let r1 := leaseEnd y.reqs w r
    let poison := (s.side (cell / 256)).poison ||| e.bad
    let u := (s.leaveVault y e).2
    Reads s y.key y.pa (s.leaveVault y e).1 w r1 poison ∧ Timed u cell w r1 ∧ (u.side (cell / 256)).poison = poison ∧
      u.vault (vaultOf cell) = { s.vault (vaultOf cell) with errors := (s.vault (vaultOf cell)).errors + e.corrected } ∧
      SameBytes s u := by
  intro r1 poison
  obtain ⟨hfound, hvault, hside⟩ := noteEcc_found s cell e
  generalize hs1 : s.noteEcc cell e = s1 at hfound hvault hside
  have ht1 : Timed s1 cell w r := by
    unfold Timed
    rw [hside]
    exact ht
  have hl1 : s1.lost cell = false := (hfound.lost cell).trans hl
  have hframe := setTimes_frame s1 w r1 hf
  have hside2 := side_setTimes (s := s1) w r1 hf
  have ht2 := timed_setTimes s1 w r1 hf
  have hsame := sameBytes_trans hfound.sameBytes (sameBytes_setTimes s1 w r1 hf)
  generalize hs2 : s1.setTimes cell w r1 = s2 at hframe hside2 ht2 hsame
  have hl2 : s2.lost cell = false := by
    rw [hframe]
    exact hl1
  have hk2 : tfind s2.hub.keys y.key = some y.gen := by
    rw [hframe]
    exact hfound.keys ▸ hk
  obtain ⟨⟨hn, hread, hw, hr, hp⟩, f, hs3⟩ := homeLine_spec (key := y.key) (pa := y.pa) hf hl2 ht2
  have hpoison : (s2.side (cell / 256)).poison = poison := by rw [hside2, hside]
  have hleave : s.leaveVault y e = s2.homeLine y.key y.pa cell := by
    simp only [State.leaveVault, hc, findErrors_sound _ hs, hs1, times_of_timed hf ht1, hl1, Bool.false_eq_true, if_false]
    rw [show leaseEnd y.reqs w r = r1 from rfl, hs2, if_pos hk2]
  rw [hleave, hs3]
  refine ⟨⟨hn, fun j b hj hb => hread j b hj (by rw [hsame]; exact hb), hw, hr, hp.trans hpoison⟩, ht2, hpoison, ?_, hsame⟩
  show s2.vault _ = _
  rw [hframe]
  exact hvault

theorem vaultDataLeaves_leaves {q : ReadReq} (hy : (s.vault (vaultOf cell)).umbras = [y]) (hleft : y.left = none) (hwaits : y.waits = false)
    (hq : y.reqs = [q]) (hc : s.homeCell y.pa = some cell) (hf : cell < farCell) (hl : s.lost cell = false) (hs : Sound s cell)
    (hk : tfind s.hub.keys y.key = some y.gen) (ht : Timed s cell w r) :
    let len : Dword := if q.hint = 4 then 256 else 16
    let r1 := if q.hint = 5 then r else maxD r (maxD (w + len) (q.ct + len))
    let poison := (s.side (cell / 256)).poison ||| e.bad
    ∃ u g, exec (.vaultDataLeaves (vaultOf cell) y.way e) s = .next u ∧ (u.vault (vaultOf cell)).umbras = [{ y with left := some g }] ∧
      Reads s y.key y.pa g w r1 poison ∧ Timed u cell w r1 ∧ (u.side (cell / 256)).poison = poison ∧
      (u.vault (vaultOf cell)).errors = (s.vault (vaultOf cell)).errors + e.corrected ∧ SameBytes s u := by
  intro len r1 poison
  have hend : leaseEnd y.reqs w r = r1 := by
    rw [hq]
    exact leaseEnd_one q w r
  obtain ⟨hreads, hk', hp, hv, hsame⟩ := leaveVault_leaves (e := e) hc hf hl hs hk ht
  rw [hend] at hreads hk'
  generalize hx : s.leaveVault y e = x at hreads hk' hp hv hsame
  refine ⟨x.2.setUmbra (vaultOf cell) { y with left := some x.1 }, x.1, ?_, ?_, hreads, hk', hp, ?_, hsame⟩
  · show execVaultDataLeaves (vaultOf cell) y.way e s = _
    simp [execVaultDataLeaves, hy, hleft, hwaits, hx]
  · exact setUmbra_one (y := y) _ _ (by rw [hv]; exact hy) rfl
  · show ((State.modVault _ _ _).vault _).errors = _
    rw [vault_modVault, hv]

end

/-! ### The end of an umbra -/

section

variable {s : State} {v k : Nat} {y : Umbra}

theorem umbraClose_early (hy : (s.vault v).umbras = [y]) (hleft : y.left = none) : exec (.umbraClose v y.way) s = .next s := by
  show execUmbraClose v y.way s = _
  simp [execUmbraClose, hy, hleft]

theorem umbraClose_reflects {g : Got} (hy : (s.vault v).umbras = [y]) (hw : (s.vault v).waiting = []) (hn : y.reqs ≠ [])
    (hk : ∀ q ∈ y.reqs, clusterOf q.core = k) (hleft : y.left = some g) :
    ∃ u, exec (.umbraClose v y.way) s = .next u ∧ (u.vault v).umbras = [] ∧
      u.net = s.net ++ [(s.seq, .reflect k (lineOf y.pa) y.key y.reqs g)] ∧ SameBytes s u := by
  let s1 := s.modVault v fun x => { x with umbras := x.umbras.filter (·.way != y.way) }
  let s2 := s1.post (.reflect k (lineOf y.pa) y.key y.reqs g)
  have hv : s2.vault v = { s.vault v with umbras := [] } := by
    show s1.vault v = _
    rw [vault_modVault]
    simp [hy]
  refine ⟨s2.modVault v fun x => { x with waiting := [] }, ?_, ?_, rfl, fun _ _ => rfl⟩
  · show execUmbraClose v y.way s = _
    have hfind : [y].find? (fun u => u.way == y.way && u.left.isSome) = some y := by simp [hleft]
    simp only [execUmbraClose, hy, hfind, hleft]
    rw [reflect_one _ _ _ k g hn hk]
    unfold State.retryWaiting
    rw [show (s2.vault v).waiting = [] by rw [hv]; exact hw]
    rfl
  · rw [vault_modVault, hv]

end

/-- Settles O45, from what a slice does with a read, what leaves the vault, and the reflection. -/
theorem sharedReads : Obligations.SharedReads := by
  unfold Obligations.SharedReads
  refine ⟨fun s m r h hk => sliceReadAccept_emptyKey h hk, ?_, ?_, ?_⟩
  · intro s m cell r h hk hc x set gen hw
    have hexec := sliceReadAccept_accepts h
    refine ⟨fun hn hfree => ?_, fun y hy hs hkey hyc hroom => ?_⟩
    · exact sliceReadAccept_opens h hk hc hw hn hfree
    · rw [acceptRead_joins (s := s.drop m) hk hc hw hy hs hkey hyc hroom] at hexec
      exact ⟨_, hexec, rfl, setUmbra_one (s.drop m) _ hy rfl⟩
  · exact fun s cell y q e w r hy hleft hwaits hq hc hf hl hs hk ht => vaultDataLeaves_leaves hy hleft hwaits hq hc hf hl hs hk ht
  · exact fun s v k y hy hw hn hk => ⟨umbraClose_early hy, fun g hg => umbraClose_reflects hy hw hn hk hg⟩

end Sys2Proof.Laws
end

