-- ==== Sys2Proof/Proofs/SupervisorRules.lean ====
section
/-! SUPPORT. A privileged instruction of a thread alone in a supervisor context: its issue, what the thread is answered, and that an MBOX
request is not made while a slab change waits (R15, R381, R390). -/

namespace Sys2Proof.Laws

open Sys2Proof.Machine Sys2Proof.Claims

variable {s : State} {i : Instr} {o : Op} {check : Lane → Option Trap} {t : Nat} {L : Lane}

/-- The lane of a thread whose group is the same, in another state and another wave. -/
theorem lane_transfer {u : State} {w : List Nat} (h : s.lane? o w t = some L) (hc : u.cur = s.cur)
    (hg : u.group? s.cur.core s.cur.slot = s.group? s.cur.core s.cur.slot) (w' : List Nat) :
    u.lane? o w' t = some { L with s := u, wave := w' } := by
  obtain ⟨hg', ht, -⟩ := lane_eq h
  simp only [State.lane?, hg', ht] at h
  simp only [State.lane?, hc, hg, hg', ht]
  rw [← Option.some.inj h]

/-- Its issue is the effect that its lane gives. -/
theorem rules_privFrame (h : Rules s i o check t L) {body : Lane → List Nat → List Nat → State → State} {th : Thread}
    (hc : (body L [t] [t] s).cur = s.cur) (hb : (body L [t] [t] s).thread? s.cur.core s.cur.slot t = some th) (hd : th.due = []) :
    s.privFrame i o check body = body L [t] [t] s := by
  have hlead : s.lead o [t] [t] = some L := by rw [State.lead, h.toAlone.lanes]; rfl
  have hrun := h.toAlone.stayed (th := th) (body := fun wave ok s0 =>
    match s0.lead o wave ok with | some L => body L wave ok s0 | none => s0)
    (by simp only [hlead]; exact hc) (by simp only [hlead]; exact hb) hd
  simp only [hlead] at hrun
  simp only [State.privFrame, h.toAlone.group, h.marked, if_true]
  exact hrun

/-- The one thread's words are written. -/
theorem answer_one (h : Rules s i o check t L) (g : Hub → Hub) (ws : List Word) :
    (s.modHub g).answer o [t] [t] ws =
      (s.modHub g).modThread s.cur.core s.cur.slot t fun th => th.putAll (L.dstReg ws.length) ws := by
  have hl := lane_transfer (u := s.modHub g) h.toAlone.lane1 rfl rfl [t]
  obtain ⟨-, hc, hslot, htid, -⟩ := h.toAlone.place
  simp only [State.answer, List.foldl, hl]
  have hdst : { L with s := s.modHub g, wave := [t] }.dstReg ws.length = L.dstReg ws.length := rfl
  rw [hdst, hc, hslot, htid]

/-- The thread has gone on with its words, and of the machine only the hub has changed. -/
theorem rules_answers (h : Rules s i o check t L) {body : Lane → List Nat → List Nat → State → State} {g : Hub → Hub} {ws : List Word}
    {P : State → Prop} (hx : exec i s = .next (s.privFrame i o check body))
    (hb : body L [t] [t] s = ((s.modHub g).answer o [t] [t] ws).moveTo [t] s.cur.next)
    (hP : ∀ u : State, u.hub = g s.hub → u.memory = s.memory → P u) : Answers i s t L ws P := by
  let v := (s.modHub g).modThread s.cur.core s.cur.slot t fun th => th.putAll (L.dstReg ws.length) ws
  have hv : SameButCores (s.modHub g) v := modThread_same _ _ _ _ _
  have hvt : v.thread? s.cur.core s.cur.slot t = some (L.th.putAll (L.dstReg ws.length) ws) := by
    rw [thread_modThread]
    exact congrArg (Option.map _) h.toAlone.thread
  have hbody : body L [t] [t] s = v.moveTo [t] s.cur.next := by rw [hb, answer_one h]
  have hcur : v.cur = s.cur := hv.cur
  have ht : (v.moveTo [t] s.cur.next).thread? s.cur.core s.cur.slot t = some (answered s L ws) := by
    have := thread_moveTo v [t] s.cur.next t
    rw [hcur, if_pos (List.mem_singleton.2 rfl), hvt] at this
    exact this
  have hm : SameButCores v (v.moveTo [t] s.cur.next) := modThread_same _ _ _ _ _
  obtain ⟨-, hc, hslot, -, -⟩ := h.toAlone.place
  refine ⟨v.moveTo [t] s.cur.next, ?_, ?_, hP _ (hm.hub.trans hv.hub) (hm.memory.trans hv.memory)⟩
  · rw [hx, ← hbody]
    refine congrArg _ (rules_privFrame h (th := answered s L ws) ?_ ?_ ?_)
    · rw [hbody, cur_moveTo, hcur]
    · rw [hbody]
      exact ht
    · exact (putAll_due _ _ _).trans h.calm
  · rw [hc, hslot]
    exact ht

/-! ## A slab change that waits holds the requests of MBOX up -/

/-- The checks of an instruction that reads no vector register are the same in every wave. -/
theorem commonTrap_wave {u : Uses} (hv : u.v = []) (w : List Nat) : { L with wave := w }.commonTrap u = L.commonTrap u := by
  simp only [Lane.commonTrap, Lane.badReg, Lane.emptyTrap, hv, List.map_nil, List.any_nil]
  rfl

/-- An instruction that reads no vector register and begins is held by nothing. -/
theorem rules_unheld (h : Rules s i o check t L) (hu : ∀ w, { L with wave := w }.uses i = usesOf i) (hv : (usesOf i).v = []) :
    ∃ w, { L with wave := w }.holds i = false := by
  have hmem := h.wave
  have hs : L.s = s := h.toAlone.place.1
  have hl : s.lane? o s.cur.threads t = some { L with wave := s.cur.threads } := by
    rw [lane_transfer h.toAlone.lane1 rfl rfl, hs]
  have htrap : L.commonTrap (usesOf i) = none := by
    have hp := h.passes
    rw [h.sole, State.trapOf, h.toAlone.lane1] at hp
    have huL : L.uses i = usesOf i := hu L.wave
    simp only [h.fresh, Option.isSome_none, Bool.false_eq_true, if_false, huL] at hp
    cases hx : L.commonTrap (usesOf i) with
    | none => rfl
    | some e => rw [hx] at hp; cases hp
  have hready : { L with wave := s.cur.threads }.ready i = true := by
    have := (List.mem_filter.1 hmem).2
    simp only [hl, Bool.and_eq_true] at this
    exact this.2
  have hearly : { L with wave := s.cur.threads }.earlyTrap i = false := by
    simp only [Lane.earlyTrap, hs, h.marked, Bool.not_true, Bool.and_false, Bool.false_or, List.any_eq_false, decide_eq_true_eq, Nat.not_le]
    exact h.tiles
  have hact : { L with wave := s.cur.threads }.active = true := h.active
  refine ⟨s.cur.threads, ?_⟩
  simp only [Lane.ready, Lane.readyOn, hu, commonTrap_wave hv, htrap, hearly, hact, h.fresh, Option.isSome_none, Bool.or_self,
    Bool.not_true, Bool.false_eq_true, if_false] at hready
  split at hready
  · cases hready
  · split at hready
    · cases hready
    · simp only [Bool.not_eq_true', Bool.or_eq_false_iff] at hready
      exact hready.2

/-- KEY_LOAD_WRAPPED begins only while no slab change waits. -/
theorem keyLoad_unheld {o' : Op} (h : Rules s (.keyLoadWrapped o') o check t L) : s.hub.slabWait = [] := by
  obtain ⟨w, hw⟩ := rules_unheld h (fun _ => rfl) (by simp [usesOf, Instr.shape, shapeUses, fieldUse, Uses.add])
  have hs : L.s = s := h.toAlone.place.1
  simp only [Lane.holds, h.fresh, hs, Bool.or_eq_false_iff, Bool.not_eq_false', List.isEmpty_iff] at hw
  exact hw.2

end Sys2Proof.Laws
end

