-- ==== Sys2Proof/Proofs/Mailbox.lean ====
section
/-! SUPPORT. The requests of MBOX (O42; R14, R15, R30, R32, R390, R441). -/

namespace Sys2Proof.Laws

open Sys2Proof.Machine Sys2Proof.Claims

variable {s : State} {i : Instr} {o : Op} {t : Nat} {L : Lane}

/-! ## A request carried out in its step -/

/-- An instruction that completes in its step and changes the hub alone. -/
theorem privOp_answers (h : Rules s i o noCheck t L) {f : Lane → State → List Word × State} {g : Hub → Hub} {ws : List Word}
    {P : State → Prop} (hx : exec i s = .next (s.privOp i o noCheck f)) (hf : f L s = (ws, s.modHub g))
    (hP : ∀ u : State, u.hub = g s.hub → u.memory = s.memory → P u) : Answers i s t L ws P :=
  rules_answers h (g := g) hx (by simp only [hf]) hP

/-- In recovery Benuino does not answer. -/
theorem mboxOp_recovery (h : Rules s i o noCheck t L) {cmd : Nat} {f : Lane → State → Word × State}
    (hx : exec i s = .next (s.mboxOp i o cmd f)) (hr : s.hub.recovery = true) : Answers i s t L [4] fun u => u.hub = s.hub :=
  privOp_answers h (g := id) hx (by simp only [hr, if_true]; rfl) fun _ hu _ => hu

/-- Another command than its own is unknown to it. -/
theorem mboxOp_unknown (h : Rules s i o noCheck t L) {cmd : Nat} {f : Lane → State → Word × State}
    (hx : exec i s = .next (s.mboxOp i o cmd f)) (hr : s.hub.recovery = false) (hc : L.cmd ≠ cmd) :
    Answers i s t L [1] fun u => u.hub = s.hub :=
  privOp_answers h (g := id) hx (by simp only [hr, Bool.false_eq_true, if_false, bne_iff_ne, ne_eq, hc, not_false_eq_true, if_true]; rfl)
    fun _ hu _ => hu

/-- A request that Benuino takes. -/
theorem mboxOp_taken (h : Rules s i o noCheck t L) {cmd : Nat} {f : Lane → State → Word × State} {g : Hub → Hub} {w : Word}
    {P : State → Prop} (hx : exec i s = .next (s.mboxOp i o cmd f)) (hr : s.hub.recovery = false) (hc : L.cmd = cmd)
    (hf : f L s = (w, s.modHub g)) (hP : ∀ u : State, u.hub = g s.hub → u.memory = s.memory → P u) : Answers i s t L [w] P :=
  privOp_answers h hx (by simp only [hr, hc, hf, Bool.false_eq_true, if_false, bne_self_eq_false]) hP

/-! ## Keys -/

/-- A sector written under a key before the slot was drawn anew has no defined byte under the new key. -/
theorem byteAt_newKey {u : State} {slot : Nat} (hh : u.hub = (s.newKey slot).hub) (hm : u.memory = s.memory)
    (hold : ∀ n x, tfind s.memory.seals n = some x → x.gen < s.hub.keyGen) (pa : Nat) : u.byteAt slot pa = none := by
  have hgen : u.keyGenOf slot = s.hub.keyGen := by
    rw [State.keyGenOf, hh]
    exact tget_tset_self _ _ _ _
  unfold State.byteAt
  split
  · refine if_neg fun hs => ?_
    have := hold _ _ (hm ▸ eq_of_beq hs)
    simp only [State.sealFor, hgen, Nat.lt_irrefl] at this
  · rfl

/-- A new key in one slot leaves what the other slots read. -/
theorem byteAt_newKey_other {u : State} {slot key : Nat} (hh : u.hub = (s.newKey slot).hub) (hm : u.memory = s.memory)
    (hk : key ≠ slot) (pa : Nat) : u.byteAt key pa = s.byteAt key pa := by
  have hcell : u.cellOf pa = s.cellOf pa := by
    unfold State.cellOf
    rw [hh]
    rfl
  have hgen : u.keyGenOf key = s.keyGenOf key := by
    rw [State.keyGenOf, hh]
    exact tget_tset_other _ _ _ hk
  have hseal : u.sealFor key pa = s.sealFor key pa := by rw [State.sealFor, State.sealFor, hgen]
  unfold State.byteAt
  rw [hcell, hm, hseal]

theorem tfind_tdel {α : Type} (t : Tbl α) (k n : Nat) : tfind (tdel t k) n = if n = k then none else tfind t n := by
  refine (tfind_filter t (fun i => i != k) n).trans ?_
  by_cases h : n = k <;> simp [h]

/-! ## What a unit of the hub reads -/

theorem peek_add (s : State) (key pa a b : Nat) :
    s.peek key pa (a + b) = (s.peek key pa a).bind fun x => (s.peek key (pa + a) b).map (x ++ ·) := by
  unfold State.peek
  rw [List.range_add, List.mapM_append, List.mapM_map]
  simp only [Function.comp_def, ← Nat.add_assoc]
  rw [Option.bind_eq_bind]
  refine congrArg (Option.bind _) (funext fun x => ?_)
  cases (List.range b).mapM fun k => s.byteAt key (pa + a + k) <;> rfl

/-- A part of one line that stands is read as it is. -/
theorem loadDirect_stands {key p n cell : Nat} {x : List Byte} (ho : s.owner? p = none) (hc : s.homeCell p = some cell)
    (hp : s.poisonOf cell = 0) (hs : Sound s cell) (hx : s.peek key p n = some x) :
    s.loadDirect key p n = .ok (x, (s.times cell).1, s) := by
  simp only [State.loadDirect, pull_free ho, hc, findErrors_sound _ hs, hp, readMem_peek hx]
  rw [if_neg]
  simp

/-- Bytes that stand are read as they are. -/
theorem hubLoad_stands {pa : Nat} {bs : List Byte} (hw : s.hub.slabWait = []) (h : Stands s pa bs) (hne : bs ≠ []) :
    s.hubLoad 0 pa bs.length = .ok (bs, s) := by
  obtain ⟨hpeek, hall⟩ := h
  have piece : ∀ j, j < bs.length → ∀ (x : List Byte) (n : Nat), s.peek 0 (pa + j) n = some x →
      ∃ w, (s.touchSlab (pa + j)).loadDirect 0 (pa + j) n = .ok (x, w, s) := by
    intro j hj x n hx
    obtain ⟨ho, cell, hc, hp, hs⟩ := hall j hj
    exact ⟨_, by rw [touchSlab_calm _ hw]; exact loadDirect_stands ho hc hp hs hx⟩
  have hpos : 0 < bs.length := List.length_pos_iff.2 hne
  unfold State.hubLoad
  by_cases hone : min bs.length (256 - pa % 256) = bs.length
  · obtain ⟨w, hl⟩ := piece 0 hpos bs bs.length hpeek
    rw [Nat.add_zero] at hl
    simp only [pieces, hone, if_true, List.foldl, hl, List.nil_append]
  · generalize hn : min bs.length (256 - pa % 256) = n at hone
    have hlt : n < bs.length := by omega
    have hsum : n + (bs.length - n) = bs.length := by omega
    have hsplit := peek_add s 0 pa n (bs.length - n)
    rw [hsum, hpeek] at hsplit
    obtain ⟨x, hx, hrest⟩ := Option.bind_eq_some_iff.1 hsplit.symm
    obtain ⟨y, hy, hxy⟩ := Option.map_eq_some_iff.1 hrest
    obtain ⟨w, hl⟩ := piece 0 hpos x n hx
    obtain ⟨w', hl'⟩ := piece n hlt y (bs.length - n) hy
    rw [Nat.add_zero] at hl
    simp only [pieces, hn, hone, if_false, List.foldl, hl, hl', List.nil_append, hxy]

/-! ## Slabs -/

/-- A slab's mode is what it was set to, and another slab's what it was. -/
theorem mem_setSlab (s : State) (n : Nat) (die : Bool) (k : Nat) :
    k ∈ (s.setSlab n die).hub.slabs ↔ if k = n then die = true else k ∈ s.hub.slabs := by
  simp only [State.setSlab, modHub_hub]
  by_cases hk : k = n
  · subst hk
    cases die
    · simp
    · by_cases hc : k ∈ s.hub.slabs <;> simp [hc]
  · cases die
    · simp [hk]
    · by_cases hc : n ∈ s.hub.slabs <;> simp [hc, hk]

/-- The thread begins its request: SLAB_MODE_CHANGE of a thread that has not begun. -/
def slabRequest (s : State) (o : Op) (L : Lane) (wave ok : List Nat) (s0 : State) : State :=
  if s0.hub.recovery then (s0.answer o wave ok [4]).moveTo ok s.cur.next
  else if L.cmd != 1 then (s0.answer o wave ok [1]).moveTo ok s.cur.next
  else if 767 < L.arg1.toNat % 1024 then (s0.answer o wave ok [2]).moveTo ok s.cur.next
  else if s0.slabBusy (L.arg1.toNat % 1024) then
    ok.foldl (fun s1 t => s1.wait L.c L.slot t (.mbox (L.arg1.toNat % 1024)))
      (s0.modHub (fun h => { h with slabWait := [(L.arg1.toNat % 1024, L.arg1.getLsbD 16)] }))
  else ((s0.setSlab (L.arg1.toNat % 1024) (L.arg1.getLsbD 16)).answer o wave ok [0]).moveTo ok s.cur.next

/-- The body that `execSlabModeChange` gives its frame. -/
def slabBody (s : State) (o : Op) (_ : Lane) (wave ok : List Nat) (s0 : State) : State :=
  let begun := ok.filter (fun t => (s0.thread? s.cur.core s.cur.slot t).any (fun th => th.wait.isSome))
  let new := ok.filter (fun t => !begun.contains t)
  let s1 := match s0.lead o wave begun with
    | some _ => ((s0.doneSlab).answer o wave begun [0]).moveTo begun s.cur.next
    | none => s0
  match s1.lead o wave new with
  | some K => slabRequest s o K wave new s1
  | none => s1

theorem execSlabModeChange_eq (s : State) (o : Op) :
    exec (.slabModeChange o) s = .next (s.privFrame (.slabModeChange o) o noCheck (slabBody s o)) := rfl

theorem slabBody_alone (h : Rules s i o noCheck t L) : slabBody s o L [t] [t] s = slabRequest s o L [t] [t] s := by
  have hbegun : [t].filter (fun t => (s.thread? s.cur.core s.cur.slot t).any (fun th => th.wait.isSome)) = [] := by
    simp [h.toAlone.thread, h.fresh]
  have hnone : s.lead o [t] [] = none := rfl
  have hnew : [t].filter (fun x => !([] : List Nat).contains x) = [t] := by simp
  have hlead : s.lead o [t] [t] = some L := by rw [State.lead, h.toAlone.lanes]; rfl
  simp only [slabBody, hbegun, hnone, hnew, hlead]

theorem slabModeChange_answers (h : Rules s (.slabModeChange o) o noCheck t L) {g : Hub → Hub} {w : Word} {P : State → Prop}
    (hb : slabRequest s o L [t] [t] s = ((s.modHub g).answer o [t] [t] [w]).moveTo [t] s.cur.next)
    (hP : ∀ u : State, u.hub = g s.hub → u.memory = s.memory → P u) : Answers (.slabModeChange o) s t L [w] P :=
  rules_answers h (execSlabModeChange_eq s o) ((slabBody_alone h).trans hb) hP

theorem slabModeChange_recovery (h : Rules s (.slabModeChange o) o noCheck t L) (hr : s.hub.recovery = true) :
    Answers (.slabModeChange o) s t L [4] fun u => u.hub = s.hub :=
  slabModeChange_answers h (g := id) (by simp only [slabRequest, hr, if_true]; rfl) fun _ hu _ => hu

theorem slabModeChange_unknown (h : Rules s (.slabModeChange o) o noCheck t L) (hr : s.hub.recovery = false) (hc : L.cmd ≠ 1) :
    Answers (.slabModeChange o) s t L [1] fun u => u.hub = s.hub :=
  slabModeChange_answers h (g := id)
    (by simp only [slabRequest, hr, Bool.false_eq_true, if_false, bne_iff_ne, ne_eq, hc, not_false_eq_true, if_true]; rfl)
    fun _ hu _ => hu

theorem slabModeChange_outside (h : Rules s (.slabModeChange o) o noCheck t L) (hr : s.hub.recovery = false) (hc : L.cmd = 1)
    (hn : 767 < L.arg1.toNat % 1024) : Answers (.slabModeChange o) s t L [2] fun u => u.hub = s.hub :=
  slabModeChange_answers h (g := id)
    (by simp only [slabRequest, hr, Bool.false_eq_true, if_false, bne_self_eq_false, hc, hn, if_true]; rfl) fun _ hu _ => hu

theorem slabModeChange_changes (h : Rules s (.slabModeChange o) o noCheck t L) (hr : s.hub.recovery = false) (hc : L.cmd = 1)
    (hn : L.arg1.toNat % 1024 ≤ 767) (hb : s.slabBusy (L.arg1.toNat % 1024) = false) :
    Answers (.slabModeChange o) s t L [0] fun u =>
      (L.arg1.toNat % 1024 ∈ u.hub.slabs ↔ L.arg1.getLsbD 16 = true) ∧
      ∀ k, k ≠ L.arg1.toNat % 1024 → (k ∈ u.hub.slabs ↔ k ∈ s.hub.slabs) := by
  refine slabModeChange_answers h (g := fun x => ((s.setSlab (L.arg1.toNat % 1024) (L.arg1.getLsbD 16)).hub))
    (by simp only [slabRequest, hr, Bool.false_eq_true, if_false, bne_self_eq_false, hc, Nat.not_lt.2 hn, hb]; rfl)
    fun u hu _ => ?_
  rw [hu]
  exact ⟨by rw [mem_setSlab, if_pos rfl], fun k hk => by rw [mem_setSlab, if_neg hk]⟩

/-- A slab with a request under way: the change waits, and so does the thread. -/
theorem slabModeChange_waits (h : Rules s (.slabModeChange o) o noCheck t L) (hr : s.hub.recovery = false) (hc : L.cmd = 1)
    (hn : L.arg1.toNat % 1024 ≤ 767) (hb : s.slabBusy (L.arg1.toNat % 1024) = true) :
    ∃ u, exec (.slabModeChange o) s = .next u ∧
      u.thread? L.c L.slot t = some (waiting s L.c L.th (.mbox (L.arg1.toNat % 1024))) ∧ u.hub.slabs = s.hub.slabs ∧
      u.hub.slabWait = [(L.arg1.toNat % 1024, L.arg1.getLsbD 16)] := by
  let v := s.modHub fun h => { h with slabWait := [(L.arg1.toNat % 1024, L.arg1.getLsbD 16)] }
  let u := v.wait L.c L.slot t (.mbox (L.arg1.toNat % 1024))
  have hbody : slabBody s o L [t] [t] s = u := by
    rw [slabBody_alone h]
    simp only [slabRequest, hr, Bool.false_eq_true, if_false, bne_self_eq_false, hc, Nat.not_lt.2 hn, hb, if_true]
    rfl
  have hu : SameButCores v u := modThread_same _ _ _ _ _
  obtain ⟨-, hcore, hslot, -, -⟩ := h.toAlone.place
  have ht : u.thread? s.cur.core s.cur.slot t = some (waiting s L.c L.th (.mbox (L.arg1.toNat % 1024))) := by
    rw [← hcore, ← hslot]
    refine (thread_modThread v L.c L.slot t _).trans ?_
    have hv : v.thread? L.c L.slot t = some L.th := by
      rw [hcore, hslot]
      exact h.toAlone.thread
    rw [hv]
    rfl
  have hdue : (waiting s L.c L.th (.mbox (L.arg1.toNat % 1024))).due = [] := h.calm
  refine ⟨u, ?_, ?_, hu.hub ▸ rfl, congrArg Hub.slabWait hu.hub⟩
  · rw [execSlabModeChange_eq, ← hbody]
    exact congrArg _ (rules_privFrame h (by rw [hbody]; exact hu.cur) (by rw [hbody]; exact ht) hdue)
  · rwa [← hcore, ← hslot] at ht

/-! ## Keys drawn, loaded and cleared -/

theorem keyDraw_refused (h : Rules s (.keyDraw o) o noCheck t L) (hr : s.hub.recovery = false) (hc : L.cmd = 2) (hz : L.keySlot = 0) :
    Answers (.keyDraw o) s t L [2] fun u => u.hub = s.hub :=
  mboxOp_taken h (g := id) (show exec (.keyDraw o) s = _ from rfl) hr hc (by simp only [hz, if_true]; rfl) fun _ hu _ => hu

theorem keyDraw_draws (h : Rules s (.keyDraw o) o noCheck t L) (hr : s.hub.recovery = false) (hc : L.cmd = 2) (hz : L.keySlot ≠ 0) :
    Answers (.keyDraw o) s t L [0] fun u => u.keyLoaded L.keySlot = true ∧
      ((∀ n x, tfind s.memory.seals n = some x → x.gen < s.hub.keyGen) → ∀ pa, u.byteAt L.keySlot pa = none) ∧
      ∀ key pa, key ≠ L.keySlot → u.byteAt key pa = s.byteAt key pa := by
  refine mboxOp_taken h (g := fun _ => (s.newKey L.keySlot).hub) (show exec (.keyDraw o) s = _ from rfl) hr hc
    (by simp only [hz, if_false]; rfl) fun u hu hm => ⟨?_, byteAt_newKey hu hm, fun key pa hk => byteAt_newKey_other hu hm hk pa⟩
  rw [State.keyLoaded, hu]
  exact congrArg Option.isSome (tfind_tset_self _ _ _)

theorem keyClear_refused (h : Rules s (.keyClear o) o noCheck t L) (hr : s.hub.recovery = false) (hc : L.cmd = 4) (hz : L.keySlot = 0) :
    Answers (.keyClear o) s t L [2] fun u => u.hub = s.hub :=
  mboxOp_taken h (g := id) (show exec (.keyClear o) s = _ from rfl) hr hc (by simp only [hz, if_true]; rfl) fun _ hu _ => hu

theorem keyClear_clears (h : Rules s (.keyClear o) o noCheck t L) (hr : s.hub.recovery = false) (hc : L.cmd = 4) (hz : L.keySlot ≠ 0) :
    Answers (.keyClear o) s t L [0] fun u => u.keyLoaded L.keySlot = false ∧
      ∀ key, key ≠ L.keySlot → tfind u.hub.keys key = tfind s.hub.keys key := by
  refine mboxOp_taken h (g := fun x => { x with keys := tdel x.keys L.keySlot }) (show exec (.keyClear o) s = _ from rfl) hr hc
    (by simp only [hz, if_false]) fun u hu _ => ⟨?_, fun key hk => ?_⟩
  · rw [State.keyLoaded, hu, tfind_tdel, if_pos rfl]
    rfl
  · rw [hu, tfind_tdel, if_neg hk]

/-- KEY_LOAD_WRAPPED is carried out in its step: no slab change waits. -/
theorem execKeyLoadWrapped_alone (h : Rules s (.keyLoadWrapped o) o noCheck t L) :
    ∃ f, exec (.keyLoadWrapped o) s = .next (s.mboxOp (.keyLoadWrapped o) o 3 f) ∧
      f L s = if L.keySlot = 0 || L.arg2.toNat % 16 != 0 then ((2 : Word), s)
        else match s.hubLoad 0 L.arg2.toNat 80 with
          | .error s2 => (3, s2)
          | .ok (bs, s2) =>
            if (bs.getD 0 0).toNat % 128 = L.keySlot && bs.getD 1 0 == 1 && Config.unwraps bs then (0, s2.newKey L.keySlot) else (3, s2) :=
  ⟨_, congrArg _ (waitSlab_calm _ (keyLoad_unheld h)), rfl⟩

theorem keyLoad_refused (h : Rules s (.keyLoadWrapped o) o noCheck t L) (hr : s.hub.recovery = false) (hc : L.cmd = 3)
    (hz : L.keySlot = 0 ∨ L.arg2.toNat % 16 ≠ 0) : Answers (.keyLoadWrapped o) s t L [2] fun u => u.hub = s.hub := by
  obtain ⟨f, hx, hf⟩ := execKeyLoadWrapped_alone h
  refine mboxOp_taken h (g := id) hx hr hc ?_ fun _ hu _ => hu
  rw [hf, if_pos (by simpa using hz)]
  rfl

/-- What the request gives with the 80 bytes that stand at its address. -/
theorem keyLoad_reads (h : Rules s (.keyLoadWrapped o) o noCheck t L) {bs : List Byte} (hz : L.keySlot ≠ 0) (ha : L.arg2.toNat % 16 = 0)
    (hlen : bs.length = 80) (hs : Stands s L.arg2.toNat bs) :
    ∃ f, exec (.keyLoadWrapped o) s = .next (s.mboxOp (.keyLoadWrapped o) o 3 f) ∧
      f L s = if (bs.getD 0 0).toNat % 128 = L.keySlot ∧ bs.getD 1 0 = 1 ∧ Config.unwraps bs = true then ((0 : Word), s.newKey L.keySlot)
        else (3, s) := by
  obtain ⟨f, hx, hf⟩ := execKeyLoadWrapped_alone h
  refine ⟨f, hx, ?_⟩
  have hload := hubLoad_stands (keyLoad_unheld h) hs (fun hnil => by rw [hnil] at hlen; cases hlen)
  rw [hlen] at hload
  rw [hf, if_neg (by simp [hz, ha]), hload]
  simp only [Bool.and_eq_true, decide_eq_true_eq, beq_iff_eq, and_assoc]

theorem keyLoad_loads (h : Rules s (.keyLoadWrapped o) o noCheck t L) (hr : s.hub.recovery = false) (hc : L.cmd = 3)
    {bs : List Byte} (hz : L.keySlot ≠ 0) (ha : L.arg2.toNat % 16 = 0) (hlen : bs.length = 80) (hs : Stands s L.arg2.toNat bs)
    (hgood : (bs.getD 0 0).toNat % 128 = L.keySlot ∧ bs.getD 1 0 = 1 ∧ Config.unwraps bs = true) :
    Answers (.keyLoadWrapped o) s t L [0] fun u => tfind u.hub.keys L.keySlot = some s.hub.keyGen := by
  obtain ⟨f, hx, hf⟩ := keyLoad_reads h hz ha hlen hs
  refine mboxOp_taken h (g := fun _ => (s.newKey L.keySlot).hub) hx hr hc ?_ fun u hu _ => ?_
  · rw [hf, if_pos hgood]
    rfl
  · rw [hu]
    exact tfind_tset_self _ _ _

theorem keyLoad_fails (h : Rules s (.keyLoadWrapped o) o noCheck t L) (hr : s.hub.recovery = false) (hc : L.cmd = 3)
    {bs : List Byte} (hz : L.keySlot ≠ 0) (ha : L.arg2.toNat % 16 = 0) (hlen : bs.length = 80) (hs : Stands s L.arg2.toNat bs)
    (hbad : ¬ ((bs.getD 0 0).toNat % 128 = L.keySlot ∧ bs.getD 1 0 = 1 ∧ Config.unwraps bs = true)) :
    Answers (.keyLoadWrapped o) s t L [3] fun u => u.hub.keys = s.hub.keys := by
  obtain ⟨f, hx, hf⟩ := keyLoad_reads h hz ha hlen hs
  refine mboxOp_taken h (g := id) hx hr hc ?_ fun u hu _ => congrArg Hub.keys hu
  rw [hf, if_neg hbad]
  rfl

/-! ## The statement -/

/-- Each row of MBOX in recovery, and with another command than its own. -/
theorem mbox_unserved {cmd : Nat}
    (hi : (i, cmd) ∈ [(Instr.slabModeChange o, 1), (.keyDraw o, 2), (.keyLoadWrapped o, 3), (.keyClear o, 4)])
    (h : Rules s i o noCheck t L) :
    (s.hub.recovery = true → Answers i s t L [4] fun u => u.hub = s.hub) ∧
    (s.hub.recovery = false → L.cmd ≠ cmd → Answers i s t L [1] fun u => u.hub = s.hub) := by
  simp only [List.mem_cons, List.not_mem_nil, or_false, Prod.mk.injEq] at hi
  obtain ⟨rfl, rfl⟩ | ⟨rfl, rfl⟩ | ⟨rfl, rfl⟩ | ⟨rfl, rfl⟩ := hi
  · exact ⟨slabModeChange_recovery h, slabModeChange_unknown h⟩
  · exact ⟨mboxOp_recovery h rfl, mboxOp_unknown h rfl⟩
  · obtain ⟨f, hx, -⟩ := execKeyLoadWrapped_alone h
    exact ⟨mboxOp_recovery h hx, mboxOp_unknown h hx⟩
  · exact ⟨mboxOp_recovery h rfl, mboxOp_unknown h rfl⟩

/-- Settles O42: each request by its row of R390, on the lane that MBOX takes its words from. -/
theorem securityRequests : Obligations.SecurityRequests := by
  unfold Obligations.SecurityRequests
  refine ⟨fun i o cmd s t L hi h => mbox_unserved hi h, fun o s t L hr => ⟨fun h hc => ⟨?_, ?_⟩, fun h hc => ⟨?_, ?_⟩,
    fun h hc => ⟨?_, ?_⟩, fun h hc => ⟨?_, ?_, ?_⟩⟩⟩
  · exact keyDraw_refused h hr hc
  · exact keyDraw_draws h hr hc
  · exact keyLoad_refused h hr hc
  · exact fun bs hz ha hlen hs => ⟨keyLoad_loads h hr hc hz ha hlen hs, keyLoad_fails h hr hc hz ha hlen hs⟩
  · exact keyClear_refused h hr hc
  · exact keyClear_clears h hr hc
  · exact slabModeChange_outside h hr hc
  · exact slabModeChange_changes h hr hc
  · exact slabModeChange_waits h hr hc

end Sys2Proof.Laws
end

