-- ==== Sys2Proof/Proofs/HubRegisters.lean ====
section
/-! SUPPORT. The registers of the hub (O53, R212, R427 to R431): what a host's write leaves in its own and in every other. -/

namespace Sys2Proof.Laws

open Sys2Proof.Machine Sys2Proof.Claims

variable {s : State} {off k : Nat} {v : Dword}

/-! ## What a register reads -/

/-- The register of a queue at an offset of its 32 bytes. -/
def queueReg (q : Queue) (r : Nat) : Dword :=
  match r with
  | 0 => q.cfg
  | 8 => q.base
  | 16 => q.tail.setWidth 64
  | 24 => q.head.setWidth 64
  | _ => 0

/-- Eight bytes of the mailbox. -/
def mailReg (l : List Byte) (j : Nat) : Dword := BitVec.ofNat 64 (leNat ((List.range 8).map fun k => l.getD (j + k) 0))

theorem hubRead_queue (h : off < 0x800) : s.hubRead off = queueReg (s.queue (off / 0x20)) (off % 0x20) := by
  unfold State.hubRead queueReg
  exact if_pos h

theorem hubRead_mailbox (h1 : 0x4000 ≤ off) (h2 : off < 0x6000) (h3 : off % 8 = 0) :
    s.hubRead off = mailReg s.hub.mailbox (off - 0x4000) := by
  unfold State.hubRead mailReg
  simp only [h1, h2, h3, show ¬ off < 0x800 by omega, show ¬ off = 0x1000 by omega, show ¬ off = 0x1008 by omega,
    show ¬ off = 0x1010 by omega, show ¬ off = 0x1100 by omega, show ¬ off < 0x1240 by omega, show ¬ off < 0x1320 by omega,
    show ¬ off = 0x1340 by omega, show ¬ off = 0x1400 by omega, show ¬ off = 0x1408 by omega, show ¬ off < 0x2100 by omega,
    decide_true, decide_false, Bool.and_false, Bool.and_true, Bool.false_eq_true, if_false, if_true]

/-- The low n bits of a register are those that a mask of n ones leaves. -/
theorem lowBits_eq_and (v : Dword) (n : Nat) (m : Dword) (hm : m.toNat = 2 ^ n - 1) : (v.extractLsb' 0 n).setWidth 64 = v &&& m := by
  apply BitVec.eq_of_toNat_eq
  rw [BitVec.toNat_and, hm, Nat.and_two_pow_sub_one_eq_mod, BitVec.toNat_setWidth, BitVec.extractLsb'_toNat, Nat.shiftRight_zero]
  exact Nat.mod_eq_of_lt (Nat.lt_of_le_of_lt (Nat.mod_le _ _) v.isLt)

/-- A register of the hub holds v, and every other what it held. -/
structure Wrote (s u : State) (off : Nat) (v : Dword) : Prop where
  here  : u.hubRead off = v
  there : ∀ k, k ≠ off → u.hubRead k = s.hubRead k

/-! ## Queues -/

/-- One register of a queue changes. -/
theorem wrote_modQueue {f : Queue → Queue} (h : off < 0x800) (hf : ∀ x, queueReg (f x) (off % 0x20) = v)
    (hk : ∀ x r, r ≠ off % 0x20 → queueReg (f x) r = queueReg x r) : Wrote s (s.modQueue (off / 0x20) f) off v := by
  have hsame : (s.modQueue (off / 0x20) f).queue (off / 0x20) = f (s.queue (off / 0x20)) := tget_tset_self _ _ _ _
  refine ⟨by rw [hubRead_queue h, hsame, hf], fun k hne => ?_⟩
  by_cases h8 : k < 0x800
  · rw [hubRead_queue h8, hubRead_queue h8]
    by_cases hq : k / 0x20 = off / 0x20
    · rw [hq, hsame, hk _ _ (by omega)]
    · exact congrArg (queueReg · _) (tget_tset_other _ _ _ hq)
  · unfold State.hubRead
    rw [if_neg h8, if_neg h8]
    rfl

theorem wrote_base (h : off < 0x800) (hr : off % 0x20 = 8) : Wrote s (s.hubWrite true off v) off (v &&& 0xFFFFFFFFFF000) := by
  have hw : s.hubWrite true off v = s.modQueue (off / 0x20) fun x => { x with base := v &&& 0xFFFFFFFFFF000 } := by
    unfold State.hubWrite
    rw [if_pos h]
    simp only [hr]
  rw [hw]
  refine wrote_modQueue h (fun x => by rw [hr]; rfl) fun x r hne => ?_
  rw [hr] at hne
  unfold queueReg
  split
  · rfl
  · exact absurd rfl hne
  · rfl
  · rfl
  · rfl

theorem wrote_tail (h : off < 0x800) (hr : off % 0x20 = 16) : Wrote s (s.hubWrite true off v) off (v &&& 0xFFFFFFFF) := by
  have hw : s.hubWrite true off v = s.modQueue (off / 0x20) fun x => { x with tail := lowWord v } := by
    unfold State.hubWrite
    rw [if_pos h]
    simp only [hr]
    rfl
  rw [hw]
  refine wrote_modQueue h (fun x => ?_) fun x r hne => ?_
  · rw [hr]
    exact lowBits_eq_and v 32 _ rfl
  · rw [hr] at hne
    unfold queueReg
    split
    · rfl
    · rfl
    · exact absurd rfl hne
    · rfl
    · rfl

/-! ## Registers of one word -/

theorem wrote_presave : Wrote s (s.hubWrite true 0x1008 v) 0x1008 (v &&& 0xFFFFFFFE00000) := by
  refine ⟨rfl, fun k hne => ?_⟩
  unfold State.hubRead
  simp only [hne, if_false]
  rfl

theorem wrote_floor : Wrote s (s.hubWrite true 0x1100 v) 0x1100 (v &&& 0x7F) := by
  refine ⟨rfl, fun k hne => ?_⟩
  unfold State.hubRead
  simp only [hne, if_false]
  rfl

theorem wrote_commcfg : Wrote s (s.hubWrite true 0x1400 v) 0x1400 (v &&& 0x800FFFFFFFFFF000) := by
  refine ⟨rfl, fun k hne => ?_⟩
  unfold State.hubRead
  simp only [hne, if_false]
  rfl

theorem wrote_hkey : Wrote s (s.hubWrite true 0x1340 v) 0x1340 (v &&& 0x7F) := by
  refine ⟨?_, fun k hne => ?_⟩
  · exact lowBits_eq_and v 7 _ rfl
  · unfold State.hubRead
    simp only [hne, if_false]
    rfl

/-! ## Tables of registers -/

theorem wrote_pmap (h1 : 0x1200 ≤ off) (h2 : off < 0x1240) (h3 : off % 8 = 0) :
    Wrote s (s.hubWrite true off v) off (v &&& 0xFFFFFFFF) := by
  have hw : s.hubWrite true off v = s.modHub fun h => { h with pmap := tset h.pmap ((off - 0x1200) / 8) (lowWord v) } := by
    unfold State.hubWrite
    simp only [h1, h2, h3, show ¬ off < 0x800 by omega, show ¬ off = 0x1000 by omega, show ¬ off = 0x1008 by omega,
      show ¬ off = 0x1100 by omega, decide_true, Bool.and_self, if_false, if_true]
  have hr : ∀ (u : State) k, 0x1200 ≤ k → k < 0x1240 → k % 8 = 0 → u.hubRead k = (tget 0 u.hub.pmap ((k - 0x1200) / 8)).setWidth 64 := by
    intro u k k1 k2 k3
    unfold State.hubRead
    simp only [k1, k2, k3, show ¬ k < 0x800 by omega, show ¬ k = 0x1000 by omega, show ¬ k = 0x1008 by omega,
      show ¬ k = 0x1010 by omega, show ¬ k = 0x1100 by omega, decide_true, Bool.and_self, if_false, if_true]
  rw [hw]
  refine ⟨?_, fun k hne => ?_⟩
  · rw [hr _ _ h1 h2 h3, modHub_hub, tget_tset_self]
    exact lowBits_eq_and v 32 _ rfl
  · by_cases hk : 0x1200 ≤ k ∧ k < 0x1240 ∧ k % 8 = 0
    · obtain ⟨k1, k2, k3⟩ := hk
      rw [hr _ _ k1 k2 k3, hr _ _ k1 k2 k3, modHub_hub, tget_tset_other _ _ _ (by omega)]
    · unfold State.hubRead
      have hno : (decide (0x1200 ≤ k) && decide (k < 0x1240) && decide (k % 8 = 0)) = false := by simpa [and_assoc] using hk
      simp only [hno, Bool.false_eq_true, if_false]
      rfl

theorem wrote_supctx (h1 : 0x1300 ≤ off) (h2 : off < 0x1320) (h3 : off % 8 = 0) :
    Wrote s (s.hubWrite true off v) off (v &&& 0x8000000000000FFF) := by
  have hw : s.hubWrite true off v = s.writeSupctx ((off - 0x1300) / 8) v := by
    unfold State.hubWrite
    simp only [h1, h2, h3, show ¬ off < 0x800 by omega, show ¬ off = 0x1000 by omega, show ¬ off = 0x1008 by omega,
      show ¬ off = 0x1100 by omega, show ¬ off < 0x1240 by omega, decide_true, decide_false, Bool.and_false, Bool.false_and,
      Bool.false_eq_true, Bool.and_self, if_false, if_true]
  have hr : ∀ (u : State) k, 0x1300 ≤ k → k < 0x1320 → k % 8 = 0 → u.hubRead k = tget 0 u.hub.supctx ((k - 0x1300) / 8) := by
    intro u k k1 k2 k3
    unfold State.hubRead
    simp only [k1, k2, k3, show ¬ k < 0x800 by omega, show ¬ k = 0x1000 by omega, show ¬ k = 0x1008 by omega,
      show ¬ k = 0x1010 by omega, show ¬ k = 0x1100 by omega, show ¬ k < 0x1240 by omega, decide_true, decide_false, Bool.and_false,
      Bool.false_and, Bool.false_eq_true, Bool.and_self, if_false, if_true]
  rw [hw]
  refine ⟨?_, fun k hne => ?_⟩
  · rw [hr _ _ h1 h2 h3, State.writeSupctx, modHub_hub, tget_tset_self]
  · by_cases hk : 0x1300 ≤ k ∧ k < 0x1320 ∧ k % 8 = 0
    · obtain ⟨k1, k2, k3⟩ := hk
      rw [hr _ _ k1 k2 k3, hr _ _ k1 k2 k3, State.writeSupctx, modHub_hub, tget_tset_other _ _ _ (by omega)]
    · unfold State.hubRead
      have hno : (decide (0x1300 ≤ k) && decide (k < 0x1320) && decide (k % 8 = 0)) = false := by simpa [and_assoc] using hk
      simp only [hno, Bool.false_eq_true, if_false]
      rfl

/-! ## The mailbox -/

theorem mailboxPut_getD (l : List Byte) (o : Nat) (bs : List Byte) (j : Nat) :
    (mailboxPut l o bs).getD j 0 = if o ≤ j ∧ j < o + bs.length then bs.getD (j - o) 0 else l.getD j 0 := by
  unfold mailboxPut
  dsimp only
  generalize hf : l ++ List.replicate (o + bs.length - l.length) 0 = full
  have hlen : o + bs.length ≤ full.length := by
    rw [← hf, List.length_append, List.length_replicate]
    omega
  have hget : full.getD j 0 = l.getD j 0 := by
    rw [← hf]
    by_cases hj : j < l.length
    · rw [List.getD_append _ _ _ _ hj]
    · rw [List.getD_append_right _ _ _ _ (by omega), List.getD_eq_default l _ (by omega)]
      simp only [List.getD, List.getElem?_replicate]
      split <;> rfl
  have htake : (full.take o).length = o := by rw [List.length_take]; omega
  by_cases h1 : j < o
  · rw [if_neg (by omega), List.append_assoc, List.getD_append _ _ _ _ (by omega), ← hget]
    simp [List.getD, h1]
  · by_cases h2 : j < o + bs.length
    · rw [if_pos ⟨by omega, h2⟩, List.getD_append _ _ _ _ (by rw [List.length_append]; omega), List.getD_append_right _ _ _ _ (by omega), htake]
    · rw [if_neg (by omega), List.getD_append_right _ _ _ _ (by rw [List.length_append]; omega), ← hget]
      simp only [List.getD, List.getElem?_drop, List.length_append, htake]
      rw [show o + bs.length + (j - (o + bs.length)) = j by omega]

@[simp] theorem leBytes_length (n v : Nat) : (leBytes n v).length = n := by
  induction n generalizing v with
  | zero => rfl
  | succ n ih => rw [leBytes, List.length_cons, ih]

theorem leNat_leBytes (n v : Nat) : leNat (leBytes n v) = v % 256 ^ n := by
  induction n generalizing v with
  | zero => simp [leBytes, leNat, Nat.mod_one]
  | succ n ih =>
    rw [leBytes, leNat, ih, BitVec.toNat_ofNat, show 2 ^ 8 = 256 from rfl, Nat.pow_succ', Nat.mod_mul]

theorem map_range_getD (bs : List Byte) : (List.range bs.length).map (fun k => bs.getD k 0) = bs := by
  refine List.ext_getElem (by simp) fun k h1 h2 => ?_
  simp [List.getD, h2]

/-- Bytes put into the mailbox stand there. -/
theorem map_mailboxPut (l : List Byte) (o : Nat) (bs : List Byte) :
    (List.range bs.length).map (fun k => (mailboxPut l o bs).getD (o + k) 0) = bs := by
  refine Eq.trans (List.map_congr_left fun k hk => ?_) (map_range_getD bs)
  have := List.mem_range.1 hk
  rw [mailboxPut_getD, if_pos ⟨by omega, by omega⟩, Nat.add_sub_cancel_left]

/-- A state with another mailbox. -/
def withMail (s : State) (l : List Byte) : State := s.modHub fun h => { h with mailbox := l }

/-- What the mailbox's own register reads after eight bytes have been put into it. -/
theorem mailReg_mailboxPut (l : List Byte) (o : Nat) (v : Dword) : mailReg (mailboxPut l o (leBytes 8 v.toNat)) o = v := by
  have hmap := map_mailboxPut l o (leBytes 8 v.toNat)
  rw [leBytes_length] at hmap
  rw [mailReg, hmap, leNat_leBytes, Nat.mod_eq_of_lt (show v.toNat < 256 ^ 8 from v.isLt), BitVec.ofNat_toNat, BitVec.setWidth_eq]

/-- Another register of the mailbox reads as before. -/
theorem mailReg_mailboxPut_other (l : List Byte) {o j : Nat} (bs : List Byte) (h : j + 8 ≤ o ∨ o + bs.length ≤ j) :
    mailReg (mailboxPut l o bs) j = mailReg l j := by
  unfold mailReg
  refine congrArg (fun l => BitVec.ofNat 64 (leNat l)) (List.map_congr_left fun i hi => ?_)
  have := List.mem_range.1 hi
  rw [mailboxPut_getD, if_neg (by omega)]

/-- A register that is not in the mailbox does not look at it. -/
theorem hubRead_withMail (s : State) (l : List Byte) {k : Nat} (hk : ¬ (0x4000 ≤ k ∧ k < 0x6000 ∧ k % 8 = 0)) :
    (withMail s l).hubRead k = s.hubRead k := by
  unfold State.hubRead
  have hno : (decide (0x4000 ≤ k) && decide (k < 0x6000) && decide (k % 8 = 0)) = false := by simpa [and_assoc] using hk
  simp only [hno, Bool.false_eq_true, if_false]
  rfl

theorem hubWrite_mailbox (h1 : 0x4000 ≤ off) (h2 : off < 0x6000) (h3 : off % 8 = 0) :
    s.hubWrite true off v = withMail s (mailboxPut s.hub.mailbox (off - 0x4000) (leBytes 8 v.toNat)) := by
  unfold State.hubWrite
  simp only [h1, h2, h3, show ¬ off < 0x800 by omega, show ¬ off = 0x1000 by omega, show ¬ off = 0x1008 by omega,
    show ¬ off = 0x1100 by omega, show ¬ off < 0x1240 by omega, show ¬ off < 0x1320 by omega, show ¬ off = 0x1340 by omega,
    show ¬ off = 0x1400 by omega, show ¬ off < 0x2100 by omega, decide_true, decide_false, Bool.and_false, Bool.false_and,
    Bool.false_eq_true, Bool.and_self, if_false, if_true, withMail, State.modHub]

theorem wrote_mailbox (h1 : 0x4000 ≤ off) (h2 : off < 0x6000) (h3 : off % 8 = 0) :
    Wrote s (s.hubWrite true off v) off (v &&& 0xFFFFFFFFFFFFFFFF) := by
  have hm : ∀ l, (withMail s l).hub.mailbox = l := fun _ => rfl
  rw [hubWrite_mailbox h1 h2 h3]
  refine ⟨?_, fun k hne => ?_⟩
  · have hall : v &&& 0xFFFFFFFFFFFFFFFF = v := BitVec.and_allOnes
    rw [hubRead_mailbox h1 h2 h3, hm, mailReg_mailboxPut, hall]
  · by_cases hk : 0x4000 ≤ k ∧ k < 0x6000 ∧ k % 8 = 0
    · obtain ⟨k1, k2, k3⟩ := hk
      rw [hubRead_mailbox k1 k2 k3, hubRead_mailbox k1 k2 k3, hm]
      exact mailReg_mailboxPut_other _ _ (by rw [leBytes_length]; omega)
    · exact hubRead_withMail _ _ hk

/-! ## A write of the host -/

/-- A register that is written whole holds the bits it keeps. -/
theorem wrote_kept {m : Dword} (h : keptBits off = some m) : off % 8 = 0 ∧ Wrote s (s.hubWrite true off v) off (v &&& m) := by
  unfold keptBits at h
  split at h
  · next h8 =>
    split at h
    · next hr =>
      obtain rfl := Option.some.inj h
      exact ⟨by omega, wrote_base h8 hr⟩
    · split at h
      · next hr =>
        obtain rfl := Option.some.inj h
        exact ⟨by omega, wrote_tail h8 hr⟩
      · cases h
  split at h
  · next hoff =>
    obtain rfl := Option.some.inj h
    subst hoff
    exact ⟨rfl, wrote_presave⟩
  split at h
  · next hoff =>
    obtain rfl := Option.some.inj h
    subst hoff
    exact ⟨rfl, wrote_floor⟩
  split at h
  · next hoff =>
    obtain rfl := Option.some.inj h
    exact ⟨hoff.2.2, wrote_pmap hoff.1 hoff.2.1 hoff.2.2⟩
  split at h
  · next hoff =>
    obtain rfl := Option.some.inj h
    exact ⟨hoff.2.2, wrote_supctx hoff.1 hoff.2.1 hoff.2.2⟩
  split at h
  · next hoff =>
    obtain rfl := Option.some.inj h
    subst hoff
    exact ⟨rfl, wrote_hkey⟩
  split at h
  · next hoff =>
    obtain rfl := Option.some.inj h
    subst hoff
    exact ⟨rfl, wrote_commcfg⟩
  split at h
  · next hoff =>
    obtain rfl := Option.some.inj h
    exact ⟨hoff.2.2, wrote_mailbox hoff.1 hoff.2.1 hoff.2.2⟩
  · cases h

/-- No write changes a register that is read only. -/
theorem hubWrite_readOnly (h : readOnly off = true) : s.hubWrite true off v = s := by
  simp only [readOnly, Bool.or_eq_true, Bool.and_eq_true, decide_eq_true_eq, beq_iff_eq] at h
  unfold State.hubWrite
  obtain ((⟨h8, hr⟩ | rfl) | rfl) | ⟨⟨h1, h2⟩, hr⟩ := h
  · rw [if_pos h8]
    simp only [hr]
  · rfl
  · rfl
  · simp only [h1, h2, hr, show ¬ off < 0x800 by omega, show ¬ off = 0x1000 by omega, show ¬ off = 0x1008 by omega,
      show ¬ off = 0x1100 by omega, show ¬ off < 0x1240 by omega, show ¬ off < 0x1320 by omega, show ¬ off = 0x1340 by omega,
      show ¬ off = 0x1400 by omega, decide_true, decide_false, Bool.and_false, Bool.false_and,
      Bool.false_eq_true, Bool.and_self, if_false, if_true]

theorem registerWrite_writes (s : State) (off : Nat) (v : Dword) :
    (∀ m, keptBits off = some m → ∃ u, exec (.registerWrite off v) s = .next u ∧ u.hubRead off = v &&& m ∧
      ∀ k, k ≠ off → u.hubRead k = s.hubRead k) ∧
    (readOnly off = true ∨ off % 8 ≠ 0 → exec (.registerWrite off v) s = .next s) := by
  have hx : exec (.registerWrite off v) s = .next (if off % 8 = 0 then s.hubWrite true off v else s) := rfl
  refine ⟨fun m hm => ?_, fun hno => ?_⟩
  · obtain ⟨h8, hw⟩ := wrote_kept (s := s) (v := v) hm
    exact ⟨_, by rw [hx, if_pos h8], hw.here, hw.there⟩
  · rw [hx]
    split
    · next h8 => rw [hubWrite_readOnly (hno.resolve_right (not_not_intro h8))]
    · rfl

theorem supctxWrite_writes (s : State) (k : Nat) (v : Dword) : ∃ u, exec (.supctxWrite k v) s = .next u ∧
    tget 0 u.hub.supctx k = v &&& 0x8000000000000FFF ∧ ∀ n, n ≠ k → tget 0 u.hub.supctx n = tget 0 s.hub.supctx n :=
  ⟨s.writeSupctx k v, rfl, tget_tset_self _ _ _ _, fun _ hn => tget_tset_other _ _ _ hn⟩

end Sys2Proof.Laws
end

