-- ==== Sys2Proof/Proofs/LinkNotices.lean ====
section
/-! SUPPORT. CXL links that go down and come up (O53, R28, R447): the accesses of cores, the lines of jobs, the notice. -/

namespace Sys2Proof.Laws

open Sys2Proof.Machine Sys2Proof.Claims

/-! ## Tables whose entries are all changed -/

theorem tfind_mapVals {α β : Type} (t : Tbl α) (f : Nat → α → β) (k : Nat) :
    tfind (t.map fun e => (e.1, f e.1 e.2)) k = (tfind t k).map (f k) := by
  induction t with
  | nil => rfl
  | cons e t ih =>
    obtain ⟨i, a⟩ := e
    simp only [List.map_cons, tfind]
    split
    · next h =>
      subst h
      rfl
    · exact ih

/-- Entry k where a change of every entry leaves the default as it is. -/
theorem tget_mapVals {α : Type} (t : Tbl α) (f : α → α) (d : α) (k : Nat) (h : f d = d) :
    tget d (t.map fun e => (e.1, f e.2)) k = f (tget d t k) := by
  rw [tget, tget, tfind_mapVals t (fun _ => f)]
  cases tfind t k with
  | none => exact h.symm
  | some a => rfl

/-! ## The notice of a link -/

/-- An event raises no vector. -/
theorem msix_modThread (s : State) (c g t : Nat) (f : Thread → Thread) : (s.modThread c g t f).hub.msix = s.hub.msix :=
  congrArg Hub.msix (modThread_same s c g t f).hub

theorem msix_serveIdler (s : State) (w : Idler) : (s.serveIdler w).hub.msix = s.hub.msix := by
  have hfold : ∀ (l : List (Nat × Reg)) (f : Nat × Reg → Thread → Thread) (s : State),
      (l.foldl (fun s2 d => s2.modThread w.core w.slot d.1 (f d)) s).hub.msix = s.hub.msix := by
    intro l f s
    induction l generalizing s with
    | nil => rfl
    | cons d l ih => exact (ih _).trans (msix_modThread _ _ _ _ _)
  unfold State.serveIdler
  split
  · rfl
  · dsimp only
    split
    · rfl
    · exact hfold _ _ _

theorem msix_raiseEvent (s : State) (bit : Nat) : (s.raiseEvent bit).hub.msix = s.hub.msix := by
  unfold State.raiseEvent
  have hfold : ∀ (l : List Idler) (s : State), (l.foldl State.serveIdler s).hub.msix = s.hub.msix := by
    intro l s
    induction l generalizing s with
    | nil => rfl
    | cons w l ih => exact (ih _).trans (msix_serveIdler _ _)
  exact hfold _ _

theorem told_linkNotice (s : State) : Told s s.linkNotice := by
  have hv : Told s (s.raiseMsix 6) := ⟨rfl, fun _ => rfl⟩
  exact hv.trans (told_raiseEvent _ 4)

theorem msix_linkNotice (s : State) : s.linkNotice.hub.msix = s.hub.msix ++ [6] := msix_raiseEvent _ 4

/-! ## Accesses that end -/

/-- Accesses may have gone, threads and what stands in the hub of launches, convoys and contexts have changed. -/
structure Fewer (s u : State) : Prop where
  accs : ∀ c, ∀ a ∈ (u.core c).accs, a ∈ (s.core c).accs
  hub  : u.hub = { s.hub with launches := u.hub.launches, convoys := u.hub.convoys, contexts := u.hub.contexts }

theorem Fewer.refl (s : State) : Fewer s s := ⟨fun _ _ h => h, rfl⟩

theorem Fewer.trans {s u v : State} (h : Fewer s u) (k : Fewer u v) : Fewer s v := by
  refine ⟨fun c a ha => h.accs c a (k.accs c a ha), ?_⟩
  have := k.hub
  rw [h.hub] at this
  exact this

theorem fewer_foldl {β : Type} {f : State → β → State} (h : ∀ s b, Fewer s (f s b)) (l : List β) (s : State) : Fewer s (l.foldl f s) := by
  induction l generalizing s with
  | nil => exact Fewer.refl s
  | cons b l ih => exact (h s b).trans (ih _)

theorem fewer_same {s u : State} (h : s.SameMachine u) : Fewer s u :=
  ⟨fun c a ha => by rwa [h.cores c] at ha, h.hub⟩

theorem fewer_modCore (s : State) (c : Nat) {f : Core → Core} (h : ∀ k, ∀ a ∈ (f k).accs, a ∈ k.accs) : Fewer s (s.modCore c f) := by
  refine ⟨fun n a ha => ?_, rfl⟩
  by_cases hn : n = c
  · subst hn
    rw [core_modCore] at ha
    exact h _ a ha
  · rwa [core_modCore_other _ _ hn] at ha

theorem fewer_removeAcc (s : State) (c id : Nat) : Fewer s (s.removeAcc c id) := fewer_modCore s c fun _ _ ha => (List.mem_filter.1 ha).1

theorem mem_removeAcc {s : State} {c id : Nat} {a : Acc} (h : a ∈ ((s.removeAcc c id).core c).accs) : a.id ≠ id := by
  rw [State.removeAcc, core_modCore] at h
  simpa using (List.mem_filter.1 h).2

/-- One access ends at a lost line. -/
def cutAcc (c : Nat) (s : State) (a : Acc) : State :=
  if !a.quiet then s.poisonAcc c a
  else if a.phase == .renew then (s.removeAcc c a.id).modCore c (·.freeLease a.pa a.key) else s.removeAcc c a.id

theorem accs_freeLease (k : Core) (pa key : Nat) : (k.freeLease pa key).accs = k.accs := by
  unfold Core.freeLease
  split <;> rfl

/-- It is gone, and no other access has come. -/
theorem fewer_cutAcc (c : Nat) (s : State) (a : Acc) : Fewer (s.removeAcc c a.id) (cutAcc c s a) := by
  unfold cutAcc
  split
  · unfold State.poisonAcc State.freeWords State.defer
    refine Fewer.trans ?_ (fewer_same (same_settle _ _ _ _))
    refine Fewer.trans ?_ (fewer_same (same_modThread _ _ _ _ _))
    refine Fewer.trans ?_ (fewer_same (same_modThread _ _ _ _ _))
    exact ⟨fun _ _ h => h, rfl⟩
  · split
    · exact fewer_modCore _ _ fun k a ha => by rwa [accs_freeLease] at ha
    · exact Fewer.refl _

/-- The accesses of a list end. -/
theorem fewer_cutAccs (c : Nat) (l : List Acc) (s : State) :
    Fewer s (l.foldl (cutAcc c) s) ∧ ∀ a ∈ ((l.foldl (cutAcc c) s).core c).accs, a ∉ l := by
  induction l generalizing s with
  | nil => exact ⟨Fewer.refl s, fun _ _ => List.not_mem_nil⟩
  | cons b l ih =>
    obtain ⟨hf, hno⟩ := ih (cutAcc c s b)
    have hb : Fewer s (cutAcc c s b) := (fewer_removeAcc s c b.id).trans (fewer_cutAcc c s b)
    refine ⟨hb.trans hf, fun a ha hmem => ?_⟩
    rcases List.mem_cons.1 hmem with rfl | hl
    · exact mem_removeAcc ((fewer_cutAcc c s a).accs c a (hf.accs c a ha)) rfl
    · exact hno a ha hl

/-- A core's accesses to lost lines that are under way end. -/
theorem fewer_cutCore (s : State) (lost : Nat → Bool) (c : Nat) :
    Fewer s (s.cutCore lost c) ∧ ∀ a ∈ ((s.cutCore lost c).core c).accs, ¬ (lost a.pa = true ∧ a.outstanding = true) := by
  let gone := (s.core c).accs.filter fun a => lost a.pa && a.outstanding
  let mark : Core → Core := fun k =>
    { k with misses := k.misses.map fun e => if lost e.2.pa && e.2.sector != 4 then (e.1, { e.2 with stale := true }) else e }
  have hcut : s.cutCore lost c = (gone.foldl (cutAcc c) s).modCore c mark := rfl
  obtain ⟨hf, hno⟩ := fewer_cutAccs c gone s
  have hm : Fewer (gone.foldl (cutAcc c) s) ((gone.foldl (cutAcc c) s).modCore c mark) := fewer_modCore _ _ fun _ _ ha => ha
  rw [hcut]
  refine ⟨hf.trans hm, fun a ha hlost => ?_⟩
  have hin := hm.accs c a ha
  exact hno a hin (List.mem_filter.2 ⟨hf.accs c a hin, by simp [hlost]⟩)

end Sys2Proof.Laws
end

