-- ==== Sys2Proof/Proofs/CxlLinks.lean ====
section
/-! SUPPORT. The two statements of a CXL link (O53, R28, R447). -/

namespace Sys2Proof.Laws

open Sys2Proof.Machine Sys2Proof.Claims

/-- The lines that go with a CXL link. -/
def goesWith (s : State) (p pa : Nat) : Bool := (s.homeCell pa).any (fun cell => farCell ≤ cell && s.portOf cell == some p)

theorem goesWith_iff {s : State} {p pa : Nat} : goesWith s p pa = true ↔ Behind s p pa := by
  unfold goesWith Behind
  cases hc : s.homeCell pa with
  | none => simp
  | some cell => simp

/-- A link that goes down: the state before its notice. -/
def cutLink (s : State) (p : Nat) : State := (s.modHub (fun h => { h with ports := tset h.ports p false })).cutOff (goesWith s p)

theorem cxlLinkDown_eq {s : State} {p : Nat} (h4 : p < 4) (hp : tget true s.hub.ports p = true) :
    exec (.cxlLinkDown p) s = .next (cutLink s p).linkNotice := by
  show (if 4 ≤ p || !(tget true s.hub.ports p) then (.next s : Out) else .next (cutLink s p).linkNotice) = _
  rw [if_neg (by simp [hp, h4])]

/-- The cores one after another. -/
theorem fewer_cutCores (lost : Nat → Bool) (l : List Nat) (s : State) :
    Fewer s (l.foldl (fun s1 c => s1.cutCore lost c) s) ∧
      ∀ c ∈ l, ∀ a ∈ ((l.foldl (fun s1 c => s1.cutCore lost c) s).core c).accs, ¬ (lost a.pa = true ∧ a.outstanding = true) := by
  induction l generalizing s with
  | nil => exact ⟨Fewer.refl s, fun _ h => absurd h List.not_mem_nil⟩
  | cons b l ih =>
    obtain ⟨hb, hbno⟩ := fewer_cutCore s lost b
    obtain ⟨hf, hno⟩ := ih (s.cutCore lost b)
    refine ⟨hb.trans hf, fun c hc a ha => ?_⟩
    rcases List.mem_cons.1 hc with rfl | hl
    · exact hbno a (hf.accs c a ha)
    · exact hno c hl a ha

/-- A core that is not in the table has no accesses. -/
theorem accs_absent {s : State} {c : Nat} (h : c ∉ s.cores.map (·.1)) : (s.core c).accs = [] := by
  have hnone : tfind s.cores c = none := by
    generalize s.cores = t at h
    induction t with
    | nil => rfl
    | cons e t ih =>
      simp only [List.map_cons, List.mem_cons, not_or] at h
      exact (if_neg (Ne.symm h.1)).trans (ih h.2)
  rw [State.core, tget, hnone]
  rfl

/-- Every core's accesses to lost lines have ended. -/
def cutCores (s : State) (lost : Nat → Bool) : State := (s.cores.map (·.1)).foldl (fun s1 c => s1.cutCore lost c) s

/-- No access under way to a lost line is left at any core. -/
theorem cutOff_accs (s : State) (lost : Nat → Bool) (c : Nat) :
    ∀ a ∈ ((s.cutOff lost).core c).accs, ¬ (lost a.pa = true ∧ a.outstanding = true) := by
  intro a ha
  obtain ⟨hf, hno⟩ := fewer_cutCores lost (s.cores.map (·.1)) s
  by_cases hc : c ∈ s.cores.map (·.1)
  · exact hno c hc a ha
  · have := hf.accs c a ha
    rw [accs_absent hc] at this
    exact absurd this List.not_mem_nil

theorem cutOff_hub (s : State) (lost : Nat → Bool) :
    (s.cutOff lost).hub = { s.hub with
      launches := (s.cutOff lost).hub.launches, convoys := (s.cutOff lost).hub.convoys, contexts := (s.cutOff lost).hub.contexts } := by
  have hh : (s.cutOff lost).hub = (cutCores s lost).hub := rfl
  rw [hh]
  exact (fewer_cutCores lost (s.cores.map (·.1)) s).1.hub

/-- A job's line, come as poison where it is lost. -/
def cutLine (lost : Nat → Bool) (l : Line) : Line := if lost l.pa && l.got.isNone then { l with got := some poisonGot } else l

theorem cutOff_cluster (s : State) (lost : Nat → Bool) (k : Nat) :
    (s.cutOff lost).cluster k = { (cutCores s lost).cluster k with
      jobs := ((cutCores s lost).cluster k).jobs.map fun j => { j with lines := j.lines.map (cutLine lost) } } :=
  tget_mapVals (cutCores s lost).clusters
    (fun x => { x with jobs := x.jobs.map fun j => { j with lines := j.lines.map (cutLine lost) } }) Cluster.reset k rfl

/-- A line that a job waits for on a lost line has come, poisoned. -/
theorem cutOff_lines (s : State) (lost : Nat → Bool) (k : Nat) :
    ∀ j ∈ ((s.cutOff lost).cluster k).jobs, ∀ l ∈ j.lines, lost l.pa = true → l.got ≠ none := by
  intro j hj l hl hlost
  rw [cutOff_cluster] at hj
  obtain ⟨j0, -, rfl⟩ := List.mem_map.1 hj
  obtain ⟨l0, -, rfl⟩ := List.mem_map.1 hl
  unfold cutLine at hlost ⊢
  split
  · exact Option.some_ne_none _
  · next h =>
    rw [if_neg h] at hlost
    intro hnone
    exact h (by simp [hlost, hnone])

/-! ## The statements -/

/-- A link that goes down (R28). -/
theorem cxlLinkDown_cuts {s : State} {p : Nat} (h4 : p < 4) (hp : tget true s.hub.ports p = true) :
    ∃ u, exec (.cxlLinkDown p) s = .next u ∧
      u.hub.msix = s.hub.msix ++ [6] ∧ (∀ cell, farCell ≤ cell → u.portOf cell = some p → u.lost cell = true) ∧
      (∀ c, ∀ a ∈ (u.core c).accs, Behind s p a.pa → a.phase = .logged ∨ a.phase = .walk ∨ a.phase = .parked ∨ a.phase = .held) ∧
      ∀ k, ∀ j ∈ (u.cluster k).jobs, ∀ l ∈ j.lines, Behind s p l.pa → l.got ≠ none := by
  have hmsix : (cutLink s p).hub.msix = s.hub.msix := by
    rw [cutLink, cutOff_hub]
    rfl
  have hports : (cutLink s p).hub.ports = tset s.hub.ports p false := by
    rw [cutLink, cutOff_hub]
    rfl
  have htold := told_linkNotice (cutLink s p)
  have hports' : (cutLink s p).linkNotice.hub.ports = tset s.hub.ports p false := (congrArg (·.hub.ports) htold.state).trans hports
  refine ⟨(cutLink s p).linkNotice, cxlLinkDown_eq h4 hp, by rw [msix_linkNotice, hmsix], fun cell hfar hport => ?_, fun c a ha hb => ?_,
    fun k j hj l hl hb => ?_⟩
  · have hdown : (cutLink s p).linkNotice.portDown cell = true := by
      simp only [State.portDown, hport, hports', tget_tset_self, hfar, decide_true, Bool.not_false, Bool.and_self]
    rw [State.lost, hdown, Bool.or_true]
  · rw [htold.cores c] at ha
    have hno := cutOff_accs _ _ c a ha
    by_contra hphase
    refine hno ⟨goesWith_iff.2 hb, ?_⟩
    unfold Acc.outstanding
    split <;> simp_all
  · rw [htold.cluster k] at hj
    exact cutOff_lines _ _ k j hj l hl (goesWith_iff.2 hb)

/-- A cell lies behind a port. -/
def behindPort (s : State) (p cell : Nat) : Bool := farCell ≤ cell && s.portOf cell == some p

/-- The times of a line that a timestamp cache holds, zero where the line lies behind the port. -/
def zeroTime (s : State) (p : Nat) (e : Nat × (Dword × Dword)) : Nat × (Dword × Dword) :=
  if behindPort s p (e.1 * 256) then (e.1, (0, 0)) else e

/-- A link that comes up: the state before its notice. -/
def joinLink (s : State) (p : Nat) : State :=
  ({ s with
    memory := s.memory.forgetLines (behindPort s p), errors := s.errors.filter (fun e => !behindPort s p (e.1 * 64))
    vaults := s.vaults.map (fun (v : Nat × Vault) => (v.1, { v.2 with farTs := v.2.farTs.map (zeroTime s p) })) } : State).modHub
      fun h => { h with ports := tset h.ports p true }

theorem joinLink_vault (s : State) (p v : Nat) :
    (joinLink s p).vault v = { s.vault v with farTs := (s.vault v).farTs.map (zeroTime s p) } :=
  tget_mapVals s.vaults (fun y => { y with farTs := y.farTs.map (zeroTime s p) }) Vault.reset v rfl

theorem cxlLinkUp_eq {s : State} {p : Nat} (h4 : p < 4) (hp : tget true s.hub.ports p = false) :
    exec (.cxlLinkUp p) s = .next (joinLink s p).linkNotice := by
  show (if 4 ≤ p || tget true s.hub.ports p then (.next s : Out) else .next (joinLink s p).linkNotice) = _
  rw [if_neg (by simp [hp, h4])]

/-- A link that comes up again: the memory behind it is initialised (R447), and so are its lines' times (R81). -/
theorem cxlLinkUp_joins {s : State} {p : Nat} (h4 : p < 4) (hp : tget true s.hub.ports p = false) :
    ∃ u, exec (.cxlLinkUp p) s = .next u ∧ u.hub.msix = s.hub.msix ++ [6] ∧
      tget true u.hub.ports p = true ∧ ∀ cell, tfind u.memory.cells cell =
        (if farCell ≤ cell / 256 * 256 ∧ s.portOf (cell / 256 * 256) = some p then none else tfind s.memory.cells cell) ∧
        ∀ v, ∀ e ∈ (u.vault v).farTs, farCell ≤ 256 * e.1 → s.portOf (256 * e.1) = some p → e.2 = (0, 0) := by
  have htold := told_linkNotice (joinLink s p)
  refine ⟨(joinLink s p).linkNotice, cxlLinkUp_eq h4 hp, msix_linkNotice _, ?_, fun cell => ⟨?_, fun v e he hfar hport => ?_⟩⟩
  · rw [htold.state]
    exact tget_tset_self _ _ _ _
  · rw [htold.memory]
    refine (tfind_filter _ (fun i => !behindPort s p (i / 256 * 256)) cell).trans ?_
    by_cases hb : farCell ≤ cell / 256 * 256 ∧ s.portOf (cell / 256 * 256) = some p
    · rw [if_pos hb, if_neg (by simp [behindPort, hb])]
    · have hout : (!behindPort s p (cell / 256 * 256)) = true := by
        simp only [behindPort, Bool.not_eq_true', Bool.and_eq_false_iff, decide_eq_false_iff_not, beq_eq_false_iff_ne]
        exact not_and_or.1 hb
      rw [if_neg hb, if_pos hout]
  · rw [htold.vault v, joinLink_vault] at he
    obtain ⟨e0, -, rfl⟩ := List.mem_map.1 he
    unfold zeroTime at hfar hport ⊢
    split
    · rfl
    · next h =>
      rw [if_neg h, Nat.mul_comm] at hfar hport
      exact absurd (by simp [behindPort, hfar, hport]) h

/-- A link that is down does not go down, and one that is up does not come up. -/
theorem cxlLink_idle (s : State) (p : Nat) :
    (tget true s.hub.ports p = false → exec (.cxlLinkDown p) s = .next s) ∧
    (tget true s.hub.ports p = true → exec (.cxlLinkUp p) s = .next s) := by
  refine ⟨fun hp => ?_, fun hp => ?_⟩
  · show (if 4 ≤ p || !(tget true s.hub.ports p) then (.next s : Out) else .next (cutLink s p).linkNotice) = _
    rw [if_pos (by simp [hp])]
  · show (if 4 ≤ p || tget true s.hub.ports p then (.next s : Out) else .next (joinLink s p).linkNotice) = _
    rw [if_pos (by simp [hp])]

end Sys2Proof.Laws
end

