-- ==== Sys2Proof/Proofs/UlukarLinks.lean ====
section
/-! SUPPORT. Ulukar links and attestation (O53, R105, R434, R437 to R439, R442). -/

namespace Sys2Proof.Laws

open Sys2Proof.Machine Sys2Proof.Claims

variable {s : State} {n : Nat} {f : Flit}

/-! ## Ulukar links -/

theorem link_setLink (s : State) (n : Nat) (l : Link) : (s.setLink n l).link n = l := tget_tset_self _ _ _ _

/-- A flit at a link that is down, or that has failed its tag, or is not next, or is. -/
theorem flit_down {ok : Bool} (h : (s.link n).up = false) : exec (.ulukarFlitReceive n ok f) s = .next s := by
  show execUlukarFlitReceive n ok f s = _
  unfold execUlukarFlitReceive
  dsimp only
  rw [if_pos (by simp [h])]

theorem flit_taken (hn : n < 16) (h : (s.link n).up = true) (hh : f.header = (s.link n).next) (hw : s.hub.slabWait = []) :
    exec (.ulukarFlitReceive n true f) s =
      .next ((s.setLink n { s.link n with fails := 0, next := (s.link n).next + 1 }).takeFlit f.body) := by
  show execUlukarFlitReceive n true f s = _
  unfold execUlukarFlitReceive
  dsimp only
  rw [if_neg (by simp [h, hn]), if_neg (by simp), if_neg (by simp [hh]), waitSlab_calm _ hw]

theorem flit_early (hn : n < 16) (h : (s.link n).up = true) (hh : f.header ≠ (s.link n).next) :
    exec (.ulukarFlitReceive n true f) s = .next (s.setLink n { s.link n with fails := 0 }) := by
  show execUlukarFlitReceive n true f s = _
  unfold execUlukarFlitReceive
  dsimp only
  rw [if_neg (by simp [h, hn]), if_neg (by simp), if_pos (by simp [hh])]

theorem flit_failed (hn : n < 16) (h : (s.link n).up = true) :
    exec (.ulukarFlitReceive n false f) s = .next (if 16 ≤ (s.link n).fails + 1 then
      s.dropLink n { s.link n with fails := (s.link n).fails + 1 } else s.setLink n { s.link n with fails := (s.link n).fails + 1 }) := by
  show execUlukarFlitReceive n false f s = _
  unfold execUlukarFlitReceive
  dsimp only
  rw [if_neg (by simp [h, hn]), if_pos (by simp)]

/-- The collectives under way are to end. -/
theorem jobs_endCollectives (s : State) (k : Nat) : (s.endCollectives.cluster k).jobs = (s.cluster k).jobs.map cutJob := by
  have hcut : ∀ j : Job, (if j.between then { j with fault := some 0x0C } else j) = cutJob j := by
    intro j
    refine if_congr ?_ rfl rfl
    simp [Job.between, Job.unfinished, and_assoc]
  have hc : s.endCollectives.cluster k = { s.cluster k with
      jobs := (s.cluster k).jobs.map fun j => if j.between then { j with fault := some 0x0C } else j } :=
    tget_mapVals s.clusters (fun x => { x with jobs := x.jobs.map fun j => if j.between then { j with fault := some 0x0C } else j })
      Cluster.reset k rfl
  rw [hc]
  exact List.map_congr_left fun j _ => hcut j

/-- A link that goes down. -/
theorem dropLink_drops (s : State) (n : Nat) (l : Link) :
    (s.dropLink n l).link n = { l with up := false } ∧ (s.dropLink n l).hub.shares = s.hub.shares ∧
      ∀ k, ((s.dropLink n l).cluster k).jobs = (s.cluster k).jobs.map cutJob := by
  have ht : Told (s.setLink n { l with up := false }).endCollectives (s.dropLink n l) := told_linkNotice _
  refine ⟨?_, ?_, fun k => ?_⟩
  · rw [State.link, ht.state]
    exact link_setLink s n _
  · rw [ht.state]
    rfl
  · rw [ht.cluster k]
    exact jobs_endCollectives _ k

theorem flit_changes (s : State) (n comm rank : Nat) (bs : List Byte) (hn : n < 16) :
    let l := s.link n
    (∀ (f : Flit) (ok : Bool), l.up = false → exec (.ulukarFlitReceive n ok f) s = .next s) ∧
    (∀ f : Flit, l.up = true →
      (f.header = l.next → f.body = .contribution comm rank bs → s.hub.slabWait = [] →
        ∃ u, exec (.ulukarFlitReceive n true f) s = .next u ∧ u.link n = { l with fails := 0, next := l.next + 1 } ∧
          u.hub.shares = s.hub.shares ++ [(comm, rank, bs)]) ∧
      (f.header ≠ l.next → ∃ u, exec (.ulukarFlitReceive n true f) s = .next u ∧ u.link n = { l with fails := 0 } ∧
        u.hub.shares = s.hub.shares) ∧
      ∃ u, exec (.ulukarFlitReceive n false f) s = .next u ∧
        u.link n = { l with up := decide (l.fails + 1 < 16), fails := l.fails + 1 } ∧ u.hub.shares = s.hub.shares ∧
        ∀ k, (u.cluster k).jobs = if l.fails + 1 < 16 then (s.cluster k).jobs else (s.cluster k).jobs.map cutJob) ∧
    ∃ u, exec (.ulukarLinkRetrain n) s = .next u ∧ u.link n = { up := true, fails := 0 } ∧ u.memory = s.memory := by
  refine ⟨fun f ok hd => flit_down hd, fun f hu => ⟨fun hh hb hw => ?_, fun hh => ?_, ?_⟩, ?_⟩
  · exact ⟨_, flit_taken hn hu hh hw, by rw [hb]; exact link_setLink _ _ _, by rw [hb]; rfl⟩
  · exact ⟨_, flit_early hn hu hh, link_setLink _ _ _, rfl⟩
  · by_cases h16 : (s.link n).fails + 1 < 16
    · refine ⟨_, (flit_failed hn hu).trans (congrArg _ (if_neg (by omega))), ?_, rfl, fun k => (if_pos h16).symm⟩
      rw [link_setLink, decide_eq_true h16, ← hu]
    · obtain ⟨hl, hs, hj⟩ := dropLink_drops s n { s.link n with fails := (s.link n).fails + 1 }
      refine ⟨_, (flit_failed hn hu).trans (congrArg _ (if_pos (by omega))), ?_, hs, fun k => (hj k).trans (if_neg h16).symm⟩
      rw [hl, decide_eq_false h16]
  · refine ⟨s.setLink n { up := true, fails := 0 }, ?_, link_setLink _ _ _, rfl⟩
    show (if 16 ≤ n then (.next s : Out) else .next (s.setLink n { up := true, fails := 0 })) = _
    rw [if_neg (by omega)]

end Sys2Proof.Laws
end

