-- ==== Sys2Proof/Proofs/HostQuestions.lean ====
section
/-! SUPPORT. Attestation, the measurements that RESET extends, and what the host asks (O53, R24, R427, R430, R433, R438, R439). -/

namespace Sys2Proof.Laws

open Sys2Proof.Machine Sys2Proof.Claims

variable {s : State}

/-! ## The report of R439 -/

@[simp] theorem padTo_length (n : Nat) (bs : List Byte) : (padTo n bs).length = n := by
  rw [padTo, List.length_append, List.length_take, List.length_replicate]
  omega

theorem padTo_self {n : Nat} {bs : List Byte} (h : bs.length = n) : padTo n bs = bs := by
  rw [padTo, List.take_of_length_le (Nat.le_of_eq h), h, Nat.sub_self, List.replicate_zero, List.append_nil]

/-- Blocks of one length, one after another. -/
theorem length_blocks {f : Nat → List Byte} {w : Nat} (hf : ∀ k, (f k).length = w) (n : Nat) : ((List.range n).flatMap f).length = w * n := by
  induction n with
  | zero => rfl
  | succ n ih =>
    rw [List.range_succ, List.flatMap_append, List.length_append, ih, List.flatMap_singleton, hf]
    rfl

/-- Block k of them. -/
theorem blocks_get {f : Nat → List Byte} {w : Nat} (hf : ∀ k, (f k).length = w) {n k : Nat} (hk : k < n) (rest : List Byte) :
    (((List.range n).flatMap f ++ rest).drop (w * k)).take w = f k := by
  induction n generalizing rest with
  | zero => omega
  | succ n ih =>
    rw [List.range_succ, List.flatMap_append, List.flatMap_singleton, List.append_assoc]
    by_cases h : k < n
    · exact ih h _
    · obtain rfl : k = n := by omega
      rw [List.drop_append_of_le_length (Nat.le_of_eq (length_blocks hf k).symm), List.drop_of_length_le (Nat.le_of_eq (length_blocks hf k)),
        List.nil_append, List.take_append_of_le_length (Nat.le_of_eq (hf k).symm), List.take_of_length_le (Nat.le_of_eq (hf k))]

/-- The measurements' bytes of a report. -/
def measureBytes (s : State) : List Byte := (List.range 8).flatMap fun k => leBytes 64 (tget 0 s.hub.measures k).toNat

theorem length_measureBytes (s : State) : (measureBytes s).length = 512 := length_blocks (fun _ => leBytes_length _ _) 8

/-- The report that is answered to a nonce of 64 bytes. -/
def reportOf (s : State) (nonce : List Byte) : List Byte := s.reportBody nonce ++ padTo 4627 (Config.signature (s.reportBody nonce))

theorem reportOf_eq {nonce : List Byte} (h : nonce.length = 64) : ∃ sig : List Byte, sig.length = 4627 ∧ reportOf s nonce =
    nonce ++ (measureBytes s ++ (leBytes 8 Config.rollback.toNat ++ (leBytes 8 s.hub.fabid.toNat ++ sig))) := by
  refine ⟨padTo 4627 (Config.signature (s.reportBody nonce)), padTo_length _ _, ?_⟩
  rw [reportOf]
  generalize padTo 4627 (Config.signature (s.reportBody nonce)) = sig
  rw [State.reportBody, padTo_self h]
  simp only [measureBytes, List.append_assoc]

/-- What stands after a part of a known length. -/
theorem drop_past (a b : List Byte) {n m : Nat} (h : n = a.length + m) : (a ++ b).drop n = b.drop m := by
  rw [List.drop_append, List.drop_eq_nil_of_le (by omega), List.nil_append, h, Nat.add_sub_cancel_left]

/-- A part of a known length at the front. -/
theorem take_front (a b : List Byte) {n : Nat} (h : a.length = n) : (a ++ b).take n = a := by
  rw [List.take_append_of_le_length (Nat.le_of_eq h.symm), List.take_of_length_le (Nat.le_of_eq h)]

/-- What a report holds, part by part. -/
theorem reportOf_parts {nonce : List Byte} (h : nonce.length = 64) :
    (reportOf s nonce).length = 592 + 4627 ∧ (reportOf s nonce).take 64 = nonce ∧
      (∀ k, k < 8 → ((reportOf s nonce).drop (64 + 64 * k)).take 64 = leBytes 64 (tget 0 s.hub.measures k).toNat) ∧
      ((reportOf s nonce).drop 576).take 8 = leBytes 8 Config.rollback.toNat ∧
      ((reportOf s nonce).drop 584).take 8 = leBytes 8 s.hub.fabid.toNat := by
  obtain ⟨sig, hsig, hr⟩ := reportOf_eq (s := s) h
  have hm := length_measureBytes s
  rw [hr]
  refine ⟨?_, take_front _ _ h, fun k hk => ?_, ?_, ?_⟩
  · simp only [List.length_append, h, hm, leBytes_length, hsig]
  · rw [drop_past nonce _ (by rw [h])]
    exact blocks_get (fun _ => leBytes_length _ _) hk _
  · rw [drop_past nonce _ (m := 512) (by rw [h]), drop_past (measureBytes s) _ (m := 0) (by rw [hm]), List.drop_zero]
    exact take_front _ _ (leBytes_length _ _)
  · rw [drop_past nonce _ (m := 520) (by rw [h]), drop_past (measureBytes s) _ (m := 8) (by rw [hm]),
      drop_past (leBytes 8 _) _ (m := 0) (by rw [leBytes_length]), List.drop_zero]
    exact take_front _ _ (leBytes_length _ _)

/-- A request is answered in the mailbox, unless the package is in recovery. -/
theorem attestationRequest_answers (s : State) :
    (s.hub.recovery = true → exec .attestationRequest s = .next s) ∧
    (s.hub.recovery = false → (s.hub.mailbox.take 64).length = 64 → ∃ u r, exec .attestationRequest s = .next u ∧
      u.hub.mailbox = mailboxPut s.hub.mailbox 0x800 r ∧ u.hub.msix = s.hub.msix ++ [7] ∧ r.length = 592 + 4627 ∧
      r.take 64 = s.hub.mailbox.take 64 ∧
      (∀ k, k < 8 → (r.drop (64 + 64 * k)).take 64 = leBytes 64 (tget 0 s.hub.measures k).toNat) ∧
      (r.drop 576).take 8 = leBytes 8 Config.rollback.toNat ∧ (r.drop 584).take 8 = leBytes 8 s.hub.fabid.toNat) := by
  have hx : exec .attestationRequest s =
      if s.hub.recovery then .next s else .next (s.mailAnswer (reportOf s (s.hub.mailbox.take 64))) := rfl
  refine ⟨fun hr => by rw [hx, if_pos hr], fun hr hl => ?_⟩
  exact ⟨s.mailAnswer (reportOf s (s.hub.mailbox.take 64)), reportOf s (s.hub.mailbox.take 64), by rw [hx, if_neg (by simp [hr])], rfl, rfl,
    reportOf_parts hl⟩

/-! ## Measurements (R438) -/

theorem leBytes_leNat (bs : List Byte) : leBytes bs.length (leNat bs) = bs := by
  induction bs with
  | nil => rfl
  | cons b bs ih =>
    rw [List.length_cons, leBytes, leNat, show (b.toNat + 256 * leNat bs) / 256 = leNat bs by have := b.isLt; omega, ih]
    refine congrArg (· :: bs) (BitVec.eq_of_toNat_eq ?_)
    have := b.isLt
    rw [BitVec.toNat_ofNat]
    omega

theorem leNat_lt (bs : List Byte) : leNat bs < 256 ^ bs.length := by
  induction bs with
  | nil => exact Nat.one_pos
  | cons b bs ih =>
    have := b.isLt
    rw [List.length_cons, leNat, Nat.pow_succ]
    omega

/-- A fold whose every step gives 25 lanes gives 25. -/
theorem length_foldl_lanes {β : Type} {g : List Dword → β → List Dword} (hg : ∀ a b, (g a b).length = 25) (l : List β) {a : List Dword}
    (ha : a.length = 25 ∨ l ≠ []) : (l.foldl g a).length = 25 := by
  induction l generalizing a with
  | nil => exact ha.resolve_right (not_not_intro rfl)
  | cons b l ih => exact ih (.inl (hg a b))

theorem length_keccakF (a : List Dword) : (keccakF a).length = 25 :=
  length_foldl_lanes (fun _ _ => by rw [keccakChiIota, List.length_map, List.length_range]) _ (.inr (List.cons_ne_nil _ _))

/-- A digest has 64 bytes. -/
theorem length_sha3 (m : List Byte) : (sha3 m).length = 64 := by
  unfold sha3
  dsimp only
  generalize ha : List.foldl _ _ _ = a
  have h25 : a.length = 25 := by
    rw [← ha]
    exact length_foldl_lanes (fun _ _ => length_keccakF _) _ (.inl List.length_replicate)
  have h8 : (a.take 8).length = 8 := by rw [List.length_take, h25]; rfl
  rw [List.length_flatMap, List.map_congr_left (fun w _ => leBytes_length 8 w.toNat), List.map_const', List.sum_replicate, h8]
  rfl

theorem leBytes_toNat_zero (n w : Nat) : leBytes n (0 : BitVec w).toNat = List.replicate n 0 := by
  have hzero : ∀ n, leBytes n 0 = List.replicate n 0 := by
    intro n
    induction n with
    | zero => rfl
    | succ n ih =>
      rw [leBytes, Nat.zero_div, ih]
      rfl
  simpa using hzero n

/-- Bytes fit into a word of their width. -/
theorem toNat_ofNat_leNat (bs : List Byte) {w : Nat} (hw : w = 8 * bs.length) : (BitVec.ofNat w (leNat bs)).toNat = leNat bs := by
  subst hw
  rw [BitVec.toNat_ofNat, Nat.pow_mul]
  exact Nat.mod_eq_of_lt (leNat_lt bs)

/-- A measurement that is extended holds the digest's bytes. -/
theorem leBytes_extendDigest (m d : BitVec 512) : leBytes 64 (extendDigest m d).toNat = sha3 (leBytes 64 m.toNat ++ leBytes 64 d.toNat) := by
  unfold extendDigest
  generalize hb : sha3 (leBytes 64 m.toNat ++ leBytes 64 d.toNat) = bs
  have hl : bs.length = 64 := hb ▸ length_sha3 _
  rw [toNat_ofNat_leNat bs (by rw [hl]), ← hl, leBytes_leNat]

theorem reset_measures {s : State} {k : Nat} {d : BitVec 512} (hd : s.outside.reset.digests = [(k, d)]) (hk : k < 8) :
    ∃ u, exec .reset s = .next u ∧
      leBytes 64 (tget 0 u.hub.measures k).toNat = sha3 (List.replicate 64 0 ++ leBytes 64 d.toNat) := by
  refine ⟨_, rfl, ?_⟩
  have hm : tget 0 (s.outside.reset.digests.foldl (fun t e => tset t (e.1 % 8) (extendDigest (tget 0 t (e.1 % 8)) e.2)) []) k =
      extendDigest 0 d := by
    rw [hd, List.foldl_cons, List.foldl_nil, Nat.mod_eq_of_lt hk, tget_tset_self]
    rfl
  refine (congrArg (fun x : BitVec 512 => leBytes 64 x.toNat) hm).trans ?_
  rw [leBytes_extendDigest, leBytes_toNat_zero]

/-! ## What the host asks, and soft errors -/

/-- The state in which a move is made, where no slab change waits. -/
def moved (s : State) (rest : List Move) : State := { s.tidyAges with agenda := rest }

theorem step_move {m : Move} {rest : List Move} (h : s.agenda = m :: rest) (hw : s.hub.slabWait = []) :
    step s = State.runMove (moved s rest) m := by
  unfold step State.tidy
  rw [tidySlab_calm hw, h]
  rfl

/-- Its ages go; a vault's word reads as before. -/
theorem vaultWord_moved (s : State) (rest : List Move) (v : Nat) : (moved s rest).vaultWord v = s.vaultWord v := by
  have hhot : ((moved s rest).core (2 * v)).hot = (s.core (2 * v)).hot := by
    have hcore := congrArg Core.hot
      (tget_mapVals s.cores (fun x => { x with slots := x.slots.map fun g => (g.1, g.2.tidyAges) }) Core.reset (2 * v) rfl)
    exact hcore
  unfold State.vaultWord
  rw [hhot]
  rfl

theorem strike_stands {rest : List Move} {sector n : Nat} {bad : Bool} (h : s.agenda = .strike sector n bad :: rest)
    (hw : s.hub.slabWait = []) :
    ∃ u, step s = .next u ∧ tfind u.errors sector = some (match tfind s.errors sector with
        | some x => (x.1 + n, x.2 || bad)
        | none => (n, bad)) ∧
      (∀ k, k ≠ sector → tfind u.errors k = tfind s.errors k) ∧ u.memory = s.memory ∧ u.hub = s.hub ∧ u.vaults = s.vaults := by
  refine ⟨(moved s rest).strike sector n bad, step_move h hw, ?_, fun k hk => tfind_tset_other _ _ hk, rfl, rfl, rfl⟩
  refine (tfind_tset_self _ _ _).trans (congrArg some ?_)
  show ((tget (0, false) s.errors sector).1 + n, (tget (0, false) s.errors sector).2 || bad) = _
  rw [tget]
  cases tfind s.errors sector with
  | none => exact Prod.ext (Nat.zero_add n) rfl
  | some x => rfl

theorem ask_register {rest : List Move} {off size : Nat} (h : s.agenda = .ask (.register off size) :: rest) (hw : s.hub.slabWait = []) :
    ∃ u, step s = .next u ∧ u.memory = s.memory ∧ u.hub = { s.hub with replies := s.hub.replies ++
      [if size = 8 ∧ off % 8 = 0 then leBytes 8 (s.hubRead off).toNat else List.replicate size 0xFF] } := by
  have hread : (moved s rest).hubRead off = s.hubRead off := rfl
  refine ⟨(moved s rest).answerHost (.register off size), step_move h hw, rfl, ?_⟩
  rw [State.answerHost, hread]
  simp only [Bool.and_eq_true, decide_eq_true_eq]
  rfl

theorem ask_vault {rest : List Move} {v : Nat} (h : s.agenda = .ask (.vault v) :: rest) (hv : v < 256) (hw : s.hub.slabWait = []) :
    ∃ u, step s = .next u ∧ u.memory = s.memory ∧ (s.hub.recovery = true → u.hub = s.hub) ∧
      (s.hub.recovery = false → u.hub.mailbox = mailboxPut s.hub.mailbox 0x800 (leBytes 8 (s.vaultWord v)) ∧
        u.hub.msix = s.hub.msix ++ [7]) := by
  have hx := step_move h hw
  cases hr : s.hub.recovery with
  | true =>
    have hans : (moved s rest).answerHost (.vault v) = moved s rest := if_pos hr
    exact ⟨moved s rest, hx.trans (congrArg _ hans), rfl, fun _ => rfl, nofun⟩
  | false =>
    let word := (moved s rest).vaultWord (v % 256)
    have hans : (moved s rest).answerHost (.vault v) = (moved s rest).mailAnswer (leBytes 8 word) :=
      if_neg (by rw [show (moved s rest).hub.recovery = false from hr]; exact Bool.false_ne_true)
    refine ⟨(moved s rest).mailAnswer (leBytes 8 word), hx.trans (congrArg _ hans), rfl, nofun, fun _ => ⟨?_, rfl⟩⟩
    have hword : word = s.vaultWord v := by
      show (moved s rest).vaultWord (v % 256) = _
      rw [Nat.mod_eq_of_lt hv, vaultWord_moved]
    rw [hword]
    rfl

theorem ask_status {rest : List Move} (h : s.agenda = .ask .status :: rest) (hw : s.hub.slabWait = []) : ∃ u, step s = .next u ∧
    u.hub.mailbox = mailboxPut s.hub.mailbox 0x800 (leBytes 8 (if s.hub.recovery then 1 else 0)) ∧ u.hub.msix = s.hub.msix ++ [7] :=
  ⟨(moved s rest).answerHost .status, step_move h hw, rfl, rfl⟩

/-! ## The statement -/

/-- Settles O53, clause by clause. -/
theorem hubAndLinks : Obligations.HubAndLinks := by
  unfold Obligations.HubAndLinks
  refine ⟨registerWrite_writes, supctxWrite_writes, fun s p h4 => ⟨(cxlLink_idle s p).1, fun hp => ⟨(cxlLink_idle s p).2 hp, ?_⟩, ?_⟩,
    flit_changes, attestationRequest_answers, fun s k d => reset_measures, fun s rest sector n bad => strike_stands,
    fun s rest off size => ask_register, fun s rest v => ask_vault, fun s rest => ask_status⟩
  · exact cxlLinkDown_cuts h4 hp
  · exact cxlLinkUp_joins h4

end Sys2Proof.Laws
end

