-- ==== Sys2Proof/Proofs/TranslationsDropped.lean ====
section
/-! SUPPORT. TLBINV.key and a line of far memory in a range that ends inside the line (O40; R26, R36, R384): the bytes past the range's end
have no home, whatever the L1 has to write there. -/

namespace Sys2Proof.Laws

open Sys2Proof.Machine Sys2Proof.Claims

/-- The L1's copy of the first line of the far window, with its first sector to be written back. -/
def farLine : L1Line :=
  { pa := farBase, key := 0, bytes := List.replicate 256 7, wts := 0, rts := 0, dirty := 1, excl := false, poison := 0, keep := false
    str := false, way := 0, idle := 0 }

/-- The far window has one range of 32 bytes (R26). A thread alone in a supervisor context issues TLBINV.key of key 0 at a core that holds
`farLine`. -/
def shortRange : State :=
  let s := ((State.reset.withBlock []).modHub fun h => { h with
      supctx := [(0, 0x8000000000000000)], ranges := [{ base := 0, size := 32, ports := [0], gran := 256 }] }).modCore 0 fun k =>
    { k with l1 := [farLine] }
  { s with agenda := [], cur := { core := 0, slot := 0, quad := 0, pc := codePc, prio := 0x8000, next := codePc + 8, threads := [0] } }

/-- TLBINV.key of the key in S[0], which is 0. -/
def invKey : Op := { blankOp with fn := 4 }

/-- The issuing thread of `shortRange`. -/
def shortRangeLane : Lane :=
  { s := shortRange, c := 0, slot := 0, g := soleGroup, wave := [0], tid := 0, th := Thread.start codePc 0x8000, o := invKey }

theorem shortRange_wave : shortRange.readyWave (.tlbinvKey invKey) invKey = [0] := by decide +kernel

theorem shortRange_rules : Rules shortRange (.tlbinvKey invKey) invKey noCheck 0 shortRangeLane where
  once := by decide
  wave := by rw [shortRange_wave]; decide
  lane := by rw [shortRange_wave]; rfl
  tiles := by decide
  active := by decide
  passes := by rw [shortRange_wave]; decide +kernel
  calm := rfl
  sole := shortRange_wave
  fresh := rfl
  marked := by decide

/-- Every core of `shortRange` but the first holds no line. -/
theorem shortRange_l1 (c : Nat) : (shortRange.core c).l1 = if c = 0 then [farLine] else [] := by
  have hcores : shortRange.cores = [(0, shortRange.core 0)] := rfl
  split
  · next h => subst h; rfl
  · next h =>
    rw [State.core, hcores, tget, tfind, if_neg (Ne.symm h)]
    rfl

/-- `farLine` is all that its key has to write, and the range serves the first byte of its line. -/
theorem shortRange_alone : AloneDirty shortRange 0 farLine where
  here := by rw [shortRange_l1]; exact List.mem_singleton.2 rfl
  alone k y hy _ _ := by
    rw [shortRange_l1] at hy
    split at hy
    · next h => exact ⟨h, List.mem_singleton.1 hy⟩
    · cases hy
  whole := ⟨List.length_replicate, by decide, rfl, rfl⟩
  home := ⟨by decide +kernel, by decide, farCell, by decide +kernel, by decide +kernel⟩

/-- What a read under key 0 finds at the first address past the range, once the lines of key 0 have been written back. -/
def byteAfterInv : Option Byte :=
  match exec (.tlbinvKey invKey) shortRange with
  | .next u => u.byteAt 0 (farBase + 32)
  | _ => none

theorem byteAfterInv_none : byteAfterInv = none := by decide +kernel

/-- Refutes O40: the range of far memory ends inside the line whose first sector TLBINV.key writes back, so the sector's second half stands
nowhere afterwards. The statement asks for a home of the line's first byte only, and nothing makes the ranges of R26 end with a line. -/
theorem not_translationsInvalidated : ¬ Obligations.TranslationsInvalidated := by
  unfold Obligations.TranslationsInvalidated
  intro h
  obtain ⟨u, hu, -, -, -, -, -, key⟩ := h (.tlbinvKey invKey) invKey _ shortRange 0 shortRangeLane rfl shortRange_rules rfl rfl
  have written := (key rfl).2 0 farLine (by decide) shortRange_alone 32 (by decide) (by decide)
  have lost := byteAfterInv_none
  rw [byteAfterInv, hu] at lost
  exact absurd (lost.symm.trans written) (by decide)

end Sys2Proof.Laws
end

