-- ==== Sys2Proof/Proofs/MemoryIssue.lean ====
section
/-! SUPPORT. A memory instruction of a thread alone: what stands at its core once it has issued, before its access does what it can (R127,
R236, R278 to R289). -/

namespace Sys2Proof.Laws

open Sys2Proof.Machine Sys2Proof.Claims

/-- An address leads to the same cell where the slabs' modes and the ranges are the same. -/
theorem cellOf_of_map {s u : State} (hs : u.hub.slabs = s.hub.slabs) (hr : u.hub.ranges = s.hub.ranges) (pa : Nat) :
    u.cellOf pa = s.cellOf pa := by
  unfold State.cellOf
  rw [hs, hr]

/-- Bytes read as before where memory, the address map and the keys are the same. -/
theorem sameBytes_of_memory {s u : State} (hm : u.memory = s.memory) (hs : u.hub.slabs = s.hub.slabs) (hr : u.hub.ranges = s.hub.ranges)
    (hk : u.hub.keys = s.hub.keys) : SameBytes s u := by
  intro key pa
  unfold State.byteAt State.sealFor State.keyGenOf
  rw [cellOf_of_map hs hr, hm, hk]

theorem SameButCores.trans {s u v : State} (h : SameButCores s u) (k : SameButCores u v) : SameButCores s v :=
  ⟨k.agenda.trans h.agenda, k.outside.trans h.outside, k.net.trans h.net, k.cur.trans h.cur, k.cursor.trans h.cursor, k.free.trans h.free,
    k.seq.trans h.seq, k.clusters.trans h.clusters, k.dies.trans h.dies, k.vaults.trans h.vaults, k.memory.trans h.memory,
    k.hub.trans h.hub, k.errors.trans h.errors⟩

/-! ## The thread moves on -/

/-- The thread of a lane has moved on with its access's destinations empty. -/
def drained (s : State) (L : Lane) (a : Acc) : State :=
  (s.moveTo [L.tid] s.cur.next).modThread L.c L.slot L.tid fun th => th.drainAll a.dest a.count

section

variable {s : State} {i : Instr} {o : Op} {check : Lane → Option Trap} {t : Nat} {L : Lane}

theorem drained_same (s : State) (L : Lane) (a : Acc) : SameButCores s (drained s L a) :=
  (modThread_same s s.cur.core s.cur.slot L.tid _).trans (modThread_same _ _ _ _ _)

theorem core_drained (s : State) (L : Lane) (a : Acc) (n : Nat) :
    (drained s L a).core n = { s.core n with slots := ((drained s L a).core n).slots } := by
  have hmove : (s.moveTo [L.tid] s.cur.next).core n = { s.core n with slots := ((s.moveTo [L.tid] s.cur.next).core n).slots } :=
    core_modThread s s.cur.core s.cur.slot L.tid _ n
  rw [drained, core_modThread, hmove]

@[simp] theorem drain_pc (th : Thread) (r : Nat) : (th.drain r).pc = th.pc := by
  unfold Thread.drain
  split <;> rfl

/-- Emptying a register and moving on are independent. -/
theorem drain_moved (th : Thread) (r : Nat) (pc : Dword) :
    ({ th with pc := pc, wait := none } : Thread).drain r = { th.drain r with pc := pc, wait := none } := by
  unfold Thread.drain
  split <;> rfl

theorem drainAll_moved (th : Thread) (r n : Nat) (pc : Dword) :
    ({ th with pc := pc, wait := none } : Thread).drainAll r n = { th.drainAll r n with pc := pc, wait := none } := by
  unfold Thread.drainAll
  induction List.range n generalizing th with
  | nil => rfl
  | cons k l ih => rw [List.foldl_cons, List.foldl_cons, drain_moved, ih]

@[simp] theorem drainAll_due (th : Thread) (r n : Nat) : (th.drainAll r n).due = th.due := by
  unfold Thread.drainAll
  induction List.range n generalizing th with
  | nil => rfl
  | cons k l ih => rw [List.foldl_cons, ih, drain_due]

theorem thread_drained (h : s.Alone i o check t L) (a : Acc) :
    (drained s L a).thread? L.c L.slot t = some (after s (L.th.drainAll a.dest a.count)) := by
  obtain ⟨-, hc, hslot, htid, -⟩ := h.place
  have hmove := thread_moveTo s [t] s.cur.next t
  rw [if_pos (List.mem_singleton.2 rfl), h.thread] at hmove
  rw [drained, hc, hslot, htid, thread_modThread, hmove]
  exact congrArg some (drainAll_moved _ _ _ _)

/-- The group of the thread that moves on is of the same context. -/
theorem ctx_drained (h : s.Alone i o check t L) (a : Acc) : ((drained s L a).group? L.c L.slot).map (·.ctx) = some L.g.ctx := by
  obtain ⟨-, hc, hslot, -, -⟩ := h.place
  have hmove : ((s.moveTo [L.tid] s.cur.next).group? L.c L.slot).map (·.ctx) = (s.group? L.c L.slot).map (·.ctx) :=
    group_map_modThread _ (fun _ _ => rfl) s s.cur.core s.cur.slot L.tid _ L.c L.slot
  rw [drained, group_map_modThread _ (fun _ _ => rfl), hmove, hc, hslot, h.group]
  rfl

/-! ## The access joins its core's order -/

/-- The access stands last in its core's order. -/
def issued (s : State) (L : Lane) (a : Acc) : State := (drained s L a).pushAccs L.c [a]

theorem issued_eq (s : State) (L : Lane) (a : Acc) :
    issued s L a = { drained s L a with seq := s.seq + 2 }.modCore L.c fun k => { k with accs := k.accs ++ [Claims.placed s a] } := by
  have hseq : (drained s L a).seq = s.seq := (drained_same s L a).seq
  simp only [issued, State.pushAccs, Claims.placed, hseq]
  rfl

theorem core_issued (s : State) (L : Lane) (a : Acc) : (issued s L a).core L.c =
    { s.core L.c with slots := ((drained s L a).core L.c).slots, accs := (s.core L.c).accs ++ [Claims.placed s a] } := by
  rw [issued_eq, core_modCore, show State.core { drained s L a with seq := s.seq + 2 } L.c = (drained s L a).core L.c from rfl, core_drained]

/-- What the issue of a memory instruction does with the threads that pass. -/
def memBody (s : State) (i : Instr) (o : Op) (mk : Lane → List Acc) (wave ok : List Nat) (s0 : State) : State :=
  let ls := (byLane ok).filterMap (s0.lane? o wave)
  let accs := ls.flatMap mk
  let s1 := (s0.moveTo ok s.cur.next).cvSteps s.cur.core s.cur.slot
    ((ls.filter (fun L => L.steps i != 0)).map (fun L => (L.tid, BitVec.ofNat 32 (L.steps i))))
  ((accs.foldl (fun s2 a => s2.modThread s.cur.core a.slot a.tid (fun th => th.drainAll a.dest a.count)) s1).pushAccs
    s.cur.core accs).progress s.cur.core

theorem memOp_eq (s : State) (i : Instr) (o : Op) (check : Lane → Option Trap) (mk : Lane → List Acc) :
    s.memOp i o check mk = s.frame i o check (memBody s i o mk) true := rfl

/-- No step of a convoy changes nothing. -/
theorem cvSteps_nil (s : State) (c g : Nat) : s.cvSteps c g [] = s := by
  unfold State.cvSteps
  split
  · rfl
  · rw [if_pos (by simp)]

theorem memBody_alone (h : s.Alone i o check t L) {mk : Lane → List Acc} {a : Acc} (hmk : mk L = [a]) (hplain : L.steps i = 0)
    (hslot : a.slot = L.slot) (htid : a.tid = L.tid) : memBody s i o mk [t] [t] s = (issued s L a).progress L.c := by
  obtain ⟨-, hc, hs, ht, -⟩ := h.place
  simp only [memBody, h.lanes, List.flatMap_cons, List.flatMap_nil, List.append_nil, hmk, List.filter_cons, List.filter_nil, hplain,
    bne_self_eq_false, Bool.false_eq_true, if_false, List.map_nil, cvSteps_nil, List.foldl_cons, List.foldl_nil, hslot, htid, issued,
    drained, hc, hs, ht]

/-- The instruction issues, and its one access does what it can. -/
theorem memOp_alone (h : s.Alone i o check t L) {mk : Lane → List Acc} {a : Acc} (hmk : mk L = [a]) (hplain : L.steps i = 0)
    (hslot : a.slot = L.slot) (htid : a.tid = L.tid) {th : Thread} (hcur : ((issued s L a).progress L.c).cur = s.cur)
    (hthread : ((issued s L a).progress L.c).thread? L.c L.slot t = some th) (hdue : th.due = []) :
    s.memOp i o check mk = (issued s L a).progress L.c := by
  obtain ⟨-, hc, hs, -, -⟩ := h.place
  have hbody := memBody_alone h hmk hplain hslot htid
  rw [memOp_eq, h.stayed (th := th) (by rw [hbody, hcur]) (by rw [hbody, ← hc, ← hs, hthread]) hdue, hbody]

end

end Sys2Proof.Laws
end

