-- ==== Sys2Proof/Proofs/PageMisses.lean ====
section
/-! SUPPORT. An access whose page no TLB holds (O19; R42, R43, R127, R236, R237): it takes an operand-log entry, its walk is asked for, and
it waits. -/

namespace Sys2Proof.Laws

open Sys2Proof.Machine Sys2Proof.Claims

/-! ## A logged access that misses -/

/-- The access as it waits for a walk, under a log entry. -/
def awaiting (e : Nat) (x : Acc) : Acc := { x with log := some e, phase := .walk }

/-- The walk that a core asks for a page's accesses (R43, R46). -/
def pageWalk (u : State) (c ctx : Nat) (b : Acc) (ids : List Nat) : Walk :=
  { Walk.new u.seq ctx b.va b.pc c b.slot false (BitVec.ofNat 2 b.code) false (.acc c b.id) with waiters := ids.map (.acc c) }

/-- The accesses of a page wait, and their walk is on its way to its die's walker. -/
def walkAsked (u : State) (c ctx e : Nat) (b : Acc) (ids : List Nat) : State :=
  (ids.foldl (fun (s : State) n => s.modAcc c n (awaiting e)) { u with seq := u.seq + 1 }).post (.tlbMiss (dieOf c) (pageWalk u c ctx b ids))

section

variable {u : State} {c id e : Nat} {b : Acc} {g : Group}

theorem translateAcc_misses (hacc : u.acc? c id = some b) (hphase : b.phase = .logged) (hg : u.group? c b.slot = some g)
    (hheld : u.regionHeld g.ctx b = false) (hquiet : b.quiet = false) (hfault : regionFault (u.regionFor g.ctx b.va) c b.va = none)
    (hmiss : u.tlbLookup c g.ctx b.va = none) (hlog : (u.core c).logFor b = some e) :
    u.translateAcc c id = walkAsked u c g.ctx e b ((u.core c).pageMates (u.regionFor g.ctx b.va) b) := by
  have hid : b.id = id := by simpa using List.find?_some hacc
  unfold State.translateAcc
  simp only [hacc, hphase, hg, hheld, hquiet, hfault, hmiss, hlog, bne_self_eq_false, Bool.false_eq_true, if_false, walkAsked, pageWalk, hid]
  rfl

/-- An access that waits for a walk does nothing. -/
theorem advance_walking (hacc : u.acc? c id = some b) (hphase : b.phase = .walk) : u.advance c id = u := by
  unfold State.advance
  simp only [hacc, hphase, Bool.and_false, Bool.false_eq_true, if_false]

theorem acc_of_only (h : (u.core c).accs = [b]) : u.acc? c b.id = some b := by
  rw [State.acc?, h, List.find?_cons_of_pos (by simp)]

theorem accs_modAcc (u : State) (c id : Nat) (f : Acc → Acc) : ((u.modAcc c id f).core c).accs = modAccs id f (u.core c).accs := by
  show ((u.modCore c fun k => { k with accs := modAccs id f k.accs }).core c).accs = _
  rw [core_modCore]

/-- Groups stand where they stood when a core changes but for its groups. -/
theorem group_modCore_slots (u : State) (c : Nat) {f : Core → Core} (hf : ∀ k, (f k).slots = k.slots) (c' g' : Nat) :
    (u.modCore c f).group? c' g' = u.group? c' g' := by
  unfold State.group?
  by_cases h : c' = c
  · rw [h, core_modCore, hf]
  · rw [core_modCore_other _ _ h]

theorem group_modAcc (u : State) (c id : Nat) (f : Acc → Acc) (c' g' : Nat) : (u.modAcc c id f).group? c' g' = u.group? c' g' :=
  group_modCore_slots u c (f := fun k => { k with accs := modAccs id f k.accs }) (fun _ => rfl) c' g'

theorem thread_modAcc (u : State) (c id : Nat) (f : Acc → Acc) (c' g' t' : Nat) :
    (u.modAcc c id f).thread? c' g' t' = u.thread? c' g' t' := by
  rw [State.thread?, group_modAcc]
  rfl

/-- The access that waits, of a core that has one. -/
theorem accs_walkAsked {ctx : Nat} (honly : (u.core c).accs = [b]) : ((walkAsked u c ctx e b [b.id]).core c).accs = [awaiting e b] := by
  show ((State.modAcc { u with seq := u.seq + 1 } c b.id (awaiting e)).core c).accs = _
  rw [accs_modAcc, show State.core { u with seq := u.seq + 1 } c = u.core c from rfl, honly]
  simp [modAccs]

theorem thread_walkAsked (u : State) (c ctx e n : Nat) (b : Acc) (c' g' t' : Nat) :
    (walkAsked u c ctx e b [n]).thread? c' g' t' = u.thread? c' g' t' :=
  thread_modAcc { u with seq := u.seq + 1 } c n _ c' g' t'

theorem cur_walkAsked (u : State) (c ctx e n : Nat) (b : Acc) : (walkAsked u c ctx e b [n]).cur = u.cur := rfl

theorem net_walkAsked (u : State) (c ctx e n : Nat) (b : Acc) : (walkAsked u c ctx e b [n]).net =
    u.net ++ [(u.seq + 1, .tlbMiss (dieOf c) (pageWalk u c ctx b [n]))] := rfl

theorem bytes_walkAsked (u : State) (c ctx e n : Nat) (b : Acc) : SameBytes u (walkAsked u c ctx e b [n]) :=
  sameBytes_of_memory rfl rfl rfl rfl

/-- The one access of a core misses: it waits, and nothing else at the core has anything to do. -/
theorem progress_misses (honly : (u.core c).accs = [b]) (hphase : b.phase = .logged) (hlog : b.log = none) (hg : u.group? c b.slot = some g)
    (hheld : u.regionHeld g.ctx b = false) (hquiet : b.quiet = false) (hfault : regionFault (u.regionFor g.ctx b.va) c b.va = none)
    (hmiss : u.tlbLookup c g.ctx b.va = none) : u.progress c = walkAsked u c g.ctx 0 b [b.id] := by
  have hentry : (u.core c).logFor b = some 0 := by
    simp only [Core.logFor, honly, hlog, List.find?_cons, Option.isSome_none, Bool.and_false, List.find?_nil, List.filterMap_cons,
      List.filterMap_nil]
    decide
  have hmates : (u.core c).pageMates (u.regionFor g.ctx b.va) b = [b.id] := by
    simp [Core.pageMates, honly]
  have htranslated := translateAcc_misses (acc_of_only honly) hphase hg hheld hquiet hfault hmiss hentry
  rw [hmates] at htranslated
  have hafter := accs_walkAsked (e := 0) (ctx := g.ctx) honly
  simp only [State.progress, honly, List.map_cons, List.map_nil, List.foldl_cons, List.foldl_nil, htranslated, hafter, State.advanceAll,
    Bool.false_and, Bool.false_eq_true, if_false]
  exact advance_walking (acc_of_only hafter) rfl

end

/-! ## The statement -/

section

variable {s : State} {i : Instr} {r : Request} {o : Op} {check : Lane → Option Trap} {t : Nat} {L : Lane}

/-- An access of a lane before its translation, by an instruction that waits for it (R279 to R289). -/
structure FreshAccess (L : Lane) (a : Acc) : Prop where
  slot  : a.slot = L.slot
  tid   : a.tid = L.tid
  phase : a.phase = .logged
  log   : a.log = none
  quiet : a.quiet = false

/-- Each memory instruction is one access of its lane, made over the shared frame. -/
theorem memRow_exec (h : memRow i = some r) :
    (∀ s, exec i s = .next (s.memOp i r.op r.check fun L => [r.acc L])) ∧ ∀ L, FreshAccess L (r.acc L) := by
  unfold memRow at h
  split at h
  case h_6 => cases h
  all_goals
    obtain rfl := Option.some.inj h
    exact ⟨fun _ => rfl, fun L => ⟨rfl, rfl, rfl, rfl, rfl⟩⟩

/-- A region that no RSTATE moves holds no access up. -/
theorem regionHeld_still {u : State} {ctx : Nat} {a : Acc} (hc : u.hub.contexts = s.hub.contexts) (ha : a.inst = s.seq)
    (h : ¬ Moves s ctx a.va) : u.regionHeld ctx a = false := by
  unfold State.regionHeld
  rw [hc, ha]
  split
  · next n since hm =>
    simp only [Bool.and_eq_false_iff, beq_eq_false_iff_ne, decide_eq_false_iff_not, ← not_and_or]
    rintro ⟨rfl, hle⟩
    exact h ⟨since, hm, hle⟩
  · rfl

/-- A lookup gives what it gave where the regions and the three levels are the same. -/
theorem tlbLookup_of_levels {u : State} {c ctx : Nat} {va : Dword} (hx : u.hub.contexts = s.hub.contexts)
    (h1 : (u.core c).tlb = (s.core c).tlb) (h2 : (u.cluster (clusterOf c)).tlb = (s.cluster (clusterOf c)).tlb)
    (h3 : (u.die (dieOf c)).tlb = (s.die (dieOf c)).tlb) : u.tlbLookup c ctx va = s.tlbLookup c ctx va := by
  unfold State.tlbLookup State.regionFor State.regionEntry
  rw [hx, h1, h2, h3]

/-- Its core has no other access. -/
theorem issued_only (h : Requests s i r t L) : ((issued s L (r.acc L)).core L.c).accs = [Claims.placed s (r.acc L)] := by
  rw [core_issued, h.idle.1]
  rfl

theorem thread_issued (h : s.Alone i o check t L) (a : Acc) :
    (issued s L a).thread? L.c L.slot t = some (after s (L.th.drainAll a.dest a.count)) := by
  refine Eq.trans ?_ (thread_drained h a)
  unfold State.thread? State.group?
  rw [core_issued]

theorem cur_issued (s : State) (L : Lane) (a : Acc) : (issued s L a).cur = s.cur := (drained_same s L a).cur

theorem net_issued (s : State) (L : Lane) (a : Acc) : (issued s L a).net = s.net := (drained_same s L a).net

theorem seq_issued (s : State) (L : Lane) (a : Acc) : (issued s L a).seq = s.seq + 2 := by
  rw [issued_eq]
  rfl

theorem bytes_issued (s : State) (L : Lane) (a : Acc) : SameBytes s (issued s L a) :=
  have hsame := drained_same s L a
  sameBytes_of_memory hsame.memory (congrArg Hub.slabs hsame.hub) (congrArg Hub.ranges hsame.hub) (congrArg Hub.keys hsame.hub)

/-- The one access of an issued memory instruction misses. -/
theorem issued_progress (h : Requests s i r t L) (ha : FreshAccess L (r.acc L)) (hmiss : s.tlbLookup L.c L.g.ctx (r.acc L).va = none) :
    (issued s L (r.acc L)).progress L.c =
      walkAsked (issued s L (r.acc L)) L.c L.g.ctx 0 (Claims.placed s (r.acc L)) [s.seq + 1] := by
  have hcore := core_issued s L (r.acc L)
  have hsame := drained_same s L (r.acc L)
  have hhub : (issued s L (r.acc L)).hub = s.hub := hsame.hub
  have honly := issued_only h
  have hregion : (issued s L (r.acc L)).regionFor = s.regionFor := by
    unfold State.regionFor State.regionEntry
    rw [hhub]
  obtain ⟨g, hg, hctx⟩ := Option.map_eq_some_iff.1 (ctx_drained h.toAlone (r.acc L))
  have hgroup : (issued s L (r.acc L)).group? L.c (Claims.placed s (r.acc L)).slot = some g := by
    show (issued s L (r.acc L)).group? L.c (r.acc L).slot = some g
    rw [ha.slot, State.group?, hcore]
    exact hg
  rw [progress_misses honly ha.phase ha.log hgroup ?_ ha.quiet ?_ ?_, hctx]
  · rfl
  · rw [hctx]
    exact regionHeld_still (congrArg Hub.contexts hhub) rfl h.still
  · rw [hctx, hregion]
    exact h.mapped
  · rw [hctx, ← hmiss]
    refine tlbLookup_of_levels (congrArg Hub.contexts hhub) ?_ ?_ ?_
    · rw [hcore]
    · exact congrArg (fun x => (tget Cluster.reset x (clusterOf L.c)).tlb) hsame.clusters
    · exact congrArg (fun x => (tget Die.reset x (dieOf L.c)).tlb) hsame.dies

/-- Settles O19: the instruction issues its one access, and the access misses. -/
theorem memoryWalks : Obligations.MemoryWalks := by
  unfold Obligations.MemoryWalks
  intro i r s t L hrow h hmiss
  obtain ⟨hexec, hfresh⟩ := memRow_exec hrow
  have hprogress := issued_progress h (hfresh L) hmiss
  have hthread : ((issued s L (r.acc L)).progress L.c).thread? L.c L.slot t =
      some (after s (L.th.drainAll (r.acc L).dest (r.acc L).count)) := by
    rw [hprogress, thread_walkAsked, thread_issued h.toAlone]
  have hissue := memOp_alone h.toAlone (mk := fun L => [r.acc L]) rfl h.plain (hfresh L).slot (hfresh L).tid
    (by rw [hprogress, cur_walkAsked, cur_issued]) hthread ((drainAll_due _ _ _).trans h.calm)
  refine ⟨(issued s L (r.acc L)).progress L.c, s.seq + 3,
    pageWalk (issued s L (r.acc L)) L.c L.g.ctx (Claims.placed s (r.acc L)) [s.seq + 1], ?_, hthread, ?_, ?_, rfl, rfl, rfl, ?_⟩
  · rw [hexec, hissue]
  · rw [hprogress]
    exact accs_walkAsked (issued_only h)
  · rw [hprogress]
    rw [net_walkAsked, net_issued, seq_issued]
  · rw [hprogress]
    exact sameBytes_trans (bytes_issued _ _ _) (bytes_walkAsked _ _ _ _ _ _)

end

end Sys2Proof.Laws
end

