-- ==== Sys2Proof/Proofs/WalkQueue.lean ====
section
/-! SUPPORT. A die's walk queue and the entry reads that its walks ask for (O44; R37, R41 to R44, R50, R52). -/

namespace Sys2Proof.Laws

open Sys2Proof.Machine Sys2Proof.Claims

section

variable {s u : State} {m d : Nat} {w x y : Walk} {rest : List Walk}

/-! ## A miss at its walker -/

theorem tlbMissToWalker_eq (h : s.msg? m = some (.tlbMiss d w)) (hmiss : tlbHit (s.die d).tlb (s.regionFor w.ctx w.va) w.ctx w.va = none) :
    exec (.tlbMissToWalker m) s =
      let same : Walk → Bool := fun y => samePage (s.regionFor w.ctx w.va) y w.ctx w.va && !y.noFill
      let join : Walk → Walk := fun z =>
        if same z then { z with waiters := z.waiters ++ w.waiters, wantD := z.wantD || w.wantD } else z
      if (s.die d).active.any same || (s.die d).queue.any same then
        .next ((s.drop m).modDie d fun y => { y with active := y.active.map join, queue := y.queue.map join })
      else if ((s.die d).parked.drop 256).any same then
        .next (((s.drop m).modDie d fun y =>
          { y with parked := y.parked.take 256 ++ (y.parked.drop 256).map (fun z =>
            if same z then { z with waiters := z.waiters ++ w.waiters } else z) }).parkWaiters w.waiters)
      else if 256 ≤ (s.die d).queue.length then .next s
      else .next ((s.drop m).modDie d fun y => { y with queue := y.queue ++ [w] }) := by
  show execTlbMissToWalker m s = _
  unfold execTlbMissToWalker
  simp only [h, hmiss, ite_self]

/-- A walk of a page that nobody walks is queued while fewer than 256 wait (R44). -/
theorem tlbMissToWalker_queues (h : s.msg? m = some (.tlbMiss d w))
    (hmiss : tlbHit (s.die d).tlb (s.regionFor w.ctx w.va) w.ctx w.va = none) (hparked : (s.die d).parked.length ≤ 256)
    (hnew : ∀ y ∈ (s.die d).active ++ (s.die d).queue, samePage (s.regionFor w.ctx w.va) y w.ctx w.va = false) :
    ((s.die d).queue.length < 256 →
      ∃ u, exec (.tlbMissToWalker m) s = .next u ∧ (u.die d).queue = (s.die d).queue ++ [w] ∧ u.net = tdel s.net m) ∧
    (256 ≤ (s.die d).queue.length → exec (.tlbMissToWalker m) s = .next s) := by
  have hnone : ∀ l : List Walk, (∀ y ∈ l, y ∈ (s.die d).active ++ (s.die d).queue) →
      l.any (fun y => samePage (s.regionFor w.ctx w.va) y w.ctx w.va && !y.noFill) = false := by
    intro l hl
    rw [List.any_eq_false]
    intro y hy
    rw [hnew y (hl y hy)]
    exact Bool.false_ne_true
  have hactive := hnone (s.die d).active fun _ => List.mem_append_left _
  have hqueue := hnone (s.die d).queue fun _ => List.mem_append_right _
  rw [tlbMissToWalker_eq h hmiss]
  simp only [hactive, hqueue, List.drop_eq_nil_of_le hparked, List.any_nil, Bool.or_self, Bool.false_eq_true, if_false]
  refine ⟨fun hroom => ⟨_, if_neg (Nat.not_le.2 hroom), ?_, rfl⟩, fun hfull => if_pos hfull⟩
  rw [die_modDie, drop_die]

/-- A miss of a page that is being walked joins its walk (R44). -/
theorem tlbMissToWalker_joins (h : s.msg? m = some (.tlbMiss d w)) (hwalk : Walking s d y) (hfill : y.noFill = false)
    (hmiss : tlbHit (s.die d).tlb (s.regionFor w.ctx w.va) w.ctx w.va = none)
    (hsame : samePage (s.regionFor w.ctx w.va) y w.ctx w.va = true) :
    ∃ u, exec (.tlbMissToWalker m) s = .next u ∧ (u.die d).queue.length = (s.die d).queue.length ∧
      Walking u d { y with waiters := y.waiters ++ w.waiters, wantD := y.wantD || w.wantD } := by
  have hactive : (s.die d).active = [y] := hwalk
  rw [tlbMissToWalker_eq h hmiss]
  simp only [hactive, List.any_cons, hsame, hfill, Bool.not_false, Bool.and_self, Bool.true_or, if_true]
  refine ⟨_, rfl, ?_, ?_⟩
  · rw [die_modDie, drop_die]
    exact List.length_map _
  · rw [Walking, die_modDie, drop_die]
    simp only [hactive, List.map_cons, List.map_nil, hsame, hfill, Bool.not_false, Bool.and_self, if_true]

/-! ## Asking for an entry -/

theorem active_setWalk (h : (s.die d).active = [x]) (hid : x.id = w.id) : ((s.setWalk d w).die d).active = [w] := by
  rw [State.setWalk, die_modDie]
  simp only [h, List.map_cons, List.map_nil, hid, BEq.rfl, if_true]

theorem queue_askEntry (s : State) (d : Nat) (w : Walk) : ((s.askEntry d w).die d).queue = (s.die d).queue := by
  unfold State.askEntry State.setWalk
  split
  · rw [die_modDie]
  · rw [post_die, die_modDie]

/-- The one walk under way asks for the entry that it reads next (R37, R41). -/
theorem askEntry_asks (h : (u.die d).active = [x]) (hid : x.id = w.id) (hnet : u.net = s.net) (hseq : u.seq = s.seq)
    (hslab : ∀ pa, u.slabHeld pa = s.slabHeld pa) : Asks s (u.askEntry d w) d w w.entryPa := by
  unfold State.askEntry
  rw [hslab]
  constructor
  · intro hfree
    rw [if_neg (by rw [hfree]; exact Bool.false_ne_true)]
    refine ⟨active_setWalk h hid, ?_⟩
    rw [post_net]
    show u.net ++ [(u.seq, _)] = _
    rw [hnet, hseq]
    rfl
  · intro hheld
    rw [if_pos hheld]
    exact ⟨active_setWalk h hid, hnet⟩

/-! ## The start of a walk -/

theorem walkStart_eq (hq : (s.die d).queue = w :: rest) : exec (.walkStart d) s =
    if 64 ≤ (s.die d).slots then .next s
    else
      let s1 := s.modDie d fun y => { y with queue := rest, active := y.active ++ [s.beginWalk w] }
      if regionBad (s.regionFor w.ctx w.va) w.va then .next (s1.endWalk d (s.beginWalk w) (some 0x0C))
      else .next (s1.askEntry d (s.beginWalk w)) := by
  show execWalkStart d s = _
  unfold execWalkStart
  simp only [hq]

theorem walkStart_full (hq : (s.die d).queue = w :: rest) (h : 64 ≤ (s.die d).slots) : exec (.walkStart d) s = .next s := by
  rw [walkStart_eq hq, if_pos h]

/-- The oldest walk takes a slot and asks for its first entry (R37, R44). -/
theorem walkStart_asks (hq : (s.die d).queue = w :: rest) (h : (s.die d).slots < 64) (hgood : regionBad (s.regionFor w.ctx w.va) w.va = false)
    (hidle : (s.die d).active = []) : ∃ u, exec (.walkStart d) s = .next u ∧ (u.die d).queue = rest ∧
      Asks s u d (s.beginWalk w) (s.beginWalk w).entryPa := by
  rw [walkStart_eq hq, if_neg (Nat.not_le.2 h)]
  simp only [hgood, Bool.false_eq_true, if_false]
  refine ⟨_, rfl, ?_, ?_⟩
  · rw [queue_askEntry, die_modDie]
  · refine askEntry_asks (x := s.beginWalk w) ?_ rfl rfl rfl fun _ => rfl
    rw [die_modDie, hidle]
    rfl

end

end Sys2Proof.Laws
end

