-- ==== Sys2Proof/Proofs/WalkEnds.lean ====
section
/-! SUPPORT. What the end of a walk changes: its die's walks, and those that wait for it (O44; R39, R42, R45, R47). -/

namespace Sys2Proof.Laws

open Sys2Proof.Machine Sys2Proof.Claims

section

variable {s u : State} {d : Nat} {w x : Walk}

/-! ## Dies -/

theorem die_of_dies (h : u.dies = s.dies) (d : Nat) : u.die d = s.die d := by
  unfold State.die
  rw [h]

/-- What each step of a fold keeps, the fold keeps. -/
theorem foldl_keeps {α β γ : Type} {f : α → β → α} {p : α → γ} (hf : ∀ a b, p (f a b) = p a) (l : List β) (a : α) :
    p (l.foldl f a) = p a := by
  induction l generalizing a with
  | nil => rfl
  | cons b l ih => rw [List.foldl_cons, ih, hf]

theorem dies_holdAcc (s : State) (c : Nat) (a : Acc) (cause : BitVec 16) : (s.holdAcc c a cause).dies = s.dies :=
  ((same_modThread _ c a.slot a.tid _).trans (same_settle _ c a.slot a.tid)).dies

/-- One that waits is released with nothing of any die changed. -/
theorem dies_endWait (s : State) (fault : Option (BitVec 16)) (q : Waiter) : (s.endWait fault q).dies = s.dies := by
  unfold State.endWait
  split
  · rfl
  · split
    · exact dies_holdAcc _ _ _ _
    · rfl
  · rfl
  · split
    · split
      · exact (same_takeTrap _ _ _ _ _ _ _).dies
      · rfl
    · rfl
  · rfl
  · rfl

theorem die_endWalk (s : State) (d : Nat) (w : Walk) (fault : Option (BitVec 16)) :
    (s.endWalk d w fault).die d = { s.die d with active := (s.die d).active.filter (·.id != w.id) } := by
  rw [State.endWalk, die_of_dies (foldl_keeps (p := State.dies) (fun s q => dies_endWait s fault q) _ _), die_modDie]

/-- The one walk under way leaves its slot. -/
theorem active_endWalk (h : (s.die d).active = [x]) (hid : x.id = w.id) (fault : Option (BitVec 16)) :
    ((s.endWalk d w fault).die d).active = [] := by
  rw [die_endWalk]
  simp [h, hid]

theorem dies_parkWaiters (s : State) (ws : List Waiter) : (s.parkWaiters ws).dies = s.dies := by
  refine foldl_keeps (p := State.dies) (fun s q => ?_) ws s
  cases q with
  | acc c id =>
    dsimp only
    split
    · exact (same_cvShed _ _ _ _).dies
    · rfl
  | fetch c g => exact (same_cvShed s c g 2).dies
  | job k t => rfl

/-- A leaf of a walk fills the last level of its die's TLB, whoever waits (R42). -/
theorem die_fillFrom (hfill : w.noFill = false) (hkeys : w.noKeys = []) (e : TlbEnt) :
    (s.fillFrom d 4 w e).die d = { s.die d with tlb := tlbPut3 (s.die d).tlb e } := by
  unfold State.fillFrom
  rw [hfill, hkeys, List.contains_nil, Bool.or_self, if_neg Bool.false_ne_true, if_neg (by decide)]
  rw [die_of_dies (foldl_keeps (p := State.dies) (fun s q => by cases q <;> rfl) _ _), die_modDie]

theorem head_tlbPut (l : List TlbEnt) (sets n : Nat) (e : TlbEnt) : (tlbPut l sets n e).head? = some e := rfl

/-- A walk that has its leaf leaves its slot, and the leaf stands first in the last level (R42). -/
theorem die_completeWalk (h : (s.die d).active = [x]) (hid : x.id = w.id) (hfill : w.noFill = false) (hkeys : w.noKeys = []) (e : Dword) :
    ((s.completeWalk d w e).die d).active = [] ∧
    ((s.completeWalk d w e).die d).tlb.head? = some (leafEnt w.ctx (s.regionFor w.ctx w.va) w.va e) := by
  have hdie := die_fillFrom (s := s) (d := d) hfill hkeys (leafEnt w.ctx (s.regionFor w.ctx w.va) w.va e)
  constructor
  · refine active_endWalk (x := x) ?_ hid none
    rw [hdie]
    exact h
  · rw [State.completeWalk, die_endWalk, hdie]
    exact head_tlbPut _ _ _ _

/-! ## Those that wait -/

theorem acc_modAcc {f : Acc → Acc} (hf : ∀ a, (f a).id = a.id) (s : State) (c id : Nat) :
    (s.modAcc c id f).acc? c id = (s.acc? c id).map f := by
  rw [State.acc?, State.acc?, accs_modAcc]
  induction (s.core c).accs with
  | nil => rfl
  | cons a l ih =>
    rw [modAccs, List.map_cons, List.find?_cons, List.find?_cons]
    by_cases h : a.id = id
    · simp [h, hf]
    · simp only [beq_eq_false_iff_ne.2 h, Bool.false_eq_true, if_false]
      exact ih

theorem acc_of_accs {c : Nat} (h : (u.core c).accs = (s.core c).accs) (id : Nat) : u.acc? c id = s.acc? c id := by
  rw [State.acc?, State.acc?, h]

/-- A fill of TLBs changes no access. -/
theorem accs_tlbFill (s : State) (c n : Nat) (e : TlbEnt) (c' : Nat) : ((s.tlbFill c n e).core c').accs = (s.core c').accs := by
  let s1 := if n < 2 then s else s.modCore c fun k => { k with tlb := tlbPut1 k.tlb e }
  have hcore : (s1.core c').accs = (s.core c').accs := by
    by_cases hn : n < 2
    · simp only [s1, if_pos hn]
    · by_cases h : c' = c
      · simp only [s1, if_neg hn, h, core_modCore]
      · simp only [s1, if_neg hn, core_modCore_other _ _ h]
  refine Eq.trans ?_ hcore
  show (State.core (let s2 := if n < 3 then s1 else s1.modCluster (clusterOf c) fun k => { k with tlb := tlbPut2 k.tlb e }
    if n < 4 then s2 else s2.modDie (dieOf c) fun k => { k with tlb := tlbPut3 k.tlb e }) c').accs = _
  dsimp only
  split <;> split <;> rfl

theorem accs_fillFrom (s : State) (d n : Nat) (w : Walk) (e : TlbEnt) (c : Nat) : ((s.fillFrom d n w e).core c).accs = (s.core c).accs := by
  unfold State.fillFrom
  split
  · rfl
  · refine (foldl_keeps (p := fun u : State => (u.core c).accs) (fun s q => ?_) _ _).trans ?_
    · cases q with
      | acc c' => exact accs_tlbFill s c' 3 e c
      | fetch c' => exact accs_tlbFill s c' 3 e c
      | job k => rfl
    · split <;> rfl

/-- An access that waits for a walk looks its page up again when the walk completes (R42). -/
theorem acc_completeWalk {c id : Nat} {a : Acc} (hw : w.waiters = [.acc c id]) (ha : s.acc? c id = some a) (e : Dword) :
    (s.completeWalk d w e).acc? c id = some { a with phase := .logged } := by
  rw [State.completeWalk, State.endWalk, hw]
  show State.acc? (State.modAcc _ c id fun a => { a with phase := .logged }) c id = _
  rw [acc_modAcc (f := fun a => { a with phase := .logged }) fun _ => rfl]
  exact congrArg (Option.map _) (Eq.trans (acc_of_accs (accs_fillFrom s d 4 w _ c) id) ha)

/-! ## Bytes -/

theorem sameBytes_foldl {β : Type} {f : State → β → State} (hf : ∀ s b, SameBytes s (f s b)) (l : List β) (s : State) :
    SameBytes s (l.foldl f s) := by
  induction l generalizing s with
  | nil => exact fun _ _ => rfl
  | cons b l ih => exact sameBytes_trans (hf s b) (ih _)

theorem bytes_tlbFill (s : State) (c n : Nat) (e : TlbEnt) : SameBytes s (s.tlbFill c n e) := by
  unfold State.tlbFill
  split <;> split <;> split <;> exact sameBytes_of_memory rfl rfl rfl rfl

theorem bytes_fillFrom (s : State) (d n : Nat) (w : Walk) (e : TlbEnt) : SameBytes s (s.fillFrom d n w e) := by
  unfold State.fillFrom
  split
  · exact fun _ _ => rfl
  · refine sameBytes_trans (u := if n < 4 then s else _) ?_ (sameBytes_foldl (fun s q => ?_) _ _)
    · split <;> exact sameBytes_of_memory rfl rfl rfl rfl
    · cases q with
      | acc c => exact bytes_tlbFill s c 3 e
      | fetch c => exact bytes_tlbFill s c 3 e
      | job k => exact sameBytes_of_memory rfl rfl rfl rfl

theorem bytes_release (s : State) (q : Waiter) : SameBytes s (s.endWait none q) := by
  cases q <;> exact sameBytes_of_memory rfl rfl rfl rfl

theorem bytes_completeWalk (s : State) (d : Nat) (w : Walk) (e : Dword) : SameBytes s (s.completeWalk d w e) := by
  let u := s.fillFrom d 4 w (leafEnt w.ctx (s.regionFor w.ctx w.va) w.va e)
  have hfill : SameBytes s u := bytes_fillFrom s d 4 w _
  have hslot : SameBytes u (u.modDie d fun x => { x with active := x.active.filter (·.id != w.id) }) :=
    sameBytes_of_memory rfl rfl rfl rfl
  exact sameBytes_trans hfill (sameBytes_trans hslot (sameBytes_foldl (fun s q => bytes_release s q) _ _))

/-! ## The queue of records -/

/-- A die whose waiting FQCFG takes effect if its fault queue is empty (R429). -/
def takeFqcfg (x : Die) : Die :=
  match x.fqcfgNext with
  | some v => if x.fqtail == x.fqhead then { x with fqcfg := v, fqcfgNext := none } else x
  | none => x

theorem takeFqcfg_none {x : Die} (h : x.fqcfgNext = none) : takeFqcfg x = x := by
  unfold takeFqcfg
  simp only [h]

theorem settleQueue_eq (s : State) (d : Nat) : s.settleQueue d =
    (takeFqcfg (s.die d)).parked.foldl (fun u w => u.writeRecord d w) (s.modDie d takeFqcfg) := by
  rw [← die_modDie s d takeFqcfg]
  rfl

theorem writeRecord_off (h : (s.die d).fqcfg.getLsbD 59 = false) (w : Walk) : s.writeRecord d w = s := by
  unfold State.writeRecord
  simp only [h, Bool.not_false, Bool.or_true, Bool.true_or, if_true]

/-- A fault queue that is off takes nothing (R429). -/
theorem die_settleQueue_off (h : QueueOff s d) : (s.settleQueue d).die d = s.die d := by
  obtain ⟨hoff, hnext⟩ := h
  have hstay : ∀ (l : List Walk) (u : State), (u.die d).fqcfg.getLsbD 59 = false → l.foldl (fun u w => u.writeRecord d w) u = u := by
    intro l u hu
    induction l with
    | nil => rfl
    | cons w l ih => rw [List.foldl_cons, writeRecord_off hu, ih]
  have hdie : (s.modDie d takeFqcfg).die d = s.die d := by rw [die_modDie, takeFqcfg_none hnext]
  rw [settleQueue_eq, hstay _ _ (by rw [hdie, hoff]), hdie]

/-- A walk that fails parks with those that wait for it, of contexts that are not halted (R45). -/
theorem die_failWalk (h : (s.die d).active = [x]) (hid : x.id = w.id) (hoff : QueueOff s d) (hlive : ∀ q ∈ w.waiters, s.isHalted q = false)
    (level : Nat) : ((s.failWalk d w level).die d).active = [] ∧
      ((s.failWalk d w level).die d).parked = (s.die d).parked ++ [{ w with failed := some level }] := by
  have hgone : w.waiters.filter s.isHalted = [] := by
    rw [List.filter_eq_nil_iff]
    intro q hq
    rw [hlive q hq]
    exact Bool.false_ne_true
  have hleft : w.waiters.filter (fun q => !s.isHalted q) = w.waiters := by
    rw [List.filter_eq_self]
    intro q hq
    rw [hlive q hq]
    rfl
  have hdie : ∀ (u : State) (ws : List Waiter), QueueOff u d → ((u.parkWaiters ws).settleQueue d).die d = u.die d := by
    intro u ws hu
    have hpark := die_of_dies (dies_parkWaiters u ws) d
    rw [die_settleQueue_off (by rw [QueueOff, hpark]; exact hu), hpark]
  unfold State.failWalk
  dsimp only
  rw [hgone, hleft, List.foldl_nil, hdie _ _ (by rw [QueueOff, die_modDie]; exact hoff), die_modDie]
  simp [h, hid]

end

end Sys2Proof.Laws
end

