-- ==== Sys2Proof/Proofs/WalkEntries.lean ====
section
/-! SUPPORT. What a walk does with the entry that it has read (O44; R37 to R41, R45). -/

namespace Sys2Proof.Laws

open Sys2Proof.Machine Sys2Proof.Claims

section

variable {s : State} {d : Nat} {w : Walk} {f : Dword} {g : Got}

/-- The address of the entry that a walk reads next, by its region. -/
theorem entryPa_of_region (h : w.region = some f) : w.entryPa = entryAddr (regionOf f) w.level w.table w.va := by
  rw [Walk.entryPa, h]
  rfl

theorem find_walking (h : Walking s d w) (p : Walk → Bool) (hp : p w = true) :
    (s.die d).active.find? (fun y => y.id == w.id && p y) = some w := by
  rw [h, List.find?_cons_of_pos]
  rw [BEq.rfl, Bool.true_and, hp]

/-- An entry under poison ends its walk (R39). -/
theorem useEntry_poisoned (h : g.poison.getLsbD (w.entryPa / 64 % 4) = true) : s.useEntry d w g = s.endWalk d w (some 0x0C) := by
  unfold State.useEntry
  dsimp only
  rw [h, Bool.true_or, if_pos rfl]

/-- What becomes of a walk by an entry that can be used (R37 to R40). -/
theorem useEntry_sound (h : g.poison.getLsbD (w.entryPa / 64 % 4) = false) (hlink : s.linkDown w.entryPa = false) :
    s.useEntry d w g =
      let e := entryOf g w.entryPa
      if !e.getLsbD 0 then s.failWalk d { w with line := none } w.level
      else if w.level ≤ leafLevel (regionOf (w.region.getD 0)) then
        if w.wantsUpdate e then s.setWalk d { w with leaf := some e, leafPa := w.entryPa, line := none } else s.completeWalk d w e
      else
        let y : Walk := { w with level := w.level - 1, table := (e.extractLsb' 8 44).toNat * 256, line := none }
        (s.setWalk d y).askEntry d y := by
  unfold State.useEntry
  dsimp only
  rw [h, hlink, Bool.or_self, if_neg Bool.false_ne_true]
  rfl

theorem wantsUpdate_iff (w : Walk) (e : Dword) :
    w.wantsUpdate e = true ↔ e.getLsbD 4 = false ∨ (w.wantD = true ∧ e.getLsbD 1 = true ∧ e.getLsbD 5 = false) := by
  unfold Walk.wantsUpdate
  simp [and_assoc]

theorem jobs_endWalk {k : Nat} {t : BitVec 16} (hw : w.waiters = [.job k t]) (cause : BitVec 16) :
    ∀ j ∈ ((s.endWalk d w (some cause)).cluster k).jobs, j.ticket = t → j.fault = some cause := by
  rw [State.endWalk, hw]
  show ∀ j ∈ ((State.modJob _ k t fun j => { j with waitWalk := none, fault := some cause }).cluster k).jobs, _
  rw [State.modJob, cluster_modCluster]
  intro j hj ht
  obtain ⟨i, -, rfl⟩ := List.mem_map.1 hj
  by_cases hi : i.ticket = t
  · rw [if_pos (beq_iff_eq.2 hi)]
  · rw [if_neg (by rwa [beq_iff_eq])] at ht
    exact absurd ht hi

/-- What a walk asked for before does not matter to what it asks for. -/
theorem asks_of_line {u : State} {l : Option Line} {pa : Nat} (h : Asks s u d { w with line := l } pa) : Asks s u d w pa :=
  ⟨h.1, h.2⟩

/-- A walk set to another place asks for the entry there (R37). -/
theorem setWalk_asks (h : Walking s d w) {y : Walk} (hid : y.id = w.id) : Asks s ((s.setWalk d y).askEntry d y) d y y.entryPa :=
  askEntry_asks (x := y) (active_setWalk h hid.symm) rfl rfl rfl fun _ => rfl

end

/-! ## Each outcome of a read -/

section

variable {s : State} {d p k : Nat} {w : Walk} {f : Dword} {g : Got}

/-- A walk that could not ask for its entry yet asks (R15, R41). -/
theorem walkEntryRead_unasked (h : Walking s d w) (hleaf : w.leaf = none) (hline : w.line = none) :
    exec (.walkEntryRead d w.id) s = .next (s.askEntry d w) := by
  show execWalkEntryRead d w.id s = _
  unfold execWalkEntryRead
  simp only [find_walking h (fun y => y.leaf.isNone) (by rw [hleaf]; rfl), hline]

theorem walkEntryRead_waits (h : Walking s d w) (hleaf : w.leaf = none) {l : Line} (hline : w.line = some l) (hgot : l.got = none) :
    exec (.walkEntryRead d w.id) s = .next s := by
  show execWalkEntryRead d w.id s = _
  unfold execWalkEntryRead
  simp only [find_walking h (fun y => y.leaf.isNone) (by rw [hleaf]; rfl), hline, hgot]

theorem walkEntryRead_uses (h : Walking s d w) (hleaf : w.leaf = none) (hline : w.line = some ⟨p, k, some g⟩) :
    exec (.walkEntryRead d w.id) s = .next (s.useEntry d w g) := by
  show execWalkEntryRead d w.id s = _
  unfold execWalkEntryRead
  simp only [find_walking h (fun y => y.leaf.isNone) (by rw [hleaf]; rfl), hline]

theorem walkEntryRead_poisoned (h : Walking s d w) (hleaf : w.leaf = none) (hline : w.line = some ⟨p, k, some g⟩)
    (hbad : g.poison.getLsbD (w.entryPa / 64 % 4) = true) {c : Nat} {t : BitVec 16} (hw : w.waiters = [.job c t]) :
    ∃ u, exec (.walkEntryRead d w.id) s = .next u ∧ (u.die d).active = [] ∧ u.memory = s.memory ∧
      ∀ j ∈ (u.cluster c).jobs, j.ticket = t → j.fault = some 0x0C := by
  refine ⟨s.endWalk d w (some 0x0C), ?_, active_endWalk h rfl _, endWalk_memory _ _ _ _, jobs_endWalk hw _⟩
  rw [walkEntryRead_uses h hleaf hline, useEntry_poisoned hbad]

variable (h : Walking s d w) (hleaf : w.leaf = none) (hline : w.line = some ⟨p, k, some g⟩) (hregion : w.region = some f)
  (hgood : g.poison.getLsbD (w.entryPa / 64 % 4) = false) (hlink : s.linkDown w.entryPa = false)

include h hleaf hline hgood hlink

/-- An entry with V = 0 parks the walk (R38, R45). -/
theorem walkEntryRead_parks (hv : (entryOf g w.entryPa).getLsbD 0 = false) (hoff : QueueOff s d)
    (hlive : ∀ q ∈ w.waiters, s.isHalted q = false) : ∃ u, exec (.walkEntryRead d w.id) s = .next u ∧ (u.die d).active = [] ∧
      (u.die d).parked = (s.die d).parked ++ [{ w with line := none, failed := some w.level }] := by
  refine ⟨s.failWalk d { w with line := none } w.level, ?_, die_failWalk (w := { w with line := none }) h rfl hoff hlive w.level⟩
  rw [walkEntryRead_uses h hleaf hline, useEntry_sound hgood hlink]
  simp only [hv, Bool.not_false, if_true]

variable (hv : (entryOf g w.entryPa).getLsbD 0 = true)

include hregion hv

/-- An entry above the leaves leads to the table of the next level (R37). -/
theorem walkEntryRead_descends (hlevel : leafLevel (regionOf f) < w.level) :
    let table := ((entryOf g w.entryPa).extractLsb' 8 44).toNat * 256
    ∃ u, exec (.walkEntryRead d w.id) s = .next u ∧
      Asks s u d { w with level := w.level - 1, table := table } (entryAddr (regionOf f) (w.level - 1) table w.va) := by
  intro table
  let y : Walk := { w with level := w.level - 1, table := table }
  refine ⟨(s.setWalk d { y with line := none }).askEntry d { y with line := none }, ?_, asks_of_line (w := y) (l := none) ?_⟩
  · rw [walkEntryRead_uses h hleaf hline, useEntry_sound hgood hlink, hregion]
    simp only [hv, Bool.not_true, Bool.false_eq_true, if_false, Option.getD_some, Nat.not_le.2 hlevel]
    rfl
  · rw [← entryPa_of_region (w := { y with line := none }) hregion]
    exact setWalk_asks h rfl

variable (hlevel : w.level ≤ leafLevel (regionOf f))

include hlevel

theorem walkEntryRead_leaf : exec (.walkEntryRead d w.id) s =
    .next (if w.wantsUpdate (entryOf g w.entryPa) then
        s.setWalk d { w with leaf := some (entryOf g w.entryPa), leafPa := w.entryPa, line := none }
      else s.completeWalk d w (entryOf g w.entryPa)) := by
  rw [walkEntryRead_uses h hleaf hline, useEntry_sound hgood hlink, hregion]
  simp only [hv, Bool.not_true, Bool.false_eq_true, if_false, Option.getD_some, hlevel, if_true]

/-- A leaf whose A or D is to be set waits for that (R38, R40). -/
theorem walkEntryRead_updates (hopen : w.wantsUpdate (entryOf g w.entryPa) = true) :
    ∃ u, exec (.walkEntryRead d w.id) s = .next u ∧
      Walking u d { w with leaf := some (entryOf g w.entryPa), leafPa := w.entryPa, line := none } := by
  refine ⟨_, walkEntryRead_leaf h hleaf hline hregion hgood hlink hv hlevel, ?_⟩
  rw [if_pos hopen]
  exact active_setWalk h rfl

/-- Another leaf completes the walk (R42). -/
theorem walkEntryRead_completes (hopen : ¬ w.wantsUpdate (entryOf g w.entryPa) = true) (hfill : w.noFill = false) (hkeys : w.noKeys = []) :
    ∃ u, exec (.walkEntryRead d w.id) s = .next u ∧ (u.die d).active = [] ∧
      (u.die d).tlb.head? = some (leafEnt w.ctx (s.regionFor w.ctx w.va) w.va (entryOf g w.entryPa)) ∧
      ∀ c id a, w.waiters = [.acc c id] → s.acc? c id = some a → u.acc? c id = some { a with phase := .logged } := by
  refine ⟨_, walkEntryRead_leaf h hleaf hline hregion hgood hlink hv hlevel, ?_⟩
  rw [if_neg hopen]
  obtain ⟨hactive, htlb⟩ := die_completeWalk h rfl hfill hkeys (entryOf g w.entryPa)
  exact ⟨hactive, htlb, fun c id a hw ha => acc_completeWalk hw ha _⟩

end

end Sys2Proof.Laws
end

