-- ==== Sys2Proof/Proofs/HubStores.lean ====
section
/-! SUPPORT. A store by a unit of the hub within one sector: what stands there after it, and what it leaves as it was, whatever reads of its
line are open (O44; R18, R27, R55, R93). -/

namespace Sys2Proof.Laws

open Sys2Proof.Machine Sys2Proof.Claims

/-! ## What reads of a line at home change -/

/-- Reads of lines have been performed at home: besides what notices change, only vaults, errors found, free values and side bits have. -/
structure ReadOnly (s u : State) : Prop where
  state : u = { s with
    cores := u.cores
    vaults := u.vaults
    errors := u.errors
    free := u.free
    memory := { s.memory with sides := u.memory.sides }
    hub := { s.hub with events := u.hub.events, idlers := u.hub.idlers, msix := u.hub.msix, notices := u.hub.notices } }

theorem ReadOnly.refl (s : State) : ReadOnly s s := ⟨rfl⟩

theorem ReadOnly.trans {s u v : State} (h : ReadOnly s u) (k : ReadOnly u v) : ReadOnly s v := by
  have hk := k.state
  rw [h.state] at hk
  exact ⟨hk⟩

theorem readOnly_foldl {β : Type} {f : State → β → State} (hf : ∀ s b, ReadOnly s (f s b)) (l : List β) (s : State) :
    ReadOnly s (l.foldl f s) := by
  induction l generalizing s with
  | nil => exact .refl s
  | cons b l ih => exact (hf s b).trans (ih _)

theorem Found.readOnly {s u : State} (h : Found s u) : ReadOnly s u := by
  have hs := h.state
  exact ⟨by rw [hs]⟩

theorem readOnly_findErrors (s : State) (cell : Nat) (sects : BitVec 4) : ReadOnly s (s.findErrors cell sects) := by
  refine readOnly_foldl (fun s k => ?_) _ s
  split
  · exact ReadOnly.trans ⟨rfl⟩ (noteEcc_found _ _ _).1.readOnly
  · exact .refl s

theorem readOnly_setTimes (s : State) (cell : Nat) (w r : Dword) : ReadOnly s (s.setTimes cell w r) := by
  unfold State.setTimes
  split
  · exact ⟨rfl⟩
  · exact ⟨rfl⟩

theorem readOnly_homeLine (s : State) (key pa cell : Nat) : ReadOnly s (s.homeLine key pa cell).2 := by
  obtain ⟨f, hf⟩ := readMem_state s key (lineOf pa) 256
  unfold State.homeLine
  generalize s.readMem key (lineOf pa) 256 = r at hf
  dsimp only
  rw [hf]
  exact ⟨rfl⟩

/-- A read of a line leaves the vault (R53): under another generation of its key the keys are set and put back (R32). -/
theorem readOnly_leaveVault (s : State) (y : Umbra) (e : Ecc) : ReadOnly s (s.leaveVault y e).2 := by
  unfold State.leaveVault
  split
  · exact ⟨rfl⟩
  · next cell hc =>
    have hfound : ReadOnly s ((s.findErrors cell 0xF).noteEcc cell e) :=
      (readOnly_findErrors s cell 0xF).trans (noteEcc_found _ _ _).1.readOnly
    generalize (s.findErrors cell 0xF).noteEcc cell e = s1 at hfound ⊢
    dsimp only
    generalize (s1.times cell).1 = t, leaseEnd y.reqs (s1.times cell).1 (s1.times cell).2 = r
    have htimed : ReadOnly s (if s1.lost cell then s1 else s1.setTimes cell t r) := by
      split
      · exact hfound
      · exact hfound.trans (readOnly_setTimes _ _ _ _)
    generalize (if s1.lost cell then s1 else s1.setTimes cell t r) = s2 at htimed ⊢
    split
    · exact htimed.trans (readOnly_homeLine _ _ _ _)
    · have hline := (readOnly_homeLine (s2.modHub fun h => { h with keys := tset h.keys y.key y.gen }) y.key y.pa cell).state
      have hkeys : s2.hub.keys = s.hub.keys := by rw [htimed.state]
      refine htimed.trans ?_
      generalize (s2.modHub fun h => { h with keys := tset h.keys y.key y.gen }).homeLine y.key y.pa cell = r at hline
      dsimp only
      rw [hline, ← hkeys]
      exact ⟨rfl⟩

theorem readOnly_leaveNow (s : State) (v : Nat) (y : Umbra) : ReadOnly s (s.leaveNow v y) := by
  unfold State.leaveNow
  split
  · exact .refl s
  · have hleft := readOnly_leaveVault s y { corrected := 0, bad := 0 }
    generalize s.leaveVault y { corrected := 0, bad := 0 } = r at hleft ⊢
    exact hleft.trans ⟨rfl⟩

/-- The reads of a line that are open are performed and sealed (R55). -/
theorem readOnly_sealLine (s : State) (cell : Nat) : ReadOnly s (s.sealLine cell) :=
  readOnly_foldl (fun s y => (readOnly_leaveNow s _ y).trans ⟨rfl⟩) _ s

section

variable {s u : State} (h : ReadOnly s u)

include h

theorem ReadOnly.sameBytes : SameBytes s u := by
  rw [h.state]
  exact fun _ _ => rfl

theorem ReadOnly.dies : u.dies = s.dies := by
  rw [h.state]

theorem ReadOnly.contexts : u.hub.contexts = s.hub.contexts := by
  rw [h.state]

theorem ReadOnly.cellOf (pa : Nat) : u.cellOf pa = s.cellOf pa := by
  rw [h.state]
  rfl

theorem ReadOnly.lost (cell : Nat) : u.lost cell = s.lost cell := by
  rw [h.state]
  rfl

end

theorem bytes_clearErrors (s : State) (cell : Nat) (sects : BitVec 4) : SameBytes s (s.clearErrors cell sects) := fun _ _ => rfl

/-! ## Bytes of one sector -/

/-- Two addresses of a sector that are served are served by the cells of one sector, in stacked and in far memory. -/
theorem cellOf_sector {s : State} {a b x y : Nat} (ha : s.cellOf a = some x) (hb : s.cellOf b = some y) (hab : a / 64 = b / 64) :
    x / 64 = y / 64 ∧ (a ≠ b → x ≠ y) := by
  by_cases hf : farBase ≤ a ∧ a < farBase + farSize
  · have far : ∀ {p c : Nat}, s.cellOf p = some c → (farBase ≤ p ∧ p < farBase + farSize) → c = farCell + (p - farBase) := by
      intro p c hp hin
      have hlow : ¬ p < stackedSize := by simp only [farBase, stackedSize] at hin ⊢; omega
      unfold State.cellOf at hp
      rw [if_neg hlow, if_pos hin] at hp
      split at hp
      · exact (Option.some.inj hp).symm
      · cases hp
    have hfb : farBase ≤ b ∧ b < farBase + farSize := by simp only [farBase, farSize] at hf ⊢; omega
    rw [far ha hf, far hb hfb]
    simp only [farBase, farCell] at hf hfb ⊢
    omega
  · have hfb : ¬ (farBase ≤ b ∧ b < farBase + farSize) := by simp only [farBase, farSize] at hf ⊢; omega
    obtain ⟨h1, h0⟩ := cellOf_line s hf
    obtain ⟨h2, -⟩ := cellOf_line s hfb
    have hline : lineOf b = lineOf a := by unfold lineOf; omega
    rw [ha] at h1
    rw [hb, hline] at h2
    obtain ⟨c, hc, hx⟩ := Option.map_eq_some_iff.1 h1.symm
    obtain ⟨c', hc', hy⟩ := Option.map_eq_some_iff.1 h2.symm
    have hcc : c' = c := Option.some.inj (hc'.symm.trans hc)
    have hmod := h0 c hc
    omega

/-- A write of one byte leaves every other byte of its sector that its key reads. -/
theorem byteAt_writeByte_sector {s : State} {key pa cell a : Nat} {b x : Byte} (hp : s.cellOf pa = some cell) (ha : a / 64 = pa / 64)
    (hne : a ≠ pa) (hx : s.byteAt key a = some x) : (s.writeByte key pa b).byteAt key a = some x := by
  have hu : s.writeByte key pa b = { s with memory := s.memory.put cell (s.sealFor key pa) b } := by
    unfold State.writeByte
    rw [hp]
  have hseal : s.sealFor key a = s.sealFor key pa := by
    unfold State.sealFor
    rw [ha]
  unfold State.byteAt at hx ⊢
  rw [writeByte_cellOf]
  cases hc : s.cellOf a with
  | none => simp [hc] at hx
  | some c =>
    obtain ⟨hsector, hother⟩ := cellOf_sector hc hp ha
    simp only [hc, hsector, hseal] at hx
    split at hx
    · next hs =>
      rw [hu]
      show (if (tfind (s.memory.put _ _ b).seals _ == some (s.sealFor key a)) = true then tfind (s.memory.put _ _ b).cells _ else none) = _
      rw [put_same_seal s.memory b (beq_iff_eq.1 hs) (hother hne), hsector, (put_self _ _ _ _).2, hseal, BEq.rfl, if_pos rfl, hx]
    · cases hx

section

variable {s : State} {key n : Nat} {data : List (Nat × Byte)}

theorem byteAt_writeMem_sector_kept (hs : ∀ e ∈ data, e.1 / 64 = n ∧ (s.cellOf e.1).isSome = true) {a : Nat} {x : Byte} (ha : a / 64 = n)
    (hn : a ∉ data.map (·.1)) (hx : s.byteAt key a = some x) : (s.writeMem key data).byteAt key a = some x := by
  induction data generalizing s with
  | nil => exact hx
  | cons e data ih =>
    obtain ⟨⟨he, hserved⟩, hs⟩ := List.forall_mem_cons.1 hs
    rw [List.map_cons, List.mem_cons, not_or] at hn
    obtain ⟨cell, hcell⟩ := Option.isSome_iff_exists.1 hserved
    exact ih (by simpa using hs) hn.2 (byteAt_writeByte_sector hcell (ha.trans he.symm) hn.1 hx)

/-- Each byte written in a sector that is served stands at its address. -/
theorem byteAt_writeMem_sector (hs : ∀ e ∈ data, e.1 / 64 = n ∧ (s.cellOf e.1).isSome = true) (hu : (data.map (·.1)).Nodup)
    {e : Nat × Byte} (he : e ∈ data) : (s.writeMem key data).byteAt key e.1 = some e.2 := by
  induction data generalizing s with
  | nil => cases he
  | cons f data ih =>
    obtain ⟨⟨hf, hserved⟩, hs⟩ := List.forall_mem_cons.1 hs
    rw [List.map_cons, List.nodup_cons] at hu
    have hs' : ∀ e ∈ data, e.1 / 64 = n ∧ ((s.writeByte key f.1 f.2).cellOf e.1).isSome = true := by simpa using hs
    obtain rfl | he := List.mem_cons.1 he
    · obtain ⟨cell, hcell⟩ := Option.isSome_iff_exists.1 hserved
      exact byteAt_writeMem_sector_kept hs' hf hu.1 (byteAt_writeByte_self _ hcell)
    · exact ih hs' hu.2 he

end

theorem peek_succ (s : State) (key pa n : Nat) :
    s.peek key pa (n + 1) = (s.byteAt key pa).bind fun b => (s.peek key (pa + 1) n).map (b :: ·) := by
  have hone : s.peek key pa 1 = (s.byteAt key pa).map ([·]) := by
    show [0].mapM (fun k => s.byteAt key (pa + k)) = _
    rw [List.mapM_cons, List.mapM_nil, Nat.add_zero]
    cases s.byteAt key pa <;> rfl
  rw [Nat.add_comm, peek_add, hone]
  cases s.byteAt key pa <;> rfl

theorem peek_of_bytes {s : State} {key pa : Nat} {bs : List Byte} (h : ∀ j, (hj : j < bs.length) → s.byteAt key (pa + j) = some bs[j]) :
    s.peek key pa bs.length = some bs := by
  induction bs generalizing pa with
  | nil => rfl
  | cons b bs ih =>
    have hfirst : s.byteAt key pa = some b := h 0 (by simp)
    have hrest : s.peek key (pa + 1) bs.length = some bs := ih fun j hj => by
      rw [show pa + 1 + j = pa + (j + 1) by omega]
      exact h (j + 1) (by simpa using hj)
    rw [List.length_cons, peek_succ, hfirst, hrest]
    rfl

/-- Every byte that is defined is served. -/
theorem served_of_peek {s : State} {key pa n : Nat} {bs : List Byte} (h : s.peek key pa n = some bs) {j : Nat} (hj : j < n) :
    (s.cellOf (pa + j)).isSome = true := by
  induction n generalizing pa bs j with
  | zero => omega
  | succ n ih =>
    rw [peek_succ] at h
    obtain ⟨b, hb, hrest⟩ := Option.bind_eq_some_iff.1 h
    obtain ⟨t, ht, -⟩ := Option.map_eq_some_iff.1 hrest
    cases j with
    | zero =>
      unfold State.byteAt at hb
      cases hc : s.cellOf pa with
      | none => simp [hc] at hb
      | some c => rfl
    | succ j =>
      rw [show pa + (j + 1) = pa + 1 + j by omega]
      exact ih ht (by omega)

theorem peek_of_sameBytes {s u : State} (h : SameBytes s u) (key pa n : Nat) : u.peek key pa n = s.peek key pa n := by
  unfold State.peek
  simp only [h key]

/-! ## The store -/

/-- Bytes that a unit of the hub stores in one sector stand there; dies and contexts are as they were. -/
structure Stored (s u : State) (pa : Nat) (bs : List Byte) : Prop where
  bytes    : u.peek 0 pa bs.length = some bs
  dies     : u.dies = s.dies
  contexts : u.hub.contexts = s.hub.contexts

/-- A line at home that is ready for a store with ct 0: its open reads have been performed and sealed, and it has the store's times. -/
def readied (s : State) (cell : Nat) : State :=
  let w := maxD 0 (((s.sealLine cell).times cell).2 + 1)
  (s.sealLine cell).setTimes cell w w

theorem readOnly_readied (s : State) (cell : Nat) : ReadOnly s (readied s cell) :=
  (readOnly_sealLine s cell).trans (readOnly_setTimes _ _ _ _)

/-- A store by a unit of the hub at a line that is free and not lost (R88). -/
theorem hubStore_eq {s : State} {pa cell : Nat} (hheld : s.slabHeld pa = false) (hfree : s.owner? pa = none)
    (hcell : s.homeCell pa = some cell) (hup : s.lost cell = false) (hkey : s.keyLoaded 0 = true) (data : List (Nat × Byte)) :
    s.hubStore true 0 pa data =
      ((readied s cell).storeHome 0 (lineOf pa) data).clearErrors cell (wholeSectors (data.map (fun e => e.1 % 256))) := by
  unfold State.hubStore State.touchSlab State.storeDirect State.storeAtHome
  rw [hheld, if_neg Bool.false_ne_true, pull_free hfree, hcell]
  simp only [hup, hkey, Bool.not_true, Bool.or_self, Bool.false_eq_true, if_false, if_true]
  rfl

theorem hubStore_stores {s : State} {pa cell : Nat} {bs : List Byte} (hheld : s.slabHeld pa = false) (hfree : s.owner? pa = none)
    (hcell : s.homeCell pa = some cell) (hup : s.lost cell = false) (hkey : s.keyLoaded 0 = true)
    (hserved : ∀ j, j < bs.length → (s.cellOf (pa + j)).isSome = true) (hfit : pa % 64 + bs.length ≤ 64) :
    Stored s (s.hubStore true 0 pa (zipFrom pa bs)) pa bs := by
  have hread := readOnly_readied s cell
  rw [hubStore_eq hheld hfree hcell hup hkey]
  generalize readied s cell = s1 at hread ⊢
  obtain ⟨hbytes, -, m, hm⟩ := storeHome_spec (s := s1) (key := 0) ((hread.cellOf _).trans hcell) ((hread.lost _).trans hup) (zipFrom pa bs)
  refine ⟨?_, ?_, ?_⟩
  · refine (peek_of_sameBytes (bytes_clearErrors _ _ _) 0 pa bs.length).trans (peek_of_bytes fun j hj => ?_)
    rw [hbytes]
    refine byteAt_writeMem_sector (n := pa / 64) (fun e he => ?_) (zipFrom_nodup pa bs)
      (mem_zipFrom.2 ⟨j, rfl, List.getElem?_eq_getElem hj⟩ : (pa + j, bs[j]) ∈ zipFrom pa bs)
    obtain ⟨i, hi, hb⟩ := mem_zipFrom.1 he
    obtain ⟨hlt, -⟩ := List.getElem?_eq_some_iff.1 hb
    rw [hi, hread.cellOf]
    exact ⟨by omega, hserved i hlt⟩
  · show (s1.storeHome 0 (lineOf pa) (zipFrom pa bs)).dies = _
    rw [hm]
    exact hread.dies
  · show (s1.storeHome 0 (lineOf pa) (zipFrom pa bs)).hub.contexts = _
    rw [hm]
    exact hread.contexts

end Sys2Proof.Laws
end

