-- ==== Sys2Proof/Proofs/LeafUpdates.lean ====
section
/-! SUPPORT. The A and D of a leaf set at its home, or the walk repeated (O44; R38, R40). -/

namespace Sys2Proof.Laws

open Sys2Proof.Machine Sys2Proof.Claims

section

variable {s : State} {d : Nat} {w : Walk} {e f : Dword}

/-- A leaf with A set, and D where it is wanted and W = 1 (R40). -/
def marked (w : Walk) (e : Dword) : Dword := e ||| 0x10 ||| (if w.wantD = true ∧ e.getLsbD 1 = true then 0x20 else 0)

theorem ofNat_leBytes (f : Dword) : BitVec.ofNat 64 (leNat (leBytes 8 f.toNat)) = f := by
  rw [leNat_leBytes, Nat.mod_eq_of_lt (by have := f.isLt; omega), BitVec.ofNat_toNat, BitVec.setWidth_eq]

theorem adCompareSwap_eq (h : Walking s d w) (hleaf : w.leaf = some e) (hf : Stands s w.leafPa (leBytes 8 f.toNat))
    (hcalm : s.hub.slabWait = []) : exec (.adCompareSwap d w.id) s =
      .next (if f = e then (s.hubStore true 0 w.leafPa (zipFrom w.leafPa (leBytes 8 (marked w e).toNat))).completeWalk d w (marked w e)
        else s.askEntry d (s.beginWalk w)) := by
  have hload : s.hubLoad 0 w.leafPa 8 = .ok (leBytes 8 f.toNat, s) := by
    have hl := hubLoad_stands hcalm hf (List.length_pos_iff.1 (by rw [leBytes_length]; omega))
    rwa [leBytes_length] at hl
  show execAdCompareSwap d w.id s = _
  unfold execAdCompareSwap
  simp only [find_walking h (fun y => y.leaf.isSome) (by rw [hleaf]; rfl), waitSlab_calm _ hcalm, hload, ofNat_leBytes, hleaf,
    Option.getD_some, marked, Bool.and_eq_true]

theorem lost_of_sound {cell : Nat} (h : s.poisonOf cell = 0) : s.lost cell = false := by
  unfold State.poisonOf at h
  cases hl : s.lost cell with
  | false => rfl
  | true => simp [hl] at h

/-- A marked leaf stands in the place of the leaf that was read. -/
theorem stored_leaf (halign : w.leafPa % 8 = 0) (hf : Stands s w.leafPa (leBytes 8 f.toNat)) (hkey : s.keyLoaded 0 = true)
    (hcalm : s.hub.slabWait = []) (new : Dword) :
    Stored s (s.hubStore true 0 w.leafPa (zipFrom w.leafPa (leBytes 8 new.toNat))) w.leafPa (leBytes 8 new.toNat) := by
  obtain ⟨hpeek, hall⟩ := hf
  rw [leBytes_length] at hpeek
  obtain ⟨howner, cell, hcell, hsound, -⟩ := hall 0 (by rw [leBytes_length]; omega)
  refine hubStore_stores (slabHeld_calm _ hcalm) howner hcell (lost_of_sound hsound) hkey (fun j hj => ?_) ?_
  · rw [leBytes_length] at hj
    exact served_of_peek hpeek hj
  · rw [leBytes_length]
    omega

theorem regionFor_of_contexts {u : State} (h : u.hub.contexts = s.hub.contexts) : u.regionFor = s.regionFor := by
  unfold State.regionFor State.regionEntry
  rw [h]

/-- A leaf that is as it was read is marked, and fills the last level (R40, R42). -/
theorem adCompareSwap_sets (h : Walking s d w) (hleaf : w.leaf = some e) (halign : w.leafPa % 8 = 0)
    (hf : Stands s w.leafPa (leBytes 8 e.toNat)) (hkey : s.keyLoaded 0 = true) (hcalm : s.hub.slabWait = []) (hfill : w.noFill = false)
    (hkeys : w.noKeys = []) : ∃ u, exec (.adCompareSwap d w.id) s = .next u ∧ (u.die d).active = [] ∧
      u.peek 0 w.leafPa 8 = some (leBytes 8 (marked w e).toNat) ∧
      (u.die d).tlb.head? = some (leafEnt w.ctx (s.regionFor w.ctx w.va) w.va (marked w e)) := by
  have hstored := stored_leaf halign hf hkey hcalm (marked w e)
  refine ⟨_, adCompareSwap_eq h hleaf hf hcalm, ?_⟩
  rw [if_pos rfl]
  generalize s.hubStore true 0 w.leafPa (zipFrom w.leafPa (leBytes 8 (marked w e).toNat)) = u at hstored ⊢
  have hwalk : Walking u d w := by rw [Walking, die_of_dies hstored.dies]; exact h
  obtain ⟨hactive, htlb⟩ := die_completeWalk hwalk rfl hfill hkeys (marked w e)
  refine ⟨hactive, ?_, ?_⟩
  · have hbytes := hstored.bytes
    rw [leBytes_length] at hbytes
    rw [peek_of_sameBytes (bytes_completeWalk u d w _), hbytes]
  · rw [htlb, regionFor_of_contexts hstored.contexts]

theorem bytes_askEntry (s : State) (d : Nat) (w : Walk) : SameBytes s (s.askEntry d w) := by
  unfold State.askEntry
  split <;> exact sameBytes_of_memory rfl rfl rfl rfl

/-- Of a leaf that has changed, the walk is repeated from its region (R40). -/
theorem adCompareSwap_repeats (h : Walking s d w) (hleaf : w.leaf = some e) (hf : Stands s w.leafPa (leBytes 8 f.toNat))
    (hcalm : s.hub.slabWait = []) (hne : f ≠ e) : ∃ u, exec (.adCompareSwap d w.id) s = .next u ∧
      Asks s u d (s.beginWalk w) (s.beginWalk w).entryPa ∧ SameBytes s u := by
  refine ⟨_, adCompareSwap_eq h hleaf hf hcalm, ?_⟩
  rw [if_neg hne]
  exact ⟨askEntry_asks (x := w) h rfl rfl rfl fun _ => rfl, bytes_askEntry _ _ _⟩

end

end Sys2Proof.Laws
end

