-- ==== Sys2Proof/Proofs/ParkedWalks.lean ====
section
/-! SUPPORT. Software answers a parked walk's record: its walk is queued again, or its access traps (O44; R47, R230 to R236, R429). -/

namespace Sys2Proof.Laws

open Sys2Proof.Machine Sys2Proof.Claims

/-! ## What a fetch looks at -/

/-- What a fetch looks at is the same in two states: memory, the regions, the keys, the address map, the TLBs and what has power. -/
structure SameFetch (s u : State) : Prop where
  memory   : u.memory = s.memory
  free     : u.free = s.free
  clusters : u.clusters = s.clusters
  hub      : u.hub = { s.hub with saves := u.hub.saves, resumes := u.hub.resumes }
  dies     : ∀ n, (u.die n).tlb = (s.die n).tlb ∧ (u.die n).powered = (s.die n).powered
  cores    : ∀ n, u.core n = { s.core n with slots := (u.core n).slots, accs := (u.core n).accs }

theorem SameFetch.trans {s u v : State} (h : SameFetch s u) (k : SameFetch u v) : SameFetch s v where
  memory := k.memory.trans h.memory
  free := k.free.trans h.free
  clusters := k.clusters.trans h.clusters
  hub := by
    have hk := k.hub
    rw [h.hub] at hk
    exact hk
  dies n := ⟨(k.dies n).1.trans (h.dies n).1, (k.dies n).2.trans (h.dies n).2⟩
  cores n := by
    have hk := k.cores n
    rw [h.cores n] at hk
    exact hk

theorem readMem_of_bytes (key n : Nat) : ∀ {s u : State} (_ : SameBytes s u) (_ : u.free = s.free) (pa : Nat),
    (u.readMem key pa n).1 = (s.readMem key pa n).1 := by
  induction n with
  | zero => exact fun _ _ _ => rfl
  | succ n ih =>
    intro s u hb hf pa
    unfold State.readMem
    rw [hb key pa, hf]
    cases s.byteAt key pa with
    | some b => exact congrArg (b :: ·) (ih hb hf _)
    | none => exact congrArg (_ :: ·) (ih (s := { s with free := s.free + 1 }) (u := { u with free := s.free + 1 }) hb rfl _)

section

variable {s u : State} (h : SameFetch s u)

include h

theorem SameFetch.bytes : SameBytes s u :=
  sameBytes_of_memory h.memory (by rw [h.hub]) (by rw [h.hub]) (by rw [h.hub])

theorem SameFetch.cellOf (pa : Nat) : u.cellOf pa = s.cellOf pa := cellOf_of_map (by rw [h.hub]) (by rw [h.hub]) pa

theorem SameFetch.regionFor : u.regionFor = s.regionFor := by
  unfold State.regionFor State.regionEntry
  rw [h.hub]

theorem SameFetch.tlbLookup (c ctx : Nat) (va : Dword) : u.tlbLookup c ctx va = s.tlbLookup c ctx va :=
  tlbLookup_of_levels (by rw [h.hub]) (by rw [h.cores]) (by rw [State.cluster, h.clusters]; rfl) (h.dies _).1

theorem SameFetch.portDown (cell : Nat) : u.portDown cell = s.portDown cell := by
  unfold State.portDown State.portOf
  rw [h.hub]

theorem SameFetch.lost (cell : Nat) : u.lost cell = s.lost cell := by
  unfold State.lost
  rw [(h.dies _).2, h.portDown]

theorem SameFetch.poisonOf (cell : Nat) : u.poisonOf cell = s.poisonOf cell := by
  unfold State.poisonOf State.side
  rw [h.lost, h.memory]

theorem SameFetch.linkDown (pa : Nat) : u.linkDown pa = s.linkDown pa := by
  unfold State.linkDown
  rw [h.cellOf]
  split
  · rw [h.portDown]
  · rfl

theorem SameFetch.checkLeaf (r : Region) (c : Nat) (e : TlbEnt) (va : Dword) (acc : Nat) (priv : Bool) :
    u.checkLeaf r c e va acc priv = s.checkLeaf r c e va acc priv := by
  unfold State.checkLeaf State.keyLoaded
  dsimp only
  rw [h.cellOf, h.linkDown, h.hub]

theorem SameFetch.reach (c ctx : Nat) (va : Dword) (acc : Nat) (priv : Bool) : u.reach c ctx va acc priv = s.reach c ctx va acc priv := by
  unfold State.reach State.slabHeld
  simp only [h.regionFor, h.tlbLookup, h.checkLeaf, h.cellOf]
  rw [h.hub]

/-- A fetch block is looked at with the same result. -/
theorem SameFetch.target (c ctx : Nat) (va : Dword) (priv : Bool) : u.target c ctx va priv = s.target c ctx va priv := by
  unfold State.target State.look State.lookAt
  simp only [h.reach, h.poisonOf, readMem_of_bytes _ _ h.bytes h.free]

end

theorem fetch_modThread (s : State) (c g t : Nat) (f : Thread → Thread) : SameFetch s (s.modThread c g t f) where
  memory := (modThread_same s c g t f).memory
  free := (modThread_same s c g t f).free
  clusters := (modThread_same s c g t f).clusters
  hub := by rw [(modThread_same s c g t f).hub]
  dies n := by rw [die_of_dies (modThread_same s c g t f).dies]; exact ⟨rfl, rfl⟩
  cores n := by rw [core_modThread]

theorem fetch_modAcc (s : State) (c id : Nat) (f : Acc → Acc) : SameFetch s (s.modAcc c id f) where
  memory := rfl
  free := rfl
  clusters := rfl
  hub := rfl
  dies _ := ⟨rfl, rfl⟩
  cores n := by
    rw [State.modAcc, modHub_core]
    by_cases h : n = c
    · rw [h, core_modCore]
    · rw [core_modCore_other _ _ h]

theorem fetch_modDie (s : State) (d : Nat) {f : Die → Die}
    (hf : ∀ x, (f x).tlb = x.tlb ∧ (f x).powered = x.powered) : SameFetch s (s.modDie d f) where
  memory := rfl
  free := rfl
  clusters := rfl
  hub := rfl
  dies n := by
    by_cases h : n = d
    · rw [h, die_modDie]
      exact hf _
    · rw [die_modDie_other _ _ h]
      exact ⟨rfl, rfl⟩
  cores _ := rfl

/-! ## A deferred trap -/

section

variable {s : State} {c g t : Nat} {x : Group} {th : Thread} {due : Due}

/-- A handled trap whose handler's first block can be fetched: the thread enters its handler, checked now or at its first issue (R232,
R233). -/
theorem takeTrap_enters (hg : s.group? c g = some x) (ht : s.thread? c g t = some th) (he : Enterable s c x th) (deferred : Bool)
    (resume : Dword) :
    ∃ b, (s.takeTrap c g t due deferred resume).thread? c g t = some (th.enter x.tvec due deferred resume b) := by
  obtain ⟨hv, hh, bs, hl⟩ := he
  by_cases hlate : s.lookLate c x.ctx x.tvec = true
  · refine ⟨true, ?_⟩
    have hgo : (decide (x.tvec = 0) || th.handler) = false := by simpa [hh] using hv
    unfold State.takeTrap
    rw [hg, ht]
    simp only [hgo, hlate, if_true, Bool.false_eq_true, if_false]
    rw [threads_cvShed, thread_modThread, threads_leaveQueues, ht]
    rfl
  · exact ⟨false, thread_takeTrap due deferred resume hg ht hv hh hl (Bool.eq_false_of_not_eq_true hlate)⟩

theorem Enterable.of_fetch {u : State} (h : SameFetch s u) (he : Enterable s c x th) : Enterable u c x th := by
  obtain ⟨hv, hh, bs, hl⟩ := he
  exact ⟨hv, hh, bs, by rw [h.target, hl]⟩

/-- The handler of a group does not change with its threads. -/
theorem Enterable.of_threads {l : List Thread} {y : Thread} (he : Enterable s c x th) (hy : y.handler = th.handler) :
    Enterable s c { x with threads := l } y := by
  obtain ⟨hv, hh, hl⟩ := he
  exact ⟨hv, hy.trans hh, hl⟩

/-- A trap that becomes due is taken at once by a thread that is in no handler and does not wait (R230, R236). -/
theorem defer_enters (hg : s.group? c g = some x) (ht : s.thread? c g t = some th) (he : Enterable s c x th) (hlive : th.live = true)
    (hwait : th.wait = none) (hdue : th.due = []) :
    ∃ b, (s.defer c g t due).thread? c g t = some (th.enter x.tvec due true th.pc b) := by
  let f : Thread → Thread := fun y => { y with due := y.due ++ [due] }
  let f' : Thread → Thread := fun y => { y with due := y.due.erase due }
  let s1 := s.modThread c g t f
  let s2 := s1.modThread c g t f'
  have ht1 : s1.thread? c g t = some (f th) := by rw [thread_modThread, ht]; rfl
  have herase : (th.due ++ [due]).erase due = th.due := by simp [hdue]
  have ht2 : s2.thread? c g t = some th := by
    rw [thread_modThread, ht1, Option.map_some]
    show some { th with due := (th.due ++ [due]).erase due } = some th
    rw [herase]
  have hg2 : s2.group? c g = some { x with threads := modAt f' (modAt f x.threads t) t } := by
    rw [group_modThread, group_modThread, hg]
    rfl
  have hsettle : s.defer c g t due = s2.takeTrap c g t due true th.pc := by
    have hfind : (f th).due.find? (fun d => d.inner || !(f th).handler) = some due := by
      simp [f, hdue, he.2.1]
    show s1.settle c g t = _
    unfold State.settle
    simp only [ht1, hfind, f, hwait, hlive, Option.any_none, Bool.not_true, Bool.or_self, Bool.false_eq_true, if_false, Option.isSome_none]
    rfl
  have hfetch : SameFetch s s2 := (fetch_modThread s c g t f).trans (fetch_modThread s1 c g t f')
  rw [hsettle]
  exact takeTrap_enters hg2 ht2 (Enterable.of_threads (Enterable.of_fetch hfetch he) rfl) true th.pc

end

/-! ## An answer to a record -/

section

variable {s : State} {d : Nat} {seq : Word} {w : Walk}

theorem retry_fields (seq : Word) :
    ((BitVec.ofNat 64 seq.toNat).extractLsb' 62 2).toNat = 0 ∧ lowWord (BitVec.ofNat 64 seq.toNat) = seq := by
  constructor
  · rw [BitVec.extractLsb'_toNat, BitVec.toNat_ofNat, Nat.shiftRight_eq_div_pow]
    omega
  · unfold lowWord
    apply BitVec.eq_of_toNat_eq
    rw [BitVec.extractLsb'_toNat, BitVec.toNat_ofNat, Nat.shiftRight_zero]
    omega

theorem deliver_fields (seq : Word) : ((0x4000000000000000 ||| BitVec.ofNat 64 seq.toNat).extractLsb' 62 2).toNat = 1 ∧
    lowWord (0x4000000000000000 ||| BitVec.ofNat 64 seq.toNat) = seq := by
  obtain ⟨htop, hlow⟩ := retry_fields seq
  constructor
  · have hor : (0x4000000000000000 ||| BitVec.ofNat 64 seq.toNat).extractLsb' 62 2 =
        (0x4000000000000000#64).extractLsb' 62 2 ||| (BitVec.ofNat 64 seq.toNat).extractLsb' 62 2 := BitVec.extractLsb'_or
    rw [hor, BitVec.eq_of_toNat_eq (y := 0#2) htop]
    decide
  · have hor : lowWord (0x4000000000000000 ||| BitVec.ofNat 64 seq.toNat) =
        lowWord 0x4000000000000000 ||| lowWord (BitVec.ofNat 64 seq.toNat) := BitVec.extractLsb'_or
    rw [hor, hlow, show lowWord 0x4000000000000000 = 0#32 by decide, BitVec.zero_or]

theorem find_parked (hp : (s.die d).parked = [w]) (hseq : w.seqNo = some seq) (v : Dword) :
    ((s.modDie d fun x => { x with wresume := v }).die d).parked.find? (fun y => y.seqNo == some seq) = some w := by
  rw [die_modDie, hp, List.find?_cons_of_pos (by rw [hseq, BEq.rfl])]

variable {c id : Nat} {a : Acc}

/-- RETRY queues the parked walk again (R47). -/
theorem walkRetry_queues (hp : (s.die d).parked = [w]) (hseq : w.seqNo = some seq) (hw : w.waiters = [.acc c id])
    (ha : s.acc? c id = some a) : ∃ u, exec (.walkRetry d seq) s = .next u ∧ (u.die d).parked = [] ∧
      (u.die d).queue = (s.die d).queue ++ [{ w with failed := none, seqNo := none }] ∧ u.acc? c id = some { a with phase := .walk } := by
  obtain ⟨hresp, hlow⟩ := retry_fields seq
  let s1 := s.modDie d fun x => { x with wresume := BitVec.ofNat 64 seq.toNat }
  let s2 := s1.modDie d fun x => { x with
    parked := x.parked.filter (·.id != w.id), queue := x.queue ++ [{ w with failed := none, seqNo := none }] }
  have hdie : s2.die d = { s1.die d with
      parked := (s1.die d).parked.filter (·.id != w.id), queue := (s1.die d).queue ++ [{ w with failed := none, seqNo := none }] } :=
    die_modDie _ _ _
  have hdie1 : s1.die d = { s.die d with wresume := BitVec.ofNat 64 seq.toNat } := die_modDie _ _ _
  refine ⟨s2.modAcc c id fun a => { a with phase := .walk }, ?_, ?_, ?_, ?_⟩
  · show execWalkRetry d seq s = _
    unfold execWalkRetry State.writeWresume State.retryWalk
    simp only [hresp, hlow, find_parked hp hseq]
    show (.next (w.waiters.foldl _ s2) : Out) = _
    rw [hw]
    rfl
  · show (s2.die d).parked = []
    simp [hdie, hdie1, hp]
  · show (s2.die d).queue = _
    rw [hdie, hdie1]
  · rw [acc_modAcc (f := fun a => { a with phase := .walk }) fun _ => rfl]
    exact congrArg (Option.map _) ha

/-- DELIVER gives the access of a parked walk its trap with cause 0x0B (R47). -/
theorem walkDeliver_eq (hp : (s.die d).parked = [w]) (hseq : w.seqNo = some seq) (hw : w.waiters = [.acc c id]) :
    exec (.walkDeliver d seq) s =
      .next (((s.modDie d fun x => { x with wresume := 0x4000000000000000 ||| BitVec.ofNat 64 seq.toNat }).modDie d fun x =>
        { x with parked := x.parked.filter (·.id != w.id) }).endWait (some 0x0B) (.acc c id)) := by
  obtain ⟨hresp, hlow⟩ := deliver_fields seq
  show execWalkDeliver d seq s = _
  unfold execWalkDeliver State.writeWresume State.deliverWalk
  simp only [hresp, hlow, find_parked hp hseq, hw, List.foldl_cons, List.foldl_nil]

end

section

variable {s : State} {c id : Nat} {a : Acc} {g : Group} {th : Thread}

theorem id_of_acc (ha : s.acc? c id = some a) : a.id = id := by
  simpa using List.find?_some ha

theorem accs_defer (s : State) (c g t : Nat) (due : Due) : ((s.defer c g t due).core c).accs = (s.core c).accs := by
  rw [State.defer, ((same_modThread s c g t _).trans (same_settle _ c g t)).cores]

/-- An access of a walk that is answered with a fault is held, and its thread is in its handler (R236). -/
theorem endWait_holds (ha : s.acc? c id = some a) (hg : s.group? c a.slot = some g) (ht : g.threads[a.tid]? = some th)
    (hlive : th.live = true) (hwait : th.wait = none) (hdue : th.due = []) (he : Enterable s c g th) (cause : BitVec 16) :
    (s.endWait (some cause) (.acc c id)).acc? c id = some { a with phase := .held, replay := true } ∧
    ∃ b, (s.endWait (some cause) (.acc c id)).thread? c a.slot a.tid = some (th.enter g.tvec (a.dueFor cause) true th.pc b) := by
  obtain rfl := id_of_acc ha
  let f : Acc → Acc := fun x => { x with phase := .held, replay := true }
  let s1 := s.modAcc c a.id f
  have hend : s.endWait (some cause) (.acc c a.id) = s1.defer c a.slot a.tid (a.dueFor cause) := by
    unfold State.endWait
    simp only [ha]
    rfl
  have hg1 : s1.group? c a.slot = some g := by rw [group_modAcc, hg]
  have ht1 : s1.thread? c a.slot a.tid = some th := by
    rw [thread_modAcc, State.thread?, hg]
    exact ht
  rw [hend]
  refine ⟨?_, defer_enters hg1 ht1 (Enterable.of_fetch (fetch_modAcc s c a.id f) he) hlive hwait hdue⟩
  rw [acc_of_accs (accs_defer s1 c a.slot a.tid _), acc_modAcc (f := f) fun _ => rfl, ha]
  rfl

theorem walkDeliver_traps {d : Nat} {seq : Word} {w : Walk} {e : Nat} (hp : (s.die d).parked = [w]) (hseq : w.seqNo = some seq)
    (hw : w.waiters = [.acc c id]) (ha : s.acc? c id = some a) (hlog : a.log = some e) (hg : s.group? c a.slot = some g)
    (ht : g.threads[a.tid]? = some th) (hlive : th.live = true) (hwait : th.wait = none) (hdue : th.due = []) (he : Enterable s c g th) :
    ∃ u x, exec (.walkDeliver d seq) s = .next u ∧ (u.die d).parked = [] ∧
      u.acc? c id = some { a with phase := .held, replay := true } ∧
      u.thread? c a.slot a.tid = some x ∧ x.pc = g.tvec ∧ x.handler = true ∧ x.prio = 0 ∧ tget 0 x.t 0 = 0xC000000B ∧
      tget 0 x.t 1 = lowWord th.pc ∧ tget 0 x.t 4 = lowWord a.pc ∧ tget 0 x.t 6 = lowWord a.va ∧
      tget 0 x.t 8 = BitVec.ofNat 32 a.code ∧ tget 0 x.t 9 = 0x80000000 ||| BitVec.ofNat 32 e ∧ x.v = th.v := by
  let s1 := s.modDie d fun x => { x with wresume := 0x4000000000000000 ||| BitVec.ofNat 64 seq.toNat }
  let s2 := s1.modDie d fun x => { x with parked := x.parked.filter (·.id != w.id) }
  have hfetch1 : SameFetch s s1 := fetch_modDie s d fun _ => ⟨rfl, rfl⟩
  have hfetch2 : SameFetch s1 s2 := fetch_modDie s1 d fun _ => ⟨rfl, rfl⟩
  obtain ⟨hacc, b, hthread⟩ := endWait_holds (s := s2) ha hg ht hlive hwait hdue (Enterable.of_fetch (hfetch1.trans hfetch2) he) 0x0B
  refine ⟨_, _, walkDeliver_eq hp hseq hw, ?_, hacc, hthread, rfl, rfl, rfl, ?_, rfl, rfl, rfl, rfl, ?_, rfl⟩
  · rw [die_of_dies (dies_endWait _ _ _), die_modDie, die_modDie]
    simp [hp]
  · simp [Thread.enter, trapRegs, Acc.dueFor, hlog, tget, tfind]
  · simp [Thread.enter, trapRegs, Acc.dueFor, hlog, tget, tfind]

end

end Sys2Proof.Laws
end

