-- ==== Sys2Proof/Proofs/FaultQueues.lean ====
section
/-! SUPPORT. A die's fault queue: its head and its configuration written, and the record of a parked walk (O44; R46, R429). -/

namespace Sys2Proof.Laws

open Sys2Proof.Machine Sys2Proof.Claims

/-! ## One record -/

theorem Told.sameBytes {s u : State} (h : Told s u) : SameBytes s u := by
  rw [h.state]
  exact fun _ _ => rfl

theorem record_length (w : Walk) (seq : Word) : (w.record seq).length = 32 := leBytes_length 32 _

/-- The place of the record at a tail, in a queue of a configuration (R46, R429). -/
def recordPa (cfg : Dword) (tail : Word) : Nat := fqBase cfg + 32 * (tail.toNat % fqRecords cfg)

theorem recordPa_aligned (cfg : Dword) (tail : Word) : recordPa cfg tail % 32 = 0 := by
  unfold recordPa fqBase
  generalize tail.toNat % fqRecords cfg = n
  omega

/-- A record can be stored at an address: its line is served, by a die with power, no core owns it, and its slab keeps its mode. -/
structure TakesRecord (s : State) (pa : Nat) : Prop where
  still  : s.slabHeld pa = false
  free   : s.owner? pa = none
  home   : ∃ cell, s.homeCell pa = some cell ∧ s.lost cell = false
  loaded : s.keyLoaded 0 = true
  served : ∀ k, k < 32 → (s.cellOf (pa + k)).isSome = true

section

variable {s : State} {d : Nat} {w : Walk}

theorem writeRecord_full (hfull : fqRecords (s.die d).fqcfg ≤ ((s.die d).fqtail - (s.die d).fqhead).toNat) : s.writeRecord d w = s := by
  unfold State.writeRecord
  simp only [ge_iff_le, hfull, decide_true, Bool.or_true, if_true]

/-- The one parked walk writes its record at the tail, and the tail moves on (R46). -/
theorem writeRecord_writes (hp : (s.die d).parked = [w]) (hseq : w.seqNo = none) (hon : (s.die d).fqcfg.getLsbD 59 = true)
    (hroom : ((s.die d).fqtail - (s.die d).fqhead).toNat < fqRecords (s.die d).fqcfg)
    (htakes : TakesRecord s (recordPa (s.die d).fqcfg (s.die d).fqtail)) :
    (s.writeRecord d w).die d =
      { s.die d with fqtail := (s.die d).fqtail + 1, parked := [{ w with seqNo := some (s.die d).fqtail }] } ∧
    (s.writeRecord d w).peek 0 (recordPa (s.die d).fqcfg (s.die d).fqtail) 32 = some (w.record (s.die d).fqtail) := by
  obtain ⟨hstill, hfree, ⟨cell, hcell, hup⟩, hkey, hserved⟩ := htakes
  have halign := recordPa_aligned (s.die d).fqcfg (s.die d).fqtail
  have hstored := hubStore_stores (bs := w.record (s.die d).fqtail) hstill hfree hcell hup hkey (by rwa [record_length])
    (by rw [record_length]; omega)
  have hbytes := hstored.bytes
  rw [record_length] at hbytes
  have hdie := die_of_dies hstored.dies d
  have hpa : fqBase (s.die d).fqcfg + 32 * ((s.die d).fqtail.toNat % fqRecords (s.die d).fqcfg) =
      recordPa (s.die d).fqcfg (s.die d).fqtail := rfl
  unfold State.writeRecord
  simp only [hseq, hon, ge_iff_le, Nat.not_le.2 hroom, Option.isSome_none, Bool.not_true, decide_false, Bool.or_self, Bool.false_eq_true,
    if_false, hpa, hstill]
  generalize s.hubStore true 0 (recordPa (s.die d).fqcfg (s.die d).fqtail) (zipFrom (recordPa (s.die d).fqcfg (s.die d).fqtail)
    (w.record (s.die d).fqtail)) = s1 at hbytes hdie ⊢
  let s2 := s1.modDie d fun y => { y with
    fqtail := y.fqtail + 1, parked := y.parked.map fun p => if p.id == w.id then { p with seqNo := some (s.die d).fqtail } else p }
  have htold : Told s2 ((if (s.die d).fqtail == (s.die d).fqhead then s2.raiseMsix d else s2).raiseEvent 0) := by
    refine Told.trans ?_ (told_raiseEvent _ 0)
    split
    · exact ⟨rfl, fun _ => rfl⟩
    · exact .refl s2
  constructor
  · rw [htold.die, die_modDie, hdie]
    simp only [hp, List.map_cons, List.map_nil, BEq.rfl, if_true]
  · rw [peek_of_sameBytes htold.sameBytes]
    exact hbytes

end

/-! ## Writes of its registers -/

section

variable {s : State} {d : Nat} {v : Dword}

/-- A head that software has written. -/
def withHead (s : State) (d : Nat) (v : Dword) : State := (s.modDie d fun x => { x with fqhead := lowWord v }).modDie d takeFqcfg

theorem die_withHead (h : (s.die d).fqcfgNext = none) : (withHead s d v).die d = { s.die d with fqhead := lowWord v } := by
  rw [withHead, die_modDie, die_modDie]
  exact takeFqcfg_none h

theorem fqheadWrite_eq (h : (s.die d).fqcfgNext = none) : exec (.fqheadWrite d v) s =
    .next ((s.die d).parked.foldl (fun u w => u.writeRecord d w) (withHead s d v)) := by
  show execFqheadWrite d v s = _
  unfold execFqheadWrite State.writeFqHead
  rw [settleQueue_eq, die_modDie, takeFqcfg_none (x := { s.die d with fqhead := lowWord v }) h]
  rfl

theorem takesRecord_withHead {pa : Nat} (h : TakesRecord s pa) : TakesRecord (withHead s d v) pa := by
  obtain ⟨hstill, hfree, ⟨cell, hcell, hup⟩, hkey, hserved⟩ := h
  have htake : ∀ x : Die, (takeFqcfg x).tlb = x.tlb ∧ (takeFqcfg x).powered = x.powered := by
    intro x
    unfold takeFqcfg
    split
    · split <;> exact ⟨rfl, rfl⟩
    · exact ⟨rfl, rfl⟩
  have hhead : SameFetch s (s.modDie d fun x => { x with fqhead := lowWord v }) := fetch_modDie s d fun _ => ⟨rfl, rfl⟩
  have hfetch : SameFetch s (withHead s d v) := hhead.trans (fetch_modDie _ d htake)
  exact ⟨hstill, hfree, ⟨cell, hcell, (hfetch.lost cell).trans hup⟩, hkey, hserved⟩

/-- Where no walk is parked only the head changes (R429). -/
theorem fqheadWrite_idle (h : (s.die d).fqcfgNext = none) (hp : (s.die d).parked = []) :
    ∃ u, exec (.fqheadWrite d v) s = .next u ∧ (u.die d).fqhead = lowWord v ∧ (u.die d).fqtail = (s.die d).fqtail := by
  refine ⟨_, fqheadWrite_eq h, ?_⟩
  rw [hp, List.foldl_nil, die_withHead h]
  exact ⟨rfl, rfl⟩

variable {w : Walk} (h : (s.die d).fqcfgNext = none) (hp : (s.die d).parked = [w])

include h hp

theorem fqheadWrite_one : exec (.fqheadWrite d v) s = .next ((withHead s d v).writeRecord d w) := by
  rw [fqheadWrite_eq h, hp]
  rfl

/-- A queue that is full takes no record (R46). -/
theorem fqheadWrite_full (hfull : fqRecords (s.die d).fqcfg ≤ ((s.die d).fqtail - lowWord v).toNat) :
    ∃ u, exec (.fqheadWrite d v) s = .next u ∧ (u.die d).parked = [w] ∧ (u.die d).fqtail = (s.die d).fqtail := by
  refine ⟨_, fqheadWrite_one h hp, ?_⟩
  rw [writeRecord_full (by rw [die_withHead h]; exact hfull), die_withHead h]
  exact ⟨hp, rfl⟩

/-- A queue that has room takes the record at its tail (R46). -/
theorem fqheadWrite_room (hseq : w.seqNo = none) (hon : (s.die d).fqcfg.getLsbD 59 = true)
    (htakes : TakesRecord s (recordPa (s.die d).fqcfg (s.die d).fqtail))
    (hroom : ((s.die d).fqtail - lowWord v).toNat < fqRecords (s.die d).fqcfg) :
    ∃ u, exec (.fqheadWrite d v) s = .next u ∧ (u.die d).fqhead = lowWord v ∧
      (u.die d).parked = [{ w with seqNo := some (s.die d).fqtail }] ∧ (u.die d).fqtail = (s.die d).fqtail + 1 ∧
      u.peek 0 (recordPa (s.die d).fqcfg (s.die d).fqtail) 32 = some (w.record (s.die d).fqtail) := by
  have hwrites := writeRecord_writes (s := withHead s d v) (d := d) (w := w)
  rw [die_withHead h] at hwrites
  obtain ⟨hdie, hpeek⟩ := hwrites hp hseq hon hroom (takesRecord_withHead htakes)
  refine ⟨_, fqheadWrite_one h hp, ?_⟩
  rw [hdie]
  exact ⟨rfl, rfl, rfl, hpeek⟩

end

/-- A configuration takes effect at once where the queue is empty, else it waits (R429). -/
theorem fqcfgWrite_idle {s : State} {d : Nat} (v : Dword) (hp : (s.die d).parked = []) :
    ∃ u, exec (.fqcfgWrite d v) s = .next u ∧ u.die d = takeFqcfg { s.die d with fqcfgNext := some v } := by
  refine ⟨_, rfl, ?_⟩
  show ((s.modDie d fun x => { x with fqcfgNext := some v }).settleQueue d).die d = _
  have hparked : (takeFqcfg { s.die d with fqcfgNext := some v }).parked = [] := by
    unfold takeFqcfg
    dsimp only
    split <;> exact hp
  rw [settleQueue_eq, die_modDie, hparked, List.foldl_nil, die_modDie, die_modDie]

theorem takeFqcfg_some {x : Die} {v : Dword} (h : x.fqcfgNext = some v) :
    takeFqcfg x = if x.fqtail = x.fqhead then { x with fqcfg := v, fqcfgNext := none } else x := by
  unfold takeFqcfg
  simp only [h, beq_iff_eq]

end Sys2Proof.Laws
end

