-- ==== Sys2Proof/Proofs/WalkersServe.lean ====
section
/-! SUPPORT. A walk from its queue to the TLB or the fault queue (O44). -/

namespace Sys2Proof.Laws

open Sys2Proof.Machine Sys2Proof.Claims

/-- A read of a walk's entry, at the address that its region gives (R37 to R42, R45). -/
theorem walkEntryRead_outcomes {s : State} {d : Nat} {w : Walk} {f : Dword} {g : Got} (h : Walking s d w) (hleaf : w.leaf = none)
    (hregion : w.region = some f) (hline : w.line = some ⟨lineOf w.entryPa, 0, some g⟩)
    (hgood : g.poison.getLsbD (w.entryPa / 64 % 4) = false) (hlink : s.linkDown w.entryPa = false) :
    let r := regionOf f
    let e := entryOf g w.entryPa
    (e.getLsbD 0 = false → QueueOff s d → (∀ q ∈ w.waiters, s.isHalted q = false) → ∃ u, exec (.walkEntryRead d w.id) s = .next u ∧
      (u.die d).active = [] ∧ (u.die d).parked = (s.die d).parked ++ [{ w with line := none, failed := some w.level }]) ∧
    (e.getLsbD 0 = true → leafLevel r < w.level →
      let table := (e.extractLsb' 8 44).toNat * 256
      ∃ u, exec (.walkEntryRead d w.id) s = .next u ∧
        Asks s u d { w with level := w.level - 1, table := table } (entryAddr r (w.level - 1) table w.va)) ∧
    (e.getLsbD 0 = true → w.level ≤ leafLevel r →
      let open_ := e.getLsbD 4 = false ∨ (w.wantD = true ∧ e.getLsbD 1 = true ∧ e.getLsbD 5 = false)
      (open_ → ∃ u, exec (.walkEntryRead d w.id) s = .next u ∧
        Walking u d { w with leaf := some e, leafPa := w.entryPa, line := none }) ∧
      (¬ open_ → w.noFill = false → w.noKeys = [] → ∃ u, exec (.walkEntryRead d w.id) s = .next u ∧ (u.die d).active = [] ∧
        (u.die d).tlb.head? = some (leafEnt w.ctx (s.regionFor w.ctx w.va) w.va e) ∧
        ∀ c id a, w.waiters = [.acc c id] → s.acc? c id = some a → u.acc? c id = some { a with phase := .logged })) := by
  refine ⟨fun hv => walkEntryRead_parks h hleaf hline hgood hlink hv,
    fun hv hlevel => walkEntryRead_descends h hleaf hline hregion hgood hlink hv hlevel, fun hv hlevel => ⟨fun hopen => ?_, fun hopen => ?_⟩⟩
  · exact walkEntryRead_updates h hleaf hline hregion hgood hlink hv hlevel ((wantsUpdate_iff w _).2 hopen)
  · exact walkEntryRead_completes h hleaf hline hregion hgood hlink hv hlevel fun hw => hopen ((wantsUpdate_iff w _).1 hw)

/-- Settles O44, event by event. -/
theorem walkerEvents : Obligations.WalkerEvents := by
  unfold Obligations.WalkerEvents
  refine ⟨?_, ?_, ?_, ?_, ?_, ?_, ?_, ?_⟩
  · intro s m d w h
    exact tlbMissToWalker_queues h
  · intro s m d w y h
    exact tlbMissToWalker_joins h
  · intro s d w rest hq
    refine ⟨walkStart_full hq, fun hroom hgood hidle => ?_⟩
    obtain ⟨u, hexec, hqueue, hasks⟩ := walkStart_asks hq hroom hgood hidle
    exact ⟨u, s.beginWalk w, hexec, hqueue, hasks, rfl, rfl, rfl, rfl, rfl, rfl, rfl⟩
  · intro s d w f g h hleaf hregion
    dsimp only
    rw [← entryPa_of_region hregion]
    exact ⟨fun hline => ⟨_, walkEntryRead_unasked h hleaf hline, askEntry_asks h rfl rfl rfl fun _ => rfl⟩,
      fun l hline hgot => walkEntryRead_waits h hleaf hline hgot,
      fun hline hbad c t hw => walkEntryRead_poisoned h hleaf hline hbad hw,
      fun hline hgood hlink => walkEntryRead_outcomes h hleaf hregion hline hgood hlink⟩
  · intro s d w e f h hleaf halign hf hkey hcalm
    refine ⟨fun hfe => ?_, fun hne => ?_⟩
    · rw [hfe] at hf
      exact adCompareSwap_sets h hleaf halign hf hkey hcalm
    · obtain ⟨u, hexec, hasks, hbytes⟩ := adCompareSwap_repeats h hleaf hf hcalm hne
      exact ⟨u, s.beginWalk w, hexec, hasks, rfl, rfl, rfl, rfl, rfl, hbytes⟩
  · intro s d c id seq w a hp hseq hw ha
    refine ⟨walkRetry_queues hp hseq hw ha, fun e g th hlog hg ht hlive hwait hdue he => ?_⟩
    exact walkDeliver_traps hp hseq hw ha hlog hg ht hlive hwait hdue he
  · intro s d v hnext
    refine ⟨fqheadWrite_idle hnext, fun w cell hp hseq hon hstill hfree hcell hup hkey hserved => ?_⟩
    exact ⟨fqheadWrite_full hnext hp,
      fqheadWrite_room hnext hp hseq hon ⟨hstill, hfree, ⟨cell, hcell, hup⟩, hkey, hserved⟩⟩
  · intro s d v hp
    obtain ⟨u, hexec, hdie⟩ := fqcfgWrite_idle v hp
    rw [takeFqcfg_some (v := v) rfl] at hdie
    refine ⟨fun hempty => ⟨u, hexec, ?_⟩, fun hfull => ⟨u, hexec, ?_⟩⟩
    · rw [hdie, if_pos hempty]
      exact ⟨rfl, rfl⟩
    · rw [hdie, if_neg hfull]
      exact ⟨rfl, rfl⟩

end Sys2Proof.Laws
end

