-- ==== Sys2Proof/Proofs/SpecialWrites.lean ====
section
/-! SUPPORT. SWR (O11; R65, R131, R231, R232, R321): a thread's own register, or a register of its group, which the lowest active home lane
writes once. -/

namespace Sys2Proof.Laws

open Sys2Proof.Machine Sys2Proof.Claims

/-- The three forms of SWR run as one operation, with the value that each takes. -/
theorem exec_swrRow {i : Instr} {o : Op} {val : Lane → Dword} (h : swrRow i = some (o, val)) (s : State) :
    exec i s = .next (s.swr i o val) := by
  unfold swrRow at h
  split at h
  · cases h; rfl
  · cases h; rfl
  · cases h; rfl
  · cases h

theorem clampNat_eq (lo hi n : Nat) (h : lo ≤ hi) : clampNat lo hi n = max lo (min hi n) := by
  unfold clampNat
  split
  · omega
  · split <;> omega

section

variable {s : State} {i : Instr} {o : Op} {val : Lane → Dword} {t : Nat} {L : Lane}

/-- The registers held per thread, sr.fmode and sr.fstat. -/
theorem swr_thread (hi : swrRow i = some (o, val)) (h : s.Goes i o (swrCheck i val) t L) {f : Lane → Thread}
    (hs : s.swr i o val = s.laneOp i o (swrCheck i val) f) (hd : (f L).due = L.th.due) : Becomes i s t (after s (f L)) :=
  ⟨_, exec_swrRow hi s, by rw [hs]; exact h.laneOp f (hd.trans h.calm)⟩

/-- The registers held per group. -/
theorem swr_group (h : s.Together i o (swrCheck i val) L) (h3 : o.a ≠ 3) (h4 : o.a ≠ 4) :
    s.swr i o val = (s.modGroup L.c L.slot fun g => g.swr o.a.toNat (val L)).moveTo (s.movers i o) s.cur.next := by
  have hfA : L.fA = o.a.toNat := by rw [← h.place.2.2.2]; rfl
  rw [State.swr, if_neg h3, if_neg h4, h.groupOp (modGroup_same _ _ _ _).cur, hfA]
  intro u hu th hth
  rw [thread_modGroup] at hth
  · exact h.calm u hu th hth
  · intro x
    unfold Group.swr
    split <;> rfl

end

/-- The group's register by its number. -/
theorem group_swr {o : Op} (h : o.a.toNat ∈ [0x11, 0x15, 0x30, 0x31]) (g : Group) (v : Dword) :
    g.swr o.a.toNat v =
      if o.a = 0x11 then { g with cv := { g.cv with slip := v.extractLsb' 0 16 } }
      else if o.a = 0x15 then { g with cv := { g.cv with timeout := max 256 (min 1048576 v.toNat) } }
      else if o.a = 0x30 then { g with tvec := (v.extractLsb' 0 57).setWidth 64 }
      else { g with wdog := lowWord v } := by
  have number : ∀ n : Nat, n < 256 → o.a.toNat = n → o.a = BitVec.ofNat 8 n := fun n _ e => by rw [← e]; simp
  simp only [List.mem_cons, List.not_mem_nil, or_false] at h
  obtain e | e | e | e := h
  · rw [number _ (by decide) e]; rfl
  · rw [number _ (by decide) e, ← clampNat_eq 256 1048576 v.toNat (by decide)]; rfl
  · rw [number _ (by decide) e]; rfl
  · rw [number _ (by decide) e]; rfl

/-- Settles O11, the registers of a thread and those of a group apart. -/
theorem specialRegisterWrites : Obligations.SpecialRegisterWrites := by
  unfold Obligations.SpecialRegisterWrites
  refine ⟨fun i o val s t L hi h => ⟨fun h3 => ?_, fun h4 => ?_⟩, fun i o val s L hi h hn => ?_⟩
  · exact swr_thread hi h (f := fun L => { L.th with fmode := (val L).extractLsb' 0 3 }) (by rw [State.swr, if_pos h3]) rfl
  · have h3 : o.a ≠ 3 := by rw [h4]; decide
    exact swr_thread hi h (f := fun L => { L.th with fstat := (val L).extractLsb' 0 6 }) (by rw [State.swr, if_neg h3, if_pos h4]) rfl
  · have other : ∀ a : BitVec 8, a.toNat ∉ [0x11, 0x15, 0x30, 0x31] → o.a ≠ a := fun a ha e => ha (e ▸ hn)
    rw [exec_swrRow hi, swr_group h (other 3 (by decide)) (other 4 (by decide))]
    simp only [group_swr hn]

end Sys2Proof.Laws
end

