-- ==== Sys2Proof/Proofs/ConvoySteps.lean ====
section
/-! SUPPORT. A thread's step of its convoy, and a member that its convoy's shed timer sheds (O36; R59, R61, R62, R63, R306): what stands
in its group and in the table. -/

namespace Sys2Proof.Laws

open Sys2Proof.Machine Sys2Proof.Claims

/-! ## A member's return -/

section

variable (s : State) (c g : Nat)

/-- A member that may come back stands as it did but for its mark of being shed, and its convoy's entry is set (R61). -/
theorem cvReturn_cases : s.cvReturn c g = s ∨ ∃ x y low, s.group? c g = some x ∧
    s.cvReturn c g = (s.setGroup c g { x with cv := { x.cv with shed := false } }).cvPut x.ctx x.cv.id.toNat y low [] := by
  fun_cases State.cvReturn
  case case3 x hx id y _ _ _ low => exact .inr ⟨x, _, _, hx, rfl⟩
  all_goals exact .inl rfl

theorem same_cvReturn : s.SameMachine (s.cvReturn c g) := by
  obtain h | ⟨x, y, low, hx, h⟩ := cvReturn_cases s c g <;> rw [h]
  · exact .refl s
  · exact (same_setGroup (x := { x with cv := { x.cv with shed := false } }) hx rfl).trans (same_cvPut _ _ _ _ _ _)

theorem cur_cvReturn : (s.cvReturn c g).cur = s.cur := by
  obtain h | ⟨x, y, low, -, h⟩ := cvReturn_cases s c g <;> rw [h]
  rw [cvPut_cur]
  rfl

theorem threads_cvReturn : SameThreads s (s.cvReturn c g) := by
  intro c' g' t
  obtain h | ⟨x, y, low, hx, h⟩ := cvReturn_cases s c g <;> rw [h]
  rw [thread_of_cores (cvPut_cores _ _ _ _ _ _)]
  exact thread_setGroup (x := { x with cv := { x.cv with shed := false } }) hx rfl c' g' t

end

/-! ## A step -/

section

variable {s : State} {c g t : Nat} {x : Group} {n : Word}

/-- A thread steps: its cursor moves on, the convoy's entry is brought up to it, and its group may come back (R59, R61, R62). -/
theorem cvSteps_one (hg : s.group? c g = some x) (hid : x.cv.id ≠ 0) :
    let moved := s.modThread c g t fun th => { th with cursor := th.cursor + n }
    ∃ u, s.cvSteps c g [(t, n)] = u.cvReturn c g ∧ u.cores = moved.cores ∧ u.cur = moved.cur ∧ moved.SameMachine u := by
  have hmoved : s.modThread c g t (fun th => { th with cursor := th.cursor + n }) =
      s.setGroup c g { x with threads := modAt (fun th => { th with cursor := th.cursor + n }) x.threads t } := by
    rw [State.modThread, State.modGroup, hg]
  have hgo : (decide (x.cv.id = 0) || List.isEmpty [(t, n)]) = false := by
    rw [decide_eq_false hid]
    rfl
  unfold State.cvSteps
  simp only [hg, hgo, Bool.false_eq_true, if_false, List.foldl_cons, List.foldl_nil, ← hmoved]
  refine ⟨_, rfl, ?_⟩
  split
  · exact ⟨rfl, rfl, .refl _⟩
  · exact ⟨cvPut_cores _ _ _ _ _ _, cvPut_cur _ _ _ _ _ _, same_cvPut _ _ _ _ _ _⟩

/-- Outside a convoy nothing steps. -/
theorem cvSteps_apart (hg : s.group? c g = some x) (hid : x.cv.id = 0) (ns : List (Nat × Word)) : s.cvSteps c g ns = s := by
  unfold State.cvSteps
  simp [hg, hid]

/-- What a thread's step by n leaves of its group. -/
theorem cvSteps_spec {th : Thread} (hg : s.group? c g = some x) (ht : s.thread? c g t = some th) :
    let u := s.cvSteps c g [(t, n)]
    u.thread? c g t = some { th with cursor := if x.cv.id = 0 then th.cursor else th.cursor + n } ∧ u.cur = s.cur ∧ s.SameMachine u := by
  by_cases hid : x.cv.id = 0
  · simp only [cvSteps_apart hg hid, if_pos hid]
    exact ⟨ht, trivial, .refl s⟩
  · obtain ⟨u, hu, hcores, hcur, hsame⟩ := cvSteps_one (t := t) (n := n) hg hid
    simp only [hu, if_neg hid]
    refine ⟨?_, ?_, ((same_modThread _ _ _ _ _).trans hsame).trans (same_cvReturn u c g)⟩
    · rw [threads_cvReturn, thread_of_cores hcores, thread_modThread, ht]
      rfl
    · rw [cur_cvReturn, hcur, cur_modThread]

end

/-! ## CVSTEP -/

section

variable {s : State} {i : Instr} {o : Op} {check : Lane → Option Trap} {t : Nat} {L : Lane}

/-- A thread that begins its instruction alone has passed step 10 of R254. -/
theorem alone_checked (h : s.Alone i o check t L) : check L = none := by
  have hp := h.passes
  unfold State.trapOf at hp
  rw [h.lane] at hp
  simp only [h.fresh, Option.isSome_none, Bool.false_eq_true, if_false] at hp
  split at hp
  · cases hp
  · split at hp
    · cases hp
    · exact hp

/-- A count that passes is the one that the thread steps by. -/
theorem steps_cvstep (h : cvstepCheck (.cvstep o) L = none) :
    L.steps (.cvstep o) = (L.srcB (shapeOf (.cvstep o)) 0 false).toNat := by
  have hle : ¬ 65535 < (L.srcB (shapeOf (.cvstep o)) 0 false).toNat := fun hlt => by simp [cvstepCheck, hlt] at h
  show (if (L.srcB (shapeOf (.cvstep o)) 0 false).toNat ≤ 65535 then _ else 0) = _
  rw [if_pos (by omega)]
  rfl

theorem cvstep_steps (h : s.Alone (.cvstep o) o (cvstepCheck (.cvstep o)) t L) :
    ∃ u, exec (.cvstep o) s = .next u ∧ SameBytes s u ∧ u.thread? L.c L.slot t = some (after s { L.th with
      cursor := if L.g.cv.id = 0 then L.th.cursor else L.th.cursor + BitVec.ofNat 32 (L.srcB (shapeOf (.cvstep o)) 0 false).toNat }) := by
  obtain ⟨-, hc, hslot, htid, -⟩ := h.place
  let n := (L.srcB (shapeOf (.cvstep o)) 0 false).toNat
  let body : List Nat → List Nat → State → State := fun wave ok s0 =>
    s0.cvSteps s.cur.core s.cur.slot (((byLane ok).filterMap (s0.lane? o wave)).filterMap fun L =>
      if L.steps (.cvstep o) = 0 then none else some (L.tid, BitVec.ofNat 32 (L.steps (.cvstep o))))
  have hbody : (body [t] [t] s).thread? s.cur.core s.cur.slot t =
      some { L.th with cursor := if L.g.cv.id = 0 then L.th.cursor else L.th.cursor + BitVec.ofNat 32 n } ∧
      (body [t] [t] s).cur = s.cur ∧ s.SameMachine (body [t] [t] s) := by
    simp only [body, h.lanes, List.filterMap_cons, List.filterMap_nil, steps_cvstep (alone_checked h), htid]
    by_cases hn : n = 0
    · simp only [n] at hn
      simp only [n, hn, if_true, cvSteps_nil, BitVec.ofNat_eq_ofNat, BitVec.add_zero, ite_self]
      exact ⟨h.thread, trivial, .refl s⟩
    · simp only [n] at hn
      simp only [hn, if_false]
      exact cvSteps_spec h.group h.thread
  obtain ⟨hthread, hcur, hsame⟩ := hbody
  have hrun : exec (.cvstep o) s = .next ((body [t] [t] s).moveTo [t] s.cur.next) :=
    congrArg Host.Outcome.next (h.moved (body := body) hcur hthread h.calm)
  refine ⟨_, hrun, (hsame.trans (same_moveTo _ _ _)).byteAt, ?_⟩
  have hmove := thread_moveTo (body [t] [t] s) [t] s.cur.next t
  rw [hcur, if_pos (List.mem_singleton_self t), hthread] at hmove
  rw [hc, hslot, hmove]
  rfl

end

/-! ## The shed timer -/

theorem hub_cvTell (s : State) (ctx id : Nat) (ks : List Nat) : (s.cvTell ctx id ks).hub = s.hub :=
  foldl_keeps (p := State.hub) (fun s k => by split <;> rfl) ks s

/-- The members present in a convoy's entry once it is set; an entry without members ends. -/
theorem present_cvPut (s : State) (ctx id : Nat) (x : Convoy) (low : Option Word) (tell : List Nat) :
    ∀ m ∈ ((s.cvPut ctx id x low tell).convoy (cvKey ctx id)).present, m ∈ x.present := by
  intro m hm
  unfold State.cvPut State.convoy at hm
  simp only [hub_cvTell, modHub_hub] at hm
  split at hm
  · simp [tget, tfind_tdel, Convoy.empty] at hm
  · rw [tget_tset_self] at hm
    split at hm <;> exact hm

theorem shedTimeout_sheds {s : State} {ctx cv c slot : Nat} {g : Group} (hover : s.overdue ctx cv = some (c, slot))
    (hg : s.group? c slot = some g) (hctx : g.ctx = ctx) (hid : g.cv.id.toNat = cv) (hcv : cv ≠ 0) :
    ∃ u g', exec (.shedTimeout ctx cv) s = .next u ∧ u.group? c slot = some g' ∧
      g'.cv.shed = true ∧ g'.cv.cause = 1 ∧ (c, slot) ∉ (u.convoy (cvKey ctx cv)).present ∧ g'.threads = g.threads := by
  have hmember : (s.convoy (cvKey ctx cv)).present.contains (c, slot) = true :=
    List.contains_iff_mem.2 (List.mem_of_find?_eq_some hover)
  have hin : g.cv.id ≠ 0 := fun e => hcv (by rw [← hid, e]; rfl)
  have hgo : (decide (g.cv.id = 0) || !(s.convoy (cvKey ctx cv)).present.contains (c, slot)) = false := by
    rw [hmember]
    simpa using hin
  have hrun : exec (.shedTimeout ctx cv) s = .next (s.cvShed c slot 1) := by
    show execShedTimeout ctx cv s = _
    rw [execShedTimeout, hover]
  refine ⟨_, { g with cv := g.cv.shedBy 1 }, hrun, ?_, rfl, rfl, ?_, rfl⟩
  all_goals
    unfold State.cvShed
    simp only [hg, hctx, hid, hgo, Bool.false_eq_true, if_false]
  · rw [group_of_cores (cvPut_cores _ _ _ _ _ _), group_setGroup]
  · intro hm
    have := present_cvPut _ _ _ _ _ _ _ hm
    simp at this

/-! ## Mirrors -/

theorem mirrors_cvMirror (s : State) (k ctx cv : Nat) :
    tfind ((s.cvMirror k ctx cv).cluster k).mirrors (cvKey ctx cv) =
      if k ∈ (s.convoy (cvKey ctx cv)).clusters then
        some { low := s.lowOf (s.convoy (cvKey ctx cv)).present, present := (s.convoy (cvKey ctx cv)).present
               total := (s.convoy (cvKey ctx cv)).members.length }
      else none := by
  rw [State.cvMirror, cluster_modCluster]
  by_cases hk : k ∈ (s.convoy (cvKey ctx cv)).clusters
  · rw [if_pos (List.contains_iff_mem.2 hk), if_pos hk]
    exact tfind_tset_self _ _ _
  · rw [if_neg (fun h => hk (List.contains_iff_mem.1 h)), if_neg hk]
    simp [tfind_tdel]

theorem convoyMirrorUpdate_updates (s : State) (k ctx cv : Nat) :
    ∃ u, exec (.convoyMirrorUpdate k ctx cv) s = .next u ∧ (∀ e ∈ u.net, e.2 ≠ .mirror k ctx cv) ∧
      let x := s.convoy (cvKey ctx cv)
      tfind (u.cluster k).mirrors (cvKey ctx cv) =
        if k ∈ x.clusters then some { low := s.lowOf x.present, present := x.present, total := x.members.length } else none := by
  refine ⟨_, rfl, fun e he => ?_, mirrors_cvMirror { s with net := s.net.filter fun e => e.2 != Msg.mirror k ctx cv } k ctx cv⟩
  have := (List.mem_filter.1 he).2
  simpa using this

end Sys2Proof.Laws
end

