-- ==== Sys2Proof/Proofs/ThreadWaits.lean ====
section
/-! SUPPORT. YIELD, SLEEP and the watchdog (O36; R187, R230 to R233, R377): what a thread alone in its wave, or one that waits, becomes. -/

namespace Sys2Proof.Laws

open Sys2Proof.Machine Sys2Proof.Claims

/-! ## YIELD and SLEEP -/

section

variable {s : State} {t : Nat} {o : Op} {L : Lane}

/-- A group as YIELD leaves it, its thread moved on. -/
theorem group_yieldWave (s : State) (wave : List Nat) : (s.yieldWave wave).group? s.cur.core s.cur.slot =
    (s.group? s.cur.core s.cur.slot).map fun g => { g with passed := tset g.passed s.cur.quad wave } :=
  group_modGroup _ _ _ _

theorem cur_yieldWave (s : State) (wave : List Nat) : (s.yieldWave wave).cur = s.cur := (modGroup_same _ _ _ _).cur

theorem thread_yieldWave (s : State) (wave : List Nat) (c g t : Nat) : (s.yieldWave wave).thread? c g t = s.thread? c g t :=
  thread_modGroup s _ _ (fun g => { g with passed := tset g.passed s.cur.quad wave }) (fun _ => rfl) c g t

theorem bytes_yieldWave (s : State) (wave : List Nat) : SameBytes s (s.yieldWave wave) := by
  have h := modGroup_same s s.cur.core s.cur.slot fun g => { g with passed := tset g.passed s.cur.quad wave }
  exact sameBytes_of_memory h.memory (congrArg Hub.slabs h.hub) (congrArg Hub.ranges h.hub) (congrArg Hub.keys h.hub)

/-- A thread moved on within its group. -/
theorem group_moveTo_one {g : Group} (hg : s.group? s.cur.core s.cur.slot = some g) (pc : Dword) :
    (s.moveTo [t] pc).group? s.cur.core s.cur.slot =
      some { g with threads := modAt (fun th => { th with pc := pc, wait := none }) g.threads t } := by
  show (s.modThread s.cur.core s.cur.slot t fun th => { th with pc := pc, wait := none }).group? _ _ = _
  rw [group_modThread, hg]
  rfl

theorem getElem_modAt {f : Thread → Thread} {l : List Thread} {th : Thread} (h : l[t]? = some th) : (modAt f l t)[t]? = some (f th) := by
  rw [modAt_get, if_pos rfl, h]
  rfl

/-- A thread that begins a wait. -/
theorem thread_wait {c g : Nat} {th : Thread} (h : s.thread? c g t = some th) (k : WaitKind) :
    (s.wait c g t k).thread? c g t = some { th with wait := some ⟨k, s.now c, false⟩ } := by
  rw [State.wait, thread_modThread, h]
  rfl

theorem now_moveTo_one (pc : Dword) (c : Nat) : (s.moveTo [t] pc).now c = s.now c :=
  congrArg (fun l => (tget Cluster.reset l (clusterOf c)).front) (modThread_same s s.cur.core s.cur.slot t _).clusters

theorem yield_passes (h : s.Alone (.yield o) o noCheck t L) : ∃ u g, exec (.yield o) s = .next u ∧
    u.group? L.c L.slot = some g ∧ g.threads[t]? = some (after s L.th) ∧ tget [] g.passed s.cur.quad = [t] ∧ SameBytes s u := by
  obtain ⟨-, hc, hslot, -, -⟩ := h.place
  have hthread : (s.yieldWave [t]).thread? s.cur.core s.cur.slot t = some L.th := by rw [thread_yieldWave, h.thread]
  have hrun : exec (.yield o) s = .next ((s.yieldWave [t]).moveTo [t] s.cur.next) :=
    congrArg Host.Outcome.next (h.moved (body := fun wave _ s0 => s0.yieldWave wave) (cur_yieldWave s [t]) hthread h.calm)
  have hgroup := group_moveTo_one (s := s.yieldWave [t]) (t := t) (g := { L.g with passed := tset L.g.passed s.cur.quad [t] })
    (by rw [cur_yieldWave, group_yieldWave, h.group]; rfl) s.cur.next
  rw [cur_yieldWave, ← hc, ← hslot] at hgroup
  exact ⟨_, _, hrun, hgroup, getElem_modAt (lane_eq h.lane).2.1, tget_tset_self _ _ _ _,
    sameBytes_trans (bytes_yieldWave s [t]) (same_moveTo _ _ _).byteAt⟩

/-- The body of SLEEP for a thread alone: it has moved on, and its wave is passed over, or it waits for its front cycles. -/
theorem sleep_eq (h : s.Alone (.sleep o) o noCheck t L) :
    let n := (lowWord (L.srcB (shapeOf (.sleep o)) 1 false)).toNat
    let moved := s.moveTo [t] s.cur.next
    exec (.sleep o) s = .next (if n = 0 then moved.yieldWave [t] else moved.wait L.c L.slot t (.sleep (s.now L.c + n))) := by
  obtain ⟨-, hc, hslot, htid, ho⟩ := h.place
  dsimp only
  have hcount : L.sleepCount = (lowWord (L.srcB (shapeOf (.sleep o)) 1 false)).toNat := by rw [Lane.sleepCount, ho]
  generalize (lowWord (L.srcB (shapeOf (.sleep o)) 1 false)).toNat = n at hcount
  let body : List Nat → List Nat → State → State := fun wave ok s0 =>
    let ls := (byLane ok).filterMap (s0.lane? o wave)
    let s1 := s0.moveTo ok s.cur.next
    let s2 := if ls.any (fun L => L.sleepCount = 0) then s1.yieldWave wave else s1
    ls.foldl (fun s3 L =>
      if L.sleepCount = 0 then s3 else s3.wait L.c L.slot L.tid (.sleep (s0.now L.c + L.sleepCount))) s2
  have hmoved := thread_moveTo s [t] s.cur.next t
  rw [if_pos (List.mem_singleton_self t), h.thread] at hmoved
  have hbody : body [t] [t] s =
      if n = 0 then (s.moveTo [t] s.cur.next).yieldWave [t]
      else (s.moveTo [t] s.cur.next).wait L.c L.slot t (.sleep (s.now L.c + n)) := by
    simp only [body, h.lanes, List.any_cons, List.any_nil, Bool.or_false, List.foldl_cons, List.foldl_nil, hcount, htid,
      decide_eq_true_eq]
    split <;> rfl
  have hrun : exec (.sleep o) s = .next (body [t] [t] s) := by
    refine congrArg Host.Outcome.next ?_
    by_cases hn : n = 0
    · refine h.stayed (body := body) (th := after s L.th) ?_ ?_ h.calm <;> rw [hbody, if_pos hn]
      · rw [cur_yieldWave, cur_moveTo]
      · rw [thread_yieldWave, hmoved]
        rfl
    · refine h.stayed (body := body) (th := { after s L.th with wait := some ⟨.sleep (s.now L.c + n), s.now L.c, false⟩ }) ?_ ?_ h.calm <;>
        rw [hbody, if_neg hn]
      · rw [State.wait, cur_modThread, cur_moveTo]
      · rw [hc, hslot]
        refine (thread_wait hmoved _).trans ?_
        rw [now_moveTo_one]
        rfl
  rw [hrun, hbody]

theorem sleep_waits (h : s.Alone (.sleep o) o noCheck t L) :
    let n := (lowWord (L.srcB (shapeOf (.sleep o)) 1 false)).toNat
    ∃ u g, exec (.sleep o) s = .next u ∧ u.group? L.c L.slot = some g ∧ SameBytes s u ∧
      (n = 0 → g.threads[t]? = some (after s L.th) ∧ tget [] g.passed s.cur.quad = [t]) ∧
      (n ≠ 0 → g.threads[t]? = some { after s L.th with wait := some ⟨.sleep (s.now L.c + n), s.now L.c, false⟩ }) := by
  obtain ⟨-, hc, hslot, -, -⟩ := h.place
  have hrun := sleep_eq h
  dsimp only at hrun ⊢
  generalize (lowWord (L.srcB (shapeOf (.sleep o)) 1 false)).toNat = n at hrun ⊢
  have hgroup := group_moveTo_one (t := t) h.group s.cur.next
  have hthread := getElem_modAt (f := fun th => { th with pc := s.cur.next, wait := none }) (lane_eq h.lane).2.1
  by_cases hn : n = 0
  · rw [if_pos hn] at hrun
    have hpassed := group_yieldWave (s.moveTo [t] s.cur.next) [t]
    rw [cur_moveTo, hgroup, ← hc, ← hslot] at hpassed
    exact ⟨_, _, hrun, hpassed, sameBytes_trans (same_moveTo _ _ _).byteAt (bytes_yieldWave _ _),
      fun _ => ⟨hthread, tget_tset_self _ _ _ _⟩, fun hne => absurd hn hne⟩
  · rw [if_neg hn] at hrun
    let w : Wait := ⟨.sleep (s.now L.c + n), s.now L.c, false⟩
    have hwaits : ((s.moveTo [t] s.cur.next).wait L.c L.slot t w.kind).group? L.c L.slot =
        some { L.g with
          threads := modAt (fun th => { th with wait := some w }) (modAt (fun th => { th with pc := s.cur.next, wait := none }) L.g.threads t) t } := by
      rw [State.wait, now_moveTo_one, group_modThread, hc, hslot, hgroup]
      rw [← hc]
      rfl
    exact ⟨_, _, hrun, hwaits, ((same_moveTo _ _ _).trans (same_modThread _ _ _ _ _)).byteAt, fun h0 => absurd h0 hn,
      fun _ => getElem_modAt (f := fun th => { th with wait := some w }) hthread⟩

end

/-! ## The end of a sleep -/

theorem sleepExpiry_wakes {s : State} {c g t wake since : Nat} {e : Bool} {th : Thread} (ht : s.thread? c g t = some th)
    (hw : th.wait = some ⟨.sleep wake, since, e⟩) (hd : th.due = []) :
    (wake ≤ s.now c → ∃ u, exec (.sleepExpiry c g t) s = .next u ∧ u.thread? c g t = some { th with wait := none } ∧ s.SameMachine u) ∧
    (s.now c < wake → exec (.sleepExpiry c g t) s = .next s) := by
  have hrun : exec (.sleepExpiry c g t) s = execSleepExpiry c g t s := rfl
  simp only [execSleepExpiry, ht, Option.bind_some, hw] at hrun
  refine ⟨fun h => ?_, fun h => by rw [hrun, if_neg (by omega)]⟩
  have hawake : (s.modThread c g t fun th => { th with wait := none }).thread? c g t = some { th with wait := none } := by
    rw [thread_modThread, ht]
    rfl
  refine ⟨_, by rw [hrun, if_pos h, settle_not_due hawake hd], hawake, same_modThread _ _ _ _ _⟩

/-! ## The watchdog -/

/-- A trap register holds the upper part of a virtual address (R233). -/
theorem highWord_va (x : Dword) : highWord x &&& 0x1FFFFFF#32 = (x.extractLsb' 32 25).setWidth 32 := by
  apply BitVec.eq_of_getLsbD_eq
  intro i hi
  rw [show 0x1FFFFFF#32 = BitVec.ofNat 32 (2 ^ 25 - 1) from rfl]
  simp only [highWord, BitVec.getLsbD_and, BitVec.getLsbD_ofNat, Nat.testBit_two_pow_sub_one, BitVec.getLsbD_setWidth,
    BitVec.getLsbD_extractLsb', hi, decide_true, Bool.true_and]
  exact Bool.and_comm _ _

/-- The trap registers that a handler finds after a precise trap (R233). -/
theorem handles_enter (th : Thread) (handler resume : Dword) (cause : BitVec 16) (va : Dword) (info : Word) (b : Bool) :
    Handles { th with wait := none } (th.enter handler ⟨cause, th.pc, va, info, none, false⟩ false resume b) handler resume cause va info where
  mode := ⟨rfl, rfl, rfl, rfl⟩
  cause := by
    show (0#32 ||| 0#32) ||| BitVec.ofNat 32 cause.toNat = _
    simp [BitVec.ofNat_toNat]
  resume := ⟨rfl, highWord_va resume⟩
  prio := by
    show BitVec.ofNat 32 th.prio.toNat = _
    simp
  own := ⟨rfl, highWord_va th.pc⟩
  va := ⟨rfl, highWord_va va⟩
  info := rfl
  rest := by
    intro n hn hlt
    by_cases h9 : n = 9
    · rw [h9]
      rfl
    · have hout : tfind (trapRegs ⟨cause, th.pc, va, info, none, false⟩ false resume th.prio) n = none := by
        have hne : ∀ k, k < 10 → k ≠ n := fun k hk => by omega
        simp [trapRegs, tfind, hne]
      rw [show (th.enter handler ⟨cause, th.pc, va, info, none, false⟩ false resume b).t = trapRegs _ false resume th.prio from rfl, tget, hout]
      rfl
  others := rfl

/-- A waiting signer's signature that is taken back changes nothing but its group's joins (R231). -/
theorem unsign_cases (s : State) (c g t : Nat) : s.unsign c g t = s ∨
    ∃ f : Group → Group, s.unsign c g t = s.modGroup c g f ∧ ∀ x, ∃ j, f x = { x with j := j } := by
  fun_cases State.unsign
  case case1 k _ _ _ =>
    refine .inr ⟨_, rfl, fun x => ?_⟩
    dsimp only
    split
    · exact ⟨x.j, rfl⟩
    · exact ⟨_, rfl⟩
  case case2 => exact .inl rfl

theorem fetch_modGroup (s : State) (c g : Nat) (f : Group → Group) : SameFetch s (s.modGroup c g f) where
  memory := (modGroup_same s c g f).memory
  free := (modGroup_same s c g f).free
  clusters := (modGroup_same s c g f).clusters
  hub := by rw [(modGroup_same s c g f).hub]
  dies n := by rw [die_of_dies (modGroup_same s c g f).dies]; exact ⟨rfl, rfl⟩
  cores n := by
    unfold State.modGroup
    split
    · rw [core_setGroup]
    · rfl

theorem fetch_unsign (s : State) (c g t : Nat) : SameFetch s (s.unsign c g t) := by
  obtain h | ⟨f, h, -⟩ := unsign_cases s c g t <;> rw [h]
  · exact ⟨rfl, rfl, rfl, rfl, fun _ => ⟨rfl, rfl⟩, fun _ => rfl⟩
  · exact fetch_modGroup s c g f

theorem threads_unsign (s : State) (c g t : Nat) : SameThreads s (s.unsign c g t) := by
  obtain h | ⟨f, h, hf⟩ := unsign_cases s c g t <;> rw [h]
  · exact fun _ _ _ => rfl
  · refine thread_modGroup s c g f fun x => ?_
    obtain ⟨j, hj⟩ := hf x
    rw [hj]

/-- The group of a signer keeps all but its joins. -/
theorem group_unsign {s : State} {c g : Nat} {x : Group} (t : Nat) (hg : s.group? c g = some x) :
    ∃ j, (s.unsign c g t).group? c g = some { x with j := j } := by
  obtain h | ⟨f, h, hf⟩ := unsign_cases s c g t <;> rw [h]
  · exact ⟨x.j, hg⟩
  · obtain ⟨j, hj⟩ := hf x
    exact ⟨j, by rw [group_modGroup, hg, Option.map_some, hj]⟩

/-- A precise trap of a thread whose handler can be entered. -/
theorem precise_enters {s : State} {c g t : Nat} {x : Group} {th : Thread} (hg : s.group? c g = some x) (ht : s.thread? c g t = some th)
    (he : Enterable s c x th) (cause : BitVec 16) (va : Dword) (info : Word) :
    ∃ b, (s.precise c g t cause va info).thread? c g t = some (th.enter x.tvec ⟨cause, th.pc, va, info, none, false⟩ false th.pc b) := by
  unfold State.precise
  rw [ht]
  exact takeTrap_enters hg ht he false th.pc

theorem watchdogExpiry_traps {s : State} {c slot t : Nat} {g : Group} {th : Thread} {w : Wait} (hg : s.group? c slot = some g)
    (ht : g.threads[t]? = some th) (hw : th.wait = some w) (hkind : w.kind.watched = true) (hin : s.inWait c slot t w = true)
    (hdog : g.wdog ≠ 0) (hstop : g.stopped = none) (hpast : w.since + g.wdog.toNat ≤ s.now c) (he : Enterable s c g th) :
    ∃ u x, exec (.watchdogExpiry c slot t) s = .next u ∧ u.thread? c slot t = some x ∧
      Handles { th with wait := none } x g.tvec th.pc 0x12 0 0 ∧ SameBytes s u := by
  have hth : s.thread? c slot t = some th := by rw [State.thread?, hg]; exact ht
  have hrun : exec (.watchdogExpiry c slot t) s = .next ((s.unsign c slot t).precise c slot t 0x12 0 0) := by
    show execWatchdogExpiry c slot t s = _
    have hdog' : (g.wdog != 0) = true := bne_iff_ne.2 hdog
    simp only [execWatchdogExpiry, hg, hth, Option.bind_some, hw, hdog', hstop, hkind, hin, hpast, Option.isNone_none, Bool.and_self,
      decide_true, if_true]
  obtain ⟨j, hgroup⟩ := group_unsign t hg
  have hfetch := fetch_unsign s c slot t
  obtain ⟨b, hb⟩ := precise_enters (th := th) hgroup (by rw [threads_unsign, hth])
    (Enterable.of_fetch hfetch (x := { g with j := j }) he) 0x12 0 0
  exact ⟨_, _, hrun, hb, handles_enter th g.tvec th.pc 0x12 0 0 b, sameBytes_trans hfetch.bytes (same_precise _ _ _ _ _ _ _).byteAt⟩

/-! ## The obligation -/

/-- Settles O36, a part for each instruction and event: the thread's rules of this file and the last, put together. -/
theorem stepsAndWaits : Obligations.StepsAndWaits :=
  ⟨fun _ _ _ _ h => cvstep_steps h, fun _ _ _ _ h => yield_passes h, fun _ _ _ _ h => sleep_waits h,
    fun _ _ _ _ _ _ _ _ ht hw hd => sleepExpiry_wakes ht hw hd,
    fun _ _ _ _ _ _ _ hg ht hw hkind hin hdog hstop hpast he => watchdogExpiry_traps hg ht hw hkind hin hdog hstop hpast he,
    fun _ _ _ _ _ _ hover hg hctx hid hcv => shedTimeout_sheds hover hg hctx hid hcv, convoyMirrorUpdate_updates⟩

end Sys2Proof.Laws
end

