-- ==== Sys2Proof/Proofs/JobStarts.lean ====
section
/-! SUPPORT. A ready job starts on a free engine (O48; R102, R105, R109, R442): what the read of a communicator's entry leaves of every
cluster, and the job that stands in the table then. -/

namespace Sys2Proof.Laws

open Sys2Proof.Machine Sys2Proof.Claims

/-! ## A read by a unit of the hub leaves every cluster as it was -/

theorem ReadOnly.clusters {s u : State} (h : ReadOnly s u) : u.clusters = s.clusters := by
  rw [h.state]

@[simp] theorem clusters_freeBytes (s : State) (n : Nat) : (s.freeBytes n).2.clusters = s.clusters := rfl

@[simp] theorem clusters_readMem (s : State) (key pa n : Nat) : (s.readMem key pa n).2.clusters = s.clusters := by
  obtain ⟨f, hf⟩ := readMem_state s key pa n
  rw [hf]

@[simp] theorem clusters_findErrors (s : State) (cell : Nat) (sects : BitVec 4) : (s.findErrors cell sects).clusters = s.clusters :=
  (readOnly_findErrors s cell sects).clusters

@[simp] theorem clusters_setTimes (s : State) (cell : Nat) (w r : Dword) : (s.setTimes cell w r).clusters = s.clusters :=
  (readOnly_setTimes s cell w r).clusters

@[simp] theorem clusters_homeLine (s : State) (key pa cell : Nat) : (s.homeLine key pa cell).2.clusters = s.clusters :=
  (readOnly_homeLine s key pa cell).clusters

@[simp] theorem clusters_leaveNow (s : State) (v : Nat) (y : Umbra) : (s.leaveNow v y).clusters = s.clusters :=
  (readOnly_leaveNow s v y).clusters

@[simp] theorem clusters_sealLine (s : State) (cell : Nat) : (s.sealLine cell).clusters = s.clusters := (readOnly_sealLine s cell).clusters

@[simp] theorem clusters_storeHome (s : State) (key line : Nat) (data : List (Nat × Byte)) :
    (s.storeHome key line data).clusters = s.clusters := by
  obtain ⟨c, l, hw⟩ := writeMem_frame s key data
  unfold State.storeHome
  simp only [hw]
  split
  · rfl
  · simp [apply_ite State.clusters]

@[simp] theorem clusters_reflect (s : State) (pa key : Nat) (reqs : List ReadReq) (g : Got) :
    (s.reflect pa key reqs g).clusters = s.clusters :=
  foldl_keeps (p := State.clusters) (fun s _ => post_clusters s _) _ s

@[simp] theorem clusters_holdAtHome (s : State) (v : Nat) (e : Excl) (gen : Nat) (m : Msg) :
    (s.holdAtHome v e gen m).clusters = s.clusters := by
  fun_cases State.holdAtHome <;> rfl

@[simp] theorem clusters_acceptRead (s : State) (r : ReadReq) : (s.acceptRead r).clusters = s.clusters := by
  fun_cases State.acceptRead
  case case1 _ _ _ hfree => rw [clusters_reflect, ← clusters_freeBytes s 256, hfree]
  case case6 => exact clusters_holdAtHome _ _ _ _ _
  all_goals rfl

@[simp] theorem clusters_storeAtHome (s : State) (coh : Bool) (key pa : Nat) (ct : Dword) (data : List (Nat × Byte)) :
    (s.storeAtHome coh key pa ct data).2.clusters = s.clusters := by
  unfold State.storeAtHome
  split
  · rfl
  · dsimp only
    split
    · rfl
    · simp [State.clearErrors, apply_ite State.clusters]

@[simp] theorem clusters_atomicAtHome (s : State) (coh : Bool) (key pa : Nat) (ct : Dword) (kind : AccKind) (size : Nat)
    (data cmp : List Byte) : (s.atomicAtHome coh key pa ct kind size data cmp).2.2.2.clusters = s.clusters := by
  unfold State.atomicAtHome
  split
  · rfl
  · dsimp only
    split
    · rfl
    · split <;> simp [apply_ite State.clusters]

@[simp] theorem clusters_renewAtHome (s : State) (core id pa key : Nat) (wts : Option Dword) (ct len : Dword) :
    (s.renewAtHome core id pa key wts ct len).clusters = s.clusters := by
  have hleft (cell : Nat) : ((s.umbrasOf cell).foldl (fun s2 u => s2.leaveNow (vaultOf cell) u) s).clusters = s.clusters :=
    foldl_keeps (p := State.clusters) (fun _ _ => clusters_leaveNow _ _ _) _ s
  unfold State.renewAtHome
  split
  · simp
  · dsimp only
    split <;> simp [apply_ite State.clusters, hleft]

@[simp] theorem clusters_grantExcl (s : State) (core id pa key : Nat) : (s.grantExcl core id pa key).clusters = s.clusters := by
  unfold State.grantExcl
  split
  · exact post_clusters _ _
  · dsimp only
    split
    · exact post_clusters _ _
    · split <;> simp

@[simp] theorem clusters_performAtHome (s : State) (m : Msg) : (s.performAtHome m).clusters = s.clusters := by
  unfold State.performAtHome
  split <;> simp

@[simp] theorem clusters_release (s : State) (x : Nat × Msg) : (s.release x).clusters = s.clusters := by
  unfold State.release State.underGen
  split
  · exact clusters_holdAtHome _ _ _ _ _
  · split <;> simp

theorem clusters_releases (l : List (Nat × Msg)) (s : State) : (l.foldl State.release s).clusters = s.clusters :=
  foldl_keeps (p := State.clusters) clusters_release l s

@[simp] theorem clusters_returnExcl (s : State) (pa key : Nat) (dirty : BitVec 4) (g : Got) :
    (s.returnExcl pa key dirty g).clusters = s.clusters := by
  unfold State.returnExcl
  split
  · rw [clusters_releases]
    split <;> simp
  · rfl

@[simp] theorem clusters_pull (s : State) (pa : Nat) : (s.pull pa).clusters = s.clusters := by
  unfold State.pull
  split
  · rfl
  · split
    · simp
    · split
      · simp
      · exact clusters_releases _ _

@[simp] theorem clusters_touchSlab (s : State) (pa : Nat) : (s.touchSlab pa).clusters = s.clusters := by
  fun_cases State.touchSlab <;> rfl

theorem clusters_loadDirect (s : State) (key pa n : Nat) : (endState (·.2.2) (s.loadDirect key pa n)).clusters = s.clusters := by
  unfold State.loadDirect
  dsimp only
  split
  · exact clusters_pull s pa
  · split <;> simp [endState]

theorem clusters_hubLoad (s : State) (key pa n : Nat) : (endState (·.2) (s.hubLoad key pa n)).clusters = s.clusters := by
  refine foldl_keeps (p := fun e : Except State (List Byte × State) => (endState (·.2) e).clusters) (fun acc p => ?_) _ _
  rcases acc with u | ⟨bs, u⟩
  · rfl
  · have hload := clusters_loadDirect (u.touchSlab p.1) key p.1 p.2
    rw [clusters_touchSlab] at hload
    dsimp only
    generalize (u.touchSlab p.1).loadDirect key p.1 p.2 = r at hload ⊢
    rcases r with v | ⟨x, w, v⟩ <;> exact hload

/-- The read of a communicator's entry (R105, R442). -/
theorem clusters_commEntry (s : State) (ctx comm : Nat) : (s.commEntry ctx comm).2.clusters = s.clusters := by
  unfold State.commEntry
  dsimp only
  split
  · rfl
  · have hload := clusters_hubLoad s 0 ((s.hub.commcfg.extractLsb' 12 40).toNat * 4096 + 16 * comm) 16
    generalize s.hubLoad 0 ((s.hub.commcfg.extractLsb' 12 40).toNat * 4096 + 16 * comm) 16 = r at hload ⊢
    rcases r with v | ⟨x, v⟩ <;> exact hload

/-! ## JOB_START -/

/-- A job's entry replaced, its ticket being no other's. -/
theorem jobs_modJob_last {s : State} {k : Nat} {old : List Job} {j : Job} (hjobs : (s.cluster k).jobs = old ++ [j])
    (hold : ∀ y ∈ old, y.ticket ≠ j.ticket) (f : Job → Job) : ((s.modJob k j.ticket f).cluster k).jobs = old ++ [f j] := by
  have hkept : old.map (fun y => if y.ticket == j.ticket then f y else y) = old :=
    (List.map_congr_left fun y hy => if_neg (by simpa using hold y hy)).trans (List.map_id old)
  rw [State.modJob, cluster_modCluster]
  show (s.cluster k).jobs.map _ = _
  rw [hjobs, List.map_append, hkept]
  simp

section

variable {s : State} {k : Nat} {old : List Job} {j : Job}

/-- What JOB_START tests of a job, given the engines that are busy. -/
def readyOn (s : State) (busy : List Nat) (j : Job) : Bool :=
  !j.started && j.edges.isEmpty && ((enginesFor j.card.op).find? (fun e => !busy.contains e)).isSome && !s.jobHeld j

theorem readyOn_iff (hstart : j.started = false) (busy : List Nat) : readyOn s busy j = true ↔
    (j.edges = [] ∧ (∃ e ∈ enginesFor j.card.op, e ∉ busy) ∧ s.jobHeld j = false) := by
  simp [readyOn, hstart, and_assoc]

/-- The jobs before the last one have started or have edges: the last one is the first that may start, if it may. -/
theorem find_ready (busy : List Nat) (hold : ∀ y ∈ old, y.started = true ∨ y.edges ≠ []) :
    (old ++ [j]).find? (readyOn s busy) = if readyOn s busy j then some j else none := by
  have hnone : old.find? (readyOn s busy) = none := by
    refine List.find?_eq_none.2 fun y hy => ?_
    obtain h | h := hold y hy <;> simp [readyOn, h]
  rw [List.find?_append, hnone, Option.none_or, List.find?_singleton]

theorem exec_jobStart : exec (.jobStart k) s =
    match (s.cluster k).jobs.find? (readyOn s ((s.cluster k).jobs.filterMap (·.engine))) with
    | none => .next s
    | some j =>
      let ready := { j with
        started := true
        engine := (enginesFor j.card.op).find? fun e => !((s.cluster k).jobs.filterMap (·.engine)).contains e }
      .next (s.waitSlab (fun s =>
        if j.card.op = 2 then
          match s.commEntry j.ctx j.card.comm with
          | (some e, s1) =>
            let y := { ready with comm := e }
            s1.modJob k j.ticket (fun _ => { y with ahead := s.aheadOf j.card.comm y.nrank })
          | (none, s1) => s1.modJob k j.ticket (fun _ => { ready with fault := some 0x0C })
        else s.modJob k j.ticket (fun _ => ready))) := rfl

/-- A job that may start takes an engine of its kind that is free; a collective reads its communicator's entry. -/
theorem jobStart_starts (hjobs : (s.cluster k).jobs = old ++ [j])
    (hold : ∀ y ∈ old, y.ticket ≠ j.ticket ∧ (y.started = true ∨ y.edges ≠ [])) (hcalm : s.hub.slabWait = [])
    (hready : readyOn s ((s.cluster k).jobs.filterMap (·.engine)) j = true) :
    ∃ u y e, exec (.jobStart k) s = .next u ∧ (u.cluster k).jobs = old ++ [y] ∧ e ∈ enginesFor j.card.op ∧
      e ∉ (s.cluster k).jobs.filterMap (·.engine) ∧
      (j.card.op ≠ 2 → y = { j with started := true, engine := some e }) ∧
      (j.card.op = 2 → ∀ l s1, s.commEntry j.ctx j.card.comm = (some l, s1) →
        let z := { j with started := true, engine := some e, comm := l }
        y = { z with ahead := s.aheadOf j.card.comm z.nrank }) ∧
      (j.card.op = 2 → ∀ s1, s.commEntry j.ctx j.card.comm = (none, s1) →
        y = { j with started := true, engine := some e, fault := some 0x0C }) := by
  have hfind := find_ready (s := s) (j := j) ((s.cluster k).jobs.filterMap (·.engine)) fun y hy => (hold y hy).2
  rw [if_pos hready, ← hjobs] at hfind
  have hrun := exec_jobStart (s := s) (k := k)
  simp only [hfind] at hrun
  have hfree : ((enginesFor j.card.op).find? fun e => !((s.cluster k).jobs.filterMap (·.engine)).contains e).isSome = true := by
    simp only [readyOn, Bool.and_eq_true] at hready
    obtain ⟨⟨-, hfree⟩, -⟩ := hready
    exact hfree
  obtain ⟨e, he⟩ := Option.isSome_iff_exists.1 hfree
  have hnot : e ∉ (s.cluster k).jobs.filterMap (·.engine) := by simpa using List.find?_some he
  have hticket : ∀ y ∈ old, y.ticket ≠ j.ticket := fun y hy => (hold y hy).1
  rw [he, waitSlab_calm _ hcalm] at hrun
  by_cases hop : j.card.op = 2
  · rw [if_pos hop] at hrun
    have hkept := clusters_commEntry s j.ctx j.card.comm
    have hmod (s1 : State) (h1 : s1.clusters = s.clusters) (y : Job) : ((s1.modJob k j.ticket fun _ => y).cluster k).jobs = old ++ [y] :=
      jobs_modJob_last (s := s1) (by rw [State.cluster, h1]; exact hjobs) hticket _
    generalize s.commEntry j.ctx j.card.comm = r at hrun hkept
    obtain ⟨l | l, s1⟩ := r
    · refine ⟨_, _, e, hrun, hmod s1 hkept _, List.mem_of_find?_eq_some he, hnot, fun h => absurd hop h, ?_, ?_⟩
      · intro _ l s1 h
        cases h
      · exact fun _ _ _ => rfl
    · refine ⟨_, _, e, hrun, hmod s1 hkept _, List.mem_of_find?_eq_some he, hnot, fun h => absurd hop h, ?_, ?_⟩
      · intro _ l' s1' h
        cases h
        rfl
      · intro _ s1 h
        cases h
  · rw [if_neg hop] at hrun
    exact ⟨_, _, e, hrun, jobs_modJob_last hjobs hticket _, List.mem_of_find?_eq_some he, hnot, fun _ => rfl, fun h => absurd h hop,
      fun h => absurd h hop⟩

theorem jobStart_waits (hjobs : (s.cluster k).jobs = old ++ [j]) (hold : ∀ y ∈ old, y.started = true ∨ y.edges ≠ [])
    (hready : readyOn s ((s.cluster k).jobs.filterMap (·.engine)) j = false) : exec (.jobStart k) s = .next s := by
  have hfind := find_ready (s := s) (j := j) ((s.cluster k).jobs.filterMap (·.engine)) hold
  rw [hready, ← hjobs] at hfind
  rw [exec_jobStart, hfind]
  rfl

end

end Sys2Proof.Laws
end

