-- ==== Sys2Proof/Proofs/EngineDeliveries.lean ====
section
/-! SUPPORT. An engine delivers bytes to a scratchpad (O48; R73, R74, R112 to R117): the bytes there, the sync word that counts them, and
the job's place and time. -/

namespace Sys2Proof.Laws

open Sys2Proof.Machine Sys2Proof.Claims

/-! ## Bytes of words -/

theorem getElem_leBytes (n : Nat) : ∀ (v i : Nat), i < n → (leBytes n v)[i]? = some (BitVec.ofNat 8 (v / 256 ^ i)) := by
  induction n with
  | zero => exact fun _ _ h => absurd h (Nat.not_lt_zero _)
  | succ n ih =>
    intro v i hi
    rw [leBytes]
    rcases i with _ | i
    · rw [List.getElem?_cons_zero, Nat.pow_zero, Nat.div_one]
    · rw [List.getElem?_cons_succ, ih _ _ (by omega), Nat.div_div_eq_div_mul, Nat.pow_succ']

theorem extractLsb'_byte {w : Nat} (v : BitVec w) (i : Nat) : v.extractLsb' (8 * i) 8 = BitVec.ofNat 8 (v.toNat / 256 ^ i) := by
  apply BitVec.eq_of_toNat_eq
  rw [BitVec.extractLsb'_toNat, BitVec.toNat_ofNat, Nat.shiftRight_eq_div_pow, Nat.pow_mul]

/-- Byte i of a word that is written whole. -/
theorem getElem_leBytes_word {w : Nat} (v : BitVec w) {n i : Nat} (hi : i < n) :
    (leBytes n v.toNat)[i]? = some (v.extractLsb' (8 * i) 8) := by
  rw [getElem_leBytes n _ i hi, extractLsb'_byte]

/-! ## What writes of scratchpads keep -/

/-- Only scratchpads, the times of their sync words and the free values' counter have changed. -/
structure SpadsWritten (s u : State) : Prop where
  state : u = { s with cores := u.cores, free := u.free }
  core  : ∀ n, u.core n = { s.core n with spad := (u.core n).spad, tTab := (u.core n).tTab, tFloor := (u.core n).tFloor }

theorem SpadsWritten.refl (s : State) : SpadsWritten s s := ⟨rfl, fun _ => rfl⟩

theorem SpadsWritten.trans {s u v : State} (h : SpadsWritten s u) (k : SpadsWritten u v) : SpadsWritten s v where
  state := by
    have hk := k.state
    rw [h.state] at hk
    exact hk
  core n := by
    have hk := k.core n
    rw [h.core n] at hk
    exact hk

theorem spadsWritten_free (s : State) (m : Nat) : SpadsWritten s { s with free := m } := ⟨rfl, fun _ => rfl⟩

theorem spadsWritten_modCore (s : State) (c : Nat) {f : Core → Core}
    (hf : ∀ x, f x = { x with spad := (f x).spad, tTab := (f x).tTab, tFloor := (f x).tFloor }) : SpadsWritten s (s.modCore c f) where
  state := rfl
  core n := by
    by_cases h : n = c
    · rw [h, core_modCore]
      exact hf _
    · rw [core_modCore_other _ _ h]

theorem spadsWritten_spadWrite (s : State) (c off : Nat) (bs : List Byte) : SpadsWritten s (s.spadWrite c off bs) :=
  spadsWritten_modCore s c fun _ => rfl

theorem spadsWritten_spadStore (s : State) (c : Nat) (sa : Word) (bs : List Byte) : SpadsWritten s (s.spadStore c sa bs) := by
  unfold State.spadStore
  split
  · exact spadsWritten_spadWrite s _ _ bs
  · exact .refl s

theorem raiseT_keeps (x : Core) (off : Nat) (t : Dword) :
    x.raiseT off t = { x with spad := (x.raiseT off t).spad, tTab := (x.raiseT off t).tTab, tFloor := (x.raiseT off t).tFloor } := by
  unfold Core.raiseT
  split
  · rfl
  · split
    · rfl
    · split <;> rfl

theorem spadsWritten_syncRead (s : State) (c off : Nat) : SpadsWritten s (s.syncRead c off).2 := by
  obtain ⟨m, hm⟩ := spadRead_state s c off 8
  unfold State.syncRead
  generalize s.spadRead c off 8 = r at hm
  dsimp only
  rw [hm]
  exact spadsWritten_free s m

theorem spadsWritten_deliver (s : State) (c : Nat) (sa : Word) (n : Nat) (t : Dword) : SpadsWritten s (s.deliver c sa n t) := by
  unfold State.deliver
  split
  · exact .refl s
  · next k off _ =>
    have hread := spadsWritten_syncRead s k off
    generalize s.syncRead k off = r at hread
    exact (hread.trans (spadsWritten_spadWrite _ _ _ _)).trans (spadsWritten_modCore _ _ fun x => raiseT_keeps x _ _)

section

variable {s u : State} (h : SpadsWritten s u)

include h

theorem SpadsWritten.cluster (k : Nat) : u.cluster k = s.cluster k := by
  rw [h.state]
  rfl

theorem SpadsWritten.sameBytes : SameBytes s u := by
  rw [h.state]
  exact fun _ _ => rfl

/-- A place keeps its allocation (R74). -/
theorem SpadsWritten.spadOwned (c ctx : Nat) (sa : Word) (n : Nat) : u.spadOwned c ctx sa n = s.spadOwned c ctx sa n := by
  unfold State.spadOwned Core.covers
  split
  · rw [h.core]
  · rfl

end

/-! ## The sync word of a delivery -/

/-- Word w stands at an offset of a core's scratchpad. -/
def WordAt (x : Core) (off : Nat) (w : Dword) : Prop := ∀ i, i < 8 → x.spadByte (off + i) = some (w.extractLsb' (8 * i) 8)

theorem syncRead_word {s : State} {c off : Nat} {w : Dword} (hw : WordAt (s.core c) off w) : (s.syncRead c off).1 = w := by
  have hlen := spadRead_length s c off 8
  have hread := readsAs_spadRead s c off 8
  unfold State.syncRead
  generalize (s.spadRead c off 8) = r at hlen hread
  dsimp only
  rw [← ofNat_leBytes w]
  refine congrArg (fun bs => BitVec.ofNat 64 (leNat bs)) (List.ext_getElem? fun i => ?_)
  by_cases hi : i < 8
  · rw [getElem_leBytes_word w hi, hread i _ (by omega) (hw i hi)]
  · rw [List.getElem?_eq_none (by omega), List.getElem?_eq_none (by rw [leBytes_length]; omega)]

/-- A delivery raises its word's time to the job's (R113, R115). -/
theorem timeOf_raiseT (x : Core) (off : Nat) (t : Dword) : t.toNat ≤ ((x.raiseT off t).timeOf off).toNat := by
  have hmax : ∀ a, t.toNat ≤ (maxD a t).toNat := fun a => by unfold maxD; split <;> omega
  unfold Core.raiseT Core.timeOf
  split <;> rw [tget_tset_self] <;> exact hmax _

theorem spadByte_raiseT (x : Core) (off : Nat) (t : Dword) (a : Nat) : (x.raiseT off t).spadByte a = x.spadByte a := by
  have hspad : (x.raiseT off t).spad = x.spad := by
    unfold Core.raiseT
    split
    · rfl
    · split
      · rfl
      · split <;> rfl
  have hzero : (x.raiseT off t).zeroed = x.zeroed := by rw [raiseT_keeps]
  unfold Core.spadByte
  rw [hspad, hzero]

section

variable {s : State} {c m p : Nat} {sa : Word} (hat : spadAt c sa = some (m, p)) (n : Nat) (t : Dword)

include hat

/-- A delivery in its parts: the word is read, counted into and written, and its time raised. -/
theorem deliver_eq : ∃ f, s.deliver c sa n t = ({ s with free := f }.spadWrite m p
    (leBytes 8 (countInto (s.syncRead m p).1 n).toNat)).modCore m (·.raiseT p t) := by
  obtain ⟨f, hf⟩ := spadRead_state s m p 8
  refine ⟨f, ?_⟩
  unfold State.deliver State.syncRead
  rw [hat]
  dsimp only
  rw [hf]

theorem spadByte_deliver (x a : Nat) : ((s.deliver c sa n t).core x).spadByte a =
    if x = m ∧ p ≤ a ∧ a < p + 8 then (leBytes 8 (countInto (s.syncRead m p).1 n).toNat)[a - p]? else (s.core x).spadByte a := by
  obtain ⟨f, hf⟩ := deliver_eq (s := s) hat n t
  have hwrite := spadByte_spadWrite { s with free := f } m p (leBytes 8 (countInto (s.syncRead m p).1 n).toNat) x a
  rw [leBytes_length] at hwrite
  rw [hf]
  by_cases hx : x = m
  · subst hx
    rw [core_modCore, spadByte_raiseT, hwrite]
    rfl
  · rw [core_modCore_other _ _ hx, hwrite]
    rfl

theorem deliver_counts {w : Dword} (hw : WordAt (s.core m) p w) :
    WordAt ((s.deliver c sa n t).core m) p (countInto w n) ∧ t.toNat ≤ (((s.deliver c sa n t).core m).timeOf p).toNat := by
  refine ⟨fun i hi => ?_, ?_⟩
  · rw [spadByte_deliver hat, if_pos ⟨rfl, by omega, by omega⟩, syncRead_word hw, Nat.add_sub_cancel_left, getElem_leBytes_word _ hi]
  · obtain ⟨f, hf⟩ := deliver_eq (s := s) hat n t
    rw [hf, core_modCore]
    exact timeOf_raiseT _ p t

end

/-! ## The bytes of a delivery -/

section

variable {s : State} {k : Nat} {j : Job} {a : Nat}

theorem engWrite_spad (bs : List Byte) (jt : Dword) :
    (s.engWrite k j ⟨true, a⟩ bs jt).1 = jt ∧ SpadsWritten s (s.engWrite k j ⟨true, a⟩ bs jt).2 :=
  ⟨rfl, List.foldlRecOn (motive := SpadsWritten s) _ _ (.refl s) fun _ h _ _ => h.trans (spadsWritten_spadStore _ _ _ _)⟩

/-- Bytes that do not reach past their core's offsets are written in one piece (R73). -/
theorem spadByte_engWrite {bs : List Byte} {c off : Nat} (jt : Dword) (hat : spadAt j.core (BitVec.ofNat 32 a) = some (c, off))
    (hin : off + bs.length ≤ 0x80000) (x b : Nat) : ((s.engWrite k j ⟨true, a⟩ bs jt).2.core x).spadByte b =
      if x = c ∧ off ≤ b ∧ b < off + bs.length then bs[b - off]? else (s.core x).spadByte b := by
  have hoff : off = a % 0x80000 := by
    have hlow : ((BitVec.ofNat 32 a).extractLsb' 0 19).toNat = a % 0x80000 := by
      rw [BitVec.extractLsb'_toNat, BitVec.toNat_ofNat, Nat.shiftRight_zero]
      omega
    unfold spadAt at hat
    split at hat
    · cases hat
    · dsimp only at hat
      split at hat <;> cases hat <;> exact hlow
  have hone : spadPieces a bs.length = [(a, bs.length)] := by
    unfold spadPieces
    dsimp only
    rw [if_pos (by omega)]
  have hwrite : (s.engWrite k j ⟨true, a⟩ bs jt).2 = s.spadWrite c off bs := by
    show (spadPieces a bs.length).foldl _ s = _
    rw [hone]
    simp [State.spadStore, hat]
  rw [hwrite, spadByte_spadWrite]

/-- The entry of a cluster's only job replaced. -/
theorem jobs_modJob_sole {s : State} {k : Nat} {j : Job} (hjobs : (s.cluster k).jobs = [j]) (f : Job → Job) :
    ((s.modJob k j.ticket f).cluster k).jobs = [f j] :=
  jobs_modJob_last (old := []) hjobs (fun _ h => absurd h List.not_mem_nil) f

/-- The job as a delivery of n bytes leaves it. -/
def movedOn (j : Job) (n : Nat) (jt : Dword) : Job := { j with jt := jt, done := j.done + n, lines := [] }

/-- The state in which an engine's bytes have been written and its job's place moved on, but not counted. -/
def engMoved (s : State) (k : Nat) (j : Job) (a : Nat) (bs : List Byte) (jt : Dword) : State :=
  (s.engWrite k j ⟨true, a⟩ bs jt).2.modJob k j.ticket fun x => { (x.took j.done bs.length) with jt := jt, lines := [] }

theorem jobs_engMoved (hjobs : (s.cluster k).jobs = [j]) (bs : List Byte) (jt : Dword) :
    ((engMoved s k j a bs jt).cluster k).jobs = [movedOn j bs.length jt] := by
  have hmod := jobs_modJob_sole (s := (s.engWrite k j ⟨true, a⟩ bs jt).2) (k := k) (j := j)
    (by rw [(engWrite_spad bs jt).2.cluster]; exact hjobs) fun x => { (x.took j.done bs.length) with jt := jt, lines := [] }
  rwa [Job.took, if_pos rfl] at hmod

theorem owned_engMoved (bs : List Byte) (jt : Dword) :
    (engMoved s k j a bs jt).spadOwned j.core j.ctx j.card.sync 8 = s.spadOwned j.core j.ctx j.card.sync 8 :=
  (engWrite_spad (s := s) (k := k) (j := j) (a := a) bs jt).2.spadOwned _ _ _ _

theorem engDeliver_eq (bs : List Byte) (jt : Dword) : s.engDeliver k j ⟨true, a⟩ bs jt =
    if j.card.sync = 0xFFFFFFFF then engMoved s k j a bs jt
    else if s.spadOwned j.core j.ctx j.card.sync 8 then (engMoved s k j a bs jt).deliver j.core j.card.sync bs.length jt
    else (engMoved s k j a bs jt).modJob k j.ticket fun x => { x with fault := some 0x09 } := by
  rw [← owned_engMoved (s := s) (k := k) (a := a) bs jt]
  rfl

/-- A delivery to a scratchpad: the three cases are a job without a sync word, one whose word still lies in an allocation of the context,
and one whose word no longer does (R74, R113). -/
theorem engDeliver_delivers (hjobs : (s.cluster k).jobs = [j]) (bs : List Byte) (jt : Dword) :
    Delivers s (s.engDeliver k j ⟨true, a⟩ bs jt) k j a bs jt := by
  have hmoved := jobs_engMoved (a := a) hjobs bs jt
  have hfault := jobs_modJob_sole (s := engMoved s k j a bs jt) (j := movedOn j bs.length jt) hmoved fun x => { x with fault := some 0x09 }
  have hbytes {c off : Nat} (hat : spadAt j.core (BitVec.ofNat 32 a) = some (c, off)) (hin : off + bs.length ≤ 0x80000) (x b : Nat) :
      ((engMoved s k j a bs jt).core x).spadByte b =
        if x = c ∧ off ≤ b ∧ b < off + bs.length then bs[b - off]? else (s.core x).spadByte b := spadByte_engWrite jt hat hin x b
  have hthere {c off : Nat} (hat : spadAt j.core (BitVec.ofNat 32 a) = some (c, off)) (hin : off + bs.length ≤ 0x80000) (i : Nat)
      (hi : i < bs.length) : ((engMoved s k j a bs jt).core c).spadByte (off + i) = bs[i]? := by
    rw [hbytes hat hin, if_pos ⟨rfl, by omega, by omega⟩, Nat.add_sub_cancel_left]
  rw [engDeliver_eq]
  by_cases hsync : j.card.sync = 0xFFFFFFFF
  · rw [if_pos hsync]
    exact ⟨fun _ => hmoved, fun h => absurd hsync h, fun c off hat hin => ⟨fun _ => hthere hat hin, fun _ _ _ h => absurd hsync h⟩⟩
  · rw [if_neg hsync]
    by_cases hown : s.spadOwned j.core j.ctx j.card.sync 8 = true
    · rw [if_pos hown]
      refine ⟨fun _ => ?_, fun _ h => absurd hown h, fun c off hat hin => ⟨fun h => (h.elim hsync (· hown)).elim, ?_⟩⟩
      · rw [(spadsWritten_deliver _ _ _ _ _).cluster]
        exact hmoved
      · intro n p w _ _ hword happart hw
        have hsame : WordAt ((engMoved s k j a bs jt).core n) p w := fun i hi => by
          rw [hbytes hat hin, if_neg (by omega)]
          exact hw i hi
        obtain ⟨hcount, htime⟩ := deliver_counts (s := engMoved s k j a bs jt) hword bs.length jt hsame
        refine ⟨fun i hi => ?_, hcount, htime⟩
        rw [spadByte_deliver hword, if_neg (by omega)]
        exact hthere hat hin i hi
    · rw [if_neg hown]
      exact ⟨fun h => (h.elim hsync hown).elim, fun _ _ => hfault, fun c off hat hin =>
        ⟨fun _ => hthere hat hin, fun _ _ _ _ h => absurd h hown⟩⟩

/-- A delivery goes by scratchpads alone. -/
theorem delivers_of_cores {s s0 u : State} {bs : List Byte} {t : Dword} (h : s0.cores = s.cores) (hd : Delivers s0 u k j a bs t) :
    Delivers s u k j a bs t := by
  have hcore : ∀ n, s0.core n = s.core n := fun n => by rw [State.core, h]; rfl
  unfold Delivers Owned State.spadOwned at *
  simpa only [hcore] using hd

theorem bytes_modJob (s : State) (k : Nat) (t : BitVec 16) (f : Job → Job) : SameBytes s (s.modJob k t f) := fun _ _ => rfl

theorem bytes_engDeliver (bs : List Byte) (jt : Dword) : SameBytes s (s.engDeliver k j ⟨true, a⟩ bs jt) := by
  have hmoved : SameBytes s (engMoved s k j a bs jt) :=
    sameBytes_trans (engWrite_spad (k := k) (j := j) (a := a) bs jt).2.sameBytes (bytes_modJob _ _ _ _)
  rw [engDeliver_eq]
  split
  · exact hmoved
  · split
    · exact sameBytes_trans hmoved (spadsWritten_deliver _ _ _ _ _).sameBytes
    · exact sameBytes_trans hmoved (bytes_modJob _ _ _ _)

end

end Sys2Proof.Laws
end

