-- ==== Sys2Proof/Proofs/EngineUnits.lean ====
section
/-! SUPPORT. A unit of a job (O48; R50, R53, R74, R104, R111, R113, R117): of a fill of a scratchpad, and of a copy from memory to one. -/

namespace Sys2Proof.Laws

open Sys2Proof.Machine Sys2Proof.Claims

/-! ## Which job a unit is of -/

section

variable {s : State} {k : Nat} {j : Job}

theorem find_ticket {rest : List Job} (hjobs : (s.cluster k).jobs = j :: rest) :
    (s.cluster k).jobs.find? (fun x => x.ticket.toNat == j.ticket.toNat) = some j := by
  rw [hjobs, List.find?_cons_of_pos (by simp)]

/-- A job that has not started, has failed, waits for a walk, or has delivered all its bytes delivers nothing. -/
theorem unitDelivery_idles (hjobs : (s.cluster k).jobs = [j])
    (hidle : j.started = false ∨ j.fault ≠ none ∨ j.waitWalk ≠ none ∨ (j.total ≤ j.done ∧ j.gaps = [])) :
    exec (.engineUnitDelivery k j.ticket.toNat) s = .next s := by
  have hunit : j.atUnit.1.started = j.started ∧ j.atUnit.1.fault = j.fault ∧ j.atUnit.1.waitWalk = j.waitWalk := by
    fun_cases Job.atUnit <;> exact ⟨rfl, rfl, rfl⟩
  obtain ⟨hs, hf, hw⟩ := hunit
  have hgo : (!j.atUnit.1.started || j.atUnit.1.fault.isSome || j.atUnit.1.waitWalk.isSome || !j.unfinished) = true := by
    rw [hs, hf, hw]
    obtain h | h | h | ⟨h, hgaps⟩ := hidle
    · simp [h]
    · simp [Option.isSome_iff_ne_none.2 h]
    · simp [Option.isSome_iff_ne_none.2 h]
    · simp [Job.unfinished, hgaps, h]
  show execEngineUnitDelivery k j.ticket.toNat s = _
  unfold execEngineUnitDelivery
  rw [find_ticket hjobs]
  dsimp only
  rw [hgo, Bool.true_or, if_pos rfl]

/-- A job under way reads, checks and delivers its next unit, no more of it than it has left to deliver. -/
theorem unitDelivery_steps (h : Runs s k j) (hop : j.card.op ≠ 2) {u : EngUnit} (hu : s.nextUnit k j = (some u, s)) :
    exec (.engineUnitDelivery k j.ticket.toNat) s = .next (s.engStep k j { u with n := min u.n (j.total - j.done) }) := by
  obtain ⟨hs, hf, hw⟩ := h.started
  have hunit : j.atUnit = (j, j.total - j.done) := if_pos h.short
  have hgo : (!j.started || j.fault.isSome || j.waitWalk.isSome || !j.unfinished || (s.jobHeld j && j.lines.isEmpty)) = false := by
    simp [hs, hf, hw, h.free.1, Job.unfinished, h.short]
  show execEngineUnitDelivery k j.ticket.toNat s = _
  unfold execEngineUnitDelivery
  rw [find_ticket h.sole]
  simp only [hunit, hgo, hop, hu, if_false, Bool.false_eq_true]

end

/-! ## How far an engine reaches -/

section

variable {s : State} {j : Job} {l : Loc} {write : Bool} {n : Nat}

theorem engReach_all (h : ∀ i, i < n → s.engBad j (l.plus i) write = none) : s.engReach j l write n = (n, none) := by
  have hfind : (List.range n).find? (fun i => (s.engBad j (l.plus i) write).isSome) = none :=
    List.find?_eq_none.2 fun i hi => by simp [h i (List.mem_range.1 hi)]
  rw [State.engReach, hfind]

theorem engReach_first {cause : BitVec 16} (hn : n ≠ 0) (h : s.engBad j l write = some cause) :
    s.engReach j l write n = (0, some cause) := by
  have hfind : (List.range n).find? (fun i => (s.engBad j (l.plus i) write).isSome) = some 0 := by
    obtain ⟨m, rfl⟩ := Nat.exists_eq_succ_of_ne_zero hn
    rw [List.range_succ_eq_map, List.find?_cons_of_pos (by simp [Loc.plus, h])]
  rw [State.engReach, hfind]
  exact congrArg (Prod.mk 0) h

end

/-! ## A fill of a scratchpad -/

section

variable {s : State} {k : Nat} {j : Job} {a n : Nat}

theorem nextUnit_fill (hop : j.card.op = 3) (hsp : j.card.sp 0 = true) : s.nextUnit k j =
    (some ⟨none, ⟨true, (j.card.src + j.done) % 2 ^ 32⟩, min 256 (j.card.len - j.done)⟩, s) := by
  simp [State.nextUnit, hop, Loc.at, hsp]

theorem total_fill (hop : j.card.op = 3) : j.total = j.card.len := by
  simp [Job.total, hop]

/-- A fill whose first byte is out of reach ends. -/
theorem engStep_fill_bad {cause : BitVec 16} (hn : n ≠ 0) (hbad : s.engBad j ⟨true, a⟩ true = some cause) :
    s.engStep k j ⟨none, ⟨true, a⟩, n⟩ = s.modJob k j.ticket fun x => { x with fault := some cause } := by
  unfold State.engStep
  simp only [engReach_first hn hbad, Nat.min_zero, if_true, if_neg hn]

theorem engStep_fill (hn : n ≠ 0) (hgood : ∀ i, i < n → s.engBad j ⟨true, a + i⟩ true = none) :
    s.engStep k j ⟨none, ⟨true, a⟩, n⟩ = s.engDeliver k j ⟨true, a⟩
      ((List.range n).map fun i => (lowWord (j.card.dw 2)).extractLsb' (8 * ((a + i) % 4)) 8) j.jt := by
  have hpat : ∀ i, (leBytes 4 (lowWord (j.card.dw 2)).toNat).getD (i % 4) 0 = (lowWord (j.card.dw 2)).extractLsb' (8 * (i % 4)) 8 := by
    intro i
    rw [List.getD_eq_getElem?_getD, getElem_leBytes_word _ (Nat.mod_lt i (by decide))]
    rfl
  unfold State.engStep
  simp only [engReach_all (l := ⟨true, a⟩) hgood, Nat.min_self, if_neg hn, hpat]
  rfl

theorem fill_unit (h : Runs s k j) (hop : j.card.op = 3) (hsp : j.card.sp 0 = true) :
    let a := (j.card.src + j.done) % 2 ^ 32
    let n := min 256 (j.card.len - j.done)
    n ≠ 0 ∧ exec (.engineUnitDelivery k j.ticket.toNat) s = .next (s.engStep k j ⟨none, ⟨true, a⟩, n⟩) := by
  have hshort := h.short
  have hrun := unitDelivery_steps h (by omega) (nextUnit_fill hop hsp)
  rw [total_fill hop] at hshort hrun
  refine ⟨by omega, ?_⟩
  rw [hrun]
  simp only [Nat.min_eq_left (Nat.min_le_right 256 (j.card.len - j.done))]

end

/-! ## The translation of an engine's read -/

section

variable {s : State} {k : Nat} {j : Job} {va pa key st n : Nat} {write : Bool}

/-- A leaf that is let through, of no device register, lies behind no link that is down (R28). -/
theorem linkDown_of_checkLeaf {r : Region} {c acc : Nat} {e : TlbEnt} {v : Dword} {priv : Bool}
    (h : s.checkLeaf r c e v acc priv = none) (hhub : isHub (e.pa r v) = false) : s.linkDown (e.pa r v) = false := by
  revert h
  fun_cases State.checkLeaf with
  | case9 _ _ _ _ _ _ _ _ hopen => exact fun _ => (Bool.or_eq_false_iff.1 (Bool.eq_false_of_not_eq_true hopen)).2
  | case6 _ _ _ _ _ _ hdev => exact fun _ => Bool.noConfusion (hhub.symm.trans hdev)
  | _ => exact fun h => nomatch h

/-- A translation that succeeds: the region lets the address through, and the link to its page is up. -/
theorem engXlate_ok (h : s.engXlate k j va write = .ok pa key st) :
    regionFault (s.regionFor j.ctx (BitVec.ofNat 64 va)) j.core (BitVec.ofNat 64 va) = none ∧ s.linkDown pa = false := by
  unfold State.engXlate at h
  dsimp only at h
  split at h
  · cases h
  · next hfault =>
    refine ⟨hfault, ?_⟩
    split at h
    · cases h
    · next e _ =>
      split at h
      · cases h
      · next hleaf =>
        split at h
        · cases h
        · next hhub =>
          have hup := linkDown_of_checkLeaf hleaf (Bool.eq_false_of_not_eq_true hhub)
          split at h
          · cases h
          · split at h
            · cases h
            · split at h
              · cases h
              · cases h
                exact hup

/-- An access within one line is one piece (R41). -/
theorem pieces_one {a : Nat} (h : a % 256 + n ≤ 256) : pieces a n = [(a, n)] := by
  unfold pieces
  dsimp only
  rw [if_pos (by omega)]

/-- An entry put into a TLB is found there by the lookup that found it elsewhere (R42). -/
theorem tlbHit_tlbPut2 {l : List TlbEnt} (l' : List TlbEnt) {r : Region} {ctx : Nat} {v : Dword} {e : TlbEnt}
    (h : tlbHit l r ctx v = some e) : tlbHit (tlbPut2 l' e) r ctx v = some e := by
  have hfits := List.find?_some (by exact h)
  exact List.find?_cons_of_pos hfits

/-- Nothing but a cluster's TLB has changed. -/
structure TlbFilled (s u : State) (k : Nat) : Prop where
  cores : u.cores = s.cores
  net   : u.net = s.net
  seq   : u.seq = s.seq
  hub   : u.hub = s.hub
  jobs  : (u.cluster k).jobs = (s.cluster k).jobs
  bytes : SameBytes s u

/-- A lookup that hits the last level fills the cluster's TLB, and the address translates as it did. -/
theorem engFill_filled (hpage : va % 256 + n ≤ 256) (h : s.engXlate k j va write = .ok pa key st) :
    let u := s.engFill k j ⟨false, va⟩ n
    TlbFilled s u k ∧ u.engXlate k j va write = .ok pa key st := by
  obtain ⟨hfault, -⟩ := engXlate_ok h
  dsimp only
  generalize hu : s.engFill k j ⟨false, va⟩ n = u
  unfold State.engFill at hu
  simp only [pieces_one hpage, List.foldl_cons, List.foldl_nil, hfault, Option.isSome_none, Bool.false_eq_true, if_false] at hu
  split at hu <;> subst hu
  · next e hmiss hhit =>
    refine ⟨⟨rfl, rfl, rfl, rfl, by rw [cluster_modCluster], fun _ _ => rfl⟩, ?_⟩
    rw [← h]
    have hput := tlbHit_tlbPut2 (s.cluster k).tlb hhit
    have hnew : tlbHit ((s.modCluster k fun x => { x with tlb := tlbPut2 x.tlb e }).cluster k).tlb
        (s.regionFor j.ctx (BitVec.ofNat 64 va)) j.ctx (BitVec.ofNat 64 va) = some e := by
      rw [cluster_modCluster]
      exact hput
    unfold State.engXlate
    dsimp only
    rw [hmiss, hhit]
    rw [show (s.modCluster k fun x => { x with tlb := tlbPut2 x.tlb e }).regionFor = s.regionFor from rfl, hnew]
    rfl
  · exact ⟨⟨rfl, rfl, rfl, rfl, rfl, fun _ _ => rfl⟩, h⟩

end

/-! ## An engine's read of one line -/

/-- A bit of a set that is put together from its members. -/
theorem getLsbD_foldl_bits {w : Nat} (P : Nat → Prop) [DecidablePred P] {i : Nat} (hi : i < w) (l : List Nat) (a : BitVec w) :
    (l.foldl (fun m k => if P k then m ||| BitVec.ofNat w (1 <<< k) else m) a).getLsbD i = (a.getLsbD i || decide (i ∈ l ∧ P i)) := by
  induction l generalizing a with
  | nil => simp
  | cons k l ih =>
    rw [List.foldl_cons, ih]
    by_cases hik : i = k
    · subst hik
      have hbit : (BitVec.ofNat w (1 <<< i)).getLsbD i = true := by
        rw [BitVec.getLsbD_ofNat, Nat.one_shiftLeft, Nat.testBit_two_pow, decide_eq_true rfl, decide_eq_true hi, Bool.and_true]
      by_cases hp : P i <;> simp only [hp, if_true, if_false, BitVec.getLsbD_or, hbit] <;> simp
    · have hbit : (BitVec.ofNat w (1 <<< k)).getLsbD i = false := by
        rw [BitVec.getLsbD_ofNat, Nat.one_shiftLeft, Nat.testBit_two_pow, decide_eq_false (Ne.symm hik), Bool.and_false]
      by_cases hp : P k <;> simp only [hp, if_true, if_false, BitVec.getLsbD_or, hbit] <;> simp [hik]

/-- The sectors that bytes of a line lie in, one by one. -/
theorem getLsbD_sectorSet (off n : Nat) {i : Nat} (hi : i < 4) :
    (sectorSet off n).getLsbD i = decide (off < 64 * i + 64 ∧ 64 * i < off + n) := by
  have h := getLsbD_foldl_bits (fun k => off < 64 * k + 64 ∧ 64 * k < off + n) hi (List.range 4) 0#4
  simpa [sectorSet, hi] using h

/-- A poisoned sector that a read meets (R19). -/
theorem poison_met {p : BitVec 4} {off n : Nat} (hn : n ≠ 0) (hoff : off < 256) (hp : p.getLsbD (off / 64) = true) :
    ((p &&& sectorSet off n) != 0) = true := by
  refine bne_iff_ne.2 fun h => ?_
  have hbit := congrArg (BitVec.getLsbD · (off / 64)) h
  simp only [BitVec.getLsbD_and, hp, Bool.true_and, getLsbD_sectorSet off n (show off / 64 < 4 by omega)] at hbit
  rw [decide_eq_true ⟨by omega, by omega⟩] at hbit
  simp at hbit

section

variable {s : State} {k : Nat} {j : Job} {va pa key st n : Nat}

/-- The one line that a read within a line needs. -/
theorem engLines_one (hpage : va % 256 + n ≤ 256) (h : s.engXlate k j va false = .ok pa key st) :
    s.engLines k j ⟨false, va⟩ n = [(lineOf pa, key)] := by
  simp [State.engLines, pieces_one hpage, h]

theorem lineOf_lineOf (a : Nat) : lineOf (lineOf a) = lineOf a := by
  unfold lineOf
  omega

theorem line?_lineOf (pa key : Nat) : j.line? (lineOf pa) key = j.line? pa key := by
  rw [Job.line?, lineOf_lineOf]
  rfl

/-- A line that the engine's buffer lacks is asked for. -/
theorem engRead_asks (hpage : va % 256 + n ≤ 256) (h : s.engXlate k j va false = .ok pa key st) (hline : j.line? (lineOf pa) key = none) :
    s.engRead k j ⟨false, va⟩ n = .error (s.engAsk k j [(lineOf pa, key)]) := by
  simp [State.engRead, engLines_one hpage h, hline]

/-- A line in the buffer: what the read comes to is what its piece comes to. -/
theorem engRead_held (hpage : va % 256 + n ≤ 256) (h : s.engXlate k j va false = .ok pa key st) {l : Line}
    (hline : j.line? (lineOf pa) key = some l) : s.engRead k j ⟨false, va⟩ n =
      match s.engPiece k j (va, n) with
      | .wait => .error s
      | .bad => .error (s.modJob k j.ticket (fun x => { x with fault := some 0x0C }))
      | .ok bs w => .ok (bs, w, s) := by
  unfold State.engRead State.engMem
  simp only [engLines_one hpage h, List.filter_cons, List.filter_nil, hline, pieces_one hpage, List.foldl_cons, List.foldl_nil]
  cases hpiece : s.engPiece k j (va, n) with
  | ok bs w => simp [maxD_zero]
  | _ => rfl

/-- The piece that a read within a line comes to, from its line in the buffer. -/
theorem engPiece_got (h : s.engXlate k j va false = .ok pa key st) {l : Line} (hline : j.line? (lineOf pa) key = some l) :
    (l.got = none → s.engPiece k j (va, n) = .wait) ∧
      ∀ g, l.got = some g → s.engPiece k j (va, n) =
        if (g.poison &&& sectorSet (pa % 256) n) != 0 then .bad
        else .ok ((g.bytes.drop (pa % 256)).take n) (if st = 0 then g.wts else 0) := by
  rw [line?_lineOf] at hline
  unfold State.engPiece
  refine ⟨fun hgot => ?_, fun g hgot => ?_⟩ <;> simp only [h, hline, Option.bind_some, hgot, (engXlate_ok h).2, Bool.false_or]

/-- What an engine asks a slice for: one line, with hint 5 (R52, R117). -/
theorem engAsk_one (hcalm : s.hub.slabWait = []) (hjobs : (s.cluster k).jobs = [j]) (line key : Nat) :
    let u := s.engAsk k j [(line, key)]
    (u.cluster k).jobs = [{ j with lines := j.lines ++ [⟨line, key, none⟩] }] ∧
      u.net = s.net ++ [(s.seq, .read ⟨j.core, j.lines.length, 0xF, 5, j.jt, line, key,
        some (.engine k (j.engine.getD 0) j.ticket)⟩)] ∧ SameBytes s u := by
  have hfree : [(line, key)].any (fun e => s.slabHeld e.1) = false := by simp [slabHeld_calm _ hcalm]
  dsimp only
  unfold State.engAsk
  rw [hfree]
  exact ⟨jobs_modJob_sole hjobs _, rfl, fun _ _ => rfl⟩

end

/-! ## A copy from memory to a scratchpad -/

section

variable {s : State} {k : Nat} {j : Job} {src dst n : Nat}

theorem nextUnit_copy (hop : j.card.op = 0) (h0 : j.card.sp 0 = false) (h1 : j.card.sp 1 = true) : s.nextUnit k j =
    (some ⟨some ⟨false, j.card.src + j.done / j.card.rowLen * 16 * j.card.sstr + j.done % j.card.rowLen⟩,
      ⟨true, (j.card.dst + j.done / j.card.rowLen * 16 * j.card.dstr + j.done % j.card.rowLen) % 2 ^ 32⟩,
      min 256 (j.card.rowLen - j.done % j.card.rowLen)⟩, s) := by
  simp [State.nextUnit, hop, Loc.at, h0, h1]

/-- What is left of a row is among what is left of a copy. -/
theorem rest_of_row {d len rows : Nat} (hlen : len ≠ 0) (h : d < len * rows) : len - d % len ≤ len * rows - d := by
  have hrow : d / len + 1 ≤ rows := Nat.div_lt_of_lt_mul h
  have hmul : len * (d / len + 1) ≤ len * rows := Nat.mul_le_mul_left len hrow
  have hsplit := Nat.div_add_mod d len
  have hmod := Nat.mod_lt d (Nat.pos_of_ne_zero hlen)
  rw [Nat.mul_add, Nat.mul_one] at hmul
  omega

theorem copy_unit (h : Runs s k j) (hop : j.card.op = 0) (h0 : j.card.sp 0 = false) (h1 : j.card.sp 1 = true) (hlen : j.card.rowLen ≠ 0) :
    let r := j.done / j.card.rowLen
    let x := j.done % j.card.rowLen
    let n := min 256 (j.card.rowLen - x)
    n ≠ 0 ∧ exec (.engineUnitDelivery k j.ticket.toNat) s = .next (s.engStep k j ⟨some ⟨false, j.card.src + r * 16 * j.card.sstr + x⟩,
      ⟨true, (j.card.dst + r * 16 * j.card.dstr + x) % 2 ^ 32⟩, n⟩) := by
  have htotal : j.total = j.card.rowLen * j.card.rows := by simp [Job.total, hop]
  have hshort := h.short
  have hrun := unitDelivery_steps h (by omega) (nextUnit_copy hop h0 h1)
  rw [htotal] at hshort hrun
  have hrest := rest_of_row hlen hshort
  have hmod := Nat.mod_lt j.done (Nat.pos_of_ne_zero hlen)
  dsimp only
  refine ⟨by omega, ?_⟩
  rw [hrun]
  simp only [Nat.min_eq_left (Nat.le_trans (Nat.min_le_right 256 _) hrest)]

/-- A unit of a copy that reaches all its places: nothing stops it, and it goes by what its read comes to. -/
theorem engStep_copy (hn : n ≠ 0) (hsrc : ∀ i, i < n → s.engBad j ⟨false, src + i⟩ false = none)
    (hdst : ∀ i, i < n → s.engBad j ⟨true, dst + i⟩ true = none) (hpage : src % 256 + n ≤ 256) {pa key st : Nat}
    (hx : s.engXlate k j src false = .ok pa key st) :
    let s0 := s.engFill k j ⟨false, src⟩ n
    (∀ u, s0.engRead k j ⟨false, src⟩ n = .error u → s.engStep k j ⟨some ⟨false, src⟩, ⟨true, dst⟩, n⟩ = u) ∧
    ∀ bs w u, s0.engRead k j ⟨false, src⟩ n = .ok (bs, w, u) → s.engStep k j ⟨some ⟨false, src⟩, ⟨true, dst⟩, n⟩ =
      { u with free := u.free + n }.engDeliver k j ⟨true, dst⟩ (u.copyBytes k j ⟨false, src⟩ ⟨true, dst⟩ bs) (maxD j.jt w) := by
  obtain ⟨-, hx0⟩ := engFill_filled hpage hx
  have hstop : (s.engFill k j ⟨false, src⟩ n).unitStop k j (some ⟨false, src⟩) ⟨true, dst⟩ n = none := by
    simp [State.unitStop, State.engReady, pieces_one hpage, hx0]
  have hheld : (s.engFill k j ⟨false, src⟩ n).engHeld k j ⟨true, dst⟩ n = false := rfl
  have hfill : s.engFill k j ⟨true, dst⟩ n = s := rfl
  unfold State.engStep
  simp only [engReach_all (l := ⟨false, src⟩) hsrc, engReach_all (l := ⟨true, dst⟩) hdst, Nat.min_self, if_neg hn, hfill, hstop, hheld,
    Bool.false_eq_true, if_false]
  exact ⟨fun u hu => by rw [hu], fun bs w u hu => by rw [hu]⟩

/-- Bytes of a copy between memory and a scratchpad are all defined (R104). -/
theorem copyBytes_apart (h : j.card.sp 0 ≠ j.card.sp 1) (l l' : Loc) (bs : List Byte) : s.copyBytes k j l l' bs = bs := by
  have hopen : ∀ l l', s.copyOpen k j l l' = false := fun l l' => by simp [State.copyOpen, h]
  unfold State.copyBytes
  simp only [hopen, Bool.false_eq_true, if_false]
  exact List.map_snd_zip (by rw [List.length_range])

/-- A delivery after a fill of the cluster's TLB, free values having been drawn. -/
theorem filled_delivers {s0 : State} (hfilled : TlbFilled s s0 k) (hjobs : (s.cluster k).jobs = [j]) (m : Nat) (bs : List Byte) (jt : Dword) :
    let u := { s0 with free := m }.engDeliver k j ⟨true, dst⟩ bs jt
    SameBytes s u ∧ Delivers s u k j dst bs jt := by
  have hfree : SameBytes s0 { s0 with free := m } := fun _ _ => rfl
  have hdelivers := engDeliver_delivers (s := { s0 with free := m }) (a := dst) (hfilled.jobs.trans hjobs) bs jt
  exact ⟨sameBytes_trans hfilled.bytes (sameBytes_trans hfree (bytes_engDeliver (s := { s0 with free := m }) bs jt)),
    delivers_of_cores (s0 := { s0 with free := m }) hfilled.cores hdelivers⟩

theorem maxD_of_zero (a : Dword) : maxD a 0 = a := by
  unfold maxD
  split
  · next h => exact BitVec.eq_of_toNat_eq (Nat.le_zero.1 h).symm
  · rfl

section

variable (h : Runs s k j) (hn : n ≠ 0) (hsrc : ∀ i, i < n → s.engBad j ⟨false, src + i⟩ false = none)
  (hdst : ∀ i, i < n → s.engBad j ⟨true, dst + i⟩ true = none) (hpage : src % 256 + n ≤ 256) {pa key st : Nat}
  (hx : s.engXlate k j src false = .ok pa key st)

include h hn hsrc hdst hpage hx

/-- A line that is not in the buffer is asked for (R50, R52). -/
theorem copy_asks (hline : j.line? (lineOf pa) key = none) :
    let u := s.engStep k j ⟨some ⟨false, src⟩, ⟨true, dst⟩, n⟩
    (u.cluster k).jobs = [{ j with lines := j.lines ++ [⟨lineOf pa, key, none⟩] }] ∧
      u.net = s.net ++ [(s.seq, .read ⟨j.core, j.lines.length, 0xF, 5, j.jt, lineOf pa, key,
        some (.engine k (j.engine.getD 0) j.ticket)⟩)] ∧ SameBytes s u := by
  obtain ⟨hfilled, hx0⟩ := engFill_filled hpage hx
  have hasked := (engStep_copy hn hsrc hdst hpage hx).1 _ (engRead_asks hpage hx0 hline)
  have hspec := engAsk_one (s := s.engFill k j ⟨false, src⟩ n) (by rw [hfilled.hub]; exact h.free.2) (hfilled.jobs.trans h.sole) (lineOf pa) key
  rw [← hasked, hfilled.net, hfilled.seq] at hspec
  obtain ⟨hjobs, hnet, hbytes⟩ := hspec
  exact ⟨hjobs, hnet, sameBytes_trans hfilled.bytes hbytes⟩

/-- A line whose reflection has not come is waited for (R53). -/
theorem copy_waits {l : Line} (hline : j.line? (lineOf pa) key = some l) (hgot : l.got = none) :
    let u := s.engStep k j ⟨some ⟨false, src⟩, ⟨true, dst⟩, n⟩
    (u.cluster k).jobs = [j] ∧ u.net = s.net ∧ SameBytes s u := by
  obtain ⟨hfilled, hx0⟩ := engFill_filled hpage hx
  have hread := engRead_held hpage hx0 hline
  rw [(engPiece_got hx0 hline).1 hgot] at hread
  have hstep := (engStep_copy hn hsrc hdst hpage hx).1 _ hread
  rw [hstep]
  exact ⟨hfilled.jobs.trans h.sole, hfilled.net, hfilled.bytes⟩

/-- A line's bytes that are not poisoned are delivered, with the line's time where its region is COH (R117). -/
theorem copy_delivers (hsp : j.card.sp 0 ≠ j.card.sp 1) {l : Line} {g : Got} (hline : j.line? (lineOf pa) key = some l)
    (hgot : l.got = some g) (hpoison : g.poison = 0) :
    let u := s.engStep k j ⟨some ⟨false, src⟩, ⟨true, dst⟩, n⟩
    SameBytes s u ∧ Delivers s u k j dst ((g.bytes.drop (pa % 256)).take n) (if st = 0 then maxD j.jt g.wts else j.jt) := by
  obtain ⟨hfilled, hx0⟩ := engFill_filled hpage hx
  have hread := engRead_held hpage hx0 hline
  have hclean : ¬ ((g.poison &&& sectorSet (pa % 256) n) != 0) = true := by simp [hpoison]
  rw [(engPiece_got hx0 hline).2 g hgot, if_neg hclean] at hread
  have hstep := (engStep_copy hn hsrc hdst hpage hx).2 _ _ _ hread
  have htime : maxD j.jt (if st = 0 then g.wts else 0) = if st = 0 then maxD j.jt g.wts else j.jt := by
    split
    · rfl
    · exact maxD_of_zero j.jt
  rw [copyBytes_apart hsp, htime] at hstep
  rw [hstep]
  exact filled_delivers hfilled h.sole _ _ _

/-- Poisoned data ends the job (R19, R111). -/
theorem copy_poisoned {l : Line} {g : Got} (hline : j.line? (lineOf pa) key = some l) (hgot : l.got = some g)
    (hpoison : g.poison.getLsbD (pa / 64 % 4) = true) :
    let u := s.engStep k j ⟨some ⟨false, src⟩, ⟨true, dst⟩, n⟩
    (u.cluster k).jobs = [{ j with fault := some 0x0C }] ∧ SameBytes s u := by
  obtain ⟨hfilled, hx0⟩ := engFill_filled hpage hx
  have hmet := poison_met hn (Nat.mod_lt pa (by decide : 0 < 256)) (show g.poison.getLsbD (pa % 256 / 64) = true by
    rwa [show pa % 256 / 64 = pa / 64 % 4 by omega])
  have hread := engRead_held hpage hx0 hline
  rw [(engPiece_got hx0 hline).2 g hgot, if_pos hmet] at hread
  have hstep := (engStep_copy hn hsrc hdst hpage hx).1 _ hread
  rw [hstep]
  exact ⟨jobs_modJob_sole (hfilled.jobs.trans h.sole) _, sameBytes_trans hfilled.bytes fun _ _ => rfl⟩

end

end

end Sys2Proof.Laws
end

