-- ==== Sys2Proof/Proofs/JobEnds.lean ====
section
/-! SUPPORT. A job's end (O48; R107 to R111, R114): what stands in its cluster's table, its group and its sync word. -/

namespace Sys2Proof.Laws

open Sys2Proof.Machine Sys2Proof.Claims

/-! ## Way masks that take effect -/

/-- Way masks have taken effect (R78): clusters, hub, groups and allocations are as they were. -/
structure MasksApplied (s u : State) : Prop where
  clusters : u.clusters = s.clusters
  hub      : u.hub = s.hub
  slots    : ∀ n, (u.core n).slots = (s.core n).slots
  allocs   : ∀ n, (u.core n).allocs = (s.core n).allocs

theorem MasksApplied.refl (s : State) : MasksApplied s s := ⟨rfl, rfl, fun _ => rfl, fun _ => rfl⟩

theorem MasksApplied.trans {s u v : State} (h : MasksApplied s u) (k : MasksApplied u v) : MasksApplied s v where
  clusters := k.clusters.trans h.clusters
  hub := k.hub.trans h.hub
  slots n := (k.slots n).trans (h.slots n)
  allocs n := (k.allocs n).trans (h.allocs n)

theorem masksApplied_applyTarget (s : State) (c : Nat) : MasksApplied s (s.applyTarget c) := by
  unfold State.applyTarget
  dsimp only
  split
  · exact .refl s
  · refine ⟨rfl, rfl, fun n => ?_, fun n => ?_⟩
    all_goals
      by_cases hn : n = c
      · rw [hn, core_setCore]
      · rw [core_setCore_other _ _ hn]

theorem masksApplied_all (f : Nat → Nat) (l : List Nat) (s : State) : MasksApplied s (l.foldl (fun u c => u.applyTarget (f c)) s) :=
  List.foldlRecOn (motive := MasksApplied s) l _ (.refl s) fun u h c _ => h.trans (masksApplied_applyTarget u (f c))

section

variable {s u : State} (h : MasksApplied s u)

include h

theorem MasksApplied.cluster (k : Nat) : u.cluster k = s.cluster k := by
  unfold State.cluster
  rw [h.clusters]

theorem MasksApplied.group (c g : Nat) : u.group? c g = s.group? c g := by
  unfold State.group?
  rw [h.slots]

end

/-! ## The job's entry goes -/

section

variable {s : State} {k : Nat} {j : Job} {rest : List Job} {st : BitVec 16}

/-- The state in which a job has left its cluster's table and its group has taken its time. -/
def entryGone (s : State) (k : Nat) (j : Job) (st : BitVec 16) : State :=
  (s.modCluster k (fun x => { x with
    jobs := (x.jobs.filter (fun y => y.ticket != j.ticket)).map (·.after j)
    past := ({ ticket := j.ticket, ctx := j.ctx, status := st, time := j.jt } :: x.past).filter (fun e =>
      (x.ticket - e.ticket).toNat ≤ 256) })).modGroup j.core j.slot fun g => { g with jobTime := maxD g.jobTime j.jt }

theorem endJob_eq (s : State) (k : Nat) (j : Job) (st : BitVec 16) : s.endJob k j st =
    (List.range 16).foldl (fun u c => u.applyTarget (16 * k + c))
      (if j.card.op = 2 then (entryGone s k j st).endShares j else entryGone s k j st) := rfl

theorem cluster_entryGone : (entryGone s k j st).cluster k = { s.cluster k with
    jobs := ((s.cluster k).jobs.filter (fun y => y.ticket != j.ticket)).map (·.after j)
    past := (⟨j.ticket, j.ctx, st, j.jt⟩ :: (s.cluster k).past).filter fun e => ((s.cluster k).ticket - e.ticket).toNat ≤ 256 } := by
  unfold entryGone
  rw [State.cluster, (modGroup_same _ _ _ _).clusters]
  exact cluster_modCluster _ _ _

theorem hub_entryGone : (entryGone s k j st).hub = s.hub := (modGroup_same _ _ _ _).hub

theorem group_entryGone : (entryGone s k j st).group? j.core j.slot =
    (s.group? j.core j.slot).map fun g => { g with jobTime := maxD g.jobTime j.jt } := group_modGroup _ _ _ _

theorem allocs_entryGone (n : Nat) : ((entryGone s k j st).core n).allocs = (s.core n).allocs := by
  unfold entryGone State.modGroup
  split
  · rw [core_setGroup]
    rfl
  · rfl

/-- The bytes of earlier collectives that a job of a communicator still has to pass over go down as one ends (R105). -/
def shareless (j x : Job) : Job :=
  if x.card.op == 2 && x.card.comm == j.card.comm then
    { x with ahead := x.ahead.map fun e => if tget 0 j.ahead e.1 < e.2 then (e.1, e.2 - j.part e.1) else e }
  else x

theorem cluster_endShares (s : State) (j : Job) (k : Nat) :
    (s.endShares j).cluster k = { s.cluster k with jobs := (s.cluster k).jobs.map (shareless j) } :=
  tget_mapVals s.clusters (fun x => { x with jobs := x.jobs.map (shareless j) }) Cluster.reset k rfl

theorem core_endShares (s : State) (j : Job) (n : Nat) : (s.endShares j).core n = s.core n := rfl

theorem group_endShares (s : State) (j : Job) (c g : Nat) : (s.endShares j).group? c g = s.group? c g := rfl

/-- A later job loses its edge to one that has ended, and follows its time (R109). -/
theorem after_eq (x j : Job) : x.after j = { x with
    edges := x.edges.filter (· != j.ticket), jt := if j.ticket ∈ x.edges then maxD x.jt j.jt else x.jt } := by
  unfold Job.after
  by_cases hm : j.ticket ∈ x.edges
  · rw [if_pos (List.contains_iff_mem.2 hm), if_pos hm]
  · have hkept : x.edges.filter (· != j.ticket) = x.edges :=
      List.filter_eq_self.2 fun e he => bne_iff_ne.2 fun h => hm (h ▸ he)
    rw [if_neg (fun h => hm (List.contains_iff_mem.1 h)), if_neg hm, hkept]

/-- What a job's end leaves: its cluster's table without it, its status and time among the ended jobs, and its time in its group. -/
def Gone (s u : State) (k : Nat) (j : Job) (rest : List Job) (st : BitVec 16) : Prop :=
  (u.cluster k).jobs.map (fun y => { y with ahead := [] }) =
    rest.map (fun y => { y with
      edges := y.edges.filter (· != j.ticket), jt := if j.ticket ∈ y.edges then maxD y.jt j.jt else y.jt, ahead := [] }) ∧
  (j.card.op ≠ 2 → (u.cluster k).jobs.map (·.ahead) = rest.map (·.ahead) ∧ u.hub.shares = s.hub.shares) ∧
  (u.cluster k).past.head? = some ⟨j.ticket, j.ctx, st, j.jt⟩ ∧
  ∀ g, s.group? j.core j.slot = some g → ∃ h, u.group? j.core j.slot = some h ∧ h.jobTime = maxD g.jobTime j.jt

theorem gone_of_same {u v : State} (hu : Gone s u k j rest st) (hjobs : (v.cluster k).jobs = (u.cluster k).jobs)
    (hpast : (v.cluster k).past = (u.cluster k).past) (hhub : v.hub = u.hub)
    (hgroup : v.group? j.core j.slot = u.group? j.core j.slot) : Gone s v k j rest st := by
  unfold Gone
  rw [hjobs, hpast, hhub, hgroup]
  exact hu

section

variable (hjobs : (s.cluster k).jobs = j :: rest) (hrest : ∀ y ∈ rest, y.ticket ≠ j.ticket)
  (hlate : ((s.cluster k).ticket - j.ticket).toNat ≤ 256)

include hjobs hrest in
theorem jobs_entryGone : ((entryGone s k j st).cluster k).jobs = rest.map (·.after j) := by
  have hothers : rest.filter (fun y => y.ticket != j.ticket) = rest :=
    List.filter_eq_self.2 fun y hy => bne_iff_ne.2 (hrest y hy)
  rw [cluster_entryGone]
  dsimp only
  rw [hjobs, List.filter_cons_of_neg (by simp), hothers]

include hlate in
theorem past_entryGone : ((entryGone s k j st).cluster k).past.head? = some ⟨j.ticket, j.ctx, st, j.jt⟩ := by
  rw [cluster_entryGone]
  dsimp only
  rw [List.filter_cons_of_pos (by simpa using hlate)]
  rfl

include hjobs hrest hlate

theorem entryGone_gone : Gone s (entryGone s k j st) k j rest st := by
  refine ⟨?_, fun _ => ⟨?_, by rw [hub_entryGone]⟩, past_entryGone hlate, fun g hg => ⟨_, by rw [group_entryGone, hg]; rfl, rfl⟩⟩
  · rw [jobs_entryGone hjobs hrest, List.map_map]
    exact List.map_congr_left fun y _ => by rw [Function.comp_apply, after_eq]
  · rw [jobs_entryGone hjobs hrest, List.map_map]
    exact List.map_congr_left fun y _ => by rw [Function.comp_apply, after_eq]

/-- A collective's end changes no more of its communicator's other jobs than what they pass over. -/
theorem endShares_gone (hop : j.card.op = 2) : Gone s ((entryGone s k j st).endShares j) k j rest st := by
  obtain ⟨htable, -, hpast, hgroup⟩ := entryGone_gone (st := st) hjobs hrest hlate
  have hless : ∀ x : Job, { shareless j x with ahead := [] } = { x with ahead := [] } := fun x => by
    unfold shareless
    split <;> rfl
  refine ⟨?_, fun h => absurd hop h, by rw [cluster_endShares]; exact hpast, by rw [group_endShares]; exact hgroup⟩
  rw [cluster_endShares, ← htable, List.map_map]
  exact List.map_congr_left fun y _ => hless y

theorem endJob_gone : Gone s (s.endJob k j st) k j rest st := by
  have hbefore : Gone s (if j.card.op = 2 then (entryGone s k j st).endShares j else entryGone s k j st) k j rest st := by
    split
    · next hop => exact endShares_gone hjobs hrest hlate hop
    · exact entryGone_gone hjobs hrest hlate
  have hmasks := masksApplied_all (16 * k + ·) (List.range 16)
    (if j.card.op = 2 then (entryGone s k j st).endShares j else entryGone s k j st)
  rw [endJob_eq]
  exact gone_of_same hbefore (congrArg Cluster.jobs (hmasks.cluster k)) (congrArg Cluster.past (hmasks.cluster k)) hmasks.hub
    (hmasks.group _ _)

end

/-- An end leaves every allocation (R74). -/
theorem spadOwned_endJob (c ctx : Nat) (sa : Word) (n : Nat) : (s.endJob k j st).spadOwned c ctx sa n = s.spadOwned c ctx sa n := by
  have hmasks := masksApplied_all (16 * k + ·) (List.range 16)
    (if j.card.op = 2 then (entryGone s k j st).endShares j else entryGone s k j st)
  have hallocs : ∀ m, ((s.endJob k j st).core m).allocs = (s.core m).allocs := fun m => by
    rw [endJob_eq, hmasks.allocs]
    split
    · rw [core_endShares]
      exact allocs_entryGone m
    · exact allocs_entryGone m
  unfold State.spadOwned Core.covers
  simp only [hallocs]

/-! ## JOB_COMPLETE and JOB_ERROR_END -/

/-- The state that a job's failed word is marked in, with the job's status (R111, R114). -/
def wordFailed (u : State) (k : Nat) (j : Job) (n : Nat) (st : BitVec 16) : State :=
  (u.markFailed j.core j.card.sync).modCluster k fun x => { x with failures := tset x.failures n st }

section

variable (hjobs : (s.cluster k).jobs = j :: rest)

include hjobs

theorem exec_jobComplete : exec (.jobComplete k j.ticket.toNat) s =
    if j.started && j.fault.isNone && !j.unfinished then .next (s.endJob k j 0) else .next s := by
  show execJobComplete k j.ticket.toNat s = _
  unfold execJobComplete
  rw [find_ticket hjobs]

/-- A job with bytes to deliver, or one that has not started, does not end. -/
theorem jobComplete_waits (h : j.started = false ∨ j.done < j.total ∨ j.gaps ≠ []) : exec (.jobComplete k j.ticket.toNat) s = .next s := by
  rw [exec_jobComplete hjobs, if_neg]
  obtain h | h | h := h <;> simp [Job.unfinished, h]

theorem jobComplete_ends (hstart : j.started = true) (hfault : j.fault = none) (hdone : j.total ≤ j.done) (hgaps : j.gaps = []) :
    exec (.jobComplete k j.ticket.toNat) s = .next (s.endJob k j 0) := by
  rw [exec_jobComplete hjobs, if_pos (by simp [Job.unfinished, hstart, hfault, hgaps, hdone])]

theorem jobErrorEnd_waits (hfault : j.fault = none) : exec (.jobErrorEnd k j.ticket.toNat) s = .next s := by
  show execJobErrorEnd k j.ticket.toNat s = _
  unfold execJobErrorEnd
  simp only [find_ticket hjobs, hfault]

/-- A faulted job ends, and its sync word fails where it has one that still lies in an allocation of the context (R74, R80). -/
theorem jobErrorEnd_ends {cause : BitVec 16} (hfault : j.fault = some cause) :
    let u := s.endJob k j (0x8000 + cause)
    exec (.jobErrorEnd k j.ticket.toNat) s = .next u ∧
        (∀ c off, j.card.sync ≠ 0xFFFFFFFF → spadAt j.core j.card.sync = some (c, off) → ¬ Owned s j) ∨
      ∃ c off, spadAt j.core j.card.sync = some (c, off) ∧
        exec (.jobErrorEnd k j.ticket.toNat) s = .next (wordFailed u k j (c * 0x80000 + off) (0x8000 + cause)) := by
  have howned := spadOwned_endJob (s := s) (k := k) (j := j) (st := 0x8000 + cause) j.core j.ctx j.card.sync 8
  have hrun : exec (.jobErrorEnd k j.ticket.toNat) s = execJobErrorEnd k j.ticket.toNat s := rfl
  unfold execJobErrorEnd at hrun
  simp only [find_ticket hjobs, hfault, howned] at hrun
  rw [hrun]
  by_cases hsync : j.card.sync = 0xFFFFFFFF
  · rw [if_pos hsync]
    exact .inl ⟨rfl, fun _ _ h => absurd hsync h⟩
  · rw [if_neg hsync]
    cases hat : spadAt j.core j.card.sync with
    | none => exact .inl ⟨rfl, fun _ _ _ h => nomatch h⟩
    | some e =>
      by_cases hown : s.spadOwned j.core j.ctx j.card.sync 8 = true
      · exact .inr ⟨e.1, e.2, rfl, by rw [hown]; rfl⟩
      · exact .inl ⟨by simp [hown], fun _ _ _ _ => hown⟩

end

theorem gone_wordFailed {u : State} (n : Nat) (hu : Gone s u k j rest st) : Gone s (wordFailed u k j n st) k j rest st := by
  have hmark : (u.markFailed j.core j.card.sync).clusters = u.clusters ∧ (u.markFailed j.core j.card.sync).hub = u.hub ∧
      ∀ m, ((u.markFailed j.core j.card.sync).core m).slots = (u.core m).slots := by
    unfold State.markFailed
    split
    · exact ⟨rfl, rfl, fun _ => rfl⟩
    · next c off _ =>
      refine ⟨rfl, rfl, fun m => ?_⟩
      by_cases hm : m = c
      · rw [hm, core_modCore]
      · rw [core_modCore_other _ _ hm]
  obtain ⟨hclusters, hhub, hslots⟩ := hmark
  have hcluster : (wordFailed u k j n st).cluster k = { u.cluster k with failures := tset (u.cluster k).failures n st } := by
    unfold wordFailed
    rw [cluster_modCluster, State.cluster, hclusters]
    rfl
  refine gone_of_same hu (by rw [hcluster]) (by rw [hcluster]) hhub ?_
  show tfind ((u.markFailed j.core j.card.sync).core j.core).slots j.slot = _
  rw [hslots]
  rfl

theorem failed_wordFailed {u : State} {c off : Nat} (hat : spadAt j.core j.card.sync = some (c, off)) :
    ((wordFailed u k j (c * 0x80000 + off) st).core c).failed.contains off = true ∧
      tfind ((wordFailed u k j (c * 0x80000 + off) st).cluster k).failures (c * 0x80000 + off) = some st := by
  unfold wordFailed
  rw [cluster_modCluster, tfind_tset_self, modCluster_core]
  refine ⟨?_, rfl⟩
  unfold State.markFailed
  rw [hat, core_modCore]
  dsimp only
  split
  · assumption
  · simp

end

/-! ## The obligation -/

/-- Settles O48: a part for each event, a fill and a copy by the units that the lemmas above take apart, and an end by what it leaves of
the table. -/
theorem engineEvents : Obligations.EngineEvents := by
  refine ⟨?_, ?_, ?_, fun _ _ _ hjobs hidle => unitDelivery_idles hjobs hidle, ?_⟩
  · intro s k old j hjobs hold hstart
    dsimp only
    rw [← readyOn_iff hstart]
    exact ⟨fun hwait => jobStart_waits hjobs (fun y hy => (hold y hy).2) (Bool.eq_false_of_not_eq_true hwait),
      fun hready hcalm => jobStart_starts hjobs hold hcalm hready⟩
  · intro s k j h hop hsp
    obtain ⟨hn, hrun⟩ := fill_unit h hop hsp
    refine ⟨fun cause hbad => ⟨_, hrun, ?_⟩, fun hgood => ⟨_, hrun, ?_⟩⟩
    · rw [engStep_fill_bad hn hbad]
      exact ⟨jobs_modJob_sole h.sole _, fun _ => rfl⟩
    · rw [engStep_fill hn hgood]
      exact engDeliver_delivers h.sole _ _
  · intro s k pa key st j h hop h0 h1 r x n src dst hlen hpage hsrc hdst hx _
    obtain ⟨hn, hrun⟩ := copy_unit h hop h0 h1 hlen
    refine ⟨fun hline => ⟨_, hrun, copy_asks h hn hsrc hdst hpage hx hline⟩,
      fun l hline hgot => ⟨_, hrun, copy_waits h hn hsrc hdst hpage hx hline hgot⟩,
      fun l g hline hgot _ => ⟨fun hclean => ⟨_, hrun, copy_delivers h hn hsrc hdst hpage hx (by simp [h0, h1]) hline hgot hclean⟩,
        fun hpoison _ => ⟨_, hrun, copy_poisoned h hn hsrc hdst hpage hx hline hgot hpoison⟩⟩⟩
  · intro s k j rest hjobs hrest hlate
    refine ⟨fun hstart hfault hdone hgaps => ⟨_, jobComplete_ends hjobs hstart hfault hdone hgaps, endJob_gone hjobs hrest hlate⟩,
      fun h => jobComplete_waits hjobs h, fun cause hfault => ?_, fun hfault => jobErrorEnd_waits hjobs hfault⟩
    have hgone : Gone s (s.endJob k j (0x8000 + cause)) k j rest (0x8000 + cause) := endJob_gone hjobs hrest hlate
    obtain ⟨hrun, hnone⟩ | ⟨c, off, hat, hrun⟩ := jobErrorEnd_ends hjobs hfault
    · exact ⟨_, hrun, hgone, fun c off hsync hat hown => absurd hown (hnone c off hsync hat)⟩
    · refine ⟨_, hrun, gone_wordFailed _ hgone, fun c' off' _ hat' _ => ?_⟩
      rw [hat] at hat'
      cases hat'
      exact failed_wordFailed hat

end Sys2Proof.Laws
end

