-- ==== Sys2Proof/Proofs/CoreSteps.lean ====
section
/-! SUPPORT. What a step of a core's accesses leaves as it was, and the operations that its loads, stores and answers share: a TLB filled, a
line put first in the L1, an access that ends (R42, R70, R71, R127). -/

namespace Sys2Proof.Laws

open Sys2Proof.Machine Sys2Proof.Claims

/-! ## The frame of a core's step -/

/-- A step of a core's accesses may change cores, TLBs, what is on its way and what contexts are charged with; memory, the map of
addresses, keys, links, vaults and the wave under way stay. -/
structure CoreStep (s u : State) : Prop where
  state : u = { s with
    cores := u.cores
    clusters := u.clusters
    dies := u.dies
    net := u.net
    seq := u.seq
    hub := { s.hub with contexts := u.hub.contexts, saves := u.hub.saves, resumes := u.hub.resumes } }

theorem CoreStep.refl (s : State) : CoreStep s s := ⟨rfl⟩

theorem CoreStep.trans {s u v : State} (h : CoreStep s u) (k : CoreStep u v) : CoreStep s v := by
  have hk := k.state
  rw [h.state] at hk
  exact ⟨hk⟩

theorem coreStep_foldl {β : Type} {f : State → β → State} (hf : ∀ s b, CoreStep s (f s b)) (l : List β) (s : State) :
    CoreStep s (l.foldl f s) := by
  induction l generalizing s with
  | nil => exact .refl s
  | cons b l ih => exact (hf s b).trans (ih _)

section

variable {s u : State} (h : CoreStep s u)

include h

theorem CoreStep.memory : u.memory = s.memory := by rw [h.state]

theorem CoreStep.cur : u.cur = s.cur := by rw [h.state]

theorem CoreStep.vaults : u.vaults = s.vaults := by rw [h.state]

theorem CoreStep.bytes : SameBytes s u :=
  sameBytes_of_memory h.memory (by rw [h.state]) (by rw [h.state]) (by rw [h.state])

theorem CoreStep.cellOf (pa : Nat) : u.cellOf pa = s.cellOf pa := cellOf_of_map (by rw [h.state]) (by rw [h.state]) pa

theorem CoreStep.linkDown (pa : Nat) : u.linkDown pa = s.linkDown pa := by
  unfold State.linkDown State.portDown State.portOf
  rw [h.cellOf, h.state]

theorem CoreStep.slabHeld (pa : Nat) : u.slabHeld pa = s.slabHeld pa := by
  unfold State.slabHeld
  rw [h.state]

theorem CoreStep.accCheck (c ctx : Nat) (r : Region) (e : TlbEnt) (a : Acc) : u.accCheck c ctx r e a = s.accCheck c ctx r e a := by
  unfold State.accCheck State.checkLeaf State.supervisor State.keyLoaded
  simp only [h.cellOf, h.linkDown]
  rw [h.state]

theorem CoreStep.writeBacksOpen (hnet : u.net = s.net) (c : Nat) : u.writeBacksOpen c = s.writeBacksOpen c := by
  unfold State.writeBacksOpen
  rw [hnet, h.vaults]

end

theorem coreStep_setCore (s : State) (c : Nat) (x : Core) : CoreStep s (s.setCore c x) := ⟨rfl⟩

theorem coreStep_modCore (s : State) (c : Nat) (f : Core → Core) : CoreStep s (s.modCore c f) := ⟨rfl⟩

theorem coreStep_post (s : State) (m : Msg) : CoreStep s (s.post m) := ⟨rfl⟩

theorem coreStep_drop (s : State) (m : Nat) : CoreStep s (s.drop m) := ⟨rfl⟩

theorem coreStep_modAcc (s : State) (c id : Nat) (f : Acc → Acc) : CoreStep s (s.modAcc c id f) := ⟨rfl⟩

theorem coreStep_of_cores {s u : State} (h : SameButCores s u) : CoreStep s u := by
  obtain ⟨h1, h2, h3, h4, h5, h6, h7, h8, h9, h10, h11, h12, h13⟩ := h
  cases u
  subst_vars
  exact ⟨rfl⟩

theorem coreStep_modThread (s : State) (c g t : Nat) (f : Thread → Thread) : CoreStep s (s.modThread c g t f) :=
  coreStep_of_cores (modThread_same s c g t f)

theorem coreStep_groupAsks (s : State) (c slot n : Nat) : CoreStep s (s.groupAsks c slot n) := by
  unfold State.groupAsks
  split <;> exact ⟨rfl⟩

@[simp] theorem net_groupAsks (s : State) (c slot n : Nat) : (s.groupAsks c slot n).net = s.net := by
  unfold State.groupAsks
  split <;> rfl

@[simp] theorem seq_groupAsks (s : State) (c slot n : Nat) : (s.groupAsks c slot n).seq = s.seq := by
  unfold State.groupAsks
  split <;> rfl

@[simp] theorem cores_groupAsks (s : State) (c slot n : Nat) : (s.groupAsks c slot n).cores = s.cores := by
  unfold State.groupAsks
  split <;> rfl

theorem core_groupAsks (s : State) (c slot n c' : Nat) : (s.groupAsks c slot n).core c' = s.core c' := by
  rw [State.core, cores_groupAsks, State.core]

/-! ## Threads where no group changes -/

theorem SameThreads.trans {s u v : State} (h : SameThreads s u) (k : SameThreads u v) : SameThreads s v :=
  fun c g t => (k c g t).trans (h c g t)

theorem threads_modCore (s : State) (c : Nat) {f : Core → Core} (hf : ∀ k, (f k).slots = k.slots) : SameThreads s (s.modCore c f) := by
  intro c' g t
  rw [State.thread?, group_modCore_slots s c hf]
  rfl

/-- A core changed by two functions that agree on it. -/
theorem modCore_congr {s : State} {c : Nat} {f f' : Core → Core} (h : f (s.core c) = f' (s.core c)) : s.modCore c f = s.modCore c f' := by
  rw [State.modCore, h, State.modCore]

/-! ## Lines of an L1 -/

theorem is_iff {x : L1Line} {pa key : Nat} : x.is pa key = true ↔ x.pa = lineOf pa ∧ x.key = key := by
  simp [L1Line.is]

theorem is_of_line {a b : Nat} (h : lineOf a = lineOf b) (x : L1Line) (key : Nat) : x.is a key = x.is b key := by
  rw [L1Line.is, h, L1Line.is]

section

variable {k : Core} {x : L1Line} {pa key : Nat}

theorem line?_of_line {a b : Nat} (h : lineOf a = lineOf b) (k : Core) (key : Nat) : k.line? a key = k.line? b key := by
  simp only [Core.line?, is_of_line h]

theorem line?_of_l1 {k' : Core} (h : k'.l1 = k.l1) (pa key : Nat) : k'.line? pa key = k.line? pa key := by
  rw [Core.line?, h, Core.line?]

theorem line?_is (h : k.line? pa key = some x) : x.is pa key = true := List.find?_some (p := fun y => L1Line.is y pa key) h

theorem line?_mem (h : k.line? pa key = some x) : x ∈ k.l1 := List.mem_of_find?_eq_some h

theorem line?_putLine (k : Core) (h : x.is pa key = true) : (k.putLine x).line? pa key = some x :=
  List.find?_cons_of_pos (p := fun y => L1Line.is y pa key) h

/-- A line of an address names every line of the same. -/
theorem is_same (h : x.is pa key = true) (y : L1Line) (hp : lineOf x.pa = x.pa) : y.is x.pa x.key = y.is pa key := by
  obtain ⟨hpa, rfl⟩ := is_iff.1 h
  exact is_of_line (hp.trans hpa) y x.key

theorem lineOf_of_is (h : x.is pa key = true) : lineOf x.pa = x.pa := by
  rw [(is_iff.1 h).1, lineOf_lineOf]

theorem line?_dropLine (k : Core) (h : x.is pa key = true) : (k.dropLine x).line? pa key = none := by
  simp only [Core.line?, Core.dropLine, List.find?_eq_none, List.mem_filter, is_same h _ (lineOf_of_is h)]
  rintro y ⟨-, hy⟩
  simpa using hy

/-- A line's lookup after every line is changed to one of the same address. -/
theorem line?_map {f : L1Line → L1Line} (hf : ∀ y, (f y).is pa key = y.is pa key) (h : k.line? pa key = some x) :
    ({ k with l1 := k.l1.map f } : Core).line? pa key = some (f x) := by
  have hcomp : (fun y => L1Line.is y pa key) ∘ f = fun y => L1Line.is y pa key := funext hf
  rw [Core.line?] at h
  rw [Core.line?, List.find?_map, hcomp, h]
  rfl

end

/-- The core with the line of an address put first, where it holds one (R70). -/
def touched (k : Core) (pa key : Nat) : Core :=
  match k.line? pa key with
  | some x => k.putLine x
  | none => k

theorem touched_eq (k : Core) (pa key : Nat) : touched k pa key = { k with l1 := (touched k pa key).l1 } := by
  unfold touched
  split <;> rfl

theorem line?_touched (k : Core) (pa key : Nat) : (touched k pa key).line? pa key = k.line? pa key := by
  unfold touched
  split
  · next x h => rw [h, line?_putLine k (line?_is h)]
  · rfl

theorem core_touch (s : State) (c pa key : Nat) : (s.touch c pa key).core c = touched (s.core c) pa key := by
  unfold State.touch touched
  cases (s.core c).line? pa key with
  | some x => exact core_modCore _ _ _
  | none => rfl

theorem coreStep_touch (s : State) (c pa key : Nat) : CoreStep s (s.touch c pa key) := by
  unfold State.touch
  split
  · exact coreStep_modCore _ _ _
  · exact .refl s

theorem threads_touch (s : State) (c pa key : Nat) : SameThreads s (s.touch c pa key) := by
  unfold State.touch
  split
  · exact threads_modCore s c fun _ => rfl
  · exact fun _ _ _ => rfl

@[simp] theorem net_touch (s : State) (c pa key : Nat) : (s.touch c pa key).net = s.net := by
  unfold State.touch
  split <;> rfl

/-! ## TLBs -/

theorem coreStep_tlbFill (s : State) (c n : Nat) (e : TlbEnt) : CoreStep s (s.tlbFill c n e) := by
  unfold State.tlbFill
  split <;> split <;> split <;> exact ⟨rfl⟩

@[simp] theorem hub_tlbFill (s : State) (c n : Nat) (e : TlbEnt) : (s.tlbFill c n e).hub = s.hub := by
  unfold State.tlbFill
  split <;> split <;> split <;> rfl

@[simp] theorem net_tlbFill (s : State) (c n : Nat) (e : TlbEnt) : (s.tlbFill c n e).net = s.net := by
  unfold State.tlbFill
  split <;> split <;> split <;> rfl

/-- A fill of TLBs changes of its core the TLB alone. -/
theorem core_tlbFill (s : State) (c n : Nat) (e : TlbEnt) :
    (s.tlbFill c n e).core c = { s.core c with tlb := ((s.tlbFill c n e).core c).tlb } := by
  unfold State.tlbFill
  by_cases h2 : n < 2
  · simp [h2, show n < 3 by omega, show n < 4 by omega]
  · by_cases h3 : n < 3 <;> by_cases h4 : n < 4 <;> simp [h2, h3, h4]

theorem threads_tlbFill (s : State) (c n : Nat) (e : TlbEnt) : SameThreads s (s.tlbFill c n e) := by
  have hcore : SameThreads s (if n < 2 then s else s.modCore c fun k => { k with tlb := tlbPut1 k.tlb e }) := by
    split
    · exact fun _ _ _ => rfl
    · exact threads_modCore s c fun _ => rfl
  refine hcore.trans ?_
  unfold State.tlbFill
  intro c' g t
  dsimp only
  generalize (if n < 2 then s else s.modCore c fun k => { k with tlb := tlbPut1 k.tlb e }) = s1
  split <;> split <;> rfl

/-! ## The end of an access -/

section

variable (s : State) (c : Nat) (a : Acc) (bs : List Byte)

theorem coreStep_finish : CoreStep s (s.finish c a bs) := by
  unfold State.finish
  dsimp only
  split
  · exact coreStep_modCore _ _ _
  · exact (coreStep_modCore _ _ _).trans (coreStep_modThread _ _ _ _ _)

@[simp] theorem net_finish : (s.finish c a bs).net = s.net := by
  unfold State.finish
  dsimp only
  split
  · rfl
  · exact (modThread_same _ _ _ _ _).net

theorem core_finish : (s.finish c a bs).core c = { s.core c with
    accs := (s.core c).accs.filter (·.id != a.id)
    slots := ((s.finish c a bs).core c).slots } := by
  have hremove : (s.removeAcc c a.id).core c = { s.core c with accs := (s.core c).accs.filter (·.id != a.id) } := core_modCore _ _ _
  unfold State.finish
  dsimp only
  split
  · rw [hremove]
  · rw [core_modThread, hremove]

variable {s c a} {th : Thread}

theorem thread_finish (hcount : a.count ≠ 0) (hth : s.thread? c a.slot a.tid = some th) :
    (s.finish c a bs).thread? c a.slot a.tid = some (th.fillAll a.dest (loadWords a.size a.sext bs)) := by
  have hsame : (s.removeAcc c a.id).thread? c a.slot a.tid = s.thread? c a.slot a.tid :=
    threads_modCore s c (f := fun k => { k with accs := k.accs.filter (·.id != a.id) }) (fun _ => rfl) _ _ _
  unfold State.finish
  dsimp only
  rw [if_neg hcount, thread_modThread, hsame, hth]
  rfl

/-- The one access of a core ends, and its thread's registers have its words. -/
theorem fills_finish (honly : ∃ b, (s.core c).accs = [b] ∧ b.id = a.id) (hcount : a.count ≠ 0)
    (hth : s.thread? c a.slot a.tid = some th) : Fills (s.finish c a bs) c a th bs := by
  obtain ⟨b, haccs, hid⟩ := honly
  refine ⟨?_, thread_finish bs hcount hth⟩
  rw [core_finish, haccs]
  simp [hid]

end

/-! ## A load that completes -/

section

variable {s : State} {c : Nat} {a : Acc} {g : Got} {th : Thread}

/-- A load ends with a copy of its line, which is then the most recently used (R70, R127). -/
def loaded (s : State) (c : Nat) (a : Acc) (g : Got) : State := (s.touch c a.pa a.key).finish c a (a.slice g.bytes)

theorem finishLoad_clean (hpoison : g.poison.getLsbD a.sector = false) (hlink : s.linkDown a.pa = false) :
    s.finishLoad c a g = loaded s c a g := by
  rw [State.finishLoad, hpoison, hlink]
  rfl

variable (s c a g)

theorem coreStep_loaded : CoreStep s (loaded s c a g) := (coreStep_touch s c _ _).trans (coreStep_finish _ c a _)

theorem net_loaded : (loaded s c a g).net = s.net := by
  rw [loaded, net_finish, net_touch]

theorem core_loaded : (loaded s c a g).core c = { s.core c with
    l1 := (touched (s.core c) a.pa a.key).l1
    accs := (s.core c).accs.filter (·.id != a.id)
    slots := ((loaded s c a g).core c).slots } := by
  rw [loaded, core_finish, core_touch, touched_eq]

theorem line_loaded (pa key : Nat) (h : lineOf a.pa = lineOf pa) (hkey : a.key = key) :
    ((loaded s c a g).core c).line? pa key = (s.core c).line? pa key := by
  rw [core_loaded, ← line?_of_line h, ← line?_of_line h, ← hkey]
  exact (line?_of_l1 (k' := _) (k := touched (s.core c) a.pa a.key) rfl a.pa a.key).trans (line?_touched _ _ _)

variable {s c a g}

theorem fills_loaded (honly : ∃ b, (s.core c).accs = [b] ∧ b.id = a.id) (hcount : a.count ≠ 0)
    (hth : s.thread? c a.slot a.tid = some th) : Fills (loaded s c a g) c a th (ofLine a g.bytes) := by
  refine fills_finish _ ?_ hcount ((threads_touch s c _ _ _ _ _).trans hth)
  rw [core_touch, touched_eq]
  exact honly

end

/-! ## The one access of a core -/

section

variable {u : State} {c : Nat} {b : Acc}

theorem progress_idle (h : (u.core c).accs = []) : u.progress c = u := by
  simp only [State.progress, h, List.map_nil, List.foldl_nil, State.advanceAll]

theorem progress_one {v : State} {b' : Acc} (honly : (u.core c).accs = [b]) (ht : u.translateAcc c b.id = v) (hv : (v.core c).accs = [b']) :
    u.progress c = v.advance c b'.id := by
  simp only [State.progress, honly, List.map_cons, List.map_nil, List.foldl_cons, List.foldl_nil, ht, hv, State.advanceAll,
    Bool.false_and, Bool.false_eq_true, if_false]

theorem translateAcc_other {id : Nat} (hacc : u.acc? c id = some b) (hphase : b.phase ≠ .logged) : u.translateAcc c id = u := by
  unfold State.translateAcc
  simp [hacc, hphase]

/-- An access that is past its lookup does what it can. -/
theorem progress_under_way (honly : (u.core c).accs = [b]) (hphase : b.phase ≠ .logged) : u.progress c = u.advance c b.id :=
  progress_one honly (translateAcc_other (acc_of_only honly) hphase) honly

/-- An access that has come to a phase. -/
def inPhase (p : Phase) (b : Acc) : Acc := { b with phase := p }

/-! ## A logged access whose page is cached -/

/-- An access translated by a cached entry. -/
def onward (r : Region) (e : TlbEnt) (b : Acc) : Acc :=
  { b with phase := .ready, log := none, replay := false, pa := e.pa r b.va, key := e.key, state := r.state }

/-- The one access of a core is to look its page up, and a TLB holds the page, which admits it (R39, R42). -/
structure Hits (u : State) (c : Nat) (b : Acc) (g : Group) (e : TlbEnt) : Prop where
  only    : (u.core c).accs = [b]
  logged  : b.phase = .logged
  group   : u.group? c b.slot = some g
  free    : u.regionHeld g.ctx b = false
  loud    : b.quiet = false
  mapped  : regionFault (u.regionFor g.ctx b.va) c b.va = none
  entry   : ((u.core c).logFor b).isSome = true
  cached  : u.tlbLookup c g.ctx b.va = some e
  open_   : u.slabHeld (e.pa (u.regionFor g.ctx b.va) b.va) = false
  admits  : u.accCheck c g.ctx (u.regionFor g.ctx b.va) e b = none
  dirty   : b.code = 0 ∨ e.d = true
  memory  : isHub (e.pa (u.regionFor g.ctx b.va) b.va) = false

/-- The TLBs below the level that hit are filled, and the access is translated. -/
def reached (u : State) (c : Nat) (b : Acc) (g : Group) (e : TlbEnt) : State :=
  (u.tlbFill c (u.tlbLevel c g.ctx b.va) e).modCore c fun k => { k with accs := [onward (u.regionFor g.ctx b.va) e b] }

variable {g : Group} {e : TlbEnt}

theorem coreStep_reached (u : State) (c : Nat) (b : Acc) (g : Group) (e : TlbEnt) : CoreStep u (reached u c b g e) :=
  (coreStep_tlbFill u c _ e).trans (coreStep_modCore _ _ _)

theorem net_reached (u : State) (c : Nat) (b : Acc) (g : Group) (e : TlbEnt) : (reached u c b g e).net = u.net := net_tlbFill u c _ e

theorem threads_reached (u : State) (c : Nat) (b : Acc) (g : Group) (e : TlbEnt) : SameThreads u (reached u c b g e) :=
  (threads_tlbFill u c _ e).trans (threads_modCore _ c fun _ => rfl)

theorem core_reached (u : State) (c : Nat) (b : Acc) (g : Group) (e : TlbEnt) : (reached u c b g e).core c = { u.core c with
    tlb := ((reached u c b g e).core c).tlb
    accs := [onward (u.regionFor g.ctx b.va) e b] } := by
  rw [reached, core_modCore, core_tlbFill]

theorem translateAcc_hits (h : Hits u c b g e) : u.translateAcc c b.id = reached u c b g e := by
  have haccs : ((u.tlbFill c (u.tlbLevel c g.ctx b.va) e).core c).accs = [b] := by rw [core_tlbFill, h.only]
  have hentry : ((u.core c).logFor b).isNone = false := by simpa using h.entry
  have hcode : (b.code != 0 && !e.d) = false := by
    obtain hc | hd := h.dirty
    · simp [hc]
    · simp [hd]
  have hstep := coreStep_tlbFill u c (u.tlbLevel c g.ctx b.va) e
  unfold State.translateAcc
  simp only [acc_of_only h.only, h.logged, h.group, h.free, h.loud, h.mapped, h.cached, hentry, hstep.slabHeld, h.open_, hstep.accCheck,
    h.admits, hcode, bne_self_eq_false, Bool.and_false, Bool.false_eq_true, if_false]
  split
  · exact modCore_congr (by simp [haccs, onward])
  · exact modCore_congr (by simp [haccs, modAccs, onward])

theorem progress_hits (h : Hits u c b g e) : u.progress c = (reached u c b g e).advance c b.id :=
  progress_one h.only (translateAcc_hits h) (b' := onward (u.regionFor g.ctx b.va) e b) (by rw [core_reached])

/-- The link to the page of an access that is let through is up (R28). -/
theorem Hits.linkDown (h : Hits u c b g e) : u.linkDown (e.pa (u.regionFor g.ctx b.va) b.va) = false := by
  refine linkDown_of_checkLeaf (c := c) (acc := b.code) (priv := b.priv) ?_ h.memory
  have hcheck := h.admits
  unfold State.accCheck at hcheck
  split at hcheck
  · cases hcheck
  · assumption

/-! ## What a translated access does -/

theorem advance_load (honly : (u.core c).accs = [b]) (hlink : u.linkDown b.pa = false) (hphase : b.phase = .ready) (hkind : b.kind = .load) :
    u.advance c b.id = u.load c b := by
  unfold State.advance
  simp [acc_of_only honly, hlink, hphase, hkind]

theorem advance_store (honly : (u.core c).accs = [b]) (hlink : u.linkDown b.pa = false) (hphase : b.phase = .ready)
    (hkind : b.kind = .store) : u.advance c b.id = u.store c b := by
  unfold State.advance
  simp [acc_of_only honly, hlink, hphase, hkind]

theorem advance_arrived (honly : (u.core c).accs = [b]) (hlink : u.linkDown b.pa = false) (hphase : b.phase = .arrived) :
    u.advance c b.id = u.cohLoad c b := by
  unfold State.advance
  simp [acc_of_only honly, hlink, hphase]

theorem advance_owned {x : L1Line} (honly : (u.core c).accs = [b]) (hlink : u.linkDown b.pa = false) (hphase : b.phase = .excl)
    (hline : (u.core c).line? b.pa b.key = some x) (hexcl : x.excl = true) : u.advance c b.id = u.atomicInL1 c b x := by
  unfold State.advance
  simp [acc_of_only honly, hlink, hphase, hline, hexcl]

theorem advance_sent (honly : (u.core c).accs = [b]) (hphase : b.phase = .sent) : u.advance c b.id = u := by
  unfold State.advance
  simp [acc_of_only honly, hphase]

theorem cohBefore_only (honly : (u.core c).accs = [b]) {a : Acc} (hid : b.id = a.id) (mates : List Nat) :
    (u.core c).cohBefore a mates = false := by
  simp [Core.cohBefore, honly, hid]

/-- Outside COH the one access of a core waits for no other, and for no write-back where none is open. -/
theorem lineBusy_only (honly : (u.core c).accs = [b]) (hopen : u.writeBacksOpen c = false) :
    u.lineBusy c b = false := by
  unfold State.writeBacksOpen at hopen
  simp only [Bool.or_eq_false_iff, List.any_eq_false] at hopen
  obtain ⟨hnet, hheld⟩ := hopen
  unfold State.lineBusy
  simp only [honly, List.takeWhile_cons, bne_self_eq_false, Bool.false_eq_true, if_false, List.any_nil, List.any_cons, Bool.or_false,
    Bool.false_or, Bool.or_eq_false_iff, List.any_eq_false, Bool.and_false, List.any_eq_true, not_exists, not_and] at hheld ⊢
  refine ⟨fun m hm => ?_, fun v hv x hx m hm => ?_⟩
  · have hfree := hnet m hm
    split
    · next hwrite =>
      rw [hwrite] at hfree
      simpa using fun hc => absurd (beq_iff_eq.2 hc) hfree
    · exact Bool.false_ne_true
  · have hfree := hheld v hv x hx m hm
    split
    · next hwrite =>
      rw [hwrite] at hfree
      simpa using fun hc => absurd (beq_iff_eq.2 hc) hfree
    · exact Bool.false_ne_true

end

end Sys2Proof.Laws
end

