-- ==== Sys2Proof/Proofs/LoadAccess.lean ====
section
/-! SUPPORT. LD of a thread alone (O20, O21; R68, R70 to R72, R86, R257, R280, R283): its one access is translated, and is served by the L1
or asks for its line. -/

namespace Sys2Proof.Laws

open Sys2Proof.Machine Sys2Proof.Claims

/-! ## Registers that are emptied and filled -/

theorem put_drain_self (th : Thread) (r : Nat) (w : Word) : (th.drain r).put r w = th.put r w := by
  unfold Thread.drain Thread.put
  split <;> split <;> simp

/-- Writing a register and emptying another are independent. -/
theorem put_drain_other (th : Thread) {r k : Nat} (w : Word) (h : k ≠ r) : (th.drain k).put r w = (th.put r w).drain k := by
  unfold Thread.drain Thread.put
  by_cases hk : k < 256 <;> by_cases hr : r < 256 <;> simp only [hk, hr, if_true, if_false]
  · by_cases hm : k ∈ th.vEmpty <;> simp [hm, h]
  · have hne : k - 256 ≠ r - 256 := by omega
    by_cases hm : k - 256 ∈ th.tEmpty <;> simp [hm, hne]

theorem drainAll_succ (th : Thread) (r n : Nat) : th.drainAll r (n + 1) = (th.drain r).drainAll (r + 1) n := by
  simp only [Thread.drainAll, List.range_succ_eq_map, List.foldl_cons, List.foldl_map, Nat.add_zero, Nat.succ_eq_add_one, Nat.add_assoc,
    Nat.add_comm 1]

theorem put_drainAll (th : Thread) {r k : Nat} (n : Nat) (w : Word) (h : r < k) : (th.drainAll k n).put r w = (th.put r w).drainAll k n := by
  induction n generalizing th k with
  | zero => rfl
  | succ n ih => rw [drainAll_succ, drainAll_succ, ih _ (by omega), put_drain_other _ _ (by omega)]

/-- Registers that are written need not have been emptied. -/
theorem putAll_drainAll (th : Thread) (r : Nat) (ws : List Word) : (th.drainAll r ws.length).putAll r ws = th.putAll r ws := by
  induction ws generalizing th r with
  | nil => rfl
  | cons w ws ih => rw [List.length_cons, drainAll_succ, Thread.putAll, put_drainAll _ _ _ (by omega), put_drain_self, ih, Thread.putAll]

theorem putAll_moved (th : Thread) (r : Nat) (ws : List Word) (pc : Dword) :
    ({ th with pc := pc, wait := none } : Thread).putAll r ws = { th.putAll r ws with pc := pc, wait := none } := by
  induction ws generalizing th r with
  | nil => rfl
  | cons w ws ih =>
    have hput : ({ th with pc := pc, wait := none } : Thread).put r w = { th.put r w with pc := pc, wait := none } := by
      unfold Thread.put
      split <;> rfl
    rw [Thread.putAll, hput, ih, Thread.putAll]

@[simp] theorem putAll_newly (th : Thread) (r : Nat) (ws : List Word) : (th.putAll r ws).newly = th.newly := by
  induction ws generalizing th r with
  | nil => rfl
  | cons w ws ih =>
    rw [Thread.putAll, ih]
    unfold Thread.put
    split <;> rfl

@[simp] theorem drainAll_newly (th : Thread) (r n : Nat) : (th.drainAll r n).newly = th.newly := by
  induction n generalizing th r with
  | zero => rfl
  | succ n ih =>
    rw [drainAll_succ, ih]
    unfold Thread.drain
    split <;> rfl

/-- A thread that has moved on with its destinations empty, once they are filled (R127). -/
theorem fillAll_drained (s : State) (th : Thread) (r : Nat) (ws : List Word) :
    (after s (th.drainAll r ws.length)).fillAll r ws = after s (th.fillAll r ws) := by
  unfold Thread.fillAll after
  rw [putAll_moved, putAll_drainAll]
  simp

/-- A load fills as many registers as it names (R280). -/
theorem loadedWords_length (o : Op) (bs : List Byte) : (loadedWords o bs).length = accessRegs o := by
  obtain ⟨n, hn⟩ := accessBytes_pow o
  rw [show accessRegs o = (accessBytes o + 3) / 4 from rfl, ← loadWords_eq_loadedWords, loadWords, hn]
  match n with
  | 0 => rfl
  | 1 => rfl
  | n + 2 =>
    have h4 : 2 ^ (n + 2) = 4 * 2 ^ n := by ring
    rw [if_neg (by have := Nat.one_le_two_pow (n := n); omega), List.length_map, List.length_range]
    omega

theorem accessRegs_ne_zero (o : Op) : accessRegs o ≠ 0 := by
  obtain ⟨n, hn⟩ := accessBytes_pow o
  have := Nat.one_le_two_pow (n := n)
  rw [show accessRegs o = (accessBytes o + 3) / 4 from rfl, hn]
  omega

/-! ## The issued access is translated -/

section

variable {s : State} {i : Instr} {r : Request} {t : Nat} {L : Lane} {e : TlbEnt}

theorem coreStep_issued (s : State) (L : Lane) (a : Acc) : CoreStep s (issued s L a) := by
  rw [issued_eq]
  exact (coreStep_of_cores (drained_same s L a)).trans ⟨rfl⟩

theorem hub_issued (s : State) (L : Lane) (a : Acc) : (issued s L a).hub = s.hub := (drained_same s L a).hub

theorem regionFor_issued (s : State) (L : Lane) (a : Acc) : (issued s L a).regionFor = s.regionFor := by
  unfold State.regionFor State.regionEntry
  rw [hub_issued]

theorem tlbLookup_issued (s : State) (L : Lane) (a : Acc) (ctx : Nat) (va : Dword) :
    (issued s L a).tlbLookup L.c ctx va = s.tlbLookup L.c ctx va := by
  have hsame := drained_same s L a
  refine tlbLookup_of_levels (congrArg Hub.contexts (hub_issued s L a)) ?_ ?_ ?_
  · rw [core_issued]
  · exact congrArg (fun x => (tget Cluster.reset x (clusterOf L.c)).tlb) hsame.clusters
  · exact congrArg (fun x => (tget Die.reset x (dieOf L.c)).tlb) hsame.dies

/-- The group that issued, as it stands once its thread has moved on. -/
theorem group_issued (h : Requests s i r t L) : ∃ g, (issued s L (r.acc L)).group? L.c L.slot = some g ∧ g.ctx = L.g.ctx := by
  obtain ⟨g, hg, hctx⟩ := Option.map_eq_some_iff.1 (ctx_drained h.toAlone (r.acc L))
  exact ⟨g, by rw [State.group?, core_issued]; exact hg, hctx⟩

/-- The one access of an issued memory instruction whose page is cached. -/
theorem hits_issued (h : Requests s i r t L) (hr : Reaches s L (r.acc L) e) (ha : FreshAccess L (r.acc L)) :
    ∃ g, g.ctx = L.g.ctx ∧ Hits (issued s L (r.acc L)) L.c (Claims.placed s (r.acc L)) g e := by
  obtain ⟨g, hg, hctx⟩ := group_issued h
  have honly := issued_only h
  have hstep := coreStep_issued s L (r.acc L)
  refine ⟨g, hctx, ?_⟩
  constructor
  case only => exact honly
  case logged => exact ha.phase
  case group => exact (congrArg _ ha.slot).trans hg
  case loud => exact ha.quiet
  case free => exact regionHeld_still (congrArg Hub.contexts (hub_issued _ _ _)) rfl (hctx ▸ h.still)
  case entry =>
    simp only [Core.logFor, honly, show (Claims.placed s (r.acc L)).log = none from ha.log, List.find?_cons, Option.isSome_none,
      Bool.and_false, List.find?_nil, List.filterMap_cons, List.filterMap_nil]
    decide
  case dirty => exact hr.dirty
  all_goals rw [hctx]
  case mapped => rw [regionFor_issued]; exact h.mapped
  case cached => rw [tlbLookup_issued]; exact hr.cached
  case open_ => rw [regionFor_issued, hstep.slabHeld]; exact hr.open_
  case admits => rw [regionFor_issued, hstep.accCheck]; exact hr.admits
  case memory => rw [regionFor_issued]; exact hr.memory

/-- The issued access once it is translated. -/
def readyAcc (s : State) (L : Lane) (a : Acc) (e : TlbEnt) : Acc := inPhase .ready (translated s L a e)

/-- The issued access is translated and is about to do what it can; nothing else has happened but the move of its thread. -/
structure Served (s : State) (t : Nat) (L : Lane) (a : Acc) (e : TlbEnt) (v : State) : Prop where
  step   : CoreStep s v
  net    : v.net = s.net
  core   : v.core L.c = { s.core L.c with
    tlb := (v.core L.c).tlb
    slots := (v.core L.c).slots
    accs := [readyAcc s L a e] }
  thread : v.thread? L.c L.slot t = some (after s (L.th.drainAll a.dest a.count))
  link   : v.linkDown (readyAcc s L a e).pa = false

theorem issued_served (h : Requests s i r t L) (hr : Reaches s L (r.acc L) e) (ha : FreshAccess L (r.acc L))
    (hreplay : (r.acc L).replay = false) : ∃ v, Served s t L (r.acc L) e v ∧
      (issued s L (r.acc L)).progress L.c = v.advance L.c (readyAcc s L (r.acc L) e).id := by
  obtain ⟨g, hctx, hits⟩ := hits_issued h hr ha
  have hgo : onward ((issued s L (r.acc L)).regionFor g.ctx (Claims.placed s (r.acc L)).va) e (Claims.placed s (r.acc L)) =
      readyAcc s L (r.acc L) e := by
    rw [regionFor_issued, hctx, onward, readyAcc, inPhase, translated, ← hreplay, ← ha.log]
    rfl
  have hstep := coreStep_reached (issued s L (r.acc L)) L.c (Claims.placed s (r.acc L)) g e
  refine ⟨reached (issued s L (r.acc L)) L.c (Claims.placed s (r.acc L)) g e, ?_, progress_hits hits⟩
  constructor
  case step => exact (coreStep_issued _ _ _).trans hstep
  case net => rw [net_reached, net_issued]
  case core => rw [core_reached, hgo, core_issued]
  case thread => exact (threads_reached _ _ _ _ _ _ _ _).trans (thread_issued h.toAlone _)
  case link =>
    rw [hstep.linkDown, ← hgo]
    exact hits.linkDown

/-- A memory instruction whose access has been served: the state that the access leaves, if its thread stands there. -/
theorem exec_served {v u : State} {th : Thread} (hrow : memRow i = some r) (h : Requests s i r t L)
    (hprogress : (issued s L (r.acc L)).progress L.c = v.advance L.c (readyAcc s L (r.acc L) e).id)
    (hu : v.advance L.c (readyAcc s L (r.acc L) e).id = u) (hstep : CoreStep s u) (hth : u.thread? L.c L.slot t = some th)
    (hdue : th.due = []) : exec i s = .next u := by
  obtain ⟨hexec, hfresh⟩ := memRow_exec hrow
  rw [hu] at hprogress
  have hissue := memOp_alone h.toAlone (mk := fun L => [r.acc L]) rfl h.plain (hfresh L).slot (hfresh L).tid
    (by rw [hprogress, hstep.cur]) (by rw [hprogress]; exact hth) hdue
  rw [hexec, hissue, hprogress]

end

/-! ## A load that the L1 serves -/

theorem maxD_maxD (a b : Dword) : maxD a (maxD a b) = maxD a b := by
  unfold maxD
  split <;> simp [*]

section

variable {v : State} {c : Nat} {b : Acc} {x : L1Line}

theorem core_raiseCt (v : State) (c : Nat) (w : Dword) : (v.raiseCt c w).core c = { v.core c with ct := maxD (v.core c).ct w } :=
  core_modCore _ _ _

theorem coreStep_raiseCt (v : State) (c : Nat) (w : Dword) : CoreStep v (v.raiseCt c w) := ⟨rfl⟩

theorem threads_raiseCt (v : State) (c : Nat) (w : Dword) : SameThreads v (v.raiseCt c w) :=
  threads_modCore v c (f := fun k => { k with ct := maxD k.ct w }) fun _ => rfl

/-- A load for which nothing was fetched reads the L1's copy. -/
theorem copyFor_held (hline : (v.core c).line? b.pa b.key = some x) (hgot : b.got = none) : v.copyFor c b = some x.got := by
  rw [State.copyFor, hline, hgot]

/-- A COH load of a copy whose lease reaches far enough is performed (R86). -/
theorem cohLoad_within {g : Got} (honly : (v.core c).accs = [b]) (hcopy : v.copyFor c b = some g)
    (hlease : (maxD (v.core c).ct g.wts).toNat ≤ g.rts.toNat) (hpoison : g.poison.getLsbD b.sector = false)
    (hlink : v.linkDown b.pa = false) : v.cohLoad c b = loaded (v.raiseCt c (maxD (v.core c).ct g.wts)) c b g := by
  rw [State.cohLoad]
  dsimp only
  rw [cohBefore_only honly rfl, hcopy]
  simp only [Bool.false_eq_true, if_false, hlease, if_true]
  exact finishLoad_clean hpoison (((coreStep_raiseCt v c _).linkDown _).trans hlink)

theorem core_modAcc_only (honly : (v.core c).accs = [b]) (f : Acc → Acc) :
    (v.modAcc c b.id f).core c = { v.core c with accs := [f b] } := by
  show (v.modCore c fun k => { k with accs := modAccs b.id f k.accs }).core c = _
  rw [core_modCore, honly]
  simp [modAccs]

/-- A translated load of a line that the L1 holds and may serve: it is performed, in COH at the copy's time (R68, R86, R94). -/
theorem load_hits (honly : (v.core c).accs = [b]) (hhub : isHub b.pa = false) (hgot : b.got = none)
    (hline : (v.core c).line? b.pa b.key = some x) (hpoison : x.poison.getLsbD b.sector = false) (hlink : v.linkDown b.pa = false)
    (hopen : b.state = 0 ∨ v.writeBacksOpen c = false)
    (hlease : b.state = 0 → (maxD (v.core c).ct x.wts).toNat ≤ x.rts.toNat) :
    ∃ v' p, v.load c b = loaded v' c (inPhase p b) x.got ∧ CoreStep v v' ∧ v'.net = v.net ∧ SameThreads v v' ∧
      v'.core c = { v.core c with
        ct := if b.state = 0 then maxD (v.core c).ct x.wts else (v.core c).ct
        accs := [inPhase p b] } := by
  unfold State.load
  simp only [hhub, Bool.false_eq_true, if_false, hline, Option.isSome_some, if_true]
  by_cases hcoh : b.state = 0
  · let v1 := v.modAcc c b.id (inPhase .arrived)
    have hcore : v1.core c = { v.core c with accs := [inPhase .arrived b] } := core_modAcc_only honly _
    refine ⟨v1.raiseCt c (maxD (v.core c).ct x.wts), .arrived, ?_, (coreStep_modAcc _ _ _ _).trans (coreStep_raiseCt _ _ _), rfl,
      SameThreads.trans (thread_modAcc v c b.id _) (threads_raiseCt _ _ _), ?_⟩
    · have hcopy : v1.copyFor c (inPhase .arrived b) = some x.got := copyFor_held (by rw [hcore]; exact hline) hgot
      rw [if_pos hcoh]
      have hread := cohLoad_within (v := v1) (b := inPhase .arrived b) (by rw [hcore]) hcopy (by rw [hcore]; exact hlease hcoh)
        hpoison hlink
      rw [hcore] at hread
      exact hread
    · rw [core_raiseCt, hcore]
      simp [hcoh, maxD_maxD]
  · refine ⟨v, b.phase, ?_, .refl v, rfl, fun _ _ _ => rfl, ?_⟩
    · rw [if_neg hcoh, lineBusy_only honly (hopen.resolve_left hcoh)]
      exact finishLoad_clean (g := x.got) hpoison hlink
    · rw [if_neg hcoh, show inPhase b.phase b = b from rfl, ← honly]

end

/-- The access that LD makes (R279, R280, R283). -/
theorem acc_ld {o : Op} {r : Request} (h : memRow (.ld o) = some r) (L : Lane) : (r.acc L).kind = .load ∧ (r.acc L).size = accessBytes o ∧
    (r.acc L).count = accessRegs o ∧ (r.acc L).sext = signedLoad L.fn ∧ (r.acc L).hint = hintOf o ∧ (r.acc L).got = none ∧
    (r.acc L).replay = false ∧ r.op = o := by
  obtain rfl := Option.some.inj h
  exact ⟨rfl, rfl, rfl, rfl, rfl, rfl, rfl, rfl⟩

/-- Settles O20: the access is translated, and the L1 serves it. -/
theorem loadHits : Obligations.LoadHits := by
  unfold Obligations.LoadHits
  intro o r s t L e x hrow h hr a ct hline hpoison hclear hlease
  have hfresh := (memRow_exec hrow).2 L
  obtain ⟨hkind, hsize, hcount, hsext, -, hgot, hreplay, hop⟩ := acc_ld hrow L
  obtain ⟨-, -, -, htid, ho⟩ := h.place
  obtain ⟨v, hv, hprogress⟩ := issued_served h hr hfresh hreplay
  have honly : (v.core L.c).accs = [readyAcc s L (r.acc L) e] := by rw [hv.core]
  have hct : (v.core L.c).ct = ct := by rw [hv.core]
  have hlineV : (v.core L.c).line? a.pa a.key = some x := by rw [hv.core]; exact hline
  obtain ⟨v', p, hload, hstep, hnet, hthreads, hcore⟩ := load_hits honly hr.memory hgot hlineV hpoison hv.link
    (hclear.imp id fun hopen => (hv.step.writeBacksOpen hv.net _).trans hopen) (by rw [hct]; exact hlease)
  let b := inPhase p (readyAcc s L (r.acc L) e)
  have hthread : v'.thread? L.c b.slot b.tid = some (after s (L.th.drainAll a.dest a.count)) := by
    rw [hthreads, show b.slot = L.slot from hfresh.slot, show b.tid = t from hfresh.tid.trans htid]
    exact hv.thread
  obtain ⟨haccs, hfills⟩ := fills_loaded (g := x.got) (a := b) ⟨b, by rw [hcore], rfl⟩
    (fun h0 => accessRegs_ne_zero o (hcount.symm.trans h0)) hthread
  let bs := (x.bytes.drop (a.pa % 256)).take (accessBytes o)
  have hwords : loadWords b.size b.sext (ofLine b x.bytes) = loadedWords o bs := by
    rw [← loadWords_eq_loadedWords, ofLine, show b.size = accessBytes o from hsize, show b.sext = signedLoad L.fn from hsext, Lane.fn, ho, hop]
    rfl
  have hregs : a.count = (loadedWords o bs).length := hcount.trans (loadedWords_length o bs).symm
  have hfilled : (loaded v' L.c b x.got).thread? L.c L.slot t = some (after s (L.th.fillAll a.dest (loadedWords o bs))) := by
    rw [← fillAll_drained, ← hregs, ← hwords, ← hfresh.slot, ← htid, ← hfresh.tid]
    exact hfills
  have hall := hv.step.trans (hstep.trans (coreStep_loaded v' L.c b x.got))
  refine ⟨_, exec_served hrow h hprogress ((advance_load honly hv.link rfl hkind).trans hload) hall hfilled
    ((fillAll_due _ _ _).trans h.calm), hfilled, haccs, ?_, ?_, hall.bytes⟩
  · rw [core_loaded, hcore, hct]
    rfl
  · rw [net_loaded, hnet, hv.net]

/-! ## A load that asks for its line -/

section

variable {v : State} {c : Nat} {b : Acc}

/-- An access whose sector has been asked for, with the hint that its read carries. -/
def filling (k : Core) (b : Acc) : Acc := { b with phase := .fill, hint := k.hintFor b }

/-- The read of an access's sector by a core that has asked for nothing else (R71, R86). -/
def readFor (k : Core) (c : Nat) (b : Acc) : ReadReq :=
  { core := c, tag := 0, sect := 1 <<< b.sector, hint := k.hintFor b, ct := k.ct, pa := lineOf b.pa, key := b.key }

/-- The access waits in its miss-status entry, and its context is charged. -/
def asked (v : State) (c : Nat) (b : Acc) : State :=
  (v.setCore c { v.core c with
    misses := [(0, { pa := lineOf b.pa, key := b.key, sector := b.sector, stale := false })]
    accs := [filling (v.core c) b] }).groupAsks c b.slot 64

theorem request_alone (honly : (v.core c).accs = [b]) (hphase : b.phase = .ready) (hkind : b.kind = .load)
    (hmisses : (v.core c).misses = []) : v.request c b = (asked v c b).post (.read (readFor (v.core c) c b)) := by
  have hfree : firstFree [] 64 = some 0 := by decide
  have hsect : [b.sector].eraseDups = [b.sector] := rfl
  unfold State.request
  simp [honly, hphase, hkind, hmisses, hsect, Acc.onLine, takeMisses, hfree, tset, asked, readFor, filling]

/-- A translated load of a line that the L1 lacks asks for it (R68). -/
theorem load_misses (honly : (v.core c).accs = [b]) (hhub : isHub b.pa = false) (hline : (v.core c).line? b.pa b.key = none)
    (hopen : b.state = 0 ∨ v.writeBacksOpen c = false) : v.load c b = v.request c b := by
  unfold State.load
  simp only [hhub, Bool.false_eq_true, if_false, hline, Option.isSome_none]
  by_cases hcoh : b.state = 0
  · rw [if_pos hcoh]
  · rw [if_neg hcoh, lineBusy_only honly (hopen.resolve_left hcoh)]
    rfl

theorem coreStep_asked (v : State) (c : Nat) (b : Acc) : CoreStep v (asked v c b) :=
  (coreStep_setCore v c _).trans (coreStep_groupAsks _ _ _ _)

theorem core_asked (v : State) (c : Nat) (b : Acc) : (asked v c b).core c = { v.core c with
    misses := [(0, { pa := lineOf b.pa, key := b.key, sector := b.sector, stale := false })]
    accs := [filling (v.core c) b] } := by
  rw [asked, core_groupAsks, core_setCore]

theorem threads_asked (v : State) (c : Nat) (b : Acc) : SameThreads v (asked v c b) := by
  intro c' g t
  rw [asked, thread_of_cores (cores_groupAsks _ _ _ _)]
  exact threads_modCore v c (f := fun k => { k with
    misses := [(0, { pa := lineOf b.pa, key := b.key, sector := b.sector, stale := false })]
    accs := [filling (v.core c) b] }) (fun _ => rfl) c' g t

end

/-- Settles O21: the access is translated, and asks for its line. -/
theorem loadMisses : Obligations.LoadMisses := by
  unfold Obligations.LoadMisses
  intro o r s t L e hrow h hr a hint hline hclear
  have hfresh := (memRow_exec hrow).2 L
  obtain ⟨hkind, -, -, -, hhint, -, hreplay, -⟩ := acc_ld hrow L
  obtain ⟨v, hv, hprogress⟩ := issued_served h hr hfresh hreplay
  let b := readyAcc s L (r.acc L) e
  have honly : (v.core L.c).accs = [b] := by rw [hv.core]
  have hlineV : (v.core L.c).line? b.pa b.key = none := by rw [hv.core]; exact hline
  have hload : v.load L.c b = (asked v L.c b).post (.read (readFor (v.core L.c) L.c b)) := by
    rw [load_misses honly hr.memory hlineV (hclear.imp id fun hopen => (hv.step.writeBacksOpen hv.net _).trans hopen)]
    exact request_alone honly rfl hkind (by rw [hv.core]; exact h.idle.2)
  have hhintV : (v.core L.c).hintFor b = hint := by
    rw [hv.core, Core.hintFor, show b.hint = hintOf o from hhint]
  have hall := (hv.step.trans (coreStep_asked v L.c b)).trans (coreStep_post _ (.read (readFor (v.core L.c) L.c b)))
  have hthread : ((asked v L.c b).post (.read (readFor (v.core L.c) L.c b))).thread? L.c L.slot t =
      some (after s (L.th.drainAll a.dest a.count)) := (threads_asked v L.c b _ _ _).trans hv.thread
  refine ⟨_, (asked v L.c b).seq, exec_served hrow h hprogress ((advance_load honly hv.link rfl hkind).trans hload) hall hthread
    ((drainAll_due _ _ _).trans h.calm), hthread, ?_, ?_, ?_, hall.bytes⟩
  · rw [post_core, core_asked, filling, hhintV]
    rfl
  · rw [post_core, core_asked]
    rfl
  · rw [post_net, readFor, hhintV, hv.core, asked, net_groupAsks, setCore_net, hv.net]
    rfl

end Sys2Proof.Laws
end

