-- ==== Sys2Proof/Proofs/StoreAccess.lean ====
section
/-! SUPPORT. ST of a thread alone (O22; R70, R88, R93, R94): its one access is translated, and goes into a line of the L1 or to home. -/

namespace Sys2Proof.Laws

open Sys2Proof.Machine Sys2Proof.Claims

/-! ## Bytes stored into a line -/

theorem zipFrom_eq_cons (pa : Nat) (b : Byte) (bs : List Byte) : zipFrom pa (b :: bs) = (pa, b) :: zipFrom (pa + 1) bs := by
  simp only [zipFrom, List.length_cons, List.range_succ_eq_map, List.zip_cons_cons, List.map_cons, List.zip_map_left, List.map_map,
    Nat.add_zero]
  refine congrArg _ (List.map_congr_left fun e _ => ?_)
  simp only [Function.comp, Prod.map, id, Nat.succ_eq_add_one, Prod.mk.injEq, and_true]
  omega

/-- A line's bytes after some that start at an address, and wrap at its end, are put into it: no more than it has. -/
theorem getElem_put (data : List Byte) (pa : Nat) (l : List Byte) (hl : l.length = 256) (hd : data.length ≤ 256) {j : Nat} (hj : j < 256) :
    ((zipFrom pa data).foldl (fun bs e => bs.set (e.1 % 256) e.2) l)[j]? =
      if (j + 256 - pa % 256) % 256 < data.length then data[(j + 256 - pa % 256) % 256]? else l[j]? := by
  induction data generalizing pa l with
  | nil => simp [zipFrom]
  | cons b bs ih =>
    rw [List.length_cons] at hd
    rw [zipFrom_eq_cons, List.foldl_cons, ih _ _ (by rw [List.length_set]; exact hl) (by omega), List.length_cons]
    by_cases h0 : j = pa % 256
    · rw [if_neg (by omega), if_pos (by omega), show (j + 256 - pa % 256) % 256 = 0 by omega, h0, List.getElem?_set_self (by omega)]
      rfl
    · obtain ⟨k, hk⟩ : ∃ k, (j + 256 - pa % 256) % 256 = k + 1 := ⟨(j + 256 - pa % 256) % 256 - 1, by omega⟩
      rw [hk, show (j + 256 - (pa + 1) % 256) % 256 = k by omega, List.getElem?_cons_succ, List.getElem?_set_ne (Ne.symm h0)]
      by_cases hlt : k < bs.length
      · rw [if_pos hlt, if_pos (by omega)]
      · rw [if_neg hlt, if_neg (by omega)]

/-- The sector of each byte stored is among the sectors stored into. -/
theorem getLsbD_sectorsOf {offs : List Nat} {o : Nat} (h : o ∈ offs) (ho : o < 256) : (sectorsOf offs).getLsbD (o / 64) = true := by
  have hbits := getLsbD_foldl_bits (fun _ => True) (show o / 64 < 4 by omega) (offs.map (· / 64)) 0#4
  simp only [if_true, List.foldl_map] at hbits
  exact hbits.trans (by simpa using ⟨o, h, rfl⟩)

theorem getLsbD_sectors_stored (pa : Nat) (data : List Byte) {k : Nat} (hk : k < data.length) :
    (sectorsOf ((zipFrom pa data).map fun e => e.1 % 256)).getLsbD ((pa + k) / 64 % 4) = true := by
  have hmem : (pa + k) % 256 ∈ (zipFrom pa data).map fun e => e.1 % 256 :=
    List.mem_map.2 ⟨(pa + k, data[k]), mem_zipFrom.2 ⟨k, rfl, List.getElem?_eq_getElem hk⟩, rfl⟩
  have hbit := getLsbD_sectorsOf hmem (by omega)
  rwa [show (pa + k) % 256 / 64 = (pa + k) / 64 % 4 by omega] at hbit

section

variable {v : State} {c : Nat} {b : Acc} {x : L1Line}

/-- The one store of a core is its own and only mate. -/
theorem storeMates_only (honly : (v.core c).accs = [b]) {p : Phase} (hphase : b.phase = p) (hkind : b.kind = .store) :
    (v.core c).storeMates b p = [b] := by
  simp [Core.storeMates, honly, hphase, hkind, Acc.onLine, byLane, laneInsert]

/-- The line as a store leaves it, but for what COH and STR add. -/
def storedInto (x : L1Line) (b : Acc) : L1Line :=
  { x.write (zipFrom b.pa b.data) with dirty := x.dirty ||| sectorsOf ((zipFrom b.pa b.data).map fun e => e.1 % 256) }

/-- The store has ended, and the line that it wrote is the most recently used. -/
def storedHere (v : State) (c : Nat) (b : Acc) (y : L1Line) : State := (v.removeAccs c [b.id]).modCore c (·.putLine y)

theorem core_storedHere (honly : (v.core c).accs = [b]) (y : L1Line) : (storedHere v c b y).core c =
    { v.core c with l1 := ((v.core c).putLine y).l1, accs := [] } := by
  have hremove : (v.removeAccs c [b.id]).core c = { v.core c with accs := [] } := by
    rw [State.removeAccs, core_modCore, honly]
    simp
  rw [storedHere, core_modCore, hremove]
  rfl

theorem threads_storedHere (v : State) (c : Nat) (b : Acc) (y : L1Line) : SameThreads v (storedHere v c b y) :=
  (threads_modCore v c (f := fun k => { k with accs := k.accs.filter fun b' => !([b.id].contains b'.id) }) fun _ => rfl).trans
    (threads_modCore _ c fun _ => rfl)

/-- A translated store of a line that the L1 holds, in COH exclusively, goes into it (R70, R88, R93). -/
theorem store_hits (honly : (v.core c).accs = [b]) (hphase : b.phase = .ready) (hkind : b.kind = .store) (hhub : isHub b.pa = false)
    (hmisses : (v.core c).misses = []) (hline : (v.core c).line? b.pa b.key = some x)
    (hopen : b.state = 0 ∨ v.writeBacksOpen c = false) (hexcl : b.state = 0 → x.excl = true) :
    let w := maxD (v.core c).ct (x.rts + 1)
    (b.state = 0 → v.store c b = (storedHere v c b { storedInto x b with wts := w, rts := w }).raiseCt c w) ∧
    (b.state ≠ 0 → v.store c b = storedHere v c b { storedInto x b with str := x.str || b.state == 1 }) := by
  unfold State.store
  simp only [hhub, storeMates_only honly hphase hkind, cohBefore_only honly rfl, hline, hmisses, Bool.false_eq_true, if_false, List.map_cons,
    List.map_nil, List.flatMap_cons, List.flatMap_nil, List.append_nil, List.any_nil, Bool.or_false]
  refine ⟨fun hcoh => ?_, fun hstr => ?_⟩
  · rw [if_pos hcoh, if_pos (hexcl hcoh)]
    rfl
  · rw [if_neg hstr, lineBusy_only honly (hopen.resolve_left hstr)]
    rfl

/-- The store is on its way to home, and its context is charged. -/
def storeSent (v : State) (c : Nat) (b : Acc) : State := (v.markSent c [b.id]).groupAsks c b.slot (zipFrom b.pa b.data).length

theorem coreStep_storeSent (v : State) (c : Nat) (b : Acc) : CoreStep v (storeSent v c b) :=
  (coreStep_modCore v c _).trans (coreStep_groupAsks _ _ _ _)

theorem core_storeSent (honly : (v.core c).accs = [b]) :
    (storeSent v c b).core c = { v.core c with accs := [inPhase .sent b] } := by
  rw [storeSent, core_groupAsks, State.markSent, core_modCore, honly]
  simp [inPhase]

theorem threads_storeSent (v : State) (c : Nat) (b : Acc) : SameThreads v (storeSent v c b) := by
  intro c' g t
  rw [storeSent, thread_of_cores (cores_groupAsks _ _ _ _)]
  exact threads_modCore v c (f := fun k => { k with
    accs := k.accs.map fun b' => if [b.id].contains b'.id then { b' with phase := .sent } else b' }) (fun _ => rfl) c' g t

/-- The message by which a store goes to home (R88, R94). -/
def storeMsg (v : State) (c : Nat) (b : Acc) : Msg :=
  if b.state = 0 then .cohStore c b.id b.pa b.key (v.core c).ct (zipFrom b.pa b.data) else .strStore c b.id b.pa b.key (zipFrom b.pa b.data)

/-- A translated store that the L1 does not take goes to home (R70, R88, R94). -/
theorem store_misses (honly : (v.core c).accs = [b]) (hphase : b.phase = .ready) (hkind : b.kind = .store) (hhub : isHub b.pa = false)
    (hmisses : (v.core c).misses = []) (hopen : b.state = 0 ∨ v.writeBacksOpen c = false)
    (hshared : b.state = 0 → ∀ x, (v.core c).line? b.pa b.key = some x → x.excl = false)
    (habsent : b.state ≠ 0 → (v.core c).line? b.pa b.key = none) : v.store c b = (storeSent v c b).post (storeMsg v c b) := by
  unfold State.store
  simp only [hhub, storeMates_only honly hphase hkind, cohBefore_only honly rfl, hmisses, Bool.false_eq_true, if_false, List.map_cons,
    List.map_nil, List.flatMap_cons, List.flatMap_nil, List.append_nil, List.any_nil, Bool.or_false]
  by_cases hcoh : b.state = 0
  · rw [if_pos hcoh, storeMsg, if_pos hcoh]
    split
    · next x hx =>
      rw [hshared hcoh x hx]
      rfl
    · rfl
  · rw [if_neg hcoh, lineBusy_only honly (hopen.resolve_left hcoh), habsent hcoh, storeMsg, if_neg hcoh]
    rfl

end

/-- The access that ST makes (R279, R280, R284). -/
theorem acc_st {o : Op} {r : Request} (h : memRow (.st o) = some r) (L : Lane) : (r.acc L).kind = .store ∧ (r.acc L).count = 0 ∧
    (r.acc L).replay = false := by
  obtain rfl := Option.some.inj h
  exact ⟨rfl, rfl, rfl⟩

section

variable {s : State} {o : Op} {r : Request} {t : Nat} {L : Lane} {e : TlbEnt}

/-- The issued store is translated, and its thread has moved on with every register as it was. -/
theorem st_served (hrow : memRow (.st o) = some r) (h : Requests s (.st o) r t L) (hr : Reaches s L (r.acc L) e) :
    ∃ v, Served s t L (r.acc L) e v ∧ v.thread? L.c L.slot t = some (after s L.th) ∧
      ∀ u, v.store L.c (readyAcc s L (r.acc L) e) = u → CoreStep v u → SameThreads v u → exec (.st o) s = .next u := by
  obtain ⟨hkind, hcount, hreplay⟩ := acc_st hrow L
  obtain ⟨v, hv, hprogress⟩ := issued_served h hr ((memRow_exec hrow).2 L) hreplay
  have hthread : v.thread? L.c L.slot t = some (after s L.th) := by
    rw [hv.thread, hcount]
    rfl
  refine ⟨v, hv, hthread, fun u hu hstep hthreads => ?_⟩
  have hadvance := (advance_store (by rw [hv.core]) hv.link rfl hkind).trans hu
  exact exec_served hrow h hprogress hadvance (hv.step.trans hstep) ((hthreads _ _ _).trans hthread) h.calm

/-- A store into a line of the L1 (R70, R88, R93). -/
theorem st_hits {x : L1Line} (hrow : memRow (.st o) = some r) (h : Requests s (.st o) r t L) (hr : Reaches s L (r.acc L) e) :
    let a := translated s L (r.acc L) e
    let w := maxD (s.core L.c).ct (x.rts + 1)
    (s.core L.c).line? a.pa a.key = some x → Clear s L a → (a.state = 0 → x.excl = true) →
    ∃ u y, exec (.st o) s = .next u ∧ u.thread? L.c L.slot t = some (after s L.th) ∧ (u.core L.c).accs = [] ∧
      (u.core L.c).line? a.pa a.key = some y ∧ y.bytes = (storedInto x a).bytes ∧ y.dirty = (storedInto x a).dirty ∧
      (a.state = 0 → y.wts = w ∧ y.rts = w ∧ (u.core L.c).ct = w) ∧ u.net = s.net ∧ SameBytes s u := by
  intro a w hline hclear hexcl
  obtain ⟨v, hv, hthread, hexec⟩ := st_served hrow h hr
  let b := readyAcc s L (r.acc L) e
  have honly : (v.core L.c).accs = [b] := by rw [hv.core]
  have hct : (v.core L.c).ct = (s.core L.c).ct := by rw [hv.core]
  have hlineV : (v.core L.c).line? b.pa b.key = some x := by rw [hv.core]; exact hline
  obtain ⟨hcoh, hstr⟩ := store_hits honly rfl (acc_st hrow L).1 hr.memory (by rw [hv.core]; exact h.idle.2) hlineV
    (hclear.imp id fun hopen => (hv.step.writeBacksOpen hv.net _).trans hopen) hexcl
  rw [hct] at hcoh
  have his : x.is a.pa a.key = true := line?_is hline
  by_cases hstate : a.state = 0
  · let y : L1Line := { storedInto x b with wts := w, rts := w }
    have hcore := core_storedHere honly y
    have hstep : CoreStep v ((storedHere v L.c b y).raiseCt L.c w) :=
      ((coreStep_modCore _ _ _).trans (coreStep_modCore _ _ _)).trans (coreStep_raiseCt _ _ _)
    have hthreads : SameThreads v ((storedHere v L.c b y).raiseCt L.c w) := (threads_storedHere v L.c b y).trans (threads_raiseCt _ _ _)
    refine ⟨_, y, hexec _ (hcoh hstate) hstep hthreads, (hthreads _ _ _).trans hthread, ?_, ?_, rfl, rfl, fun _ => ⟨rfl, rfl, ?_⟩, hv.net,
      (hv.step.trans hstep).bytes⟩
    · rw [core_raiseCt, hcore]
    · rw [core_raiseCt, hcore]
      exact line?_putLine (v.core L.c) his
    · rw [core_raiseCt, hcore]
      show maxD (v.core L.c).ct w = w
      rw [hct, maxD_maxD]
  · let y : L1Line := { storedInto x b with str := x.str || b.state == 1 }
    have hcore := core_storedHere honly y
    have hstep : CoreStep v (storedHere v L.c b y) := (coreStep_modCore _ _ _).trans (coreStep_modCore _ _ _)
    have hthreads := threads_storedHere v L.c b y
    refine ⟨_, y, hexec _ (hstr hstate) hstep hthreads, (hthreads _ _ _).trans hthread, by rw [hcore], ?_, rfl, rfl,
      fun h0 => absurd h0 hstate, hv.net, (hv.step.trans hstep).bytes⟩
    rw [hcore]
    exact line?_putLine (v.core L.c) his

/-- A store that goes to home (R70, R88, R94). -/
theorem st_misses (hrow : memRow (.st o) = some r) (h : Requests s (.st o) r t L) (hr : Reaches s L (r.acc L) e) :
    let a := translated s L (r.acc L) e
    Clear s L a → (a.state = 0 → ∀ x, (s.core L.c).line? a.pa a.key = some x → x.excl = false) →
    (a.state ≠ 0 → (s.core L.c).line? a.pa a.key = none) →
    ∃ u n, exec (.st o) s = .next u ∧ u.thread? L.c L.slot t = some (after s L.th) ∧
      (u.core L.c).accs = [{ a with phase := .sent }] ∧ (u.core L.c).l1 = (s.core L.c).l1 ∧
      u.net = s.net ++ [(n, if a.state = 0 then .cohStore L.c a.id a.pa a.key (s.core L.c).ct (zipFrom a.pa a.data)
                            else .strStore L.c a.id a.pa a.key (zipFrom a.pa a.data))] ∧ SameBytes s u := by
  intro a hclear hshared habsent
  obtain ⟨v, hv, hthread, hexec⟩ := st_served hrow h hr
  let b := readyAcc s L (r.acc L) e
  have honly : (v.core L.c).accs = [b] := by rw [hv.core]
  have hlineV : (v.core L.c).line? b.pa b.key = (s.core L.c).line? a.pa a.key := by rw [hv.core]; rfl
  have hstore := store_misses honly rfl (acc_st hrow L).1 hr.memory (by rw [hv.core]; exact h.idle.2)
    (hclear.imp id fun hopen => (hv.step.writeBacksOpen hv.net _).trans hopen) (by rw [hlineV]; exact hshared)
    (by rw [hlineV]; exact habsent)
  have hstep := (coreStep_storeSent v L.c b).trans (coreStep_post _ (storeMsg v L.c b))
  have hthreads := threads_storeSent v L.c b
  refine ⟨_, (storeSent v L.c b).seq, hexec _ hstore hstep hthreads, (hthreads _ _ _).trans hthread, ?_, ?_, ?_,
    (hv.step.trans hstep).bytes⟩
  · rw [post_core, core_storeSent honly]
    rfl
  · rw [post_core, core_storeSent honly, hv.core]
  · rw [post_net, storeMsg, hv.core, storeSent, net_groupAsks]
    exact congrArg (· ++ _) hv.net

end

/-- Settles O22: the access is translated, and goes into its line or to home. -/
theorem stores : Obligations.Stores := by
  unfold Obligations.Stores
  refine ⟨?_, fun o r s t L e hrow h hr => st_misses hrow h hr⟩
  intro o r s t L e x hrow h hr a w hline hbytes hlen hclear hexcl
  obtain ⟨u, y, hrun, hthread, haccs, hlineU, hy, hdirty, htimes, hnet, hsame⟩ := st_hits hrow h hr hline hclear hexcl
  refine ⟨u, y, hrun, hthread, haccs, hlineU, fun j hj => ?_, fun k hk => ?_, fun q hq => ?_, htimes, hnet, hsame⟩
  · rw [hy]
    exact getElem_put a.data a.pa x.bytes hbytes hlen hj
  · rw [hdirty, storedInto, BitVec.getLsbD_or, getLsbD_sectors_stored a.pa a.data hk, Bool.or_true]
  · rw [hdirty, storedInto, BitVec.getLsbD_or, hq, Bool.true_or]

end Sys2Proof.Laws
end

