-- ==== Sys2Proof/Proofs/ScratchpadWays.lean ====
section
/-! SUPPORT. WAYMASK and the flush of a way that enters the scratchpad (O34; R73, R77, R78, R295). -/

namespace Sys2Proof.Laws

open Sys2Proof.Machine Sys2Proof.Claims

/-! ## What leaves a core's L1 -/

section

variable (s : State) (c : Nat) (p : L1Line → Bool)

/-- The write-back of a line's dirty sectors, sent to its home (R70). -/
def sendBack (c : Nat) (s : State) (x : L1Line) : State := s.post (.writeBack c x.pa x.key (x.dirty &&& ~~~x.poison) x.bytes)

theorem coreStep_writeBackAll : CoreStep s (s.writeBackAll c p) := by
  unfold State.writeBackAll
  exact (coreStep_foldl (f := sendBack c) (fun _ _ => coreStep_post _ _) _ s).trans (coreStep_modCore _ _ _)

@[simp] theorem clusters_writeBackAll : (s.writeBackAll c p).clusters = s.clusters :=
  foldl_keeps (f := sendBack c) (p := State.clusters) (fun _ _ => rfl) _ s

/-- A write-back of lines changes of its core the lines alone. -/
theorem core_writeBackAll : (s.writeBackAll c p).core c = { s.core c with l1 := ((s.writeBackAll c p).core c).l1 } := by
  unfold State.writeBackAll
  rw [core_modCore, foldl_keeps (p := fun u : State => u.core c) fun _ _ => post_core _ _ _]

theorem threads_writeBackAll : SameThreads s (s.writeBackAll c p) := by
  refine SameThreads.trans ?_ (threads_modCore _ c fun _ => rfl)
  exact fun c' g t => foldl_keeps (f := sendBack c) (p := fun u : State => u.thread? c' g t) (fun _ _ => rfl) _ s

end

/-! ## WAYMASK -/

/-- Some lanes get a status and go on (R295). -/
def answered (s : State) (ls : List Lane) (u : State) (st : Word) : State :=
  (ls.foldl (fun u x => u.modThread x.c x.slot x.tid fun th => th.put (x.dstReg 1) st) u).moveTo (ls.map (·.tid)) s.cur.next

/-- What the issue of a WAYMASK does with the threads that pass. -/
def waymaskBody (s : State) (o : Op) (wave ok : List Nat) (s0 : State) : State :=
  let ls := (byLane ok).filterMap (s0.lane? o wave)
  match ls with
  | [] => s0
  | L :: _ =>
    let s1 := ls.foldl (fun s1 x =>
      match x.th.wait with
      | some ⟨.waymask m, _, _⟩ => answered s [x] s1 (if (s1.core x.c).mask = m then 0 else 1)
      | _ => s1) s0
    let news := ls.filter (fun x => x.th.wait.isNone)
    if news.isEmpty then s1 else s1.beginWaymask L.c ((news.headD L).waymaskOf o) news (answered s news)

theorem exec_waymask (o : Op) (s : State) : exec (.waymask o) s = .next (s.frame (.waymask o) o waymaskCheck (waymaskBody s o) true) := rfl

section

variable {s : State} {o : Op} {t : Nat} {L : Lane} (h : s.Alone (.waymask o) o waymaskCheck t L)

include h

/-- A thread alone that begins the instruction names its mask. -/
theorem waymaskBody_alone : waymaskBody s o [t] [t] s = s.beginWaymask L.c (L.waymaskOf o) [L] (answered s [L]) := by
  unfold waymaskBody
  simp only [h.lanes, List.foldl_cons, List.foldl_nil, h.fresh, List.filter_cons, List.filter_nil, Option.isNone_none, if_true,
    List.isEmpty_cons, Bool.false_eq_true, if_false, List.headD_cons]

/-- The issue leaves what the mask's begin leaves, where its thread stands without deferred traps. -/
theorem exec_waymask_alone {u : State} {th : Thread} (hu : s.beginWaymask L.c (L.waymaskOf o) [L] (answered s [L]) = u)
    (hcur : u.cur = s.cur) (hth : u.thread? L.c L.slot t = some th) (hdue : th.due = []) : exec (.waymask o) s = .next u := by
  obtain ⟨-, hc, hslot, -, -⟩ := h.place
  have hbody := (waymaskBody_alone h).trans hu
  rw [exec_waymask, h.stayed (th := th) (by rw [hbody, hcur]) (by rw [hbody, ← hc, ← hslot, hth]) hdue, hbody]

/-- A thread that is answered goes on, with its status in its destination. -/
theorem answered_thread {u : State} (hstep : CoreStep s u) (hthreads : SameThreads s u) (st : Word) :
    CoreStep s (answered s [L] u st) ∧ (answered s [L] u st).thread? L.c L.slot t = some (after s (L.th.put (L.dstReg 1) st)) ∧
      ∀ n, (answered s [L] u st).core n = { u.core n with slots := ((answered s [L] u st).core n).slots } := by
  obtain ⟨-, hc, hslot, htid, -⟩ := h.place
  let u1 := u.modThread L.c L.slot L.tid fun th => th.put (L.dstReg 1) st
  have hcur : u1.cur = s.cur := (cur_modThread _ _ _ _ _).trans hstep.cur
  have hgo : answered s [L] u st = u1.modThread s.cur.core s.cur.slot L.tid fun th => { th with pc := s.cur.next, wait := none } := by
    show u1.modThread u1.cur.core u1.cur.slot L.tid (fun th => { th with pc := s.cur.next, wait := none }) = _
    rw [hcur]
  refine ⟨?_, ?_, fun n => ?_⟩
  · rw [hgo]
    exact hstep.trans ((coreStep_modThread _ _ _ _ _).trans (coreStep_modThread _ _ _ _ _))
  · rw [hgo, hc, hslot, htid, thread_modThread, ← hc, ← hslot, ← htid, thread_modThread, hthreads, hc, hslot, htid, h.thread]
    rfl
  · rw [hgo, core_modThread, core_modThread]

/-- A mask that is not legal is answered with 2 (R77, R295). -/
theorem waymask_illegal (hm : legalMask (L.waymaskOf o) = false) : ∃ u, exec (.waymask o) s = .next u ∧
    u.thread? L.c L.slot t = some (after s (L.th.put (L.dstReg 1) 2)) ∧ (u.core L.c).mask = (s.core L.c).mask ∧ SameBytes s u := by
  obtain ⟨hstep, hthread, hcore⟩ := answered_thread h (.refl s) (fun _ _ _ => rfl) 2
  have hbegin : s.beginWaymask L.c (L.waymaskOf o) [L] (answered s [L]) = answered s [L] s 2 := by
    rw [State.beginWaymask, hm]
    rfl
  refine ⟨_, exec_waymask_alone h hbegin hstep.cur hthread ((put_due _ _ _).trans h.calm), hthread, ?_, hstep.bytes⟩
  rw [hcore]

/-- The mask that stands is answered with 0, and no other is its target any more (R78, R295). -/
theorem waymask_stands (hm : legalMask (L.waymaskOf o) = true) (hsame : (s.core L.c).mask = L.waymaskOf o) : ∃ u,
    exec (.waymask o) s = .next u ∧ u.thread? L.c L.slot t = some (after s (L.th.put (L.dstReg 1) 0)) ∧
      (u.core L.c).mask = L.waymaskOf o ∧ (u.core L.c).target = L.waymaskOf o ∧ SameBytes s u := by
  obtain ⟨hstep, hthread, hcore⟩ := answered_thread h (coreStep_modCore s L.c fun k => { k with target := L.waymaskOf o })
    (threads_modCore s L.c fun _ => rfl) 0
  have hbegin : s.beginWaymask L.c (L.waymaskOf o) [L] (answered s [L]) =
      answered s [L] (s.modCore L.c fun k => { k with target := L.waymaskOf o }) 0 := by
    rw [State.beginWaymask, hm, if_pos hsame]
    rfl
  refine ⟨_, exec_waymask_alone h hbegin hstep.cur hthread ((put_due _ _ _).trans h.calm), hthread, ?_, ?_, hstep.bytes⟩
  · rw [hcore, core_modCore]
    exact hsame
  · rw [hcore, core_modCore]

/-- The ways that a mask takes into the scratchpad, of a core that has no other target. -/
def entering (k : Core) (m : BitVec 16) : List Nat := (List.range 16).filter fun w => m.getLsbD w && !k.mask.getLsbD w

omit h in
theorem mem_entering {k : Core} {m : BitVec 16} {w : Nat} :
    w ∈ entering k m ↔ w < 16 ∧ m.getLsbD w = true ∧ k.mask.getLsbD w = false := by
  simp [entering]

omit h in
/-- A new target of a core that has none: its entering ways begin their flush, and it stays a target until they end (R78). -/
theorem setTarget_enters {c : Nat} {m : BitVec 16} (htarget : (s.core c).target = (s.core c).mask) (hflush : (s.core c).flushing = [])
    (hsome : entering (s.core c) m ≠ []) : s.setTarget c m =
      (s.setCore c { s.core c with target := m, flushing := entering (s.core c) m }).writeBackAll c
        fun x => (entering (s.core c) m).contains x.way := by
  have henter : (List.range 16).filter (fun w => m.getLsbD w && !(s.core c).mask.getLsbD w && !(s.core c).flushing.contains w
      && !((s.core c).target.getLsbD w && !(s.core c).mask.getLsbD w)) = entering (s.core c) m := by
    simp [entering, hflush, htarget]
  obtain ⟨w, hw⟩ := List.exists_mem_of_ne_nil _ hsome
  unfold State.setTarget
  dsimp only
  rw [henter, hflush, List.nil_append]
  unfold State.applyTarget
  rw [core_writeBackAll, core_setCore]
  have hbusy : ((List.range 16).filter fun w => m.getLsbD w && !(s.core c).mask.getLsbD w).any (entering (s.core c) m).contains = true :=
    List.any_eq_true.2 ⟨w, hw, List.contains_iff_mem.2 hw⟩
  simp only [hbusy, Bool.or_true, Bool.true_or, if_true]

/-- A mask that takes ways into the scratchpad: they are to be flushed, and the thread waits (R78, R295). -/
theorem waymask_waits (hm : legalMask (L.waymaskOf o) = true) (htarget : (s.core L.c).target = (s.core L.c).mask)
    (hflush : (s.core L.c).flushing = []) (hsome : ∃ w, w < 16 ∧ (L.waymaskOf o).getLsbD w = true ∧ (s.core L.c).mask.getLsbD w = false) :
    ∃ u, exec (.waymask o) s = .next u ∧ u.thread? L.c L.slot t = some (waiting s L.c L.th (.waymask (L.waymaskOf o))) ∧
      (u.core L.c).mask = (s.core L.c).mask ∧ (u.core L.c).target = L.waymaskOf o ∧
      (∀ w, w ∈ (u.core L.c).flushing ↔ w < 16 ∧ (L.waymaskOf o).getLsbD w = true ∧ (s.core L.c).mask.getLsbD w = false) ∧
      SameBytes s u := by
  obtain ⟨-, hc, hslot, htid, -⟩ := h.place
  obtain ⟨w, hw, hin, hout⟩ := hsome
  have hmem := mem_entering.2 ⟨hw, hin, hout⟩
  let m := L.waymaskOf o
  let s1 := s.setTarget L.c m
  have hs1 : s1 = (s.setCore L.c { s.core L.c with target := m, flushing := entering (s.core L.c) m }).writeBackAll L.c
      fun x => (entering (s.core L.c) m).contains x.way := setTarget_enters htarget hflush (List.ne_nil_of_mem hmem)
  have hcore : s1.core L.c = { s.core L.c with target := m, flushing := entering (s.core L.c) m, l1 := (s1.core L.c).l1 } := by
    conv_lhs => rw [hs1, core_writeBackAll, core_setCore, ← hs1]
  have hstep : CoreStep s s1 := by
    rw [hs1]
    exact (coreStep_setCore _ _ _).trans (coreStep_writeBackAll _ _ _)
  have hthreads : SameThreads s s1 := by
    rw [hs1]
    exact SameThreads.trans (threads_modCore s L.c (f := fun k => { k with target := m, flushing := entering (s.core L.c) m }) fun _ => rfl)
      (threads_writeBackAll _ _ _)
  have hne : (s.core L.c).mask ≠ m := fun e =>
    absurd (hout.symm.trans ((congrArg (BitVec.getLsbD · w) e).trans hin)) Bool.false_ne_true
  have hbusy : (s1.core L.c).flushing.any (fun w => (s1.core L.c).target.getLsbD w) = true := by
    rw [hcore]
    exact List.any_eq_true.2 ⟨w, hmem, hin⟩
  have hbegin : s.beginWaymask L.c m [L] (answered s [L]) = s1.wait L.c L.slot L.tid (.waymask m) := by
    rw [State.beginWaymask, hm, if_neg hne]
    dsimp only
    rw [hbusy, show (s1.core L.c).mask = (s.core L.c).mask by rw [hcore], if_neg hne]
    rfl
  have hnow : s1.now L.c = s.now L.c := by
    rw [hs1, State.now, State.cluster, clusters_writeBackAll]
    rfl
  have hthread : (s1.wait L.c L.slot L.tid (.waymask m)).thread? L.c L.slot t = some (waiting s L.c L.th (.waymask m)) := by
    rw [State.wait, htid, thread_modThread, hthreads, hc, hslot, h.thread, ← hc, hnow]
    rfl
  have hall := hstep.trans (coreStep_modThread s1 L.c L.slot L.tid fun th => { th with wait := some ⟨.waymask m, s1.now L.c, false⟩ })
  have hcoreU : (s1.wait L.c L.slot L.tid (.waymask m)).core L.c =
      { s1.core L.c with slots := ((s1.wait L.c L.slot L.tid (.waymask m)).core L.c).slots } := core_modThread _ _ _ _ _ _
  refine ⟨_, exec_waymask_alone h hbegin hall.cur hthread h.calm, hthread, ?_, ?_, fun w => ?_, hall.bytes⟩
  · rw [hcoreU, hcore]
  · rw [hcoreU, hcore]
  · rw [hcoreU, hcore]
    exact mem_entering

end

/-! ## The last way's flush -/

section

variable {s : State} {c w : Nat}

/-- A core's way is flushed: its lines are gone. -/
def wayFlushed (s : State) (c w : Nat) : State :=
  s.setCore c { s.core c with l1 := (s.core c).l1.filter (fun x => x.way != w), flushing := (s.core c).flushing.filter (· != w) }

/-- A way with no dirty and no exclusive line, when no write-back is open, ends its flush (R78). -/
theorem exec_wayFlushComplete (hflush : w ∈ (s.core c).flushing) (hclean : ∀ x ∈ (s.core c).l1, x.way = w → x.excl = false ∧ x.dirty = 0)
    (hopen : s.writeBacksOpen c = false) : exec (.wayFlushComplete c w) s = .next ((wayFlushed s c w).applyTarget c) := by
  have hnone : ((s.core c).l1.filter fun x => x.way == w && (x.excl || (x.dirty &&& ~~~x.poison) != 0)) = [] := by
    refine List.filter_eq_nil_iff.2 fun x hx => ?_
    by_cases hway : x.way = w
    · obtain ⟨hexcl, hdirty⟩ := hclean x hx hway
      simp [hexcl, hdirty]
    · simp [hway]
  show execWayFlushComplete c w s = _
  unfold execWayFlushComplete
  simp only [List.contains_iff_mem.2 hflush, hnone, hopen, Bool.not_true, Bool.false_eq_true, if_false, List.isEmpty_nil]
  rfl

/-- A core with one way to take in, and none to flush, takes it: the way's bytes read 0 (R77, R78). -/
theorem applyTarget_takes (hw : w < 16) (hflush : (s.core c).flushing = []) (hout : (s.core c).mask.getLsbD w = false)
    (htarget : (s.core c).target = (s.core c).mask ||| (1 <<< w)) : s.applyTarget c = s.setCore c { s.core c with
      mask := (s.core c).target
      spad := (s.core c).spad.filter fun e => !([w].contains (wayOf e.1))
      failed := (s.core c).failed.filter fun off => !([w].contains (wayOf off))
      zeroed := (s.core c).zeroed.filter (fun n => !([w].contains n)) ++ [w] } := by
  have hbit (n : Nat) (hn : n < 16) : (s.core c).target.getLsbD n = ((s.core c).mask.getLsbD n || decide (n = w)) := by
    have hone : (BitVec.ofNat 16 (1 <<< w)).getLsbD n = decide (n = w) := by
      rw [BitVec.getLsbD_ofNat, Nat.one_shiftLeft, Nat.testBit_two_pow, decide_eq_true hn, Bool.true_and, decide_eq_decide]
      exact eq_comm
    rw [htarget, BitVec.getLsbD_or, ← hone]
    rfl
  have henter : (List.range 16).filter (fun n => (s.core c).target.getLsbD n && !(s.core c).mask.getLsbD n) = [w] := by
    have hiff (n : Nat) (hn : n ∈ List.range 16) : ((s.core c).target.getLsbD n && !(s.core c).mask.getLsbD n) = (n == w) := by
      rw [hbit n (List.mem_range.1 hn)]
      by_cases hnw : n = w
      · simp [hnw, hout]
      · simp [hnw]
    rw [List.filter_congr hiff, List.filter_beq, List.count_eq_one_of_mem List.nodup_range (List.mem_range.2 hw)]
    rfl
  have hleave : (List.range 16).filter (fun n => !(s.core c).target.getLsbD n && (s.core c).mask.getLsbD n) = [] := by
    refine List.filter_eq_nil_iff.2 fun n hn => ?_
    rw [hbit n (List.mem_range.1 hn)]
    cases (s.core c).mask.getLsbD n <;> simp
  have hne : (s.core c).target ≠ (s.core c).mask := fun e => by
    have := hbit w hw
    rw [e, hout] at this
    simp at this
  unfold State.applyTarget
  simp only [henter, hleave, hflush, hne]
  simp

/-- What a byte of the scratchpad reads once a way has been taken in. -/
theorem spadByte_taken (k : Core) (w off : Nat) : ({ k with
      spad := k.spad.filter fun e => !([w].contains (wayOf e.1))
      zeroed := k.zeroed.filter (fun n => !([w].contains n)) ++ [w] } : Core).spadByte off =
    if wayOf off = w then some 0 else k.spadByte off := by
  unfold Core.spadByte
  rw [tfind_filter k.spad (fun a => !([w].contains (wayOf a)))]
  by_cases h : wayOf off = w
  · simp [h]
  · simp [h]

end

/-- Settles O34: each mask by how WAYMASK begins, and the last way's flush by what its target takes in. -/
theorem scratchpadWays : Obligations.ScratchpadWays := by
  unfold Obligations.ScratchpadWays
  refine ⟨fun o s t L h => ⟨waymask_illegal h, fun hm hsame => waymask_stands h hm hsame, fun hm htarget hflush hsome =>
    waymask_waits h hm htarget hflush hsome⟩, ?_⟩
  intro s c w hw hflush hout htarget hclean hopen
  have hstep : CoreStep s (wayFlushed s c w) := coreStep_setCore _ _ _
  have hcore : (wayFlushed s c w).core c = { s.core c with l1 := (s.core c).l1.filter (·.way != w), flushing := [] } := by
    rw [wayFlushed, core_setCore, hflush]
    simp
  have htakes := applyTarget_takes (s := wayFlushed s c w) (c := c) hw (by rw [hcore]) (by rw [hcore]; exact hout) (by rw [hcore]; exact htarget)
  refine ⟨_, exec_wayFlushComplete (by simp [hflush]) hclean hopen, ?_⟩
  rw [htakes, core_setCore, hcore]
  refine ⟨rfl, rfl, rfl, fun off hoff => ?_, fun off hoff => ?_, (hstep.trans (coreStep_setCore _ _ _)).bytes⟩
  · exact (spadByte_taken (s.core c) w off).trans (if_pos hoff)
  · exact (spadByte_taken (s.core c) w off).trans (if_neg hoff)

end Sys2Proof.Laws
end

