-- ==== Sys2Proof/Proofs/LineArrivals.lean ====
section
/-! SUPPORT. Lines that reach a core's L1, and answers that complete its loads (O47; R70, R71, R86, R87). -/

namespace Sys2Proof.Laws

open Sys2Proof.Machine Sys2Proof.Claims

/-! ## Steps that change a core's lines -/

/-- Of a core its lines alone change, and messages may be sent. -/
structure LinesOnly (c : Nat) (s u : State) : Prop where
  step    : CoreStep s u
  threads : SameThreads s u
  core    : u.core c = { s.core c with l1 := (u.core c).l1 }

theorem LinesOnly.refl (c : Nat) (s : State) : LinesOnly c s s := ⟨.refl s, fun _ _ _ => rfl, rfl⟩

theorem LinesOnly.trans {c : Nat} {s u v : State} (h : LinesOnly c s u) (k : LinesOnly c u v) : LinesOnly c s v where
  step := h.step.trans k.step
  threads := h.threads.trans k.threads
  core := by rw [k.core, h.core]

theorem linesOnly_modCore (s : State) (c : Nat) {f : Core → Core} (hf : ∀ k, f k = { k with l1 := (f k).l1 }) :
    LinesOnly c s (s.modCore c f) where
  step := coreStep_modCore s c f
  threads := threads_modCore s c fun k => by rw [hf]
  core := by rw [core_modCore, ← hf]

theorem linesOnly_post (c : Nat) (s : State) (m : Msg) : LinesOnly c s (s.post m) := ⟨coreStep_post s m, fun _ _ _ => rfl, rfl⟩

theorem linesOnly_evict (s : State) (c : Nat) (x : L1Line) : LinesOnly c s (s.evict c x) := by
  have hdrop : LinesOnly c s (s.modCore c (·.dropLine x)) := linesOnly_modCore s c fun _ => rfl
  unfold State.evict
  dsimp only
  split
  · exact hdrop.trans (linesOnly_post _ _ _)
  · split
    · exact hdrop
    · exact hdrop.trans (linesOnly_post _ _ _)

/-- A line that is installed, or is not, changes lines alone (R70, R71). -/
theorem linesOnly_install (s : State) (c : Nat) (x : L1Line) : LinesOnly c s (s.install c x).2 := by
  have hput (u : State) (y : L1Line) : LinesOnly c u (u.modCore c (·.putLine y)) := linesOnly_modCore u c fun _ => rfl
  unfold State.install
  dsimp only
  split
  · split
    · exact .refl c s
    · split
      · exact .refl c s
      · exact hput s _
  · split
    · exact hput s _
    · split
      · exact (linesOnly_evict s c _).trans (hput _ _)
      · exact .refl c s

/-- An L1 without lines takes one into a cache way (R70). -/
theorem install_empty {s : State} {c : Nat} (hempty : (s.core c).l1 = []) (hways : (s.core c).cacheWays ≠ []) (x : L1Line) :
    ∃ w, s.install c x = (true, s.modCore c (·.putLine { x with way := w })) := by
  obtain ⟨w, l, hw⟩ := List.exists_cons_of_ne_nil hways
  refine ⟨w, ?_⟩
  unfold State.install
  simp [Core.line?, hempty, hw, State.modCore]

/-- A line put into an L1 without lines is its only one. -/
theorem putLine_empty {k : Core} (hempty : k.l1 = []) (x : L1Line) : k.putLine x = { k with l1 := [x] } := by
  simp [Core.putLine, Core.dropLine, hempty]

/-! ## The line of a read -/

section

variable {s : State} {c pa key : Nat} {g : Got} {a : Acc} {th : Thread}

/-- The line that a reflection brings a waiting access, in some way (R71, R95, R257). -/
def broughtLine (a : Acc) (pa key : Nat) (g : Got) (w : Nat) : L1Line := { g.line pa key (a.hint == 2) (a.state == 1) with way := w }

theorem is_broughtLine (a : Acc) (pa key : Nat) (g : Got) (w : Nat) : (broughtLine a pa key g w).is pa key = true :=
  is_iff.2 ⟨rfl, rfl⟩

/-- The miss-status entries that stay when a line's read ends (R71). -/
def unread (l : Tbl Miss) (pa key : Nat) : Tbl Miss := l.filter fun e => !(e.2.pa == lineOf pa && e.2.key == key && e.2.sector != 4)

/-- A read's entries are freed, and its line stands in the L1 unless its one access carried hint 1 (R71). -/
structure Brought (s u : State) (c pa key : Nat) (g : Got) (a : Acc) : Prop where
  step    : CoreStep s u
  threads : SameThreads s u
  net     : u.net = s.net
  core    : u.core c = { s.core c with misses := unread (s.core c).misses pa key, l1 := (u.core c).l1 }
  lines   : (u.core c).l1 = [] ∨ ∃ w, (u.core c).l1 = [broughtLine a pa key g w]
  kept    : a.hint ≠ 1 → (u.core c).l1 ≠ []

/-- The read of a line has ended: its entries are freed. -/
def readEnded (s : State) (c pa key : Nat) : State := s.setCore c { s.core c with misses := unread (s.core c).misses pa key }

/-- The line of a read that ends is offered to the L1, unless its one access carried hint 1 (R71). -/
def lineBrought (s : State) (c pa key : Nat) (g : Got) (a : Acc) : State :=
  if a.hint = 1 then readEnded s c pa key
  else ((readEnded s c pa key).install c (g.line pa key (a.hint == 2) (a.state == 1))).2

theorem brought_empty (hempty : (s.core c).l1 = []) (hways : (s.core c).cacheWays ≠ []) :
    Brought s (lineBrought s c pa key g a) c pa key g a := by
  have hcore : (readEnded s c pa key).core c = { s.core c with misses := unread (s.core c).misses pa key } := core_setCore _ _ _
  have hthreads : SameThreads s (readEnded s c pa key) :=
    threads_modCore s c (f := fun k => { k with misses := unread (s.core c).misses pa key }) fun _ => rfl
  have hstep : CoreStep s (readEnded s c pa key) := coreStep_setCore _ _ _
  unfold lineBrought
  split
  · next hhint => exact ⟨hstep, hthreads, rfl, by rw [hcore], .inl (by rw [hcore]; exact hempty), fun h => absurd hhint h⟩
  · obtain ⟨w, hinstall⟩ := install_empty (s := readEnded s c pa key) (by rw [hcore]; exact hempty) (by rw [hcore]; exact hways)
      (g.line pa key (a.hint == 2) (a.state == 1))
    have hl1 : ((readEnded s c pa key).modCore c (·.putLine (broughtLine a pa key g w))).core c =
        { s.core c with misses := unread (s.core c).misses pa key, l1 := [broughtLine a pa key g w] } := by
      rw [core_modCore, hcore, putLine_empty (by exact hempty)]
    rw [show ((readEnded s c pa key).install c (g.line pa key (a.hint == 2) (a.state == 1))).2 =
      (readEnded s c pa key).modCore c (·.putLine (broughtLine a pa key g w)) from congrArg Prod.snd hinstall]
    exact ⟨hstep.trans (coreStep_modCore _ _ _), hthreads.trans (threads_modCore _ c fun _ => rfl), rfl, by rw [hl1],
      .inr ⟨w, by rw [hl1]⟩, fun _ => by rw [hl1]; exact List.cons_ne_nil _ _⟩

/-- What a fill leaves to its access once the line has come: a COH load takes its turn, another is performed (R71, R89). -/
theorem fillCore_only (honly : (s.core c).accs = [a]) (hphase : a.phase = .fill) (hkind : a.kind = .load) (hline : lineOf a.pa = lineOf pa)
    (hkey : a.key = key) (hstale : ∀ e ∈ (s.core c).misses, e.2.stale = false) : s.fillCore c pa key g =
      if a.state = 0 then (lineBrought s c pa key g a).modAcc c a.id (fun b => { b with phase := .arrived, got := some g })
      else (lineBrought s c pa key g a).finishLoad c a g := by
  have hnone : (s.core c).misses.any (fun e => e.2.pa == lineOf pa && e.2.key == key && e.2.stale) = false :=
    List.any_eq_false.2 fun e he => by simp [hstale e he]
  have hwaits : (s.core c).accs.filter (fun b => b.phase == .fill && b.onLine pa key) = [a] := by
    simp [honly, hphase, Acc.onLine, hline, hkey]
  have hquiet : a.quiet = false := by rw [Acc.quiet, hkind]
  unfold State.fillCore lineBrought
  by_cases hhint : a.hint = 1
  · simp only [hwaits, hnone, hquiet, hhint, List.any_cons, List.any_nil, bne_self_eq_false, Bool.or_false, Bool.and_false,
      Bool.false_eq_true, if_false, if_true, List.foldl_cons, List.foldl_nil]
    rfl
  · simp only [hwaits, hnone, hquiet, hhint, List.any_cons, List.any_nil, bne_iff_ne.2 hhint, Bool.or_false, Bool.not_false, Bool.and_true,
      Bool.false_eq_true, if_false, if_true, List.foldl_cons, List.foldl_nil]
    rfl

/-- The copy that a COH load reads is what came for it, whether its line was installed or not. -/
theorem copyFor_brought {u : State} {b : Acc} (hlines : (u.core c).l1 = [] ∨ ∃ w, (u.core c).l1 = [broughtLine a pa key g w])
    (hline : lineOf b.pa = lineOf pa) (hkey : b.key = key) (hgot : b.got = some g) : u.copyFor c b = some g := by
  unfold State.copyFor
  rw [hgot, line?_of_line hline, hkey]
  obtain hnone | ⟨w, hone⟩ := hlines
  · rw [show (u.core c).line? pa key = none by rw [Core.line?, hnone]; rfl]
  · rw [show (u.core c).line? pa key = some (broughtLine a pa key g w) by
      rw [Core.line?, hone, List.find?_cons_of_pos (by exact is_broughtLine a pa key g w)]]
    simp [broughtLine, Got.line]
    rfl

/-- A waiting load whose line has come is performed, in COH in its turn, at the later of the core's time and the data's (R71, R86, R89). -/
theorem fill_loads {u : State} (hb : Brought s u c pa key g a) (honly : (s.core c).accs = [a]) (hline : lineOf a.pa = lineOf pa)
    (hkey : a.key = key) (hlink : s.linkDown a.pa = false)
    (hpoison : g.poison.getLsbD (a.pa / 64 % 4) = false) (hlease : a.state = 0 → (maxD (s.core c).ct g.wts).toNat ≤ g.rts.toNat)
    (hcount : a.count ≠ 0) (hth : s.thread? c a.slot a.tid = some th) :
    ∃ v b, (if a.state = 0 then u.modAcc c a.id (fun b => { b with phase := .arrived, got := some g })
        else u.finishLoad c a g).progress c = loaded v c b g ∧ Fills (loaded v c b g) c a th (ofLine a g.bytes) ∧
      CoreStep s v ∧ v.net = s.net ∧ b.pa = a.pa ∧ b.key = a.key ∧ v.core c = { u.core c with
        ct := if a.state = 0 then maxD (s.core c).ct g.wts else (s.core c).ct
        accs := [b] } := by
  have haccs : (u.core c).accs = [a] := by rw [hb.core]; exact honly
  have hct : (u.core c).ct = (s.core c).ct := by rw [hb.core]
  have hthread : u.thread? c a.slot a.tid = some th := (hb.threads _ _ _).trans hth
  have hup : u.linkDown a.pa = false := (hb.step.linkDown _).trans hlink
  by_cases hcoh : a.state = 0
  · let b : Acc := { a with phase := .arrived, got := some g }
    let v := u.modAcc c a.id fun b => { b with phase := .arrived, got := some g }
    have hcore : v.core c = { u.core c with accs := [b] } := core_modAcc_only haccs _
    have hvstep : CoreStep u v := coreStep_modAcc _ _ _ _
    have hvup : v.linkDown b.pa = false := (hvstep.linkDown _).trans hup
    have honlyV : (v.core c).accs = [b] := by rw [hcore]
    have hctV : (v.core c).ct = (s.core c).ct := by rw [hcore]; exact hct
    have hload := cohLoad_within honlyV (copyFor_brought (a := a) (by rw [hcore]; exact hb.lines) hline hkey rfl)
      (by rw [hctV]; exact hlease hcoh) hpoison hvup
    refine ⟨v.raiseCt c (maxD (v.core c).ct g.wts), b, ?_, ?_, hb.step.trans (hvstep.trans (coreStep_raiseCt _ _ _)), hb.net, rfl, rfl, ?_⟩
    · rw [if_pos hcoh, progress_under_way honlyV (by exact Phase.noConfusion), advance_arrived honlyV hvup rfl, hload]
    · exact fills_loaded (a := b) ⟨b, by rw [core_raiseCt, hcore], rfl⟩ hcount
        (((threads_raiseCt _ _ _ _ _ _).trans (thread_modAcc u c a.id _ _ _ _)).trans hthread)
    · rw [core_raiseCt, hcore, if_pos hcoh, ← hct]
      simp only [maxD_maxD]
  · have hfills := fills_loaded (g := g) ⟨a, haccs, rfl⟩ hcount hthread
    refine ⟨u, a, ?_, hfills, hb.step, hb.net, rfl, rfl, ?_⟩
    · rw [if_neg hcoh, finishLoad_clean hpoison hup, progress_idle hfills.1]
    · rw [if_neg hcoh, ← hct, ← haccs]

/-! ## Reflections -/

theorem exec_reflectionArrival {m k : Nat} {q : ReadReq} (hmsg : s.msg? m = some (.reflect k pa key [q] g)) (hcore : q.core = c)
    (hagent : q.agent = none) : exec (.reflectionArrival m) s = .next (((s.drop m).fillCore c pa key g).progress c) := by
  show execReflectionArrival m s = _
  unfold execReflectionArrival
  simp [hmsg, hcore, hagent]
  rfl

/-- A load that waits for its line gets it (R70, R71, R86). -/
theorem reflection_loads {m k : Nat} {q : ReadReq} (hmsg : s.msg? m = some (.reflect k pa key [q] g)) (hqcore : q.core = c)
    (hagent : q.agent = none) (h : Lone s c a th) (hkind : a.kind = .load) (hcount : a.count ≠ 0) (hphase : a.phase = .fill)
    (hline : lineOf a.pa = lineOf pa) (hkey : a.key = key) (hlink : s.linkDown a.pa = false)
    (hpoison : g.poison.getLsbD (a.pa / 64 % 4) = false) (hempty : (s.core c).l1 = []) (hways : (s.core c).cacheWays ≠ [])
    (hstale : ∀ e ∈ (s.core c).misses, e.2.stale = false) (hlease : a.state = 0 → (maxD (s.core c).ct g.wts).toNat ≤ g.rts.toNat) :
    ∃ u, exec (.reflectionArrival m) s = .next u ∧ Fills u c a th (ofLine a g.bytes) ∧ u.net = tdel s.net m ∧ SameBytes s u ∧
      (u.core c).ct = (if a.state = 0 then maxD (s.core c).ct g.wts else (s.core c).ct) ∧
      (∀ e ∈ (u.core c).misses, ¬ (e.2.pa = lineOf pa ∧ e.2.key = key ∧ e.2.sector ≠ 4)) ∧
      (a.hint ≠ 1 → ∃ y, (u.core c).line? pa key = some y ∧ y.bytes = g.bytes ∧ y.wts = g.wts ∧ y.rts = g.rts) := by
  have hb := brought_empty (s := s.drop m) (pa := pa) (key := key) (g := g) (a := a) hempty hways
  obtain ⟨v, b, hrun, hfills, hstep, hnet, hpa, hbkey, hcore⟩ := fill_loads hb h.accs hline hkey
    (((coreStep_drop s m).linkDown _).trans hlink) hpoison hlease hcount h.thread
  have hall := (coreStep_drop s m).trans (hstep.trans (coreStep_loaded v c b g))
  have hfill := fillCore_only (s := s.drop m) (g := g) h.accs hphase hkind hline hkey hstale
  refine ⟨_, ?_, hfills, ?_, hall.bytes, ?_, fun e he => ?_, fun hhint => ?_⟩
  · rw [exec_reflectionArrival hmsg hqcore hagent, hfill, hrun]
  · rw [net_loaded, hnet]
    rfl
  · rw [core_loaded, hcore]
    rfl
  · rw [core_loaded, hcore, hb.core] at he
    have hkept := (List.mem_filter.1 he).2
    rintro ⟨h1, h2, h3⟩
    simp [h1, h2, h3] at hkept
  · obtain hnone | ⟨w, hone⟩ := hb.lines
    · exact absurd hnone (hb.kept hhint)
    · refine ⟨broughtLine a pa key g w, ?_, rfl, rfl, rfl⟩
      rw [line_loaded _ _ _ _ _ _ (hpa ▸ hline) (hbkey.trans hkey), hcore]
      refine (line?_of_l1 (k := (lineBrought (s.drop m) c pa key g a).core c) rfl pa key).trans ?_
      rw [Core.line?, hone, List.find?_cons_of_pos (by exact is_broughtLine a pa key g w)]

/-! ## Renewals -/

theorem exec_renewalReply {m id : Nat} {w r : Dword} {got : Option Got} (hmsg : s.msg? m = some (.renewReply c id pa key w r got))
    (hacc : s.acc? c id = some a) (hkind : a.kind = .load) :
    exec (.renewalReply m) s = .next (((s.drop m).renewDone c a w r got).progress c) := by
  show execRenewalReply m s = _
  unfold execRenewalReply
  simp only [hmsg, show (s.drop m).acc? c id = some a from hacc, hkind]

/-- A load completes with the data that its renewal brings, at the later of the core's time and the data's (R87). -/
theorem renewal_brings {m id : Nat} {w r : Dword} (hmsg : s.msg? m = some (.renewReply c id pa key w r (some g))) (h : Lone s c a th)
    (hid : a.id = id) (hkind : a.kind = .load) (hcount : a.count ≠ 0) (hlink : s.linkDown a.pa = false)
    (hpoison : g.poison.getLsbD (a.pa / 64 % 4) = false) : ∃ u, exec (.renewalReply m) s = .next u ∧
      Fills u c a th (ofLine a g.bytes) ∧ (u.core c).ct = maxD (s.core c).ct g.wts := by
  let s1 := if a.hint = 1 then s.drop m else ((s.drop m).install c (g.line a.pa a.key (a.hint == 2) false)).2
  have hlines : LinesOnly c (s.drop m) s1 := by
    simp only [s1]
    split
    · exact .refl _ _
    · exact linesOnly_install _ _ _
  let v := s1.raiseCt c g.wts
  have hstep : CoreStep s v := (coreStep_drop s m).trans (hlines.step.trans (coreStep_raiseCt _ _ _))
  have hthread : v.thread? c a.slot a.tid = some th := ((threads_raiseCt _ _ _ _ _ _).trans (hlines.threads _ _ _)).trans h.thread
  have hcore : v.core c = { s.core c with l1 := (s1.core c).l1, ct := maxD (s.core c).ct g.wts } := by
    rw [core_raiseCt, hlines.core, drop_core]
  have hdone : (s.drop m).renewDone c a w r (some g) = loaded v c a g :=
    finishLoad_clean hpoison ((hstep.linkDown _).trans hlink)
  have hfills := fills_loaded (g := g) ⟨a, by rw [hcore]; exact h.accs, rfl⟩ hcount hthread
  refine ⟨_, ?_, hfills, ?_⟩
  · rw [exec_renewalReply hmsg (by rw [← hid]; exact acc_of_only h.accs) hkind, hdone, progress_idle hfills.1]
  · rw [core_loaded, hcore]

/-- The longer lease that a renewal gives the copy that it renewed (R87). -/
def renewed (a : Acc) (w r : Dword) (x : L1Line) : L1Line := if x.is a.pa a.key && x.wts == w then { x with rts := maxD x.rts r } else x

theorem is_renewed (a : Acc) (w r : Dword) (x : L1Line) (pa key : Nat) : (renewed a w r x).is pa key = x.is pa key := by
  unfold renewed
  split <;> rfl

/-- A load completes with the L1's copy, whose lease its renewal makes longer (R87). -/
theorem renewal_extends {m id : Nat} {w r : Dword} {x : L1Line} (hmsg : s.msg? m = some (.renewReply c id pa key w r none))
    (h : Lone s c a th) (hid : a.id = id) (hkind : a.kind = .load) (hcount : a.count ≠ 0) (hlink : s.linkDown a.pa = false)
    (hline : (s.core c).line? a.pa a.key = some x) (hw : x.wts = w) (hgot : a.got = none)
    (hpoison : x.poison.getLsbD (a.pa / 64 % 4) = false) : ∃ u y, exec (.renewalReply m) s = .next u ∧
      Fills u c a th (ofLine a x.bytes) ∧ (u.core c).ct = maxD (s.core c).ct x.wts ∧
      (u.core c).line? a.pa a.key = some y ∧ y.rts = maxD x.rts r := by
  subst hw
  let s1 := (s.drop m).modCore c fun k => { k with l1 := k.l1.map (renewed a x.wts r) }
  let y : L1Line := { x with rts := maxD x.rts r }
  have hy : renewed a x.wts r x = y := by
    rw [renewed, line?_is hline, beq_self_eq_true]
    rfl
  have hlines : LinesOnly c (s.drop m) s1 := linesOnly_modCore _ c fun _ => rfl
  have hlineY : (s1.core c).line? a.pa a.key = some y := by
    rw [core_modCore, ← hy]
    exact line?_map (fun z => is_renewed a x.wts r z a.pa a.key) hline
  let v := s1.raiseCt c x.wts
  have hstep : CoreStep s v := (coreStep_drop s m).trans (hlines.step.trans (coreStep_raiseCt _ _ _))
  have hthread : v.thread? c a.slot a.tid = some th := ((threads_raiseCt _ _ _ _ _ _).trans (hlines.threads _ _ _)).trans h.thread
  have hcore : v.core c = { s.core c with l1 := (s1.core c).l1, ct := maxD (s.core c).ct x.wts } := by
    rw [core_raiseCt, hlines.core, drop_core]
  have hcopy : s1.copyFor c a = some y.got := copyFor_held hlineY hgot
  have hdone : (s.drop m).renewDone c a x.wts r none = loaded v c a y.got := by
    unfold State.renewDone
    dsimp only
    split
    · next g hg =>
      obtain rfl : g = y.got := Option.some.inj (hg.symm.trans hcopy)
      exact finishLoad_clean hpoison ((hstep.linkDown _).trans hlink)
    · next hnone => cases hnone.symm.trans hcopy
  have hfills := fills_loaded (g := y.got) ⟨a, by rw [hcore]; exact h.accs, rfl⟩ hcount hthread
  refine ⟨_, y, ?_, hfills, ?_, ?_, rfl⟩
  · rw [exec_renewalReply hmsg (by rw [← hid]; exact acc_of_only h.accs) hkind, hdone, progress_idle hfills.1]
  · rw [core_loaded, hcore]
  · rw [line_loaded _ _ _ _ _ _ rfl rfl, hcore]
    exact (line?_of_l1 (k := s1.core c) rfl _ _).trans hlineY

end

end Sys2Proof.Laws
end

