-- ==== Sys2Proof/Proofs/CoreAnswers.lean ====
section
/-! SUPPORT. Acknowledgements, exclusive leases, replays and ticks at a core (O47; R70, R82, R88, R90, R92, R93, R237). -/

namespace Sys2Proof.Laws

open Sys2Proof.Machine Sys2Proof.Claims

section

variable {s : State} {m c id pa key : Nat} {a : Acc} {th : Thread}

/-! ## Acknowledgements -/

/-- The core's time once it has heard an acknowledgement (R82). -/
def heard (s : State) (c : Nat) (w : Option Dword) : State := match w with | some t => s.raiseCt c t | none => s

theorem coreStep_heard (s : State) (c : Nat) (w : Option Dword) : CoreStep s (heard s c w) := by
  cases w with
  | some t => exact coreStep_raiseCt _ _ _
  | none => exact .refl s

theorem net_heard (s : State) (c : Nat) (w : Option Dword) : (heard s c w).net = s.net := by
  cases w <;> rfl

theorem threads_heard (s : State) (c : Nat) (w : Option Dword) : SameThreads s (heard s c w) := by
  cases w with
  | some t => exact threads_raiseCt _ _ _
  | none => exact fun _ _ _ => rfl

theorem core_heard (s : State) (c : Nat) (w : Option Dword) :
    (heard s c w).core c = { s.core c with ct := w.elim (s.core c).ct (maxD (s.core c).ct) } := by
  cases w with
  | some t => exact core_raiseCt _ _ _
  | none => rfl

/-- A line as the acknowledgement of a store to it leaves it, at the store's time where it has one (R88). -/
def ackedLine (x : L1Line) (w : Option Dword) (data : List (Nat × Byte)) : L1Line :=
  match w with
  | some t => { x.write data with wts := t, rts := t }
  | none => x.write data

theorem is_ackedLine (x : L1Line) (w : Option Dword) (data : List (Nat × Byte)) (pa key : Nat) :
    (ackedLine x w data).is pa key = x.is pa key := by
  cases w <;> rfl

/-- A line in the place of the L1's copy of its address. -/
def inPlace (pa key : Nat) (y z : L1Line) : L1Line := if z.is pa key then y else z

/-- The L1's copy of a line that a store has met at home: newer by the store, or gone if it was older than the line there (R88, R90). -/
def acked (s : State) (c pa key : Nat) (w prev : Option Dword) (data : List (Nat × Byte)) : State :=
  match (s.core c).line? pa key with
  | some x =>
    if prev.any (· != x.wts) then s.modCore c (·.dropLine x)
    else s.modCore c fun k => { k with l1 := k.l1.map (inPlace pa key (ackedLine x w data)) }
  | none => s

theorem linesOnly_acked (s : State) (c pa key : Nat) (w prev : Option Dword) (data : List (Nat × Byte)) :
    LinesOnly c s (acked s c pa key w prev data) := by
  unfold acked
  split
  · split
    · exact linesOnly_modCore _ _ fun _ => rfl
    · exact linesOnly_modCore _ _ fun _ => rfl
  · exact .refl c s

theorem net_acked (s : State) (c pa key : Nat) (w prev : Option Dword) (data : List (Nat × Byte)) :
    (acked s c pa key w prev data).net = s.net := by
  unfold acked
  split
  · split <;> rfl
  · rfl

/-- A copy that is older than the line at home leaves (R90). -/
theorem acked_drops {x : L1Line} {w prev : Option Dword} {data : List (Nat × Byte)} {v : Dword} (hline : (s.core c).line? pa key = some x)
    (hprev : prev = some v) (hv : v ≠ x.wts) : ((acked s c pa key w prev data).core c).line? pa key = none := by
  have hold : prev.any (· != x.wts) = true := by simp [hprev, hv]
  unfold acked
  rw [hline]
  dsimp only
  rw [if_pos hold, core_modCore]
  exact line?_dropLine _ (line?_is hline)

/-- Another copy takes the store's bytes, and its time where it has one (R88). -/
theorem acked_writes {x : L1Line} {w prev : Option Dword} {data : List (Nat × Byte)} (hline : (s.core c).line? pa key = some x)
    (hprev : ∀ v, prev = some v → v = x.wts) : ∃ y, ((acked s c pa key w prev data).core c).line? pa key = some y ∧
      y.bytes = (x.write data).bytes ∧ y.wts = w.getD x.wts ∧ y.rts = w.getD x.rts := by
  have hnew : prev.any (· != x.wts) = false := by
    cases prev with
    | none => rfl
    | some v => simp [hprev v rfl]
  have his := line?_is hline
  refine ⟨ackedLine x w data, ?_, by cases w <;> exact ⟨rfl, rfl, rfl⟩⟩
  unfold acked
  rw [hline]
  dsimp only
  rw [hnew, if_neg Bool.false_ne_true, core_modCore]
  refine (line?_map (f := inPlace pa key (ackedLine x w data)) (fun z => ?_) hline).trans (congrArg some (if_pos his))
  unfold inPlace
  split
  · next hz => rw [is_ackedLine, his, hz]
  · rfl

/-- An acknowledgement of the one store of a core (R82, R88). -/
theorem exec_ack_store {w prev : Option Dword} {data : List (Nat × Byte)} {found : List Byte}
    (hmsg : s.msg? m = some (.ack c id pa key w data found false prev)) (honly : (s.core c).accs = [a]) (hid : a.id = id)
    (hlink : s.linkDown pa = false) (hkind : a.kind = .store) (hphase : a.phase = .sent) : exec (.storeAck m) s =
      .next ((acked ((heard (s.drop m) c w).removeAccs c [a.id]) c pa key w prev data).progress c) := by
  have hacc : (s.drop m).acc? c id = some a := by rw [← hid]; exact acc_of_only honly
  have hmates : ((heard (s.drop m) c w).core c).storeMates a .sent = [a] :=
    storeMates_only (by rw [core_heard]; exact honly) hphase hkind
  show execStoreAck m s = _
  unfold execStoreAck
  simp only [hmsg, hacc, hlink, hkind, Bool.and_false, Bool.or_false, beq_self_eq_true, if_true, Bool.false_eq_true, if_false]
  show Host.Outcome.next ((acked ((heard (s.drop m) c w).removeAccs c ((((heard (s.drop m) c w).core c).storeMates a .sent).map (·.id)))
    c pa key w prev data).progress c) = _
  rw [hmates]
  rfl

/-- An acknowledgement of the one atomic of a core, with what it found (R92). -/
theorem exec_ack_atomic {w prev : Option Dword} {data : List (Nat × Byte)} {found : List Byte}
    (hmsg : s.msg? m = some (.ack c id pa key w data found false prev)) (honly : (s.core c).accs = [a]) (hid : a.id = id)
    (hlink : s.linkDown pa = false) (hkind : a.kind ≠ .store) : exec (.storeAck m) s =
      .next (((heard (s.drop m) c w).finish c a found).progress c) := by
  have hacc : (s.drop m).acc? c id = some a := by rw [← hid]; exact acc_of_only honly
  show execStoreAck m s = _
  unfold execStoreAck
  simp only [hmsg, hacc, hlink, beq_eq_false_iff_ne.2 hkind, Bool.and_false, Bool.or_false, Bool.false_eq_true, if_false]
  rfl

theorem ack_store {w prev : Option Dword} {data : List (Nat × Byte)} {found : List Byte}
    (hmsg : s.msg? m = some (.ack c id pa key w data found false prev)) (h : Lone s c a th) (hid : a.id = id)
    (hlink : s.linkDown pa = false) (hkind : a.kind = .store) (hphase : a.phase = .sent) :
    ∃ u, exec (.storeAck m) s = .next u ∧ (u.core c).accs = [] ∧ (u.core c).ct = w.elim (s.core c).ct (maxD (s.core c).ct) ∧
      u.thread? c a.slot a.tid = some th ∧ u.net = tdel s.net m ∧
      ∀ x, (s.core c).line? pa key = some x → ((∃ v, prev = some v ∧ v ≠ x.wts) → (u.core c).line? pa key = none) ∧
        ((∀ v, prev = some v → v = x.wts) → ∃ y, (u.core c).line? pa key = some y ∧ y.bytes = (x.write data).bytes ∧
          y.wts = w.getD x.wts ∧ y.rts = w.getD x.rts) := by
  let s1 := (heard (s.drop m) c w).removeAccs c [a.id]
  let u := acked s1 c pa key w prev data
  have hcore : s1.core c = { s.core c with ct := w.elim (s.core c).ct (maxD (s.core c).ct), accs := [] } := by
    show ((heard (s.drop m) c w).modCore c fun k => { k with accs := k.accs.filter fun b => !([a.id].contains b.id) }).core c = _
    rw [core_modCore, core_heard, drop_core, h.accs]
    simp
  have hlines : LinesOnly c s1 u := linesOnly_acked _ _ _ _ _ _ _
  have haccs : (u.core c).accs = [] := by rw [hlines.core, hcore]
  have hthreads : SameThreads s s1 := SameThreads.trans (threads_heard (s.drop m) c w)
    (threads_modCore _ c (f := fun k => { k with accs := k.accs.filter fun b => !([a.id].contains b.id) }) fun _ => rfl)
  refine ⟨u, ?_, haccs, ?_, ?_, ?_, fun x hline => ?_⟩
  · rw [exec_ack_store hmsg h.accs hid hlink hkind hphase, progress_idle haccs]
  · rw [hlines.core, hcore]
  · rw [hlines.threads, hthreads, h.thread]
  · exact (net_acked _ _ _ _ _ _ _).trans (net_heard _ _ _)
  · have hline1 : (s1.core c).line? pa key = some x := by rw [hcore]; exact hline
    exact ⟨fun ⟨v, hprev, hv⟩ => acked_drops hline1 hprev hv, fun hprev => acked_writes hline1 hprev⟩

theorem ack_atomic {w prev : Option Dword} {data : List (Nat × Byte)} {found : List Byte}
    (hmsg : s.msg? m = some (.ack c id pa key w data found false prev)) (h : Lone s c a th) (hid : a.id = id)
    (hlink : s.linkDown pa = false) (hkind : a.kind ≠ .store) (hcount : a.count ≠ 0) :
    ∃ u, exec (.storeAck m) s = .next u ∧ Fills u c a th found ∧ (u.core c).ct = w.elim (s.core c).ct (maxD (s.core c).ct) ∧
      u.net = tdel s.net m := by
  have hcore := core_heard (s.drop m) c w
  have hfills := fills_finish (s := heard (s.drop m) c w) found ⟨a, by rw [hcore]; exact h.accs, rfl⟩ hcount
    ((threads_heard (s.drop m) c w _ _ _).trans h.thread)
  refine ⟨_, ?_, hfills, ?_, ?_⟩
  · rw [exec_ack_atomic hmsg h.accs hid hlink hkind, progress_idle hfills.1]
  · rw [core_finish, hcore]
    rfl
  · rw [net_finish, net_heard]
    rfl

/-! ## Exclusive leases -/

/-- The line that an exclusive grant brings, in some way (R93). -/
def ownedLine (pa key : Nat) (g : Got) (now w : Nat) : L1Line := { g.line pa key false false with excl := true, idle := now, way := w }

/-- The line once an atomic has been performed in it (R92, R93). -/
def atomicLine (x : L1Line) (a : Acc) (w : Dword) (now : Nat) : L1Line :=
  { x.write (zipFrom a.pa (a.kind.apply a.size (ofLine a x.bytes) a.data a.cmp)) with
    wts := w, rts := w, dirty := x.dirty ||| (1 <<< a.sector), idle := now, atom := a.inst }

/-- An atomic performed in its line: the line is newer and the most recently used, and the core's time with it. -/
def performed (s : State) (c : Nat) (a : Acc) (x : L1Line) (w : Dword) : State :=
  ((s.modCore c (·.putLine (atomicLine x a w (s.now c)))).raiseCt c w).finish c a (ofLine a x.bytes)

theorem atomicInL1_clean {x : L1Line} (hpoison : x.poison.getLsbD a.sector = false) :
    s.atomicInL1 c a x = performed s c a x (maxD (s.core c).ct (x.rts + 1)) := by
  rw [State.atomicInL1, hpoison]
  rfl

theorem threads_putLine (s : State) (c : Nat) (x : L1Line) : SameThreads s (s.modCore c (·.putLine x)) := threads_modCore s c fun _ => rfl

theorem fills_performed {x : L1Line} {w : Dword} (honly : (s.core c).accs = [a]) (hcount : a.count ≠ 0)
    (hth : s.thread? c a.slot a.tid = some th) : Fills (performed s c a x w) c a th (ofLine a x.bytes) := by
  refine fills_finish _ ⟨a, by rw [core_raiseCt, core_modCore]; exact honly, rfl⟩ hcount ?_
  exact ((threads_raiseCt _ _ _ _ _ _).trans (threads_putLine s c _ _ _ _)).trans hth

theorem core_performed (s : State) (c : Nat) (a : Acc) (x : L1Line) (w : Dword) : (performed s c a x w).core c = { s.core c with
    l1 := ((s.core c).putLine (atomicLine x a w (s.now c))).l1
    ct := maxD (s.core c).ct w
    accs := (s.core c).accs.filter (·.id != a.id)
    slots := ((performed s c a x w).core c).slots } := by
  rw [performed, core_finish, core_raiseCt, core_modCore]
  rfl

theorem exec_grant_some {g : Got} (hmsg : s.msg? m = some (.exclGrant c id pa key (some g))) (hempty : (s.core c).l1 = [])
    (hways : (s.core c).cacheWays ≠ []) : ∃ w, exec (.exclusiveGrantArrival m) s =
      .next (((s.drop m).modCore c (·.putLine (ownedLine pa key g (s.now c) w))).progress c) := by
  obtain ⟨w, hinstall⟩ := install_empty (s := s.drop m) (c := c) hempty hways
    { g.line pa key false false with excl := true, idle := (s.drop m).now c }
  refine ⟨w, ?_⟩
  show execExclusiveGrantArrival m s = _
  unfold execExclusiveGrantArrival
  simp only [hmsg]
  rw [hinstall]
  rfl

theorem exec_grant_none (hmsg : s.msg? m = some (.exclGrant c id pa key none)) (hacc : s.acc? c id = some a) :
    exec (.exclusiveGrantArrival m) s = .next (((s.drop m).sendAtomic c a true).progress c) := by
  show execExclusiveGrantArrival m s = _
  unfold execExclusiveGrantArrival
  simp only [hmsg, show (s.drop m).acc? c id = some a from hacc]

/-- A granted line is installed, and the atomic that waits for it is performed in it (R92, R93). -/
theorem grant_performs {g : Got} (hmsg : s.msg? m = some (.exclGrant c id pa key (some g))) (h : Lone s c a th)
    (hphase : a.phase = .excl) (hcount : a.count ≠ 0) (hline : lineOf a.pa = lineOf pa) (hkey : a.key = key)
    (hlink : s.linkDown a.pa = false) (hempty : (s.core c).l1 = []) (hways : (s.core c).cacheWays ≠ [])
    (hpoison : g.poison.getLsbD (a.pa / 64 % 4) = false) (hbytes : g.bytes.length = 256)
    (hfit : a.pa % 256 + (a.kind.apply a.size (ofLine a g.bytes) a.data a.cmp).length ≤ 256) :
    let new := a.kind.apply a.size (ofLine a g.bytes) a.data a.cmp
    let w := maxD (s.core c).ct (g.rts + 1)
    ∃ u y, exec (.exclusiveGrantArrival m) s = .next u ∧ Fills u c a th (ofLine a g.bytes) ∧ (u.core c).line? pa key = some y ∧
      y.excl = true ∧ y.wts = w ∧ y.rts = w ∧ (u.core c).ct = w ∧ ∀ j, j < 256 → y.bytes[j]? =
        if a.pa % 256 ≤ j ∧ j < a.pa % 256 + new.length then new[j - a.pa % 256]? else g.bytes[j]? := by
  intro new w
  obtain ⟨way, hrun⟩ := exec_grant_some hmsg hempty hways
  let x := ownedLine pa key g (s.now c) way
  let v := (s.drop m).modCore c (·.putLine x)
  have hcore : v.core c = { s.core c with l1 := [x] } := by
    rw [core_modCore, drop_core, putLine_empty hempty]
  have honly : (v.core c).accs = [a] := by rw [hcore]; exact h.accs
  have his : x.is pa key = true := is_iff.2 ⟨rfl, rfl⟩
  have hlineV : (v.core c).line? a.pa a.key = some x := by
    rw [line?_of_line hline, hkey, core_modCore]
    exact line?_putLine _ his
  have hstep : CoreStep s v := (coreStep_drop s m).trans (coreStep_modCore _ _ _)
  have hthread : v.thread? c a.slot a.tid = some th := (threads_putLine (s.drop m) c x _ _ _).trans h.thread
  have hadvance := advance_owned honly ((hstep.linkDown _).trans hlink) hphase hlineV rfl
  have hct : (v.core c).ct = (s.core c).ct := by rw [hcore]
  have hfills := fills_performed (x := x) (w := w) honly hcount hthread
  refine ⟨performed v c a x w, atomicLine x a w (v.now c), ?_, hfills, ?_, rfl, rfl, rfl, ?_, fun j hj => ?_⟩
  · rw [hrun, progress_under_way honly (by rw [hphase]; exact Phase.noConfusion), hadvance, atomicInL1_clean hpoison, hct]
    rfl
  · rw [core_performed]
    exact line?_putLine (v.core c) his
  · rw [core_performed]
    show maxD (v.core c).ct w = w
    rw [hct, maxD_maxD]
  · have hlen : a.pa % 256 + new.length ≤ 256 := hfit
    refine (getElem_put new a.pa g.bytes hbytes (by omega) hj).trans ?_
    clear_value new
    by_cases hin : a.pa % 256 ≤ j ∧ j < a.pa % 256 + new.length
    · rw [if_pos hin, show (j + 256 - a.pa % 256) % 256 = j - a.pa % 256 by omega, if_pos (by omega)]
    · rw [if_neg hin, if_neg (by omega)]

/-- Without a grant the atomic goes to home (R92, R93). -/
theorem grant_refused (hmsg : s.msg? m = some (.exclGrant c id pa key none)) (honly : (s.core c).accs = [a]) (hid : a.id = id) :
    ∃ u, exec (.exclusiveGrantArrival m) s = .next u ∧ (u.core c).accs = [{ a with phase := .sent }] ∧
      u.net = tdel s.net m ++ [(s.seq, .homeAtomic c id a.pa a.key (s.core c).ct true a.kind a.size a.data a.cmp)] := by
  let u := (s.drop m).sendAtomic c a true
  have haccs : (u.core c).accs = [inPhase .sent a] := by
    show ((State.groupAsks ((s.drop m).modAcc c a.id (inPhase .sent)) c a.slot a.size).core c).accs = _
    rw [core_groupAsks, core_modAcc_only (v := s.drop m) honly]
  refine ⟨u, ?_, haccs, ?_⟩
  · rw [exec_grant_none hmsg (by rw [← hid]; exact acc_of_only honly), progress_under_way haccs (by exact Phase.noConfusion)]
    exact congrArg _ (advance_sent haccs rfl)
  · show (State.groupAsks ((s.drop m).modAcc c a.id (inPhase .sent)) c a.slot a.size).net ++
      [((State.groupAsks ((s.drop m).modAcc c a.id (inPhase .sent)) c a.slot a.size).seq, _)] = _
    rw [net_groupAsks, seq_groupAsks, hid]
    rfl

/-- An exclusive line that its core gives up goes back to home (R93). -/
theorem evict_exclusive {x : L1Line} (hexcl : x.excl = true) : s.evict c x = (s.modCore c (·.dropLine x)).post (returned c x) := by
  rw [State.evict, hexcl]
  rfl

/-- The one line of an L1, given up. -/
theorem l1_evict_only {x : L1Line} (honly : (s.core c).l1 = [x]) (hexcl : x.excl = true) (hpa : lineOf x.pa = x.pa) :
    ((s.evict c x).core c).l1 = [] := by
  have his : x.is x.pa x.key = true := is_iff.2 ⟨hpa.symm, rfl⟩
  rw [evict_exclusive hexcl, post_core, core_modCore, Core.dropLine, honly]
  simp [his]

/-- An atomic instruction that has acted on a line is not finished, but for lanes that are parked or held (R93, R101). -/
def Busy (k : Core) (x : L1Line) : Prop := ∃ b ∈ k.accs, b.inst = x.atom ∧ b.phase ≠ .parked ∧ b.phase ≠ .held ∧
  ((∃ fn ty sc, b.kind = .atomic fn ty sc) ∨ ∃ ty sc, b.kind = .cas ty sc)

theorem atomBusy_of_busy {k : Core} {x : L1Line} (hline : k.line? pa key = some x) (hexcl : x.excl = true) (h : Busy k x) :
    k.atomBusy pa key = true := by
  obtain ⟨b, hb, hinst, hparked, hheld, hkind⟩ := h
  refine List.any_eq_true.2 ⟨x, List.mem_filter.2 ⟨line?_mem hline, by rw [hexcl, line?_is hline]; rfl⟩, List.any_eq_true.2 ⟨b, hb, ?_⟩⟩
  rw [hinst, beq_self_eq_true, Bool.true_and, Bool.and_eq_true]
  refine ⟨?_, ?_⟩
  · obtain ⟨fn, ty, sc, hk⟩ | ⟨ty, sc, hk⟩ := hkind <;> rw [hk]
  · split
    · next hp => exact absurd hp hparked
    · next hp => exact absurd hp hheld
    · rfl

theorem busy_of_atomBusy {k : Core} {x : L1Line} (honly : k.l1 = [x]) (h : k.atomBusy pa key = true) : Busy k x := by
  obtain ⟨y, hy, hany⟩ := List.any_eq_true.1 h
  obtain rfl : y = x := by
    have := (List.mem_filter.1 hy).1
    rw [honly] at this
    exact List.mem_singleton.1 this
  obtain ⟨b, hb, hkeeps⟩ := List.any_eq_true.1 hany
  rw [Bool.and_eq_true, Bool.and_eq_true, beq_iff_eq] at hkeeps
  obtain ⟨⟨hinst, hkind⟩, hphase⟩ := hkeeps
  refine ⟨b, hb, hinst, fun hp => ?_, fun hp => ?_, ?_⟩
  · rw [hp] at hphase
    cases hphase
  · rw [hp] at hphase
    cases hphase
  · split at hkind
    · next fn ty sc hk => exact .inl ⟨fn, ty, sc, hk⟩
    · next ty sc hk => exact .inr ⟨ty, sc, hk⟩
    · cases hkind

/-- A recall of a line that is on its way, or that an atomic instruction still keeps, waits (R93). -/
theorem recall_waits (hmsg : s.msg? m = some (.exclRecall c pa key))
    (h : (∃ e ∈ s.net, ∃ id p k g, e.2 = .exclGrant c id p k g ∧ lineOf p = lineOf pa) ∨ (s.core c).atomBusy pa key = true) :
    exec (.exclusiveRecall m) s = .next s := by
  show execExclusiveRecall m s = _
  unfold execExclusiveRecall
  simp only [hmsg]
  refine if_pos (Bool.or_eq_true_iff.2 (h.imp_left fun ⟨e, he, id, p, k, g, hgrant, hp⟩ => List.any_eq_true.2 ⟨e, he, ?_⟩))
  rw [hgrant]
  simp [hp]

/-- An owner that nothing keeps returns its line when it is recalled (R93). -/
theorem recall_returns {x : L1Line} (hmsg : s.msg? m = some (.exclRecall c pa key)) (hline : (s.core c).line? pa key = some x)
    (hexcl : x.excl = true) (hgrant : ∀ e ∈ s.net, ∀ id p k g, e.2 = .exclGrant c id p k g → lineOf p ≠ lineOf pa)
    (honly : (s.core c).l1 = [x]) (hbusy : (s.core c).atomBusy pa key = false) : exec (.exclusiveRecall m) s = .next ((s.drop m).evict c x) := by
  have hfind : ((s.drop m).core c).l1.find? (fun y => y.excl && y.is pa key) = some x := by
    rw [drop_core, honly]
    simp [hexcl, line?_is hline]
  show execExclusiveRecall m s = _
  unfold execExclusiveRecall
  simp only [hmsg, hbusy, Bool.or_false]
  rw [if_neg, State.giveBack, hfind]
  rw [Bool.not_eq_true, List.any_eq_false]
  intro e he
  split
  · next k id p n g hk =>
    simp only [Bool.and_eq_true, beq_iff_eq, not_and]
    rintro rfl
    exact hgrant e he id p n g hk
  · exact Bool.false_ne_true

/-- The time-out of a core's one line, which it holds exclusively (R93). -/
theorem exec_timeout {x : L1Line} (honly : (s.core c).l1 = [x]) (hexcl : x.excl = true) (hpa : x.pa = lineOf pa) :
    exec (.exclusiveTimeout c pa) s = .next (if x.idle + 1024 ≤ s.now c then s.evict c x else s) := by
  show execExclusiveTimeout c pa s = _
  unfold execExclusiveTimeout
  by_cases h : x.idle + 1024 ≤ s.now c
  · simp [honly, hexcl, hpa, h]
  · simp [honly, hexcl, hpa, h]

/-! ## Replays -/

theorem exec_replay (honly : (s.core c).accs = [a]) : exec (.accessReplay c a.id) s =
    .next (if a.phase = .logged then s.progress c else s) := by
  show execAccessReplay c a.id s = _
  unfold execAccessReplay
  simp [acc_of_only honly]

/-- A logged access that has its log entry and misses every TLB waits for its walk (R42, R237). -/
theorem replay_walks {g : Group} (h : Lone s c a th) (hg : s.group? c a.slot = some g) (hphase : a.phase = .logged)
    (hkind : a.kind = .load) (hlog : a.log.isSome = true) (hfault : regionFault (s.regionFor g.ctx a.va) c a.va = none)
    (hheld : s.regionHeld g.ctx a = false) (hmiss : s.tlbLookup c g.ctx a.va = none) :
    ∃ u n w, exec (.accessReplay c a.id) s = .next u ∧ (u.core c).accs = [{ a with phase := .walk }] ∧
      u.net = s.net ++ [(n, .tlbMiss (dieOf c) w)] ∧ w.ctx = g.ctx ∧ w.va = a.va ∧ w.waiters = [.acc c a.id] := by
  obtain ⟨e, he⟩ := Option.isSome_iff_exists.1 hlog
  have hentry : (s.core c).logFor a = some e := by rw [Core.logFor, he]
  have hmates : (s.core c).pageMates (s.regionFor g.ctx a.va) a = [a.id] := by simp [Core.pageMates, h.accs]
  have htranslated := translateAcc_misses (acc_of_only h.accs) hphase hg hheld (by rw [Acc.quiet, hkind]) hfault hmiss hentry
  rw [hmates] at htranslated
  have haccs := accs_walkAsked (e := e) (ctx := g.ctx) h.accs
  refine ⟨walkAsked s c g.ctx e a [a.id], s.seq + 1, pageWalk s c g.ctx a [a.id], ?_, ?_, net_walkAsked _ _ _ _ _ _, rfl, rfl, rfl⟩
  · rw [exec_replay h.accs, if_pos hphase, progress_one h.accs htranslated haccs]
    exact congrArg _ (advance_walking (acc_of_only haccs) rfl)
  · rw [haccs, awaiting, ← he]

/-- A logged load that has its log entry, whose page a TLB holds and whose line the L1 holds, is performed (R42, R68, R237). -/
theorem replay_loads {g : Group} {e : TlbEnt} {x : L1Line} (h : Lone s c a th) (hits : Hits s c a g e) (hkind : a.kind = .load)
    (hcount : a.count ≠ 0) (hline : (s.core c).line? (e.pa (s.regionFor g.ctx a.va) a.va) e.key = some x)
    (hpoison : x.poison.getLsbD (e.pa (s.regionFor g.ctx a.va) a.va / 64 % 4) = false) (hstate : (s.regionFor g.ctx a.va).state ≠ 0)
    (hopen : s.writeBacksOpen c = false) : ∃ u, exec (.accessReplay c a.id) s = .next u ∧
      Fills u c a th (ofLine { a with pa := e.pa (s.regionFor g.ctx a.va) a.va } x.bytes) ∧ SameBytes s u := by
  let b := onward (s.regionFor g.ctx a.va) e a
  let v := reached s c a g e
  have hcore := core_reached s c a g e
  have hstep := coreStep_reached s c a g e
  have honly : (v.core c).accs = [b] := by rw [hcore]
  have hlink : v.linkDown b.pa = false := (hstep.linkDown _).trans hits.linkDown
  have hlineV : (v.core c).line? b.pa b.key = some x := by rw [hcore]; exact hline
  have hload : v.load c b = loaded v c b x.got := by
    unfold State.load
    rw [show isHub b.pa = false from hits.memory, if_neg Bool.false_ne_true, if_neg (by exact hstate),
      lineBusy_only honly ((hstep.writeBacksOpen (net_reached _ _ _ _ _) c).trans hopen), hlineV]
    exact finishLoad_clean (g := x.got) hpoison hlink
  have hthread : v.thread? c b.slot b.tid = some th := (threads_reached _ _ _ _ _ _ _ _).trans h.thread
  refine ⟨loaded v c b x.got, ?_, fills_loaded (g := x.got) ⟨b, honly, rfl⟩ hcount hthread, (hstep.trans (coreStep_loaded _ _ _ _)).bytes⟩
  rw [exec_replay h.accs, if_pos hits.logged, progress_hits hits]
  exact congrArg _ ((advance_load honly hlink rfl hkind).trans hload)

/-! ## Ticks -/

/-- A tick at a core (R82). -/
def ticked (k : Core) : Core := { k with ct := k.ct + 1 }

/-- Ticks at some cores of a cluster, each once. -/
theorem core_tickAll (k : Nat) (l : List Nat) (hl : l.Nodup) (u : State) :
    (l.foldl (fun u n => u.modCore (16 * k + n) ticked) u).core c = if ∃ n ∈ l, c = 16 * k + n then ticked (u.core c) else u.core c := by
  induction l generalizing u with
  | nil => simp
  | cons n l ih =>
    obtain ⟨hn, hl⟩ := List.nodup_cons.1 hl
    rw [List.foldl_cons, ih hl]
    by_cases hc : c = 16 * k + n
    · rw [if_neg, if_pos ⟨n, List.mem_cons_self, hc⟩, hc, core_modCore]
      rintro ⟨j, hj, hcj⟩
      obtain rfl : j = n := by omega
      exact hn hj
    · rw [core_modCore_other _ _ hc]
      simp [hc]

theorem cluster_tickAll (k j : Nat) (l : List Nat) (u : State) :
    (l.foldl (fun u n => u.modCore (16 * k + n) ticked) u).cluster j = u.cluster j :=
  foldl_keeps (f := fun u n => u.modCore (16 * k + n) ticked) (p := fun u : State => u.cluster j) (fun _ _ => rfl) l u

/-- A tick that is due raises the time of each core of its cluster by one (R82). -/
theorem tick_raises {k : Nat} (h : (s.cluster k).ticks < (s.cluster k).front / 64) : ∃ u, exec (.tick k) s = .next u ∧
    (u.cluster k).ticks = (s.cluster k).ticks + 1 ∧
    ∀ c, u.core c = (if clusterOf c = k then { s.core c with ct := (s.core c).ct + 1 } else s.core c) := by
  let s1 := s.setCluster k { s.cluster k with ticks := (s.cluster k).ticks + 1 }
  let u := (List.range 16).foldl (fun u n => u.modCore (16 * k + n) ticked) s1
  refine ⟨u, ?_, ?_, fun c => ?_⟩
  · show Host.Outcome.next (s.tick k) = _
    unfold State.tick
    rw [if_neg (by omega)]
    rfl
  · rw [cluster_tickAll, cluster_setCluster]
  · have hiff : (∃ n ∈ List.range 16, c = 16 * k + n) ↔ clusterOf c = k := by
      constructor
      · rintro ⟨n, hn, rfl⟩
        have := List.mem_range.1 hn
        unfold clusterOf
        omega
      · rintro rfl
        exact ⟨c % 16, List.mem_range.2 (by omega), by unfold clusterOf; omega⟩
    rw [core_tickAll k _ List.nodup_range, setCluster_core, if_congr hiff rfl rfl]
    rfl

theorem tick_waits {k : Nat} (h : (s.cluster k).front / 64 ≤ (s.cluster k).ticks) : exec (.tick k) s = .next s := by
  show Host.Outcome.next (s.tick k) = _
  unfold State.tick
  rw [if_pos h]

end

/-! ## The obligation -/

/-- Settles O47: a part for each answer, each by what it leaves of the one access and the line that it meets. -/
theorem coreEvents : Obligations.CoreEvents := by
  unfold Obligations.CoreEvents
  refine ⟨⟨?_, ?_, ?_⟩, ?_, ?_, ?_, ?_, fun s k => ⟨tick_waits, tick_raises⟩⟩
  · intro s m k pa key c q g a th hmsg hqcore hagent h hkind hcount hphase hline hkey hlink hpoison hempty hways hstale hlease
    exact reflection_loads hmsg hqcore hagent h hkind hcount hphase hline hkey hlink hpoison hempty hways hstale hlease
  · intro s m c id pa key w r a th h hid hkind hcount hlink
    exact ⟨fun g hmsg hpoison => renewal_brings hmsg h hid hkind hcount hlink hpoison,
      fun x hmsg hline hw hgot hpoison => renewal_extends hmsg h hid hkind hcount hlink hline hw hgot hpoison⟩
  · intro s m c id pa key w prev data found a th hmsg h hid hlink
    exact ⟨fun hkind hphase => ack_store hmsg h hid hlink hkind hphase, fun hkind hcount => ack_atomic hmsg h hid hlink hkind hcount⟩
  · intro s m c id pa key a th h hid hphase hcount hline hkey hlink
    exact ⟨fun g hmsg hempty hways hpoison hbytes hfit =>
      grant_performs hmsg h hphase hcount hline hkey hlink hempty hways hpoison hbytes hfit, fun hmsg => grant_refused hmsg h.accs hid⟩
  · intro s m c pa key x hmsg hline hexcl
    refine ⟨fun hwait => recall_waits hmsg (hwait.imp_right fun hbusy => atomBusy_of_busy hline hexcl hbusy), fun hgrant honly hbusy => ?_⟩
    have hfree : (s.core c).atomBusy pa key = false := Bool.eq_false_of_not_eq_true fun h => hbusy (busy_of_atomBusy honly h)
    have hl1 := l1_evict_only (s := s.drop m) honly hexcl (lineOf_of_is (line?_is hline))
    refine ⟨_, recall_returns hmsg hline hexcl hgrant honly hfree, ?_, ?_⟩
    · rw [Core.line?, hl1]
      rfl
    · rw [evict_exclusive hexcl]
      rfl
  · intro s c pa x honly hexcl hpa
    rw [exec_timeout honly hexcl hpa]
    refine ⟨fun hearly => ?_, fun hdue => ⟨s.evict c x, ?_, l1_evict_only honly hexcl (by rw [hpa, lineOf_lineOf]), ?_⟩⟩
    · rw [if_neg (by omega)]
    · rw [if_pos hdue]
    · rw [evict_exclusive hexcl]
      rfl
  · intro s c a th g h hg r
    refine ⟨fun hphase => ?_, fun hphase hkind hlog hfault hheld => ⟨fun hmiss =>
      replay_walks h hg hphase hkind hlog hfault hheld hmiss, ?_⟩⟩
    · rw [exec_replay h.accs, if_neg hphase]
    · intro e x hcached hopen hadmits hmemory hline hpoison hstate hback hcount
      obtain ⟨n, hn⟩ := Option.isSome_iff_exists.1 hlog
      have hits : Hits s c a g e := {
        only := h.accs, logged := hphase, group := hg, free := hheld, loud := by rw [Acc.quiet, hkind], mapped := hfault
        entry := by rw [Core.logFor, hn]; rfl
        cached := hcached, open_ := hopen, admits := hadmits, dirty := .inl (by rw [Acc.code, hkind]), memory := hmemory }
      exact replay_loads h hits hkind hcount hline hpoison hstate hback

end Sys2Proof.Laws
end

