-- ==== Sys2Proof/Proofs/ScratchpadAtomics.lean ====
section
/-! SUPPORT. ATOMS and CASS of a thread alone: one access at its slice, which reads, and writes what the operation makes of what it finds
(O16; R99, R287 to R289). -/

namespace Sys2Proof.Laws

open Sys2Proof.Machine Sys2Proof.Claims

/-- The scratchpad access of an atomic of a lane, with its kind, its operand bytes and its compare bytes (R287 to R289). -/
def atomicWork (o : Op) (x : AccKind × List Byte × List Byte) (L : Lane) : SpadWork :=
  { kind := x.1, sa := L.atomSa, size := atomSize o, count := atomSize o / 4, dest := L.dstReg (atomSize o / 4), sext := false
    data := x.2.1, cmp := x.2.2 }

section

variable {i : Instr} {o : Op} {f : Lane → AccKind × List Byte × List Byte} {s : State} {t k off : Nat} {L : Lane}

/-- ATOMS and CASS are one scratchpad access of each lane, and neither a load nor a store. -/
theorem spadAtomicRow_exec (hrow : spadAtomicRow i = some (o, f)) (ho : L.o = o) :
    exec i s = .next (s.spadOp i o) ∧ L.spadWork i = atomicWork o (f L) L ∧ (f L).1 ≠ .load ∧ (f L).1 ≠ .store := by
  subst ho
  unfold spadAtomicRow at hrow
  split at hrow
  case h_3 => cases hrow
  all_goals
    obtain ⟨rfl, rfl⟩ := Prod.mk.inj (Option.some.inj hrow)
    exact ⟨rfl, rfl, AccKind.noConfusion, AccKind.noConfusion⟩

theorem spadDo_atomic {c slot : Nat} {w : SpadWork} (hload : w.kind ≠ .load) (hstore : w.kind ≠ .store) (ha : spadAt c w.sa = some (k, off)) :
    s.spadDo c slot t w =
      ((s.spadRead k off w.size).2.spadWrite k off (w.kind.apply w.size (s.spadRead k off w.size).1 w.data w.cmp)).modThread c slot t
        (fun th => th.fillAll w.dest (loadWords w.size w.sext (s.spadRead k off w.size).1)) := by
  unfold State.spadDo State.spadLoad State.spadStore
  rw [ha]
  split
  · next hk => exact absurd hk hstore
  · dsimp only
    rw [if_neg hload]

/-- An atomic access of the scratchpad gives its thread the bytes found and writes what its operation makes of them (R288, R289). -/
theorem spadAtomic_gives (hrow : spadAtomicRow i = some (o, f))
    (h : s.Alone i o (fun L => spadTrap L L.atomSa (atomSize o) (atomSize o)) t L) (ha : spadAt L.c L.atomSa = some (k, off)) :
    ∃ u old, exec i s = .next u ∧ old.length = atomSize o ∧ ReadsAs (s.core k) off old ∧
      let new := (f L).1.apply (atomSize o) old (f L).2.1 (f L).2.2
      u.thread? L.c L.slot t = some (after s (L.th.fillAll (L.dstReg (atomSize o / 4)) (loadWords (atomSize o) false old))) ∧
      (∀ c a, (u.core c).spadByte a =
        if c = k ∧ off ≤ a ∧ a < off + new.length then new[a - off]? else (s.core c).spadByte a) ∧ SpadOnly s u t := by
  obtain ⟨-, hc, hg, ht, ho⟩ := h.place
  obtain ⟨hexec, hwork, hload, hstore⟩ := spadAtomicRow_exec (s := s) hrow ho
  have hcheck : Lane.spadAccessTrap i L = spadTrap L L.atomSa (atomSize o) (atomSize o) := by
    rw [Lane.spadAccessTrap, hwork]
    rfl
  let old := (s.spadRead k off (atomSize o)).1
  let new := (f L).1.apply (atomSize o) old (f L).2.1 (f L).2.2
  let fill := fun th : Thread => th.fillAll (L.dstReg (atomSize o / 4)) (loadWords (atomSize o) false old)
  obtain ⟨m, hm⟩ := spadRead_state s k off (atomSize o)
  let v := ({ s with free := m } : State).spadWrite k off new
  have hdo : s.spadDo L.c L.slot L.tid (L.spadWork i) = v.modThread s.cur.core s.cur.slot t fill := by
    rw [hwork, spadDo_atomic (w := atomicWork o (f L) L) hload hstore ha, hc, hg, ht]
    exact congrArg (fun u : State => (u.spadWrite k off new).modThread s.cur.core s.cur.slot t fill) hm
  have hth : (v.modThread s.cur.core s.cur.slot t fill).thread? s.cur.core s.cur.slot t = some (fill L.th) := by
    rw [thread_modThread, State.thread?, group_spadWrite]
    exact congrArg (Option.map fill) h.thread
  have hs : SpadOnly s (v.modThread s.cur.core s.cur.slot t fill) t :=
    spadOnly_trans (spadOnly_trans (spadOnly_free s m t) rfl (spadOnly_spadWrite _ k off new t)) rfl (spadOnly_modThread v t fill)
  obtain ⟨u, hu, hut, hub, hus⟩ := alone_spadOp (alone_of_check_eq h hcheck) hdo (cur_modThread _ _ _ _ _) hth
    ((fillAll_due _ _ _).trans h.calm) hs
  refine ⟨u, old, hexec.trans (congrArg _ hu), spadRead_length _ _ _ _, readsAs_spadRead _ _ _ _, hut, fun c a => ?_, hus⟩
  exact (hub c a).trans ((spadByte_modThread _ _ _ _ _ _ _).trans (spadByte_spadWrite _ _ _ _ _ _))

end

/-- Settles O16: the access reads, and writes what its operation makes of the bytes found. -/
theorem scratchpadAtomics : Obligations.ScratchpadAtomics := by
  unfold Obligations.ScratchpadAtomics
  exact fun _ _ _ _ _ _ _ _ hrow h ha => spadAtomic_gives hrow h ha

end Sys2Proof.Laws
end

