-- ==== Sys2Proof/Proofs/AtomicAccess.lean ====
section
/-! SUPPORT. ATOM and CAS of a thread alone (O23; R92, R93, R288, R289): the one access is translated, and asks for its line, goes to its
line's home, or is performed in a line that the core holds exclusively. -/

namespace Sys2Proof.Laws

open Sys2Proof.Machine Sys2Proof.Claims

/-! ## A translated atomic -/

section

variable {v : State} {c : Nat} {b : Acc} {x : L1Line}

/-- An access whose kind is an atomic's. -/
def IsAtomic (b : Acc) : Prop := (∃ fn ty sc, b.kind = .atomic fn ty sc) ∨ ∃ ty sc, b.kind = .cas ty sc

theorem advance_atomic (honly : (v.core c).accs = [b]) (hlink : v.linkDown b.pa = false) (hphase : b.phase = .ready) (hkind : IsAtomic b) :
    v.advance c b.id = v.atomic c b := by
  unfold State.advance
  obtain ⟨fn, ty, sc, hk⟩ | ⟨ty, sc, hk⟩ := hkind <;> simp [acc_of_only honly, hlink, hphase, hk]

/-- An access has come to a phase, and its context is charged with n bytes. -/
def charged (v : State) (c : Nat) (b : Acc) (p : Phase) (n : Nat) : State := (v.modAcc c b.id (inPhase p)).groupAsks c b.slot n

theorem coreStep_charged (v : State) (c : Nat) (b : Acc) (p : Phase) (n : Nat) : CoreStep v (charged v c b p n) :=
  (coreStep_modAcc v c _ _).trans (coreStep_groupAsks _ _ _ _)

theorem core_charged (honly : (v.core c).accs = [b]) (p : Phase) (n : Nat) :
    (charged v c b p n).core c = { v.core c with accs := [inPhase p b] } := by
  rw [charged, core_groupAsks, core_modAcc_only honly]

theorem threads_charged (v : State) (c : Nat) (b : Acc) (p : Phase) (n : Nat) : SameThreads v (charged v c b p n) := by
  intro c' g t
  rw [charged, thread_of_cores (cores_groupAsks _ _ _ _), thread_modAcc]

theorem net_charged (v : State) (c : Nat) (b : Acc) (p : Phase) (n : Nat) : (charged v c b p n).net = v.net := net_groupAsks _ _ _ _

/-- A COH atomic of a narrow scope is to have its line exclusively, where the L1 has a way for it (R93). -/
def Owning (v : State) (c : Nat) (b : Acc) : Prop := b.state = 0 ∧ b.kind.scope ≤ 2 ∧ (v.core c).cacheWays ≠ []

/-- It asks for the line where the L1 lacks it (R93). -/
theorem atomic_asks (honly : (v.core c).accs = [b]) (how : Owning v c b) (hline : (v.core c).line? b.pa b.key = none) :
    v.atomic c b = (charged v c b .excl 256).post (.exclReq c b.id b.pa b.key true) := by
  obtain ⟨hcoh, hscope, hways⟩ := how
  unfold State.atomic
  simp only [if_pos hcoh, cohBefore_only honly rfl, hscope, List.isEmpty_eq_false_iff.2 hways, hline, decide_true, Bool.not_false,
    Bool.and_self, Bool.false_eq_true, if_false, if_true]
  rfl

/-- It is performed in a line that the core holds exclusively (R92, R93). -/
theorem atomic_here (honly : (v.core c).accs = [b]) (how : Owning v c b) (hline : (v.core c).line? b.pa b.key = some x)
    (hexcl : x.excl = true) (hpoison : x.poison.getLsbD b.sector = false) :
    v.atomic c b = performed v c b x (maxD (v.core c).ct (x.rts + 1)) := by
  obtain ⟨hcoh, hscope, hways⟩ := how
  unfold State.atomic
  simp only [if_pos hcoh, cohBefore_only honly rfl, hscope, List.isEmpty_eq_false_iff.2 hways, hline, hexcl, decide_true, Bool.not_false,
    Bool.and_self, Bool.false_eq_true, if_false, if_true]
  exact atomicInL1_clean hpoison

/-- Every other atomic goes to home (R92). -/
theorem atomic_sent (honly : (v.core c).accs = [b]) (how : ¬ Owning v c b) (hopen : b.state = 0 ∨ v.writeBacksOpen c = false) :
    v.atomic c b = (charged v c b .sent b.size).post
      (.homeAtomic c b.id b.pa b.key (v.core c).ct (b.state == 0) b.kind b.size b.data b.cmp) := by
  unfold State.atomic
  by_cases hcoh : b.state = 0
  · have hwide : (decide (b.kind.scope ≤ 2) && !(v.core c).cacheWays.isEmpty) = false := by
      rw [Bool.eq_false_iff, ne_eq, Bool.and_eq_true, decide_eq_true_eq, Bool.not_eq_true', List.isEmpty_eq_false_iff]
      exact fun h => how ⟨hcoh, h⟩
    simp only [if_pos hcoh, cohBefore_only honly rfl, hwide, Bool.false_eq_true, if_false]
    rw [hcoh]
    rfl
  · have hfirst : (v.core c).accs.takeWhile (·.id != b.id) = [] := by simp [honly]
    simp only [if_neg hcoh, lineBusy_only honly (hopen.resolve_left hcoh), hfirst, List.any_nil, Bool.or_self, Bool.false_eq_true, if_false]
    rw [beq_eq_false_iff_ne.2 hcoh]
    rfl

end

/-! ## The instruction -/

/-- The access that ATOM or CAS makes (R287 to R289). -/
theorem acc_atomic {i : Instr} {o : Op} {r : Request} (hi : i = .atom o ∨ i = .cas o) (h : memRow i = some r) (L : Lane) :
    IsAtomic (r.acc L) ∧ (r.acc L).kind.scope = atomScope o ∧ (r.acc L).size = atomSize o ∧ (r.acc L).count = atomSize o / 4 ∧
      (r.acc L).sext = false ∧ (r.acc L).replay = false := by
  obtain rfl | rfl := hi <;> obtain rfl := Option.some.inj h
  · exact ⟨.inl ⟨_, _, _, rfl⟩, rfl, rfl, rfl, rfl, rfl⟩
  · exact ⟨.inr ⟨_, _, rfl⟩, rfl, rfl, rfl, rfl, rfl⟩

theorem atomSize_cases (o : Op) : atomSize o = 4 ∨ atomSize o = 8 := by
  unfold atomSize
  split <;> simp

/-- An atomic fills as many registers as it names (R288). -/
theorem loadWords_length_atomic (o : Op) (bs : List Byte) : (loadWords (atomSize o) false bs).length = atomSize o / 4 := by
  obtain h | h := atomSize_cases o <;> rw [h] <;> rfl

section

variable {s : State} {i : Instr} {o : Op} {r : Request} {t : Nat} {L : Lane} {e : TlbEnt}

/-- The issued atomic is translated, its thread has moved on with its destinations empty, and it does what it can. -/
theorem atomic_served (hi : i = .atom o ∨ i = .cas o) (hrow : memRow i = some r) (h : Requests s i r t L) (hr : Reaches s L (r.acc L) e) :
    ∃ v, Served s t L (r.acc L) e v ∧ ∀ u th, v.atomic L.c (readyAcc s L (r.acc L) e) = u → CoreStep v u →
      u.thread? L.c L.slot t = some th → th.due = [] → exec i s = .next u := by
  obtain ⟨hkind, -, -, -, -, hreplay⟩ := acc_atomic hi hrow L
  obtain ⟨v, hv, hprogress⟩ := issued_served h hr ((memRow_exec hrow).2 L) hreplay
  refine ⟨v, hv, fun u th hu hstep hthread hdue => ?_⟩
  have hadvance := (advance_atomic (by rw [hv.core]) hv.link rfl hkind).trans hu
  exact exec_served hrow h hprogress hadvance (hv.step.trans hstep) hthread hdue

/-- An atomic that leaves its core: its access has come to a phase, and one message is sent. -/
theorem atomic_leaves (hi : i = .atom o ∨ i = .cas o) (hrow : memRow i = some r) (h : Requests s i r t L) (hr : Reaches s L (r.acc L) e)
    {p : Phase} {n : Nat} {m : Msg}
    (hmsg : ∀ v, Served s t L (r.acc L) e v →
      v.atomic L.c (readyAcc s L (r.acc L) e) = (charged v L.c (readyAcc s L (r.acc L) e) p n).post m) :
    let a := translated s L (r.acc L) e
    ∃ u k, exec i s = .next u ∧ u.thread? L.c L.slot t = some (after s (L.th.drainAll a.dest a.count)) ∧
      (u.core L.c).accs = [inPhase p a] ∧ u.net = s.net ++ [(k, m)] ∧ SameBytes s u := by
  intro a
  obtain ⟨v, hv, hexec⟩ := atomic_served hi hrow h hr
  have honly : (v.core L.c).accs = [readyAcc s L (r.acc L) e] := by rw [hv.core]
  have hstep := (coreStep_charged v L.c (readyAcc s L (r.acc L) e) p n).trans (coreStep_post _ m)
  have hthread := (threads_charged v L.c (readyAcc s L (r.acc L) e) p n L.c L.slot t).trans hv.thread
  have haccs : (((charged v L.c (readyAcc s L (r.acc L) e) p n).post m).core L.c).accs = [inPhase p a] := by
    rw [post_core, core_charged honly]
    rfl
  have hnet : ∃ k, ((charged v L.c (readyAcc s L (r.acc L) e) p n).post m).net = s.net ++ [(k, m)] :=
    ⟨_, by rw [post_net, net_charged, hv.net]⟩
  obtain ⟨k, hnet⟩ := hnet
  exact ⟨_, k, hexec _ _ (hmsg v hv) hstep hthread ((drainAll_due _ _ _).trans h.calm), hthread, haccs, hnet, (hv.step.trans hstep).bytes⟩

/-- ATOM and CAS without their line (R92, R93). -/
theorem atomic_without_line (hi : i = .atom o ∨ i = .cas o) (hrow : memRow i = some r) (h : Requests s i r t L)
    (hr : Reaches s L (r.acc L) e) :
    let a := translated s L (r.acc L) e
    let own := a.state = 0 ∧ atomScope o ≤ 2 ∧ (s.core L.c).cacheWays ≠ []
    (s.core L.c).line? a.pa a.key = none → Clear s L a →
    ∃ u n, exec i s = .next u ∧ u.thread? L.c L.slot t = some (after s (L.th.drainAll a.dest a.count)) ∧
      (own → (u.core L.c).accs = [{ a with phase := .excl }] ∧ u.net = s.net ++ [(n, .exclReq L.c a.id a.pa a.key true)]) ∧
      (¬ own → (u.core L.c).accs = [{ a with phase := .sent }] ∧
        u.net = s.net ++ [(n, .homeAtomic L.c a.id a.pa a.key (s.core L.c).ct (a.state == 0) a.kind a.size a.data a.cmp)]) ∧
      SameBytes s u := by
  intro a own hline hclear
  have hscope := (acc_atomic hi hrow L).2.1
  have howning : ∀ v, Served s t L (r.acc L) e v → (Owning v L.c (readyAcc s L (r.acc L) e) ↔ own) := by
    intro v hv
    rw [Owning, hv.core]
    show a.state = 0 ∧ (r.acc L).kind.scope ≤ 2 ∧ (s.core L.c).cacheWays ≠ [] ↔ own
    rw [hscope]
  by_cases how : own
  · obtain ⟨u, n, hexec, hthread, haccs, hnet, hsame⟩ := atomic_leaves hi hrow h hr (p := .excl) fun v hv =>
      atomic_asks (by rw [hv.core]) ((howning v hv).2 how) (by rw [hv.core]; exact hline)
    exact ⟨u, n, hexec, hthread, fun _ => ⟨haccs, hnet⟩, fun hn => absurd how hn, hsame⟩
  · obtain ⟨u, n, hexec, hthread, haccs, hnet, hsame⟩ := atomic_leaves hi hrow h hr (p := .sent) (n := a.size)
      (m := .homeAtomic L.c a.id a.pa a.key (s.core L.c).ct (a.state == 0) a.kind a.size a.data a.cmp) fun v hv => by
        rw [atomic_sent (by rw [hv.core]) (fun hw => how ((howning v hv).1 hw))
          (hclear.imp id fun hopen => (hv.step.writeBacksOpen hv.net _).trans hopen), hv.core]
        rfl
    exact ⟨u, n, hexec, hthread, fun hy => absurd hy how, fun _ => ⟨haccs, hnet⟩, hsame⟩

/-- ATOM and CAS of a narrow scope in a line that their core holds exclusively (R92, R93, R288, R289). -/
theorem atomic_in_line {x : L1Line} (hi : i = .atom o ∨ i = .cas o) (hrow : memRow i = some r) (h : Requests s i r t L)
    (hr : Reaches s L (r.acc L) e) :
    let a := translated s L (r.acc L) e
    let w := maxD (s.core L.c).ct (x.rts + 1)
    let old := (x.bytes.drop (a.pa % 256)).take a.size
    a.state = 0 → atomScope o ≤ 2 → (s.core L.c).cacheWays ≠ [] → (s.core L.c).line? a.pa a.key = some x → x.excl = true →
    x.poison.getLsbD (a.pa / 64 % 4) = false →
    ∃ u y, exec i s = .next u ∧ u.thread? L.c L.slot t = some (after s (L.th.fillAll a.dest (loadWords (atomSize o) false old))) ∧
      (u.core L.c).accs = [] ∧ (u.core L.c).line? a.pa a.key = some y ∧
      y.bytes = (x.write (zipFrom a.pa (a.kind.apply a.size old a.data a.cmp))).bytes ∧
      y.wts = w ∧ y.rts = w ∧ (u.core L.c).ct = w ∧ u.net = s.net ∧ SameBytes s u := by
  intro a w old hcoh hnarrow hways hline hexcl hpoison
  obtain ⟨-, hscope, hsize, hcount, hsext, -⟩ := acc_atomic hi hrow L
  have hfresh := (memRow_exec hrow).2 L
  obtain ⟨-, -, -, htid, -⟩ := h.place
  obtain ⟨v, hv, hexec⟩ := atomic_served hi hrow h hr
  let b := readyAcc s L (r.acc L) e
  have honly : (v.core L.c).accs = [b] := by rw [hv.core]
  have hct : (v.core L.c).ct = (s.core L.c).ct := by rw [hv.core]
  have hlineV : (v.core L.c).line? b.pa b.key = some x := by rw [hv.core]; exact hline
  have hrun := atomic_here honly ⟨hcoh, hscope.trans_le hnarrow, by rw [hv.core]; exact hways⟩ hlineV hexcl hpoison
  rw [hct] at hrun
  have hthread : v.thread? L.c b.slot b.tid = some (after s (L.th.drainAll a.dest a.count)) := by
    rw [show b.slot = L.slot from hfresh.slot, show b.tid = t from hfresh.tid.trans htid]
    exact hv.thread
  have hsome : b.count ≠ 0 := by
    rw [show b.count = atomSize o / 4 from hcount]
    obtain hz | hz := atomSize_cases o <;> rw [hz] <;> decide
  obtain ⟨haccs, hfills⟩ := fills_performed (w := w) (x := x) honly hsome hthread
  have hwords : loadWords b.size b.sext (ofLine b x.bytes) = loadWords (atomSize o) false old := by
    rw [show b.sext = false from hsext, show b.size = atomSize o from hsize, ofLine, show b.size = a.size from rfl]
    rfl
  have hregs : a.count = (loadWords (atomSize o) false old).length := hcount.trans (loadWords_length_atomic o old).symm
  have hfilled : (performed v L.c b x w).thread? L.c L.slot t =
      some (after s (L.th.fillAll a.dest (loadWords (atomSize o) false old))) := by
    rw [← fillAll_drained, ← hregs, ← hwords, ← hfresh.slot, ← htid, ← hfresh.tid]
    exact hfills
  have hstep : CoreStep v (performed v L.c b x w) :=
    ((coreStep_modCore _ _ _).trans (coreStep_raiseCt _ _ _)).trans (coreStep_finish _ _ _ _)
  refine ⟨_, atomicLine x b w (v.now L.c), hexec _ _ hrun hstep hfilled ((fillAll_due _ _ _).trans h.calm), hfilled, haccs, ?_, rfl, rfl, rfl,
    ?_, ?_, (hv.step.trans hstep).bytes⟩
  · rw [core_performed]
    exact line?_putLine (v.core L.c) (show x.is a.pa a.key = true from line?_is hline)
  · rw [core_performed]
    show maxD (v.core L.c).ct w = w
    rw [hct, maxD_maxD]
  · rw [performed, net_finish]
    exact hv.net

end

/-- A line's bytes after some that start at an address, and end within it, are put into it. -/
theorem getElem_write_within {x : L1Line} {pa : Nat} {new : List Byte} (hbytes : x.bytes.length = 256) (hfit : pa % 256 + new.length ≤ 256)
    {j : Nat} (hj : j < 256) :
    (x.write (zipFrom pa new)).bytes[j]? =
      if pa % 256 ≤ j ∧ j < pa % 256 + new.length then new[j - pa % 256]? else x.bytes[j]? := by
  refine (getElem_put new pa x.bytes hbytes (by omega) hj).trans ?_
  by_cases hin : pa % 256 ≤ j ∧ j < pa % 256 + new.length
  · rw [if_pos hin, show (j + 256 - pa % 256) % 256 = j - pa % 256 by omega, if_pos (by omega)]
  · rw [if_neg hin, if_neg (by omega)]

/-- Settles O23: the access is translated, and leaves for its line or is performed in it. -/
theorem atomics : Obligations.Atomics := by
  unfold Obligations.Atomics
  refine ⟨fun i o r s t L e hi hrow h hr => atomic_without_line hi hrow h hr, ?_⟩
  intro i o r s t L e x hi hrow h hr a w old new hcoh hnarrow hways hline hexcl hpoison hbytes hfit
  obtain ⟨u, y, hrun, hthread, haccs, hlineU, hy, hrest⟩ := atomic_in_line hi hrow h hr hcoh hnarrow hways hline hexcl hpoison
  exact ⟨u, y, hrun, hthread, haccs, hlineU, fun j hj => by rw [hy]; exact getElem_write_within hbytes hfit hj, hrest⟩

end Sys2Proof.Laws
end

