-- ==== Sys2Proof/Proofs/LeaseLengths.lean ====
section
/-! SUPPORT. Leases (O60; R53, R84 to R87): the renewal that a load of a copy whose lease has run out asks for, and the lease that home
fixes for the requesters of a line. -/

namespace Sys2Proof.Laws

open Sys2Proof.Machine Sys2Proof.Claims

theorem leaseLen_toNat (h : Nat) : (leaseLen h).toNat = lengthOf h := by
  unfold leaseLen lengthOf
  split
  · rfl
  · split <;> rfl

theorem leaseLen_eq (h : Nat) : leaseLen h = BitVec.ofNat 64 (lengthOf h) := by
  rw [← leaseLen_toNat, BitVec.ofNat_toNat, BitVec.setWidth_eq]

/-! ## A renewal -/

section

variable {v : State} {c : Nat} {b : Acc} {x : L1Line}

/-- An access whose copy is to be renewed, under the hint that the core's ways let it act as (R70, R87). -/
def renewing (k : Core) (b : Acc) : Acc := { b with phase := .renew, hint := k.hintFor b }

/-- The renewal that a load of the copy x asks for (R84, R87). -/
def renewalOf (k : Core) (c : Nat) (b : Acc) (x : L1Line) : Msg :=
  .renew c b.id b.pa b.key (some x.wts) k.ct (lengthOf (k.hintFor b))

/-- The access has come to its turn and waits for its renewal. -/
def awaitsRenewal (v : State) (c : Nat) (b : Acc) : State :=
  (v.modAcc c b.id (inPhase .arrived)).modAcc c b.id (fun a => { a with phase := .renew, hint := (v.core c).hintFor b })

/-- A COH load of a copy whose lease has run out asks for its renewal (R86, R87). -/
theorem load_renews (honly : (v.core c).accs = [b]) (hhub : isHub b.pa = false) (hgot : b.got = none) (hcoh : b.state = 0)
    (hline : (v.core c).line? b.pa b.key = some x) (hlease : x.rts.toNat < (maxD (v.core c).ct x.wts).toNat) :
    v.load c b = (awaitsRenewal v c b).post (renewalOf (v.core c) c b x) := by
  let v1 := v.modAcc c b.id (inPhase .arrived)
  have hcore : v1.core c = { v.core c with accs := [inPhase .arrived b] } := core_modAcc_only honly _
  have hcopy : v1.copyFor c (inPhase .arrived b) = some x.got := copyFor_held (by rw [hcore]; exact hline) hgot
  have hturn : (v1.core c).cohBefore (inPhase .arrived b) [] = false := cohBefore_only (b := inPhase .arrived b) (by rw [hcore]) rfl []
  have hload : v.load c b = v1.cohLoad c (inPhase .arrived b) := by
    unfold State.load
    rw [hhub, if_neg Bool.false_ne_true, if_pos hcoh, hline]
    rfl
  have hout : ¬ (maxD (v1.core c).ct x.got.wts).toNat ≤ x.got.rts.toNat := by
    rw [hcore]
    exact Nat.not_le.2 hlease
  rw [hload, State.cohLoad]
  simp only [hturn, hcopy, Bool.false_eq_true, if_false, if_neg hout]
  rw [hcore, leaseLen_toNat]
  rfl

theorem coreStep_awaitsRenewal (v : State) (c : Nat) (b : Acc) : CoreStep v (awaitsRenewal v c b) :=
  (coreStep_modAcc v c _ _).trans (coreStep_modAcc _ c _ _)

theorem threads_awaitsRenewal (v : State) (c : Nat) (b : Acc) : SameThreads v (awaitsRenewal v c b) := by
  intro c' g t
  rw [awaitsRenewal, thread_modAcc, thread_modAcc]

theorem core_awaitsRenewal (honly : (v.core c).accs = [b]) :
    (awaitsRenewal v c b).core c = { v.core c with accs := [renewing (v.core c) b] } := by
  have hcore := core_modAcc_only honly (inPhase .arrived)
  have hagain := core_modAcc_only (v := v.modAcc c b.id (inPhase .arrived)) (b := inPhase .arrived b) (by rw [hcore])
    (fun a => { a with phase := .renew, hint := (v.core c).hintFor b })
  rw [hcore] at hagain
  exact hagain

end

/-- H outside the 64-bit form with IMM = 1 asks for the length of its hint, an ignored value for that of hint 0 (R84, R259). -/
theorem lengthOf_hintOf {o : Op} (h : o.form ≠ .w64 ∨ o.imm = false) (k : Core) (b : Acc) (hb : b.hint = hintOf o) :
    lengthOf (k.hintFor b) = lengthOf (if k.mask = 0xFFFF then 1 else o.h.toNat) := by
  have hform : (o.form == .w64 && o.imm) = false := by
    obtain hf | hi := h
    · rw [beq_eq_false_iff_ne.2 hf, Bool.false_and]
    · rw [hi, Bool.and_false]
  rw [Core.hintFor, hb, hintOf, hform]
  split
  · rfl
  · rw [if_neg Bool.false_ne_true]
    split
    · rfl
    · rw [lengthOf, lengthOf, if_neg (by omega), if_neg (by omega), if_neg (by omega), if_neg (by omega)]

/-- A load of a copy whose lease has run out (R84, R86, R87). -/
theorem ld_renews {o : Op} {r : Request} {s : State} {t : Nat} {L : Lane} {e : TlbEnt} {x : L1Line} (hrow : memRow (.ld o) = some r)
    (h : Requests s (.ld o) r t L) (hr : Reaches s L (r.acc L) e) :
    let a := translated s L (r.acc L) e
    a.state = 0 → (s.core L.c).line? a.pa a.key = some x → x.rts.toNat < (maxD (s.core L.c).ct x.wts).toNat →
    ∃ u n, exec (.ld o) s = .next u ∧ u.thread? L.c L.slot t = some (after s (L.th.drainAll a.dest a.count)) ∧
      (u.core L.c).accs = [renewing (s.core L.c) a] ∧ SameBytes s u ∧ u.net = s.net ++ [(n, renewalOf (s.core L.c) L.c a x)] := by
  intro a hcoh hline hlease
  obtain ⟨hkind, -, -, -, -, hgot, hreplay, -⟩ := acc_ld hrow L
  obtain ⟨v, hv, hprogress⟩ := issued_served h hr ((memRow_exec hrow).2 L) hreplay
  let b := readyAcc s L (r.acc L) e
  have honly : (v.core L.c).accs = [b] := by rw [hv.core]
  have hload := load_renews (b := b) honly hr.memory hgot hcoh (by rw [hv.core]; exact hline) (by rw [hv.core]; exact hlease)
  have hall := hv.step.trans ((coreStep_awaitsRenewal v L.c b).trans (coreStep_post _ (renewalOf (v.core L.c) L.c b x)))
  have hthread : ((awaitsRenewal v L.c b).post (renewalOf (v.core L.c) L.c b x)).thread? L.c L.slot t =
      some (after s (L.th.drainAll a.dest a.count)) := (threads_awaitsRenewal v L.c b _ _ _).trans hv.thread
  refine ⟨_, (awaitsRenewal v L.c b).seq, exec_served hrow h hprogress ((advance_load honly hv.link rfl hkind).trans hload) hall hthread
    ((drainAll_due _ _ _).trans h.calm), hthread, ?_, hall.bytes, ?_⟩
  · rw [post_core, core_awaitsRenewal honly, hv.core]
    rfl
  · rw [post_net, hv.core]
    exact congrArg (· ++ _) hv.net

/-! ## The lease that home fixes -/

/-- The largest of some values, where none is larger than c and c is one of them. -/
theorem foldl_maxD {α : Type} (f : α → Dword) (l : List α) {m c : Dword} (hm : m.toNat ≤ c.toNat) (hle : ∀ q ∈ l, (f q).toNat ≤ c.toNat)
    (hc : m = c ∨ ∃ q ∈ l, f q = c) : l.foldl (fun m q => maxD m (f q)) m = c := by
  induction l generalizing m with
  | nil => exact hc.resolve_right (by simp)
  | cons q l ih =>
    obtain ⟨hq, hle⟩ := List.forall_mem_cons.1 hle
    have hmax : maxD m (f q) = m ∨ maxD m (f q) = f q := by
      unfold maxD
      split <;> simp
    have htop : m = c ∨ f q = c → maxD m (f q) = c := by
      unfold maxD
      rintro (rfl | hf)
      · split
        · exact BitVec.eq_of_toNat_eq (by omega)
        · rfl
      · rw [hf, if_pos hm]
    refine ih (show (maxD m (f q)).toNat ≤ c.toNat by obtain h | h := hmax <;> rw [h] <;> assumption) hle ?_
    obtain h | ⟨p, hp, hf⟩ := hc
    · exact .inl (htop (.inl h))
    · obtain rfl | hp := List.mem_cons.1 hp
      · exact .inl (htop (.inr hf))
      · exact .inr ⟨p, hp, hf⟩

theorem lengthOf_eq_zero {h : Nat} : lengthOf h = 0 ↔ h = 5 := by
  unfold lengthOf
  split
  · omega
  · split <;> omega

section

variable {reqs : List ReadReq} {w r c : Dword}

/-- Requesters that ask for no lease leave the line's as it is (R53, R84). -/
theorem leaseEnd_unasked (h : ∀ q ∈ reqs, lengthOf q.hint = 0) : leaseEnd reqs w r = r := by
  have hnone : reqs.filter (fun q : ReadReq => q.hint != 5) = [] := List.filter_eq_nil_iff.2 fun q hq => by simp [lengthOf_eq_zero.1 (h q hq)]
  rw [leaseEnd, hnone]
  rfl

/-- The longest length asked counts from the latest of the requesters' times and from the line's own (R53, R85). -/
theorem leaseEnd_longest {len : Nat} (hle : ∀ q ∈ reqs, lengthOf q.hint ≤ len) (hlen : ∃ q ∈ reqs, lengthOf q.hint = len) (hpos : 0 < len)
    (hct : ∀ q ∈ reqs, q.ct.toNat ≤ c.toNat) (hc : ∃ q ∈ reqs, q.ct = c) :
    leaseEnd reqs w r = maxD r (maxD (w + BitVec.ofNat 64 len) (c + BitVec.ofNat 64 len)) := by
  obtain ⟨p, hp, rfl⟩ := hlen
  have hasked : p ∈ reqs.filter (fun q : ReadReq => q.hint != 5) :=
    List.mem_filter.2 ⟨hp, bne_iff_ne.2 fun h => absurd (lengthOf_eq_zero.2 h) (Nat.ne_of_gt hpos)⟩
  have hsome : (reqs.filter (fun q : ReadReq => q.hint != 5)).isEmpty = false := List.isEmpty_eq_false_iff.2 (List.ne_nil_of_mem hasked)
  have hlongest : (reqs.filter (fun q : ReadReq => q.hint != 5)).foldl (fun m q => maxD m (leaseLen q.hint)) 0 = leaseLen p.hint :=
    foldl_maxD (fun q : ReadReq => leaseLen q.hint) _ (Nat.zero_le _)
      (fun q hq => by rw [leaseLen_toNat, leaseLen_toNat]; exact hle q (List.mem_filter.1 hq).1) (.inr ⟨p, hasked, rfl⟩)
  have hlatest : reqs.foldl (fun m q => maxD m q.ct) 0 = c := foldl_maxD (fun q : ReadReq => q.ct) _ (Nat.zero_le _) hct (.inr hc)
  rw [leaseEnd, hsome, if_neg Bool.false_ne_true, hlongest, hlatest, leaseLen_eq]

end

theorem timed_of_memory {s u : State} {cell : Nat} {w r : Dword} (h : u.memory = s.memory) (ht : Timed s cell w r) : Timed u cell w r := by
  unfold Timed State.side at ht ⊢
  rw [h]
  exact ht

section

variable {s : State} {cell : Nat} {y : Umbra} {e : Ecc} {w r : Dword}

/-- The times of a line whose data leaves the vault, whatever key reads it (R53). -/
theorem timed_leaveVault (hc : s.homeCell y.pa = some cell) (hf : cell < farCell) (hl : s.lost cell = false) (hs : Sound s cell)
    (ht : Timed s cell w r) : Timed (s.leaveVault y e).2 cell w (leaseEnd y.reqs w r) := by
  obtain ⟨hfound, -, hside⟩ := noteEcc_found s cell e
  have ht1 : Timed (s.noteEcc cell e) cell w r := by
    unfold Timed
    rw [hside]
    exact ht
  have ht2 := timed_setTimes (s.noteEcc cell e) w (leaseEnd y.reqs w r) hf
  simp only [State.leaveVault, hc, findErrors_sound _ hs, times_of_timed hf ht1, (hfound.lost cell).trans hl, Bool.false_eq_true, if_false]
  split
  · exact timed_of_memory (homeLine_memory _ _ _ _) ht2
  · exact timed_of_memory (by simp only [modHub_memory, homeLine_memory]) ht2

theorem vaultDataLeaves_timed (hy : (s.vault (vaultOf cell)).umbras = [y]) (hleft : y.left = none) (hwaits : y.waits = false)
    (hc : s.homeCell y.pa = some cell) (hf : cell < farCell) (hl : s.lost cell = false) (hs : Sound s cell) (ht : Timed s cell w r) :
    ∃ u, exec (.vaultDataLeaves (vaultOf cell) y.way e) s = .next u ∧ Timed u cell w (leaseEnd y.reqs w r) := by
  refine ⟨(s.leaveVault y e).2.setUmbra (vaultOf cell) { y with left := some (s.leaveVault y e).1 }, ?_, timed_leaveVault hc hf hl hs ht⟩
  show execVaultDataLeaves (vaultOf cell) y.way e s = _
  simp [execVaultDataLeaves, hy, hleft, hwaits]

end

/-- Settles O60: a renewal carries its hint's length, and home takes the longest one asked. -/
theorem leaseLengths : Obligations.LeaseLengths := by
  unfold Obligations.LeaseLengths
  refine ⟨?_, ?_⟩
  · intro o r s t L e x hrow h hr hform a ct hint hcoh hline hlease
    obtain ⟨u, n, hexec, hthread, haccs, hsame, hnet⟩ := ld_renews hrow h hr hcoh hline hlease
    refine ⟨u, n, hexec, hthread, haccs, hsame, ?_⟩
    have hlength := lengthOf_hintOf hform (s.core L.c) a (acc_ld hrow L).2.2.2.2.1
    rw [hnet, renewalOf, hlength]
  · intro s cell y e w r c hy hleft hwaits hc hf hl hs ht hct hlatest
    obtain ⟨u, hexec, htimed⟩ := vaultDataLeaves_timed (e := e) hy hleft hwaits hc hf hl hs ht
    refine ⟨u, hexec, fun hnone => ?_, fun len hle hlen hpos => ?_⟩
    · rwa [leaseEnd_unasked hnone] at htimed
    · rwa [leaseEnd_longest hle hlen hpos hct hlatest] at htimed

end Sys2Proof.Laws
end

