-- ==== Sys2Proof/Proofs/Releases.lean ====
section
/-! SUPPORT. A release that an engine instruction makes while a slab's mode is about to change (O32; R15, R95): the step is put off whole
where the state says that it has met that slab. -/

namespace Sys2Proof.Laws

open Sys2Proof.Machine Sys2Proof.Claims

/-- The L1's copy of the first line, with its first sector to be written back. -/
def dirtyLine : L1Line :=
  { pa := 0, key := 0, bytes := List.replicate 256 7, wts := 0, rts := 0, dirty := 1, excl := false, poison := 0, keep := false
    str := false, way := 0, idle := 0 }

/-- A thread alone issues WQT at a core that holds `dirtyLine`. Slab 0 is about to change its mode, and the step under way has met it. -/
def slabMet : State :=
  let s := ((State.reset.withBlock []).modHub fun h => { h with slabWait := [(0, true)], blocked := true }).modCore 0 fun k =>
    { k with l1 := [dirtyLine] }
  { s with agenda := [], cur := { core := 0, slot := 0, quad := 0, pc := codePc, prio := 0x8000, next := codePc + 8, threads := [0] } }

/-- The issuing thread of `slabMet`. -/
def slabMetLane : Lane :=
  { s := slabMet, c := 0, slot := 0, g := soleGroup, wave := [0], tid := 0, th := Thread.start codePc 0x8000, o := blankOp }

theorem slabMet_wave : slabMet.readyWave (.wqt blankOp) blankOp = [0] := by decide +kernel

theorem slabMet_alone : slabMet.Alone (.wqt blankOp) blankOp wqtCheck 0 slabMetLane where
  once := by decide
  wave := by rw [slabMet_wave]; decide
  lane := by rw [slabMet_wave]; rfl
  tiles := by decide
  active := by decide
  passes := by rw [slabMet_wave]; decide +kernel
  calm := rfl
  sole := slabMet_wave
  fresh := rfl

theorem slabMet_l1 : (slabMet.core slabMetLane.c).l1 = [dirtyLine] := rfl

/-- What the thread of `slabMet` waits for after its WQT. -/
def waitAfterWqt : Option Wait :=
  match exec (.wqt blankOp) slabMet with
  | .next u => (u.thread? 0 0 0).bind (·.wait)
  | _ => none

theorem waitAfterWqt_none : waitAfterWqt = none := by decide +kernel

/-- Refutes O32: WQT's release is put off, thread and dirty line as they were, where a slab's mode is about to change and the state says
that the step under way has met it (`hub.blocked`, the model's own, of log entry 57). The statement takes any state of the hub. -/
theorem not_releases : ¬ Obligations.Releases := by
  unfold Obligations.Releases
  rintro ⟨flushes, -, -⟩
  obtain ⟨u, hu, hwaits, -⟩ := flushes (.wqt blankOp) blankOp wqtCheck (fun _ => true) Lane.wqtArgs slabMet 0 slabMetLane rfl
    slabMet_alone rfl (by rw [slabMet_l1]; exact ⟨dirtyLine, List.mem_singleton_self _, by decide⟩)
    (fun x hx => by rw [slabMet_l1] at hx; obtain rfl := List.mem_singleton.1 hx; exact ⟨rfl, rfl⟩)
  have goesOn := waitAfterWqt_none
  rw [waitAfterWqt, hu] at goesOn
  change (u.thread? 0 0 0).bind _ = none at goesOn
  rw [show u.thread? 0 0 0 = _ from hwaits] at goesOn
  cases goesOn

end Sys2Proof.Laws
end

