-- ==== Sys2Proof/Proofs/HomeFrames.lean ====
section
/-! SUPPORT. What a unit that goes to home directly leaves as it was where no error stands (R18, R22, R93, R98): home serves lines without a
core or a register of the hub, and of a core at most lines leave the L1. -/

namespace Sys2Proof.Laws

open Sys2Proof.Machine Sys2Proof.Claims

/-! ## Home -/

/-- Home has served lines in which no error stands: only messages, vaults, memory and free values have changed. -/
structure HomeServes (s u : State) : Prop where
  state : s.errors = [] → u = { s with net := u.net, seq := u.seq, free := u.free, vaults := u.vaults, memory := u.memory }

theorem HomeServes.refl (s : State) : HomeServes s s := ⟨fun _ => rfl⟩

theorem HomeServes.trans {s u v : State} (h : HomeServes s u) (k : HomeServes u v) : HomeServes s v := by
  refine ⟨fun he => ?_⟩
  have hu := h.state he
  have hv := k.state (by rw [hu]; exact he)
  rw [hu] at hv
  exact hv

theorem homeServes_foldl {β : Type} {f : State → β → State} (hf : ∀ s b, HomeServes s (f s b)) (l : List β) (s : State) :
    HomeServes s (l.foldl f s) := by
  induction l generalizing s with
  | nil => exact .refl s
  | cons b l ih => exact (hf s b).trans (ih _)

theorem homeServes_ite {s u v : State} {c : Prop} [Decidable c] (hu : HomeServes s u) (hv : HomeServes s v) :
    HomeServes s (if c then u else v) := by
  split
  · exact hu
  · exact hv

theorem homeServes_post (s : State) (m : Msg) : HomeServes s (s.post m) := ⟨fun _ => rfl⟩

theorem homeServes_modVault (s : State) (v : Nat) (f : Vault → Vault) : HomeServes s (s.modVault v f) := ⟨fun _ => rfl⟩

theorem homeServes_readMem (s : State) (key pa n : Nat) : HomeServes s (s.readMem key pa n).2 := by
  obtain ⟨f, hf⟩ := readMem_state s key pa n
  rw [hf]
  exact ⟨fun _ => rfl⟩

theorem homeServes_findErrors (s : State) (cell : Nat) (sects : BitVec 4) : HomeServes s (s.findErrors cell sects) :=
  ⟨fun he => by rw [findErrors_sound sects (fun k _ => by rw [he]; rfl)]⟩

theorem homeServes_clearErrors (s : State) (cell : Nat) (sects : BitVec 4) : HomeServes s (s.clearErrors cell sects) := by
  refine ⟨fun he => ?_⟩
  have hnone : (s.clearErrors cell sects).errors = s.errors := by
    rw [State.clearErrors, he]
    rfl
  exact congrArg (fun l => ({ s with errors := l } : State)) hnone

theorem homeServes_setTimes (s : State) (cell : Nat) (w r : Dword) : HomeServes s (s.setTimes cell w r) :=
  homeServes_ite ⟨fun _ => rfl⟩ ⟨fun _ => rfl⟩

theorem homeServes_homeLine (s : State) (key pa cell : Nat) : HomeServes s (s.homeLine key pa cell).2 := by
  have h := homeServes_readMem s key (lineOf pa) 256
  unfold State.homeLine
  generalize s.readMem key (lineOf pa) 256 = r at h
  exact h

theorem homeServes_storeHome (s : State) (key line : Nat) (data : List (Nat × Byte)) : HomeServes s (s.storeHome key line data) := by
  obtain ⟨c, l, hw⟩ := writeMem_frame s key data
  unfold State.storeHome
  simp only [hw]
  split
  · exact .refl s
  · exact homeServes_ite (.refl s) (homeServes_ite ⟨fun _ => rfl⟩ ⟨fun _ => rfl⟩)

/-- A step under a generation of a key: the keys are set and put back (R32). -/
theorem homeServes_underKeys {s u : State} {g : Hub → Hub} {keys : Tbl Nat} (hg : { g s.hub with keys := s.hub.keys } = s.hub)
    (hkeys : keys = s.hub.keys) (h : HomeServes (s.modHub g) u) : HomeServes s (u.modHub fun h => { h with keys := keys }) := by
  refine ⟨fun he => ?_⟩
  have hu := h.state he
  rw [hkeys, hu]
  show { s with hub := { g s.hub with keys := s.hub.keys }, net := _, seq := _, free := _, vaults := _, memory := _ } = _
  rw [hg]
  rfl

theorem homeServes_underGen {f : State → State} (hf : ∀ s, HomeServes s (f s)) (s : State) (key gen : Nat) :
    HomeServes s (s.underGen key gen f) :=
  homeServes_ite (hf s) (homeServes_underKeys rfl rfl (hf _))

/-- The data of a read leaves its vault with no new error (R53). -/
theorem homeServes_leaveVault (s : State) (y : Umbra) : HomeServes s (s.leaveVault y { corrected := 0, bad := 0 }).2 := by
  unfold State.leaveVault
  split
  · exact ⟨fun _ => rfl⟩
  · next cell hc =>
    have hfound : HomeServes s ((s.findErrors cell 0xF).noteEcc cell { corrected := 0, bad := 0 }) :=
      (homeServes_findErrors s cell 0xF).trans ⟨fun _ => rfl⟩
    generalize (s.findErrors cell 0xF).noteEcc cell { corrected := 0, bad := 0 } = s1 at hfound ⊢
    dsimp only
    generalize (s1.times cell).1 = t, leaseEnd y.reqs (s1.times cell).1 (s1.times cell).2 = r
    have htimed : HomeServes s (if s1.lost cell then s1 else s1.setTimes cell t r) :=
      homeServes_ite hfound (hfound.trans (homeServes_setTimes _ _ _ _))
    generalize (if s1.lost cell then s1 else s1.setTimes cell t r) = s2 at htimed ⊢
    split
    · exact htimed.trans (homeServes_homeLine _ _ _ _)
    · refine ⟨fun he => (htimed.trans (homeServes_underKeys rfl ?_ (homeServes_homeLine _ y.key y.pa cell))).state he⟩
      rw [htimed.state he]

theorem homeServes_leaveNow (s : State) (v : Nat) (y : Umbra) : HomeServes s (s.leaveNow v y) := by
  unfold State.leaveNow
  refine homeServes_ite (.refl s) ?_
  have hleft := homeServes_leaveVault s y
  generalize s.leaveVault y { corrected := 0, bad := 0 } = r at hleft ⊢
  exact hleft.trans (homeServes_modVault _ _ _)

theorem homeServes_leaveAll (l : List Umbra) (v : Nat) (s : State) : HomeServes s (l.foldl (fun s u => s.leaveNow v u) s) :=
  homeServes_foldl (fun s y => homeServes_leaveNow s v y) l s

theorem homeServes_sealLine (s : State) (cell : Nat) : HomeServes s (s.sealLine cell) :=
  homeServes_foldl (fun s y => (homeServes_leaveNow s _ y).trans (homeServes_modVault _ _ _)) _ s

theorem homeServes_holdAtHome (s : State) (v : Nat) (e : Excl) (gen : Nat) (m : Msg) : HomeServes s (s.holdAtHome v e gen m) :=
  homeServes_ite (homeServes_modVault _ _ _) ((homeServes_modVault _ _ _).trans (homeServes_post _ _))

theorem homeServes_reflect (s : State) (pa key : Nat) (reqs : List ReadReq) (g : Got) : HomeServes s (s.reflect pa key reqs g) :=
  homeServes_foldl (fun s _ => homeServes_post s _) _ s

theorem homeServes_acceptRead (s : State) (r : ReadReq) : HomeServes s (s.acceptRead r) := by
  fun_cases State.acceptRead
  case case1 _ _ _ hfree =>
    have hdrawn : HomeServes s (s.freeBytes 256).2 := ⟨fun _ => rfl⟩
    rw [hfree] at hdrawn
    exact hdrawn.trans (homeServes_reflect _ _ _ _ _)
  case case6 => exact (homeServes_modVault _ _ _).trans (homeServes_holdAtHome _ _ _ _ _)
  all_goals exact homeServes_modVault _ _ _

theorem homeServes_storeAtHome (s : State) (coh : Bool) (key pa : Nat) (ct : Dword) (data : List (Nat × Byte)) :
    HomeServes s (s.storeAtHome coh key pa ct data).2 := by
  unfold State.storeAtHome
  split
  · exact .refl s
  · next cell _ =>
    split
    · exact .refl s
    · have hsealed := homeServes_sealLine s cell
      exact (homeServes_ite (hsealed.trans (homeServes_setTimes _ _ _ _)) hsealed).trans
        ((homeServes_storeHome _ _ _ _).trans (homeServes_clearErrors _ _ _))

theorem homeServes_atomicAtHome (s : State) (coh : Bool) (key pa : Nat) (ct : Dword) (kind : AccKind) (size : Nat)
    (data cmp : List Byte) : HomeServes s (s.atomicAtHome coh key pa ct kind size data cmp).2.2.2 := by
  unfold State.atomicAtHome
  split
  · exact ⟨fun _ => rfl⟩
  · next cell _ =>
    dsimp only
    split
    · exact ⟨fun _ => rfl⟩
    · have hfound := (homeServes_sealLine s cell).trans (homeServes_findErrors _ cell (1 <<< (pa / 64 % 4)))
      generalize (s.sealLine cell).findErrors cell (1 <<< (pa / 64 % 4)) = s1 at hfound
      have hread := hfound.trans (homeServes_readMem s1 key pa size)
      split
      · exact hfound.trans ⟨fun _ => rfl⟩
      · exact (homeServes_ite (hread.trans (homeServes_setTimes _ _ _ _)) hread).trans (homeServes_storeHome _ _ _ _)

theorem homeServes_renewAtHome (s : State) (core id pa key : Nat) (wts : Option Dword) (ct len : Dword) :
    HomeServes s (s.renewAtHome core id pa key wts ct len) := by
  unfold State.renewAtHome
  split
  · exact ⟨fun _ => rfl⟩
  · next cell _ =>
    have hread := homeServes_leaveAll (s.umbrasOf cell) (vaultOf cell) s
    generalize (s.umbrasOf cell).foldl (fun s2 u => s2.leaveNow (vaultOf cell) u) s = s0 at hread
    dsimp only
    have hfound : HomeServes s (if wts == some (s0.times cell).1 then s0 else s0.findErrors cell 0xF) :=
      homeServes_ite hread (hread.trans (homeServes_findErrors _ _ _))
    generalize (if wts == some (s0.times cell).1 then s0 else s0.findErrors cell 0xF) = s1 at hfound ⊢
    split
    · exact hfound.trans ((homeServes_setTimes _ _ _ _).trans (homeServes_post _ _))
    · exact (homeServes_ite hfound (hfound.trans (homeServes_setTimes _ _ _ _))).trans
        ((homeServes_homeLine _ key pa cell).trans (homeServes_post _ _))

theorem homeServes_grantExcl (s : State) (core id pa key : Nat) : HomeServes s (s.grantExcl core id pa key) := by
  unfold State.grantExcl
  split
  · exact homeServes_post _ _
  · next cell _ =>
    have hsealed := homeServes_sealLine s cell
    refine homeServes_ite (homeServes_post _ _) (homeServes_ite (hsealed.trans (homeServes_post _ _)) ?_)
    dsimp only
    have hread := (hsealed.trans (homeServes_findErrors _ cell 0xF)).trans (homeServes_homeLine _ key pa cell)
    generalize ((s.sealLine cell).findErrors cell 0xF).homeLine key pa cell = r at hread ⊢
    exact hread.trans ((homeServes_modVault _ _ _).trans (homeServes_post _ _))

theorem homeServes_performAtHome (s : State) (m : Msg) : HomeServes s (s.performAtHome m) := by
  unfold State.performAtHome
  split
  · exact homeServes_acceptRead s _
  · exact homeServes_renewAtHome s _ _ _ _ _ _ _
  · exact (homeServes_storeAtHome s _ _ _ _ _).trans (homeServes_post _ _)
  · exact (homeServes_storeAtHome s _ _ _ _ _).trans (homeServes_post _ _)
  · exact (homeServes_storeAtHome s _ _ _ _ _).trans (homeServes_post _ _)
  · exact (homeServes_atomicAtHome s _ _ _ _ _ _ _ _).trans (homeServes_post _ _)
  · exact homeServes_grantExcl s _ _ _ _
  · exact homeServes_modVault _ _ _
  · exact .refl s

theorem homeServes_release (s : State) (x : Nat × Msg) : HomeServes s (s.release x) := by
  unfold State.release
  split
  · exact homeServes_holdAtHome _ _ _ _ _
  · exact homeServes_underGen (fun s => homeServes_performAtHome s _) s _ _

theorem homeServes_returnExcl (s : State) (pa key : Nat) (dirty : BitVec 4) (g : Got) : HomeServes s (s.returnExcl pa key dirty g) := by
  unfold State.returnExcl
  split
  · next v e cell _ _ =>
    have hfreed := homeServes_modVault s v fun x => { x with excls := x.excls.filter (·.pa != e.pa) }
    refine HomeServes.trans ?_ (homeServes_foldl homeServes_release e.held _)
    exact homeServes_ite hfreed (hfreed.trans ((homeServes_setTimes _ _ _ _).trans (homeServes_storeHome _ _ _ _)))
  · exact .refl s

/-! ## The L1s -/

/-- No error stands, and no slab's mode is about to change. -/
def Untroubled (s : State) : Prop := s.errors = [] ∧ s.hub.slabWait = []

/-- Home has served lines, and at most lines have left the L1s. -/
structure LinesLeave (s u : State) : Prop where
  state : Untroubled s →
    u = { s with net := u.net, seq := u.seq, free := u.free, vaults := u.vaults, memory := u.memory, cores := u.cores }
  core  : Untroubled s → ∀ c, u.core c = { s.core c with l1 := (u.core c).l1 }
  empty : Untroubled s → ∀ c, (s.core c).l1 = [] → (u.core c).l1 = []

theorem LinesLeave.untroubled {s u : State} (h : LinesLeave s u) (hs : Untroubled s) : Untroubled u := by
  rw [h.state hs]
  exact hs

theorem LinesLeave.refl (s : State) : LinesLeave s s := ⟨fun _ => rfl, fun _ _ => rfl, fun _ _ h => h⟩

theorem LinesLeave.trans {s u v : State} (h : LinesLeave s u) (k : LinesLeave u v) : LinesLeave s v where
  state hs := by
    have hv := k.state (h.untroubled hs)
    rw [h.state hs] at hv
    exact hv
  core hs c := by
    have hv := k.core (h.untroubled hs) c
    rw [h.core hs c] at hv
    exact hv
  empty hs c hc := k.empty (h.untroubled hs) c (h.empty hs c hc)

theorem HomeServes.linesLeave {s u : State} (h : HomeServes s u) : LinesLeave s u := by
  have hcore : Untroubled s → ∀ c, u.core c = s.core c := fun hs c => by
    rw [h.state hs.1]
    rfl
  exact ⟨fun hs => h.state hs.1 ▸ rfl, fun hs c => by rw [hcore hs c], fun hs c hc => by rw [hcore hs c, hc]⟩

/-- A fold of any data that carries a state. -/
theorem linesLeave_foldl {α β : Type} {st : α → State} {f : α → β → α} (hf : ∀ a b, LinesLeave (st a) (st (f a b))) (l : List β) (a : α) :
    LinesLeave (st a) (st (l.foldl f a)) := by
  induction l generalizing a with
  | nil => exact .refl _
  | cons b l ih => exact (hf a b).trans (ih _)

theorem linesLeave_touchSlab (s : State) (pa : Nat) : LinesLeave s (s.touchSlab pa) := by
  have hsame : Untroubled s → s.touchSlab pa = s := fun hs => touchSlab_calm pa hs.2
  exact ⟨fun hs => by rw [hsame hs], fun hs c => by rw [hsame hs], fun hs c hc => by rw [hsame hs, hc]⟩

/-- Lines leave one core's L1, none where it holds none. -/
theorem linesLeave_modCore (s : State) (c : Nat) {f : List L1Line → List L1Line} (hf : f [] = []) :
    LinesLeave s (s.modCore c fun k => { k with l1 := f k.l1 }) := by
  have hother : ∀ k, k ≠ c → (s.modCore c fun k => { k with l1 := f k.l1 }).core k = s.core k := fun k => core_modCore_other s _
  refine ⟨fun _ => rfl, fun _ k => ?_, fun _ k hk => ?_⟩
  · by_cases h : k = c
    · rw [h, core_modCore]
    · rw [hother k h]
  · by_cases h : k = c
    · rw [h] at hk ⊢
      rw [core_modCore]
      exact (congrArg f hk).trans hf
    · rw [hother k h, hk]

/-- A unit that goes to home directly finds the line there (R93). -/
theorem linesLeave_pull (s : State) (pa : Nat) : LinesLeave s (s.pull pa) := by
  unfold State.pull
  split
  · exact .refl s
  · next v e _ =>
    split
    · exact (linesLeave_modCore s e.core rfl).trans (homeServes_returnExcl _ _ _ _ _).linesLeave
    · split
      · exact (HomeServes.trans ⟨fun _ => rfl⟩ (homeServes_returnExcl _ _ _ _ _)).linesLeave
      · exact (HomeServes.trans ⟨fun _ => rfl⟩ (homeServes_foldl homeServes_release e.held _)).linesLeave

theorem linesLeave_loadDirect (s : State) (key pa n : Nat) : LinesLeave s (endState (·.2.2) (s.loadDirect key pa n)) := by
  have hpull := linesLeave_pull s pa
  unfold State.loadDirect
  dsimp only
  split
  · exact hpull
  · next cell _ =>
    have hfound := hpull.trans (homeServes_findErrors (s.pull pa) cell (sectorSet (pa % 256) n)).linesLeave
    split
    · exact hfound
    · exact hfound.trans (homeServes_readMem _ key pa n).linesLeave

theorem linesLeave_hubLoad (s : State) (key pa n : Nat) : LinesLeave s (endState (·.2) (s.hubLoad key pa n)) := by
  refine linesLeave_foldl (st := endState (fun x : List Byte × State => x.2)) (fun acc p => ?_) (pieces pa n) (.ok ([], s))
  rcases acc with u | ⟨bs, u⟩
  · exact .refl u
  · have hload := (linesLeave_touchSlab u p.1).trans (linesLeave_loadDirect (u.touchSlab p.1) key p.1 p.2)
    dsimp only
    generalize (u.touchSlab p.1).loadDirect key p.1 p.2 = r at hload ⊢
    rcases r with v | ⟨x, w, v⟩ <;> exact hload

theorem linesLeave_hubStore (s : State) (coh : Bool) (key pa : Nat) (data : List (Nat × Byte)) :
    LinesLeave s (s.hubStore coh key pa data) :=
  ((linesLeave_touchSlab s pa).trans (linesLeave_pull _ pa)).trans (homeServes_storeAtHome _ coh key pa 0 data).linesLeave

/-- The lines of a core whose L1 has been emptied go home. -/
theorem linesLeave_emptied (s : State) (c : Nat) : LinesLeave (s.modCore c fun k => { k with l1 := [] }) (s.flushCore c) := by
  refine linesLeave_foldl (st := id) (fun u x => ?_) (s.core c).l1 _
  dsimp only [id]
  split
  · exact (linesLeave_touchSlab u x.pa).trans (homeServes_returnExcl _ _ _ _ _).linesLeave
  · split
    · exact .refl u
    · exact linesLeave_hubStore u _ _ _ _

section

variable {s u : State} (h : LinesLeave s u) (hs : Untroubled s)

include h hs

theorem LinesLeave.hub : u.hub = s.hub := by
  rw [h.state hs]

theorem LinesLeave.cur : u.cur = s.cur := by
  rw [h.state hs]

theorem LinesLeave.thread (c g t : Nat) : u.thread? c g t = s.thread? c g t := by
  rw [State.thread?, State.group?, h.core hs c]
  rfl

end

/-- Every line of a core goes (R98). -/
theorem linesLeave_flushCore (s : State) (c : Nat) : LinesLeave s (s.flushCore c) :=
  (linesLeave_modCore s c (f := fun _ => []) rfl).trans (linesLeave_emptied s c)

theorem flushCore_empty {s : State} (hs : Untroubled s) (c : Nat) : ((s.flushCore c).core c).l1 = [] :=
  (linesLeave_emptied s c).empty hs c (by rw [core_modCore])

theorem linesLeave_flushAll (l : List Nat) (s : State) : LinesLeave s (l.foldl (fun u k => u.flushCore k) s) :=
  linesLeave_foldl (st := id) (fun u k => linesLeave_flushCore u k) l s

/-- The L1 of every core that is flushed is empty at the end. -/
theorem flushAll_empty {s : State} (hs : Untroubled s) {l : List Nat} {k : Nat} (hk : k ∈ l) :
    ((l.foldl (fun u k => u.flushCore k) s).core k).l1 = [] := by
  induction l generalizing s with
  | nil => cases hk
  | cons c l ih =>
    have hnext := (linesLeave_flushCore s c).untroubled hs
    obtain rfl | hk := List.mem_cons.1 hk
    · exact (linesLeave_flushAll l _).empty hnext k (flushCore_empty hs k)
    · exact ih hnext hk

end Sys2Proof.Laws
end

