-- ==== Sys2Proof/Proofs/RegionStates.lean ====
section
/-! SUPPORT. RSTATE of a thread alone (O35; R98, R294): it begins only where its context moves no region, and then waits, or empties the L1s
and writes the region's entry. -/

namespace Sys2Proof.Laws

open Sys2Proof.Machine Sys2Proof.Claims

/-! ## A begun instruction is held by nothing -/

/-- An instruction of no privilege that reads no vector register and begins is held by nothing (R255). -/
theorem alone_unheld {s : State} {i : Instr} {o : Op} {check : Lane → Option Trap} {t : Nat} {L : Lane} (h : s.Alone i o check t L)
    (hpriv : opcPrivileged i.opc = false) (hu : ∀ w, { L with wave := w }.uses i = usesOf i) (hv : (usesOf i).v = []) :
    ∃ w, { L with wave := w }.holds i = false := by
  have hs : L.s = s := h.place.1
  have hl : s.lane? o s.cur.threads t = some { L with wave := s.cur.threads } := by
    rw [lane_transfer h.lane1 rfl rfl, hs]
  have htrap : L.commonTrap (usesOf i) = none := by
    have hp := h.passes
    rw [h.sole, State.trapOf, h.lane1] at hp
    simp only [h.fresh, Option.isSome_none, Bool.false_eq_true, if_false, show L.uses i = usesOf i from hu L.wave] at hp
    cases hx : L.commonTrap (usesOf i) with
    | none => rfl
    | some e => rw [hx] at hp; cases hp
  have hready : { L with wave := s.cur.threads }.ready i = true := by
    have := (List.mem_filter.1 h.wave).2
    simp only [hl, Bool.and_eq_true] at this
    exact this.2
  have hearly : { L with wave := s.cur.threads }.earlyTrap i = false := by
    simp only [Lane.earlyTrap, hpriv, Bool.false_and, Bool.false_or, List.any_eq_false, decide_eq_true_eq, Nat.not_le]
    exact h.tiles
  have hact : { L with wave := s.cur.threads }.active = true := h.active
  refine ⟨s.cur.threads, ?_⟩
  simp only [Lane.ready, Lane.readyOn, hu, commonTrap_wave hv, htrap, hearly, hact, h.fresh, Option.isSome_none, Bool.or_self,
    Bool.not_true, Bool.false_eq_true, if_false] at hready
  split at hready
  · cases hready
  · split at hready
    · cases hready
    · simp only [Bool.not_eq_true', Bool.or_eq_false_iff] at hready
      exact hready.2

section

variable {s : State} {o : Op} {t : Nat} {x : Ctx} {L : Lane}

/-- RSTATE begins only where its context moves no region (R98). -/
theorem rstate_unmoved (h : s.Alone (.rstate o) o (rstateCheck o) t L) (hx : tfind s.hub.contexts L.g.ctx = some x) : x.moving = none := by
  obtain ⟨w, hw⟩ := alone_unheld h rfl (fun _ => rfl) (by simp [usesOf, Instr.shape, shapeUses, fieldUse, Uses.add])
  have hs : L.s = s := h.place.1
  simp only [Lane.holds, h.fresh, hs, Bool.or_eq_false_iff, State.moving, hx, Option.any_some, Option.isSome_eq_false_iff,
    Option.isNone_iff_eq_none] at hw
  exact hw.2.2

/-! ## The region's entry -/

/-- The entry of a region that changes its state, with the core as its owner in PRV (R34, R98). -/
def movedEntry (old : Dword) (c st : Nat) : Dword :=
  let st1 := (old &&& ~~~0x18#64) ||| BitVec.ofNat 64 (st * 8)
  if st = 2 then (st1 &&& ~~~0xFF800#64) ||| BitVec.ofNat 64 (c * 2048) else st1

theorem toNat_extract_ofNat (n start len : Nat) :
    ((BitVec.ofNat 64 n).extractLsb' start len).toNat = n % 2 ^ 64 / 2 ^ start % 2 ^ len := by
  rw [BitVec.extractLsb'_toNat, BitVec.toNat_ofNat, Nat.shiftRight_eq_div_pow]

theorem extract_named (old : Dword) (st : Nat) :
    ((old &&& ~~~0x18#64) ||| BitVec.ofNat 64 (st * 8)).extractLsb' 3 2 = BitVec.ofNat 2 st := by
  have hnamed : (BitVec.ofNat 64 (st * 8)).extractLsb' 3 2 = BitVec.ofNat 2 st :=
    BitVec.eq_of_toNat_eq ((toNat_extract_ofNat _ 3 2).trans (by rw [BitVec.toNat_ofNat]; omega))
  rw [BitVec.extractLsb'_or, BitVec.extractLsb'_and, hnamed, show (~~~0x18#64).extractLsb' 3 2 = 0#2 by decide, BitVec.and_zero,
    BitVec.zero_or]

theorem regionOf_movedEntry_state (old : Dword) (c : Nat) {st : Nat} (hst : st < 4) : (regionOf (movedEntry old c st)).state = st := by
  have hnamed := extract_named old st
  have hfits : (BitVec.ofNat 2 st).toNat = st := Nat.mod_eq_of_lt hst
  show ((movedEntry old c st).extractLsb' 3 2).toNat = st
  unfold movedEntry
  dsimp only
  split
  · have howner : (BitVec.ofNat 64 (c * 2048)).extractLsb' 3 2 = 0#2 :=
      BitVec.eq_of_toNat_eq ((toNat_extract_ofNat _ 3 2).trans (by rw [BitVec.toNat_ofNat]; omega))
    rw [BitVec.extractLsb'_or, BitVec.extractLsb'_and, hnamed, howner, show (~~~0xFF800#64).extractLsb' 3 2 = BitVec.allOnes 2 by decide,
      BitVec.and_allOnes, BitVec.or_zero, hfits]
  · rw [hnamed, hfits]

theorem regionOf_movedEntry_owner (old : Dword) (c : Nat) : (regionOf (movedEntry old c 2)).owner = c % 512 := by
  have howner : ((BitVec.ofNat 64 (c * 2048)).extractLsb' 11 9).toNat = c % 512 := (toNat_extract_ofNat _ 11 9).trans (by omega)
  show BitVec.toNat (BitVec.extractLsb' 11 9 ((_ &&& ~~~0xFF800#64) ||| _)) = _
  rw [BitVec.extractLsb'_or, BitVec.extractLsb'_and, show (~~~0xFF800#64).extractLsb' 11 9 = 0#9 by decide, BitVec.and_zero,
    BitVec.zero_or, howner]

/-- The lines of the context's cores go, and the entry is read, changed and written (R98). -/
theorem changeRegion_eq {c ctx n st : Nat} (hs : Untroubled s) (hx : tfind s.hub.contexts ctx = some x) :
    ∃ u old, LinesLeave s u ∧ (∀ k ∈ s.coresFor ctx, (u.core k).l1 = []) ∧ s.changeRegion c ctx n st =
      u.modHub fun h => { h with
        contexts := tset h.contexts ctx { x with moving := none, regions := x.regions.set n (movedEntry old c st) } } := by
  have hflush := linesLeave_flushAll (s.coresFor ctx) s
  have hempty : ∀ k ∈ s.coresFor ctx, _ := fun k hk => flushAll_empty hs hk
  unfold State.changeRegion
  dsimp only
  generalize (s.coresFor ctx).foldl (fun u k => u.flushCore k) s = s1 at hflush hempty ⊢
  have hx1 : tfind s1.hub.contexts ctx = some x := by rw [hflush.hub hs, hx]
  have hload := linesLeave_hubLoad s1 0 (x.raf + 8 * n) 8
  have hs1 := hflush.untroubled hs
  simp only [hx1]
  generalize s1.hubLoad 0 (x.raf + 8 * n) 8 = r at hload ⊢
  have hstore : ∀ (s2 : State) data, LinesLeave s1 s2 → LinesLeave s1 (s2.hubStore true 0 (x.raf + 8 * n) data) :=
    fun s2 data h => h.trans (linesLeave_hubStore s2 true 0 _ data)
  have hkept : ∀ u, LinesLeave s1 u → ∀ k ∈ s.coresFor ctx, (u.core k).l1 = [] :=
    fun u h k hk => h.empty hs1 k (hempty k hk)
  rcases r with s2 | ⟨bs, s2⟩
  · exact ⟨_, s2.regionEntry ctx n, hflush.trans (hstore s2 _ hload), hkept _ (hstore s2 _ hload), rfl⟩
  · exact ⟨_, BitVec.ofNat 64 (leNat bs), hflush.trans (hstore s2 _ hload), hkept _ (hstore s2 _ hload), rfl⟩

theorem changeRegion_changes {c ctx n st : Nat} (hs : Untroubled s) (hx : tfind s.hub.contexts ctx = some x) :
    let u := s.changeRegion c ctx n st
    u.cur = s.cur ∧ SameThreads s u ∧ (∀ k ∈ s.coresFor ctx, (u.core k).l1 = []) ∧ ∃ old,
      tfind u.hub.contexts ctx = some { x with moving := none, regions := x.regions.set n (movedEntry old c st) } := by
  obtain ⟨v, old, hleave, hempty, hchange⟩ := changeRegion_eq (c := c) (n := n) (st := st) hs hx
  dsimp only
  rw [hchange]
  exact ⟨hleave.cur hs, hleave.thread hs, hempty, old, tfind_tset_self _ _ _⟩

/-! ## RSTATE -/

/-- The state that RSTATE names (R259, R260). -/
theorem rstateState_eq (o : Op) :
    rstateState o = (if o.form = .w64 ∧ o.imm = true then (Lane.imm20 o).toNat else o.b.toNat) % 4 := by
  simp only [rstateState, rstateArg, Bool.and_eq_true, beq_iff_eq]

theorem movingRegion_eq {ctx : Nat} (hx : tfind s.hub.contexts ctx = some x) (n : Nat) : movingRegion s ctx n =
    s.modHub fun h => { h with contexts := tset h.contexts ctx { x with moving := some (n, s.seq) } } := by
  simp only [movingRegion, State.modHub, hx]

/-- What RSTATE has done by the end of its step, with its region held: its thread waits, or the change is made. -/
def rstateEnds (s : State) (o : Op) (L : Lane) : State :=
  let begun := movingRegion s L.g.ctx (rstateRegion o)
  if begun.rstateBusy L.g.ctx then begun.wait L.c L.slot L.tid .region
  else begun.waitSlab fun s1 => (s1.changeRegion L.c L.g.ctx (rstateRegion o) (rstateState o)).moveTo [L.tid] s.cur.next

theorem rstate_runs {th : Thread} (h : s.Alone (.rstate o) o (rstateCheck o) t L) (hx : tfind s.hub.contexts L.g.ctx = some x)
    (hcur : (rstateEnds s o L).cur = s.cur) (hthread : (rstateEnds s o L).thread? s.cur.core s.cur.slot t = some th) (hdue : th.due = []) :
    exec (.rstate o) s = .next (rstateEnds s o L) := by
  have hends : ∀ body : List Nat → List Nat → State → State, body [t] [t] s = rstateEnds s o L →
      s.frame (.rstate o) o (rstateCheck o) body true = rstateEnds s o L := by
    intro body hbody
    rw [h.stayed (by rw [hbody, hcur]) (by rw [hbody, hthread]) hdue, hbody]
  obtain ⟨-, -, -, htid, -⟩ := h.place
  refine congrArg Host.Outcome.next (hends _ ?_)
  simp only [h.lanes, rstateEnds, movingRegion, State.modHub, hx, rstate_unmoved h hx, Option.getD_none, htid, List.filter_cons, h.fresh,
    Option.isNone_none, if_true, List.filter_nil, List.foldl]

/-- RSTATE waits while accesses to its region are under way (R98). -/
theorem rstate_waits (h : s.Alone (.rstate o) o (rstateCheck o) t L) (hx : tfind s.hub.contexts L.g.ctx = some x)
    (hbusy : (movingRegion s L.g.ctx (rstateRegion o)).rstateBusy L.g.ctx = true) :
    ∃ u, exec (.rstate o) s = .next u ∧ u.thread? L.c L.slot t = some (waiting s L.c L.th .region) ∧
      tfind u.hub.contexts L.g.ctx = some { x with moving := some (rstateRegion o, s.seq) } ∧ SameBytes s u := by
  obtain ⟨-, hc, hslot, htid, -⟩ := h.place
  let begun := movingRegion s L.g.ctx (rstateRegion o)
  have hbegun : begun = _ := movingRegion_eq hx (rstateRegion o)
  have hends : rstateEnds s o L = begun.wait L.c L.slot t .region := by rw [rstateEnds, hbusy, if_pos rfl, htid]
  have hsame : SameButCores begun (rstateEnds s o L) := by rw [hends]; exact modThread_same _ _ _ _ _
  have hthread : (rstateEnds s o L).thread? s.cur.core s.cur.slot t = some (waiting s L.c L.th .region) := by
    rw [hends, hc, hslot, thread_wait (by rw [hbegun]; exact h.thread) .region, hbegun]
    rfl
  have hcur : (rstateEnds s o L).cur = s.cur := hsame.cur.trans (by rw [hbegun]; rfl)
  have hhub := hsame.hub
  rw [hbegun] at hhub
  refine ⟨_, rstate_runs (th := waiting s L.c L.th .region) h hx hcur hthread h.calm, by rw [hc, hslot, hthread, hc], ?_, ?_⟩
  · rw [hhub]
    exact tfind_tset_self _ _ _
  · refine sameBytes_of_memory (hsame.memory.trans (by rw [hbegun]; rfl)) ?_ ?_ ?_ <;> rw [hhub] <;> rfl

/-- RSTATE changes a region to which no access is under way (R98, R294). -/
theorem rstate_changes (h : s.Alone (.rstate o) o (rstateCheck o) t L) (hx : tfind s.hub.contexts L.g.ctx = some x)
    (hquiet : (movingRegion s L.g.ctx (rstateRegion o)).rstateBusy L.g.ctx = false) (hs : Untroubled s) :
    ∃ u old, exec (.rstate o) s = .next u ∧ u.thread? L.c L.slot t = some (after s L.th) ∧
      tfind u.hub.contexts L.g.ctx = some { x with
        moving := none, regions := x.regions.set (rstateRegion o) (movedEntry old L.c (rstateState o)) } ∧
      ∀ k ∈ s.coresFor L.g.ctx, (u.core k).l1 = [] := by
  obtain ⟨-, hc, hslot, htid, -⟩ := h.place
  let begun := movingRegion s L.g.ctx (rstateRegion o)
  have hbegun : begun = _ := movingRegion_eq hx (rstateRegion o)
  have hs1 : Untroubled begun := by rw [hbegun]; exact hs
  have hx1 : tfind begun.hub.contexts L.g.ctx = some { x with moving := some (rstateRegion o, s.seq) } := by
    rw [hbegun]
    exact tfind_tset_self _ _ _
  obtain ⟨hcur, hthreads, hempty, old, hctx⟩ := changeRegion_changes (c := L.c) (n := rstateRegion o) (st := rstateState o) hs1 hx1
  have hends : rstateEnds s o L = (begun.changeRegion L.c L.g.ctx (rstateRegion o) (rstateState o)).moveTo [t] s.cur.next := by
    rw [rstateEnds, hquiet, if_neg Bool.false_ne_true, waitSlab_calm _ hs1.2, htid]
  generalize begun.changeRegion L.c L.g.ctx (rstateRegion o) (rstateState o) = w at hcur hthreads hempty hctx hends
  have hcur1 : w.cur = s.cur := hcur.trans (by rw [hbegun]; rfl)
  have hmoved : SameButCores w (rstateEnds s o L) := by rw [hends]; exact modThread_same _ _ _ _ _
  have hthread : (rstateEnds s o L).thread? s.cur.core s.cur.slot t = some (after s L.th) := by
    have hmove := thread_moveTo w [t] s.cur.next t
    rw [hcur1, if_pos (List.mem_singleton_self t), hthreads, hbegun] at hmove
    rw [hends, hmove]
    exact congrArg (Option.map _) h.thread
  refine ⟨_, old, rstate_runs (th := after s L.th) h hx (hmoved.cur.trans hcur1) hthread h.calm, by rw [hc, hslot, hthread], ?_, ?_⟩
  · rw [hmoved.hub, hctx]
  · intro k hk
    have hl1 : ((rstateEnds s o L).core k).l1 = (w.core k).l1 := by
      rw [hends]
      exact (congrArg Core.l1 (core_modThread w w.cur.core w.cur.slot t _ k) :)
    rw [hl1]
    exact hempty k (by rw [hbegun]; exact hk)

end

/-- Settles O35: RSTATE waits, or moves its region in the one step in which the L1s are emptied. -/
theorem regionStates : Obligations.RegionStates := by
  unfold Obligations.RegionStates
  intro o s t x L h hx hlength hslab n named begun
  refine ⟨fun hbusy => rstate_waits h hx hbusy, fun hquiet herrors => ?_⟩
  obtain ⟨u, old, hexec, hthread, hctx, hempty⟩ := rstate_changes h hx hquiet ⟨herrors, hslab⟩
  have hn : n < x.regions.length := by rw [hlength]; exact Nat.mod_lt _ (by decide)
  have hnamed : rstateState o = named := rstateState_eq o
  have hentry : (x.regions.set n (movedEntry old L.c named)).getD n 0 = movedEntry old L.c named := by
    rw [List.getD_eq_getElem?_getD, List.getElem?_set_self hn]
    rfl
  rw [hnamed] at hctx
  refine ⟨u, _, hexec, hthread, hctx, rfl, ?_, fun hprv => ?_, fun k hk => ?_, hempty⟩
  · exact (congrArg (fun e => (regionOf e).state) hentry).trans (regionOf_movedEntry_state old L.c (Nat.mod_lt _ (by decide)))
  · refine (congrArg (fun e => (regionOf e).owner) hentry).trans ?_
    rw [hprv]
    exact regionOf_movedEntry_owner old L.c
  · show (x.regions.set n _).getD k 0 = _
    rw [List.getD_eq_getElem?_getD, List.getElem?_set_ne (Ne.symm hk), List.getD_eq_getElem?_getD]

end Sys2Proof.Laws
end
